-- ==== Sys2Proof/Word.lean ====
section
/-! DEFINITION. The word types of the Q-768 (R4, R25): bytes, 64-bit registers and 32-bit words. -/
namespace Sys2Proof

/-- One byte of memory. -/
abbrev Byte := BitVec 8
/-- The contents of one x register, and every other 64-bit quantity. -/
abbrev Word := BitVec 64
/-- One 32-bit word: an instruction word, a hook, a half of an accumulator pair. -/
abbrev Half := BitVec 32
/-- 256-bit descriptors: ciphertext, table and key registers (R344, R360, R363). -/
abbrev Desc := BitVec 256

end Sys2Proof
end

