-- ==== Sys2Proof/Machine/Bits.lean ====
section
/-! DEFINITION. Bit-level helpers: byte order, bit counts, lengths of numbers, list access by number. -/
namespace Sys2Proof.Machine

/-- The bytes of a number, least significant first (R4). -/
def toBytes : Nat → Nat → List Byte
  | 0, _ => []
  | n + 1, v => BitVec.ofNat 8 v :: toBytes n (v / 256)

/-- The number whose bytes these are, least significant first (R4). -/
def ofBytes : List Byte → Nat
  | [] => 0
  | b :: bs => b.toNat + 256 * ofBytes bs

/-- The number of one bits among the low n bits. -/
def popCount : Nat → Nat → Nat
  | 0, _ => 0
  | n + 1, v => (if v.testBit n then 1 else 0) + popCount n v

/-- The number of zero bits above the highest one among the low n bits. -/
def leadingZeros : Nat → Nat → Nat
  | 0, _ => 0
  | n + 1, v => if v.testBit n then 0 else 1 + leadingZeros n v

/-- The number of zero bits below the lowest one, counting up to n from bit i. -/
def trailingZeros : Nat → Nat → Nat → Nat
  | 0, _, _ => 0
  | n + 1, i, v => if v.testBit i then 0 else 1 + trailingZeros n (i + 1) v

/-- The bytes of a 64-bit value in reverse order (R244). -/
def byteSwap (v : Word) : Word := BitVec.ofNat 64 (ofBytes (toBytes 8 v.toNat).reverse)

/-- The low l bits of k in reverse order (R61). -/
def bitReverse : Nat → Nat → Nat
  | 0, _ => 0
  | l + 1, k => 2 ^ l * (k % 2) + bitReverse l (k / 2)

/-- The least m with 2^m ≥ n, for n ≥ 1. -/
def clog2 (n : Nat) : Nat := if n ≤ 1 then 0 else (n - 1).log2 + 1

/-- Ceiling of a division. -/
def cdiv (a b : Nat) : Nat := (a + b - 1) / b

/-- The integer square root, bit by bit from bit `fuel` downward. -/
def isqrt : Nat → Nat → Nat → Nat
  | 0, _, r => r
  | f + 1, n, r => let c := r + 2 ^ f; isqrt f n (if c * c ≤ n then c else r)

/-- Element i of a list, or a default. -/
def at' (l : List α) (i : Nat) (d : α) : α := l.getD i d

/-- Sign extension of the low w bits of a number to an integer. -/
def sextInt (w v : Nat) : Int := if v % 2 ^ w < 2 ^ (w - 1) then ((v % 2 ^ w : Nat) : Int) else ((v % 2 ^ w : Nat) : Int) - 2 ^ w

/-- An integer modulo 2^w. -/
def wrapInt (w : Nat) (v : Int) : Nat := (v % (2 ^ w : Nat)).toNat

/-- Sign extension of the low w bits of a word to 64 bits. -/
def sextWord (w : Nat) (v : Word) : Word := BitVec.ofInt 64 (sextInt w v.toNat)

/-- The low w bits of a word. -/
def zextWord (w : Nat) (v : Word) : Word := BitVec.ofNat 64 (v.toNat % 2 ^ w)

/-- A field of a number: n bits from bit lo upward. -/
def fieldN (v lo n : Nat) : Nat := v / 2 ^ lo % 2 ^ n

/-- Inserts a number into a list in rising order, once. -/
def insertSorted (k : Nat) : List Nat → List Nat
  | [] => [k]
  | x :: xs => if k < x then k :: x :: xs else if k = x then x :: xs else x :: insertSorted k xs

/-- Replaces the first element that satisfies a test, or adds one at the end. -/
def upsert (p : α → Bool) (new : α → α) (fresh : α) : List α → List α
  | [] => [new fresh]
  | x :: xs => if p x then new x :: xs else x :: upsert p new fresh xs

end Sys2Proof.Machine
end

