-- ==== Sys2Proof/Machine/Hash.lean ====
section
/-! DEFINITION. SHAKE128 and SHAKE256 (R187, R361, FIPS 202) and the CRC-32 of IEEE 802.3 (R132, R135). -/
namespace Sys2Proof.Machine

/-! The 1,600 bits of the sponge are one number, lane x + 5y in bits [64(x + 5y) + 63 : 64(x + 5y)]; a plane is 5 lanes, 320 bits. -/

/-- Lane i. -/
def laneOf (st i : Nat) : Nat := st / 2 ^ (64 * i) % 2 ^ 64
/-- A lane turned left by k < 64 bits. -/
def turnLane (v k : Nat) : Nat := (v <<< k ||| v >>> (64 - k)) % 2 ^ 64
/-- A plane whose lane x is lane x + k of the given one. -/
def turnPlane (p k : Nat) : Nat := (p >>> (64 * k) ||| p <<< (320 - 64 * k)) % 2 ^ 320
/-- Plane y. -/
def planeOf (st y : Nat) : Nat := st / 2 ^ (320 * y) % 2 ^ 320
/-- A number made of five planes. -/
def ofPlanes (f : Nat → Nat) : Nat := (List.range 5).foldr (fun y acc => f y + 2 ^ 320 * acc) 0

/-- θ: every plane takes the parities of the columns before and, turned by one bit, after each of its columns. -/
def mixColumns (st : Nat) : Nat :=
  let parity := (List.range 5).foldl (fun p y => p ^^^ planeOf st y) 0
  let turned := (List.range 5).foldr (fun x acc => turnLane (laneOf parity x) 1 + 2 ^ 64 * acc) 0
  let d := turnPlane parity 4 ^^^ turnPlane turned 1
  ofPlanes fun y => planeOf st y ^^^ d
/-- ρ and π in one walk over the 24 lanes other than lane 0: the lane at each place, turned by a triangular number of bits, goes to
the next place of the walk. -/
def walkLanes (st : Nat) : Nat → Nat → Nat × Nat → Nat
  | 0, _, _ => laneOf st 0
  | n + 1, k, (x, y) =>
    let next : Nat × Nat := (y, (2 * x + 3 * y) % 5)
    turnLane (laneOf st (x + 5 * y)) (k * (k + 1) / 2 % 64) * 2 ^ (64 * (next.1 + 5 * next.2)) + walkLanes st n (k + 1) next
/-- χ: within each plane a lane changes where the next one is clear and the one after it is set. -/
def chiPlanes (st : Nat) : Nat :=
  ofPlanes fun y =>
    let p := planeOf st y
    p ^^^ ((turnPlane p 1 ^^^ (2 ^ 320 - 1)) &&& turnPlane p 2)
/-- A power of x modulo x^8 + x^6 + x^5 + x^4 + 1. -/
def xPower : Nat → Nat
  | 0 => 1
  | n + 1 => let r := 2 * xPower n; if 256 ≤ r then r ^^^ 0x171 else r
/-- The constant of ι in round r: bit 2^j − 1 is the constant term of x^(j + 7r). -/
def iota (r : Nat) : Nat := (List.range 7).foldl (fun acc j => acc + xPower (j + 7 * r) % 2 * 2 ^ (2 ^ j - 1)) 0
/-- The permutation of FIPS 202: 24 rounds. -/
def permute (st : Nat) : Nat :=
  (List.range 24).foldl (fun a r => chiPlanes (walkLanes (mixColumns a) 24 1 (1, 0)) ^^^ iota r) st

/-- Absorbs n blocks of `rate` bytes, each from bit 0 of the state. -/
def absorb (rate : Nat) : Nat → Nat → List Byte → Nat
  | 0, st, _ => st
  | n + 1, st, m => absorb rate n (permute (st ^^^ ofBytes (m.take rate))) (m.drop rate)

/-- The padding of SHAKE: 1111, 1, zeros, 1. -/
def shakePad (rate : Nat) (m : List Byte) : List Byte :=
  let k := rate - m.length % rate
  if k = 1 then m ++ [0x9F] else m ++ [0x1F] ++ List.replicate (k - 2) 0 ++ [0x80]

/-- Squeezes n blocks. -/
def squeeze (rate : Nat) : Nat → Nat → List Byte
  | 0, _ => []
  | n + 1, st => toBytes rate st ++ squeeze rate n (permute st)

/-- SHAKE with a rate in bytes, n bytes of output. -/
def shake (rate : Nat) (m : List Byte) (n : Nat) : List Byte :=
  let p := shakePad rate m
  (squeeze rate (cdiv n rate) (absorb rate (p.length / rate) 0 p)).take n
def shake128 (m : List Byte) (n : Nat) : List Byte := shake 168 m n
def shake256 (m : List Byte) (n : Nat) : List Byte := shake 136 m n

/-- CRC-32, one byte at a time, reflected polynomial 0xEDB88320. -/
def crcBits : Nat → Nat → Nat
  | 0, c => c
  | n + 1, c => crcBits n (if c % 2 = 1 then c / 2 ^^^ 0xEDB88320 else c / 2)
def crc32 (m : List Byte) : Nat :=
  m.foldl (fun c b => crcBits 8 (c ^^^ b.toNat)) 0xFFFFFFFF ^^^ 0xFFFFFFFF

end Sys2Proof.Machine
end

