-- ==== Sys2Proof/Machine/ModArith.lean ====
section
/-! DEFINITION. Modular arithmetic (R58 to R62) and polynomials modulo X^N + 1 on lists of residues (R342, R356 to R366). -/
namespace Sys2Proof.Machine

/-- The residue of an integer in [0, q); 0 for q = 0. -/
def modQ (q : Nat) (v : Int) : Nat := (v % (q : Int)).toNat

/-- a and b with q = 2^a − 2^b + 1, 8 ≤ a ≤ 64, 1 ≤ b < a (R58). -/
def modulusForm (q : Nat) : Option (Nat × Nat) :=
  let a := (q - 1).log2 + 1
  let b := trailingZeros 64 0 (q - 1)
  if 8 ≤ a ∧ a ≤ 64 ∧ 1 ≤ b ∧ b < a ∧ q + 2 ^ b = 2 ^ a + 1 then some (a, b) else none

/-- x^n mod q by squaring over the bits of n. -/
def powModAux (q : Nat) : Nat → Nat → Nat → Nat → Nat
  | 0, _, _, acc => acc
  | f + 1, x, n, acc => powModAux q f (x * x % q) (n / 2) (if n % 2 = 1 then acc * x % q else acc)
def powMod (q x n : Nat) : Nat := powModAux q (n.log2 + 1) (x % q) n (1 % q)

/-- One entry of the modulus table (R59). -/
structure ModEntry where
  q : Nat
  psi : Nat
  psiinv : Nat
  ninv : Nat
  lgn : Nat
  a : Nat
deriving DecidableEq, Repr

/-- Reads an entry; none where its valid bit is 0. -/
def modEntry (e : BitVec 512) : Option ModEntry :=
  let v := e.toNat
  if v.testBit 511 then
    let q := fieldN v 0 64
    some { q, psi := fieldN v 64 64, psiinv := fieldN v 128 64, ninv := fieldN v 192 64, lgn := fieldN v 256 5,
           a := match modulusForm q with | some (a, _) => a | none => 0 }
  else none

/-- The checks of `mtld` on an entry whose valid bit is 1 (R59). -/
def modEntryOk (e : BitVec 512) : Bool :=
  let v := e.toNat
  let q := fieldN v 0 64
  match modulusForm q with
  | none => false
  | some (_, b) =>
    fieldN v 64 64 < q && fieldN v 128 64 < q && fieldN v 192 64 < q && fieldN v 261 250 == 0 &&
    1 ≤ fieldN v 256 5 && fieldN v 256 5 ≤ b - 1

/-- The root ω of a transform of size 2^l (R61), or its inverse. -/
def ModEntry.root (m : ModEntry) (inv : Bool) (l : Nat) : Nat :=
  powMod m.q (if inv then m.psiinv else m.psi) (2 ^ (m.lgn - l))

/-- Element j of a block after one forward stage (R308): `a` reads the block's elements. -/
def nttElem (q w0 l s : Nat) (a : Nat → Nat) (j : Nat) : Nat :=
  let t := 2 ^ l / 2 ^ (s + 1)
  let m := j / (2 * t)
  let p := j % (2 * t)
  let x := a (2 * m * t + p % t)
  let y := a (2 * m * t + p % t + t)
  let w := powMod q w0 (bitReverse l (2 ^ s + m))
  if p < t then modQ q (x + w * y) else modQ q ((x : Int) - w * y)

/-- Element j of a block after one inverse stage; stage 0 multiplies by n^−1 (R61, R308). -/
def inttElem (q w0 ninv l s : Nat) (a : Nat → Nat) (j : Nat) : Nat :=
  let t := 2 ^ l / 2 ^ (s + 1)
  let m := j / (2 * t)
  let p := j % (2 * t)
  let x := a (2 * m * t + p % t)
  let y := a (2 * m * t + p % t + t)
  let w := powMod q w0 (bitReverse l (2 ^ s + m))
  let r := if p < t then modQ q (x + y) else modQ q (((x : Int) - y) * w)
  if s = 0 then r * ninv % q else r

/-- The gadget digits of x, digit 1 first, signed (R62). -/
def digitsAux (beta : Nat) (y : Nat) : Nat → Nat → Nat → List Int
  | 0, _, _ => []
  | f + 1, l, c =>
    let u := y / 2 ^ (beta * l) % 2 ^ beta + c
    if u ≥ 2 ^ beta / 2 then digitsAux beta y f (l + 1) 1 ++ [(u : Int) - 2 ^ beta]
    else digitsAux beta y f (l + 1) 0 ++ [(u : Int)]
def digits (q beta ell x : Nat) : List Int :=
  digitsAux beta ((x * 2 ^ (beta * ell) + q / 2) / q % 2 ^ (beta * ell)) ell 0 0

/-- Position and sign of coefficient j after multiplication by X^c modulo X^N + 1 (R364). -/
def rotPos (n j c : Nat) : Nat × Bool :=
  let p := (j + c) % (2 * n)
  if p < n then (p, false) else (p - n, true)

/-- Rot(P, c): coefficient p of the result comes from coefficient p − c. -/
def rot (q n : Nat) (c : Nat) (p : List Nat) : List Nat :=
  (List.range n).map fun k =>
    let j := (k + 2 * n - c % (2 * n)) % (2 * n)
    if j < n then at' p j 0 % q else modQ q (-(at' p (j - n) 0 : Int))

/-- P(X^γ) modulo X^N + 1, γ odd (R309, R357). -/
def autoPoly (q n g : Nat) (p : List Nat) : List Nat :=
  let put (acc : Array Nat) (j : Nat) : Array Nat :=
    let k := j * g % (2 * n)
    if k < n then acc.setIfInBounds k (at' p j 0 % q) else acc.setIfInBounds (k - n) (modQ q (-(at' p j 0 : Int)))
  ((List.range n).foldl put (Array.replicate n 0)).toList

/-- Sum and difference, coefficient by coefficient. -/
def addPoly (q : Nat) (a b : List Nat) : List Nat := List.zipWith (fun x y => (x + y) % q) a b
def subPoly (q : Nat) (a b : List Nat) : List Nat := List.zipWith (fun x y => modQ q ((x : Int) - y)) a b

/-- The negacyclic product modulo X^N + 1 and q. -/
def mulPoly (q n : Nat) (a b : List Nat) : List Nat :=
  let aa := a.toArray
  let ba := b.toArray
  (List.range n).map fun k =>
    modQ q ((List.range n).foldl (fun (acc : Int) i =>
      if i ≤ k then acc + (aa.getD i 0 : Int) * ba.getD (k - i) 0
      else acc - (aa.getD i 0 : Int) * ba.getD (n + k - i) 0) 0)

/-- The centred value of a residue, in (−q/2, q/2]. -/
def centred (q x : Nat) : Int := if 2 * (x % q) ≤ q then ((x % q : Nat) : Int) else ((x % q : Nat) : Int) - q

/-- floor(w·qd/qs + 1/2) mod qd, the modulus switch of R357. -/
def switchWord (qs qd w : Nat) : Nat := (2 * w * qd + qs) / (2 * qs) % qd

/-- The encoding of a message (R343). -/
def encMsg (q p m : Nat) : Nat := (2 * m * q + p) / (2 * p) % q

/-- A forward or inverse transform of size 2^l over list data, stage by stage (R61). -/
def inverseNtt (q w0 ninv l : Nat) (a : List Nat) : List Nat :=
  (List.range l).foldl (fun acc i =>
    let s := l - 1 - i
    let arr := acc.toArray
    (List.range (2 ^ l)).map (inttElem q w0 ninv l s (fun k => arr.getD k 0))) a

end Sys2Proof.Machine
end

