-- ==== Sys2Proof/Packets.lean ====
section
/-! DEFINITION. The data that a device event brings with it from outside the issuing harts: packets of other devices,
host requests, the choices of a dispatcher. Every type is plain data. -/
namespace Sys2Proof

/-- Where a dispatcher puts one hart: core, context, lowest lane, offset of the TCM slice in the core's TCM and of the
task's scratchpad allocation in the cluster's scratchpad (R106, R20, R21). -/
structure Place where
  core : Nat
  ctx : Nat
  lane0 : Nat
  tcm : Nat
  spad : Nat
deriving DecidableEq, Repr

/-- What happens at a bounce channel's ring (R385): a slot of the host arrives with all its bytes, a transfer is aborted,
or the device sends the staging slot `dc` of payload length `len`. -/
inductive SlotInput where
  | arrives (bytes : List Byte)
  | aborted
  | send (len : Nat)
deriving DecidableEq, Repr

/-- A firmware image that Thatum verifies at reset (R183): its bytes, its version, its signature. -/
structure BootImage where
  code : List Byte
  version : Nat
  sig : List Byte
deriving DecidableEq, Repr

/-- The stages of the boot sequence (R386): reset with the images to verify, the end of verification with the keying of the die-to-die
links, the end of memory initialisation, the end of link training. -/
inductive BootStep where
  | start (images : List BootImage)
  | verify
  | memory
  | links
deriving DecidableEq, Repr

/-- A class-3 plane control packet (R131, R135): the plane it concerns, a slice erased from a frame onward, or the frame counter. -/
inductive PlaneMsg where
  | degraded (plane slice frame : Nat)
  | resync (plane frame : Nat)
deriving DecidableEq, Repr

/-- One packet that waits at an input of a slice switch in a frame: the destination value that the slice has read from its preamble
(R133); `last` says that its last flit passes in this frame (R134). -/
structure PortReq where
  inp : Nat
  dest : BitVec 12
  last : Bool
deriving DecidableEq, Repr

/-- What a requester's leaf says of a far datum, as a full header carries it (R140). -/
structure FarTag where
  world : Nat
  lworld : Nat
  enc : Nat
deriving DecidableEq, Repr

/-- WR: a write of `data` from local physical address `addr` upward; `seq` is its packet's sequence number (R142, R143). -/
structure WrReq where
  seq : Nat
  tag : FarTag
  addr : Nat
  data : List Byte
deriving DecidableEq, Repr

/-- RD: a read of `len` bytes (R142). -/
structure RdReq where
  rid : Nat
  tag : FarTag
  addr : Nat
  len : Nat
deriving DecidableEq, Repr

/-- The payload of a read response: the bytes, or the WORLD refusal of R170 with its cause. -/
inductive RdResult where
  | data (bytes : List Byte)
  | world (cause : Nat)
deriving DecidableEq, Repr

/-- RDR; `world` is the world of the request (R140). -/
structure RdReply where
  rid : Nat
  res : RdResult
  world : Nat := 0
deriving DecidableEq, Repr

/-- The operation of a read-modify-write, in the order of R248; `cas` is code 9. -/
inductive AmoOp where
  | add | and | or | xor | min | max | minu | maxu | swap | cas
deriving DecidableEq, Repr, Inhabited

/-- AMO: `cmp` is the compared value of a `cas` (R142, R144). -/
structure AmoReq where
  rid : BitVec 16
  tag : FarTag
  addr : Nat
  op : AmoOp
  arg : Word
  cmp : Word
deriving DecidableEq, Repr

/-- The payload of an atomic response (R142, R144, R170, R176). -/
inductive AmoResult where
  | old (v : Word)
  | unknown
  | world (cause : Nat)
  | keystream
deriving DecidableEq, Repr, Inhabited

/-- AMOR; `world` is the world of the request (R140). -/
structure AmoReply where
  rid : BitVec 16
  res : AmoResult
  world : Nat := 0
deriving DecidableEq, Repr

/-- WACK: the seq of the last write acknowledged and the count of consecutive writes ending there (R142); `refused` is the cause of
the WORLD refusal that the home answers, 0 where the writes were performed (R170, log 36); `world` is the world of the writes (R140). -/
structure WackMsg where
  seq : Nat
  count : Nat
  refused : Nat := 0
  world : Nat := 0
deriving DecidableEq, Repr

/-- A sleeve: the device whose directory holds it, its directory entry, its world (R148). -/
structure SleeveId where
  home : Nat
  index : Nat
  world : Nat := 0
deriving DecidableEq, Repr

/-- The transit record of an end passed through another sleeve (R150): its world, its gen at the passing hart, and its next
item sequence (a send end) or next sequence to deliver (a receive end); `loc` is the receive end's device as a passed send
end knew it, or the device of the forwarding entry of a passed receive end. -/
structure Transit where
  sl : SleeveId
  recv : Bool
  world : Nat
  gen : Nat
  next : Nat
  loc : Nat
  taken : Nat
deriving DecidableEq, Repr

/-- SLI: item number `seq` of sleeve `sl`, with its poison mark, and its transit record where it is a cuff (R142, R149, R150). -/
structure SleeveItem where
  sl : SleeveId
  seq : Nat
  value : Word
  poison : Bool
  cuff : Option Transit
deriving DecidableEq, Repr

/-- SLC: the messages of R149, R151 and R152. -/
inductive SleeveCtl where
  /-- to the home: an end has attached at the sending device with this gen; a send end brings its next item sequence -/
  | attach (sl : SleeveId) (recv : Bool) (gen next : Nat)
  /-- from the home to the send end's holder: where the receive end is, at which gen -/
  | location (sl : SleeveId) (dev gen : Nat)
  /-- from the home to the forwarding entry that the end left at a gen: forward to this device -/
  | forward (sl : SleeveId) (dev gen : Nat)
  /-- from the send end's holder to the home: its next item sequence, now that it uses the location of a gen -/
  | next (sl : SleeveId) (s gen : Nat)
  /-- from the home to the forwarding entry that the end left at a gen: forward items below s, then drop -/
  | upto (sl : SleeveId) (s gen : Nat)
  /-- to the send end's holder: item `seq` lies in a receive buffer or forwarding entry -/
  | landed (sl : SleeveId) (seq : Nat)
  /-- to the home and on to the send end's holder: `slrecv` has taken this many items, so a credit returns -/
  | credit (sl : SleeveId) (taken : Nat)
  /-- to the home or the other end's holder: this end is closed; a send end brings the number of items it sent -/
  | closed (sl : SleeveId) (recv : Bool) (sent : Nat)
  /-- to the home and on to the holder of the named end (`recv` true: the receive end): the other end is lost -/
  | orphan (sl : SleeveId) (recv : Bool)
deriving DecidableEq, Repr

/-- The sleeve that a control message is about. -/
def SleeveCtl.sl : SleeveCtl → SleeveId
  | .attach sl _ _ _ | .location sl _ _ | .forward sl _ _ | .next sl _ _ | .upto sl _ _ | .landed sl _ | .credit sl _ | .closed sl _ _
  | .orphan sl _ => sl

/-- TLR: one record on its way to its destination buffer (R159); `world` is the world of its hart (R140). -/
structure TailorRec where
  gid : Nat
  epoch : Nat
  mmap : BitVec 512
  src : Nat
  idx : Nat
  how : Nat
  buf : Nat
  data : List Byte
  world : Nat := 0
deriving DecidableEq, Repr

/-- What a member tells the others of one of its records: key and weight (`rprun`) or the destination entry (`rpdisp`), and
whether it holds a poisoned word (R156, R158, R339). -/
structure RecKey where
  key : Nat
  weight : Nat
  dest : Half
  poison : Bool
deriving DecidableEq, Repr

/-- What a member brings to the exchange of counts (R155 to R158, R338); `rlen` is its record length. -/
structure TailorInput where
  disp : Bool
  policy : Nat
  rlen : Nat
  caps : List Nat
  spill : List Nat
  recs : List RecKey
  bad : Bool
deriving DecidableEq, Repr

/-- TLC: tailoring control (R142): a member's part in the exchange, its word that its overflow list has been checked, the
landing of one record at its destination, and an operation ended with a status; each with the world of its hart (R140). -/
inductive TailorCtl where
  | exchange (gid epoch : Nat) (mmap : BitVec 512) (inp : TailorInput) (world : Nat)
  | ready (gid epoch : Nat) (mmap : BitVec 512) (world : Nat)
  | outcome (gid epoch : Nat) (mmap : BitVec 512) (idx world : Nat)
  | ended (gid epoch : Nat) (mmap : BitVec 512) (status world : Nat)
deriving DecidableEq, Repr
def TailorCtl.world : TailorCtl → Nat
  | .exchange _ _ _ _ w | .ready _ _ _ w | .outcome _ _ _ _ w | .ended _ _ _ _ w => w

/-- BAR: an arrival at the coordinator of command `op` of hart 8·core + context, or the close of an episode toward a participant (R326). -/
inductive BarMsg where
  | arrive (world id n op hart : Nat)
  | close (world op : Nat)
deriving DecidableEq, Repr
def BarMsg.world : BarMsg → Nat
  | .arrive w _ _ _ _ | .close w _ => w

/-- CLM: units of one 256-byte block, each with whether it is to be written, in rising element order; `group` is how many units make
one element (R142, R176, R178). -/
structure ClmReq where
  rid : Nat
  tag : FarTag
  group : Nat
  units : List (Nat × Bool)
deriving DecidableEq, Repr

/-- The answer for one unit (R142); a refusal brings the cause of its WORLD (R170, R178). -/
inductive UnitResult where
  | claimed | set | clear
  | refused (cause : Nat)
deriving DecidableEq, Repr

/-- CLMR: per unit the result and the nonce and gen of its region (R142, R178); `world` is the world of the request (R140). -/
structure ClmReply where
  rid : Nat
  units : List (UnitResult × Word × Half)
  world : Nat := 0
deriving DecidableEq, Repr

/-- A CXL.io request to BAR0 (R181, R379): direction, size in bytes, offset, data, T bit and requesting TDI's world. -/
structure HostReq where
  write : Bool
  size : Nat
  off : Nat
  data : Word
  tbit : Bool
  tdi : Nat
deriving DecidableEq, Repr

/-- Where an ECC error strikes (R211): a memory word by its key divided by 8, a register of a hart by file (0 x and 6 h of the level in
use, 1 v, 2 m, 3 c, 4 z, 5 a CSR, 7 tb, 8 k, 9 an entry of the modulus table, 10 to 12 x and 13 to 15 h of user, supervisor and machine
level, 16 the pc, 17 to 19 entries of the nest and 20 to 22 ldest and lidx of user, supervisor and machine level, 23 the window limits, 24 an
entry of the profile table) and number, a line whose MAC fails, a register of register space by its offset, or unowned or firmware state. -/
inductive EccTarget where
  | word (key8 : Nat)
  | reg (hart file num : Nat)
  | line (key64 : Nat)
  | firmware
  | page (off : Nat)
deriving DecidableEq, Repr

/-- A secured SPDM or TDISP message over DOE (R180). -/
inductive SpdmMsg where
  | getMeasurements
  | ideKey
  | lockTdi (world : Nat)
  | startTdi (world : Nat)
  | stopTdi (world : Nat)
deriving DecidableEq, Repr

/-- A CXL.mem request of one 64-byte line at a host-managed address (R378, R212). -/
structure CxlReq where
  write : Bool
  addr : Nat
  data : List Byte
  poison : Bool
deriving DecidableEq, Repr

/-- A queue binding with its code image at local physical `base`, `len` bytes (R107, R185). -/
structure BindReq where
  queue : Nat
  world : Nat
  cls : Nat
  serial : Bool
  home : Nat
  base : Nat
  len : Nat
deriving DecidableEq, Repr

/-- What a peer sends as a session with it starts anew: its next atomic id (R145) and its measurements (R179). -/
structure SessionOffer where
  peer : Nat
  next : BitVec 16
  meas : List Byte
deriving DecidableEq, Repr

end Sys2Proof
end

