-- ==== Sys2Proof/Config.lean ====
section
/-! DEFINITION. What the spec leaves open or outside the machine: free values without a body, and the constants of one device. -/
namespace Sys2Proof.Config

/-- A free choice: which of several outcomes that R8 allows comes about; the first argument is the machine's running
counter, the second distinguishes the choices of one step. -/
opaque pick : Nat → Nat → Nat
/-- A free value: how much `cycle` runs ahead of the model's count of steps, by the running counter (R1, R127, R269). -/
opaque cycleAt : Nat → Word
/-- A free value: `time` in nanoseconds at a running count (R269, R382). -/
opaque timeAt : Nat → Word
/-- The AES-256 key that a key name stands for (R138, R207, R384): keys come from sessions and fuses, and no rule gives one. -/
opaque keyOf (name : Nat) : BitVec 256
/-- A world's element key, the same on every device of the domain (R175). -/
opaque elementKey (world : Nat) : BitVec 256
/-- A world's line key pair on a device (R173): the data key in the low half. -/
opaque lineKeys (device world : Nat) : BitVec 512
/-- The 28-bit MAC of a ciphertext line and its address under the world's MAC key (R173 names what it covers and no algorithm). -/
opaque lineMac (device world line : Nat) (cipher : List Byte) : BitVec 28
/-- The Falcon-1024 signature with the identity key over a digest, padded to 1,280 bytes (R187, R380). -/
opaque falcon (digest : List Byte) : List Byte
/-- The duty that the power arbiter grants a stack (R127 names what it depends on and gives no function): from the package limit,
the stack's limit, the measured currents and the stack's number; the model clamps it to 4 to 16. -/
opaque dutyOf (pkglim stklim : Nat) (current : List Nat) (stack : Nat) : Nat
/-- Whether the Larpol root key fused into the device accepts a signature over a digest (R183). -/
opaque larpolVerify (digest sig : List Byte) : Bool
/-- The fused anti-rollback counter (R183). -/
opaque rollback : Nat
/-- A temperature that the management sideband carries (R387), by sensor, at a running count. -/
opaque temperature : Nat → Nat → Word
/-- The SHAKE256 digest of the identity public key, 64 bytes (R386). -/
opaque identityDigest : BitVec 512
/-- The 2N-th root of unity that the pattern expander's transform uses for modulus q and size N (R361 names no root). -/
opaque patternRoot (q n : Nat) : Nat
/-- The payload of an atomic request or response, a sleeve, tailoring, barrier or claim packet read from its bytes:
R142 names the contents and gives no byte layout. -/
opaque amoPayload : List Byte → AmoOp × Word × Word
/-- As `amoPayload`, for AMOR. -/
opaque amorPayload : List Byte → AmoResult
/-- As `amoPayload`, for SLI. -/
opaque sliPayload : List Byte → Option SleeveItem
/-- As `amoPayload`, for SLC. -/
opaque slcPayload : List Byte → Option SleeveCtl
/-- As `amoPayload`, for TLR. -/
opaque tlrPayload : List Byte → Option TailorRec
/-- As `amoPayload`, for TLC. -/
opaque tlcPayload : List Byte → Option TailorCtl
/-- As `amoPayload`, for BAR. -/
opaque barPayload : List Byte → Option BarMsg
/-- As `amoPayload`, for CLM. -/
opaque clmPayload : List Byte → Nat × List (Nat × Bool)
/-- As `amoPayload`, for CLMR. -/
opaque clmrPayload : List Byte → List (UnitResult × Word × Half)

/-- The bytes of an atomic request's payload: the layouts that `amoPayload` and its companions read, for sending. -/
opaque amoBytes : AmoOp → Word → Word → List Byte
/-- As `amoBytes`, for AMOR. -/
opaque amorBytes : AmoResult → List Byte
/-- As `amoBytes`, for SLI. -/
opaque sliBytes : SleeveItem → List Byte
/-- As `amoBytes`, for SLC. -/
opaque slcBytes : SleeveCtl → List Byte
/-- As `amoBytes`, for TLR. -/
opaque tlrBytes : TailorRec → List Byte
/-- As `amoBytes`, for TLC. -/
opaque tlcBytes : TailorCtl → List Byte
/-- As `amoBytes`, for BAR. -/
opaque barBytes : BarMsg → List Byte
/-- As `amoBytes`, for CLM. -/
opaque clmBytes : Nat → List (Nat × Bool) → List Byte
/-- As `amoBytes`, for CLMR. -/
opaque clmrBytes : List (UnitResult × Word × Half) → List Byte
/-- The target field of a read response that brings a refusal's cause. -/
opaque refusalAddr : Nat → Nat
/-- A frame's grants (output, input, class) as bytes: R135 names their order and no layout. -/
opaque grantBytes : List (Nat × Nat × Nat) → List Byte

/-- Whether a data packet's body opens with a compressed header: R140 and R141 name no bit that tells the two forms apart. -/
opaque isCompressed : List Byte → Bool
/-- The cause that a read response without data brings, by its target field (R142 and R170 give a refusal no layout). -/
opaque refusalCause : Nat → Nat
/-- The numbers from which the pattern expander counts rows and limbs (R361 does not say 0 or 1). -/
opaque patternFirst : Nat × Nat
/-- The scale of the result of `ct.extr` (0), `ct.brinit` (1), `ct.brstep` (2) or `ct.brfin` (3), which R359 and R364 to R366 do not state:
a function of the profile's constants, the source's scale and the other operand, since a result depends on its operands alone (R40). -/
opaque ctScale (op base : Nat) (q : List Nat) (scale : BitVec 8) (other : Desc) : BitVec 8
/-- What stands for an inverse that does not exist: two moduli of an A64K profile with a common factor (R341 asks only that
they differ; R356 and R358 then state no value). -/
opaque noInverse : Nat → Nat → Nat

end Sys2Proof.Config
end

