-- ==== Sys2Proof/Machine/Aes.lean ====
section
/-! DEFINITION. AES-256 (FIPS 197) and what the device builds from it: counter-mode streams and tags of GCM (R137, R207, R384), the
region key and keystream of element mode (R175), the stored form of a line-mode line (R172, R173). Blocks and keys are byte strings. -/
namespace Sys2Proof.Machine

/-- The product of two elements of GF(2^8) by the polynomial 0x11B; n is the number of bits of b still to take. -/
def mulByte : Nat → Nat → Nat → Nat
  | 0, _, _ => 0
  | n + 1, a, b =>
    let d := 2 * a
    (if b % 2 = 1 then a else 0) ^^^ mulByte n (if 256 ≤ d then d ^^^ 0x11B else d) (b / 2)
/-- a^(2^n − 2), which for n = 8 is the inverse, with 0 for 0. -/
def invByte (a : Nat) : Nat → Nat
  | 0 => 1
  | n + 1 => if n = 0 then 1 else let r := mulByte 8 (invByte a n) a; mulByte 8 r r
/-- The substitution of one byte: the inverse, turned and added to itself, plus 0x63. -/
def subByte (b : Byte) : Byte :=
  let v := BitVec.ofNat 8 (invByte b.toNat 8)
  v ^^^ v.rotateLeft 1 ^^^ v.rotateLeft 2 ^^^ v.rotateLeft 3 ^^^ v.rotateLeft 4 ^^^ 0x63

/-- The substitutions of all bytes, once. -/
def subBox : Array Byte := ((List.range 256).map fun i => subByte (BitVec.ofNat 8 i)).toArray
/-- Adds two byte strings bit by bit. -/
def xorBytes (a b : List Byte) : List Byte := List.zipWith (· ^^^ ·) a b

/-- Key words from the last eight, the youngest first: word i of FIPS 197 for a key of eight words; `rc` is the next round constant. -/
def keyWords : Nat → Nat → Nat → List (List Byte) → List (List Byte)
  | 0, _, _, ws => ws
  | n + 1, i, rc, ws =>
    let last := ws.getD 0 []
    let t : List Byte :=
      if i % 8 = 0 then xorBytes ((last.drop 1 ++ last.take 1).map subByte) [BitVec.ofNat 8 rc, 0, 0, 0]
      else if i % 8 = 4 then last.map subByte else last
    keyWords n (i + 1) (if i % 8 = 0 then mulByte 8 rc 2 else rc) (xorBytes (ws.getD 7 []) t :: ws)
/-- The 15 round keys of a 32-byte key. -/
def roundKeys (key : List Byte) : List (List Byte) :=
  let first := (List.range 8).map fun i => (key.drop (4 * i)).take 4
  let ws := (keyWords 52 8 1 first.reverse).reverse
  (List.range 15).map fun r => ((ws.drop (4 * r)).take 4).flatten

/-- Byte i of a block after the substitution and the turn of the rows: row i mod 4, column i / 4 plus the row. -/
def turnedRows (blk : List Byte) : List Byte := (List.range 16).map fun i => subBox.getD (blk.getD ((4 * (i / 4 + i % 4) + i % 4) % 16) 0).toNat 0
/-- The columns multiplied by 2, 3, 1, 1. -/
def mixedRows (blk : List Byte) : List Byte :=
  (List.range 16).map fun i =>
    let at' (k : Nat) : Nat := (blk.getD (i / 4 * 4 + (i + k) % 4) 0).toNat
    BitVec.ofNat 8 (mulByte 8 (at' 0) 2 ^^^ mulByte 8 (at' 1) 3 ^^^ at' 2 ^^^ at' 3)
/-- The rounds after the first key addition; the last one mixes no columns. -/
def aesRounds : List (List Byte) → List Byte → List Byte
  | [], blk => blk
  | [k], blk => xorBytes (turnedRows blk) k
  | k :: ks, blk => aesRounds ks (xorBytes (mixedRows (turnedRows blk)) k)
/-- One block under its round keys. -/
def aesUnder (ks : List (List Byte)) (blk : List Byte) : List Byte :=
  match ks with
  | k :: ks => aesRounds ks (xorBytes blk k)
  | [] => blk
/-- AES-256 of one block. -/
def aes (key blk : List Byte) : List Byte := aesUnder (roundKeys key) blk

/-- A product in the field of GCM, the first bit of a block being the constant term; n bits of a are still to take, the highest
first. -/
def mulBlock : Nat → Nat → Nat → Nat
  | 0, _, _ => 0
  | n + 1, a, v =>
    (if a.testBit n then v else 0) ^^^ mulBlock n a (if v % 2 = 1 then v / 2 ^^^ 0xE1 * 2 ^ 120 else v / 2)
/-- A block as a number, its first byte highest. -/
def beNat (l : List Byte) : Nat := ofBytes l.reverse
/-- A number as n bytes, the highest first. -/
def beBytes (n v : Nat) : List Byte := (toBytes n v).reverse
/-- The hash of GCM over whole blocks. -/
def ghash (h : Nat) (blocks : List (List Byte)) : Nat := blocks.foldl (fun y b => mulBlock 128 (y ^^^ beNat b) h) 0
/-- A byte string as blocks, the last one filled with zeros. -/
def toBlocks (l : List Byte) : List (List Byte) :=
  (List.range (cdiv l.length 16)).map fun i => let b := (l.drop (16 * i)).take 16; b ++ List.replicate (16 - b.length) 0

/-- The stream byte at a position under a key and a 96-bit IV (NIST SP 800-38D): counter blocks from 2. -/
def gcmByte (key : List Byte) (iv : BitVec 96) (pos : Nat) : Byte :=
  (aes key (beBytes 12 iv.toNat ++ beBytes 4 (2 + pos / 16))).getD (pos % 16) 0
/-- A text under a key and an IV, or back; block by block. -/
def gcmCrypt (key : List Byte) (iv : BitVec 96) (text : List Byte) : List Byte :=
  let ks := roundKeys key
  xorBytes text ((List.range (cdiv text.length 16)).flatMap fun i => aesUnder ks (beBytes 12 iv.toNat ++ beBytes 4 (2 + i)))
/-- The tag over authenticated data and a ciphertext. -/
def gcmTag (key : List Byte) (iv : BitVec 96) (aad cipher : List Byte) : List Byte :=
  let h := beNat (aes key (List.replicate 16 0))
  let s := ghash h (toBlocks aad ++ toBlocks cipher ++ [beBytes 8 (8 * aad.length) ++ beBytes 8 (8 * cipher.length)])
  xorBytes (beBytes 16 s) (aes key (beBytes 12 iv.toNat ++ beBytes 4 1))

/-- The bytes of the key that a name stands for. -/
def keyOctets (name : Nat) : List Byte := toBytes 32 (Config.keyOf name).toNat
/-- A text encrypted under a named key, then its tag. -/
def sealText (key : Nat) (iv : BitVec 96) (aad text : List Byte) : List Byte :=
  let c := gcmCrypt (keyOctets key) iv text
  c ++ gcmTag (keyOctets key) iv aad c
/-- The text of a ciphertext, where its tag is the one that the key gives it. -/
def openText (key : Nat) (iv : BitVec 96) (aad cipher tag : List Byte) : Option (List Byte) :=
  if gcmTag (keyOctets key) iv aad cipher == tag then some (gcmCrypt (keyOctets key) iv cipher) else none

/-- The region key of a generation (R175), from the world's element key. -/
def regionKey (ek : List Byte) (nonce : Word) (gen : Half) : List Byte :=
  (List.range 2).flatMap fun i => aes ek (toBytes 8 nonce.toNat ++ toBytes 4 gen.toNat ++ toBytes 4 i)
/-- The keystream of the 16-byte block number H >> 4 under a region key (R175). -/
def regionBlock (rk : List Byte) (block : Nat) : List Byte := aes rk (toBytes 16 (block % 2 ^ 52))

/-- The tweak of XTS block j of a line, from the tweak of block 0: doubled j times (IEEE 1619). -/
def tweakAt (t : Nat) : Nat → Nat
  | 0 => t
  | n + 1 => let d := 2 * tweakAt t n; if 2 ^ 128 ≤ d then (d - 2 ^ 128) ^^^ 0x87 else d
/-- A 64-byte line as DRAM holds it in line mode (R172, R173): XTS under a key pair, with the line number as the tweak. -/
def xtsLine (k1 k2 : List Byte) (line : Nat) (text : List Byte) : List Byte :=
  let t0 := ofBytes (aes k2 (toBytes 16 line))
  (List.range 4).flatMap fun j =>
    let t := toBytes 16 (tweakAt t0 j)
    xorBytes (aes k1 (xorBytes ((text.drop (16 * j)).take 16) t)) t

end Sys2Proof.Machine
end

