-- ==== Sys2Proof/Syntax.lean ====
section
/-! DEFINITION. The instruction set: one constructor for each row of the opcode table, in its order. An encoded word keeps
its operand fields as the bits of the word (R220 to R232); a compact instruction keeps its fields a and b (R234); a device
event carries what comes from outside the issuing hart. -/
namespace Sys2Proof

/-- One step of the part: an instruction word, a compact instruction or a device event. -/
inductive Instr where
  /-- ADD (R244). Writes X[A] + X[B] mod 2^64 to X[D]. -/
  | add (d a b : BitVec 5)
  /-- SUB (R244). Writes X[A] − X[B] mod 2^64 to X[D]. -/
  | sub (d a b : BitVec 5)
  /-- AND (R244). Writes the bitwise AND of X[A] and X[B] to X[D]. -/
  | and (d a b : BitVec 5)
  /-- OR (R244). Writes the bitwise OR of X[A] and X[B] to X[D]. -/
  | or (d a b : BitVec 5)
  /-- XOR (R244). Writes the bitwise XOR of X[A] and X[B] to X[D]. -/
  | xor (d a b : BitVec 5)
  /-- SHL (R244). Shifts X[A] left by X[B][5:0]. -/
  | shl (d a b : BitVec 5)
  /-- SHR (R244). Shifts X[A] right by X[B][5:0] with zero fill. -/
  | shr (d a b : BitVec 5)
  /-- SRA (R244). Shifts X[A] right by X[B][5:0] with sign fill. -/
  | sra (d a b : BitVec 5)
  /-- SLT (R244). Writes 1 if X[A] < X[B] signed, else 0. -/
  | slt (d a b : BitVec 5)
  /-- SLTU (R244). Writes 1 if X[A] < X[B] unsigned, else 0. -/
  | sltu (d a b : BitVec 5)
  /-- MIN (R244). Writes the signed minimum of X[A] and X[B]. -/
  | min (d a b : BitVec 5)
  /-- MAX (R244). Writes the signed maximum of X[A] and X[B]. -/
  | max (d a b : BitVec 5)
  /-- MINU (R244). Writes the unsigned minimum of X[A] and X[B]. -/
  | minu (d a b : BitVec 5)
  /-- MAXU (R244). Writes the unsigned maximum of X[A] and X[B]. -/
  | maxu (d a b : BitVec 5)
  /-- MUL (R244). Writes the low 64 bits of X[A]·X[B] at latency 3. -/
  | mul (d a b : BitVec 5)
  /-- MULH (R244). Writes bits [127:64] of the signed product. -/
  | mulh (d a b : BitVec 5)
  /-- MULHU (R244). Writes bits [127:64] of the unsigned product. -/
  | mulhu (d a b : BitVec 5)
  /-- DIV (R245). Starts a signed division that writes X[D] and posts its hook within 70 cy. -/
  | div (d a b : BitVec 5) (h : BitVec 4)
  /-- DIVU (R245). Starts an unsigned division that writes X[D] and posts its hook. -/
  | divu (d a b : BitVec 5) (h : BitVec 4)
  /-- REM (R245). Starts a signed remainder that writes X[D] and posts its hook. -/
  | rem (d a b : BitVec 5) (h : BitVec 4)
  /-- REMU (R245). Starts an unsigned remainder that writes X[D] and posts its hook. -/
  | remu (d a b : BitVec 5) (h : BitVec 4)
  /-- CLZ (R244). Writes the count of leading zero bits of X[A]. -/
  | clz (d a : BitVec 5)
  /-- CTZ (R244). Writes the count of trailing zero bits of X[A]. -/
  | ctz (d a : BitVec 5)
  /-- POPC (R244). Writes the number of one bits of X[A]. -/
  | popc (d a : BitVec 5)
  /-- BSWAP (R244). Writes the bytes of X[A] in reverse order. -/
  | bswap (d a : BitVec 5)
  /-- ADDI (R246). Adds a sign-extended 16-bit immediate to X[A]. -/
  | addi (d a : BitVec 5) (imm : BitVec 16)
  /-- ANDI (R246). ANDs X[A] with a sign-extended immediate. -/
  | andi (d a : BitVec 5) (imm : BitVec 16)
  /-- ORI (R246). ORs X[A] with a zero-extended immediate. -/
  | ori (d a : BitVec 5) (imm : BitVec 16)
  /-- XORI (R246). XORs X[A] with a zero-extended immediate. -/
  | xori (d a : BitVec 5) (imm : BitVec 16)
  /-- SHLI (R246). Shifts X[A] left by an immediate amount. -/
  | shli (d a : BitVec 5) (n : BitVec 6)
  /-- SHRI (R246). Shifts X[A] right by an immediate amount with zero fill. -/
  | shri (d a : BitVec 5) (n : BitVec 6)
  /-- SRAI (R246). Shifts X[A] right by an immediate amount with sign fill. -/
  | srai (d a : BitVec 5) (n : BitVec 6)
  /-- SLTI (R246). Writes 1 if X[A] is below the signed immediate. -/
  | slti (d a : BitVec 5) (imm : BitVec 16)
  /-- SLTIU (R246). Writes 1 if X[A] is below the sign-extended immediate compared unsigned. -/
  | sltiu (d a : BitVec 5) (imm : BitVec 16)
  /-- LHI (R246). Loads sext(imm16 << 16) into X[D]. -/
  | lhi (d : BitVec 5) (imm : BitVec 16)
  /-- LPC (R246). Writes pc plus sext(imm16 << 16) to X[D]. -/
  | lpc (d : BitVec 5) (imm : BitVec 16)
  /-- LD_B (R247). Loads a sign-extended byte; a non-TCM address needs a hook. -/
  | ldB (d a : BitVec 5) (h : BitVec 4) (imm : BitVec 9)
  /-- LD_H (R247). Loads a sign-extended halfword. -/
  | ldH (d a : BitVec 5) (h : BitVec 4) (imm : BitVec 9)
  /-- LD_W (R247). Loads a sign-extended word. -/
  | ldW (d a : BitVec 5) (h : BitVec 4) (imm : BitVec 9)
  /-- LD_D (R247). Loads a doubleword. -/
  | ldD (d a : BitVec 5) (h : BitVec 4) (imm : BitVec 9)
  /-- LD_BU (R247). Loads a zero-extended byte. -/
  | ldBu (d a : BitVec 5) (h : BitVec 4) (imm : BitVec 9)
  /-- LD_HU (R247). Loads a zero-extended halfword. -/
  | ldHu (d a : BitVec 5) (h : BitVec 4) (imm : BitVec 9)
  /-- LD_WU (R247). Loads a zero-extended word. -/
  | ldWu (d a : BitVec 5) (h : BitVec 4) (imm : BitVec 9)
  /-- ST_B (R247). Stores the low byte of X[D]. -/
  | stB (d a : BitVec 5) (h : BitVec 4) (imm : BitVec 9)
  /-- ST_H (R247). Stores the low halfword of X[D]. -/
  | stH (d a : BitVec 5) (h : BitVec 4) (imm : BitVec 9)
  /-- ST_W (R247). Stores the low word of X[D]. -/
  | stW (d a : BitVec 5) (h : BitVec 4) (imm : BitVec 9)
  /-- ST_D (R247). Stores X[D] as a doubleword. -/
  | stD (d a : BitVec 5) (h : BitVec 4) (imm : BitVec 9)
  /-- LDACQ (R248). Loads 8 bytes as an acquire at the named scope. -/
  | ldacq (d a : BitVec 5) (h : BitVec 4) (sc : BitVec 3)
  /-- STREL (R248). Stores 8 bytes as a release at the named scope. -/
  | strel (d a : BitVec 5) (h : BitVec 4) (sc : BitVec 3)
  /-- AMO_ADD (R248). Atomically adds X[B] to a word and returns the old value. -/
  | amoAdd (d a b : BitVec 5) (h : BitVec 4) (sc : BitVec 3)
  /-- AMO_AND (R248). Atomically ANDs X[B] into a word. -/
  | amoAnd (d a b : BitVec 5) (h : BitVec 4) (sc : BitVec 3)
  /-- AMO_OR (R248). Atomically ORs X[B] into a word. -/
  | amoOr (d a b : BitVec 5) (h : BitVec 4) (sc : BitVec 3)
  /-- AMO_XOR (R248). Atomically XORs X[B] into a word. -/
  | amoXor (d a b : BitVec 5) (h : BitVec 4) (sc : BitVec 3)
  /-- AMO_MIN (R248). Atomically takes the signed minimum. -/
  | amoMin (d a b : BitVec 5) (h : BitVec 4) (sc : BitVec 3)
  /-- AMO_MAX (R248). Atomically takes the signed maximum. -/
  | amoMax (d a b : BitVec 5) (h : BitVec 4) (sc : BitVec 3)
  /-- AMO_MINU (R248). Atomically takes the unsigned minimum. -/
  | amoMinu (d a b : BitVec 5) (h : BitVec 4) (sc : BitVec 3)
  /-- AMO_MAXU (R248). Atomically takes the unsigned maximum. -/
  | amoMaxu (d a b : BitVec 5) (h : BitVec 4) (sc : BitVec 3)
  /-- AMO_SWAP (R248). Atomically swaps X[B] with a word. -/
  | amoSwap (d a b : BitVec 5) (h : BitVec 4) (sc : BitVec 3)
  /-- CAS (R248). Writes X[B] if the word equals X[D] and returns the old value. -/
  | cas (d a b : BitVec 5) (h : BitVec 4) (sc : BitVec 3)
  /-- BEQ (R249). Branches when X[A] = X[B]. -/
  | beq (a b : BitVec 5) (off : BitVec 16)
  /-- BNE (R249). Branches when X[A] ≠ X[B]. -/
  | bne (a b : BitVec 5) (off : BitVec 16)
  /-- BLT (R249). Branches when X[A] < X[B] signed. -/
  | blt (a b : BitVec 5) (off : BitVec 16)
  /-- BGE (R249). Branches when X[A] ≥ X[B] signed. -/
  | bge (a b : BitVec 5) (off : BitVec 16)
  /-- BLTU (R249). Branches when X[A] < X[B] unsigned. -/
  | bltu (a b : BitVec 5) (off : BitVec 16)
  /-- BGEU (R249). Branches when X[A] ≥ X[B] unsigned. -/
  | bgeu (a b : BitVec 5) (off : BitVec 16)
  /-- JAL (R249). Writes pc + 4 to X[D] and jumps to pc + 4·off21. -/
  | jal (d : BitVec 5) (off : BitVec 21)
  /-- JALR (R249). Jumps to X[A] + imm16 and links, trapping ALIGN on a misaligned target. -/
  | jalr (d a : BitVec 5) (imm : BitVec 16)
  /-- LOOP (R254). Pushes a hardware loop entry with count lcnt[lvl], or skips the body when it is 0. -/
  | loop (lvl : BitVec 3) (off : BitVec 9)
  /-- LOOPR (R254). Pushes a hardware loop entry with count X[A]. -/
  | loopr (a : BitVec 5) (off : BitVec 9)
  /-- DLY (R253). Takes n consecutive issue slots of its hart. -/
  | dly (n : BitVec 16)
  /-- WAIT (R251). Holds the hart until the hook reaches the threshold, or traps ENGINE on a faulted command. -/
  | wait (a : BitVec 5) (h : BitVec 4) (n : BitVec 12)
  /-- POST (R252). Adds a signed 12-bit value to a hook at issue. -/
  | post (h : BitVec 4) (n : BitVec 12)
  /-- HSET (R252). Sets a hook to X[A][31:0] at issue. -/
  | hset (a : BitVec 5) (h : BitVec 4)
  /-- HALT (R258). Waits for outstanding operations, then ends, parks or traps the hart. -/
  | halt
  /-- LAUNCH (R259). Reads a launch packet from the TCM, checks it and enqueues the task, holding while the queue is full. -/
  | launch (a : BitVec 5) (h : BitVec 4)
  /-- FADD (R260). Scalar floating-point addition rounded in fcsr.rm. -/
  | fadd (d a b : BitVec 5) (fmt : BitVec 2)
  /-- FSUB (R260). Scalar floating-point subtraction. -/
  | fsub (d a b : BitVec 5) (fmt : BitVec 2)
  /-- FMUL (R260). Scalar floating-point multiplication. -/
  | fmul (d a b : BitVec 5) (fmt : BitVec 2)
  /-- FMA (R260). Fused X[D] + X[A]·X[B] with one rounding. -/
  | fma (d a b : BitVec 5) (fmt : BitVec 2)
  /-- FDIV (R260). Starts a hooked floating-point division. -/
  | fdiv (d a b : BitVec 5) (h : BitVec 4) (fmt : BitVec 2)
  /-- FSQRT (R260). Starts a hooked floating-point square root. -/
  | fsqrt (d a : BitVec 5) (h : BitVec 4) (fmt : BitVec 2)
  /-- FMIN (R260). Writes minimumNumber of X[A] and X[B]. -/
  | fmin (d a b : BitVec 5) (fmt : BitVec 2)
  /-- FMAX (R260). Writes maximumNumber of X[A] and X[B]. -/
  | fmax (d a b : BitVec 5) (fmt : BitVec 2)
  /-- FCMP_EQ (R260). Writes 1 if X[A] = X[B] in the format, quietly. -/
  | fcmpEq (d a b : BitVec 5) (fmt : BitVec 2)
  /-- FCMP_NE (R260). Writes 1 if X[A] ≠ X[B], quietly. -/
  | fcmpNe (d a b : BitVec 5) (fmt : BitVec 2)
  /-- FCMP_LT (R260). Writes 1 if X[A] < X[B], raising NV on NaN. -/
  | fcmpLt (d a b : BitVec 5) (fmt : BitVec 2)
  /-- FCMP_LE (R260). Writes 1 if X[A] ≤ X[B], raising NV on NaN. -/
  | fcmpLe (d a b : BitVec 5) (fmt : BitVec 2)
  /-- FCMP_GT (R260). Writes 1 if X[A] > X[B], raising NV on NaN. -/
  | fcmpGt (d a b : BitVec 5) (fmt : BitVec 2)
  /-- FCMP_GE (R260). Writes 1 if X[A] ≥ X[B], raising NV on NaN. -/
  | fcmpGe (d a b : BitVec 5) (fmt : BitVec 2)
  /-- FCLASS (R261). Writes a one-hot class mask of X[A]. -/
  | fclass (d a : BitVec 5) (fmt : BitVec 2)
  /-- FCVT (R260). Converts X[A] from the source format code in B to fmt. -/
  | fcvt (d a code : BitVec 5) (fmt : BitVec 2)
  /-- FCVT_INT (R260). Converts X[A] in fmt to the integer format code in B. -/
  | fcvtInt (d a code : BitVec 5) (fmt : BitVec 2)
  /-- TRAP (R263). Raises TRAPCALL with detail n. -/
  | trap (n : BitVec 16)
  /-- ERET (R196). Returns from a trap, restoring privilege, pc and the handler bank. -/
  | eret
  /-- CSRR (R264). Reads a CSR into xd. -/
  | csrr (d : BitVec 5) (csr : BitVec 12)
  /-- CSRW (R264). Writes X[A] to a CSR. -/
  | csrw (a : BitVec 5) (csr : BitVec 12)
  /-- CSRS (R264). Sets the CSR bits that are 1 in X[A]. -/
  | csrs (a : BitVec 5) (csr : BitVec 12)
  /-- CSRC (R264). Clears the CSR bits that are 1 in X[A]. -/
  | csrc (a : BitVec 5) (csr : BitVec 12)
  /-- FENCE_ACQ (R265). Orders earlier reads before all later events at a scope. -/
  | fenceAcq (sc : BitVec 3)
  /-- FENCE_REL (R265). Orders all earlier events before later writes at a scope. -/
  | fenceRel (sc : BitVec 3)
  /-- FENCE_FULL (R265). Orders all events both ways and enters fo at its instance. -/
  | fenceFull (sc : BitVec 3)
  /-- FENCE_SV (R265). Orders the hart's scalar accesses before its vector accesses. -/
  | fenceSv
  /-- FENCE_IO (R265). Full fence that also orders later register-space and CXL.io accesses. -/
  | fenceIo (sc : BitVec 3)
  /-- BKPT (R263). Raises BKPT with detail n. -/
  | bkpt (n : BitVec 16)
  /-- ICINV (R266). Invalidates instruction caches and loop buffers over a range and posts when done. -/
  | icinv (a : BitVec 5) (h : BitVec 4) (b : BitVec 5) (sc : BitVec 3)
  /-- IDLE (R267). Holds the hart until a post, a pending asynchronous trap or a timeout. -/
  | idle
  /-- CTXSAVE (R210). Saves a supervisor's interrupted context to an encrypted image. -/
  | ctxsave (a : BitVec 5) (h : BitVec 4)
  /-- CTXRST (R210). Checks and restores a context image. -/
  | ctxrst (a : BitVec 5) (h : BitVec 4)
  /-- POOL_HEADER (R240). Pool header word; reaching it by fetch traps POOL. -/
  | poolHeader (n : BitVec 14)
  /-- SETVLI (R281). Closes the strip, sets vtype from an immediate and grants vl. -/
  | setvli (d a : BitVec 5) (yb : BitVec 1) (sew grp : BitVec 2) (tl mk : BitVec 1) (cfg : BitVec 8)
  /-- SETVL (R281). Closes the strip, sets vtype from X[B] and grants vl. -/
  | setvl (d a b : BitVec 5) (yb : BitVec 1)
  /-- SETTL (R282). Returns granted tile block sizes in its three registers. -/
  | settl (d a b : BitVec 5)
  /-- VLD (R284). Unit-stride vector load. -/
  | vld (d a : BitVec 5) (mk : BitVec 3) (dt ch : BitVec 1) (h : BitVec 4)
  /-- VST (R284). Unit-stride vector store. -/
  | vst (d a : BitVec 5) (mk : BitVec 3) (dt ch : BitVec 1) (h : BitVec 4)
  /-- MLD (R287). Loads a mask from ⌈vl/8⌉ bytes. -/
  | mld (d a : BitVec 5) (h : BitVec 4)
  /-- MST (R287). Stores a mask as ⌈vl/8⌉ bytes. -/
  | mst (d a : BitVec 5) (h : BitVec 4)
  /-- VLDS (R284). Strided vector load. -/
  | vlds (d a b : BitVec 5) (mk : BitVec 3) (dt ch : BitVec 1) (h : BitVec 4)
  /-- VSTS (R284). Strided vector store. -/
  | vsts (d a b : BitVec 5) (mk : BitVec 3) (dt ch : BitVec 1) (h : BitVec 4)
  /-- VLDX (R284). Indexed vector load with a probe pass. -/
  | vldx (d a b : BitVec 5) (mk : BitVec 3) (dt ch : BitVec 1) (h : BitVec 4)
  /-- VSTX (R284). Indexed vector store with a probe pass. -/
  | vstx (d a b : BitVec 5) (mk : BitVec 3) (dt ch : BitVec 1) (h : BitVec 4)
  /-- VAMO (R286). Per-element atomic operation with scope-miss marking in m7. -/
  | vamo (d a b : BitVec 5) (code : BitVec 6) (h : BitVec 4)
  /-- VADD_VV (R289). Element-wise a + b. -/
  | vaddVV (d a b : BitVec 5) (mk : BitVec 3) (dt ca cb : BitVec 1)
  /-- VADD_VX (R289). Element-wise a + scalar. -/
  | vaddVX (d a b : BitVec 5) (mk : BitVec 3) (dt ca : BitVec 1)
  /-- VADD_VI (R289). Element-wise a + immediate. -/
  | vaddVI (d a imm : BitVec 5) (mk : BitVec 3) (dt ca : BitVec 1)
  /-- VSUB_VV (R289). Element-wise a − b. -/
  | vsubVV (d a b : BitVec 5) (mk : BitVec 3) (dt ca cb : BitVec 1)
  /-- VSUB_VX (R289). Element-wise a − scalar. -/
  | vsubVX (d a b : BitVec 5) (mk : BitVec 3) (dt ca : BitVec 1)
  /-- VSUB_VI (R289). Element-wise a − immediate. -/
  | vsubVI (d a imm : BitVec 5) (mk : BitVec 3) (dt ca : BitVec 1)
  /-- VRSUB_VV (R289). Element-wise b − a. -/
  | vrsubVV (d a b : BitVec 5) (mk : BitVec 3) (dt ca cb : BitVec 1)
  /-- VRSUB_VX (R289). Element-wise scalar − a. -/
  | vrsubVX (d a b : BitVec 5) (mk : BitVec 3) (dt ca : BitVec 1)
  /-- VRSUB_VI (R289). Element-wise immediate − a. -/
  | vrsubVI (d a imm : BitVec 5) (mk : BitVec 3) (dt ca : BitVec 1)
  /-- VADC_VV (R289). a + b + carry-in from the mask operand. -/
  | vadcVV (d a b : BitVec 5) (mk : BitVec 3) (ca cb : BitVec 1)
  /-- VADC_VX (R289). a + scalar + carry-in. -/
  | vadcVX (d a b : BitVec 5) (mk : BitVec 3) (ca : BitVec 1)
  /-- VADC_VI (R289). a + immediate + carry-in. -/
  | vadcVI (d a imm : BitVec 5) (mk : BitVec 3) (ca : BitVec 1)
  /-- VSBC_VV (R289). a − b − borrow-in. -/
  | vsbcVV (d a b : BitVec 5) (mk : BitVec 3) (ca cb : BitVec 1)
  /-- VSBC_VX (R289). a − scalar − borrow-in. -/
  | vsbcVX (d a b : BitVec 5) (mk : BitVec 3) (ca : BitVec 1)
  /-- VSBC_VI (R289). a − immediate − borrow-in. -/
  | vsbcVI (d a imm : BitVec 5) (mk : BitVec 3) (ca : BitVec 1)
  /-- VMADC_VV (R289). Mask of carries out of a + b + cin. -/
  | vmadcVV (d a b : BitVec 5) (mk : BitVec 3) (ca cb : BitVec 1)
  /-- VMADC_VX (R289). Mask of carries out of a + scalar + cin. -/
  | vmadcVX (d a b : BitVec 5) (mk : BitVec 3) (ca : BitVec 1)
  /-- VMADC_VI (R289). Mask of carries out of a + immediate + cin. -/
  | vmadcVI (d a imm : BitVec 5) (mk : BitVec 3) (ca : BitVec 1)
  /-- VMSBC_VV (R289). Mask of borrows out of a − b − cin. -/
  | vmsbcVV (d a b : BitVec 5) (mk : BitVec 3) (ca cb : BitVec 1)
  /-- VMSBC_VX (R289). Mask of borrows out of a − scalar − cin. -/
  | vmsbcVX (d a b : BitVec 5) (mk : BitVec 3) (ca : BitVec 1)
  /-- VMSBC_VI (R289). Mask of borrows out of a − immediate − cin. -/
  | vmsbcVI (d a imm : BitVec 5) (mk : BitVec 3) (ca : BitVec 1)
  /-- VAND_VV (R289). Element-wise AND. -/
  | vandVV (d a b : BitVec 5) (mk : BitVec 3) (dt ca cb : BitVec 1)
  /-- VAND_VX (R289). Element-wise AND with a scalar. -/
  | vandVX (d a b : BitVec 5) (mk : BitVec 3) (dt ca : BitVec 1)
  /-- VAND_VI (R289). Element-wise AND with an immediate. -/
  | vandVI (d a imm : BitVec 5) (mk : BitVec 3) (dt ca : BitVec 1)
  /-- VOR_VV (R289). Element-wise OR. -/
  | vorVV (d a b : BitVec 5) (mk : BitVec 3) (dt ca cb : BitVec 1)
  /-- VOR_VX (R289). Element-wise OR with a scalar. -/
  | vorVX (d a b : BitVec 5) (mk : BitVec 3) (dt ca : BitVec 1)
  /-- VOR_VI (R289). Element-wise OR with an immediate. -/
  | vorVI (d a imm : BitVec 5) (mk : BitVec 3) (dt ca : BitVec 1)
  /-- VXOR_VV (R289). Element-wise XOR. -/
  | vxorVV (d a b : BitVec 5) (mk : BitVec 3) (dt ca cb : BitVec 1)
  /-- VXOR_VX (R289). Element-wise XOR with a scalar. -/
  | vxorVX (d a b : BitVec 5) (mk : BitVec 3) (dt ca : BitVec 1)
  /-- VXOR_VI (R289). Element-wise XOR with an immediate. -/
  | vxorVI (d a imm : BitVec 5) (mk : BitVec 3) (dt ca : BitVec 1)
  /-- VSHL_VV (R289). Element-wise left shift. -/
  | vshlVV (d a b : BitVec 5) (mk : BitVec 3) (dt ca cb : BitVec 1)
  /-- VSHL_VX (R289). Element-wise left shift by a scalar. -/
  | vshlVX (d a b : BitVec 5) (mk : BitVec 3) (dt ca : BitVec 1)
  /-- VSHL_VI (R289). Element-wise left shift by an immediate. -/
  | vshlVI (d a imm : BitVec 5) (mk : BitVec 3) (dt ca : BitVec 1)
  /-- VSHR_VV (R289). Element-wise logical right shift. -/
  | vshrVV (d a b : BitVec 5) (mk : BitVec 3) (dt ca cb : BitVec 1)
  /-- VSHR_VX (R289). Logical right shift by a scalar. -/
  | vshrVX (d a b : BitVec 5) (mk : BitVec 3) (dt ca : BitVec 1)
  /-- VSHR_VI (R289). Logical right shift by an immediate. -/
  | vshrVI (d a imm : BitVec 5) (mk : BitVec 3) (dt ca : BitVec 1)
  /-- VSRA_VV (R289). Element-wise arithmetic right shift. -/
  | vsraVV (d a b : BitVec 5) (mk : BitVec 3) (dt ca cb : BitVec 1)
  /-- VSRA_VX (R289). Arithmetic right shift by a scalar. -/
  | vsraVX (d a b : BitVec 5) (mk : BitVec 3) (dt ca : BitVec 1)
  /-- VSRA_VI (R289). Arithmetic right shift by an immediate. -/
  | vsraVI (d a imm : BitVec 5) (mk : BitVec 3) (dt ca : BitVec 1)
  /-- VMUL_VV (R289). Low sew bits of a·b. -/
  | vmulVV (d a b : BitVec 5) (mk : BitVec 3) (dt ca cb : BitVec 1)
  /-- VMUL_VX (R289). Low sew bits of a·scalar. -/
  | vmulVX (d a b : BitVec 5) (mk : BitVec 3) (dt ca : BitVec 1)
  /-- VMUL_VI (R289). Low sew bits of a·immediate. -/
  | vmulVI (d a imm : BitVec 5) (mk : BitVec 3) (dt ca : BitVec 1)
  /-- VMULH_VV (R289). High sew bits of the signed product. -/
  | vmulhVV (d a b : BitVec 5) (mk : BitVec 3) (dt ca cb : BitVec 1)
  /-- VMULH_VX (R289). High bits of the signed product with a scalar. -/
  | vmulhVX (d a b : BitVec 5) (mk : BitVec 3) (dt ca : BitVec 1)
  /-- VMULH_VI (R289). High bits of the signed product with an immediate. -/
  | vmulhVI (d a imm : BitVec 5) (mk : BitVec 3) (dt ca : BitVec 1)
  /-- VMULHU_VV (R289). High sew bits of the unsigned product. -/
  | vmulhuVV (d a b : BitVec 5) (mk : BitVec 3) (dt ca cb : BitVec 1)
  /-- VMULHU_VX (R289). High bits of the unsigned product with a scalar. -/
  | vmulhuVX (d a b : BitVec 5) (mk : BitVec 3) (dt ca : BitVec 1)
  /-- VMULHU_VI (R289). High bits of the unsigned product with an immediate. -/
  | vmulhuVI (d a imm : BitVec 5) (mk : BitVec 3) (dt ca : BitVec 1)
  /-- VMIN_VV (R289). Element-wise signed minimum. -/
  | vminVV (d a b : BitVec 5) (mk : BitVec 3) (dt ca cb : BitVec 1)
  /-- VMIN_VX (R289). Signed minimum with a scalar. -/
  | vminVX (d a b : BitVec 5) (mk : BitVec 3) (dt ca : BitVec 1)
  /-- VMIN_VI (R289). Signed minimum with an immediate. -/
  | vminVI (d a imm : BitVec 5) (mk : BitVec 3) (dt ca : BitVec 1)
  /-- VMAX_VV (R289). Element-wise signed maximum. -/
  | vmaxVV (d a b : BitVec 5) (mk : BitVec 3) (dt ca cb : BitVec 1)
  /-- VMAX_VX (R289). Signed maximum with a scalar. -/
  | vmaxVX (d a b : BitVec 5) (mk : BitVec 3) (dt ca : BitVec 1)
  /-- VMAX_VI (R289). Signed maximum with an immediate. -/
  | vmaxVI (d a imm : BitVec 5) (mk : BitVec 3) (dt ca : BitVec 1)
  /-- VMINU_VV (R289). Element-wise unsigned minimum. -/
  | vminuVV (d a b : BitVec 5) (mk : BitVec 3) (dt ca cb : BitVec 1)
  /-- VMINU_VX (R289). Unsigned minimum with a scalar. -/
  | vminuVX (d a b : BitVec 5) (mk : BitVec 3) (dt ca : BitVec 1)
  /-- VMINU_VI (R289). Unsigned minimum with an immediate. -/
  | vminuVI (d a imm : BitVec 5) (mk : BitVec 3) (dt ca : BitVec 1)
  /-- VMAXU_VV (R289). Element-wise unsigned maximum. -/
  | vmaxuVV (d a b : BitVec 5) (mk : BitVec 3) (dt ca cb : BitVec 1)
  /-- VMAXU_VX (R289). Unsigned maximum with a scalar. -/
  | vmaxuVX (d a b : BitVec 5) (mk : BitVec 3) (dt ca : BitVec 1)
  /-- VMAXU_VI (R289). Unsigned maximum with an immediate. -/
  | vmaxuVI (d a imm : BitVec 5) (mk : BitVec 3) (dt ca : BitVec 1)
  /-- VMERGE_VV (R289). Selects b where the mask operand is set, else a. -/
  | vmergeVV (d a b : BitVec 5) (mk : BitVec 3) (ca cb : BitVec 1)
  /-- VMERGE_VX (R289). Selects the scalar where the mask is set, else a. -/
  | vmergeVX (d a b : BitVec 5) (mk : BitVec 3) (ca : BitVec 1)
  /-- VMERGE_VI (R289). Selects the immediate where the mask is set, else a. -/
  | vmergeVI (d a imm : BitVec 5) (mk : BitVec 3) (ca : BitVec 1)
  /-- VMV_VV (R289). Copies vector b into vd. -/
  | vmvVV (d b : BitVec 5) (mk : BitVec 3) (dt cb : BitVec 1)
  /-- VMV_VX (R289). Broadcasts a scalar into vd. -/
  | vmvVX (d b : BitVec 5) (mk : BitVec 3) (dt : BitVec 1)
  /-- VMV_VI (R289). Broadcasts an immediate into vd. -/
  | vmvVI (d imm : BitVec 5) (mk : BitVec 3) (dt : BitVec 1)
  /-- VCMP_EQ_VV (R289). Mask of a = b. -/
  | vcmpEqVV (d a b : BitVec 5) (mk : BitVec 3) (dt ca cb : BitVec 1)
  /-- VCMP_EQ_VX (R289). Mask of a = scalar. -/
  | vcmpEqVX (d a b : BitVec 5) (mk : BitVec 3) (dt ca : BitVec 1)
  /-- VCMP_EQ_VI (R289). Mask of a = immediate. -/
  | vcmpEqVI (d a imm : BitVec 5) (mk : BitVec 3) (dt ca : BitVec 1)
  /-- VCMP_NE_VV (R289). Mask of a ≠ b. -/
  | vcmpNeVV (d a b : BitVec 5) (mk : BitVec 3) (dt ca cb : BitVec 1)
  /-- VCMP_NE_VX (R289). Mask of a ≠ scalar. -/
  | vcmpNeVX (d a b : BitVec 5) (mk : BitVec 3) (dt ca : BitVec 1)
  /-- VCMP_NE_VI (R289). Mask of a ≠ immediate. -/
  | vcmpNeVI (d a imm : BitVec 5) (mk : BitVec 3) (dt ca : BitVec 1)
  /-- VCMP_LT_VV (R289). Mask of a < b signed. -/
  | vcmpLtVV (d a b : BitVec 5) (mk : BitVec 3) (dt ca cb : BitVec 1)
  /-- VCMP_LT_VX (R289). Mask of a < scalar signed. -/
  | vcmpLtVX (d a b : BitVec 5) (mk : BitVec 3) (dt ca : BitVec 1)
  /-- VCMP_LT_VI (R289). Mask of a < immediate signed. -/
  | vcmpLtVI (d a imm : BitVec 5) (mk : BitVec 3) (dt ca : BitVec 1)
  /-- VCMP_LTU_VV (R289). Mask of a < b unsigned. -/
  | vcmpLtuVV (d a b : BitVec 5) (mk : BitVec 3) (dt ca cb : BitVec 1)
  /-- VCMP_LTU_VX (R289). Mask of a < scalar unsigned. -/
  | vcmpLtuVX (d a b : BitVec 5) (mk : BitVec 3) (dt ca : BitVec 1)
  /-- VCMP_LTU_VI (R289). Mask of a < immediate unsigned. -/
  | vcmpLtuVI (d a imm : BitVec 5) (mk : BitVec 3) (dt ca : BitVec 1)
  /-- VCMP_LE_VV (R289). Mask of a ≤ b signed. -/
  | vcmpLeVV (d a b : BitVec 5) (mk : BitVec 3) (dt ca cb : BitVec 1)
  /-- VCMP_LE_VX (R289). Mask of a ≤ scalar signed. -/
  | vcmpLeVX (d a b : BitVec 5) (mk : BitVec 3) (dt ca : BitVec 1)
  /-- VCMP_LE_VI (R289). Mask of a ≤ immediate signed. -/
  | vcmpLeVI (d a imm : BitVec 5) (mk : BitVec 3) (dt ca : BitVec 1)
  /-- VCMP_LEU_VV (R289). Mask of a ≤ b unsigned. -/
  | vcmpLeuVV (d a b : BitVec 5) (mk : BitVec 3) (dt ca cb : BitVec 1)
  /-- VCMP_LEU_VX (R289). Mask of a ≤ scalar unsigned. -/
  | vcmpLeuVX (d a b : BitVec 5) (mk : BitVec 3) (dt ca : BitVec 1)
  /-- VCMP_LEU_VI (R289). Mask of a ≤ immediate unsigned. -/
  | vcmpLeuVI (d a imm : BitVec 5) (mk : BitVec 3) (dt ca : BitVec 1)
  /-- VCMP_GT_VV (R289). Mask of a > b signed. -/
  | vcmpGtVV (d a b : BitVec 5) (mk : BitVec 3) (dt ca cb : BitVec 1)
  /-- VCMP_GT_VX (R289). Mask of a > scalar signed. -/
  | vcmpGtVX (d a b : BitVec 5) (mk : BitVec 3) (dt ca : BitVec 1)
  /-- VCMP_GT_VI (R289). Mask of a > immediate signed. -/
  | vcmpGtVI (d a imm : BitVec 5) (mk : BitVec 3) (dt ca : BitVec 1)
  /-- VCMP_GTU_VV (R289). Mask of a > b unsigned. -/
  | vcmpGtuVV (d a b : BitVec 5) (mk : BitVec 3) (dt ca cb : BitVec 1)
  /-- VCMP_GTU_VX (R289). Mask of a > scalar unsigned. -/
  | vcmpGtuVX (d a b : BitVec 5) (mk : BitVec 3) (dt ca : BitVec 1)
  /-- VCMP_GTU_VI (R289). Mask of a > immediate unsigned. -/
  | vcmpGtuVI (d a imm : BitVec 5) (mk : BitVec 3) (dt ca : BitVec 1)
  /-- VSLUP_VX (R290). Slides elements up by X[B], filling with zeros. -/
  | vslupVX (d a b : BitVec 5) (mk : BitVec 3) (dt ca : BitVec 1)
  /-- VSLUP_VI (R290). Slides elements up by an immediate. -/
  | vslupVI (d a imm : BitVec 5) (mk : BitVec 3) (dt ca : BitVec 1)
  /-- VSLDN_VX (R290). Slides elements down by X[B], reading ahead. -/
  | vsldnVX (d a b : BitVec 5) (mk : BitVec 3) (dt ca : BitVec 1)
  /-- VSLDN_VI (R290). Slides elements down by an immediate. -/
  | vsldnVI (d a imm : BitVec 5) (mk : BitVec 3) (dt ca : BitVec 1)
  /-- VSL1UP (R290). Slides up by one, inserting X[B] at element 0. -/
  | vsl1up (d a b : BitVec 5) (mk : BitVec 3) (dt ca : BitVec 1)
  /-- VSL1DN (R290). Slides down by one, inserting X[B] at element vl − 1. -/
  | vsl1dn (d a b : BitVec 5) (mk : BitVec 3) (dt ca : BitVec 1)
  /-- VPERM (R290). Gathers a.e[vb.e[i]] or 0. -/
  | vperm (d a b : BitVec 5) (mk : BitVec 3) (dt ca cb : BitVec 1)
  /-- VCOMPRESS (R292). Packs the elements selected by a mask. -/
  | vcompress (d a : BitVec 5) (mk : BitVec 3) (ca : BitVec 1)
  /-- VIOTA (R290). Writes the count of set mask bits below each element. -/
  | viota (d : BitVec 5) (mk : BitVec 3)
  /-- VID (R290). Writes each element's index. -/
  | vid (d : BitVec 5) (mk : BitVec 3) (dt : BitVec 1)
  /-- VWADD (R291). Signed widening add. -/
  | vwadd (d a b : BitVec 5) (mk : BitVec 3) (dt ca cb : BitVec 1)
  /-- VWADDU (R291). Unsigned widening add. -/
  | vwaddu (d a b : BitVec 5) (mk : BitVec 3) (dt ca cb : BitVec 1)
  /-- VWMUL (R291). Signed widening multiply. -/
  | vwmul (d a b : BitVec 5) (mk : BitVec 3) (dt ca cb : BitVec 1)
  /-- VWMULU (R291). Unsigned widening multiply. -/
  | vwmulu (d a b : BitVec 5) (mk : BitVec 3) (dt ca cb : BitVec 1)
  /-- VNSHR_VX (R291). Narrowing logical right shift by X[B]. -/
  | vnshrVX (d a b : BitVec 5) (mk : BitVec 3) (dt ca : BitVec 1)
  /-- VNSHR_VI (R291). Narrowing logical right shift by an immediate. -/
  | vnshrVI (d a imm : BitVec 5) (mk : BitVec 3) (dt ca : BitVec 1)
  /-- VNSRA_VX (R291). Narrowing arithmetic right shift by X[B]. -/
  | vnsraVX (d a b : BitVec 5) (mk : BitVec 3) (dt ca : BitVec 1)
  /-- VNSRA_VI (R291). Narrowing arithmetic right shift by an immediate. -/
  | vnsraVI (d a imm : BitVec 5) (mk : BitVec 3) (dt ca : BitVec 1)
  /-- VEXT_S2 (R291). Sign-extends elements from sew/2. -/
  | vextS2 (d a : BitVec 5) (mk : BitVec 3) (dt ca : BitVec 1)
  /-- VEXT_S4 (R291). Sign-extends elements from sew/4. -/
  | vextS4 (d a : BitVec 5) (mk : BitVec 3) (dt ca : BitVec 1)
  /-- VEXT_Z2 (R291). Zero-extends elements from sew/2. -/
  | vextZ2 (d a : BitVec 5) (mk : BitVec 3) (dt ca : BitVec 1)
  /-- VEXT_Z4 (R291). Zero-extends elements from sew/4. -/
  | vextZ4 (d a : BitVec 5) (mk : BitVec 3) (dt ca : BitVec 1)
  /-- VLASTX (R293). Hooked move of the last mask-selected element to X[D]. -/
  | vlastx (d a b : BitVec 5) (h : BitVec 4) (ca : BitVec 1)
  /-- MAND (R294). Mask AND. -/
  | mand (d a b : BitVec 5)
  /-- MOR (R294). Mask OR. -/
  | mor (d a b : BitVec 5)
  /-- MXOR (R294). Mask XOR. -/
  | mxor (d a b : BitVec 5)
  /-- MANDN (R294). Mask AND-NOT. -/
  | mandn (d a b : BitVec 5)
  /-- MSHL (R294). Shifts a mask up by n elements. -/
  | mshl (d a n : BitVec 5)
  /-- MPOPC (R294). Hooked count of set mask bits below vl. -/
  | mpopc (d a : BitVec 5) (h : BitVec 4)
  /-- MFIRST (R294). Hooked index of the lowest set mask bit, or −1. -/
  | mfirst (d a : BitVec 5) (h : BitVec 4)
  /-- MLAST (R294). Hooked index of the highest set mask bit, or −1. -/
  | mlast (d a : BitVec 5) (h : BitVec 4)
  /-- VMVX (R294). Hooked move of element X[B] of va to X[D]. -/
  | vmvx (d a b : BitVec 5) (h : BitVec 4) (ca : BitVec 1)
  /-- VMVSX (R294). Writes X[A] into element 0 of vd. -/
  | vmvsx (d a : BitVec 5)
  /-- VRED_SUM (R295). Integer sum reduction into element 0. -/
  | vredSum (d a b : BitVec 5) (mk : BitVec 3) (dt ca cb : BitVec 1)
  /-- VRED_AND (R295). Integer AND reduction. -/
  | vredAnd (d a b : BitVec 5) (mk : BitVec 3) (dt ca cb : BitVec 1)
  /-- VRED_OR (R295). Integer OR reduction. -/
  | vredOr (d a b : BitVec 5) (mk : BitVec 3) (dt ca cb : BitVec 1)
  /-- VRED_XOR (R295). Integer XOR reduction. -/
  | vredXor (d a b : BitVec 5) (mk : BitVec 3) (dt ca cb : BitVec 1)
  /-- VRED_MIN (R295). Signed minimum reduction. -/
  | vredMin (d a b : BitVec 5) (mk : BitVec 3) (dt ca cb : BitVec 1)
  /-- VRED_MAX (R295). Signed maximum reduction. -/
  | vredMax (d a b : BitVec 5) (mk : BitVec 3) (dt ca cb : BitVec 1)
  /-- VRED_MINU (R295). Unsigned minimum reduction. -/
  | vredMinu (d a b : BitVec 5) (mk : BitVec 3) (dt ca cb : BitVec 1)
  /-- VRED_MAXU (R295). Unsigned maximum reduction. -/
  | vredMaxu (d a b : BitVec 5) (mk : BitVec 3) (dt ca cb : BitVec 1)
  /-- VFADD_VV (R299). Vector floating-point add. -/
  | vfaddVV (d a b : BitVec 5) (mk : BitVec 3) (dt ca cb : BitVec 1)
  /-- VFADD_VX (R299). Vector floating-point add with a scalar. -/
  | vfaddVX (d a b : BitVec 5) (mk : BitVec 3) (dt ca : BitVec 1)
  /-- VFSUB_VV (R299). Vector floating-point subtract. -/
  | vfsubVV (d a b : BitVec 5) (mk : BitVec 3) (dt ca cb : BitVec 1)
  /-- VFSUB_VX (R299). Vector floating-point subtract of a scalar. -/
  | vfsubVX (d a b : BitVec 5) (mk : BitVec 3) (dt ca : BitVec 1)
  /-- VFMUL_VV (R299). Vector floating-point multiply. -/
  | vfmulVV (d a b : BitVec 5) (mk : BitVec 3) (dt ca cb : BitVec 1)
  /-- VFMUL_VX (R299). Vector floating-point multiply by a scalar. -/
  | vfmulVX (d a b : BitVec 5) (mk : BitVec 3) (dt ca : BitVec 1)
  /-- VFMA_VV (R299). Vector fused d + a·b. -/
  | vfmaVV (d a b : BitVec 5) (mk : BitVec 3) (dt ca cb : BitVec 1)
  /-- VFMA_VX (R299). Vector fused d + a·scalar. -/
  | vfmaVX (d a b : BitVec 5) (mk : BitVec 3) (dt ca : BitVec 1)
  /-- VFDIV_VV (R299). Vector floating-point divide. -/
  | vfdivVV (d a b : BitVec 5) (mk : BitVec 3) (dt ca cb : BitVec 1)
  /-- VFDIV_VX (R299). Vector floating-point divide by a scalar. -/
  | vfdivVX (d a b : BitVec 5) (mk : BitVec 3) (dt ca : BitVec 1)
  /-- VFSQRT (R299). Vector floating-point square root. -/
  | vfsqrt (d a : BitVec 5) (mk : BitVec 3) (dt ca : BitVec 1)
  /-- VFMIN_VV (R299). Vector minimumNumber. -/
  | vfminVV (d a b : BitVec 5) (mk : BitVec 3) (dt ca cb : BitVec 1)
  /-- VFMIN_VX (R299). Vector minimumNumber with a scalar. -/
  | vfminVX (d a b : BitVec 5) (mk : BitVec 3) (dt ca : BitVec 1)
  /-- VFMAX_VV (R299). Vector maximumNumber. -/
  | vfmaxVV (d a b : BitVec 5) (mk : BitVec 3) (dt ca cb : BitVec 1)
  /-- VFMAX_VX (R299). Vector maximumNumber with a scalar. -/
  | vfmaxVX (d a b : BitVec 5) (mk : BitVec 3) (dt ca : BitVec 1)
  /-- VFCMP_EQ_VV (R300). Quiet equality compare into a mask. -/
  | vfcmpEqVV (d a b : BitVec 5) (mk : BitVec 3) (dt ca cb : BitVec 1)
  /-- VFCMP_EQ_VX (R300). Quiet equality compare with a scalar. -/
  | vfcmpEqVX (d a b : BitVec 5) (mk : BitVec 3) (dt ca : BitVec 1)
  /-- VFCMP_NE_VV (R300). Quiet inequality compare into a mask. -/
  | vfcmpNeVV (d a b : BitVec 5) (mk : BitVec 3) (dt ca cb : BitVec 1)
  /-- VFCMP_NE_VX (R300). Quiet inequality compare with a scalar. -/
  | vfcmpNeVX (d a b : BitVec 5) (mk : BitVec 3) (dt ca : BitVec 1)
  /-- VFCMP_LT_VV (R300). Signalling less-than compare into a mask. -/
  | vfcmpLtVV (d a b : BitVec 5) (mk : BitVec 3) (dt ca cb : BitVec 1)
  /-- VFCMP_LT_VX (R300). Signalling less-than compare with a scalar. -/
  | vfcmpLtVX (d a b : BitVec 5) (mk : BitVec 3) (dt ca : BitVec 1)
  /-- VFCMP_LE_VV (R300). Signalling less-or-equal compare into a mask. -/
  | vfcmpLeVV (d a b : BitVec 5) (mk : BitVec 3) (dt ca cb : BitVec 1)
  /-- VFCMP_LE_VX (R300). Signalling less-or-equal compare with a scalar. -/
  | vfcmpLeVX (d a b : BitVec 5) (mk : BitVec 3) (dt ca : BitVec 1)
  /-- VFCMP_GT_VV (R300). Signalling greater-than compare into a mask. -/
  | vfcmpGtVV (d a b : BitVec 5) (mk : BitVec 3) (dt ca cb : BitVec 1)
  /-- VFCMP_GT_VX (R300). Signalling greater-than compare with a scalar. -/
  | vfcmpGtVX (d a b : BitVec 5) (mk : BitVec 3) (dt ca : BitVec 1)
  /-- VFCMP_GE_VV (R300). Signalling greater-or-equal compare into a mask. -/
  | vfcmpGeVV (d a b : BitVec 5) (mk : BitVec 3) (dt ca cb : BitVec 1)
  /-- VFCMP_GE_VX (R300). Signalling greater-or-equal compare with a scalar. -/
  | vfcmpGeVX (d a b : BitVec 5) (mk : BitVec 3) (dt ca : BitVec 1)
  /-- VFADD_BF_VV (R299). bfloat16 vector add. -/
  | vfaddBfVV (d a b : BitVec 5) (mk : BitVec 3) (dt ca cb : BitVec 1)
  /-- VFADD_BF_VX (R299). bfloat16 vector add with a scalar. -/
  | vfaddBfVX (d a b : BitVec 5) (mk : BitVec 3) (dt ca : BitVec 1)
  /-- VFSUB_BF_VV (R299). bfloat16 vector subtract. -/
  | vfsubBfVV (d a b : BitVec 5) (mk : BitVec 3) (dt ca cb : BitVec 1)
  /-- VFSUB_BF_VX (R299). bfloat16 vector subtract of a scalar. -/
  | vfsubBfVX (d a b : BitVec 5) (mk : BitVec 3) (dt ca : BitVec 1)
  /-- VFMUL_BF_VV (R299). bfloat16 vector multiply. -/
  | vfmulBfVV (d a b : BitVec 5) (mk : BitVec 3) (dt ca cb : BitVec 1)
  /-- VFMUL_BF_VX (R299). bfloat16 vector multiply by a scalar. -/
  | vfmulBfVX (d a b : BitVec 5) (mk : BitVec 3) (dt ca : BitVec 1)
  /-- VFMA_BF_VV (R299). bfloat16 fused multiply-add. -/
  | vfmaBfVV (d a b : BitVec 5) (mk : BitVec 3) (dt ca cb : BitVec 1)
  /-- VFMA_BF_VX (R299). bfloat16 fused multiply-add with a scalar. -/
  | vfmaBfVX (d a b : BitVec 5) (mk : BitVec 3) (dt ca : BitVec 1)
  /-- VFCVT (R301). Converts elements between formats named by alt, from and sew. -/
  | vfcvt (d a : BitVec 5) (alt : BitVec 1) (frm mk : BitVec 3) (dt ca : BitVec 1)
  /-- VFREDO (R54). Ordered floating-point sum reduction, resumable at vstart. -/
  | vfredo (d a b : BitVec 5) (mk : BitVec 3) (dt ca cb : BitVec 1)
  /-- VFRED_SUM (R55). Tree floating-point sum reduction. -/
  | vfredSum (d a b : BitVec 5) (mk : BitVec 3) (dt ca cb : BitVec 1)
  /-- VFRED_MIN (R55). Floating-point minimum reduction. -/
  | vfredMin (d a b : BitVec 5) (mk : BitVec 3) (dt ca cb : BitVec 1)
  /-- VFRED_MAX (R55). Floating-point maximum reduction. -/
  | vfredMax (d a b : BitVec 5) (mk : BitVec 3) (dt ca cb : BitVec 1)
  /-- VFPOT (R303). Accumulates bfloat16 activations times scaled PoT2 weights. -/
  | vfpot (d a b : BitVec 5) (mk : BitVec 3) (dt ca cb : BitVec 1)
  /-- VMADD_VV (R305). Modular add. -/
  | vmaddVV (d a b : BitVec 5) (mk : BitVec 3) (dt ca cb : BitVec 1)
  /-- VMSUB_VV (R305). Modular subtract. -/
  | vmsubVV (d a b : BitVec 5) (mk : BitVec 3) (dt ca cb : BitVec 1)
  /-- VMMUL_VV (R305). Modular multiply. -/
  | vmmulVV (d a b : BitVec 5) (mk : BitVec 3) (dt ca cb : BitVec 1)
  /-- VMMAC_VV (R305). Modular multiply-accumulate. -/
  | vmmacVV (d a b : BitVec 5) (mk : BitVec 3) (dt ca cb : BitVec 1)
  /-- VMADD_VX (R305). Modular add of a scalar. -/
  | vmaddVX (d a b : BitVec 5) (mk : BitVec 3) (dt ca : BitVec 1)
  /-- VMSUB_VX (R305). Modular subtract of a scalar. -/
  | vmsubVX (d a b : BitVec 5) (mk : BitVec 3) (dt ca : BitVec 1)
  /-- VMMUL_VX (R305). Modular multiply by a scalar. -/
  | vmmulVX (d a b : BitVec 5) (mk : BitVec 3) (dt ca : BitVec 1)
  /-- VMMAC_VX (R305). Modular multiply-accumulate by a scalar. -/
  | vmmacVX (d a b : BitVec 5) (mk : BitVec 3) (dt ca : BitVec 1)
  /-- VBFLY (R307). Forward butterfly on a register pair. -/
  | vbfly (d a b : BitVec 5) (mk : BitVec 3) (dt ca cb : BitVec 1)
  /-- VIBFLY (R307). Inverse butterfly on a register pair. -/
  | vibfly (d a b : BitVec 5) (mk : BitVec 3) (dt ca cb : BitVec 1)
  /-- VNTT (R308). One forward negacyclic transform stage per block. -/
  | vntt (d a b : BitVec 5) (ca : BitVec 1)
  /-- VINTT (R308). One inverse transform stage per block. -/
  | vintt (d a b : BitVec 5) (ca : BitVec 1)
  /-- VAUTO (R309). Applies the automorphism X to X^γ per block. -/
  | vauto (d a b : BitVec 5) (ca : BitVec 1)
  /-- VDIGIT (R310). Returns signed gadget digit j of each element. -/
  | vdigit (d a b : BitVec 5) (mk : BitVec 3) (dt ca : BitVec 1)
  /-- MTLD (R311). Loads, checks and installs the modulus table. -/
  | mtld (a : BitVec 5) (h : BitVec 4)
  /-- TZERO (R319). Zeroes one accumulator and clears its poison. -/
  | tzero (d : BitVec 5)
  /-- TLD (R318). Loads 32 accumulator rows from memory. -/
  | tld (d a b : BitVec 5) (h : BitVec 4)
  /-- TST (R318). Stores 32 accumulator rows to memory. -/
  | tst (d a b : BitVec 5) (h : BitVec 4)
  /-- TMMA (R317). Accumulates A·B into an accumulator in the vtype tile mode. -/
  | tmma (d a b : BitVec 5)
  /-- TMVR (R319). Moves one accumulator row into a vector, optionally clearing it. -/
  | tmvr (d a b : BitVec 5)
  /-- COPY (R323). Pushes a vl-element memmove command to the copy engine. -/
  | copy (d a : BitVec 5) (h : BitVec 4)
  /-- COPYN (R324). Pushes a multi-dimensional copy command from a TCM descriptor. -/
  | copyn (a : BitVec 5) (h : BitVec 4)
  /-- EPOP (R325). Takes the oldest result element of an engine's FIFO. -/
  | epop (d b : BitVec 5) (h : BitVec 4)
  /-- BAR (R326). Arrives at a barrier episode at the named scope. -/
  | bar (a : BitVec 5) (sc : BitVec 3) (h : BitVec 4)
  /-- SLOPEN (R331). Opens a sleeve and returns its send and receive cuffs. -/
  | slopen (d : BitVec 5) (h : BitVec 4)
  /-- SLSEND (R332). Sends one item through a sleeve, waiting for a credit. -/
  | slsend (a b : BitVec 5) (h : BitVec 4)
  /-- SLRECV (R333). Holds until the next item or final status and takes it. -/
  | slrecv (d a : BitVec 5) (h : BitVec 4)
  /-- SLPASS (R150). Passes a sleeve end as an item through another sleeve. -/
  | slpass (a b : BitVec 5) (h : BitVec 4)
  /-- SLCLOSE (R334). Closes the named sleeve end. -/
  | slclose (a : BitVec 5) (h : BitVec 4)
  /-- SLPOLL (R333). Reports how many items are deliverable without holding. -/
  | slpoll (d a : BitVec 5) (h : BitVec 4)
  /-- RPKEY (R336). Computes Morton or Hilbert keys of coordinates. -/
  | rpkey (d a b : BitVec 5)
  /-- RPRUN (R339). Joins a range-partitioning tailoring operation. -/
  | rprun (a : BitVec 5) (h : BitVec 4)
  /-- RPDISP (R339). Joins an explicit-destination tailoring operation. -/
  | rpdisp (a : BitVec 5) (h : BitVec 4)
  /-- RPSTAT (R340). Reports the hart's view of a tailoring group. -/
  | rpstat (d a : BitVec 5) (h : BitVec 4)
  /-- CT_BIND (R351). Builds a ciphertext descriptor from a base and attribute word. -/
  | ctBind (d a b : BitVec 5)
  /-- CT_LD (R352). Loads a ciphertext descriptor from the TCM. -/
  | ctLd (d a : BitVec 5)
  /-- CT_ST (R352). Stores a ciphertext descriptor to the TCM. -/
  | ctSt (d a : BitVec 5) (h : BitVec 4)
  /-- CT_ADD (R354). Adds two ciphertexts word by word. -/
  | ctAdd (d a b : BitVec 5) (h : BitVec 4)
  /-- CT_SUB (R354). Subtracts two ciphertexts word by word. -/
  | ctSub (d a b : BitVec 5) (h : BitVec 4)
  /-- CT_NEG (R354). Negates a ciphertext. -/
  | ctNeg (d a : BitVec 5) (h : BitVec 4)
  /-- CT_MULK (R354). Multiplies a ciphertext by a scalar constant. -/
  | ctMulk (d a b : BitVec 5) (h : BitVec 4)
  /-- CT_MULP (R355). Multiplies an RLWE ciphertext by a plaintext polynomial. -/
  | ctMulp (d a b : BitVec 5) (h : BitVec 4)
  /-- CT_ROT (R357). Applies an automorphism and key-switches with a ROT key. -/
  | ctRot (d a b : BitVec 5) (h : BitVec 4)
  /-- CT_KSW (R357). Key-switches an LWE or RLWE ciphertext. -/
  | ctKsw (d a b : BitVec 5) (h : BitVec 4)
  /-- CT_MODSW (R358). Drops limbs of an A64K ciphertext by modulus switching. -/
  | ctModsw (d a b : BitVec 5) (h : BitVec 4)
  /-- CT_EXTR (R359). Extracts one coefficient of an RLWE ciphertext as LWE. -/
  | ctExtr (d a b : BitVec 5) (h : BitVec 4)
  /-- CT_PACK (R357). Packs m LWE ciphertexts into one RLWE ciphertext. -/
  | ctPack (d a b : BitVec 5) (h : BitVec 4) (cnt : BitVec 5)
  /-- CT_REFRESH (R367). Queues a refresh into the cluster's gathering batch. -/
  | ctRefresh (d a b : BitVec 5) (h : BitVec 4) (tb : BitVec 3)
  /-- CT_BRINIT (R364). Starts a blind rotation into an accumulator. -/
  | ctBrinit (d a : BitVec 5) (h : BitVec 4) (tb : BitVec 3)
  /-- CT_BRSTEP (R365). Applies one blind-rotation step with a BSK. -/
  | ctBrstep (d a b : BitVec 5) (h : BitVec 4)
  /-- CT_BRFIN (R366). Extracts the blind-rotation result as an LWE-long ciphertext. -/
  | ctBrfin (d a : BitVec 5) (h : BitVec 4)
  /-- CT_ALW (R65). Returns a c-register's allowance at latency 2. -/
  | ctAlw (d a : BitVec 5)
  /-- CT_WIN (R353). Sets the panel's refresh window limits. -/
  | ctWin (a : BitVec 5)
  /-- TB_LD (R363). Binds a table register from a TCM header. -/
  | tbLd (d a : BitVec 5) (h : BitVec 4)
  /-- KY_BIND (R362). Binds a key register from a TCM header. -/
  | kyBind (d a : BitVec 5) (h : BitVec 4)
  /-- C_NOP (R237). Compact no-operation taking one issue slot. -/
  | cNop (a b : BitVec 5)
  /-- C_ADD (R237). Compact add with the implicit source. -/
  | cAdd (a b : BitVec 5)
  /-- C_SUB (R237). Compact subtract. -/
  | cSub (a b : BitVec 5)
  /-- C_AND (R237). Compact AND. -/
  | cAnd (a b : BitVec 5)
  /-- C_OR (R237). Compact OR. -/
  | cOr (a b : BitVec 5)
  /-- C_XOR (R237). Compact XOR. -/
  | cXor (a b : BitVec 5)
  /-- C_SHL (R237). Compact left shift. -/
  | cShl (a b : BitVec 5)
  /-- C_SHR (R237). Compact logical right shift. -/
  | cShr (a b : BitVec 5)
  /-- C_SRA (R237). Compact arithmetic right shift. -/
  | cSra (a b : BitVec 5)
  /-- C_SLT (R237). Compact signed set-less-than. -/
  | cSlt (a b : BitVec 5)
  /-- C_SLTU (R237). Compact unsigned set-less-than. -/
  | cSltu (a b : BitVec 5)
  /-- C_MIN (R237). Compact signed minimum. -/
  | cMin (a b : BitVec 5)
  /-- C_MAX (R237). Compact signed maximum. -/
  | cMax (a b : BitVec 5)
  /-- C_MINU (R237). Compact unsigned minimum. -/
  | cMinu (a b : BitVec 5)
  /-- C_MAXU (R237). Compact unsigned maximum. -/
  | cMaxu (a b : BitVec 5)
  /-- C_MUL (R237). Compact multiply, latency 3. -/
  | cMul (a b : BitVec 5)
  /-- C_ADDI (R237). Compact add of a 5-bit signed immediate. -/
  | cAddi (a b : BitVec 5)
  /-- C_ANDI (R237). Compact AND with a 5-bit signed immediate. -/
  | cAndi (a b : BitVec 5)
  /-- C_SHLI (R237). Compact left shift by an immediate. -/
  | cShli (a b : BitVec 5)
  /-- C_SHRI (R237). Compact logical right shift by an immediate. -/
  | cShri (a b : BitVec 5)
  /-- C_SRAI (R237). Compact arithmetic right shift by an immediate. -/
  | cSrai (a b : BitVec 5)
  /-- C_SLTI (R237). Compact signed compare with an immediate. -/
  | cSlti (a b : BitVec 5)
  /-- C_LD_D (R237). Compact unhooked doubleword load from the implicit base. -/
  | cLdD (a b : BitVec 5)
  /-- C_LD_W (R237). Compact unhooked word load. -/
  | cLdW (a b : BitVec 5)
  /-- C_ST_D (R237). Compact doubleword store. -/
  | cStD (a b : BitVec 5)
  /-- C_ST_W (R237). Compact word store. -/
  | cStW (a b : BitVec 5)
  /-- C_FADD_D (R237). Compact binary64 add. -/
  | cFaddD (a b : BitVec 5)
  /-- C_FSUB_D (R237). Compact binary64 subtract. -/
  | cFsubD (a b : BitVec 5)
  /-- C_FMUL_D (R237). Compact binary64 multiply. -/
  | cFmulD (a b : BitVec 5)
  /-- C_FMA_D (R237). Compact binary64 fused multiply-add into xa. -/
  | cFmaD (a b : BitVec 5)
  /-- C_MULHU (R237). Compact unsigned high multiply. -/
  | cMulhu (a b : BitVec 5)
  /-- TRAP_TAKE (R196). After outstanding operations drain, a trap is entered at its level with banked state saved. -/
  | trapTake (hart : Nat)
  /-- TIMER (R193). time reaching stimecmp makes a TIMER trap pending. -/
  | timer (hart : Nat)
  /-- IDLE_TIMEOUT (R267). An idle hart is released after 65,536 cy. -/
  | idleTimeout (hart : Nat)
  /-- LOAD_DATA_ARRIVAL (R247). A non-TCM scalar load's data arrives, writes xd and posts its hook. -/
  | loadDataArrival (op : Nat)
  /-- STORE_PERFORMED (R247). A local store is performed at its home and posts its hook. -/
  | storePerformed (op : Nat)
  /-- DIVIDE_COMPLETE (R245). A division writes X[D] and posts its hook. -/
  | divideComplete (op : Nat)
  /-- FDIV_COMPLETE (R261). fdiv or fsqrt writes its result and flags and posts. -/
  | fdivComplete (op : Nat)
  /-- ATOMIC_COMPLETE (R248). An amo, cas or ldacq returns its old value and posts. -/
  | atomicComplete (op : Nat)
  /-- VECTOR_COMPLETE (R120). A vector or tile instruction's last group is written and its post lands in VIQ order. -/
  | vectorComplete (op : Nat)
  /-- COPY_COMPLETE (R323). A copy-engine command finishes its writes and posts, pushing a result if asked. -/
  | copyComplete (op : Nat)
  /-- ENGINE_FAULT (R199). An engine command stops at its first faulting element and its fault is held for report. -/
  | engineFault (op : Nat)
  /-- CT_CHANNEL_COMPLETE (R348). A ciphertext channel operation writes its data, marks poison and posts. -/
  | ctChannelComplete (op : Nat)
  /-- REFRESH_WINDOW_EXPIRY (R124). The gathering batch closes W cy after a panel's first refresh joined. -/
  | refreshWindowExpiry (clus : Nat)
  /-- REFRESH_BATCH_COMPLETE (R125). An executing batch finishes, posting its refreshes and starting the closed batch. -/
  | refreshBatchComplete (clus : Nat)
  /-- SLEEVE_COMMAND_COMPLETE (R328). A sleeve command completes, writes slstat and posts. -/
  | sleeveCommandComplete (op : Nat)
  /-- TAILORING_COMPLETE (R159). A member's tailoring operation ends, posts and pushes five results. -/
  | tailoringComplete (gid : Nat)
  /-- TAILORING_TIMEOUT (R155). A tailoring operation not issued by all members within 10 ms ends with TIMEOUT. -/
  | tailoringTimeout (gid : Nat)
  /-- PEER_LOST (R160). A member leaving after destinations are fixed ends the operation with PEERLOST. -/
  | peerLost (peer : Nat)
  /-- ICINV_COMPLETE (R266). Every covered cache and loop buffer is invalidated and the hook posts. -/
  | icinvComplete (op : Nat)
  /-- CTXSAVE_COMPLETE (R210). The context image is written with its counter and the hook posts. -/
  | ctxsaveComplete (op : Nat)
  /-- CTXRST_COMPLETE (R210). The image is checked in phases and loaded or refused with CTXIMAGE. -/
  | ctxrstComplete (op : Nat)
  /-- LAUNCH_ENQUEUE (R107). A launch held on a full queue enqueues when a slot frees and posts. -/
  | launchEnqueue (op : Nat)
  /-- HOST_LAUNCH_WRITE (R107). A host write to a launch window is checked and enqueued, refused or dropped. -/
  | hostLaunchWrite (queue off : Nat) (data : List Byte)
  /-- DISPATCH (R112). A dispatcher starts a dispatchable head by class and deficit round-robin. -/
  | dispatch (disp : Nat) (place : List Place)
  /-- HEAD_PROMOTION (R113). A class-3 head waiting 10 ms is treated as class 2. -/
  | headPromotion (queue : Nat)
  /-- YIELD_TIMEOUT (R114). A victim not reaching a yield point in 50,000 cy is taken by full save. -/
  | yieldTimeout (disp : Nat) (victims : List Nat)
  /-- PREEMPT_TIMEOUT (R204). A hart neither parked nor halted 1,000,000 cy after PREEMPT has its task ended. -/
  | preemptTimeout (hart : Nat)
  /-- RESUME_PARKED (R205). A parked hart is resumed at srvec when resources free. -/
  | resumeParked (disp : Nat) (place : List Place)
  /-- RECEIPT_SIGN (R187). Thatum signs the receipt chain head after 256 records or on request. -/
  | receiptSign (world : Nat)
  /-- POWER_WINDOW (R127). Each 1 µs window the arbiter grants every stack a duty. -/
  | powerWindow (current : List Nat)
  /-- THRIN_ASSERT (R388). Asserting thrin forces every stack to duty 4. -/
  | thrinAssert
  /-- PKGLIM (R388). Writes the package power limit, clamped, effective next window. -/
  | pkglim (watts : Nat)
  /-- STKLIM (R388). Writes a per-stack sustained limit, clamped, effective next window. -/
  | stklim (stack watts : Nat)
  /-- SPRES (R22). Writes the scratchpad reservations after checking quota, overlap and activity. -/
  | spres (v : Word)
  /-- POOLMAP (R171). Writes the pool map and reads and checks its table. -/
  | poolmap (v : Word)
  /-- RGTAB (R174). Writes the element region table, assigning fresh nonces and clearing written bits. -/
  | rgtab (v : Word)
  /-- RGKEY (R177). Starts a rekey of one element region, holding its accesses. -/
  | rgkey (v : Word)
  /-- RGKEY_COMPLETE (R177). The rekey raises gen, clears written bits and releases held accesses. -/
  | rgkeyComplete (world : Nat)
  /-- TLBINV (R168). Starts invalidation of the world's TLB entries. -/
  | tlbinv (v : Word)
  /-- TLBINV_COMPLETE (R168). The invalidation finishes and tlbinv reads 0. -/
  | tlbinvComplete (world : Nat)
  /-- LDEST (R236). A CSR write sets the register that the compact implicit source reads. -/
  | ldest (v : Word)
  /-- FCSR (R51). A CSR write sets the rounding mode and clears or sets sticky flags. -/
  | fcsr (v : Word)
  /-- ALPOL (R190). Writes the alarm levels and the lock bit. -/
  | alpol (v : Word)
  /-- REGISTER_WRITE (R264). A write to a register without behaviour of its own, ignored or trapping for RO. -/
  | registerWrite (csr : BitVec 12) (v : Word)
  /-- OBCTL (R370). Writes the observation controls and sample period. -/
  | obctl (world : Nat) (v : Word)
  /-- OBBUF (R371). Checks and sets the observation buffer and resets its counters. -/
  | obbuf (world : Nat) (v : Word)
  /-- OBTAIL (R371). Records consumed observation records. -/
  | obtail (world : Nat) (v : Word)
  /-- RCREQ (R380). Requests an immediate signature of the receipt chain. -/
  | rcreq (world : Nat) (v : Word)
  /-- PROFILE_ENTRY (R381). Writes a profile entry and checks it on its first dword. -/
  | profileEntry (world entry off : Nat) (v : Word)
  /-- QSTAT (R382). Clears the queue's sticky refusal, overflow and drop bits. -/
  | qstat (queue : Nat) (v : Word)
  /-- BCCFG (R384). Configures a bounce channel's ring while IDLE. -/
  | bccfg (chan : Nat) (v : Word)
  /-- BCSTG (R384). Sets a bounce channel's staging ring after an ownership check. -/
  | bcstg (chan : Nat) (v : Word)
  /-- BCHC (R385). Host count write making slots available to or consumed from the channel. -/
  | bchc (chan : Nat) (v : Word)
  /-- BCRESYNC (R385). Resynchronises a STALE channel to sequence n or forces REKEY. -/
  | bcresync (chan : Nat) (v : Word)
  /-- BC_KEY_INSTALL (R385). Thatum installs a channel key, moving it to RUN with dc = 0. -/
  | bcKeyInstall (chan key : Nat)
  /-- BC_SLOT (R385). A slot is checked or written and dc advances, or the channel goes STALE. -/
  | bcSlot (chan : Nat) (slot : SlotInput)
  /-- FLIT_RECEIVE (R132). A receiving device decodes a flit's link words and checks its CRC. -/
  | flitReceive (plane src : Nat) (words : List (BitVec 72)) (last : Bool)
  /-- LANE_LOCK_LOSS (R131). A port losing lane lock erases its slice or takes the plane down. -/
  | laneLockLoss (plane slice : Nat)
  /-- PLANE_CONTROL (R131). A class-3 control packet announces a degraded slice or resynchronisation. -/
  | planeControl (plane : Nat) (msg : PlaneMsg)
  /-- FRAME_ARBITRATION (R134). Each frame every slice switch grants its outputs by class and round-robin. -/
  | frameArbitration (plane : Nat) (reqs : List PortReq)
  /-- FRAME_DIGEST (R135). A device compares the 36 slice digests of a frame. -/
  | frameDigest (plane : Nat) (digests : List (BitVec 32)) (parityFail : Bool)
  /-- PLANE_RESUME (R135). The quiesced plane resumes and senders resend unconfirmed packets. -/
  | planeResume (plane : Nat)
  /-- WR (R143). A write packet handed on is performed at the home and acknowledged. -/
  | wr (src : Nat) (q : WrReq)
  /-- RD (R143). A read request is served at the home and answered by RDR. -/
  | rd (src : Nat) (q : RdReq)
  /-- RDR (R143). A read response completes the far read matched by its tag. -/
  | rdr (src : Nat) (q : RdReply)
  /-- AMO (R144). An atomic request is performed, replayed from cache or answered REPLAY-UNKNOWN. -/
  | amo (src : Nat) (q : AmoReq)
  /-- AMOR (R144). An atomic response completes or faults the requesting atomic. -/
  | amor (src : Nat) (q : AmoReply)
  /-- WACK (R143). A write acknowledgement completes the posted far writes it covers. -/
  | wack (src : Nat) (q : WackMsg)
  /-- SLI (R149). A sleeve item arrives at a receive buffer or forwarding entry. -/
  | sli (src : Nat) (q : SleeveItem)
  /-- SLC (R151). A sleeve control message such as ATTACH is handled at the home or an end. -/
  | slc (src : Nat) (q : SleeveCtl)
  /-- TLR (R159). A tailoring record lands whole in its destination buffer or is returned. -/
  | tlr (src : Nat) (q : TailorRec)
  /-- TLC (R156). Tailoring control exchanges histograms, counts, refinement and status. -/
  | tlc (src : Nat) (q : TailorCtl)
  /-- BAR_MESSAGE (R326). A cross-device barrier arrival reaches the coordinator's unit. -/
  | barMessage (src : Nat) (q : BarMsg)
  /-- CLM (R178). An element claim request checks and claims units at the home. -/
  | clm (src : Nat) (q : ClmReq)
  /-- CLMR (R178). A claim response lets the requester fault or move element data. -/
  | clmr (src : Nat) (q : ClmReply)
  /-- ACK (R139). An ACK frees acknowledged packets at the sender. -/
  | ack (src seq : Nat)
  /-- NAK (R139). A NAK makes the sender resend from seq n with fresh counters. -/
  | nak (src seq : Nat)
  /-- NAK_CTX (R141). A missing stream context makes the sender resend with a full header. -/
  | nakCtx (src seq : Nat)
  /-- ACK_TIMER (R139). A receiver sends ACK every 1 µs when due. -/
  | ackTimer (peer : Nat)
  /-- GAP_TIMER (R139). A gap at next lasting 2 µs sends a NAK. -/
  | gapTimer (peer : Nat)
  /-- RESEND_TIMER (R139). With no ACK for 10 µs the sender resends from its oldest packet. -/
  | resendTimer (peer : Nat)
  /-- ATOMIC_RETRY (R144). An atomic with no response for 100 µs is resent with its id. -/
  | atomicRetry (op : Nat)
  /-- DELIVERY_TIMEOUT (R147). A far access incomplete after 1 ms times out with ACCESS cause 12. -/
  | deliveryTimeout (op : Nat)
  /-- SESSION_REESTABLISH (R145). A re-established SPDM session resets sequence state and resends outstanding requests. -/
  | sessionReestablish (offer : SessionOffer)
  /-- CONTACT_LOSS (R152). No fabric contact for 10 ms orphans sleeve ends. -/
  | contactLoss (peer : Nat)
  /-- D2D_KEY_RENEWAL (R179). Die-to-die link keys are renewed every 2^40 flits. -/
  | d2dKeyRenewal
  /-- IDE_INTEGRITY_FAILURE (R180). An IDE failure puts the world's TDI in ERROR and feeds an alarm. -/
  | ideIntegrityFailure (world : Nat)
  /-- HOST_REGISTER_REQUEST (R181). A CXL.io request to a private page is completed or refused by T bit and TDI. -/
  | hostRegisterRequest (q : HostReq)
  /-- GLITCH_DETECT (R189). The voltage, clock or temperature detector fires. -/
  | glitchDetect
  /-- DEBUG_PORT_ACCESS (R189). A debug port access while the debug lock is set. -/
  | debugPortAccess
  /-- ECC_ERROR (R211). An ECC error is corrected and counted or poisons the datum. -/
  | eccError (t : EccTarget) (uncorrectable : Bool)
  /-- RESET (R386). Reset runs Thatum firmware verification, key setup, memory init and link training. -/
  | reset (step : BootStep)
  /-- I3C_ADDRESS_ASSIGNMENT (R387). The management sideband answers dynamic address assignment. -/
  | i3cAddressAssignment (addr : Nat)
  /-- THRIN_DEASSERT (R388). The active-low thrin input is released, lifting the forced duty 4 from the next window. -/
  | thrinDeassert
  /-- DOE_SPDM_MESSAGE (R180). A host SPDM or TDISP message over DOE, such as GET_MEASUREMENTS, IDE key management or a TDI lock, unlock
  or start, moves a world's TDISP state. -/
  | doeSpdmMessage (m : SpdmMsg)
  /-- CXL_MEM_REQUEST (R378). A host CXL.mem request to an HDM decoder range reads or writes world-assigned device DRAM, with
  back-invalidate and poison. -/
  | cxlMemRequest (q : CxlReq)
  /-- SESSION_KEY_UPDATE (R138). A pair's SPDM session updates its link keys before the per-direction ctr reaches 2^48. -/
  | sessionKeyUpdate (peer : Nat)
  /-- QUEUE_BIND (R107). The supervisor, with firmware approval, binds a queue's world, class, attribute and home stack and its code
  image, whose digest Thatum records and whose granules get meas set (R185). -/
  | queueBind (q : BindReq)
  /-- SUPERVISOR_TASK_END (R109). The supervisor ends a task, which retires with end code 1 and still posts its done event. -/
  | supervisorTaskEnd (queue num : Nat)
  /-- FIXED_RESULT_LANDING (R404). A hooked TCM load, ct.st, ky.bind or tb.ld lands its result and posts its hook at the end of the third
  enabled cycle while its hart issues nothing. -/
  | fixedResultLanding (op : Nat)
  /-- RPSTAT_COMPLETE (R340). rpstat writes X[D] and posts its hook within 100 ns of issue. -/
  | rpstatComplete (op : Nat)
deriving DecidableEq, Repr

end Sys2Proof
end

