-- ==== Sys2Proof/Machine/State.lean ====
section
/-! DEFINITION. The state of one Q-768 device: its harts, its memory, its worlds, its queues and tasks, its fabric ends, its
sleeves and tailoring groups, Thatum and the board, and the work in flight. Plain data throughout. -/
namespace Sys2Proof.Machine

/-- Privilege levels (R27). -/
inductive Level where
  | user | supervisor | machine
deriving DecidableEq, Repr

/-- One trap to take: the code of R193, the cause number, walk level, far and store bits and element index of R194 and R403,
and the detail; `elem` says that the trap has set vstart itself (R198), `viol` that the granule table of this device refused the
access, which counts a violation (R170, R213). -/
structure Trap where
  code : Byte
  cause : Byte := 0
  walk : BitVec 2 := 3
  far : Bool := false
  store : Bool := false
  idx : BitVec 40 := 0
  detail : Word := 0
  elem : Bool := false
  viol : Bool := false
deriving DecidableEq, Repr

/-- One entry of the hardware loop nest (R254, R257); `fixed` is kind 1, `loopr`. -/
structure LoopEntry where
  count : Word
  stop : Word
  start : Word
  fixed : Bool
  lvl : BitVec 3
deriving DecidableEq, Repr

/-- The registers that each privilege level has of its own (R196, R236, R256): x and h with their poison (R211), ldest, the nest,
lidx. -/
structure Bank where
  x : Vector Word 32
  px : BitVec 32
  h : Vector Half 16
  ph : BitVec 16
  ldest : BitVec 5
  nest : List LoopEntry
  lidx : Vector Word 6
deriving DecidableEq, Repr

/-- The trap registers of one level (R194, R195); `strict` is read and written only at supervisor level. -/
structure TrapCsrs where
  nest : Bool
  strict : Bool
  inh : Bool
  pl : Level
  ie : Bool
  pie : Bool
  tvec : Word
  epc : Word
  cause : Word
  detail : Word
deriving DecidableEq, Repr

/-- The control registers of a hart that are not banked (R269, R271, R275); `vlSeen`, `vtypeSeen`, `vsbSeen` and
`vlmaxSeen` are what `csrr` reads of vl, vtype, vsb and vlmax, two slots behind (R243, R281). -/
structure Csrs where
  fcsr : Word
  vl : Word
  vtype : Half
  vstart : Word
  vsb : Word
  vlSeen : Word
  vtypeSeen : Half
  vsbSeen : Word
  vlmaxSeen : Word
  srseed : Word
  srdraw : Word
  ctfloor : Word
  brstep : Word
  slstat : Word
  instret : Word
  poolmap : Word
  lcnt : Vector Word 6
  hvl : Word
  hvtype : Word
  hvstart : Word
  held : Bool
  vlost : Bool
  srvec : Word
  sresume : Word
  stimecmp : Word
  winN : BitVec 7
  winW : Half
deriving DecidableEq, Repr

/-- Vector, mask and accumulator registers with their poison. A vector register is its image slot: byte k of lane ℓ is byte
256ℓ + k (R273). Bit i of a mask register is the bit of element i. Cell (m, n) of an accumulator is bits
[32·(32m+n)+31 : 32·(32m+n)]. -/
structure VecRegs where
  v : Vector (BitVec 65536) 32
  m : Vector (BitVec 65536) 8
  z : Vector (BitVec 32768) 4
  pv : BitVec 32
  pm : BitVec 8
  pz : BitVec 4
deriving DecidableEq, Repr

/-- One entry of a context's profile table (R341, R381): base 0 none, 1 TOY8, 2 F2K, 3 A64K, and the moduli of A64K. -/
structure Profile where
  base : Nat
  q : List Nat
deriving DecidableEq, Repr

/-- Ciphertext, table and key registers, the modulus table and the context's copies of the profile table and the pool map
(R25, R59, R171, R341, R344, R360, R363). A pool is its first granule's address divided by 32 and its granule count. -/
structure CtRegs where
  c : Vector Desc 32
  tb : Vector Desc 8
  k : Vector Desc 8
  mtab : Vector (BitVec 512) 64
  ptab : Vector Profile 16
  pools : List (Nat × Nat)
deriving DecidableEq, Repr

/-- Where a fixed-latency result goes when it lands (R118, R243, R404). -/
inductive Dest where
  | x (lvl : Level) (r : BitVec 5) (v : Word) (poison : Bool)
  | flags (f : BitVec 5)
  | cfg (vl : Word) (vtype : Half) (vsb vlmax : Word)
  | c (r : BitVec 5) (v : Desc)
  | tb (r : BitVec 3) (v : Desc)
  | k (r : BitVec 3) (v : Desc)
  | none
deriving DecidableEq, Repr

/-- A fixed-latency result that has not landed: the issue number of its producer, its landing slot, its destinations, and the
hook it posts with it (R404; 0 posts nothing). `done` says that value and post have landed ahead of the slot: the entry then only
says that a read before the slot is under-waited (R119). -/
structure Pend where
  seq : Nat
  land : Nat
  dest : Dest
  lvl : Level
  hook : BitVec 4
  done : Bool := false
deriving DecidableEq, Repr

/-- An engine channel of a hart (R12, R322, R328, R335, R348). -/
inductive Chan where
  | copy | bar | sleeve | tailor | cipher
deriving DecidableEq, Repr

/-- What holds a hart that is not ready (R116). -/
inductive Hold where
  /-- `wait`: the hook and the threshold read at issue (R251) -/
  | wait (h : BitVec 4) (thr : Half)
  /-- `epop`: engine (false cp, true rp), destination and hook (R325) -/
  | epop (rp : Bool) (d : BitVec 5) (h : BitVec 4)
  /-- `slrecv`: destination, cuff and hook (R333) -/
  | slrecv (d : BitVec 5) (cuff : Word) (h : BitVec 4)
  /-- `idle` (R267): hook values and posts counted at its issue -/
  | idle (posts : Nat)
  /-- `dly` (R117, R253): the cycles that it still takes -/
  | dly (n : Nat)
  /-- a full VIQ or command channel: the instruction issues again when an entry is free -/
  | viq
  | channel (c : Chan)
  /-- `launch` on a full queue, with the packet read at issue (R259, R107) -/
  | launch (packet : BitVec 512) (h : BitVec 4)
  /-- `ct.refresh` that the gathering batch cannot take: its key, its profile and how many refreshes a batch may hold (R124) -/
  | batch (key : BitVec 262) (prof cap : Nat)
  /-- `halt` that waits for outstanding work (R258) -/
  | halt
  /-- `ctxsave` and `ctxrst` that wait for outstanding work (R268) -/
  | drain
  /-- a fence or release at scope sys that waits for acknowledgements (R74, R265) -/
  | ack
  /-- an access to a region that is being rekeyed (R177) -/
  | rekey
  /-- a write of rgtab that waits for accesses to the world's regions (R178) -/
  | regions
  /-- an instruction whose far elements or claims have been requested: it issues again when all have arrived (R143, R178) -/
  | far
  /-- a trap in progress: outstanding far work before entry (R196) -/
  | trap (t : Trap)
  /-- its task has been ended: acknowledgements of its far writes are awaited before the task retires (R103, R109) -/
  | ending
deriving DecidableEq, Repr

/-- A fault of an engine command not yet reported (R199); the hook is one of the bank of the level that pushed the command. -/
structure EngineFault where
  chan : Chan
  lvl : Level
  hook : BitVec 4
  trap : Trap
deriving DecidableEq, Repr

/-- A write acknowledgement that timed out, or that brought a refusal, and is not yet reported (R147, R170): the level and hook of its
store, and its trap. -/
structure LateAck where
  lvl : Level
  hook : BitVec 4
  trap : Trap
deriving DecidableEq, Repr

/-- A convoy of a panel (R122, R369): the pc of its first member, its members, the vector and mask registers they write, its groups
executed and skipped; `whole` says that no further member may join (R314), `cut` that a trap has cut it short, `ops` are the members
in flight. -/
structure Convoy where
  head : Word
  count : Nat
  v : BitVec 32
  m : BitVec 8
  groups : Nat
  skipped : Nat
  whole : Bool := false
  cut : Bool := false
  ops : List Nat := []
deriving DecidableEq, Repr

/-- A hart context of the device (R14, R25). A context without a task's hart is not active; its trap registers stay. `pcsr` lists the CSRs
that are poisoned (R211), `closed` the convoys that no member can join and whose members are still in flight (R374); `rpOf` says of each
result in `rpFifo` whose it is, a group's id plus 1 or 0 for BUSY (R340). -/
structure Hart where
  core : Nat
  ctx : Nat
  active : Bool
  lane0 : Nat
  lanes : Nat
  former : Option (Nat × Nat)
  claimed : Nat
  yMark : Bool
  tcmOff : Nat
  tcmSize : Nat
  spadOff : Nat
  spadSize : Nat
  world : BitVec 6
  queue : Nat
  num : Nat
  ord : Nat
  launched : Nat
  level : Level
  pc : Word
  ir : Half
  user : Bank
  sup : Bank
  mach : Bank
  strap : TrapCsrs
  mtrap : TrapCsrs
  csr : Csrs
  vec : VecRegs
  ct : CtRegs
  slots : Nat
  lastIssue : Nat
  posts : Nat
  pend : List Pend
  hold : Option Hold
  preempt : Bool
  timer : Bool
  alarm : Option Word
  preempted : Bool
  cpFifo : List (Word × Bool)
  rpFifo : List (Word × Bool)
  rpOf : List Nat
  faults : List EngineFault
  lateAck : List LateAck
  convoy : Option Convoy
  closed : List Convoy
  samples : Nat
  pcsr : List Nat
deriving DecidableEq, Repr

/-- Where the bytes of one access lie, after translation and its checks (R19 to R24, R166). -/
inductive Home where
  | tcm | spad | stack (s : Nat) | host | regs | far (dev : Nat)
deriving DecidableEq, Repr

/-- A translated place: its home, the key of its byte 0 in memory (a local physical address, or a window key; for a far
place the local physical address at the home), the leaf's world and enc, and in element mode the region's nonce and gen. -/
structure Target where
  home : Home
  key : Nat
  lworld : Nat
  enc : Nat
  nonce : Word
  gen : Half
deriving DecidableEq, Repr

/-- A virtual region of `len` bytes with one target for each 64 KiB granule that it touches. -/
structure Region where
  base : Nat
  len : Nat
  pages : List Target
deriving DecidableEq, Repr

/-- Bytes that an operation will write, with one poison mark each. -/
structure WriteBack where
  target : Target
  data : List Byte
  poison : Bool
deriving DecidableEq, Repr

/-- A scalar destination of a hooked operation; `live` falls when a younger producer lands first (R118). -/
structure XDest where
  lvl : Level
  r : BitVec 5
  live : Bool
deriving DecidableEq, Repr

/-- The copy engine's commands (R323, R324). -/
inductive CopyCmd where
  | copy (n w : Nat) (src dst : Word)
  | copyn (src dst : Word) (w : Nat) (dims : List (Nat × Word × Word)) (result : Bool)
deriving DecidableEq, Repr

/-- How far a copy command has come: whether its engine has taken it up, the elements moved, the acknowledgements to wait for, and
the bytes and poison that its own writes have replaced, latest first (R324). -/
structure CopyRun where
  started : Bool := false
  pos : Nat := 0
  waits : List (Nat × Nat) := []
  prior : List (Nat × Byte × Bool) := []
deriving DecidableEq, Repr

/-- The data effect of a ciphertext channel operation (R354 to R366), its moduli and sizes captured at issue; `src` are the
source regions, `dst` the destination, `key` and `table` the other data read. -/
inductive CtOp where
  | word (op : Nat) (k : Int) (q : List Nat) (per : Nat)
  | mulp (q : List Nat) (n bound : Nat)
  | kswLwe (qs qd ns nd beta ell keyid : Nat) (pat : Bool)
  | kswRlwe (q : List Nat) (n beta ell keyid gamma : Nat) (pat : Bool)
  | pack (qs qd ns nd big beta ell keyid m : Nat) (pat : Bool)
  | modsw (q : List Nat) (n keep : Nat)
  | extr (q n c : Nat)
  | brinit (q n dim p : Nat)
  | brstep (q n dim beta ell keyid i : Nat) (pat : Bool)
  | brfin (q n : Nat)
  | refresh (q n dim p beta ell keyid : Nat) (pat : Bool)
deriving DecidableEq, Repr

/-- A ciphertext operation in flight (R66, R347, R348): the regions it reads (with whether the region belongs to another register
than the destination) and writes, the c-register and the descriptor that
its issue put there, the earlier operations that it follows, those among them that produce its source registers, and whether an
operand was poisoned. -/
structure CtWork where
  op : CtOp
  src : List (Region × Bool)
  dst : Region
  cd : BitVec 5
  desc : Desc
  after : List Nat
  feeds : List Nat
  key : Option Region
  table : Option Region
  poison : Bool
deriving DecidableEq, Repr

/-- A sleeve command (R328): `slopen` with its second destination, `slsend` and `slpass` with the sequence number once the
item has been sent and whether it has landed, `slclose`, `slpoll`. -/
inductive SleeveCmd where
  | opened (d2 : XDest)
  | send (cuff item : Word) (poison : Bool) (sent : Option Nat) (landed : Bool)
  | pass (cuff item : Word) (sent : Option Nat) (landed : Bool)
  | close (cuff : Word)
  | poll (cuff : Word)
deriving DecidableEq, Repr

/-- What an operation in flight will do when it completes. -/
inductive OpKind where
  /-- a local scalar load: where, size in bytes, sign extension, destination (R247) -/
  | load (t : Target) (size : Nat) (signed : Bool) (d : XDest)
  /-- a local scalar store (R247) -/
  | store (w : WriteBack)
  /-- `ldacq`, `amo` and `cas` on a local word (R248) -/
  | atomic (op : Option AmoOp) (t : Target) (arg cmp : Word) (poison : Bool) (d : XDest)
  /-- a far load or atomic whose response has come (R143, R144): its result, on its way to the destination -/
  | arrived (v : Word) (d : XDest)
  /-- a division (R245), `fdiv` or `fsqrt` (R261): result, flags -/
  | divide (fp : Bool) (v : Word) (flags : BitVec 5) (poison : Bool) (d : XDest)
  /-- a vector or tile instruction in the VIQ (R120): flags it raises, a scalar result, the memory it writes, the register
  values it replaced, a modulus table it installs, the acknowledgements of its far writes (R143), and the memory sample that its
  completion writes (R374) -/
  | vector (flags : BitVec 5) (x : Option (XDest × Word × Bool)) (writes : List WriteBack)
      (oldV : List (BitVec 5 × BitVec 65536)) (oldM : List (BitVec 5 × BitVec 65536)) (mtab : Option (Vector (BitVec 512) 64))
      (waits : List (Nat × Nat)) (sample : List Byte)
  | copy (cmd : CopyCmd) (run : CopyRun := {})
  /-- a copy-engine command whose data has moved: acknowledgements and a place in the result FIFO are outstanding (R323, R325) -/
  | copied (waits : List (Nat × Nat)) (result : Option Word)
  | ct (w : CtWork)
  | sleeve (cmd : SleeveCmd) (d : XDest)
  /-- `bar` (R326): its word, its scope, whether it has arrived, whether its episode has closed -/
  | bar (word : Word) (sc : BitVec 3) (arrived closed : Bool)
  /-- `rprun` or `rpdisp`: once its overflow list has been written, the acknowledgements of the part on another device (R78) -/
  | tailor (disp : Bool) (gid epoch : Nat) (waits : Option (List (Nat × Nat)) := none)
  | tailorBusy
  | rpstat (gid : Nat) (d : XDest)
  | icinv (base len : Nat) (sc : BitVec 3)
  /-- `ctxsave`: the image's bytes, by the places they go to (R210) -/
  | ctxsave (writes : List WriteBack)
  /-- `ctxrst`: the image that has passed every check (R210) -/
  | ctxrst (image : List Byte)
  /-- a scalar far store: the acknowledgements it waits for, by device and sequence number, and its address (R75, R143) -/
  | farStore (waits : List (Nat × Nat)) (va : Word)
deriving DecidableEq, Repr

/-- One operation in flight: its number, the core and context of its hart, its issue number, bank, hook and work. `acq` marks an operation
that later accesses of the hart wait for (R76), `sys` one of scope sys among them; `va` is the address it names; `pc` and `ret` are the pc
of its instruction and instret before it. -/
structure Op where
  id : Nat
  core : Nat
  ctx : Nat
  seq : Nat
  lvl : Level
  hook : BitVec 4
  kind : OpKind
  acq : Bool
  va : Word
  pc : Word
  ret : Word
  sys : Bool := false
deriving DecidableEq, Repr

/-- A far request sent for an instruction or command that takes up its answers together (R143, R178): what it asks for. -/
inductive FarAsk where
  | read (key len : Nat)
  | claim (units : List (Nat × Bool))
  | amo (key idx : Nat)
deriving DecidableEq, Repr

/-- The answer to a `FarAsk`: data, claim results, an old value (`kept`: of an element of this device, kept while far elements are
awaited), or the trap of a refusal or timeout. -/
inductive FarAnswer where
  | data (bytes : List Byte)
  | claims (units : List (UnitResult × Word × Half))
  | old (v : Word)
  | kept (v : Word) (poison : Bool)
  | fail (cause : Byte) (code : Byte)
deriving DecidableEq, Repr

/-- A translation that some TLB of the device holds: world, page address divided by 64 KiB, the leaf and its level (R168). -/
structure TlbEntry where
  world : BitVec 6
  page : Nat
  pte : Word
  lvl : Nat
deriving DecidableEq, Repr

/-- A version of a word that a fetch may still return (R216): the place of the word, the world of its memory then, and when a store
replaced it or a fetch brought it from another device. -/
structure OldWord where
  key : Nat
  word : Half
  stamp : Nat
  world : Nat
deriving DecidableEq, Repr

/-- An invalidation of fetched words (R163, R266): the world, the scope and the hart that names its instance, the range, its time. -/
structure Icinv where
  world : BitVec 6
  sc : BitVec 3
  core : Nat
  ctx : Nat
  base : Nat
  len : Nat
  stamp : Nat
deriving DecidableEq, Repr

/-- Every byte the device holds, and what its instruction caches may hold: replaced words, invalidations, and for a core the world that
owned each of its eight ways last (64: none; R163). The key of a byte is its 47-bit local physical address (R23), 2^47 + 2^24·c + o for
byte o of the scratchpad of cluster c, 2^48 + 2^18·c + o for byte o of the TCM of core c. -/
structure Memory where
  bytes : List Host.Cell
  poison : List Nat
  written : List Nat
  granules : List (Nat × BitVec 16)
  tlb : List TlbEntry
  olds : List OldWord
  icinvs : List Icinv
  ways : List (Nat × List Nat)
deriving DecidableEq, Repr

/-- One element region of a world (R174): base and size in 64 KiB granules. -/
structure ElemRegion where
  valid : Bool
  base : Nat
  size : Nat
  nonce : Word
  gen : Half
deriving DecidableEq, Repr

/-- TDISP states (R180). -/
inductive Tdi where
  | unlocked | locked | run | error
deriving DecidableEq, Repr

/-- The receipt chain of a world (R187, R380): the last record's number and head, the 256th records that await their signature, and
the last signed head and signature. -/
structure Receipt where
  seq : Nat
  head : List Byte
  due : Nat
  sigSeq : Nat
  sigHead : List Byte
  sig : List Byte
  req : Bool
  records : List (List Byte)
deriving DecidableEq, Repr

/-- The observation block (R370, R371). -/
structure Observe where
  ctl : Word
  buf : Word
  head : Word
  tail : Word
  drop : Word
deriving DecidableEq, Repr

/-- Which of its keys on this device a world has (R184): line key pair, MAC key, element key, context key. -/
structure WorldKeys where
  line : Bool
  mac : Bool
  elem : Bool
  ctx : Bool
deriving DecidableEq, Repr

/-- What the device holds of one world (R28, R162, R165, R174, R184, R210, R213); `rgkey` is the region that a rekey in progress
names, with the number that the next operation had when it began (R177). -/
structure World where
  attr : BitVec 5
  ptroot : Word
  spres : Word
  rgtab : Word
  regions : List ElemRegion
  nonceCtr : Nat
  rgkey : Option (Nat × Nat)
  tlbinv : Option Word
  ecorr : Word
  eunc : Word
  epois : Word
  elink : Word
  eviol : Word
  keys : WorldKeys
  imageCtr : Nat
  quarantined : Bool
  tdi : Tdi
  receipt : Receipt
  obs : Observe
  profiles : Vector (BitVec 4096) 16
  refusals : Nat
  poolmap : Word
  pools : List (Nat × Nat)
deriving DecidableEq, Repr

/-- A slot of a queue (R107): the packet, its enqueue time and its enqueue count (R186). -/
structure Slot where
  packet : BitVec 512
  tenq : Word
  num : Nat
deriving DecidableEq, Repr

/-- One of the 256 queues (R107, R382). -/
structure Queue where
  bound : Bool
  world : BitVec 6
  cls : Nat
  serial : Bool
  home : Nat
  code : List Byte
  image : Nat × Nat
  slots : List Slot
  count : Nat
  started : Nat
  through : Nat
  done : List Nat
  sref : Bool
  ovf : Bool
  drop : Bool
  dcnt : Byte
  rcnt : Byte
  deficit : Nat
  promoted : Bool
deriving DecidableEq, Repr

/-- A started task (R106, R109, R186); `code` is the end code of one that is being ended, 0 otherwise. -/
structure Task where
  queue : Nat
  num : Nat
  world : BitVec 6
  cls : Nat
  packet : BitVec 512
  left : Nat
  ended : Nat
  tenq : Word
  tstart : Word
  unmeasured : Bool
  poisoned : Bool
  profiles : BitVec 16
  npois : Word
  ecorr0 : Word
  eunc0 : Word
  elink0 : Word
  code : Nat := 0
  disp : Nat := 0
deriving DecidableEq, Repr

/-- A scratchpad allocation that a task holds in a cluster (R21, R399). -/
structure Alloc where
  queue : Nat
  num : Nat
  world : BitVec 6
  clus : Nat
  off : Nat
  size : Nat
deriving DecidableEq, Repr

/-- A parked hart (R204, R205): identity, panel, TCM and scratchpad sizes, image address, dispatcher, former cluster, the profile table
of its launch, its count of memory instructions (R375). -/
structure Parked where
  queue : Nat
  num : Nat
  ord : Nat
  world : BitVec 6
  cls : Nat
  lanes : Nat
  tcmSize : Nat
  spadSize : Nat
  sresume : Word
  disp : Nat
  clus : Nat := 0
  tile : Bool
  samples : Nat := 0
  ptab : Vector Profile 16
deriving DecidableEq, Repr

/-- What a dispatcher holds for a class-0 head: lanes, a context and a TCM slice of a core (R114). -/
structure HeldLanes where
  queue : Nat
  core : Nat
  lane0 : Nat
  lanes : Nat
  ctx : Nat
  tcm : Nat
  tcmSize : Nat
deriving DecidableEq, Repr

/-- Queues, dispatchers, tasks, their allocations (R107 to R115, R399); `dones` are far done increments that wait for a free atomic of their home (R144). -/
structure Sched where
  queues : Vector Queue 256
  ptr : Vector Nat 36
  tasks : List Task
  parked : List Parked
  heldFor : List HeldLanes
  allocs : List Alloc
  dones : List (Target × AmoReq)
deriving DecidableEq, Repr

/-- A batch of a refresh batcher (R124): its key (world and key register), its profile entry, refreshes by operation number. -/
structure Batch where
  key : BitVec 262
  prof : Nat
  ops : List Nat
  closed : Bool
deriving DecidableEq, Repr

/-- The refresh batcher of a cluster: the executing and the gathering batch. -/
structure Batcher where
  clus : Nat
  executing : Option Batch
  gathering : Option Batch
deriving DecidableEq, Repr

/-- An open barrier episode (R326): scope and place of the unit, which give the instance, id, participants wanted, arrivals by (device,
operation). -/
structure Episode where
  sc : BitVec 3
  unit : Nat
  id : Nat
  n : Nat
  arrivals : List (Nat × Nat)
deriving DecidableEq, Repr

/-- A packet's content on the fabric (R137, R142). -/
inductive Msg where
  | wr (q : WrReq) | rd (q : RdReq) | rdr (q : RdReply) | amo (q : AmoReq) | amor (q : AmoReply) | wack (q : WackMsg)
  | sli (q : SleeveItem) | slc (q : SleeveCtl) | tlr (q : TailorRec) | tlc (q : TailorCtl) | bar (q : BarMsg)
  | clm (q : ClmReq) | clmr (q : ClmReply) | ack (seq : Nat) | nak (seq : Nat) | nakCtx (seq : Nat)
  | plane (p : PlaneMsg)
deriving DecidableEq, Repr

/-- A far request on its way, by core and context (core 768: a done event of a dispatcher), with its message and its answer once
that has come; under device 512 stand claims and old values of this device's own units, kept while far ones are awaited. -/
structure FarReq where
  id : Nat
  core : Nat
  ctx : Nat
  dev : Nat
  rid : Nat
  ask : FarAsk
  msg : Msg
  answer : Option FarAnswer
deriving DecidableEq, Repr

/-- A packet on its way out: destination device, the plane, the frame in which it began there and the flits that have passed, the session
and the ctr of its transmission, its sequence number, its content (R135 to R139). -/
structure Packet where
  dst : Nat
  plane : Nat
  began : Option Nat
  passed : Nat := 0
  session : Nat
  ctr : Nat
  seq : Nat
  full : Bool
  msg : Msg
deriving DecidableEq, Repr

/-- A stream context a receiver holds for a source, with when it was last used (R141). -/
structure Stream where
  ctx : Nat
  tag : FarTag
  len : Nat
  addr : Nat
  stamp : Nat
deriving DecidableEq, Repr

/-- What the device holds of one other device of the domain (R137 to R147); `lost` says that it has left or been out of contact
(R152), `keyed` that an SPDM session with it is in force (R188); `writes` are its far writes not yet acknowledged by WACK (R145), `via`
the planes on which unacknowledged packets went (R131), `told` the atomic id that this device sent when the session began (R145), `moving`
the units of its answered claims whose data has not moved yet, each with a number and whether it is to be written (R178), `ack` is the
acknowledgement of its writes that is about to be sent (R142), `bars` are its barrier arrivals that wait for room here (R326). -/
structure Peer where
  dev : Nat
  session : Nat
  ctr : Nat
  sendSeq : Nat
  unacked : List (Nat × Msg)
  via : List (Nat × Nat)
  told : BitVec 16
  next : Nat
  waiting : List (Nat × List Byte)
  unsent : Nat
  streams : List Stream
  skip : Bool
  rid : BitVec 16
  base : BitVec 16
  cache : List (BitVec 16 × AmoResult)
  readTag : Nat
  writes : List (Nat × Msg)
  tagFails : Nat
  refusals : Nat
  parts : List (Nat × List Byte)
  broken : List Nat
  lost : Bool
  keyed : Bool
  moving : List (Nat × Nat × Bool)
  ack : Option WackMsg
  bars : List BarMsg
deriving DecidableEq, Repr

/-- One plane of Velmal as this device and its switches hold it (R131 to R135): `erasing` are slices to erase from a frame onward,
`parity` says that a slice has seen a preamble fail since the last digests, `agreed` is the last frame whose digests agreed. -/
structure Plane where
  up : Bool
  quiesced : Bool
  erased : Option Nat
  erasing : List (Nat × Nat)
  parity : Bool
  corrections : Vector Nat 36
  frame : Nat
  grants : List (Nat × Nat × Nat)
  lastIn : List (Nat × Nat × Nat)
  alternate : List Nat
  agreed : Option Nat
deriving DecidableEq, Repr

/-- Fabric state of the device: `outbox` are the packets queued on the planes, `sent` those that have passed since the last frame
that agreed (R135). -/
structure Fabric where
  planes : Vector Plane 2
  peers : List Peer
  outbox : List Packet
  sent : List Packet
  discards : Nat
  uses : Nat
deriving DecidableEq, Repr

/-- A hart as sleeves know it: world, queue, enqueue count and ordinal (R153). -/
structure Identity where
  world : BitVec 6
  queue : Nat
  num : Nat
  ord : Nat
deriving DecidableEq, Repr

/-- One directory entry of this device (R148, R151): its sleeve's world, the two gens, where each end is, how many items a closed send end sent,
whether the receive end is closed, which end is lost, the items taken, and the forwarding entries, by device and gen left, that still
wait for the send end's next sequence. -/
structure DirEntry where
  index : Nat
  used : Bool
  world : Nat
  sendGen : Half
  recvGen : Half
  sendDev : Nat
  recvDev : Nat
  sendClosed : Option Nat
  recvClosed : Bool
  sendLost : Bool
  recvLost : Bool
  taken : Nat
  waiting : List (Nat × Nat)
deriving DecidableEq, Repr

/-- An end attached to a hart of this device (R148, R149, R153). A send end: the next item sequence, the items taken at the
other end, the receive end's device. A receive end: the next sequence to deliver, the buffer, the device its last item came from. -/
structure SleeveEnd where
  sl : SleeveId
  recv : Bool
  gen : Half
  owner : Identity
  next : Nat
  taken : Nat
  loc : Nat
  buffer : List SleeveItem
  peerClosed : Option Nat
  orphan : Bool
deriving DecidableEq, Repr

/-- A forwarding entry (R150, R151): what a passed receive end left behind: its gen then, the first undelivered sequence, the items
held, the sequences forwarded, where to, and the sequence below which it forwards before it is dropped. -/
structure Forward where
  sl : SleeveId
  gen : Nat
  base : Nat
  items : List SleeveItem
  sent : List Nat
  dest : Option Nat
  upto : Option Nat
deriving DecidableEq, Repr

/-- The device's sleeve unit; `resend` holds the sends that PREEMPT has withdrawn, with the identity whose hart issues them again
(R153). -/
structure Sleeves where
  dir : List DirEntry
  ends : List SleeveEnd
  forwards : List Forward
  resend : List (Identity × Op) := []
deriving DecidableEq, Repr

/-- A tailoring operation as this member holds it (R155 to R160): the issuing hart's place and command (none before this member issues),
the descriptor, the members' inputs by device, the members whose overflow lists have been checked, the records read with the bytes of each
that are poisoned, the phase (0 waiting for members, 1 destinations fixed, 2 moving, 3 ended), own records whose outcome elsewhere is
awaited, records still to land here by source rank and index, records landed, own records returned, the status, whether it has posted,
the phase in which it ended (R340), and the world of its harts (R140). -/
structure Group where
  gid : Nat
  epoch : Nat
  mmap : BitVec 512
  core : Nat
  ctx : Nat
  op : Option Nat
  desc : BitVec 1024
  inputs : List (Nat × TailorInput)
  ready : List Nat
  records : List (List Byte × List Nat)
  phase : Nat
  out : List Nat
  due : List (Nat × Nat)
  landed : Nat
  returned : List Nat
  status : Nat
  posted : Bool
  was : Nat := 0
  world : Nat := 0
deriving DecidableEq, Repr

/-- A bounce channel (R384, R385). -/
structure Bounce where
  world : BitVec 6
  cfg : Word
  stg : Word
  st : BitVec 2
  dc : Word
  hc : Word
  key : Option Nat
deriving DecidableEq, Repr

/-- A save counter of a protected context (R210). -/
structure SaveCtr where
  owner : Identity
  c : Nat
  live : Bool
deriving DecidableEq, Repr

/-- Thatum (R183 to R191, R210): alarm policy, log, counters of the sources, save counters, die-to-die key generation, the images that
a boot verifies, the digests of those it has verified in load order. -/
structure Thatum where
  alpol : Word
  log : List (Nat × Nat)
  lineMac : List (Nat × Nat)
  saves : List SaveCtr
  d2dKeys : Nat
  booting : List BootImage
  images : List (List Byte)
deriving DecidableEq, Repr

/-- The board's registers and boot progress (R386 to R388). -/
structure Board where
  bootst : BitVec 3
  pkglim : Nat
  stklim : Vector Nat 8
  thrin : Bool
  duty : Vector Nat 8
  i3c : Option Nat
deriving DecidableEq, Repr

/-- What the device has answered a request of the host (R181, R183, R378): a register's value, an Unsupported Request, a line with its
poison, the digests of the firmware images with the firmware measurement. -/
inductive Completion where
  | value (v : Word)
  | unsupported
  | line (bytes : List Byte) (poison : Bool)
  | measurements (images : List (List Byte)) (fwm : List Byte)
deriving DecidableEq, Repr

/-- Who moves next: a core issues, or an event of the device comes about. -/
inductive Turn where
  | issue (core : Nat)
  | event (e : Instr)
deriving DecidableEq, Repr

/-- One device of a domain. `cur` is the hart that issues; `others` are the device's other hart contexts that have ever been
used. `inbox` holds messages that the device sent to itself; `agenda` says which turns come next; `free` numbers the free
choices; `clock` counts steps; `issues` numbers the instructions issued; `turns` names for an engine of a cluster the hart context
whose channel it served last (R12); `accepted` are the measurements that the domain accepts of a peer, as the supervisor of world 0
has configured them (R179); `hdm` are the decoders of CXL.mem with base, size and world (R378); `reply` is the last completion of a
request of the host. -/
structure State where
  device : Nat
  members : List Nat
  accepted : List (List Byte)
  cur : Hart
  others : List Hart
  ops : List Op
  farReqs : List FarReq
  mem : Memory
  worlds : Vector World 64
  sched : Sched
  batchers : List Batcher
  episodes : List Episode
  fabric : Fabric
  sleeves : Sleeves
  groups : List Group
  bounce : Vector Bounce 256
  hdm : Vector (Option (Nat × Nat × BitVec 6)) 8
  reply : Option Completion
  thatum : Thatum
  board : Board
  inbox : List (Nat × Msg)
  agenda : List Turn
  nextOp : Nat
  issues : Nat
  free : Nat
  clock : Nat
  turns : List (Nat × Chan × Nat)
deriving DecidableEq, Repr

/-- Why the machine stops. -/
inductive Fault where
  /-- Raised by a device event that cannot come about in the present state (it names an operation that is not in flight, a
  queue, hart, peer or group that does not exist, a placement that R16, R20 or R21 forbid). Safe: no hardware does it. -/
  | notEnabled (event : String)
deriving DecidableEq, Repr

/-- Why an instruction has no meaning. -/
inductive Refusal where
  /-- Raised by `exec` for an instruction that the model gives no meaning. Safe: the hardware goes on. -/
  | notModelled (mnemonic : String)
deriving DecidableEq, Repr

/-- What a meaning answers. -/
abbrev Out := Host.Outcome State Fault Refusal

def Bank.reset : Bank :=
  { x := Vector.replicate 32 0, px := 0, h := Vector.replicate 16 0, ph := 0, ldest := 0, nest := [], lidx := Vector.replicate 6 0 }

/-- R195; tvec, epc, cause and detail have no reset value in R271 (log 10). -/
def TrapCsrs.reset : TrapCsrs :=
  { nest := false, strict := false, inh := false, pl := .user, ie := false, pie := false, tvec := 0, epc := 0, cause := 0, detail := 0 }

/-- R25, R269, R271. -/
def Csrs.reset : Csrs :=
  { fcsr := 0, vl := 0, vtype := 0x80000000, vstart := 0, vsb := 0, vlSeen := 0, vtypeSeen := 0x80000000, vsbSeen := 0, vlmaxSeen := 1024,
    srseed := 0, srdraw := 0, ctfloor := 0, brstep := 0, slstat := 0, instret := 0, poolmap := 0,
    lcnt := Vector.replicate 6 1, hvl := 0, hvtype := 0, hvstart := 0, held := false, vlost := false, srvec := 0,
    sresume := 0, stimecmp := -1, winN := 1, winW := 0 }

def VecRegs.reset : VecRegs :=
  { v := Vector.replicate 32 0, m := Vector.replicate 8 0, z := Vector.replicate 4 0, pv := 0, pm := 0, pz := 0 }

def CtRegs.reset : CtRegs :=
  { c := Vector.replicate 32 0, tb := Vector.replicate 8 0, k := Vector.replicate 8 0, mtab := Vector.replicate 64 0,
    ptab := Vector.replicate 16 { base := 0, q := [] }, pools := [] }

/-- A hart context that no task's hart has used since reset. -/
def Hart.idle (core ctx : Nat) : Hart :=
  { core, ctx, active := false, lane0 := 0, lanes := 4, former := none, claimed := 0, yMark := false, tcmOff := 0, tcmSize := 0,
    spadOff := 0, spadSize := 0, world := 0, queue := 0, num := 0, ord := 0, launched := 0, level := .user, pc := 0, ir := 0,
    user := .reset, sup := .reset, mach := .reset, strap := .reset, mtrap := .reset, csr := .reset, vec := .reset,
    ct := .reset, slots := 0, lastIssue := 0, posts := 0, pend := [], hold := none, preempt := false, timer := false,
    alarm := none, preempted := false, cpFifo := [], rpFifo := [], rpOf := [], faults := [], lateAck := [], convoy := none, closed := [], samples := 0,
    pcsr := [] }

def Receipt.reset : Receipt :=
  { seq := 0, head := [], due := 0, sigSeq := 0, sigHead := [], sig := [], req := false, records := [] }

/-- R162, R174, R210, R213, R370, R371, R381. -/
def World.reset : World :=
  { attr := 0, ptroot := 0, spres := 0, rgtab := 0, regions := [], nonceCtr := 0, rgkey := none, tlbinv := none, ecorr := 0,
    eunc := 0, epois := 0, elink := 0, eviol := 0, keys := { line := true, mac := true, elem := true, ctx := true }, imageCtr := 1, quarantined := false, tdi := .unlocked,
    receipt := .reset, obs := { ctl := 0, buf := 0, head := 0, tail := 0, drop := 0 }, profiles := Vector.replicate 16 0,
    refusals := 0, poolmap := 0, pools := [] }

def Queue.reset : Queue :=
  { bound := false, world := 0, cls := 0, serial := true, home := 0, code := [], image := (0, 0), slots := [], count := 0,
    started := 0, through := 0, done := [], sref := false, ovf := false, drop := false, dcnt := 0, rcnt := 0, deficit := 0,
    promoted := false }

def Plane.reset : Plane :=
  { up := true, quiesced := false, erased := none, erasing := [], parity := false, corrections := Vector.replicate 36 0, frame := 0,
    grants := [], lastIn := [], alternate := [], agreed := none }

def Bounce.reset : Bounce := { world := 0, cfg := 0, stg := 0, st := 0, dc := 0, hc := 0, key := none }

/-- The default levels of R189 in alpol's layout (R190): sources 0, 1 and 4 level 1, sources 2 and 3 level 2, 5 and 6 level 3. -/
def alpolReset : Word := 0x3DA5

/-- The device right after reset (R6, R386): no task, no world, memory zeroed, no hart active. -/
def State.reset : State :=
  { device := 0, members := [0], accepted := [], cur := .idle 0 0, others := [], ops := [], farReqs := [],
    mem := { bytes := [], poison := [], written := [], granules := [], tlb := [], olds := [], icinvs := [], ways := [] },
    worlds := Vector.replicate 64 .reset,
    sched := { queues := Vector.replicate 256 .reset, ptr := Vector.replicate 36 0, tasks := [], parked := [], heldFor := [], allocs := [], dones := [] },
    batchers := [], episodes := [],
    fabric := { planes := Vector.replicate 2 .reset, peers := [], outbox := [], sent := [], discards := 0, uses := 0 },
    sleeves := { dir := [], ends := [], forwards := [] }, groups := [], bounce := Vector.replicate 256 .reset, hdm := Vector.replicate 8 none,
    reply := none,
    thatum := { alpol := alpolReset, log := [], lineMac := [], saves := [], d2dKeys := 0, booting := [], images := [] },
    board := { bootst := 0, pkglim := 2400, stklim := Vector.replicate 8 250, thrin := false,
               duty := Vector.replicate 8 16, i3c := none },
    inbox := [], agenda := [], nextOp := 0, issues := 0, free := 0, clock := 0, turns := [] }

end Sys2Proof.Machine
end

