-- ==== Sys2Proof/Machine/Mem.lean ====
section
/-! DEFINITION. The named operations over memory: bytes, poison, written bits, the granule table, and the local physical map. -/
namespace Sys2Proof.Machine

/-- What a byte that nothing has written reads as: firmware zeroes SRAM and DRAM at boot (R386, log 6). -/
def Memory.blank : Byte := 0

/-- Reads the byte at a key from canonical cells. -/
def cellRead : List Host.Cell → Nat → Byte
  | [], _ => Memory.blank
  | (k, v) :: r, a => if a = k then v else if a < k then Memory.blank else cellRead r a

/-- Writes the byte at a key, keeping the canonical form. -/
def cellWrite : List Host.Cell → Nat → Byte → List Host.Cell
  | [], a, b => if b = Memory.blank then [] else [(a, b)]
  | (k, v) :: r, a, b =>
    if a < k then (if b = Memory.blank then (k, v) :: r else (a, b) :: (k, v) :: r)
    else if a = k then (if b = Memory.blank then r else (a, b) :: r)
    else (k, v) :: cellWrite r a b

/-- Every key is above a bound and keys rise; no entry holds the blank byte. -/
def cellsAbove : Option Nat → List Host.Cell → Bool
  | _, [] => true
  | lo, (k, v) :: r => (match lo with | none => true | some l => l < k) && v != Memory.blank && cellsAbove (some k) r

/-- The canonical form of memory: keys strictly rising, no entry equal to what an unlisted key reads as. -/
def Memory.wf (m : Memory) : Bool := cellsAbove none m.bytes

def Memory.read (m : Memory) (a : Nat) : Byte := cellRead m.bytes a
def Memory.write (m : Memory) (a : Nat) (b : Byte) : Memory := { m with bytes := cellWrite m.bytes a b }

/-- n bytes from a key upward. -/
def Memory.readBytes (m : Memory) (a : Nat) : Nat → List Byte
  | 0 => []
  | n + 1 => m.read a :: m.readBytes (a + 1) n

/-- Writes bytes from a key upward. -/
def Memory.writeBytes (m : Memory) (a : Nat) : List Byte → Memory
  | [] => m
  | b :: bs => (m.write a b).writeBytes (a + 1) bs

/-- Whether the 8-byte word that holds a key is poisoned (R211). -/
def Memory.poisoned (m : Memory) (a : Nat) : Bool := m.poison.contains (a / 8)

/-- Poisons the word that holds a key: its data bits read 0 (R211). -/
def Memory.poisonWord (m : Memory) (a : Nat) : Memory :=
  { m.writeBytes (a / 8 * 8) (List.replicate 8 0) with poison := insertSorted (a / 8) m.poison }

/-- Clears a word's poison (R212). -/
def Memory.cleanWord (m : Memory) (a : Nat) : Memory := { m with poison := m.poison.filter (· != a / 8) }

/-- The words that n bytes from a key touch, by their first byte. -/
def wordsOf (a n : Nat) : List Nat := if n = 0 then [] else (List.range ((a + n - 1) / 8 - a / 8 + 1)).map fun i => (a / 8 + i) * 8

/-- A clean write: clears the poison of every word it touches; the other bytes of such a word stay 0 (R212). -/
def Memory.writeClean (m : Memory) (a : Nat) (bs : List Byte) : Memory :=
  ((wordsOf a bs.length).foldl Memory.cleanWord m).writeBytes a bs

/-- A poisoned write poisons every word it touches (R212). -/
def Memory.writePoison (m : Memory) (a n : Nat) : Memory := (wordsOf a n).foldl Memory.poisonWord m

/-- Whether any of n bytes from a key is poisoned. -/
def Memory.anyPoison (m : Memory) (a n : Nat) : Bool := (wordsOf a n).any m.poisoned

/-- The written bit of the 4-byte unit that holds a key (R175). -/
def Memory.unitWritten (m : Memory) (a : Nat) : Bool := m.written.contains (a / 4)
def Memory.claim (m : Memory) (a : Nat) : Memory := { m with written := insertSorted (a / 4) m.written }

/-- The granule table entry of a local physical address (R170). -/
def Memory.granule (m : Memory) (pa : Nat) : BitVec 16 :=
  match m.granules.find? (fun e => e.1 == pa / 65536) with
  | some e => e.2
  | none => 0
def gOwner (g : BitVec 16) : BitVec 6 := g.extractLsb' 10 6
def gMode (g : BitVec 16) : Nat := (g.extractLsb' 8 2).toNat
def gShared (g : BitVec 16) : Bool := g.getLsbD 7
def gMeas (g : BitVec 16) : Bool := g.getLsbD 6

/-- Sets or clears the meas bit of a granule (R170, R185). -/
def Memory.setMeas (m : Memory) (pa : Nat) (v : Bool) : Memory :=
  { m with granules := m.granules.map fun e =>
      if e.1 == pa / 65536 then (e.1, if v then e.2 ||| 0x40#16 else e.2 &&& 0xFFBF#16) else e }

/-- The local physical map (R23): the home of an address, none for a hole. -/
def homeOf (pa : Nat) : Option Home :=
  if pa < 0x10000000000 then
    if pa % 0x2000000000 < 0x1800000000 then some (.stack (pa / 0x2000000000)) else none
  else if pa < 0x10400000000 then
    if (pa - 0x10000000000) % 0x80000000 < 0x70000000 then some (.stack ((pa - 0x10000000000) / 0x80000000)) else none
  else if 0x20000000000 ≤ pa ∧ pa < 0x20010000000 then some .regs
  else if 0x400000000000 ≤ pa ∧ pa < 0x800000000000 then some .host
  else none

/-- Stack SRAM or DRAM of this device. -/
def isLocalRam (pa : Nat) : Bool :=
  match homeOf pa with
  | some (.stack _) => true
  | _ => false

/-- DRAM of this device. -/
def isDram (pa : Nat) : Bool := pa < 0x10000000000 && isLocalRam pa

/-- The key of a scratchpad byte: cluster number 12·stack + cluster, offset (R13). -/
def spadKey (clus off : Nat) : Nat := 2 ^ 47 + clus * 2 ^ 24 + off
/-- The key of a TCM byte: global core number, offset (R20). -/
def tcmKey (core off : Nat) : Nat := 2 ^ 48 + core * 2 ^ 18 + off
/-- The cluster and the stack of a core (R11). -/
def clusOf (core : Nat) : Nat := core / 8
def stackOf (core : Nat) : Nat := core / 96

/-- The keystream byte of an element-mode byte at home address H (R175). -/
def elemStream (world : Nat) (nonce : Word) (gen : Half) (h : Nat) : Byte :=
  (regionBlock (regionKey (toBytes 32 (Config.elementKey world).toNat) nonce gen) (h / 16)).getD (h % 16) 0

end Sys2Proof.Machine
end

