-- ==== Sys2Proof/Machine/Translate.lean ====
section
/-! DEFINITION. From a virtual address to the place it names: the windows (R19 to R22), the table walk (R165 to R169), the granule
table (R170), element regions (R174), and reading and writing a translated place. -/
namespace Sys2Proof.Machine

/-- Trap codes of R193. -/
def cILLEGAL : Byte := 0x01
def cPOOL : Byte := 0x02
def cALIGN : Byte := 0x03
def cPAGE : Byte := 0x04
def cACCESS : Byte := 0x05
def cWORLD : Byte := 0x06
def cUNHOOKED : Byte := 0x07
def cNOISE : Byte := 0x08
def cKEYSTREAM : Byte := 0x09
def cSTREAM : Byte := 0x0A
def cENGINE : Byte := 0x0B
def cBKPT : Byte := 0x0C
def cTRAPCALL : Byte := 0x0D
def cSTRICT : Byte := 0x0E
def cCTXIMAGE : Byte := 0x0F
def cPREEMPT : Byte := 0x10
def cALARM : Byte := 0x11
def cTIMER : Byte := 0x12

/-- What an access does. -/
inductive Acc where
  | load | store | atomic | fetch
deriving DecidableEq, Repr
def Acc.writes : Acc → Bool
  | .store | .atomic => true
  | _ => false

/-- A PAGE, ACCESS or WORLD trap at an address (R193, R403). -/
def memTrap (code cause : Byte) (walk : Nat) (far : Bool) (acc : Acc) (va : Word) : Trap :=
  { code, cause, walk := BitVec.ofNat 2 walk, far, store := acc.writes, detail := va }
/-- An ACCESS that no walk entry decided (R403). -/
def accessTrap (cause : Byte) (acc : Acc) (va : Word) : Trap := memTrap cACCESS cause 3 false acc va

/-! Fields of a page table entry (R166). -/
def pteDev (p : Word) : Nat := (p.extractLsb' 55 9).toNat
def pteFar (p : Word) : Bool := p.getLsbD 54
def pteWorld (p : Word) : Nat := (p.extractLsb' 48 6).toNat
def ptePa (p : Word) : Nat := (p.extractLsb' 16 31).toNat * 65536
def pteEnc (p : Word) : Nat := (p.extractLsb' 14 2).toNat
def pteAhc (p : Word) : Nat := (p.extractLsb' 12 2).toNat
def pteCache (p : Word) : Nat := (p.extractLsb' 10 2).toNat
def pteTrusted (p : Word) : Bool := p.getLsbD 9
def pteUser (p : Word) : Bool := p.getLsbD 5
def pteX (p : Word) : Bool := p.getLsbD 4
def pteW (p : Word) : Bool := p.getLsbD 3
def pteRd (p : Word) : Bool := p.getLsbD 2
def pteLeaf (p : Word) : Bool := p.getLsbD 1
def pteV (p : Word) : Bool := p.getLsbD 0

/-- The size of the block that a leaf maps at a level (R165). -/
def blockSize (lvl : Nat) : Nat := 2 ^ (16 + 13 * (2 - lvl))

/-- Orders 1 to 3 of R167 on one entry: the cause, if it fails. -/
def entryFault (p : Word) (lvl : Nat) : Option Byte :=
  if !pteV p then some 1
  else if !pteLeaf p then
    if lvl ≥ 2 then some 2
    else if p &&& 0xFFFF80000000FFFE#64 != 0 then some 2
    else if !isLocalRam (ptePa p) then some 2 else none
  else
    let hostLeaf := !pteFar p && homeOf (ptePa p) == some .host
    if p.getLsbD 47 || p.extractLsb' 6 3 != 0 then some 2
    else if !pteFar p && pteDev p != 0 then some 2
    else if pteEnc p = 3 || pteAhc p = 3 || pteCache p = 3 then some 2
    else if ptePa p % blockSize lvl != 0 then some 2
    else if pteEnc p = 1 && (hostLeaf || pteFar p) then some 2
    else if pteTrusted p && !hostLeaf then some 2
    else if (pteAhc p = 1 && !hostLeaf) || (pteAhc p = 0 && hostLeaf) then some 2
    else none

/-- One 8-byte table entry. -/
def readEntry (m : Memory) (table idx : Nat) : Word := BitVec.ofNat 64 (ofBytes (m.readBytes (table + 8 * idx) 8))

/-- Walks from a table at a level downward (R165, R167): the leaf and its level, or the cause and the level. -/
def walkFrom (m : Memory) (va : Nat) : Nat → Nat → Except (Byte × Nat) (Word × Nat)
  | 0, _ => .error (2, 2)
  | n + 1, table =>
    let lvl := 2 - n
    let p := readEntry m table (va / 2 ^ (16 + 13 * n) % 8192)
    match entryFault p lvl with
    | some c => .error (c, lvl)
    | none => if pteLeaf p then .ok (p, lvl) else walkFrom m va n (ptePa p)

/-- The fresh walk of a world's tables. -/
def walk (s : State) (w : BitVec 6) (va : Nat) : Except (Byte × Nat) (Word × Nat) :=
  let root := ((s.worlds[w.toNat]).ptroot.extractLsb' 16 31).toNat * 65536
  if isLocalRam root then walkFrom s.mem va 3 root else .error (2, 0)

/-- The translations in force for a page: what a walk gives now, and what TLBs still hold (R168). A free choice decides
where they differ. -/
def leafOf (s : State) (w : BitVec 6) (va : Nat) : Except (Byte × Nat) (Word × Nat) :=
  let fresh := walk s w va
  let old := (s.mem.tlb.filter fun e => e.world == w && e.page == va / 65536).map fun e => (e.pte, e.lvl)
  match old.filter (fun e => match fresh with | .ok f => f != e | .error _ => true) with
  | [] => fresh
  | held => ((fresh :: held.map Except.ok)[Config.pick s.free (va / 65536) % (held.length + 1)]?).getD fresh

/-- Records the translation in use for a page (R168). -/
def State.touch (s : State) (w : BitVec 6) (va : Nat) : State :=
  if va < 0x2000000 then s else
  match leafOf s w va with
  | .error _ => s
  | .ok (p, l) =>
    let e : TlbEntry := { world := w, page := va / 65536, pte := p, lvl := l }
    if s.mem.tlb.contains e then s else { s with mem := { s.mem with tlb := e :: s.mem.tlb } }

/-- The element region of a world that holds a local physical address (R174). -/
def regionOf (s : State) (w : BitVec 6) (pa : Nat) : Option ElemRegion :=
  (s.worlds[w.toNat]).regions.find? fun r => r.valid && r.base ≤ pa / 65536 && pa / 65536 < r.base + r.size

/-- Register pages of BAR0 (R379): none for an unassigned offset; a page with the world it is private to. -/
inductive RegPage where
  | device
  | world (w : Nat)
  | queue (q : Nat)
  | bounce (c : Nat)
deriving DecidableEq, Repr
def regPage (off : Nat) : Option RegPage :=
  if off < 0x10000 then some .device
  else if 0x110000 ≤ off ∧ off < 0x500000 then some (.world ((off - 0x100000) / 0x10000))
  else if 0x1000000 ≤ off ∧ off < 0x2000000 then some (.queue ((off - 0x1000000) / 0x10000))
  else if 0x2000000 ≤ off ∧ off < 0x3000000 then some (.bounce ((off - 0x2000000) / 0x10000))
  else none
/-- Whether a page is shared or private to a world. -/
def RegPage.open' (s : State) (w : BitVec 6) : RegPage → Bool
  | .device => true
  | .world v => v == w.toNat
  | .queue q => (if h : q < 256 then s.sched.queues[q].world == w else false)
  | .bounce c => (if h : c < 256 then s.bounce[c].world == w else false)

/-- Orders 4 to 8 of R167 on a leaf, and R174, R175, R178, R182 and R379. `wide` says whether the width suits element mode. Host memory
has no granule table: there the region of an element is looked up last (R178, R402). -/
def leafChecks (s : State) (lvl : Level) (w : BitVec 6) (p : Word) (plvl : Nat) (va : Word) (acc : Acc) (wide : Bool) :
    Except Trap Target :=
  let pa := ptePa p + va.toNat % blockSize plvl
  let far := pteFar p && pteDev p != s.device
  let bad (code cause : Byte) : Except Trap Target := .error (memTrap code cause plvl far acc va)
  let home := homeOf pa
  let g := s.mem.granule pa
  let ram := !far && (match home with | some (.stack _) => true | _ => false)
  let region := regionOf s w pa
  let elem := pteEnc p = 2
  let refused (cause : Byte) : Except Trap Target := .error { memTrap cWORLD cause plvl far acc va with viol := true }
  if ram && ((gOwner g != w && !gShared g) || (gOwner g).toNat != pteWorld p) then refused 3
  else if ram && gMode g != pteEnc p then refused 4
  else if ram && elem && region.isNone then bad cWORLD 4
  else if lvl == .user && !pteUser p then bad cACCESS 5
  else if acc == .fetch && lvl == .supervisor && pteUser p then bad cACCESS 5
  else if (acc == .load && !pteRd p) || (acc == .store && !pteW p) || (acc == .fetch && !pteX p) ||
      (acc == .atomic && !(pteRd p && pteW p)) then bad cACCESS 6
  else if acc == .atomic && pteAhc p = 2 then bad cACCESS 7
  else if far then
    if !s.members.contains (pteDev p) then bad cACCESS 8
    else if !isLocalRam pa then bad cACCESS 8
    else if elem && !wide then bad cACCESS 9
    else .ok { home := .far (pteDev p), key := pa, lworld := pteWorld p, enc := pteEnc p, nonce := 0, gen := 0 }
  else match home with
  | none => bad cACCESS 8
  | some .regs =>
    match regPage (pa - 0x20000000000) with
    | none => bad cACCESS 8
    | some pg =>
      if pteFar p then bad cACCESS 8
      else if !pg.open' s w then bad cWORLD 3
      else .ok { home := .regs, key := pa, lworld := pteWorld p, enc := 0, nonce := 0, gen := 0 }
  | some h =>
    if pteFar p && h == .host then bad cACCESS 8
    else if elem && !wide then bad cACCESS 9
    else if elem && region.isNone then bad cWORLD 4
    else if pteTrusted p && h == .host && (s.worlds[w.toNat]).tdi != .run then bad cACCESS 10
    else .ok { home := h, key := pa, lworld := pteWorld p, enc := pteEnc p,
               nonce := (match region with | some r => r.nonce | none => 0),
               gen := (match region with | some r => r.gen | none => 0) }

/-- The world's tailoring reservation (R22): base and size in bytes. -/
def tailorRes (s : State) (w : BitVec 6) : Nat × Nat :=
  let v := (s.worlds[w.toNat]).spres
  ((v.extractLsb' 38 8).toNat * 65536, (v.extractLsb' 46 9).toNat * 65536)
def refreshRes (s : State) (w : BitVec 6) : Nat × Nat :=
  let v := (s.worlds[w.toNat]).spres
  ((v.extractLsb' 21 8).toNat * 65536, (v.extractLsb' 29 9).toNat * 65536)

/-- The scratchpad window (R21, R22): the cluster offset of a window offset, where an access of n bytes fits. -/
def spadWindow (s : State) (h : Hart) (off n : Nat) : Option Nat :=
  let (tb, ts) := tailorRes s h.world
  if off + n ≤ h.spadSize then some (h.spadOff + off)
  else if tb ≤ off ∧ off + n ≤ tb + ts then some off
  else none

/-- Whether an address lies in a hart's TCM slice (R20). -/
def inTcm (h : Hart) (va : Word) : Bool := 0x100000 ≤ va.toNat && va.toNat < 0x100000 + h.tcmSize

/-- Translates and checks one access of `size` bytes by a hart at a level (R19 to R24, R167, R170). -/
def translate (s : State) (h : Hart) (lvl : Level) (va : Word) (size : Nat) (acc : Acc) (elemOk : Bool) : Except Trap Target :=
  let a := va.toNat
  let win (home : Home) (key : Nat) : Except Trap Target :=
    .ok { home, key, lworld := h.world.toNat, enc := 0, nonce := 0, gen := 0 }
  if a < 0x2000000 then
    if 0x100000 ≤ a ∧ a < 0x140000 then
      if a + size ≤ 0x100000 + h.tcmSize then win .tcm (tcmKey h.core (h.tcmOff + (a - 0x100000))) else .error (accessTrap 8 acc va)
    else if 0x1000000 ≤ a then
      match spadWindow s h (a - 0x1000000) size with
      | some o => if a + size ≤ 0x2000000 then win .spad (spadKey (clusOf h.core) o) else .error (accessTrap 8 acc va)
      | none => .error (accessTrap 8 acc va)
    else .error (accessTrap 8 acc va)
  else if a ≥ 2 ^ 55 then .error (accessTrap 8 acc va)
  else
    match leafOf s h.world a with
    | .error (c, l) => .error (memTrap cPAGE c l false acc va)
    | .ok (p, l) =>
      match leafChecks s lvl h.world p l va acc (elemOk && (size == 4 || size == 8) && a % size == 0) with
      | .error t => .error t
      | .ok t => if t.home == .regs && !(size == 8 && a % 8 == 0) then .error { code := cALIGN, store := acc.writes, detail := va } else .ok t

/-- Whether a world has the keys of a granule mode on this device: the line and the MAC key, or the element key (R172, R184). -/
def World.reads (w : World) (mode : Nat) : Bool := mode == 0 || (if mode = 1 then w.keys.line && w.keys.mac else w.keys.elem)
/-- Whether the world's line or element data have been erased by an alarm (R188). -/
def Target.erased (s : State) (w : BitVec 6) (t : Target) : Bool := !(s.worlds[w.toNat]).reads t.enc

/-- The home address H of R175 for an offset within a target of this device. -/
def State.homeAddr (s : State) (t : Target) (i : Nat) : Nat := s.device * 2 ^ 47 + t.key + i

/-- One decrypted byte of an element-mode unit; a unit that is not written reads 0 (R175). -/
def elemByte (s : State) (w : BitVec 6) (t : Target) (i : Nat) : Byte :=
  if s.mem.unitWritten (t.key + i) then
    s.mem.read (t.key + i) ^^^ elemStream w.toNat t.nonce t.gen (s.homeAddr t i)
  else 0

/-- Reads n bytes of a place of this device, with whether any word read is poisoned; poisoned data reads 0 (R211, R212). -/
def readTarget (s : State) (w : BitVec 6) (t : Target) (n : Nat) : List Byte × Bool :=
  if t.erased s w || s.mem.anyPoison t.key n then (List.replicate n 0, true)
  else if t.enc = 2 then ((List.range n).map (elemByte s w t), false)
  else (s.mem.readBytes t.key n, false)

/-- Counts one in a counter of a world. -/
def State.modWorld (s : State) (w : Nat) (f : World → World) : State :=
  if h : w < 64 then { s with worlds := s.worlds.set w (f s.worlds[w]) } else s

/-- Writes bytes to a place of this device: encrypted in element mode, clearing the granule's meas bit (R170), poisoned or
cleaning the words (R212); dropped and counted where an alarm has erased the world's keys (R188). -/
def writeTarget (s : State) (w : BitVec 6) (t : Target) (bs : List Byte) (poison : Bool) : State :=
  if t.erased s w then s.modWorld w.toNat fun x => { x with eviol := x.eviol + 1 }
  else
    let data := if t.enc = 2 then
        bs.zipIdx.map fun (b, i) => b ^^^ elemStream w.toNat t.nonce t.gen (s.homeAddr t i)
      else bs
    let m := if poison then s.mem.writePoison t.key bs.length else s.mem.writeClean t.key data
    { s with mem := match t.home with | .stack _ => m.setMeas t.key false | _ => m }

/-- Claims the units that n bytes of an element-mode place touch (R176): the lowest unit that is already written, if any. -/
def claimTarget (s : State) (t : Target) (n : Nat) : Except Nat State :=
  if t.enc != 2 then .ok s
  else
    let units := (List.range (cdiv n 4)).map fun i => 4 * i
    match units.find? fun i => s.mem.unitWritten (t.key + i) with
    | some i => .error i
    | none => .ok { s with mem := units.foldl (fun m i => m.claim (t.key + i)) s.mem }

/-! Words that stores have replaced (R216). -/

/-- Keeps the words that a store of n bytes has replaced: a fetch may return them until an invalidation (R216). `s` is the state
before the store, `u` after it. -/
def State.keepWords (s u : State) (w : BitVec 6) (t : Target) (n : Nat) : State :=
  if t.home = .regs then u else
  let word (x : State) (k : Nat) : Half := BitVec.ofNat 32 (ofBytes (readTarget x w { t with key := k } 4).1)
  let keys := (List.range (cdiv (t.key % 4 + n) 4)).map fun i => t.key / 4 * 4 + 4 * i
  let olds := (keys.filter fun k => word s k != word u k).map fun k => ({ key := k, word := word s k, stamp := s.clock, world := t.lworld } : OldWord)
  { u with mem := { u.mem with olds := olds ++ u.mem.olds } }

/-- The same for bytes of this device's memory that no translation of a hart has named. -/
def State.keepPlain (s u : State) (w : BitVec 6) (key n : Nat) : State :=
  s.keepWords u w { home := .stack 0, key, lworld := w.toNat, enc := 0, nonce := 0, gen := 0 } n

end Sys2Proof.Machine
end

