-- ==== Sys2Proof/Machine/Regs.lean ====
section
/-! DEFINITION. The registers of a hart: banks, hooks, fixed-latency results, ldest, retirement and hardware loops. -/
namespace Sys2Proof.Machine

/-- The bank of a level (R196). -/
def Hart.bankOf (h : Hart) : Level → Bank
  | .user => h.user
  | .supervisor => h.sup
  | .machine => h.mach
def Hart.setBank (h : Hart) (l : Level) (b : Bank) : Hart :=
  match l with
  | .user => { h with user := b }
  | .supervisor => { h with sup := b }
  | .machine => { h with mach := b }
/-- The bank in use. -/
def Hart.bank (h : Hart) : Bank := h.bankOf h.level
def Hart.modBank (h : Hart) (l : Level) (f : Bank → Bank) : Hart := h.setBank l (f (h.bankOf l))

/-- x0 reads 0 (R25). -/
def Bank.readX (b : Bank) (r : BitVec 5) : Word := if r = 0 then 0 else b.x[r.toNat]'r.isLt
def Bank.poisonX (b : Bank) (r : BitVec 5) : Bool := r != 0 && b.px.getLsbD r.toNat
/-- A write of x0 is discarded (R217); a poisoned datum reads 0 (R211). -/
def Bank.writeX (b : Bank) (r : BitVec 5) (v : Word) (p : Bool) : Bank :=
  if r = 0 then b else
  { b with x := b.x.set r.toNat (if p then 0 else v) r.isLt,
           px := if p then b.px ||| 1#32 <<< r.toNat else b.px &&& ~~~(1#32 <<< r.toNat) }
/-- h0 reads 0 (R10). -/
def Bank.readH (b : Bank) (r : BitVec 4) : Half := if r = 0 then 0 else b.h[r.toNat]'r.isLt
def Bank.poisonH (b : Bank) (r : BitVec 4) : Bool := r != 0 && b.ph.getLsbD r.toNat
/-- A write of h0 is discarded; a write clears the hook's poison (R212). -/
def Bank.writeH (b : Bank) (r : BitVec 4) (v : Half) : Bank :=
  if r = 0 then b else { b with h := b.h.set r.toNat v r.isLt, ph := b.ph &&& ~~~(1#16 <<< r.toNat) }
/-- A poisoned hook reads 0 (R211). -/
def Bank.markH (b : Bank) (r : BitVec 4) : Bank :=
  if r = 0 then b else { b with h := b.h.set r.toNat 0 r.isLt, ph := b.ph ||| 1#16 <<< r.toNat }
/-- Adds to a hook; a poisoned one stays poisoned (R212). -/
def Bank.addH (b : Bank) (r : BitVec 4) (n : Half) : Bank := if b.poisonH r then b.markH r else b.writeH r (b.readH r + n)

def Hart.x (h : Hart) (r : BitVec 5) : Word := h.bank.readX r
def Hart.px (h : Hart) (r : BitVec 5) : Bool := h.bank.poisonX r
def Hart.hook (h : Hart) (r : BitVec 4) : Half := h.bank.readH r
def Hart.ph (h : Hart) (r : BitVec 4) : Bool := h.bank.poisonH r

/-- Posts a hook of a level's bank; h0 posts nothing (R10, R252). -/
def Hart.post (h : Hart) (l : Level) (r : BitVec 4) : Hart :=
  if r = 0 then h else { h.modBank l fun b => b.addH r 1 with posts := h.posts + 1 }

/-- Whether a destination is this x register. -/
def Dest.isX (l : Level) (r : BitVec 5) : Dest → Bool
  | .x m q _ _ => m == l && q == r
  | _ => false

/-- An older result for the same register is discarded once a younger one has landed (R118). -/
def Dest.same : Dest → Dest → Bool
  | .x l r _ _, .x m q _ _ => l == m && r == q
  | .cfg _ _ _ _, .cfg _ _ _ _ => true
  | .c r _, .c q _ => r == q
  | .tb r _, .tb q _ => r == q
  | .k r _, .k q _ => r == q
  | _, _ => false

/-- Puts a result in place. -/
def Hart.land (h : Hart) (d : Dest) : Hart :=
  match d with
  | .x l r v p => h.modBank l fun b => b.writeX r v p
  | .flags f => { h with csr := { h.csr with fcsr := h.csr.fcsr ||| f.setWidth 64 } }
  | .cfg vl vt vsb m => { h with csr := { h.csr with vlSeen := vl, vtypeSeen := vt, vsbSeen := vsb, vlmaxSeen := m } }
  | .c r v => { h with ct := { h.ct with c := h.ct.c.set r.toNat v r.isLt } }
  | .tb r v => { h with ct := { h.ct with tb := h.ct.tb.set r.toNat v r.isLt } }
  | .k r v => { h with ct := { h.ct with k := h.ct.k.set r.toNat v r.isLt } }
  | .none => h

/-- What becomes of the other results in flight when one lands: older ones for the same register are discarded, but for their
posts (R118). -/
def Pend.after (p q : Pend) : Option Pend :=
  if q.seq < p.seq && q.dest.same p.dest then (if q.hook = 0 || q.done then none else some { q with dest := .none }) else some q

/-- Lands one pending result: its value, its post, and the end of older results for the same register (R118, R404). One whose value
and post have landed already only leaves. -/
def Hart.landPend (h : Hart) (p : Pend) : Hart :=
  if p.done then { h with pend := h.pend.filter fun q => !(q.seq == p.seq && q.dest == p.dest) }
  else
    let h := (h.land p.dest).post p.lvl p.hook
    { h with pend := h.pend.filterMap fun q => if q.seq == p.seq && q.dest == p.dest then none else p.after q }
/-- Lands one hooked result ahead of its slot: a read before the slot stays under-waited until a `wait` has seen the post (R119,
R404). -/
def Hart.landEarly (h : Hart) (p : Pend) : Hart :=
  let h := (h.land p.dest).post p.lvl p.hook
  { h with pend := h.pend.filterMap fun q => if q.seq == p.seq && q.dest == p.dest then some { q with done := true } else p.after q }
/-- A `wait` has seen the posts of a hook: results that landed with them may be read (R404). -/
def Hart.seenPosts (h : Hart) (l : Level) (r : BitVec 4) : Hart :=
  { h with pend := h.pend.filter fun p => !(p.done && p.lvl == l && p.hook == r) }

/-- Lands every pending result (before a trap, R196). -/
def Hart.landAll (h : Hart) : Hart := h.pend.foldl Hart.landPend h
/-- Lands every pending result that posts a hook (before a context is saved or restored, R268, R404). -/
def Hart.landHooks (h : Hart) : Hart := (h.pend.filter fun p => p.hook != 0).foldl Hart.landPend h

/-- Applies a change to the issuing hart. -/
def State.modCur (s : State) (f : Hart → Hart) : State := { s with cur := f s.cur }

/-- Whether a hart is the one in a core and context. -/
def Hart.isAt (h : Hart) (core ctx : Nat) : Bool := h.core == core && h.ctx == ctx
/-- Applies a change to the hart in a core and context. -/
def State.modHart (s : State) (core ctx : Nat) (f : Hart → Hart) : State :=
  if s.cur.isAt core ctx then { s with cur := f s.cur }
  else { s with others := s.others.map fun h => if h.isAt core ctx then f h else h }
/-- The hart in a core and context. -/
def State.hartAt (s : State) (core ctx : Nat) : Option Hart :=
  if s.cur.isAt core ctx then some s.cur else s.others.find? fun h => h.isAt core ctx
/-- Every hart context in use. -/
def State.harts (s : State) : List Hart := s.cur :: s.others
/-- The harts of running tasks. -/
def State.activeHarts (s : State) : List Hart := s.harts.filter (·.active)

/-- The scalar destinations of an operation in flight. -/
def OpKind.dests : OpKind → List XDest
  | .load _ _ _ d | .atomic _ _ _ _ _ d | .divide _ _ _ _ d | .rpstat _ d | .arrived _ d => [d]
  | .sleeve (.opened d2) d => [d, d2]
  | .sleeve _ d => [d]
  | .vector _ (some (d, _, _)) _ _ _ _ _ _ => [d]
  | _ => []
def OpKind.mapDests (k : OpKind) (f : XDest → XDest) : OpKind :=
  match k with
  | .load t n g d => .load t n g (f d)
  | .atomic o t a c p d => .atomic o t a c p (f d)
  | .divide b v g p d => .divide b v g p (f d)
  | .arrived v d => .arrived v (f d)
  | .sleeve (.opened d2) d => .sleeve (.opened (f d2)) (f d)
  | .sleeve c d => .sleeve c (f d)
  | .rpstat g d => .rpstat g (f d)
  | .vector g x w ov om mt ws m => .vector g (x.map fun (d, v, p) => (f d, v, p)) w ov om mt ws m
  | other => other

/-- The operations in flight of a hart. -/
def State.opsOf (s : State) (h : Hart) : List Op := s.ops.filter fun o => o.core == h.core && o.ctx == h.ctx

/-- A younger producer has landed in an x register: results of older ones still in flight will be discarded (R118). -/
def State.supersede (s : State) (core ctx : Nat) (l : Level) (r : BitVec 5) (seq : Nat) : State :=
  { s with ops := s.ops.map fun o =>
      if o.core == core && o.ctx == ctx && o.seq < seq then
        { o with kind := o.kind.mapDests fun d => if d.lvl == l && d.r == r then { d with live := false } else d }
      else o }

/-- Lands one pending result of the issuing hart: results of older operations in flight for its register will be discarded (R118). -/
def State.landOne (s : State) (p : Pend) : State :=
  (match p.dest with
    | .x l r _ _ => if p.done then s else s.supersede s.cur.core s.cur.ctx l r p.seq
    | _ => s).modCur fun h => h.landPend p
/-- A hooked result that has just landed at its slot leaves its post on record until the next slot: an `hset` of that slot comes before
the post (R252). -/
def Hart.noteDue (h : Hart) (p : Pend) : Hart :=
  if p.hook = 0 || p.done then h else { h with pend := h.pend ++ [{ p with dest := .none, done := true }] }
/-- Lands every result of the issuing hart that is due at its slot (R118). -/
def State.landDue (s : State) : State :=
  (s.cur.pend.filter fun p => p.land ≤ s.cur.slots).foldl (fun s p => (s.landOne p).modCur fun h => h.noteDue p) s
/-- How many posts of a hook have come about in the hart's present slot with results that landed there (R252, R404). -/
def Hart.duePosts (h : Hart) (r : BitVec 4) : Nat :=
  (h.pend.filter fun p => p.done && p.land ≤ h.slots && p.lvl == h.level && p.hook == r).length

/-- Writes an x register of the issuing hart at latency 1 (R118, R243). -/
def State.writeX (s : State) (r : BitVec 5) (v : Word) (p : Bool) : State :=
  let l := s.cur.level
  let s := s.supersede s.cur.core s.cur.ctx l r s.issues
  s.modCur fun h => (h.modBank l fun b => b.writeX r v p).landPend { seq := s.issues, land := 0, dest := .x l r (if p then 0 else v) p, lvl := l, hook := 0 }

/-- Adds a fixed-latency result of the issuing hart, landing `lat` slots from its issue (R9, R118). -/
def State.later (s : State) (lat : Nat) (d : Dest) (hook : BitVec 4) : State :=
  s.modCur fun h => { h with pend := h.pend ++ [{ seq := s.issues, land := h.slots + lat, dest := d, lvl := h.level, hook }] }
/-- A scalar result at latency 2 or more. -/
def State.laterX (s : State) (lat : Nat) (r : BitVec 5) (v : Word) (p : Bool) : State :=
  if r = 0 then s else s.later lat (.x s.cur.level r (if p then 0 else v) p) 0

/-- The scalar destination that an instruction has sets ldest, unless it is x0 (R235). -/
def State.setLdest (s : State) (r : BitVec 5) : State :=
  if r = 0 then s else s.modCur fun h => h.modBank h.level fun b => { b with ldest := r }

/-! Hardware loops (R254 to R256). -/

/-- The wrap at the end of a body: the next pc and the nest after it (R255), for at most as many pops as there are entries. -/
def wrapNest : List LoopEntry → Vector Word 6 → Word → List LoopEntry × Vector Word 6 × Word
  | [], lidx, npc => ([], lidx, npc)
  | e :: r, lidx, npc =>
    if npc = e.stop then
      if 1 < e.count.toNat then
        ({ e with count := e.count - 1 } :: r,
         if e.fixed then lidx else lidx.setIfInBounds e.lvl.toNat (lidx.getD e.lvl.toNat 0 + 1), e.start)
      else wrapNest r lidx npc
    else (e :: r, lidx, npc)

/-- The next pc in sequence (R215): after a first half of a pair word the same word with bit 1 set. -/
def Hart.seqPc (h : Hart) : Word :=
  if h.ir.extractLsb' 30 2 = 3#2 && !h.pc.getLsbD 1 then h.pc ||| 2 else (h.pc &&& ~~~3#64) + 4

/-- Moves past the instruction, with the wrap of the innermost loop where its body ends there (R255). The nest is kept with
its innermost entry first. -/
def Hart.advance (h : Hart) : Hart :=
  let b := h.bank
  let (nest, lidx, pc) := wrapNest b.nest b.lidx h.seqPc
  { h.setBank h.level { b with nest, lidx } with pc }

/-- Entries that a taken branch from inside the body to outside it leaves (R256). -/
def leaveNest (from' target : Word) : List LoopEntry → List LoopEntry
  | [] => []
  | e :: r =>
    let inside (a : Word) : Bool := e.start ≤ a && a < e.stop
    if inside (from' &&& ~~~3#64) && !inside target then leaveNest from' target r else e :: r

/-- A taken branch or jump; a call (`link`) pops nothing (R256). -/
def Hart.jump (h : Hart) (target : Word) (link : Bool) : Hart :=
  let b := h.bank
  { h.setBank h.level { b with nest := if link then b.nest else leaveNest h.pc target b.nest } with pc := target }

/-- Counts a retired instruction and its issue slots (R9, R117, R269). -/
def Hart.count (h : Hart) (slots : Nat) : Hart :=
  { h with csr := { h.csr with instret := h.csr.instret + 1 }, slots := h.slots + slots }

/-- The instruction is done: the pc moves on, one slot and one retired instruction are counted. -/
def State.retire (s : State) : State := s.modCur fun h => (h.count 1).advance
/-- The instruction is done and the pc goes to a target. -/
def State.retireJump (s : State) (target : Word) (link : Bool) : State := s.modCur fun h => (h.count 1).jump target link

/-- Puts an operation of the issuing hart in flight. -/
def State.start (s : State) (hook : BitVec 4) (kind : OpKind) (acq : Bool) (va : Word) (sys : Bool := false) : State :=
  let o : Op := { id := s.nextOp, core := s.cur.core, ctx := s.cur.ctx, seq := s.issues, lvl := s.cur.level, hook, kind, acq, va,
                  pc := s.cur.pc, ret := s.cur.csr.instret, sys }
  { s with ops := s.ops ++ [o], nextOp := s.nextOp + 1 }
/-- A scalar destination for an operation of the issuing hart. -/
def State.xdest (s : State) (r : BitVec 5) : XDest := { lvl := s.cur.level, r, live := r != 0 }

def State.dropOp (s : State) (id : Nat) : State := { s with ops := s.ops.filter fun o => o.id != id }

/-- Writes the scalar destination of a completed operation, unless a younger result stands there (R118). -/
def State.deliver (s : State) (o : Op) (d : XDest) (v : Word) (p : Bool) : State :=
  if d.live then
    let s := s.supersede o.core o.ctx d.lvl d.r o.seq
    s.modHart o.core o.ctx fun h =>
      h.landPend { seq := o.seq, land := 0, dest := .x d.lvl d.r (if p then 0 else v) p, lvl := d.lvl, hook := 0 }
  else s

/-- Posts the hook of an operation and takes it out of flight. -/
def State.finish (s : State) (o : Op) : State := (s.modHart o.core o.ctx fun h => h.post o.lvl o.hook).dropOp o.id

/-- Counts n poison uses against a hart's world and task (R212). -/
def State.countPoison (s : State) (h : Hart) (n : Nat) : State :=
  if n = 0 then s else
  let s := s.modWorld h.world.toNat fun w => { w with epois := w.epois + BitVec.ofNat 64 n }
  { s with sched := { s.sched with tasks := s.sched.tasks.map fun t =>
      if t.queue == h.queue && t.num == h.num then { t with poisoned := true, npois := t.npois + BitVec.ofNat 64 n } else t } }

/-- A refused or dropped access counts one violation against a world (R213). -/
def State.violation (s : State) (w : Nat) : State := s.modWorld w fun x => { x with eviol := x.eviol + 1 }
/-- Counts the violation of an access that the granule table of this device refused (R170, R213). -/
def State.countDenied (s : State) (w : BitVec 6) (t : Trap) : State := if t.viol then s.violation w.toNat else s

/-- The hart's task. -/
def State.taskOf (s : State) (h : Hart) : Option Task := s.sched.tasks.find? fun t => t.queue == h.queue && t.num == h.num
/-- The sleeve identity of a hart (R153). -/
def Hart.identity (h : Hart) : Identity := { world := h.world, queue := h.queue, num := h.num, ord := h.ord }
/-- The job number of the records (R186). -/
def jobWord (queue num : Nat) : Nat := queue * 2 ^ 56 + num % 2 ^ 56

end Sys2Proof.Machine
end

