-- ==== Sys2Proof/Machine/Vec.lean ====
section
/-! DEFINITION. Vector and mask registers by element (R272 to R279), vtype (R275, R276), read-ahead sources (R279). -/
namespace Sys2Proof.Machine

/-- Where element i of a group at width w lies on a panel of p lanes: register offset and bit in the register (R272, R273). -/
def elemPlace (p w i : Nat) : Nat × Nat :=
  let off := i / p * (w / 8)
  (off / 256, 8 * (256 * (i % p) + off % 256))

/-- Replaces w bits at a position. -/
def setBits (r : BitVec n) (pos w v : Nat) : BitVec n :=
  (r &&& ~~~(BitVec.ofNat n (2 ^ w - 1) <<< pos)) ||| (BitVec.ofNat n (v % 2 ^ w) <<< pos)

/-- Element i of the group at register v. -/
def VecRegs.elem (r : VecRegs) (p v w i : Nat) : Nat :=
  let (k, b) := elemPlace p w i
  ((r.v.getD ((v + k) % 32) 0).extractLsb' b w).toNat
def VecRegs.setElem (r : VecRegs) (p v w i x : Nat) : VecRegs :=
  let (k, b) := elemPlace p w i
  let n := (v + k) % 32
  { r with v := r.v.setIfInBounds n (setBits (r.v.getD n 0) b w x) }

/-- m0 reads ones (R25). -/
def VecRegs.mask (r : VecRegs) (m i : Nat) : Bool := m == 0 || (r.m.getD m 0).getLsbD i
/-- A write of m0 is discarded. -/
def VecRegs.setMask (r : VecRegs) (m : Nat) (v : BitVec 65536) : VecRegs := if m = 0 then r else { r with m := r.m.setIfInBounds m v }

/-- The registers of a group. -/
def groupRegs (v n : Nat) : List Nat := (List.range n).map fun i => (v + i) % 32
/-- Whether any register of a group is poisoned (R212). -/
def VecRegs.poisonV (r : VecRegs) (v n : Nat) : Bool := (groupRegs v n).any fun i => r.pv.getLsbD i
def VecRegs.poisonM (r : VecRegs) (m : Nat) : Bool := m != 0 && r.pm.getLsbD m
/-- Marks a destination group poisoned, its data reading 0, or clean (R211, R212). -/
def VecRegs.markV (r : VecRegs) (v n : Nat) (p : Bool) : VecRegs :=
  (groupRegs v n).foldl (fun r i =>
    if p then { r with pv := r.pv ||| 1#32 <<< i, v := r.v.setIfInBounds i 0 } else { r with pv := r.pv &&& ~~~(1#32 <<< i) }) r
def VecRegs.markM (r : VecRegs) (m : Nat) (p : Bool) : VecRegs :=
  if m = 0 then r
  else if p then { r with pm := r.pm ||| 1#8 <<< m, m := r.m.setIfInBounds m 0 } else { r with pm := r.pm &&& ~~~(1#8 <<< m) }

/-- The configuration that a vector instruction captures at issue (R120, R275). -/
structure VCfg where
  p : Nat
  sew : Nat
  g : Nat
  vl : Nat
  vstart : Nat
  vlmax : Nat
  tz : Bool
  mz : Bool
  flushIn : Bool
  flushOut : Bool
  rnd : Nat
  slices : Nat
  q : Nat
  tmode : Nat
  vsb : Word
  seed : Word
  draw : Word
deriving DecidableEq, Repr

def vtVill (t : Half) : Bool := t.getLsbD 31
def vtSew (t : Half) : Nat := 8 * 2 ^ (t.extractLsb' 0 2).toNat
def vtGroup (t : Half) : Nat := 2 ^ (t.extractLsb' 3 2).toNat

/-- vlmax (R17) for a panel and a vtype. -/
def vlmaxOf (p : Nat) (t : Half) : Nat := 2048 * p * vtGroup t / vtSew t

/-- Why a requested vtype value is illegal (R275, R276); 0 for a legal one. -/
def vtypeCause (v : Word) : Nat :=
  if v.getLsbD 31 || v.extractLsb' 32 32 != 0 || v.extractLsb' 25 6 != 0 then 1
  else if 4 ≤ (v.extractLsb' 0 3).toNat then 2
  else if 6 ≤ (v.extractLsb' 9 3).toNat then 3
  else if (v.extractLsb' 12 3).toNat = 1 ∨ (v.extractLsb' 12 3).toNat = 2 then 4
  else if 10 ≤ (v.extractLsb' 21 4).toNat then 5
  else 0

def Hart.vcfg (h : Hart) : VCfg :=
  let t := h.csr.vtype
  let fl := (t.extractLsb' 7 2).toNat
  { p := h.lanes, sew := vtSew t, g := vtGroup t, vl := h.csr.vl.toNat, vstart := h.csr.vstart.toNat,
    vlmax := vlmaxOf h.lanes t, tz := t.getLsbD 5, mz := t.getLsbD 6, flushIn := fl == 2 || fl == 3, flushOut := fl == 1 || fl == 3,
    rnd := (t.extractLsb' 9 3).toNat, slices := (t.extractLsb' 12 3).toNat, q := (t.extractLsb' 15 6).toNat,
    tmode := (t.extractLsb' 21 4).toNat, vsb := h.csr.vsb, seed := h.csr.srseed, draw := h.csr.srdraw }

/-- Writes a destination group by R278: below vstart and in an undisturbed tail nothing, zeros where vtype asks, results for
active elements. `upto` is one past the last element of the destination group. -/
def VecRegs.writeGroup (r : VecRegs) (c : VCfg) (vd w upto : Nat) (active : Nat → Bool) (res : Nat → Nat) : VecRegs :=
  let body := (List.range (min c.vl upto - c.vstart)).foldl (fun acc k =>
    let i := c.vstart + k
    if active i then acc.setElem c.p vd w i (res i)
    else if c.mz then acc.setElem c.p vd w i 0 else acc) r
  if c.tz then
    let from' := max c.vl c.vstart
    (List.range (upto - from')).foldl (fun acc k => acc.setElem c.p vd w (from' + k) 0) body
  else body

/-- The bits of a mask register below n by a function. -/
def maskOf (n : Nat) (f : Nat → Bool) : BitVec 65536 :=
  BitVec.ofNat 65536 ((List.range n).foldl (fun acc i => if f i then acc + 2 ^ i else acc) 0)

/-- The new value of a mask destination by R278, VLEN in place of vlmax. -/
def maskResult (c : VCfg) (old : BitVec 65536) (active : Nat → Bool) (res : Nat → Bool) : BitVec 65536 :=
  let lo : BitVec 65536 := BitVec.ofNat 65536 (2 ^ c.vl - 1)
  let body := maskOf c.vl fun i =>
    if i < c.vstart then old.getLsbD i else if active i then res i else if c.mz then false else old.getLsbD i
  if c.tz then body ||| (old &&& BitVec.ofNat 65536 (2 ^ c.vstart - 1) &&& ~~~lo) else body ||| (old &&& ~~~lo)

/-- Active elements (R278): not below vstart, below vl, and unmasked or with the mask bit set. -/
def VecRegs.active (r : VecRegs) (c : VCfg) (mk : Nat) (i : Nat) : Bool := c.vstart ≤ i && i < c.vl && r.mask mk i

/-- What the registers hold for a reader that does not wait for the producers still in the VIQ: the value before the youngest
of them, and its own value for one whose destination counts as written at its end (R279). -/
def State.stale (s : State) : VecRegs :=
  (s.opsOf s.cur).foldl (fun r o => match o.kind with
    | .vector _ _ _ ov om _ _ _ =>
      let r := ov.foldl (fun r (n, x) => { r with v := r.v.set n.toNat x n.isLt }) r
      om.foldl (fun r (n, x) => { r with m := r.m.setIfInBounds n.toNat x }) r
    | _ => r) s.cur.vec

/-- A source element i; from element `lim` on it is read ahead: with the chain bit clear it then holds the producer's value or
the earlier one (R279). -/
def State.aheadElem (s : State) (stale : VecRegs) (chain : BitVec 1) (p v w i lim : Nat) : Nat :=
  let new := s.cur.vec.elem p v w i
  if chain = 1 ∨ i < lim then new
  else let old := stale.elem p v w i
    if old = new then new else if Config.pick s.free (2 ^ 20 * (lim + 1) + i) % 2 = 0 then new else old

/-- The registers that hooked vector operations in flight of the issuing hart write (R119). -/
def State.awaitedV (s : State) : List Nat :=
  (s.opsOf s.cur).flatMap fun o => match o.kind with
    | .vector _ _ _ ov _ _ _ _ => if o.hook = 0 then [] else ov.map (·.1.toNat)
    | _ => []
/-- STRICT at the first register that a source with its chain bit clear reads ahead of its hooked producer (R119, R193, R279): `els` are
the elements of width w read ahead. -/
def State.strictV (s : State) (a : BitVec 5) (chain : BitVec 1) (w : Nat) (els : List Nat) : Option Nat :=
  if s.cur.strap.strict && chain == 0 then
    (els.map fun i => (a.toNat + (elemPlace s.cur.vcfg.p w i).1) % 32).find? s.awaitedV.contains
  else none

/-- Aligned group registers (R277). -/
def aligned (v n : Nat) : Bool := v % n == 0
/-- Whether two register groups overlap (R202). -/
def overlap (a n b m : Nat) : Bool := 0 < n && 0 < m && a < b + m && b < a + n

/-- The VIQ entries of the issuing hart (R120). -/
def State.viqLength (s : State) : Nat := ((s.opsOf s.cur).filter fun o => match o.kind with | .vector .. => true | _ => false).length

/-- The values of registers, for readers that do not wait. -/
def VecRegs.oldV (r : VecRegs) (regs : List Nat) : List (BitVec 5 × BitVec 65536) :=
  regs.map fun n => (BitVec.ofNat 5 n, r.v.getD n 0)
def VecRegs.oldM (r : VecRegs) (regs : List Nat) : List (BitVec 5 × BitVec 65536) :=
  regs.map fun n => (BitVec.ofNat 5 n, r.m.getD n 0)

end Sys2Proof.Machine
end

