-- ==== Sys2Proof/Machine/Wire.lean ====
section
/-! DEFINITION. What the links of Velmal carry: the check code (R130, R131), flits (R132), preambles (R133), the class of a message
(R134, R142), and the byte string of a packet (R137 to R140). -/
namespace Sys2Proof.Machine

/-! The check code (R130, R131). -/

/-- A product in GF(4), by codes: 2 is ω, 3 is ω². -/
def gfMul (a b : Nat) : Nat := if a = 0 ∨ b = 0 then 0 else (a + b - 2) % 3 + 1
/-- The four base-4 digits of a column number, h0 first. -/
def columnDigits (n : Nat) : List Nat := [n % 4, n / 4 % 4, n / 16 % 4, n / 64 % 4]
/-- Whether a vector stands in the list of R130: its highest non-zero digit is 1 and at least two digits are not zero. -/
def columnOk (n : Nat) : Bool :=
  let d := columnDigits n
  (d.reverse.find? (· != 0)) == some 1 && 2 ≤ (d.filter (· != 0)).length
/-- The columns of slices 0 to 35. -/
def checkColumns : List (List Nat) :=
  (((List.range 256).filter columnOk).take 32).map columnDigits ++ [[1, 0, 0, 0], [0, 1, 0, 0], [0, 0, 1, 0], [0, 0, 0, 1]]
/-- A column times a symbol. -/
def scaled (e : Nat) (c : List Nat) : List Nat := c.map (gfMul e)
def addCol (a b : List Nat) : List Nat := (a.zip b).map fun (x, y) => x ^^^ y
/-- The symbol of a slice and its replacement. -/
def symbolOf (w : BitVec 72) (s : Nat) : Nat := (w.extractLsb' (2 * s) 2).toNat
def addSymbol (w : BitVec 72) (s e : Nat) : BitVec 72 := w ^^^ (BitVec.ofNat 72 e <<< (2 * s))
/-- The syndrome of a link word. -/
def syndrome (w : BitVec 72) : List Nat := (checkColumns.zipIdx).foldl (fun acc (c, s) => addCol acc (scaled (symbolOf w s) c)) [0, 0, 0, 0]
/-- The one slice and symbol whose multiple of a column is a syndrome. -/
def errorAt (t : List Nat) (slices : List Nat) : Option (Nat × Nat) :=
  slices.findSome? fun s => [1, 2, 3].findSome? fun e => if scaled e (checkColumns.getD s []) == t then some (s, e) else none
/-- Decodes a link word: the word, and the slice that was corrected (R131). -/
def decodeLink (erased : Option Nat) (w : BitVec 72) : Option (BitVec 72 × Option Nat) :=
  match erased with
  | none =>
    if syndrome w = [0, 0, 0, 0] then some (w, none)
    else (errorAt (syndrome w) (List.range 36)).map fun (s, e) => (addSymbol w s e, some s)
  | some x =>
    let w0 := addSymbol w x (symbolOf w x)
    if syndrome w0 = [0, 0, 0, 0] then some (w0, none)
    else (errorAt (syndrome w0) [x]).map fun (s, e) => (addSymbol w0 s e, none)

/-- The symbol that makes a link word's checks hold (R130): slice 32 + j takes the sum of the data symbols times hj. -/
def linkWord (data : BitVec 64) : BitVec 72 :=
  let check := (List.range 32).foldl (fun acc s => addCol acc (scaled ((data.extractLsb' (2 * s) 2).toNat) (checkColumns.getD s []))) [0, 0, 0, 0]
  BitVec.ofNat 8 (check.getD 0 0 + 4 * check.getD 1 0 + 16 * check.getD 2 0 + 64 * check.getD 3 0) ++ data

/-- The 60 bytes of a flit whose CRC holds (R132). -/
def flitBytes (ws : List (BitVec 72)) : Option (List Byte) :=
  let bs := ws.flatMap fun w => toBytes 8 (w.extractLsb' 0 64).toNat
  if ofBytes (bs.drop 60) = crc32 (bs.take 60) then some (bs.take 60) else none

/-- The eight link words of a flit: 60 bytes and their CRC (R132). -/
def flitWords (bs : List Byte) : List (BitVec 72) :=
  let all := bs ++ toBytes 4 (crc32 bs)
  (List.range 8).map fun i => linkWord (BitVec.ofNat 64 (ofBytes ((all.drop (8 * i)).take 8)))

/-! Preambles (R133). -/

/-- Whether 12 bits hold an even number of ones. -/
def evenOnes (v : BitVec 12) : Bool := ((List.range 12).filter fun i => v.getLsbD i).length % 2 == 0
/-- The destination value of a packet: device, class, and the bit that makes the ones even. -/
def destValue (dst cls : Nat) : BitVec 12 :=
  let v : BitVec 12 := 0#1 ++ BitVec.ofNat 2 cls ++ BitVec.ofNat 9 dst
  if evenOnes v then v else v ||| 0x800#12
/-- A preamble: word w carries bits [2w+1:2w] of the destination value in every slice. -/
def preamble (dst cls : Nat) : List (BitVec 72) :=
  (List.range 6).map fun w => BitVec.ofNat 72 ((List.range 36).foldl (fun acc s => acc + ((destValue dst cls).extractLsb' (2 * w) 2).toNat * 4 ^ s) 0)
/-- The destination value that a slice switch reads from its own two bits of six words. -/
def sliceReads (slice : Nat) (ws : List (BitVec 72)) : BitVec 12 :=
  BitVec.ofNat 12 ((List.range 6).foldl (fun acc w => acc + ((ws.getD w 0).extractLsb' (2 * slice) 2).toNat * 4 ^ w) 0)
/-- The output that a waiting packet's preamble names. -/
def portOut (r : PortReq) : Nat := (r.dest.extractLsb' 0 9).toNat
/-- The class that it names. -/
def portCls (r : PortReq) : Nat := (r.dest.extractLsb' 9 2).toNat

/-! Messages (R134, R140, R142). -/

/-- The class of a message. -/
def Msg.cls : Msg → Nat
  | .rdr _ | .amor _ | .wack _ | .clmr _ | .ack _ | .nak _ | .nakCtx _ => 0
  | .wr _ | .rd _ | .amo _ | .clm _ => 1
  | .sli _ | .slc _ | .tlr _ | .tlc _ | .bar _ => 2
  | .plane _ => 3
/-- The operation code of a data packet. -/
def Msg.op : Msg → Nat
  | .wr _ => 0
  | .rd _ => 1
  | .rdr _ => 2
  | .amo _ => 3
  | .amor _ => 4
  | .wack _ => 5
  | .sli _ => 6
  | .slc _ => 7
  | .tlr _ => 8
  | .tlc _ => 9
  | .bar _ => 10
  | .clm _ => 11
  | .clmr _ => 12
  | _ => 15
/-- The kind of a packet (R137); plane control has a kind of its own that no data packet has (log 76). -/
def Msg.kind : Msg → Nat
  | .ack _ => 1
  | .nak _ => 2
  | .nakCtx _ => 3
  | .plane _ => 255
  | _ => 0
/-- The payload of a data packet (R142). -/
def Msg.payload : Msg → List Byte
  | .wr q => q.data
  | .rd q => toBytes 2 q.len
  | .rdr q => (match q.res with | .data bs => bs | .world _ => [])
  | .amo q => Config.amoBytes q.op q.arg q.cmp
  | .amor q => Config.amorBytes q.res
  | .wack q => toBytes 4 q.seq ++ toBytes 4 q.count
  | .sli q => Config.sliBytes q
  | .slc q => Config.slcBytes q
  | .tlr q => Config.tlrBytes q
  | .tlc q => Config.tlcBytes q
  | .bar q => Config.barBytes q
  | .clm q => Config.clmBytes q.group q.units
  | .clmr q => Config.clmrBytes q.units
  | _ => []
/-- The fields of a full header that a message fills: world, lworld, enc, rid, addr (R140). A claim and its response are matched by a read
tag, which stands in rid although R140 names only atomics and reads there (DESIGN CHOICE, log 93). -/
def Msg.fields : Msg → FarTag × Nat × Nat
  | .wr q => (q.tag, 0, q.addr)
  | .rd q => (q.tag, q.rid, q.addr)
  | .amo q => (q.tag, q.rid.toNat, q.addr)
  | .clm q => (q.tag, q.rid, ((q.units.head?).map (·.1)).getD 0)
  | .rdr q => ({ world := q.world, lworld := 0, enc := 0 }, q.rid, match q.res with | .world c => Config.refusalAddr c | .data _ => 0)
  | .amor q => ({ world := q.world, lworld := 0, enc := 0 }, q.rid.toNat, 0)
  | .clmr q => ({ world := q.world, lworld := 0, enc := 0 }, q.rid, 0)
  | .wack q => ({ world := q.world, lworld := 0, enc := 0 }, 0, if q.refused = 0 then 0 else Config.refusalAddr q.refused)
  | .sli q => ({ world := q.sl.world, lworld := 0, enc := 0 }, 0, 0)
  | .slc q => ({ world := q.sl.world, lworld := 0, enc := 0 }, 0, 0)
  | .tlr q => ({ world := q.world, lworld := 0, enc := 0 }, 0, 0)
  | .tlc q => ({ world := q.world, lworld := 0, enc := 0 }, 0, 0)
  | .bar q => ({ world := q.world, lworld := 0, enc := 0 }, 0, 0)
  | _ => ({ world := 0, lworld := 0, enc := 0 }, 0, 0)
/-- The full header of a packet that opens no context (R140). -/
def Msg.header (src : Nat) (m : Msg) : BitVec 128 :=
  let (tag, rid, addr) := m.fields
  0#8 ++ BitVec.ofNat 4 m.op ++ BitVec.ofNat 9 m.payload.length ++ BitVec.ofNat 9 src ++ BitVec.ofNat 6 tag.world ++ BitVec.ofNat 16 rid ++
    1#1 ++ 0#20 ++ BitVec.ofNat 6 tag.lworld ++ BitVec.ofNat 2 tag.enc ++ BitVec.ofNat 47 addr
/-- The body of a packet: header and payload of a data packet, else nothing. -/
def Msg.body (src : Nat) (m : Msg) : List Byte := if m.kind = 0 then toBytes 16 (m.header src).toNat ++ m.payload else []

/-! Packets (R137, R138). -/

/-- The link key of a direction of a pair, by name (R138). -/
def linkKey (session src dst : Nat) : Nat := 2 ^ 64 + session * 2 ^ 18 + src * 512 + dst
/-- The IV of a packet (R138). -/
def linkIv (src dst : Nat) (ctr : Word) : BitVec 96 := BitVec.ofNat 9 src ++ BitVec.ofNat 9 dst ++ 0#14 ++ ctr
/-- The flits of a packet: 16 bytes of head, the body, the tag, in flits of 60 bytes (R137). -/
def Msg.flits (m : Msg) : Nat := cdiv (32 + if m.kind = 0 then 16 + m.payload.length else 0) 60
/-- The byte string of a packet under its session's key, filled with zeros to whole flits (R137). -/
def Packet.bytes (src : Nat) (p : Packet) : List Byte :=
  let aad := toBytes 4 p.seq ++ toBytes 1 p.msg.kind ++ [0, 0, 0] ++ toBytes 8 p.ctr
  let bs := aad ++ sealText (linkKey p.session src p.dst) (linkIv src p.dst (BitVec.ofNat 64 p.ctr)) aad (p.msg.body src)
  bs ++ List.replicate (60 * p.msg.flits - bs.length) 0
/-- What a device puts on a plane for a packet: its preamble and its flits (R132, R133, R137). -/
def Packet.words (src : Nat) (p : Packet) : List (BitVec 72) :=
  preamble p.dst p.msg.cls ++ (List.range p.msg.flits).flatMap fun i => flitWords (((p.bytes src).drop (60 * i)).take 60)

end Sys2Proof.Machine
end

