-- ==== Sys2Proof/Machine/Far.lean ====
section
/-! DEFINITION. What a device sends to the others: packets and their sequence numbers (R136 to R139), far requests and the answers
an instruction or command takes up together (R143, R144, R178). -/
namespace Sys2Proof.Machine

/-- A peer with which nothing has been exchanged yet: no session is in force before SESSION_REESTABLISH has accepted its measurements (R179,
log 77). -/
def Peer.fresh (dev : Nat) : Peer :=
  { dev, session := 0, ctr := 0, sendSeq := 0, unacked := [], via := [], told := 0, next := 0, waiting := [], unsent := 0, streams := [], skip := false,
    rid := 0, base := 0, cache := [], readTag := 1, writes := [], tagFails := 0, refusals := 0, parts := [], broken := [], lost := false, keyed := false, moving := [],
    ack := none, bars := [] }

def State.peer (s : State) (dev : Nat) : Peer := (s.fabric.peers.find? fun p => p.dev == dev).getD (.fresh dev)
def State.modPeer (s : State) (dev : Nat) (f : Peer → Peer) : State :=
  { s with fabric := { s.fabric with peers := upsert (fun p => p.dev == dev) f (.fresh dev) s.fabric.peers } }

/-- In recovery mode only the management sideband and DOE answer (R183). -/
def State.recovering (s : State) : Bool := s.board.bootst == 1
/-- Whether a plane carries traffic (R131, R135): none of a device in recovery mode does (R183). -/
def State.usable (s : State) (i : Nat) : Bool :=
  match s.fabric.planes[i]? with | some x => x.up && !x.quiesced && !s.recovering | none => false
/-- The flits queued on a plane toward a destination: those that have not passed (R136). -/
def State.queuedFlits (s : State) (dst i : Nat) : Nat :=
  ((s.fabric.outbox.filter fun p => p.dst == dst && p.plane == i).map fun p => p.msg.flits - p.passed).foldl (· + ·) 0
/-- The plane with fewer flits queued toward a packet's destination, plane A when equal; none where neither carries traffic (R131,
R135, R136). -/
def State.planeFor (s : State) (dst : Nat) : Option Nat :=
  if s.usable 0 then (if s.usable 1 && s.queuedFlits dst 1 < s.queuedFlits dst 0 then some 1 else some 0)
  else if s.usable 1 then some 1 else none

/-- The counter of a direction takes its next value, under new keys where it would reach 2^48 (R138). -/
def Peer.nextCtr (p : Peer) : Peer := if p.ctr + 1 < 2 ^ 48 then { p with ctr := p.ctr + 1 } else { p with session := p.session + 1, ctr := 1 }
/-- Transmits a packet with the next ctr of its direction (R138): it is queued on its plane, in the buffer of its class. Nothing leaves
while no session is in force or no plane carries traffic; what a sender keeps is resent later (R139). -/
def State.transmit (s : State) (dst seq : Nat) (full : Bool) (m : Msg) : State :=
  if !(s.peer dst).keyed then s else
  match s.planeFor dst with
  | none => s
  | some plane =>
    let u := s.modPeer dst fun q => { q.nextCtr with via := if m.kind = 0 then (seq, plane) :: q.via.filter (·.1 != seq) else q.via }
    let p : Packet := { dst, plane, began := none, session := (u.peer dst).session, ctr := (u.peer dst).ctr - 1, seq, full, msg := m }
    { u with fabric := { u.fabric with outbox := u.fabric.outbox ++ [p] } }
/-- The buffer of a class on a plane (R134). -/
def State.buffer (s : State) (plane cls : Nat) : List Packet := s.fabric.outbox.filter fun p => p.plane == plane && p.msg.cls == cls

/-- Sends a data packet: the pair's next seq, kept until acknowledged (R139). A message to the device itself needs no fabric. -/
def State.send (s : State) (dst : Nat) (m : Msg) : State :=
  if dst = s.device then { s with inbox := s.inbox ++ [(dst, m)] }
  else
    let seq := (s.peer dst).sendSeq
    let m := match m with | .wr q => .wr { q with seq } | other => other
    let s := s.modPeer dst fun p => { p with
      sendSeq := (seq + 1) % 2 ^ 32, unacked := p.unacked ++ [(seq, m)],
      writes := (match m with | .wr _ => p.writes ++ [(seq, m)] | _ => p.writes) }
    s.transmit dst seq true m

/-- The seq that the next data packet to a device will carry. -/
def State.nextSeq (s : State) (dst : Nat) : Nat := (s.peer dst).sendSeq

/-- What a far request says of its leaf (R140). -/
def Target.tag (t : Target) (w : BitVec 6) : FarTag := { world := w.toNat, lworld := t.lworld, enc := t.enc }
/-- The device of a far target; 512 for a place of this device. -/
def Target.dev (t : Target) : Nat :=
  match t.home with
  | .far d => d
  | _ => 512
def Target.isFar (t : Target) : Bool :=
  match t.home with
  | .far _ => true
  | _ => false

/-- The parts of a span of addresses in each 256-byte block, none of which crosses a page (R143, R206). -/
def blockPieces (va len : Nat) : List (Nat × Nat) :=
  (List.range (cdiv (va + len) 256 - va / 256)).map fun i =>
    let a := max va (256 * (va / 256 + i))
    (a, min (va + len) (256 * (va / 256 + i + 1)) - a)
/-- The widest aligned access within n bytes from an address. -/
def chunkSize (va n : Nat) : Nat :=
  if va % 8 = 0 ∧ 8 ≤ n then 8 else if va % 4 = 0 ∧ 4 ≤ n then 4 else if va % 2 = 0 ∧ 2 ≤ n then 2 else 1

/-- A read tag for a device (R143). -/
def State.newTag (s : State) (dev : Nat) : Nat × State :=
  ((s.peer dev).readTag, s.modPeer dev fun p => { p with readTag := p.readTag % 65535 + 1 })

/-- Sends a request whose answer is taken up later. -/
def State.ask (s : State) (h : Hart) (t : Target) (a : FarAsk) (m : Nat → Msg) : State :=
  let (rid, s) := s.newTag t.dev
  let r : FarReq := { id := s.nextOp, core := h.core, ctx := h.ctx, dev := t.dev, rid, ask := a, msg := m rid, answer := none }
  ({ s with farReqs := s.farReqs ++ [r], nextOp := s.nextOp + 1 }).send t.dev (m rid)

/-- The answer to a request of a hart, if it was sent and has come. -/
def State.answer (s : State) (h : Hart) (dev : Nat) (a : FarAsk) : Option (Option FarAnswer) :=
  (s.farReqs.find? fun r => r.core == h.core && r.ctx == h.ctx && r.dev == dev && r.ask == a).map (·.answer)

/-- Drops the requests of a hart whose instruction has taken up the answers. -/
def State.dropAsks (s : State) (h : Hart) : State :=
  { s with farReqs := s.farReqs.filter fun r => !(r.core == h.core && r.ctx == h.ctx) }
/-- Whether an instruction of a hart has requests. -/
def State.asked (s : State) (h : Hart) : Bool := s.farReqs.any fun r => r.core == h.core && r.ctx == h.ctx
/-- Whether a hart waits for an answer. -/
def State.asking (s : State) (h : Hart) : Bool :=
  s.farReqs.any fun r => r.core == h.core && r.ctx == h.ctx && r.answer.isNone

/-- The units of an element access of n bytes. -/
def unitsOf (key n : Nat) (wr : Bool) : List (Nat × Bool) := (List.range (cdiv n 4)).map fun i => (key + 4 * i, wr)

/-- The claims or lookups that an element-mode access of elements of n bytes must still ask for (R178). -/
def State.needClaims (s : State) (h : Hart) (t : Target) (units : List (Nat × Bool)) (n : Nat) : Option (FarAsk × (Nat → Msg)) :=
  if t.enc = 2 && (s.answer h t.dev (.claim units)).isNone then
    some (.claim units, fun rid => .clm { rid, tag := t.tag h.world, group := cdiv n 4, units })
  else none
/-- What the device must still ask before a far access of n bytes can move: claims or lookups in element mode (R178), then
the data of a read. -/
def State.farNeed (s : State) (h : Hart) (t : Target) (n : Nat) (rd wr : Bool) : Option (FarAsk × (Nat → Msg)) :=
  match s.needClaims h t (unitsOf t.key n wr) n with
  | some a => some a
  | none =>
    if rd && (s.answer h t.dev (.read t.key n)).isNone then
      some (.read t.key n, fun rid => .rd { rid, tag := t.tag h.world, addr := t.key, len := n })
    else none

/-- The trap of a refused or timed-out far access at a virtual address (R147, R170, R403). -/
def failTrap (code cause : Byte) (acc : Acc) (va : Word) : Trap := memTrap code cause 3 true acc va

/-- The results of claims: the trap at the lowest failing unit, whose address `at_` gives, or each unit's state with its region's nonce
and gen (R170, R176, R178). -/
def State.claimResults (s : State) (h : Hart) (t : Target) (units : List (Nat × Bool)) (wr : Bool) (acc : Acc) (at_ : Nat → Word) :
    Except Trap (List (UnitResult × Word × Half)) :=
  if t.enc != 2 then .ok []
  else match s.answer h t.dev (.claim units) with
  | some (some (.claims us)) =>
    match us.zipIdx.findSome? fun u => match u.1.1 with
      | .refused c => some (failTrap cWORLD (BitVec.ofNat 8 c) acc (at_ u.2))
      | .set => if wr then some { code := cKEYSTREAM, store := true, detail := at_ u.2 } else none
      | _ => none with
    | some t => .error t
    | none => .ok us
  | some (some (.fail c k)) => .error (failTrap k c acc (at_ 0))
  | _ => .ok []
/-- The results of the claims or lookups of a far access of n bytes. -/
def State.farClaims (s : State) (h : Hart) (t : Target) (n : Nat) (wr : Bool) (acc : Acc) (va : Word) :
    Except Trap (List (UnitResult × Word × Half)) :=
  s.claimResults h t (unitsOf t.key n wr) wr acc fun i => va + BitVec.ofNat 64 (4 * i)

/-- The keystream of one byte of a far element-mode place at its home device. -/
def farStream (w : BitVec 6) (t : Target) (u : List (UnitResult × Word × Half)) (i : Nat) : Byte :=
  match u[i / 4]? with
  | some (_, nonce, gen) => elemStream w.toNat nonce gen (t.dev * 2 ^ 47 + t.key + i)
  | none => 0

/-- The data of a far read whose answers have come (R143, R178); `raw` leaves element-mode data as ciphertext (R172). -/
def State.farRead (s : State) (h : Hart) (t : Target) (n : Nat) (acc : Acc) (va : Word) (raw : Bool := false) : Except Trap (List Byte) :=
  match s.farClaims h t n false acc va with
  | .error e => .error e
  | .ok us =>
    match s.answer h t.dev (.read t.key n) with
    | some (some (.data bs)) =>
      if t.enc != 2 then .ok bs
      else .ok (bs.zipIdx.map fun (b, i) =>
        match us[i / 4]? with
        | some (.set, _, _) => if raw then b else b ^^^ farStream h.world t us i
        | _ => 0)
    | some (some (.fail c k)) => .error (failTrap k c acc va)
    | _ => .ok (List.replicate n 0)

/-- Sends a far write (R143); a poisoned word is dropped and counted (R212). Answers the acknowledgement to wait for. -/
def State.farWrite (s : State) (h : Hart) (t : Target) (bs : List Byte) (poison : Bool) (us : List (UnitResult × Word × Half)) :
    State × List (Nat × Nat) :=
  if poison then
    (s.modWorld h.world.toNat fun w => { w with elink := w.elink + 1, eunc := w.eunc + 1 }, [])
  else
    let data := if t.enc = 2 then bs.zipIdx.map fun (b, i) => b ^^^ farStream h.world t us i else bs
    (s.send t.dev (.wr { seq := 0, tag := t.tag h.world, addr := t.key, data }), [(t.dev, s.nextSeq t.dev)])

end Sys2Proof.Machine
end

