-- ==== Sys2Proof/Machine/Observe.lean ====
section
/-! DEFINITION. Time, and the observation unit: records of convoys, memory samples and stops (R368 to R375). -/
namespace Sys2Proof.Machine

/-- `cycle` as a hart reads it (R269): the model's steps and a free number of further cycles (log 5). -/
def State.cycle (s : State) : Word := BitVec.ofNat 64 s.clock + Config.cycleAt s.free
/-- `time` in nanoseconds (R269). -/
def State.time (s : State) : Word := Config.timeAt s.free

/-- A world's descriptor bits (R162). -/
def World.live (w : World) : Bool := w.attr.getLsbD 0
def World.ct (w : World) : Bool := w.attr.getLsbD 1
def World.xc (w : World) : Bool := w.attr.getLsbD 2
def World.prot (w : World) : Bool := w.attr.getLsbD 3
def World.dbg (w : World) : Bool := w.attr.getLsbD 4

/-- The fields of obbuf (R371). -/
def obHost (v : Word) : Bool := v.getLsbD 63
def obSize (v : Word) : Nat := (v.extractLsb' 47 16).toNat
def obBase (v : Word) : Nat := (v.extractLsb' 16 31).toNat * 65536

/-- Appends a record of 64 bytes to a world's buffer, or drops it when the buffer has no room for it beside the records not yet consumed
(R371, R372). A granule of the buffer that is no longer the world's in plain mode, and a buffer in host memory of a world that may no
longer be observed from outside it, refuse the write: the record is lost and one violation counted (R170, R372, log 79). -/
def State.record (s : State) (w : BitVec 6) (bytes : List Byte) : State :=
  let o := (s.worlds[w.toNat]).obs
  let cap := 1024 * obSize o.buf
  if obSize o.buf = 0 then s
  else if cap ≤ (o.head - o.tail).toNat then s.modWorld w.toNat fun x => { x with obs := { x.obs with drop := x.obs.drop + 1 } }
  else
    let key := (if obHost o.buf then 0x400000000000 else 0) + obBase o.buf + 64 * (o.head.toNat % cap)
    let g := s.mem.granule key
    if (if obHost o.buf then !(s.worlds[w.toNat]).dbg else !(isLocalRam key && gOwner g == w && gMode g == 0)) then s.violation w.toNat else
    let m := (s.mem.writeClean key bytes)
    let m := if obHost o.buf then m else m.setMeas key false
    (s.keepPlain { s with mem := m } w key 64).modWorld w.toNat fun x => { x with obs := { x.obs with head := x.obs.head + 1 } }

/-- Bytes 0 to 23 of a record (R373). -/
def recordHead (h : Hart) (kind members flags : Nat) (head : Word) : List Byte :=
  toBytes 1 kind ++ toBytes 1 members ++ toBytes 1 flags ++ [0] ++ toBytes 2 (h.core * 8 + h.ctx) ++ toBytes 2 h.ord ++
  toBytes 8 (jobWord h.queue h.num) ++ toBytes 8 head.toNat

/-- Writes the record of a convoy where obctl asks for it (R369, R370, R374). The times of a convoy are not architected: free values. -/
def State.convoyRecord (s : State) (h : Hart) (c : Convoy) : State :=
  let w := s.worlds[h.world.toNat]
  if w.obs.ctl.getLsbD 0 then
    s.record h.world (recordHead h 1 c.count (if c.cut then 1 else 0) c.head ++ toBytes 8 s.cycle.toNat ++
      toBytes 4 c.groups ++ toBytes 4 (if w.ct then 0 else c.skipped) ++
      toBytes 4 (Config.pick s.free (2 ^ 33) % 2 ^ 32) ++ List.replicate 20 0)
  else s
/-- Whether a member of a convoy is in flight. -/
def State.convoyLive (s : State) (c : Convoy) : Bool := c.ops.any fun i => s.ops.any fun o => o.id == i
/-- Records the closed convoys of a hart whose last member has completed, in their order (R374). -/
def State.settleConvoys (s : State) (core ctx : Nat) : State :=
  match s.hartAt core ctx with
  | none => s
  | some h =>
    ((h.closed.takeWhile fun c => !s.convoyLive c).foldl (fun s c => s.convoyRecord h c) s).modHart core ctx fun g =>
      { g with closed := h.closed.dropWhile fun c => !s.convoyLive c }
/-- Closes the open convoy of the issuing hart (R122, R369): its record follows once its last member has completed. -/
def State.closeConvoy (s : State) (cut : Bool) : State :=
  match s.cur.convoy with
  | none => s
  | some c =>
    (s.modCur fun h => { h with convoy := none, closed := h.closed ++ [{ c with cut }] }).settleConvoys s.cur.core s.cur.ctx

/-- Closes the open convoy of the issuing hart where it can take no further member: one of a tile instruction, one of eight members (R122,
R314). -/
def State.closeFull (s : State) : State :=
  match s.cur.convoy with
  | some c => if c.whole || 8 ≤ c.count then s.closeConvoy false else s
  | none => s
/-- A vector instruction, whose operation takes the next number, joins the open convoy or opens one (R122): `joins` says whether a
source with its chain bit clear was written by an earlier member, `alone` that no other may join it, `wv` and `wm` the registers it
writes, `run` and `skip` its groups. -/
def State.convoyJoin (s : State) (joins alone : Bool) (wv : BitVec 32) (wm : BitVec 8) (run skip : Nat) : State :=
  let fresh : Convoy := { head := s.cur.pc, count := 1, v := wv, m := wm, groups := run, skipped := skip, whole := alone, ops := [s.nextOp] }
  match s.cur.convoy with
  | some c =>
    if joins && c.count < 8 then
      s.modCur fun h => { h with convoy := some { c with count := c.count + 1, v := c.v ||| wv, m := c.m ||| wm,
                                                         groups := c.groups + run, skipped := c.skipped + skip, ops := c.ops ++ [s.nextOp] } }
    else (s.closeConvoy false).modCur fun h => { h with convoy := some fresh }
  | none => s.modCur fun h => { h with convoy := some fresh }

/-- A vector memory instruction that stops at an element, whose operation takes the next number, is the last of the open convoy or opens
one, which its trap cuts short; it counts as a member only where the convoy has no other (R369, log 98). -/
def State.convoyStop (s : State) (joins alone : Bool) (run skip : Nat) : State :=
  match s.cur.convoy with
  | some c =>
    if joins && c.count < 8 then
      s.modCur fun h => { h with convoy := some { c with groups := c.groups + run, skipped := c.skipped + skip, ops := c.ops ++ [s.nextOp] } }
    else s.convoyJoin false alone 0 0 run skip
  | none => s.convoyJoin false alone 0 0 run skip
/-- Writes a stop record for a trap that a hart takes (R370, R374). -/
def State.stopRecord (s : State) (h : Hart) (epc cause detail : Word) (head : Word) (members : Nat) : State :=
  if (s.worlds[h.world.toNat]).obs.ctl.getLsbD 2 then
    s.record h.world (recordHead h 3 members 0 head ++ toBytes 8 epc.toNat ++ toBytes 4 cause.toNat ++ [0, 0, 0, 0] ++
      toBytes 4 h.csr.vstart.toNat ++ [0, 0, 0, 0] ++ toBytes 4 detail.toNat ++ List.replicate 12 0)
  else s

end Sys2Proof.Machine
end

