-- ==== Sys2Proof/Machine/Ops.lean ====
section
/-! DEFINITION. Taking a trap and returning from one (R194 to R197), the outcome of an instruction's checks, holding a hart, and
the use of poisoned values in control decisions (R212). -/
namespace Sys2Proof.Machine

/-- ILLEGAL of a rule that names no number: the detail is the instruction word (R193). -/
def Hart.illegal (h : Hart) : Trap := { code := cILLEGAL, detail := h.ir.setWidth 64 }
/-- ILLEGAL whose rule names a number. -/
def illegalN (n : Nat) : Trap := { code := cILLEGAL, detail := BitVec.ofNat 64 n }
/-- STRICT (R119): the register file in bits [7:0], the register in [15:8]. -/
def strictTrap (file reg : Nat) : Trap := { code := cSTRICT, detail := BitVec.ofNat 64 (file + 256 * reg) }
/-- ALIGN at an address (R403). -/
def alignTrap (a : Word) (store : Bool := false) : Trap := { code := cALIGN, store, detail := a }

/-- The cause register (R194). -/
def Trap.causeWord (t : Trap) : Word :=
  (t.idx ++ 0#4 ++ BitVec.ofBool t.store ++ BitVec.ofBool t.far ++ t.walk ++ t.cause ++ t.code).setWidth 64

/-- The level that takes a trap (R193): machine for ALARM, for TRAPCALL raised at supervisor level, and for every trap raised
at machine level; else supervisor. -/
def Trap.level (t : Trap) (at_ : Level) : Level :=
  match at_ with
  | .machine => .machine
  | .supervisor => if t.code = cALARM ∨ t.code = cTRAPCALL then .machine else .supervisor
  | .user => if t.code = cALARM then .machine else .supervisor

/-- The trap registers of a level and their replacement. -/
def Hart.trapCsrs (h : Hart) : Level → TrapCsrs
  | .machine => h.mtrap
  | _ => h.strap
def Hart.setTrapCsrs (h : Hart) (l : Level) (c : TrapCsrs) : Hart :=
  match l with
  | .machine => { h with mtrap := c }
  | _ => { h with strap := c }

/-- What a level's trap registers hold after entry (R196). -/
def TrapCsrs.enter (c : TrapCsrs) (from' : Level) (pc cause detail : Word) : TrapCsrs :=
  { c with nest := c.inh, inh := true, pl := from', pie := c.ie, ie := false, epc := pc, cause, detail }

/-- Whether a trap leaves vstart as it stands: an element fault, which has set it to its element, and the asynchronous traps, whose
boundary it belongs to. Every other trap sets it to 0 (R198). -/
def Trap.keepsVstart (t : Trap) : Bool := t.elem || t.code == cALARM || t.code == cPREEMPT || t.code == cTIMER
/-- The hart with vstart as a trap leaves it. -/
def Hart.atFault (h : Hart) (t : Trap) : Hart := { h with csr := { h.csr with vstart := if t.keepsVstart then h.csr.vstart else 0 } }

/-- Trap entry once nothing of the hart is outstanding (R196): the handler bank, the level's trap registers, the level and
the pc; an asynchronous trap that is entered is no longer pending. The registers written are no longer poisoned (R212). -/
def Hart.enterTrap (h : Hart) (t : Trap) : Hart :=
  let l := t.level h.level
  let written := [0x105, 0x106, 0x107] ++ (if l = .machine then [0x382, 0x383, 0x384] else [0x182, 0x183, 0x184])
  let c := h.trapCsrs l
  let h' := h.setTrapCsrs l (c.enter h.level h.pc t.causeWord t.detail)
  { h' with
    csr := { h.csr with vlost := h.csr.vlost || h.csr.held, held := true, hvl := h.csr.vl, hvtype := h.csr.vtype.setWidth 64,
                        hvstart := h.csr.vstart },
    level := l, pc := c.tvec, hold := none, pcsr := h.pcsr.filter fun c => !written.contains c, preempt := h.preempt && t.code != cPREEMPT,
    preempted := h.preempted || t.code == cPREEMPT, timer := h.timer && t.code != cTIMER,
    alarm := if t.code = cALARM then none else h.alarm,
    faults := if t.code = cENGINE then h.faults.eraseP (fun f => f.trap == t) else h.faults }

/-- Whether every operation of a hart has completed or faulted and every far write has been acknowledged (R196). -/
def State.drained (s : State) (h : Hart) : Bool := (s.opsOf h).isEmpty && !s.asking h

/-- Enters a trap at the issuing hart: fixed results land, the open convoy is closed and recorded, a stop record is written, a
late acknowledgement takes the trap's place (R147, R196, R369). -/
def State.enterTrap (s : State) (t : Trap) : State :=
  let (t, late) := match s.cur.lateAck with | f :: r => ({ f.trap with elem := t.keepsVstart }, r) | [] => (t, [])
  let h := s.cur.landAll.atFault t
  let (head, members) := match h.convoy with | some c => (c.head, c.count) | none => (0, 1)
  let s := ({ s with cur := { h with lateAck := late } }.dropAsks h).closeConvoy true
  let s := s.stopRecord h h.pc t.causeWord t.detail head members
  s.modCur fun h => h.enterTrap t

/-- Takes a trap at the instruction that the pc names: at once where nothing is outstanding, else the hart holds until all
outstanding work has ended (R196). A refusal of the granule table counts a violation (R213). -/
def State.takeTrap (s : State) (t : Trap) : State :=
  let s := s.countDenied s.cur.world t
  if s.drained s.cur then s.enterTrap t else s.modCur fun h => { h with hold := some (.trap t) }

/-- Return from a trap at the current level (R196). A configuration that the handler made and that `csrr` does not read yet is
superseded by the one restored (R118). -/
def Hart.eret (h : Hart) : Hart :=
  let c := h.trapCsrs h.level
  let h' := h.setTrapCsrs h.level { c with ie := c.pie, inh := false }
  { h' with
    csr := if h.csr.held then
        { h.csr with vl := h.csr.hvl, vtype := h.csr.hvtype.setWidth 32, vstart := h.csr.hvstart, held := false,
                     vlSeen := h.csr.hvl, vtypeSeen := h.csr.hvtype.setWidth 32, vsbSeen := h.csr.vsb,
                     vlmaxSeen := BitVec.ofNat 64 (vlmaxOf h.lanes (h.csr.hvtype.setWidth 32)) }
      else h.csr,
    pend := if h.csr.held then h.pend.filter (fun p => match p.dest with | .cfg _ _ _ _ => false | _ => true) else h.pend,
    level := c.pl, pc := c.epc }

/-- The outcome of an instruction: its state, or the trap of the first check that failed. -/
def State.attempt (s : State) (r : Except Trap State) : Out :=
  match r with
  | .ok t => .next t
  | .error t => .next (s.takeTrap t)

/-- One check: the trap where it fails. -/
def failIf (b : Bool) (t : Trap) : Except Trap Unit := if b then .error t else .ok ()

/-- Holds the issuing hart at the instruction that the pc names (R116). -/
def State.holdOn (s : State) (h : Hold) : State := s.modCur fun x => { x with hold := some h }

/-- An event that needs what does not exist in the present state. -/
def notEnabled (event : String) : Out := .fault (.notEnabled event)

/-- Counts one poison use of the issuing hart where a register of a list is poisoned (R212, log 17). -/
def State.useX (s : State) (rs : List (BitVec 5)) : State := if rs.any s.cur.px then s.countPoison s.cur 1 else s
/-- What an instruction that has passed its checks comes to: it is done, or its hart holds or stops at it, to issue it again. -/
inductive Issued where
  | done (s : State)
  | held (s : State)
/-- A change of the state that an instruction leaves once it is done. -/
def Issued.map (f : State → State) : Issued → Issued
  | .done s => .done (f s)
  | .held s => .held s
/-- The poison use of an instruction that may hold its hart and issue again: it counts once, when it is done. -/
def State.counting (s : State) (rs : List (BitVec 5)) (r : Except Trap Issued) : Except Trap State :=
  match r with
  | .ok (.done t) => .ok (if rs.any s.cur.px then t.countPoison s.cur 1 else t)
  | .ok (.held t) => .ok t
  | .error e => .error e

/-- The hart number of the events that name a hart: 8·core + context. -/
def State.hartNo (s : State) (n : Nat) : Option Hart := s.hartAt (n / 8) (n % 8)

/-- Makes the hart in a core and context the issuing one. -/
def State.select (s : State) (core ctx : Nat) : State :=
  if s.cur.isAt core ctx then s
  else match s.others.find? fun h => h.isAt core ctx with
  | some h => { s with cur := h, others := s.cur :: s.others.filter fun x => !x.isAt core ctx }
  | none => { s with cur := .idle core ctx, others := s.cur :: s.others }

/-- Applies a change that is written for the issuing hart to another hart. -/
def State.onHart (s : State) (core ctx : Nat) (f : State → State) : State :=
  let c := s.cur.core
  let x := s.cur.ctx
  (f (s.select core ctx)).select c x

end Sys2Proof.Machine
end

