-- ==== Sys2Proof/Machine/DevRegs.lean ====
section
/-! DEFINITION. Device register space (R379): the device page (R386), world pages (R370, R371, R380, R381), queue pages (R382)
and bounce channel pages (R384, R385), as loads, stores and host requests read and write them. -/
namespace Sys2Proof.Machine

/-- Eight bytes of a wide register from an offset. -/
def dwordAt (v : BitVec n) (off : Nat) : Word := v.extractLsb' (8 * off) 64
/-- Eight bytes of a byte string from an offset. -/
def dwordOf (l : List Byte) (off : Nat) : Word := BitVec.ofNat 64 (ofBytes ((l.drop off).take 8))

/-! Profile entries (R341, R381). -/

def entryBase (e : BitVec 4096) : Nat := (e.extractLsb' 0 8).toNat
def entryLimbs (e : BitVec 4096) : Nat := (e.extractLsb' 8 8).toNat
def entryStat (e : BitVec 4096) : Nat := (e.extractLsb' 16 8).toNat
def entryQ (e : BitVec 4096) (j : Nat) : Nat := (e.extractLsb' (64 + 64 * j) 64).toNat
def entrySetStat (e : BitVec 4096) (s : Nat) : BitVec 4096 :=
  (e &&& ~~~(0xFF0000#4096)) ||| (BitVec.ofNat 4096 (s % 256) <<< 16)

/-- A modulus of A64K (R341): the form of R58 with b at least 17. -/
def a64kModulus (q : Nat) : Bool := match modulusForm q with | some (_, b) => 17 ≤ b | none => false

/-- Whether an entry with a base passes the check of R381. -/
def entryOk (e : BitVec 4096) : Bool :=
  let l := entryLimbs e
  let qs := (List.range l).map (entryQ e)
  ((List.range 32).all fun j => j < l && entryBase e == 3 || entryQ e j == 0) &&
  (if entryBase e = 1 ∨ entryBase e = 2 then l == 1
   else entryBase e == 3 && 1 ≤ l && l ≤ 32 && qs.all a64kModulus && decide qs.Nodup)

/-- A write to a profile entry of a world (R381); reserved bytes and stat take no written value (R5, R6). -/
def writeEntry (e : BitVec 4096) (off : Nat) (v : Word) : BitVec 4096 :=
  if off = 0 then
    let e' := (e &&& ~~~(0xFFFFFFFFFFFFFFFF#4096)) ||| (v &&& 0xFFFF#64).setWidth 4096
    let e' := entrySetStat e' 0
    if entryBase e' = 0 then e' else entrySetStat e' (if entryOk e' then 1 else 2)
  else if 264 ≤ off then entrySetStat e 0
  else entrySetStat ((e &&& ~~~(0xFFFFFFFFFFFFFFFF#4096 <<< (8 * off))) ||| (v.setWidth 4096 <<< (8 * off))) 0

/-- What a launch copies of an entry (R381, R341). -/
def entryProfile (e : BitVec 4096) : Profile :=
  if entryStat e != 1 then { base := 0, q := [] }
  else match entryBase e with
  | 1 => { base := 1, q := [241] }
  | 2 => { base := 2, q := [0xFFFFFFFF00000001] }
  | 3 => { base := 3, q := (List.range (entryLimbs e)).map (entryQ e) }
  | _ => { base := 0, q := [] }

/-! The observation block. -/

/-- Whether a write of obbuf passes its check (R371). -/
def State.obbufOk (s : State) (w : Nat) (v : Word) : Bool :=
  if obHost v then ((s.worlds.getD w .reset)).dbg && !v.getLsbD 46
  else (List.range (obSize v)).all fun i =>
    let g := s.mem.granule (obBase v + 65536 * i)
    isLocalRam (obBase v + 65536 * i) && (gOwner g).toNat == w && gMode g == 0

/-- obctl (R370): setting samp restarts the count of sampled instructions (R375). -/
def State.writeObctl (s : State) (w : Nat) (v : Word) : State :=
  let old := (s.worlds.getD w .reset).obs.ctl
  let v' := v &&& 0xFFFFFFFF00000007#64
  let s := s.modWorld w fun x => { x with obs := { x.obs with ctl := v' } }
  if v'.getLsbD 1 && !old.getLsbD 1 then
    { s with cur := (if s.cur.world.toNat == w then { s.cur with samples := 0 } else s.cur),
             others := s.others.map fun h => if h.world.toNat == w then { h with samples := 0 } else h,
             sched := { s.sched with parked := s.sched.parked.map fun p => if p.world.toNat == w then { p with samples := 0 } else p } }
  else s
def State.writeObbuf (s : State) (w : Nat) (v : Word) : State :=
  if s.obbufOk w v then
    s.modWorld w fun x => { x with obs := { x.obs with buf := v &&& ~~~(0xFFFF#64), head := 0, tail := 0, drop := 0 } }
  else s.modWorld w fun x => { x with eviol := x.eviol + 1 }
def State.writeObtail (s : State) (w : Nat) (v : Word) : State :=
  s.modWorld w fun x => if v ≤ x.obs.head then { x with obs := { x.obs with tail := v } } else x
/-- rcreq (R380): a 1 asks for a signature. -/
def State.writeRcreq (s : State) (w : Nat) (v : Word) : State :=
  s.modWorld w fun x => if v.getLsbD 0 then { x with receipt := { x.receipt with req := true } } else x
def State.writeProfile (s : State) (w n off : Nat) (v : Word) : State :=
  s.modWorld w fun x => { x with profiles := x.profiles.setIfInBounds n (writeEntry (x.profiles.getD n 0) off v) }

/-! Queue pages. -/

/-- Applies a change to a queue. -/
def State.modQueue (s : State) (q : Nat) (f : Queue → Queue) : State :=
  if h : q < 256 then { s with sched := { s.sched with queues := s.sched.queues.set q (f s.sched.queues[q]) } } else s
def State.queue (s : State) (q : Nat) : Queue := s.sched.queues.getD q .reset

/-- qstat as it reads (R382). -/
def Queue.stat (q : Queue) : Word :=
  BitVec.ofBool q.sref ++ BitVec.ofBool q.ovf ++ BitVec.ofBool q.drop ++ 0#6 ++ BitVec.ofNat 7 q.slots.length ++ q.dcnt ++ q.rcnt ++
    BitVec.ofNat 32 q.through
/-- A write of qstat clears the sticky bits where it has ones. -/
def State.writeQstat (s : State) (q : Nat) (v : Word) : State :=
  s.modQueue q fun x => { x with sref := x.sref && !v.getLsbD 63, ovf := x.ovf && !v.getLsbD 62, drop := x.drop && !v.getLsbD 61 }
/-- A dropped write to a launch window (R107, R382). -/
def State.dropLaunch (s : State) (q : Nat) (full : Bool) : State :=
  s.modQueue q fun x => { x with drop := true, ovf := x.ovf || full, dcnt := x.dcnt + 1 }

/-! Bounce channels. -/

def State.modBounce (s : State) (c : Nat) (f : Bounce → Bounce) : State :=
  if h : c < 256 then { s with bounce := s.bounce.set c (f s.bounce[c]) } else s
def State.bounceCh (s : State) (c : Nat) : Bounce := s.bounce.getD c .reset

def bcSlots (cfg : Word) : Nat := 2 ^ (cfg.extractLsb' 12 4).toNat
def bcSlotSize (cfg : Word) : Nat := 256 * 2 ^ (cfg.extractLsb' 8 4).toNat
def bcToHost (cfg : Word) : Bool := cfg.getLsbD 0

/-- bccfg (R384). -/
def State.writeBccfg (s : State) (c : Nat) (v : Word) : State :=
  let b := s.bounceCh c
  if b.st = 0 then s.modBounce c fun x => { x with cfg := v &&& 0x3FFFFFFFFF01#64 }
  else s.violation b.world.toNat
/-- bcstg (R384). -/
def State.writeBcstg (s : State) (c : Nat) (v : Word) : State :=
  let b := s.bounceCh c
  let base := (v.extractLsb' 16 31).toNat * 65536
  let ok := (List.range (cdiv (bcSlots b.cfg * bcSlotSize b.cfg) 65536)).all fun i =>
    let g := s.mem.granule (base + 65536 * i)
    isLocalRam (base + 65536 * i) && gOwner g == b.world && (gMode g == 0 || gMode g == 1)
  if ok then s.modBounce c fun x => { x with stg := v &&& 0x7FFFFFFF0000#64 } else s.violation b.world.toNat
/-- bchc (R384). -/
def State.writeBchc (s : State) (c : Nat) (v : Word) : State := s.modBounce c fun x => { x with hc := v }
/-- bcresync (R385): STALE goes to RUN at n, or to REKEY where n is below dc; RUN and REKEY count a violation. -/
def State.writeBcresync (s : State) (c : Nat) (n : Word) : State :=
  let b := s.bounceCh c
  if b.st = 2 then
    s.modBounce c fun x => if n.toNat ≥ x.dc.toNat then { x with dc := n, st := 1 } else { x with st := 3 }
  else if b.st = 0 then s else s.violation b.world.toNat

/-! Reads and writes by offset. -/

/-- The firmware measurement: SHAKE256 over the digests of the images that Thatum has verified, in load order, 64 bytes (R183). -/
def State.fwm (s : State) : List Byte := shake256 s.thatum.images.flatten 64

/-- The key of a register of register space (R23, R379). -/
def regKey (off : Nat) : Nat := 0x20000000000 + off
/-- The BAR0 offset of a target in register space. -/
def Target.regOff (t : Target) : Nat := t.key - 0x20000000000
/-- The register at an offset of BAR0, as an 8-byte read returns it; a poisoned one reads 0 (R211). -/
def State.regRead (s : State) (off : Nat) : Word :=
  let o := off % 65536
  if s.mem.poisoned (regKey off) then 0 else
  match regPage off with
  | none => 0
  | some .device =>
    if o = 0 then s.board.bootst.setWidth 64
    else if 0x40 ≤ o ∧ o < 0x80 then dwordOf s.fwm (o - 0x40)
    else if 0x80 ≤ o ∧ o < 0xC0 then dwordAt Config.identityDigest (o - 0x80)
    else 0
  | some (.world w) =>
    let x := s.worlds.getD w .reset
    if o = 0 then x.obs.ctl else if o = 8 then x.obs.buf else if o = 0x10 then x.obs.head
    else if o = 0x18 then x.obs.tail else if o = 0x20 then x.obs.drop
    else if o = 0x100 then x.ecorr else if o = 0x108 then x.eunc else if o = 0x110 then x.epois
    else if o = 0x118 then x.elink else if o = 0x120 then x.eviol
    else if o = 0x1000 then (if x.receipt.req then 1 else 0)
    else if o = 0x1008 then BitVec.ofNat 64 x.receipt.sigSeq
    else if 0x1040 ≤ o ∧ o < 0x1080 then dwordOf x.receipt.sigHead (o - 0x1040)
    else if 0x1100 ≤ o ∧ o < 0x1600 then dwordOf x.receipt.sig (o - 0x1100)
    else if 0x2000 ≤ o ∧ o < 0x4000 then dwordAt (x.profiles.getD ((o - 0x2000) / 512) 0) (o % 512)
    else 0
  | some (.queue q) => if o = 0x40 then (s.queue q).stat else 0
  | some (.bounce c) =>
    let b := s.bounceCh c
    if o = 0 then b.cfg else if o = 8 then b.stg else if o = 0x10 then b.st.setWidth 64 else if o = 0x18 then b.dc else 0

/-- An 8-byte write to the register at an offset of BAR0; a write to a read-only register is ignored (R6). -/
def State.regWrite (s : State) (off : Nat) (v : Word) : State :=
  let o := off % 65536
  match regPage off with
  | none => s
  | some .device => s
  | some (.world w) =>
    if o = 0 then s.writeObctl w v
    else if o = 8 then s.writeObbuf w v
    else if o = 0x18 then s.writeObtail w v
    else if o = 0x1000 then s.writeRcreq w v
    else if 0x2000 ≤ o ∧ o < 0x4000 then s.writeProfile w ((o - 0x2000) / 512) (o % 512) v
    else s
  | some (.queue q) => if o < 0x40 then s.dropLaunch q false else if o = 0x40 then s.writeQstat q v else s
  | some (.bounce c) =>
    if o = 0 then s.writeBccfg c v else if o = 8 then s.writeBcstg c v
    else if o = 0x20 then s.writeBchc c v else if o = 0x28 then s.writeBcresync c v else s

/-- The registers that a write at an offset of BAR0 sets (R370, R371, R380 to R385). -/
def regSets (off : Nat) : List Nat :=
  let o := off % 65536
  match regPage off with
  | some (.world _) =>
    if o = 8 then [off, off + 8, off + 16, off + 24] else if o = 0 ∨ o = 0x18 ∨ o = 0x1000 then [off]
    else if 0x2000 ≤ o ∧ o < 0x4000 then [off, off / 512 * 512] else []
  | some (.queue _) => if o = 0x40 then [off] else []
  | some (.bounce _) => if o = 0x28 then [off - 0x10, off - 0x18] else if o = 0 ∨ o = 8 ∨ o = 0x20 then [off] else []
  | _ => []
/-- The poison of registers after a write at an offset: the register written takes the mark of what is written (R211, R212, log 57). -/
def State.markRegs (s : State) (off : Nat) (poison : Bool) : State :=
  { s with mem := (regSets off).foldl (fun m o => if poison && o == off then m.poisonWord (regKey o) else m.cleanWord (regKey o)) s.mem }
/-- A write to a register with the poison of what is written. -/
def State.regStore (s : State) (off : Nat) (v : Word) (poison : Bool) : State := (s.regWrite off v).markRegs off poison
/-- A register of register space reads 0 (R211): its value is lost. -/
def State.regZero (s : State) (off : Nat) : State :=
  let o := off % 65536
  match regPage off with
  | none => s
  | some .device => if o = 0 then { s with board := { s.board with bootst := 0 } } else s
  | some (.world w) => s.modWorld w fun x =>
    let blank (l : List Byte) (i : Nat) : List Byte := l.take i ++ List.replicate 8 0 ++ l.drop (i + 8)
    if o = 0 then { x with obs := { x.obs with ctl := 0 } } else if o = 8 then { x with obs := { x.obs with buf := 0 } }
    else if o = 0x10 then { x with obs := { x.obs with head := 0 } } else if o = 0x18 then { x with obs := { x.obs with tail := 0 } }
    else if o = 0x20 then { x with obs := { x.obs with drop := 0 } }
    else if o = 0x100 then { x with ecorr := 0 } else if o = 0x108 then { x with eunc := 0 } else if o = 0x110 then { x with epois := 0 }
    else if o = 0x118 then { x with elink := 0 } else if o = 0x120 then { x with eviol := 0 }
    else if o = 0x1000 then { x with receipt := { x.receipt with req := false } }
    else if o = 0x1008 then { x with receipt := { x.receipt with sigSeq := 0 } }
    else if 0x1040 ≤ o ∧ o < 0x1080 then { x with receipt := { x.receipt with sigHead := blank x.receipt.sigHead (o - 0x1040) } }
    else if 0x1100 ≤ o ∧ o < 0x1600 then { x with receipt := { x.receipt with sig := blank x.receipt.sig (o - 0x1100) } }
    else if 0x2000 ≤ o ∧ o < 0x4000 then
      let n := (o - 0x2000) / 512
      { x with profiles := x.profiles.setIfInBounds n (x.profiles.getD n 0 &&& ~~~(0xFFFFFFFFFFFFFFFF#4096 <<< (8 * (o % 512)))) }
    else x
  | some (.queue q) =>
    if o = 0x40 then s.modQueue q fun x => { x with sref := false, ovf := false, drop := false, dcnt := 0, rcnt := 0, through := 0 } else s
  | some (.bounce c) => s.modBounce c fun x =>
    if o = 0 then { x with cfg := 0 } else if o = 8 then { x with stg := 0 } else if o = 0x10 then { x with st := 0 }
    else if o = 0x18 then { x with dc := 0 } else if o = 0x20 then { x with hc := 0 } else x

end Sys2Proof.Machine
end

