-- ==== Sys2Proof/Machine/Receipt.lean ====
section
/-! DEFINITION. Job records and the receipt chain (R186, R187), and the alarms of Thatum (R188 to R191). -/
namespace Sys2Proof.Machine

/-- The bytes of a 64-byte constant. -/
def bytes64 (v : BitVec 512) : List Byte := toBytes 64 v.toNat

/-- The head of a world's chain: head0 before the first record (R187). -/
def World.chainHead (w : World) (fwm : List Byte) (id : Nat) : List Byte :=
  if w.receipt.seq = 0 then shake256 (toBytes 1 id ++ fwm) 64 else w.receipt.head

/-- A job record (R186). -/
def jobRecord (fwm : List Byte) (seq queue num world endCode : Nat) (profiles : BitVec 16) (unmeasured poisoned : Bool) (tenq tstart tret : Word)
    (code : List Byte) (npois ncorr nunc nlink : Word) : List Byte :=
  toBytes 8 seq ++ toBytes 8 (jobWord queue num) ++ toBytes 1 world ++ toBytes 1 endCode ++ toBytes 2 profiles.toNat ++
  toBytes 1 (unmeasured.toNat + 2 * poisoned.toNat) ++ toBytes 3 0 ++ toBytes 8 tenq.toNat ++ toBytes 8 tstart.toNat ++
  toBytes 8 tret.toNat ++ fwm ++ (code ++ List.replicate 64 0).take 64 ++ toBytes 8 npois.toNat ++
  toBytes 8 ncorr.toNat ++ toBytes 8 nunc.toNat ++ toBytes 8 nlink.toNat ++ List.replicate 48 0

/-- Appends a record to a world's chain; every 256th awaits a signature (R187). -/
def State.appendRecord (s : State) (w : Nat) (rec : Nat → List Byte) : State :=
  s.modWorld w fun x =>
    let r := rec (x.receipt.seq + 1)
    { x with receipt := { x.receipt with seq := x.receipt.seq + 1, head := shake256 (x.chainHead s.fwm w ++ r) 64,
                                         due := if (x.receipt.seq + 1) % 256 = 0 then x.receipt.due + 1 else x.receipt.due,
                                         records := x.receipt.records ++ [r] } }

/-- Thatum signs the chain head (R187, R380). -/
def State.signChain (s : State) (w : Nat) : State :=
  s.modWorld w fun x =>
    let h := x.chainHead s.fwm w
    let digest := shake256 (bytes64 Config.identityDigest ++ toBytes 1 w ++ toBytes 8 x.receipt.seq ++ h) 64
    { x with receipt := { x.receipt with due := 0, sigSeq := x.receipt.seq, sigHead := h, sig := Config.falcon digest, req := false } }

/-- The level of an alarm source (R190): 0 is read as 1. -/
def State.alarmLevel (s : State) (src : Nat) : Nat :=
  let v := (s.thatum.alpol.extractLsb' (2 * src) 2).toNat
  if v = 0 then 1 else v

end Sys2Proof.Machine
end

