-- ==== Sys2Proof/Machine/Fp.lean ====
section
/-! DEFINITION. Floating point (R42 to R56): formats, exact values, the one rounding, Philox, and every operation on encoded
values. An operation answers the encoded result and the flags it raises, in the order nv dz of uf nx from bit 4 down (R51). -/
namespace Sys2Proof.Machine

/-- A format of R42: exponent bits, fraction bits, bias; `e4m3` has no infinities and its top code is NaN (R43). -/
structure Fmt where
  eb : Nat
  fb : Nat
  bias : Nat
  e4m3 : Bool := false
deriving DecidableEq, Repr

def fmtD : Fmt := { eb := 11, fb := 52, bias := 1023 }
def fmtS : Fmt := { eb := 8, fb := 23, bias := 127 }
def fmtH : Fmt := { eb := 5, fb := 10, bias := 15 }
def fmtB : Fmt := { eb := 8, fb := 7, bias := 127 }
def fmtE4 : Fmt := { eb := 4, fb := 3, bias := 7, e4m3 := true }
def fmtE5 : Fmt := { eb := 5, fb := 2, bias := 15 }

/-- The width in bits. -/
def Fmt.width (f : Fmt) : Nat := 1 + f.eb + f.fb
/-- E5M2 and E4M3 saturate (R47). -/
def Fmt.fp8 (f : Fmt) : Bool := f.width == 8
/-- The exponent of the top binade. -/
def Fmt.emax (f : Fmt) : Int := if f.e4m3 then 8 else f.bias
/-- The significand of the largest finite value, as an integer of fb + 1 bits. -/
def Fmt.maxSig (f : Fmt) : Nat := if f.e4m3 then 2 ^ (f.fb + 1) - 2 else 2 ^ (f.fb + 1) - 1
/-- The canonical NaN (R44). -/
def Fmt.nan (f : Fmt) : Nat :=
  if f.e4m3 then 0x7F else (2 ^ f.eb - 1) * 2 ^ f.fb + 2 ^ (f.fb - 1)
def Fmt.signBit (f : Fmt) (neg : Bool) : Nat := if neg then 2 ^ (f.eb + f.fb) else 0
def Fmt.inf (f : Fmt) (neg : Bool) : Nat := f.signBit neg + (2 ^ f.eb - 1) * 2 ^ f.fb
def Fmt.largest (f : Fmt) (neg : Bool) : Nat :=
  f.signBit neg + (if f.e4m3 then 0x7E else (2 ^ f.eb - 2) * 2 ^ f.fb + (2 ^ f.fb - 1))

/-- What an encoded value is: a finite value is ±m·2^e. -/
inductive Fp where
  | nan (signalling : Bool)
  | inf (neg : Bool)
  | fin (neg : Bool) (m : Nat) (e : Int)
deriving DecidableEq, Repr

/-- Reads an encoded value (R42, R43). -/
def Fmt.read (f : Fmt) (v : Nat) : Fp :=
  let neg := v.testBit (f.eb + f.fb)
  let e := fieldN v f.fb f.eb
  let m := v % 2 ^ f.fb
  if f.e4m3 then
    if e = 15 ∧ m = 7 then .nan false
    else if e = 0 then .fin neg m (1 - f.bias - f.fb) else .fin neg (m + 2 ^ f.fb) (e - f.bias - f.fb)
  else if e = 2 ^ f.eb - 1 then
    if m = 0 then .inf neg else .nan (!m.testBit (f.fb - 1))
  else if e = 0 then .fin neg m (1 - f.bias - f.fb) else .fin neg (m + 2 ^ f.fb) (e - f.bias - f.fb)

/-- A non-zero value whose exponent field is 0. -/
def Fmt.subnormal (f : Fmt) (v : Nat) : Bool := fieldN v f.fb f.eb == 0 && v % 2 ^ f.fb != 0

/-- Reads an input, as zero of its sign where it is subnormal and flushed (R50). -/
def Fmt.readIn (f : Fmt) (flushIn : Bool) (v : Nat) : Fp :=
  if flushIn && f.subnormal v then .fin (v.testBit (f.eb + f.fb)) 0 0 else f.read v

/-- Rounding modes (R46); `sr` brings the word W of R48. -/
inductive Rm where
  | rne | rtz | rdn | rup | rmm
  | sr (w : Nat)
deriving DecidableEq, Repr

/-- The flags of R51. -/
abbrev Flags := BitVec 5
def fNV : Flags := 0b10000#5
def fDZ : Flags := 0b01000#5
def fOF : Flags := 0b00100#5
def fUF : Flags := 0b00010#5
def fNX : Flags := 0b00001#5

/-- Whether a magnitude t + rem/2^sh rounds up. -/
def Rm.up (rm : Rm) (neg : Bool) (t rem sh : Nat) : Bool :=
  if rem = 0 then false else
  match rm with
  | .rne => 2 * rem > 2 ^ sh || (2 * rem == 2 ^ sh && t % 2 == 1)
  | .rtz => false
  | .rdn => neg
  | .rup => !neg
  | .rmm => 2 * rem ≥ 2 ^ sh
  | .sr w => rem * 2 ^ 32 / 2 ^ sh + w ≥ 2 ^ 32

/-- The result beyond the largest finite value (R47, R48). -/
def Fmt.overflow (f : Fmt) (rm : Rm) (neg : Bool) : Nat :=
  if f.e4m3 then f.largest neg
  else match rm with
  | .rdn => if neg then f.inf true else f.largest false
  | .rup => if neg then f.largest true else f.inf false
  | .rtz => f.largest neg
  | _ => if f.fp8 then f.largest neg else f.inf neg

/-- m·2^e cut at bit position q: the quotient, the discarded part and the number of discarded bits. -/
def cutAt (m : Nat) (e q : Int) : Nat × Nat × Nat :=
  if q ≤ e then (m * 2 ^ (e - q).toNat, 0, 0)
  else let sh := (q - e).toNat; (m / 2 ^ sh, m % 2 ^ sh, sh)

/-- Rounds ±m·2^e, exact, to a format (R47, R48, R50), with the flush of results `fo`. A value just above the largest finite number
that rounds back to it raises NX alone (DESIGN CHOICE, log 68). -/
def Fmt.round (f : Fmt) (rm : Rm) (fo : Bool) (neg : Bool) (m : Nat) (e : Int) : Nat × Flags :=
  if m = 0 then (f.signBit neg, 0) else
  let emin : Int := 1 - f.bias
  let lead : Int := e + m.log2
  let q : Int := max lead emin - f.fb
  let (t, rem, sh) := cutAt m e q
  let t' := if rm.up neg t rem sh then t + 1 else t
  let inexact := rem != 0
  let beyond : Bool := match rm with
    | .sr _ => inexact && (lead > f.emax || (q == f.emax - f.fb && t > f.maxSig))
    | _ => false
  -- the rounded value, brought back below 2^(fb+1)
  let (s, qs) := if t' = 2 ^ (f.fb + 1) then (2 ^ f.fb, q + 1) else (t', q)
  if beyond || qs > f.emax - f.fb || (qs == f.emax - f.fb && s > f.maxSig) then
    (f.overflow rm neg, fOF ||| fNX)
  else
    let subn := s < 2 ^ f.fb
    let tiny : Bool := match rm with
      | .sr _ => subn
      | _ => lead < emin &&
          !(lead == emin - 1 && (let (u, r, k) := cutAt m e (lead - f.fb); rm.up neg u r k && u + 1 == 2 ^ (f.fb + 1)))
    if fo && subn && s != 0 then (f.signBit neg, fUF ||| fNX)
    else
      let bits := if subn then s else (qs + f.fb + f.bias).toNat * 2 ^ f.fb + (s - 2 ^ f.fb)
      (f.signBit neg + bits, (if inexact then fNX else 0) ||| (if inexact && tiny then fUF else 0))

/-- A canonical NaN, with NV where the operation is invalid. -/
def Fmt.nanOut (f : Fmt) (nv : Bool) : Nat × Flags := (f.nan, if nv then fNV else 0)

def Fp.isNan : Fp → Bool
  | .nan _ => true
  | _ => false
def Fp.isSnan : Fp → Bool
  | .nan s => s
  | _ => false
def Fp.isInf : Fp → Bool
  | .inf _ => true
  | _ => false
def Fp.isZero : Fp → Bool
  | .fin _ 0 _ => true
  | _ => false
def Fp.neg? : Fp → Bool
  | .nan _ => false
  | .inf n => n
  | .fin n _ _ => n
def Fp.negate : Fp → Fp
  | .nan s => .nan s
  | .inf n => .inf (!n)
  | .fin n m e => .fin (!n) m e

/-- The exact product, where it is one: 0 × ∞ is none. NaN operands are treated before. -/
def Fp.mul (a b : Fp) : Option Fp :=
  match a, b with
  | .fin s m e, .fin t n f => some (.fin (s != t) (m * n) (e + f))
  | x, y => if x.isZero || y.isZero then none else some (.inf (x.neg? != y.neg?))

/-- The sum of signed values ±m·2^e over a common exponent, as an integer and the exponent. -/
def exactSum (l : List Fp) : Int × Int :=
  let e0 : Int := l.foldl (fun acc x => match x with | .fin _ _ e => min acc e | _ => acc) 0
  (l.foldl (fun acc x => match x with
    | .fin n m e => let v : Int := (m * 2 ^ (e - e0).toNat : Nat); if n then acc - v else acc + v
    | _ => acc) 0, e0)

/-- The rounded sum of terms none of which is NaN (R44, R56): opposite infinities are invalid; an exact zero is −0 if every
term is −0, +0 if every term is +0, otherwise +0, or −0 in rdn. -/
def Fmt.sum (f : Fmt) (rm : Rm) (fo : Bool) (l : List Fp) : Nat × Flags :=
  let pos := l.any (fun x => x == .inf false)
  let neg := l.any (fun x => x == .inf true)
  if pos && neg then f.nanOut true
  else if pos then (f.inf false, 0)
  else if neg then (f.inf true, 0)
  else
    let (v, e) := exactSum l
    if v = 0 then
      let allNeg := l.all (fun x => x.isZero && x.neg?)
      let allPos := l.all (fun x => x.isZero && !x.neg?)
      (f.signBit (allNeg || (rm == .rdn && !allPos)), 0)
    else f.round rm fo (decide (v < 0)) v.natAbs e

/-- a + b. -/
def Fmt.add (f : Fmt) (rm : Rm) (fo : Bool) (a b : Fp) : Nat × Flags :=
  if a.isNan || b.isNan then f.nanOut (a.isSnan || b.isSnan) else f.sum rm fo [a, b]

/-- a · b. -/
def Fmt.mul (f : Fmt) (rm : Rm) (fo : Bool) (a b : Fp) : Nat × Flags :=
  if a.isNan || b.isNan then f.nanOut (a.isSnan || b.isSnan)
  else match a.mul b with
  | none => f.nanOut true
  | some (.inf n) => (f.inf n, 0)
  | some (.fin n m e) => f.round rm fo n m e
  | some (.nan _) => f.nanOut false

/-- d + a·b, one rounding; 0 × ∞ is invalid even when d is a quiet NaN (R299). -/
def Fmt.fma (f : Fmt) (rm : Rm) (fo : Bool) (d a b : Fp) : Nat × Flags :=
  let bad := !(a.isNan || b.isNan) && (a.mul b).isNone
  if a.isNan || b.isNan || d.isNan || bad then f.nanOut (a.isSnan || b.isSnan || d.isSnan || bad)
  else match a.mul b with
  | some p => f.sum rm fo [d, p]
  | none => f.nanOut true

/-- a / b: the quotient to 72 bits below the format's precision, with a sticky bit. -/
def Fmt.div (f : Fmt) (rm : Rm) (fo : Bool) (a b : Fp) : Nat × Flags :=
  match a, b with
  | .nan s, y => f.nanOut (s || y.isSnan)
  | x, .nan s => f.nanOut (s || x.isSnan)
  | .inf _, .inf _ => f.nanOut true
  | .inf s, y => (f.inf (s != y.neg?), 0)
  | x, .inf t => (f.signBit (x.neg? != t), 0)
  | .fin s m e, .fin t n g =>
    if n = 0 then (if m = 0 then f.nanOut true else (f.inf (s != t), fDZ))
    else
      let k := f.fb + 72 + n.log2 + 1
      let num := m * 2 ^ k
      let q := num / n
      let st := if num % n = 0 then 0 else 1
      f.round rm fo (s != t) (2 * q + st) (e - g - k - 1)

/-- √a (R44, R260): −0 gives −0, a negative number is invalid. -/
def Fmt.sqrt (f : Fmt) (rm : Rm) (fo : Bool) (a : Fp) : Nat × Flags :=
  match a with
  | .nan s => f.nanOut s
  | .inf true => f.nanOut true
  | .inf false => (f.inf false, 0)
  | .fin s m e =>
    if m = 0 then (f.signBit s, 0)
    else if s then f.nanOut true
    else
      let k : Nat := 2 * (f.fb + 40) + (if (e % 2 : Int) = 0 then 0 else 1)
      let n := m * 2 ^ k
      let r := isqrt (n.log2 / 2 + 1) n 0
      let st := if r * r = n then 0 else 1
      f.round rm fo false (2 * r + st) ((e - k) / 2 - 1)

/-- Order of two values that are not NaN; −0 equals +0 here. -/
def Fp.cmp (a b : Fp) : Ordering :=
  match a, b with
  | .inf n, .inf m => if n == m then .eq else if n then .lt else .gt
  | .inf n, _ => if n then .lt else .gt
  | _, .inf m => if m then .gt else .lt
  | x, y => let (v, _) := exactSum [x, y.negate]; compare v 0

/-- The six relations of R53 and R260. -/
inductive Cond where
  | eq | ne | lt | le | gt | ge
deriving DecidableEq, Repr

/-- A comparison: eq and ne are quiet, the others raise NV on any NaN (R53). -/
def Cond.holds (c : Cond) (a b : Fp) : Bool × Flags :=
  let nan := a.isNan || b.isNan
  let quiet := c == .eq || c == .ne
  let nv := if quiet then a.isSnan || b.isSnan else nan
  let r := if nan then c == .ne else
    match c, a.cmp b with
    | .eq, o => o == .eq
    | .ne, o => o != .eq
    | .lt, o => o == .lt
    | .le, o => o != .gt
    | .gt, o => o == .gt
    | .ge, o => o != .lt
  (r, if nv then fNV else 0)

/-- minimumNumber and maximumNumber on encoded values, −0 below +0 (R53). -/
def Fmt.minmax (f : Fmt) (isMax : Bool) (fi : Bool) (x y : Nat) : Nat × Flags :=
  let a := f.readIn fi x
  let b := f.readIn fi y
  let nv : Flags := if a.isSnan || b.isSnan then fNV else 0
  let enc (v : Fp) (raw : Nat) : Nat := if v.isZero then f.signBit v.neg? else raw % 2 ^ f.width
  if a.isNan && b.isNan then (f.nan, nv)
  else if a.isNan then (enc b y, nv)
  else if b.isNan then (enc a x, nv)
  else
    let aLess := match a.cmp b with
      | .lt => true
      | .gt => false
      | .eq => a.neg? && !b.neg?
    let pickA := if isMax then !aLess else aLess || (a.cmp b == .eq && a.neg? == b.neg?)
    (if pickA then enc a x else enc b y, nv)

/-- The class mask of R261. -/
def Fmt.classify (f : Fmt) (v : Nat) : Nat :=
  match f.read v with
  | .nan s => if s then 2 ^ 8 else 2 ^ 9
  | .inf n => if n then 1 else 2 ^ 7
  | .fin n m _ =>
    if m = 0 then (if n then 2 ^ 3 else 2 ^ 4)
    else if f.subnormal v then (if n then 2 ^ 2 else 2 ^ 5)
    else if n then 2 else 2 ^ 6

/-- Conversion between floating-point formats (R52, R47): an infinity saturates in E4M3 with OF and NX. -/
def Fmt.convert (g : Fmt) (rm : Rm) (fo : Bool) (a : Fp) : Nat × Flags :=
  match a with
  | .nan s => g.nanOut s
  | .inf n => if g.e4m3 then (g.largest n, fOF ||| fNX) else (g.inf n, 0)
  | .fin n m e => if m = 0 then (g.signBit n, 0) else g.round rm fo n m e

/-- An integer to a floating-point format (R52). -/
def Fmt.ofInt (g : Fmt) (rm : Rm) (fo : Bool) (v : Int) : Nat × Flags :=
  g.round rm fo (decide (v < 0)) v.natAbs 0

/-- A floating-point value to a signed integer of w bits (R52), as its two's complement. -/
def Fp.toInt (rm : Rm) (w : Nat) (a : Fp) : Nat × Flags :=
  match a with
  | .nan _ => (0, fNV)
  | .inf n => (if n then 2 ^ (w - 1) else 2 ^ (w - 1) - 1, fNV)
  | .fin n m e =>
    let (t, rem, sh) := cutAt m e 0
    let t' := if rm.up n t rem sh then t + 1 else t
    let v : Int := if n then -(t' : Int) else t'
    if v > 2 ^ (w - 1) - 1 then (2 ^ (w - 1) - 1, fNV)
    else if v < -(2 ^ (w - 1)) then (2 ^ (w - 1), fNV)
    else (wrapInt w v, if rem = 0 then 0 else fNX)

/-- One round of Philox4x32 on (c0, c1, c2, c3) with key (k0, k1). -/
def philoxRound (c : Nat × Nat × Nat × Nat) (k0 k1 : Nat) : Nat × Nat × Nat × Nat :=
  let (c0, c1, c2, c3) := c
  let p0 := 0xD2511F53 * c0
  let p1 := 0xCD9E8D57 * c2
  (p1 / 2 ^ 32 ^^^ c1 ^^^ k0, p1 % 2 ^ 32, p0 / 2 ^ 32 ^^^ c3 ^^^ k1, p0 % 2 ^ 32)

/-- The rounds of Philox4x32 that remain. -/
def philoxLoop : Nat → Nat × Nat × Nat × Nat → Nat → Nat → Nat × Nat × Nat × Nat
  | 0, c, _, _ => c
  | n + 1, c, k0, k1 => philoxLoop n (philoxRound c k0 k1) ((k0 + 0x9E3779B9) % 2 ^ 32) ((k1 + 0xBB67AE85) % 2 ^ 32)

/-- Word 0 of Philox4x32-10 with the key of srseed and the counter (g[31:0], g[63:32], d[31:0], 0) (R48). -/
def philoxWord (seed g d : Word) : Nat :=
  (philoxLoop 10 (g.toNat % 2 ^ 32, g.toNat / 2 ^ 32, d.toNat % 2 ^ 32, 0) (seed.toNat % 2 ^ 32) (seed.toNat / 2 ^ 32)).1

/-- The mode that a code of R46 names, with the draw of R48 and R49 at global index g. A reserved code, which only `eret` and `ctxrst` can
install, rounds as sr and takes no draw (DESIGN CHOICE, log 89). -/
def rmOf (code : Nat) (seed d g : Word) : Rm :=
  match code with
  | 0 => .rne
  | 1 => .rtz
  | 2 => .rdn
  | 3 => .rup
  | 4 => .rmm
  | _ => .sr (philoxWord seed g d)

/-- The value of a PoT2 weight before scaling (R45), over 2^6: an integer in [−128, 128]. -/
def pot2 (w : Nat) : Int :=
  let term (s e : Nat) : Int := if e = 7 then 0 else if s = 1 then -(2 ^ (6 - e) : Nat) else (2 ^ (6 - e) : Nat)
  term (fieldN w 7 1) (fieldN w 4 3) + term (fieldN w 3 1) (fieldN w 0 3)

/-- The exact scaled weight as a value; a scale of 255 is reserved and is treated before. A zero weight is +0 (DESIGN CHOICE, log 67). -/
def pot2Fp (w scale : Nat) : Fp :=
  let v := pot2 w
  .fin (decide (v < 0)) v.natAbs ((scale : Int) - 127 - 6)

end Sys2Proof.Machine
end

