-- ==== Sys2Proof/Machine/Operands.lean ====
section
/-! DEFINITION. Operand forms: scalar sources with the STRICT check (R118, R119), immediates (R221, R246), memory addresses
(R222), branch targets (R224), the implicit source of compact instructions (R234, R235). -/
namespace Sys2Proof.Machine

/-- Whether a scalar register waits for a result of an earlier instruction (R118, R119). -/
def State.awaitsX (s : State) (r : BitVec 5) : Bool :=
  r != 0 && (s.cur.pend.any (fun p => p.dest.isX s.cur.level r) ||
    (s.opsOf s.cur).any fun o => o.kind.dests.any fun d => d.live && d.lvl == s.cur.level && d.r == r)

/-- STRICT on the first under-waited scalar source (R119). -/
def State.strictX (s : State) (rs : List (BitVec 5)) : Except Trap Unit :=
  if s.cur.strap.strict then
    match rs.find? s.awaitsX with
    | some r => .error (strictTrap 0 r.toNat)
    | none => .ok ()
  else .ok ()

/-- Whether any scalar source is poisoned (R212). -/
def State.anyPX (s : State) (rs : List (BitVec 5)) : Bool := rs.any s.cur.px

/-- sext(imm16, 16) (R221). -/
def imm16s (i : BitVec 16) : Word := i.signExtend 64
/-- zext(imm16, 16) (R221). -/
def imm16z (i : BitVec 16) : Word := i.setWidth 64
/-- sext(imm16 << 16, 32) (R221). -/
def imm16h (i : BitVec 16) : Word := (i ++ 0#16).signExtend 64
/-- sext(b, 5) (R237). -/
def simm5 (b : BitVec 5) : Word := b.signExtend 64
/-- sext(n, 12) as a 32-bit value (R251, R252). -/
def imm12h (n : BitVec 12) : Half := n.signExtend 32

/-- The address of a format M access: X[A] + sext(imm9, 9)·size (R222). -/
def Hart.addrM (h : Hart) (a : BitVec 5) (imm : BitVec 9) (size : Nat) : Word := h.x a + imm.signExtend 64 * BitVec.ofNat 64 size

/-- The address of the instruction's word: the pc without its half bit (R215). -/
def Hart.wordPc (h : Hart) : Word := h.pc &&& ~~~3#64
/-- The target of a format BR branch (R224). -/
def Hart.targetBR (h : Hart) (off : BitVec 16) : Word := h.wordPc + (off ++ 0#2).signExtend 64
/-- The target of `jal` (R224). -/
def Hart.targetJL (h : Hart) (off : BitVec 21) : Word := h.wordPc + (off ++ 0#2).signExtend 64

/-- The register that `^` reads (R234). -/
def Hart.implicit (h : Hart) : BitVec 5 := h.bank.ldest

/-- The scope instance of a hart (R69), by its numbers from the narrowest part outward. -/
def scopeInstance (sc : BitVec 3) (device core ctx : Nat) : List Nat :=
  match sc.toNat with
  | 0 => [0, device, core, ctx]
  | 1 => [1, device, core]
  | 2 => [2, device, clusOf core]
  | 3 => [3, device, stackOf core]
  | 4 => [4, device]
  | _ => [5]

end Sys2Proof.Machine
end

