-- ==== Sys2Proof/Machine/Flags.lean ====
section
/-! DEFINITION. The status registers: fcsr (R51) with the scalar rounding mode (R46), the status word of a level (R195), the
flags of fixed-latency and vector results. -/
namespace Sys2Proof.Machine

/-- fcsr.rm (R51). -/
def Hart.rmCode (h : Hart) : Nat := (h.csr.fcsr.extractLsb' 5 3).toNat
/-- The scalar rounding mode. -/
def Hart.rm (h : Hart) : Rm := rmOf h.rmCode 0 0 0
/-- fcsr holds a mode that scalar instructions may not round in (R46, R261). -/
def Hart.rmBad (h : Hart) : Bool := 5 ≤ h.rmCode

/-- Flags that land with a fixed-latency result (R51, R243). -/
def State.laterFlags (s : State) (lat : Nat) (f : Flags) : State := if f = 0 then s else s.later lat (.flags f) 0
/-- Flags of a completed operation (R51). -/
def Hart.raiseFlags (h : Hart) (f : Flags) : Hart := { h with csr := { h.csr with fcsr := h.csr.fcsr ||| f.setWidth 64 } }

/-- Whether flags of an earlier instruction have not landed in fcsr (R51, R119). -/
def State.awaitsFlags (s : State) : Bool :=
  s.cur.pend.any (fun p => match p.dest with | .flags _ => true | _ => false) ||
  (s.opsOf s.cur).any fun o => match o.kind with
    | .divide true _ f _ _ => f != 0
    | .vector f _ _ _ _ _ _ _ => f != 0
    | _ => false

/-- The two bits that name a level (R195). -/
def Level.bits : Level → BitVec 2
  | .user => 0
  | .supervisor => 1
  | .machine => 3
def Level.ofBits (b : BitVec 2) : Level := if b = 1 then .supervisor else if b = 3 then .machine else .user

/-- The status register of a level as it reads (R195): strict reads 0 in mstatus. -/
def Hart.status (h : Hart) (l : Level) : Word :=
  let c := h.trapCsrs l
  (0#52 ++ BitVec.ofBool c.nest ++ BitVec.ofBool h.csr.held ++ BitVec.ofBool h.csr.vlost ++
    BitVec.ofBool (c.strict && l != .machine) ++ BitVec.ofBool c.inh ++ c.pl.bits ++ BitVec.ofBool c.ie ++ BitVec.ofBool c.pie ++ 0#3)

/-- A write of a status register: `set` gives the new value of its RW fields, `clear` the W1C bits to clear (R195, R264). -/
def Hart.setStatus (h : Hart) (l : Level) (set clear : Word) : Hart :=
  let c := h.trapCsrs l
  let h' := h.setTrapCsrs l { c with
    nest := c.nest && !clear.getLsbD 11,
    strict := if l = .machine then c.strict else set.getLsbD 8,
    inh := set.getLsbD 7, pl := Level.ofBits (set.extractLsb' 5 2), ie := set.getLsbD 4, pie := set.getLsbD 3 }
  { h' with csr := { h.csr with held := set.getLsbD 10, vlost := h.csr.vlost && !clear.getLsbD 9 } }

end Sys2Proof.Machine
end

