-- ==== Sys2Proof/Machine/MemOps.lean ====
section
/-! DEFINITION. Memory operations of a hart: reading and writing a translated place, completing the local operations in flight,
local order (R73 to R76), and scalar loads, stores, atomics, near and far (R247, R248). -/
namespace Sys2Proof.Machine

/-- Reads n bytes of a local place, register space included. -/
def State.readAt (s : State) (w : BitVec 6) (t : Target) (n : Nat) : List Byte × Bool :=
  if t.home = .regs then (toBytes n (s.regRead t.regOff).toNat, s.mem.poisoned t.key) else readTarget s w t n
/-- Writes bytes to a local place, register space included. -/
def State.writeAt (s : State) (w : BitVec 6) (t : Target) (bs : List Byte) (poison : Bool) : State :=
  if t.home = .regs then s.regStore t.regOff (BitVec.ofNat 64 (ofBytes bs)) poison else writeTarget s w t bs poison

/-- Whether a place is translated memory (R212). -/
def Target.translated (t : Target) : Bool := match t.home with | .stack _ | .host => true | _ => false

/-- The new value of a read-modify-write; none where nothing is written (R248). -/
def amoNew (op : AmoOp) (old arg cmp : Word) : Option Word :=
  match op with
  | .add => some (old + arg)
  | .and => some (old &&& arg)
  | .or => some (old ||| arg)
  | .xor => some (old ^^^ arg)
  | .min => some (if old.slt arg then old else arg)
  | .max => some (if old.slt arg then arg else old)
  | .minu => some (if old.ult arg then old else arg)
  | .maxu => some (if old.ult arg then arg else old)
  | .swap => some arg
  | .cas => if old = cmp then some arg else none

/-- Whether the new word is computed from the old one. -/
def AmoOp.takesOld : AmoOp → Bool
  | .swap | .cas => false
  | _ => true

/-- The value of a load of n bytes (R247). -/
def loadValue (n : Nat) (signed : Bool) (bs : List Byte) : Word :=
  let v := BitVec.ofNat 64 (ofBytes bs)
  if signed then sextWord (8 * n) v else v

/-- Where the versions of a fetched word are kept: a local place by its key, a far one apart for each device. -/
def Target.fetchKey (t : Target) : Nat := if t.isFar then 2 ^ 60 + t.dev * 2 ^ 47 + t.key else t.key

/-- Performs a store at its home; a poisoned value that reaches translated memory is a poison use (R212). -/
def State.performStore (s : State) (h : Hart) (w : WriteBack) : State :=
  let s := s.keepWords (s.writeAt h.world w.target w.data w.poison) h.world w.target w.data.length
  if w.poison && w.target.translated then s.countPoison h 1 else s

/-- Performs an atomic at its home: the new state, the old value and its poison (R81, R176, R248). The first access to an
element-mode word reads 0. The word written is poisoned by the operand, and by the old word where the operation takes it in (R212). -/
def State.performAtomic (s : State) (h : Hart) (op : Option AmoOp) (t : Target) (arg cmp : Word) (poison : Bool) :
    State × Word × Bool :=
  let (bs, p) := s.readAt h.world t 8
  let old : Word := if op.isSome && t.enc = 2 then 0 else BitVec.ofNat 64 (ofBytes bs)
  match op.bind fun o => amoNew o old arg cmp with
  | some new => (s.performStore h { target := t, data := toBytes 8 new.toNat, poison := poison || (p && op.any AmoOp.takesOld) }, old, p)
  | none => (s, old, p)

/-- A vector or tile instruction in the VIQ. -/
def OpKind.isVector : OpKind → Bool
  | .vector .. => true
  | _ => false

/-- Whether an operation is the oldest vector operation of its hart (R120). -/
def State.viqHead (s : State) (o : Op) : Bool :=
  match s.ops.find? fun p => p.core == o.core && p.ctx == o.ctx && p.kind.isVector with
  | some p => p.id == o.id
  | none => false

/-- The effects of a vector operation at its completion; its post waits for every earlier vector operation of the hart and for
the acknowledgement of its far writes (R120, R285). -/
def State.performVector (s : State) (h : Hart) (o : Op) (f : BitVec 5) (x : Option (XDest × Word × Bool)) (ws : List WriteBack)
    (mt : Option (Vector (BitVec 512) 64)) (waits : List (Nat × Nat)) (smp : List Byte) : State :=
  let s := ws.foldl (fun s w => s.performStore h w) s
  let s := s.modHart o.core o.ctx fun h => h.raiseFlags f
  let s := match mt with
    | some m => s.modHart o.core o.ctx fun h => { h with ct := { h.ct with mtab := m } }
    | none => s
  let s := match x with
    | some (d, v, p) => s.deliver o d v p
    | none => s
  let s := if smp.isEmpty then s else s.record h.world smp
  if waits.isEmpty && s.viqHead o then (s.finish o).settleConvoys o.core o.ctx
  else { s with ops := s.ops.map fun (p : Op) =>
    if p.id == o.id then { p with kind := .vector 0 none [] [] [] none waits [] } else p }

/-- Completes a local operation in flight: its data effect, its scalar result, its flags, its post. Engine, ciphertext, sleeve
and tailoring operations have their own completions. -/
def State.completeLocal (s : State) (o : Op) : State :=
  let h := (s.hartAt o.core o.ctx).getD s.cur
  match o.kind with
  | .load t n signed d =>
    let (bs, p) := s.readAt h.world t n
    (s.deliver o d (loadValue n signed bs) p).finish o
  | .store w => (s.performStore h w).finish o
  | .atomic op t arg cmp poison d =>
    let (s, old, p) := s.performAtomic h op t arg cmp poison
    (s.deliver o d old p).finish o
  | .divide fp v f poison d =>
    let s := if fp then s.modHart o.core o.ctx fun h => h.raiseFlags f else s
    (s.deliver o d v poison).finish o
  | .arrived v d => (s.deliver o d v false).finish o
  | .vector f x ws _ _ mt waits smp => s.performVector h o f x ws mt waits smp
  | _ => s

/-- Operations that local order may have to complete before a later access. -/
def OpKind.isAccess : OpKind → Bool
  | .load .. | .store .. | .atomic .. | .arrived .. | .vector .. => true
  | _ => false
def OpKind.isScalarAccess : OpKind → Bool
  | .load .. | .store .. | .atomic .. | .arrived .. => true
  | _ => false
/-- Whether a place is far for a hart of this device: host memory, or the memory of another device (R70). -/
def Target.remote (t : Target) : Bool := t.isFar || t.home == .host
/-- Whether an operation in flight is a scalar far access (R70, R75). -/
def OpKind.remote : OpKind → Bool
  | .load t _ _ _ | .atomic _ t _ _ _ _ => t.remote
  | .store w => w.target.remote
  | .arrived .. => true
  | _ => false
/-- The bytes of a scalar access. -/
def OpKind.range : OpKind → Option (Nat × Nat)
  | .load t n _ _ => some (t.key, n)
  | .store w => some (w.target.key, w.data.length)
  | .atomic _ t _ _ _ _ => some (t.key, 8)
  | _ => none

/-- Completes one operation by number, if it is still in flight. -/
def State.completeId (s : State) (id : Nat) : State :=
  match s.ops.find? fun o => o.id == id with
  | some o => s.completeLocal o
  | none => s
/-- Performs an operation as far as an order of local accesses asks (R75): far accesses stay in flight, the far writes of a vector
store among them. -/
def State.performNear (s : State) (o : Op) : State :=
  match o.kind with
  | .vector f x ws ov om mt waits smp =>
    if ws.any fun w => w.target.remote then
      let h := (s.hartAt o.core o.ctx).getD s.cur
      let t := (ws.filter fun w => !w.target.remote).foldl (fun s w => s.performStore h w) s
      { t with ops := t.ops.map fun (p : Op) =>
        if p.id == o.id then { p with kind := .vector f x (ws.filter fun w => w.target.remote) ov om mt waits smp } else p }
    else s.completeLocal o
  | k => if k.remote then s else s.completeLocal o
/-- Completes the operations of the issuing hart that satisfy a test, oldest first; far ones at scope sys only (R74, R75), or where they
are themselves acquires at scope sys, which every later event follows (R75, R76). -/
def State.drain (s : State) (p : OpKind → Bool) (sys : Bool) : State :=
  ((s.opsOf s.cur).filter fun o => p o.kind).foldl (fun s o =>
    match s.ops.find? fun q => q.id == o.id with
    | some q => if sys || (q.acq && q.sys) then s.completeLocal q else s.performNear q
    | none => s) s
/-- Completes earlier operations that a scalar access of n bytes must follow: an acquire in flight, for a far read (`far`) one of
scope sys (R76), and scalar accesses to a common byte (R73 case 1). -/
def State.drainFor (s : State) (key n : Nat) (far : Bool := false) : State :=
  ((s.opsOf s.cur).filter fun o => (o.acq && (o.sys || !far)) || (match o.kind.range with
    | some (k, m) => overlap k m key n
    | none => false)).foldl (fun s o => s.completeId o.id) s
/-- Completes every earlier local access, at scope sys every earlier access (a release, a full fence, a push: R74, R76, R78). -/
def State.drainAll (s : State) (sys : Bool) : State := s.drain OpKind.isAccess sys
/-- Completes acquires in flight, before any other access (R76). -/
def State.drainAcq (s : State) : State :=
  ((s.opsOf s.cur).filter (·.acq)).foldl (fun s o => s.completeId o.id) s
/-- Completes acquires of scope sys in flight, before a far read (R75, R76). -/
def State.drainSys (s : State) : State :=
  ((s.opsOf s.cur).filter fun o => o.acq && o.sys).foldl (fun s o => s.completeId o.id) s

/-- Whether an operation has sent far writes. -/
def OpKind.awaitsAcks : OpKind → Bool
  | .farStore .. => true
  | .vector _ _ _ _ _ _ waits _ => !waits.isEmpty
  | _ => false
/-- Whether far writes of the issuing hart await their acknowledgement (R74, R75). -/
def State.unacked (s : State) : Bool := (s.opsOf s.cur).any fun o => o.kind.awaitsAcks

/-- Places of this device that an operation in flight has still to read or write. -/
def OpKind.places : OpKind → List Target
  | .load t _ _ _ | .atomic _ t _ _ _ _ => [t]
  | .store w => [w.target]
  | .vector _ _ ws _ _ _ _ _ | .ctxsave ws => ws.map (·.target)
  | .ct w => w.src.flatMap (·.1.pages) ++ w.dst.pages ++ (w.key.toList ++ w.table.toList).flatMap (·.pages)
  | _ => []
/-- Whether a `copy` takes its elements in rising order (R323). -/
def copyRising (n w : Nat) (src dst : Word) : Bool := dst ≤ src || !overlap src.toNat (n * w) dst.toNat (n * w)
/-- The displacement of linear position p of a `copyn`, by source or destination strides (R324). -/
def copynAt (pick : Nat × Word × Word → Word) : List (Nat × Word × Word) → Nat → Word
  | [], _ => 0
  | d :: r, p => pick d * BitVec.ofNat 64 (p % d.1) + copynAt pick r (p / d.1)
/-- The element size, and each element's number, source and destination in the command's order (R200, R323, R324). -/
def CopyCmd.elems : CopyCmd → Nat × List (Nat × Word × Word)
  | .copy n w src dst =>
    let at_ (i : Nat) : Nat × Word × Word := (i, src + BitVec.ofNat 64 (i * w), dst + BitVec.ofNat 64 (i * w))
    (w, if copyRising n w src dst then (List.range n).map at_ else (List.range n).reverse.map at_)
  | .copyn src dst w dims _ =>
    (w, (List.range ((dims.map (·.1)).foldl (· * ·) 1)).map fun p =>
      (p, src + copynAt (·.2.1) dims p, dst + copynAt (·.2.2) dims p))
/-- Whether a region holds the byte of a key. -/
def ElemRegion.has (r : ElemRegion) (key : Nat) : Bool := r.base ≤ key / 65536 && key / 65536 < r.base + r.size
/-- Whether a local element-mode place lies in a region. -/
def ElemRegion.holds (r : ElemRegion) (t : Target) : Bool := t.enc == 2 && !t.isFar && r.has t.key
/-- Whether a copy command has still to move an element that lies in a region. -/
def State.copyTouches (s : State) (r : ElemRegion) (o : Op) : Bool :=
  match o.kind, s.hartAt o.core o.ctx with
  | .copy cmd run, some h =>
    let at' (va : Word) (acc : Acc) : Bool := match translate s h o.lvl va cmd.elems.1 acc true with | .ok t => r.holds t | .error _ => false
    (cmd.elems.2.drop run.pos).any fun e => at' e.2.1 .load || at' e.2.2 .store
  | _, _ => false
/-- Whether accesses to an element region that were issued before the operation numbered `stamp` have not completed: accesses in
flight, pushed copy commands, far accesses whose claims this device has answered, stores that have claimed units here and wait for claims
elsewhere (R177, R178). -/
def State.regionBusy (s : State) (r : ElemRegion) (stamp : Nat) : Bool :=
  s.ops.any (fun o => o.kind.places.any r.holds || (o.id < stamp && s.copyTouches r o)) ||
    (s.fabric.peers.any fun p => p.moving.any fun m => r.has m.2.1) ||
    s.farReqs.any fun q => (match q.answer, q.ask with
      | some (.claims _), .claim us => q.dev == 512 && us.any fun u => r.has u.1
      | _, _ => false)
/-- Whether a world's rekey in progress still waits for accesses (R177). -/
def State.rekeyWaits (s : State) (w : Nat) : Bool :=
  let x := s.worlds.getD w .reset
  match x.rgkey with
  | some (i, stamp) => (match x.regions[i]? with | some r => s.regionBusy r stamp | none => false)
  | none => false
/-- Whether accesses to a region of a world have not completed (R178). -/
def State.regionsBusy (s : State) (w : Nat) : Bool :=
  (s.worlds.getD w .reset).regions.any fun r => r.valid && s.regionBusy r s.nextOp
/-- Whether a local element-mode place of a world lies in a region that is being rekeyed, for an access of the operation numbered
`id` (R177). -/
def State.rekeyHolds (s : State) (w : BitVec 6) (id : Nat) (t : Target) : Bool :=
  match (s.worlds[w.toNat]).rgkey with
  | some (i, stamp) => stamp ≤ id && (match (s.worlds[w.toNat]).regions[i]? with | some r => r.holds t | none => false)
  | none => false
/-- Whether an access that the issuing hart makes now reaches a region that is being rekeyed. -/
def State.rekeying (s : State) (t : Target) : Bool := s.rekeyHolds s.cur.world s.nextOp t

/-- KEYSTREAM at a unit (R176). -/
def keystreamTrap (a : Word) : Trap := { code := cKEYSTREAM, store := true, detail := a }

/-- A scalar result at the third slot, with or without a post (R243, R404). -/
def State.later3 (s : State) (d : BitVec 5) (v : Word) (p : Bool) (hook : BitVec 4) : State :=
  if d = 0 then (if hook = 0 then s else s.later 3 .none hook) else s.later 3 (.x s.cur.level d (if p then 0 else v) p) hook

/-- Posts a hook of the issuing hart now. -/
def State.postNow (s : State) (hook : BitVec 4) : State := s.modCur fun h => h.post h.level hook

/-- Whether a place is the obhead of a world: its read is an acquire at scope sys over the records that it counts (R372). -/
def Target.obhead (t : Target) : Bool :=
  t.home == .regs && (match regPage t.regOff with | some (.world _) => t.regOff % 65536 == 0x10 | _ => false)
/-- A far load or atomic whose response has come retires: its result is on its way to the destination. -/
def State.arrive (s : State) (d : BitVec 5) (v : Word) (hook : BitVec 4) (addr : Word) : State :=
  ((s.start hook (.arrived v (s.xdest d)) false addr).setLdest d).retire
/-- A load that has passed its checks (R247). A far one holds its hart until its response has come: that is its fault point, and no
effect of a younger instruction may leave the hart before it (R198, log 70). -/
def State.loadAt (s : State) (d : BitVec 5) (addr : Word) (size : Nat) (signed : Bool) (hook : BitVec 4) (t : Target) :
    Except Trap Issued :=
  let s1 := s.touch s.cur.world addr.toNat
  if s.rekeying t then .ok (.held (s.holdOn .rekey))
  else if t.isFar then
    let s2 := s1.drainSys
    match s2.farNeed s.cur t size true false with
    | some (a, m) => .ok (.held ((s2.ask s.cur t a m).holdOn .far))
    | none =>
      if s2.asking s.cur then .ok (.held (s2.holdOn .far))
      else match s2.farRead s.cur t size .load addr with
      | .error e => .error e
      | .ok bs => .ok (.done ((s2.dropAsks s.cur).arrive d (loadValue size signed bs) hook addr))
  else
    let s2 := s1.drainFor t.key size (t.home == .host)
    if t.home = .tcm then
      let (bs, p) := s2.readAt s.cur.world t size
      .ok (.done ((s2.later3 d (loadValue size signed bs) p hook).setLdest d).retire)
    else .ok (.done ((s2.start hook (.load t size signed (s.xdest d)) t.obhead addr t.obhead).setLdest d).retire)

/-- A scalar load (R247). -/
def State.loadX (s : State) (d a : BitVec 5) (addr : Word) (size : Nat) (signed : Bool) (hook : BitVec 4) : Out :=
  s.attempt do
    s.strictX [a]
    failIf (hook == 0 && !inTcm s.cur addr) { code := cUNHOOKED, detail := addr }
    failIf (addr.toNat % size != 0) (alignTrap addr)
    let t ← translate s s.cur s.cur.level addr size .load true
    s.counting [a] (s.loadAt d addr size signed hook t)

/-- A store that has passed its checks, with its claim in element mode (R176, R247). -/
def State.storeAt (s : State) (data : List Byte) (poison : Bool) (addr : Word) (hook : BitVec 4) (t : Target) : Except Trap Issued :=
  let n := data.length
  let s1 := s.touch s.cur.world addr.toNat
  if s.rekeying t then .ok (.held (s.holdOn .rekey))
  else if t.isFar then
    match s.farNeed s.cur t n false true with
    | some (a, m) => .ok (.held ((s1.ask s.cur t a m).holdOn .far))
    | none =>
      if s.asking s.cur then .ok (.held (s1.holdOn .far))
      else match s.farClaims s.cur t n true .store addr with
      | .error e => .error e
      | .ok us =>
        let (s2, waits) := ((s1.dropAsks s.cur).drainAcq).farWrite s.cur t data poison us
        .ok (.done (if waits.isEmpty then s2.postNow hook else s2.start hook (.farStore waits addr) false addr).retire)
  else match claimTarget s1 t n with
  | .error i => .error (keystreamTrap (addr + BitVec.ofNat 64 i))
  | .ok s2 =>
    .ok (.done ((s2.drainFor t.key n).start hook (.store { target := t, data, poison }) false addr).retire)

/-- A scalar store (R247). -/
def State.storeX (s : State) (d a : BitVec 5) (addr : Word) (size : Nat) (hook : BitVec 4) : Out :=
  s.attempt do
    s.strictX [a, d]
    failIf (addr.toNat % size != 0) (alignTrap addr true)
    let t ← translate s s.cur s.cur.level addr size .store true
    s.counting [a] (s.storeAt (toBytes size (s.cur.x d).toNat) (s.cur.px d) addr hook t)

/-- What a release or ordered RMW at scope sys waits for: a late acknowledgement traps, an outstanding one holds (R74, R147). -/
def State.sysGate (s : State) (sc : BitVec 3) : Except Trap Bool :=
  if sc != 5 then .ok false
  else match s.cur.lateAck with
  | f :: _ => .error f.trap
  | [] => .ok s.unacked

/-- `strel` (R248). -/
def State.strelX (s : State) (d a : BitVec 5) (sc : BitVec 3) (hook : BitVec 4) : Out :=
  let addr := s.cur.x a
  s.attempt do
    s.strictX [a, d]
    failIf (addr.toNat % 8 != 0) (alignTrap addr true)
    let t ← translate s s.cur s.cur.level addr 8 .store true
    let wait ← s.sysGate sc
    if wait then .ok ((s.drainAll true).holdOn .ack)
    else s.counting [a] ((s.drainAll (sc == 5)).storeAt (toBytes 8 (s.cur.x d).toNat) (s.cur.px d) addr hook t)

/-- `ldacq` (R248). A far acquire holds the hart until its value has come (R198). An acquire of obhead is one at scope sys, whatever
scope it names (R372). -/
def State.ldacqX (s : State) (d a : BitVec 5) (sc : BitVec 3) (hook : BitVec 4) : Out :=
  let addr := s.cur.x a
  s.attempt do
    s.strictX [a]
    failIf (addr.toNat % 8 != 0) (alignTrap addr)
    let t ← translate s s.cur s.cur.level addr 8 .load true
    if t.isFar ∨ s.rekeying t then s.counting [a] (s.loadAt d addr 8 false hook t)
    else s.counting [a] (.ok (.done ((((s.touch s.cur.world addr.toNat).drainFor t.key 8 (t.home == .host)).start hook
      (.atomic none t 0 0 false (s.xdest d)) true addr (sc == 5 || t.obhead)).setLdest d).retire))

/-- Whether one more remote atomic to a home must wait (R144): 32 are outstanding, or the home could have forgotten one of them. -/
def State.amoFull (s : State) (dev : Nat) : Bool :=
  let rid := (s.peer dev).rid
  let out := s.farReqs.filter fun r => r.dev == dev && r.answer.isNone && (match r.ask with | .amo _ _ => true | _ => false)
  32 ≤ out.length || out.any fun r => 64 ≤ (rid - BitVec.ofNat 16 r.rid).toNat
/-- Sends a remote atomic (R144). -/
def State.askAmo (s : State) (h : Hart) (t : Target) (idx : Nat) (op : AmoOp) (arg cmp : Word) : State :=
  if s.amoFull t.dev then s else
  let rid := (s.peer t.dev).rid
  let m : Msg := .amo { rid, tag := t.tag h.world, addr := t.key, op, arg, cmp }
  let r : FarReq := { id := s.nextOp, core := h.core, ctx := h.ctx, dev := t.dev, rid := rid.toNat, ask := .amo t.key idx, msg := m, answer := none }
  (({ s with farReqs := s.farReqs ++ [r], nextOp := s.nextOp + 1 }).modPeer t.dev fun p => { p with rid := p.rid + 1 }).send t.dev m

/-- An `amo` or `cas` that has passed its checks (R81, R144, R176, R248). -/
def State.amoAt (s : State) (op : AmoOp) (d : BitVec 5) (addr arg cmp : Word) (poison sys : Bool) (hook : BitVec 4) (t : Target) :
    Except Trap Issued :=
  let s1 := (s.drainAll sys).touch s.cur.world addr.toNat
  if t.isFar then
    match s1.answer s.cur t.dev (.amo t.key 0) with
    | some (some (.old v)) => .ok (.done ((s1.dropAsks s.cur).arrive d v hook addr))
    | some (some (.fail c k)) => .error (failTrap k c .atomic addr)
    | some _ => .ok (.held (s1.holdOn .far))
    | none => .ok (.held ((s1.askAmo s.cur t 0 op arg cmp).holdOn .far))
  else match claimTarget s1 t 8 with
  | .error i => .error (keystreamTrap (addr + BitVec.ofNat 64 i))
  | .ok s2 => .ok (.done (((s2.drainFor t.key 8).start hook (.atomic (some op) t arg cmp poison (s.xdest d)) true addr sys).setLdest d).retire)

/-- `amo` and `cas` (R248); `c` is the register compared. -/
def State.amoX (s : State) (op : AmoOp) (d a b : BitVec 5) (sc : BitVec 3) (hook : BitVec 4) : Out :=
  let addr := s.cur.x a
  let srcs := if op = .cas then [a, b, d] else [a, b]
  s.attempt do
    s.strictX srcs
    failIf (addr.toNat % 8 != 0) (alignTrap addr true)
    let t ← translate s s.cur s.cur.level addr 8 .atomic true
    let wait ← s.sysGate sc
    if wait then .ok ((s.drainAll true).holdOn .ack)
    else if s.rekeying t then .ok (s.holdOn .rekey)
    else s.counting [a] (s.amoAt op d addr (s.cur.x b) (s.cur.x d) (s.cur.px b) (sc == 5) hook t)

/-! Far data of spans of addresses. -/

/-- The requests that a requester must still send to read spans of addresses (R143, R178). -/
def State.spanNeeds (s : State) (rq h : Hart) (l : Level) (spans : List (Nat × Nat)) : List (Target × FarAsk × (Nat → Msg)) :=
  (spans.flatMap fun p => blockPieces p.1 p.2).filterMap fun p =>
    match translate s h l (BitVec.ofNat 64 p.1) (chunkSize p.1 p.2) .load true with
    | .ok t => if t.isFar then (s.farNeed rq t p.2 true false).map fun a => (t, a.1, a.2) else none
    | .error _ => none
/-- Sends requests, as many as there are read tags (R143). -/
def State.askAll (s : State) (rq : Hart) (l : List (Target × FarAsk × (Nat → Msg))) : State :=
  (l.take 64).foldl (fun s (t, a, m) => s.ask rq t a m) s
/-- The read that a requester has sent and that holds n bytes of a far place: its place and length. -/
def State.farCover (s : State) (rq : Hart) (t : Target) (n : Nat) : Option (Nat × Nat) :=
  s.farReqs.findSome? fun r => if r.core == rq.core && r.ctx == rq.ctx && r.dev == t.dev then (match r.ask with
    | .read k m => if k ≤ t.key && t.key + n ≤ k + m then some (k, m) else none
    | _ => none) else none
/-- The data of a far place within a read that a requester has sent. -/
def State.farHeld (s : State) (rq : Hart) (t : Target) (n : Nat) (va : Word) : Except Trap (List Byte) :=
  match s.farCover rq t n with
  | some (k, m) => (s.farRead rq { t with key := k } m .load va).map fun bs => (bs.drop (t.key - k)).take n
  | none => .ok (List.replicate n 0)

end Sys2Proof.Machine
end

