-- ==== Sys2Proof/Machine/Batch.lean ====
section
/-! DEFINITION. The refresh batcher of a cluster (R124 to R126): gathering, closing, starting. -/
namespace Sys2Proof.Machine

def Batcher.fresh (clus : Nat) : Batcher := { clus, executing := none, gathering := none }
def State.batcher (s : State) (clus : Nat) : Batcher := (s.batchers.find? fun b => b.clus == clus).getD (.fresh clus)
def State.modBatcher (s : State) (clus : Nat) (f : Batcher → Batcher) : State :=
  { s with batchers := upsert (fun b => b.clus == clus) f (.fresh clus) s.batchers }

/-- A closed gathering batch starts when none executes (R124). -/
def Batcher.advance (b : Batcher) : Batcher :=
  match b.executing, b.gathering with
  | none, some g => if g.closed then { b with executing := some g, gathering := none } else b
  | _, _ => b
/-- Closes the gathering batch of a cluster. -/
def State.closeBatch (s : State) (clus : Nat) : State :=
  s.modBatcher clus fun b => ({ b with gathering := b.gathering.map fun g => { g with closed := true } } : Batcher).advance

/-- Whether a hart has a refresh in a batch. -/
def State.inBatch (s : State) (h : Hart) (b : Batch) : Bool := (s.opsOf h).any fun o => b.ops.contains o.id
/-- Whether a hart has a refresh gathering or executing (R126). -/
def State.refreshing (s : State) (h : Hart) : Bool :=
  let b := s.batcher (clusOf h.core)
  (match b.executing with | some x => s.inBatch h x | none => false) || (match b.gathering with | some x => s.inBatch h x | none => false)

/-- Holds the issuing hart at `wait`, `epop`, `slrecv` or a full VIQ: a gathering batch with a refresh of it closes (R124). -/
def State.holdClosing (s : State) (h : Hold) : State :=
  let clus := clusOf s.cur.core
  let s' := match (s.batcher clus).gathering with
    | some g => if s.inBatch s.cur g then s.closeBatch clus else s
    | none => s
  s'.holdOn h

end Sys2Proof.Machine
end

