-- ==== Sys2Proof/Machine/SleeveUnit.lean ====
section
/-! DEFINITION. The device's sleeve unit: directory, attached ends, buffers, forwarding entries (R148 to R154), and the commands
of a hart's sleeve channel as they start and complete (R328 to R334). -/
namespace Sys2Proof.Machine

/-! Cuffs (R148). -/
def cuffHome (c : Word) : Nat := (c.extractLsb' 55 9).toNat
def cuffIndex (c : Word) : Nat := (c.extractLsb' 40 15).toNat
def cuffRecv (c : Word) : Bool := c.getLsbD 39
def cuffWorld (c : Word) : BitVec 6 := c.extractLsb' 33 6
def cuffGen (c : Word) : Half := c.extractLsb' 0 32
def cuffId (c : Word) : SleeveId := { home := cuffHome c, index := cuffIndex c, world := (cuffWorld c).toNat }
def cuffWord (sl : SleeveId) (recv : Bool) (w : BitVec 6) (gen : Half) : Word :=
  BitVec.ofNat 9 sl.home ++ BitVec.ofNat 15 sl.index ++ BitVec.ofBool recv ++ w ++ 0#1 ++ gen

/-! Status codes (R154). -/
def slOK : Nat := 0
def slCUFF : Nat := 1
def slEMPTY : Nat := 2
def slCLOSED : Nat := 3
def slORPHAN : Nat := 4
def slBADCUFF : Nat := 5
def slLOOP : Nat := 6
def slNOENTRY : Nat := 7

def State.modSleeves (s : State) (f : Sleeves → Sleeves) : State := { s with sleeves := f s.sleeves }
/-- Applies a change to an attached end. -/
def State.modEnd (s : State) (sl : SleeveId) (recv : Bool) (f : SleeveEnd → SleeveEnd) : State :=
  s.modSleeves fun u => { u with ends := u.ends.map fun e => if e.sl == sl && e.recv == recv then f e else e }
def State.endOf (s : State) (sl : SleeveId) (recv : Bool) : Option SleeveEnd :=
  s.sleeves.ends.find? fun e => e.sl == sl && e.recv == recv
def State.dropEnd (s : State) (sl : SleeveId) (recv : Bool) : State :=
  s.modSleeves fun u => { u with ends := u.ends.filter fun e => !(e.sl == sl && e.recv == recv) }
def State.modDir (s : State) (i : Nat) (f : DirEntry → DirEntry) : State :=
  s.modSleeves fun u => { u with dir := u.dir.map fun e => if e.index == i then f e else e }
def State.dirOf (s : State) (i : Nat) : Option DirEntry := s.sleeves.dir.find? fun e => e.index == i && e.used

/-- The end that a cuff names at a hart, where the cuff is valid there (R148). -/
def State.validEnd (s : State) (h : Hart) (c : Word) : Option SleeveEnd :=
  match s.endOf (cuffId c) (cuffRecv c) with
  | some e => if e.owner == h.identity && e.gen == cuffGen c && cuffWorld c == h.world then some e else none
  | none => none

/-- A message to a sleeve's home; a home that is lost orphans both ends: those here, and by word to the device that an end here last
knew of, the other one (R152, log 78). -/
def State.toHome (s : State) (sl : SleeveId) (m : SleeveCtl) : State :=
  if (s.peer sl.home).lost then
    (s.sleeves.ends.filter fun e => e.sl == sl && e.loc != s.device).foldl (fun s e => s.send e.loc (.slc (.orphan sl (!e.recv))))
      (s.modSleeves fun u => { u with ends := u.ends.map fun e => if e.sl == sl then { e with orphan := true } else e })
  else s.send sl.home (.slc m)

/-- The item a receive end can deliver next (R149). -/
def SleeveEnd.head (e : SleeveEnd) : Option SleeveItem := e.buffer.find? fun i => i.seq == e.next
/-- How many items it can deliver in sequence, at most n. -/
def SleeveEnd.ready (e : SleeveEnd) : Nat → Nat
  | 0 => 0
  | n + 1 => match e.head with
    | some _ => 1 + SleeveEnd.ready { e with next := e.next + 1 } n
    | none => 0
/-- The final status of a receive end that has nothing to deliver next (R152, R333). -/
def SleeveEnd.final (e : SleeveEnd) : Option Nat :=
  if e.head.isSome then none
  else if e.peerClosed.any (· ≤ e.next) then some slCLOSED
  else if e.orphan then some slORPHAN else none
/-- The credits of a send end (R149). -/
def SleeveEnd.credits (e : SleeveEnd) : Nat := 64 + e.taken - e.next

/-! Opening, closing (R148, R152, R331, R334). -/

/-- The lowest free entry of the directory, with the generations that its next use takes. -/
def State.freeEntry (s : State) : Option (Nat × Half × Half) :=
  let used := (s.sleeves.dir.filter (·.used)).map (·.index)
  match (List.range 32768).find? fun k => !used.contains k with
  | none => none
  | some k => match s.sleeves.dir.find? fun e => e.index == k with
    | some e => some (k, e.sendGen + 1, e.recvGen + 1)
    | none => some (k, 1, 1)

/-- Opens a sleeve at a hart: the two cuffs (R331). -/
def State.openSleeve (s : State) (h : Hart) : Option (State × Word × Word) :=
  match s.freeEntry with
  | none => none
  | some (i, gs, gr) =>
    let sl : SleeveId := { home := s.device, index := i, world := h.world.toNat }
    let e : DirEntry := { index := i, used := true, world := h.world.toNat, sendGen := gs, recvGen := gr, sendDev := s.device, recvDev := s.device,
                          sendClosed := none, recvClosed := false, sendLost := false, recvLost := false, taken := 0, waiting := [] }
    let mk (recv : Bool) (gen : Half) : SleeveEnd :=
      { sl, recv, gen, owner := h.identity, next := 0, taken := 0, loc := s.device, buffer := [], peerClosed := none, orphan := false }
    some (s.modSleeves fun u => { u with dir := e :: u.dir.filter (·.index != i), ends := u.ends ++ [mk false gs, mk true gr] },
      cuffWord sl false h.world gs, cuffWord sl true h.world gr)

/-- Frees a directory entry once both ends are closed or lost (R152). -/
def State.freeDir (s : State) (i : Nat) : State :=
  s.modDir i fun e =>
    if (e.sendClosed.isSome || e.sendLost) && (e.recvClosed || e.recvLost) then { e with used := false } else e

/-- Cuffs among items that are discarded are lost: the other ends of their sleeves become orphans (R152). -/
def State.loseCuffs (s : State) (items : List SleeveItem) : State :=
  items.foldl (fun s i => match i.cuff with
    | some t => s.toHome t.sl (.orphan t.sl (!t.recv))
    | none => s) s

/-- Closes an attached end (R152). -/
def State.closeEnd (s : State) (e : SleeveEnd) : State :=
  let s := (s.dropEnd e.sl e.recv).toHome e.sl (.closed e.sl e.recv e.next)
  if e.recv then s.loseCuffs e.buffer else s

/-- A task's retirement closes every end attached to its harts (R152). -/
def State.closeTaskEnds (s : State) (queue num : Nat) : State :=
  let u := (s.sleeves.ends.filter fun e => e.owner.queue == queue && e.owner.num == num).foldl State.closeEnd s
  { u with sleeves := { u.sleeves with resend := u.sleeves.resend.filter fun e => !(e.1.queue == queue && e.1.num == num) } }

/-! Sending (R149, R150, R328). -/

/-- The sleeve commands of a hart in push order. -/
def State.sleeveOps (s : State) (core ctx : Nat) : List Op :=
  s.ops.filter fun o => o.core == core && o.ctx == ctx && (match o.kind with | .sleeve _ _ => true | _ => false)

/-- slstat as a completed command leaves it (R330). -/
def slstatWord (op code : Nat) : Word := BitVec.ofNat 64 (op * 256 + code)

/-- Why a send end can send nothing (R152, R332). -/
def SleeveEnd.sendFinal (e : SleeveEnd) : Option Nat :=
  if e.peerClosed.isSome then some slCLOSED else if e.orphan then some slORPHAN else none

/-- Sends an item from a send end. -/
def State.sendItem (s : State) (e : SleeveEnd) (v : Word) (p : Bool) (cuff : Option Transit) : State :=
  (s.modEnd e.sl false fun x => { x with next := x.next + 1 }).send e.loc
    (.sli { sl := e.sl, seq := e.next, value := if p then 0 else v, poison := p, cuff })

/-- Takes an end into transit (R150): its record, with a forwarding entry for a receive end. -/
def State.transit (s : State) (e : SleeveEnd) : State × Transit :=
  let t : Transit := { sl := e.sl, recv := e.recv, world := e.owner.world.toNat, gen := e.gen.toNat, next := e.next, loc := e.loc, taken := e.taken }
  let s := s.dropEnd e.sl e.recv
  if e.recv then
    (s.modSleeves fun u => { u with forwards := u.forwards ++
      [{ sl := e.sl, gen := e.gen.toNat, base := e.next, items := e.buffer.filter (·.seq ≥ e.next), sent := [], dest := none, upto := none }] }, t)
  else (s, t)

/-- Starts the oldest sleeve command of a hart where it sends an item and a credit is there (R149, R332). -/
def State.startSleeve (s : State) (core ctx : Nat) : State :=
  match s.hartAt core ctx, (s.sleeveOps core ctx).head? with
  | some h, some o =>
    let keep (k : OpKind) (s : State) : State := { s with ops := s.ops.map fun p => if p.id == o.id then { p with kind := k } else p }
    match o.kind with
    | .sleeve (.send c v p none _) d =>
      match s.validEnd h c with
      | some e =>
        if e.sendFinal.isSome ∨ e.credits = 0 then s
        else keep (.sleeve (.send c v p (some e.next) false) d) (s.sendItem e v p none)
      | none => s
    | .sleeve (.pass c v none _) d =>
      match s.validEnd h c, s.validEnd h v with
      | some e, some x =>
        if e.sl = x.sl ∨ e.sendFinal.isSome ∨ e.credits = 0 then s
        else
          let (s, t) := s.transit x
          keep (.sleeve (.pass c v (some e.next) false) d) (s.sendItem e v false (some t))
      | _, _ => s
    | _ => s
  | _, _ => s

/-- A credit or a final status has come for a send end: a send of its holder that waits for it goes on (R149). -/
def State.wakeSender (s : State) (sl : SleeveId) : State :=
  match s.endOf sl false with
  | some e => (match s.activeHarts.find? fun h => h.identity == e.owner with
    | some h => s.startSleeve h.core h.ctx
    | none => s)
  | none => s

/-! Arrival of items and control messages (R149 to R152). -/

/-- Forwards what the forwarding entry of a gen holds, and drops it when nothing below `upto` is left (R151). -/
def State.forward (s : State) (sl : SleeveId) (gen : Nat) : State :=
  match s.sleeves.forwards.find? fun f => f.sl == sl && f.gen == gen && f.dest.isSome with
  | none => s
  | some f =>
    let d := f.dest.getD s.device
    let s := f.items.foldl (fun s i => s.send d (.sli i)) s
    let f' : Forward := { f with items := [], sent := f.items.map (·.seq) ++ f.sent }
    let rest := s.sleeves.forwards.filter fun g => !(g == f)
    let keep : Bool := match f'.upto with
      | some n => !(List.range (n - f'.base)).all fun i => f'.sent.contains (f'.base + i)
      | none => true
    s.modSleeves fun u => { u with forwards := if keep then rest ++ [f'] else rest }

/-- Marks the send of an item as landed. -/
def State.markLanded (s : State) (sl : SleeveId) (seq : Nat) : State :=
  { s with ops := s.ops.map fun o => match o.kind with
      | .sleeve (.send c v p (some n) l) d =>
        { o with kind := .sleeve (.send c v p (some n) (l || (cuffId c == sl && n == seq))) d }
      | .sleeve (.pass c v (some n) l) d =>
        { o with kind := .sleeve (.pass c v (some n) (l || (cuffId c == sl && n == seq))) d }
      | _ => o }

/-- The sender of an item hears that it has landed: a cuff item's sender by way of the home, since the item may have come through
forwarding entries (R332). -/
def State.tellLanded (s : State) (src : Nat) (i : SleeveItem) : State :=
  if i.cuff.isSome then s.toHome i.sl (.landed i.sl i.seq) else s.send src (.slc (.landed i.sl i.seq))
/-- An item arrives at a receive buffer or a forwarding entry (R149, R150); with neither, the receive end is closed and a cuff
is lost. A forwarding entry completes a send, but not a pass (R332). -/
def State.itemArrives (s : State) (src : Nat) (i : SleeveItem) : State :=
  match s.endOf i.sl true with
  | some _ => (s.modEnd i.sl true fun e => { e with buffer := e.buffer ++ [i], loc := src }).tellLanded src i
  | none =>
    match s.sleeves.forwards.find? fun f => f.sl == i.sl && f.upto.all (i.seq < ·) with
    | some f =>
      let s := s.modSleeves fun u =>
        { u with forwards := u.forwards.map fun g => if g == f then { g with items := g.items ++ [i] } else g }
      if i.cuff.isSome then s.forward i.sl f.gen else (s.forward i.sl f.gen).tellLanded src i
    | none => (s.loseCuffs [i]).tellLanded src i

/-- The home handles ATTACH (R151): a gen that is not above the directory's is ignored. -/
def State.attach (s : State) (src : Nat) (sl : SleeveId) (recv : Bool) (gen : Nat) : State :=
  match s.dirOf sl.index with
  | none => s
  | some e =>
    if recv then
      if gen ≤ e.recvGen.toNat then s else
      let s := s.modDir sl.index fun e => { e with recvGen := BitVec.ofNat 32 gen, recvDev := src, waiting := e.waiting ++ [(e.recvDev, e.recvGen.toNat)] }
      let s := s.send e.recvDev (.slc (.forward sl src e.recvGen.toNat))
      match e.sendClosed with
      | some n => (s.send src (.slc (.closed sl false n))).send e.recvDev (.slc (.upto sl n e.recvGen.toNat))
      | none => (if e.sendLost then s.send src (.slc (.orphan sl true)) else s).send e.sendDev (.slc (.location sl src gen))
    else
      if gen ≤ e.sendGen.toNat then s else
      let s := s.modDir sl.index fun e => { e with sendGen := BitVec.ofNat 32 gen, sendDev := src }
      let s := (s.send src (.slc (.location sl e.recvDev e.recvGen.toNat))).send src (.slc (.credit sl e.taken))
      if e.recvClosed then s.send src (.slc (.closed sl true 0))
      else if e.recvLost then s.send src (.slc (.orphan sl false)) else s

/-- A sleeve control message (R149, R151, R152). The home serialises moves by their gens: the answer of a send end's holder settles the
forwarding entries that the end had left before the gen whose location it answers. -/
def State.sleeveCtl (s : State) (src : Nat) (m : SleeveCtl) : State :=
  match m with
  | .attach sl recv gen _ => s.attach src sl recv gen
  | .location sl dev gen =>
    match s.endOf sl false with
    | some e => (s.modEnd sl false fun e => { e with loc := dev }).toHome sl (.next sl e.next gen)
    | none => s
  | .forward sl dev gen =>
    (s.modSleeves fun u => { u with forwards := u.forwards.map fun f =>
      if f.sl == sl && f.gen == gen then { f with dest := some dev } else f }).forward sl gen
  | .next sl n gen =>
    match s.dirOf sl.index with
    | some e =>
      let s := (e.waiting.filter fun d => d.2 < gen).foldl (fun s d => s.send d.1 (.slc (.upto sl n d.2))) s
      s.modDir sl.index fun e => { e with waiting := e.waiting.filter fun d => gen ≤ d.2 }
    | none => s
  | .upto sl n gen =>
    (s.modSleeves fun u => { u with forwards := u.forwards.map fun f =>
      if f.sl == sl && f.gen == gen then { f with upto := some n } else f }).forward sl gen
  | .landed sl seq =>
    match (if sl.home = s.device then s.dirOf sl.index else none) with
    | some e => if e.sendDev = s.device then s.markLanded sl seq else s.send e.sendDev (.slc (.landed sl seq))
    | none => s.markLanded sl seq
  | .credit sl n =>
    if sl.home = s.device then
      match s.dirOf sl.index with
      | some e =>
        let s := s.modDir sl.index fun e => { e with taken := max e.taken n }
        if e.sendDev = s.device then (s.modEnd sl false fun x => { x with taken := max x.taken n }).wakeSender sl
        else s.send e.sendDev (.slc (.credit sl n))
      | none => s
    else (s.modEnd sl false fun x => { x with taken := max x.taken n }).wakeSender sl
  | .closed sl recv n =>
    let mark (s : State) : State := s.modEnd sl (!recv) fun x => { x with peerClosed := some n }
    if sl.home = s.device then
      match s.dirOf sl.index with
      | some e =>
        let s := s.modDir sl.index fun e => if recv then { e with recvClosed := true } else { e with sendClosed := some n }
        let dest := if recv then e.sendDev else e.recvDev
        let s := if recv then s else e.waiting.foldl (fun s d => s.send d.1 (.slc (.upto sl n d.2))) s
        (if dest = s.device then mark s else s.send dest (.slc (.closed sl recv n))).freeDir sl.index
      | none => s
    else mark s
  | .orphan sl recv =>
    let mark (s : State) : State := s.modEnd sl recv fun x => { x with orphan := true }
    if sl.home = s.device then
      match s.dirOf sl.index with
      | some e =>
        let s := s.modDir sl.index fun e => if recv then { e with sendLost := true } else { e with recvLost := true }
        let dest := if recv then e.recvDev else e.sendDev
        (if dest = s.device then mark s else s.send dest (.slc (.orphan sl recv))).freeDir sl.index
      | none => s
    else mark s

/-! Commands (R328). -/

/-- The status of an item on its way whose receive end has been lost (R152, R332). -/
def State.sendLost (s : State) (h : Hart) (cuff : Word) : Option Nat :=
  match s.validEnd h cuff with
  | some e => if e.orphan then some slORPHAN else none
  | none => none
/-- The status with which a hart's oldest sleeve command can complete now, if it can. -/
def State.sleeveStatus (s : State) (h : Hart) (c : SleeveCmd) : Option Nat :=
  match c with
  | .opened _ => some (if s.freeEntry.isSome then slOK else slNOENTRY)
  | .send cuff _ _ sent landed =>
    if sent.isSome then (if landed then some slOK else s.sendLost h cuff)
    else match s.validEnd h cuff with
    | none => some slBADCUFF
    | some e => e.sendFinal
  | .pass cuff v sent landed =>
    if sent.isSome then (if landed then some slOK else s.sendLost h cuff)
    else match s.validEnd h cuff, s.validEnd h v with
    | some e, some x => if e.sl = x.sl then some slLOOP else e.sendFinal
    | _, _ => some slBADCUFF
  | .close cuff => some (if (s.validEnd h cuff).isSome then slOK else slBADCUFF)
  | .poll cuff => match s.validEnd h cuff with
    | none => some slBADCUFF
    | some e => if e.ready 64 ≥ 1 then some slOK else some (e.final.getD slEMPTY)

/-- The function number of a command (R328). -/
def SleeveCmd.fn : SleeveCmd → Nat
  | .opened _ => 0
  | .send .. => 1
  | .pass .. => 3
  | .close _ => 4
  | .poll _ => 5

/-- Completes a hart's oldest sleeve command where it can (R328, R331 to R334): its effect, slstat, its post. -/
def State.completeSleeve (s : State) (o : Op) : Option State :=
  match s.hartAt o.core o.ctx, o.kind with
  | some h, .sleeve c d =>
    match s.sleeveStatus h c with
    | none => none
    | some code =>
      let s := match c with
        | .opened d2 => match s.openSleeve h with
          | some (s, a, b) => (s.deliver o d a false).deliver o d2 b false
          | none => (s.deliver o d 0 false).deliver o d2 0 false
        | .close cuff => match s.validEnd h cuff with
          | some e => s.closeEnd e
          | none => s
        | .poll cuff => match s.validEnd h cuff with
          | some e => s.deliver o d (BitVec.ofNat 64 (e.ready 64)) false
          | none => s.deliver o d 0 false
        | _ => s
      let s := s.modHart o.core o.ctx fun h => { h with csr := { h.csr with slstat := slstatWord c.fn code } }
      some ((s.finish o).startSleeve o.core o.ctx)
  | _, _ => none

/-- What `slrecv` can answer now at a hart: the state, the value, its poison and the status (R333). -/
def State.receive (s : State) (h : Hart) (cuff : Word) : Option (State × Word × Bool × Nat) :=
  match s.validEnd h cuff with
  | none => some (s, 0, false, slBADCUFF)
  | some e =>
    match e.head with
    | some i =>
      let s := (s.modEnd e.sl true fun x => { x with next := x.next + 1, buffer := x.buffer.filter (·.seq != e.next) }).toHome e.sl
        (.credit e.sl (e.next + 1))
      match i.cuff with
      | none => some (s, i.value, i.poison, slOK)
      | some t =>
        let gen := BitVec.ofNat 32 (t.gen + 1)
        let x : SleeveEnd := { sl := t.sl, recv := t.recv, gen, owner := h.identity, next := t.next, taken := t.taken, loc := t.loc,
                               buffer := [], peerClosed := none, orphan := false }
        let s := (s.modSleeves fun u => { u with ends := u.ends ++ [x] }).toHome t.sl (.attach t.sl t.recv (t.gen + 1) t.next)
        some (s, cuffWord t.sl t.recv h.world gen, false, slCUFF)
    | none => match e.final with
      | some code => some (s, 0, false, code)
      | none => none

end Sys2Proof.Machine
end

