-- ==== Sys2Proof/Machine/Sched.lean ====
section
/-! DEFINITION. Launch packets, queues, dispatch, tasks and their ends (R101 to R115, R164, R186, R204, R205, R399, R405). -/
namespace Sys2Proof.Machine

/-! The launch packet (R101 to R103). -/
def pkEntry (p : BitVec 512) : Word := p.extractLsb' 0 64
def pkCount (p : BitVec 512) : Word := p.extractLsb' 64 64
def pkLtab (p : BitVec 512) : Word := p.extractLsb' 128 64
def pkRes (p : BitVec 512) : Word := p.extractLsb' 192 64
def pkWev (p : BitVec 512) : Word := p.extractLsb' 256 64
def pkDev (p : BitVec 512) : Word := p.extractLsb' 320 64
def pkArg0 (p : BitVec 512) : Word := p.extractLsb' 384 64
def pkArg1 (p : BitVec 512) : Word := p.extractLsb' 448 64
def pkQueue (p : BitVec 512) : Nat := ((pkRes p).extractLsb' 56 8).toNat
def pkWorld (p : BitVec 512) : BitVec 6 := (pkRes p).extractLsb' 50 6
def pkClass (p : BitVec 512) : Nat := ((pkRes p).extractLsb' 48 2).toNat
def pkBar (p : BitVec 512) : Bool := (pkRes p).getLsbD 47
def pkSpad (p : BitVec 512) : Nat := ((pkRes p).extractLsb' 32 15).toNat
def pkTcm (p : BitVec 512) : Nat := ((pkRes p).extractLsb' 24 7).toNat
def pkLanes (p : BitVec 512) : Nat := 4 * 2 ^ ((pkRes p).extractLsb' 20 2).toNat
def pkHpc (p : BitVec 512) : Nat := ((pkRes p).extractLsb' 16 4).toNat
def evOn (e : Word) : Bool := e.getLsbD 63
def evCnt (e : Word) : BitVec 15 := e.extractLsb' 48 15
def evAddr (e : Word) : Word := e &&& 0xFFFFFFFFFFF8#64

/-! Accesses of the dispatcher (R405): the task's world at user level; windows and reserved addresses fail. -/

/-- Translates a dispatcher's access. -/
def State.dispatchTarget (s : State) (w : BitVec 6) (va : Word) (acc : Acc) : Except Trap Target :=
  if va.toNat < 0x2000000 ∨ va.toNat ≥ 2 ^ 55 then .error (accessTrap 8 acc va)
  else match leafOf s w va.toNat with
  | .error (c, l) => .error (memTrap cPAGE c l false acc va)
  | .ok (p, l) => leafChecks s .user w p l va acc true
/-- Whether the home of a far place lets a dispatcher's access through: what the home's granule table says comes from outside, a
free choice (R170, R405, log 75). -/
def State.homeLets (s : State) (t : Target) : Bool := !t.isFar || Config.pick s.free (2 ^ 35 + t.key) % 2 = 1
/-- The check of a dispatcher's access (R405). -/
def State.dispatchReach (s : State) (w : BitVec 6) (va : Word) (acc : Acc) : Except Trap Target :=
  match s.dispatchTarget w va acc with
  | .error t => .error t
  | .ok t => if s.homeLets t then .ok t else .error (memTrap cWORLD 3 3 true acc va)
/-- Reads a dword for the dispatcher; data on another device comes from outside: a free value (log 75). -/
def State.dispatchRead (s : State) (w : BitVec 6) (va : Word) : Except Trap Word :=
  match s.dispatchReach w va .load with
  | .error t => .error t
  | .ok t =>
    if t.isFar then .ok (BitVec.ofNat 64 (Config.pick s.free (2 ^ 34 + t.key)))
    else .ok (BitVec.ofNat 64 (ofBytes (s.readAt w t 8).1))

/-- The levels of a loop table: args, then kind and extent of each level (R105). -/
structure LoopTab where
  args : Word
  levels : List (Nat × Nat)
deriving DecidableEq, Repr
def prodOf (l : List Nat) : Nat := l.foldl (· * ·) 1
def LoopTab.ofKind (t : LoopTab) (k : Nat) : List Nat := (t.levels.filter fun l => l.1 == k).map (·.2)
def LoopTab.dies (t : LoopTab) : Nat := prodOf (t.ofKind 2)
def LoopTab.cores (t : LoopTab) : Nat := prodOf (t.ofKind 1)
def LoopTab.temps (t : LoopTab) : List Nat := t.ofKind 0
def LoopTab.spatial (t : LoopTab) : List (Nat × Nat) := t.levels.filter fun l => l.1 != 0

/-- Parses and checks eight dwords (R105). -/
def parseLoopTab (d : List Word) (e hpc : Nat) : Option LoopTab :=
  let w (i : Nat) : Word := d.getD i 0
  let n := (w 1).toNat
  if n = 0 ∨ 6 < n then none else
  let lv := (List.range n).map fun j => (((w (2 + j)).extractLsb' 62 2).toNat, ((w (2 + j)).extractLsb' 0 48).toNat)
  let t : LoopTab := { args := w 0, levels := lv }
  let resOk := (List.range 6).all fun j => if j < n then (w (2 + j)).extractLsb' 48 14 == 0 else w (2 + j) == 0
  let kinds := lv.all fun l => l.1 != 3 && 1 ≤ l.2
  let order := (lv.dropWhile fun l => l.1 != 0).all fun l => l.1 == 0
  if resOk && kinds && order && t.dies * t.cores * prodOf t.temps == e && t.dies ≤ 8 && t.cores ≤ 96 * hpc then some t else none

/-- The task's loop table, read as R405 states; ltab 0 is one temporal level over E, which no check of R104 bounds: a count past 2^48
is accepted whole (log 73). -/
def State.loopTab (s : State) (p : BitVec 512) : Option LoopTab :=
  if pkLtab p = 0 then some { args := 0, levels := [(0, (pkCount p).toNat)] }
  else if (pkLtab p).toNat % 64 != 0 then none
  else
    let reads := (List.range 8).map fun i => s.dispatchRead (pkWorld p) (pkLtab p + BitVec.ofNat 64 (8 * i))
    if reads.all fun r => match r with | .ok _ => true | .error _ => false then
      parseLoopTab (reads.map fun r => match r with | .ok v => v | .error _ => 0) (pkCount p).toNat (pkHpc p)
    else none

/-- The checks of R104; 0 for a packet that passes. `launcher` is the launching hart's world for a device-side launch. -/
def State.packetCheck (s : State) (p : BitVec 512) (launcher : Option (BitVec 6)) : Nat :=
  let r := pkRes p
  let q := s.queue (pkQueue p)
  let w := s.worlds.getD (pkWorld p).toNat .reset
  let units (lo : Nat) : Nat := (w.spres.extractLsb' lo 9).toNat
  let evBad (e : Word) (done : Bool) : Bool := e.extractLsb' 0 3 != 0 || (!evOn e && e != 0) || (done && e.extractLsb' 48 15 != 0)
  let unreach (e : Word) (acc : Acc) : Bool := evOn e && match s.dispatchReach (pkWorld p) (evAddr e) acc with
    | .ok _ => false
    | .error _ => true
  if r.getLsbD 31 || r.extractLsb' 22 2 != 0 || r.extractLsb' 0 16 != 0 || evBad (pkWev p) false || evBad (pkDev p) true then 1
  else if !q.bound || q.world != pkWorld p || q.cls != pkClass p || w.quarantined ||
      (match launcher with | some x => x != pkWorld p | none => false) then 2
  else if 32 < pkHpc p * pkLanes p || 64 < pkHpc p * pkTcm p || pkHpc p == 0 || pkTcm p == 0 then 3
  else if 64 * units 55 < pkSpad p + 64 * (units 46 + units 29) ||
      (units 46 != 0 && 64 * (w.spres.extractLsb' 38 8).toNat < pkSpad p) then 4
  else if (pkEntry p).toNat % 4 != 0 || pkCount p == 0 then 5
  else if (s.loopTab p).isNone then 6
  else if unreach (pkWev p) .load || unreach (pkDev p) .atomic then 7
  else 0

/-! Retirement (R109, R186). -/

/-- Sends a far done increment under the next id of its home. -/
def State.sendDone (s : State) (t : Target) (q : AmoReq) : State :=
  let rid := (s.peer t.dev).rid
  let m : Msg := .amo { q with rid }
  let r : FarReq := { id := s.nextOp, core := 768, ctx := 0, dev := t.dev, rid := rid.toNat, ask := .amo t.key 0, msg := m, answer := none }
  (({ s with farReqs := s.farReqs ++ [r], nextOp := s.nextOp + 1 }).modPeer t.dev fun p => { p with rid := p.rid + 1 }).send t.dev m
/-- The first far done increment that waits for room at its home and has it now (R144). -/
def State.doneFirst (s : State) : Option State :=
  (s.sched.dones.find? fun e => !s.amoFull e.1.dev).map fun e =>
    ({ s with sched := { s.sched with dones := s.sched.dones.erase e } }).sendDone e.1 e.2
/-- Increments a done event as an atomic of the task's world (R103, R405); a failure drops the increment and counts a violation,
where the packet had been enqueued. -/
def State.postDone (s : State) (w : BitVec 6) (e : Word) (enqueued : Bool) : State :=
  if !evOn e then s else
  let drop := if enqueued then s.violation w.toNat else s
  match s.dispatchTarget w (evAddr e) .atomic with
  | .error _ => drop
  | .ok t =>
    if t.isFar then
      let q : AmoReq := { rid := 0, tag := t.tag w, addr := t.key, op := .add, arg := 1, cmp := 0 }
      if !s.amoFull t.dev then s.sendDone t q else { s with sched := { s.sched with dones := s.sched.dones ++ [(t, q)] } }
    else match claimTarget s t 8 with
    | .error _ => drop
    | .ok s => (s.performAtomic { s.cur with world := w } (some .add) t 1 0 false).1

/-- Advances the retired-through counter over the tasks that have retired (R109). -/
def Queue.settle (q : Queue) : Nat → Queue
  | 0 => q
  | n + 1 => if q.done.contains q.through then Queue.settle { q with through := q.through + 1, done := q.done.filter (· != q.through) } n else q
/-- A task of a queue has retired. -/
def State.queueRetire (s : State) (q num : Nat) : State :=
  s.modQueue q fun x => Queue.settle { x with done := num :: x.done } (x.done.length + 1)

/-- A packet that never runs retires: done event and record with its end code (R104, R186, R188). The done event is posted in the
packet's own world, the record goes to the queue's, where the two differ (check 2; log 73). -/
def State.retireUnrun (s : State) (p : BitVec 512) (q num code : Nat) (tenq : Word) (enqueued : Bool) : State :=
  let s := s.postDone (pkWorld p) (pkDev p) enqueued
  let s := s.appendRecord (s.queue q).world.toNat fun n =>
    jobRecord s.fwm n q num (s.queue q).world.toNat code 0 false false tenq 0 s.time (s.queue q).code 0 0 0 0
  s.queueRetire q num
/-- A refused packet retires at once, counted at its queue (R104, R382). -/
def State.refuse (s : State) (p : BitVec 512) (q num : Nat) (tenq : Word) (enqueued : Bool) : State :=
  (s.modQueue q fun x => { x with sref := true, rcnt := x.rcnt + 1 }).retireUnrun p q num 2 tenq enqueued

/-- Enqueues a packet that has passed its checks. -/
def State.enqueue (s : State) (p : BitVec 512) (q : Nat) : State :=
  s.modQueue q fun x => { x with slots := x.slots ++ [{ packet := p, tenq := s.time, num := x.count }], count := x.count + 1 }

/-- A host write of 64 bytes to a launch window (R104, R107, R382): dropped, refused or enqueued. -/
def State.hostLaunch (s : State) (q off : Nat) (data : List Byte) : State :=
  let x := s.queue q
  if off != 0 ∨ data.length != 64 ∨ !x.bound then s.dropLaunch q false
  else if 64 ≤ x.slots.length then s.dropLaunch q true
  else
    let p := BitVec.ofNat 512 (ofBytes data)
    match s.packetCheck p none with
    | 0 => if 64 ≤ (s.queue (pkQueue p)).slots.length then s.dropLaunch (pkQueue p) true else s.enqueue p (pkQueue p)
    | _ => (s.modQueue q fun x => { x with count := x.count + 1 }).refuse p q x.count s.time false

/-- Erases a range of keys: memory handed to a new owner is zeroed (R164). -/
def Memory.erase (m : Memory) (lo n : Nat) : Memory :=
  { m with bytes := m.bytes.filter fun c => !(lo ≤ c.1 && c.1 < lo + n),
           poison := m.poison.filter fun k => !(lo ≤ 8 * k && 8 * k < lo + n) }

/-- The worlds whose harts share a core, in rising order. -/
def State.worldsOn (s : State) (core : Nat) : List Nat :=
  (List.range 64).filter fun w => s.activeHarts.any fun h => h.core == core && h.world.toNat == w
/-- The owners of a core's eight L1 ways for the worlds on it (R163); a way that goes to none of them keeps its last owner. -/
def wayOwners (ws old : List Nat) : List Nat :=
  let per := if ws.length ≤ 1 then 8 else if ws.length = 2 then 4 else if ws.length ≤ 4 then 2 else 1
  (List.range 8).map fun j => (ws[j / per]?).getD (old.getD j 64)
/-- The ways of a core are divided anew (R163): a world none of whose ways stays with it loses its fetched words there. -/
def State.divideWays (s : State) (core : Nat) : State :=
  let old := ((s.mem.ways.find? fun e => e.1 == core).map (·.2)).getD (List.replicate 8 64)
  let new := wayOwners (s.worldsOn core) old
  if new = old then s else
  let keeps (w : Nat) : Bool := (old.zip new).any fun e => e.1 == w && e.2 == w
  let lost := (old.filter fun w => w < 64 && !keeps w).eraseDups.map fun w =>
    ({ world := BitVec.ofNat 6 w, sc := 1, core, ctx := 0, base := 0, len := 2 ^ 55, stamp := s.clock } : Icinv)
  { s with mem := { s.mem with icinvs := lost ++ s.mem.icinvs, ways := (core, new) :: s.mem.ways.filter fun e => e.1 != core } }

/-- Withdraws the work in flight of the hart in a core and context, but for what a test keeps, with its requests. -/
def State.cancelOps (s : State) (core ctx : Nat) (keep : OpKind → Bool) : State :=
  let drop (o : Op) : Bool := o.core == core && o.ctx == ctx && !keep o.kind
  let gone := (s.ops.filter drop).map (·.id)
  let strip (b : Batch) : Batch := { b with ops := b.ops.filter fun i => !gone.contains i }
  let stripAll (b : Batcher) : Batcher := { b with executing := b.executing.map strip, gathering := b.gathering.map strip }
  { s with ops := s.ops.filter fun o => !drop o,
           farReqs := s.farReqs.filter fun r => !(r.core == core && r.ctx % 8 == ctx),
           batchers := s.batchers.map stripAll }
/-- Releases the scratchpad allocations of a task none of whose harts is active: their contents are lost (R399, log 99). -/
def State.freeAllocs (s : State) (q num : Nat) : State :=
  let mine (a : Alloc) : Bool := a.queue == q && a.num == num
  if s.activeHarts.any fun h => h.queue == q && h.num == num then s else
  { s with mem := (s.sched.allocs.filter mine).foldl (fun m a => m.erase (spadKey a.clus a.off) a.size) s.mem,
           sched := { s.sched with allocs := s.sched.allocs.filter fun a => !mine a } }
/-- Ends the hart in a core and context: panel, TCM slice and context are released, its work in flight is withdrawn; with the last
active hart of its task go the task's allocations. -/
def State.releaseHart (s : State) (core ctx : Nat) : State :=
  let u := ((s.cancelOps core ctx fun _ => false).modHart core ctx fun h =>
    { h with active := false, hold := none, pend := [], preempt := false, timer := false, alarm := none,
             preempted := false, convoy := none, closed := [], former := none, claimed := 0, faults := [], lateAck := [] }).divideWays core
  match s.hartAt core ctx with
  | some h => u.freeAllocs h.queue h.num
  | none => u

/-- Retires a task whose harts have ended: sleeve ends close, save counters are freed, the record is appended, the done event
is posted (R109, R152, R186, R210). -/
def State.retireTask (s : State) (t : Task) (code : Nat) : State :=
  let w := s.worlds.getD t.world.toNat .reset
  let s := s.closeTaskEnds t.queue t.num
  let s := { s with thatum := { s.thatum with saves := s.thatum.saves.filter fun c => !(c.owner.queue == t.queue && c.owner.num == t.num) },
                    sched := { s.sched with tasks := s.sched.tasks.filter fun x => !(x.queue == t.queue && x.num == t.num),
                                            parked := s.sched.parked.filter fun x => !(x.queue == t.queue && x.num == t.num) } }
  let s := s.appendRecord t.world.toNat fun n =>
    jobRecord s.fwm n t.queue t.num t.world.toNat code t.profiles t.unmeasured t.poisoned t.tenq t.tstart s.time (s.queue t.queue).code
      t.npois (w.ecorr - t.ecorr0) (w.eunc - t.eunc0) (w.elink - t.elink0)
  (s.postDone t.world (pkDev t.packet) true).queueRetire t.queue t.num

/-- A hart of a task has ended; the task retires with its last hart (R109, R258). -/
def State.endHart (s : State) (h : Hart) : State :=
  let s := s.releaseHart h.core h.ctx
  match s.taskOf h with
  | none => s
  | some t =>
    if t.left ≤ 1 then s.retireTask t t.code
    else { s with sched := { s.sched with tasks := s.sched.tasks.map fun x =>
             if x.queue == t.queue && x.num == t.num then { x with left := x.left - 1 } else x } }

/-- Parks the hart (R204): its identity and panel stay with the dispatcher that started its task (log 29); the task does not
retire. -/
def State.parkHart (s : State) (h : Hart) : State :=
  let (cls, disp) := match s.taskOf h with | some t => (t.cls, t.disp) | none => (3, stackOf h.core)
  let p : Parked := { queue := h.queue, num := h.num, ord := h.ord, world := h.world, cls, lanes := h.lanes, tcmSize := h.tcmSize,
                      spadSize := h.spadSize, sresume := h.csr.sresume, disp, clus := clusOf h.core, tile := h.lane0 == 0,
                      samples := h.samples, ptab := h.ct.ptab }
  let s := s.releaseHart h.core h.ctx
  { s with sched := { s.sched with parked := s.sched.parked ++ [p] } }

/-- The harts of a task that are active. -/
def State.hartsOf (s : State) (t : Task) : List Hart := s.activeHarts.filter fun h => h.queue == t.queue && h.num == t.num
/-- Stops a hart of a task that is ended: the accesses that it has issued are performed, its engine commands are cancelled, its
convoy ends; it stays only while far writes await their acknowledgements (R103, R109, R188). -/
def State.stopHart (s : State) (h : Hart) : State :=
  let u := (((s.select h.core h.ctx).drainAll true).closeConvoy true).select s.cur.core s.cur.ctx
  let v := (u.cancelOps h.core h.ctx OpKind.awaitsAcks).settleConvoys h.core h.ctx
  if (v.opsOf h).isEmpty then v.releaseHart h.core h.ctx
  else v.modHart h.core h.ctx fun h => { h with hold := some .ending, pend := [], preempt := false, timer := false, alarm := none,
                                                preempted := false, faults := [], lateAck := [] }
/-- Ends a task with an end code (R109, R188, R204): it retires at once where none of its harts awaits an acknowledgement, else with
the last of them, so that its done event is a release over all their events (R103). A task that is being ended keeps its code. -/
def State.endTask (s : State) (t : Task) (code : Nat) : State :=
  if t.code != 0 then s else
  let s := (s.hartsOf t).foldl State.stopHart s
  let t := (s.sched.tasks.find? fun x => x.queue == t.queue && x.num == t.num).getD t
  if (s.hartsOf t).isEmpty then s.retireTask t code
  else
    let is (q n : Nat) : Bool := q == t.queue && n == t.num
    { s with sched := { s.sched with
        tasks := s.sched.tasks.map fun x => if is x.queue x.num then { x with left := (s.hartsOf t).length, code } else x,
        parked := s.sched.parked.filter fun x => !is x.queue x.num } }

/-! Placement (R16, R20, R21, R106). -/

/-- The bits of the lanes that the active harts of a core own. -/
def laneBits (lane0 lanes : Nat) : Nat := 2 ^ lane0 * (2 ^ lanes - 1)
def State.lanesTaken (s : State) (core : Nat) : Nat :=
  (s.activeHarts.filter fun h => h.core == core).foldl (fun acc h => acc ||| laneBits h.lane0 h.lanes) 0
/-- Lanes held for class-0 heads (R114), those of one queue's head aside where a queue is named. -/
def State.lanesHeld (s : State) (core : Nat) (mine : Option Nat) : Nat :=
  (s.sched.heldFor.filter fun x => x.core == core && mine != some x.queue).foldl (fun acc x => acc ||| laneBits x.lane0 x.lanes) 0
/-- Whether a place is clear of what is held for class-0 heads (R114, R205), those of one queue's head aside where a queue is named. -/
def State.heldClear (s : State) (mine : Option Nat) (lanes tcm : Nat) (p : Place) : Bool :=
  s.lanesHeld p.core mine &&& laneBits p.lane0 lanes == 0 &&
  !(s.sched.heldFor.any fun x => x.core == p.core && mine != some x.queue && (x.ctx == p.ctx || overlap x.tcm x.tcmSize p.tcm tcm))

/-- Whether a world runs alone in its clusters (R162). -/
def State.exclusive (s : State) (w : BitVec 6) : Bool := let x := s.worlds.getD w.toNat .reset; x.xc || x.ct

/-- What a world may still allocate in a cluster: its quota less its two reservations and the allocations of its other tasks there
(R22). -/
def State.quotaLeft (s : State) (w : BitVec 6) (clus : Nat) (own : Alloc → Bool) : Nat :=
  let x := s.worlds.getD w.toNat .reset
  let units (lo : Nat) : Nat := (x.spres.extractLsb' lo 9).toNat
  let held := s.sched.allocs.filter fun a => a.clus == clus && a.world == w && !own a
  65536 * units 55 - 65536 * (units 46 + units 29) - (held.map (·.size)).foldl (· + ·) 0
/-- Whether one hart may be put in a place: its panel aligned and free, the context and the TCM slice free, its scratchpad
allocation clear of other tasks and of every reservation and within the world's quota, exclusive clusters kept (R16, R20, R21,
R22, R162). -/
def State.placeOk (s : State) (queue num : Nat) (w : BitVec 6) (lanes tcm spad : Nat) (p : Place) : Bool :=
  let hs := s.activeHarts
  let clus := clusOf p.core
  let own (a : Alloc) : Bool := a.queue == queue && a.num == num
  p.core < 768 && p.ctx < 8 && p.lane0 % lanes == 0 && p.lane0 + lanes ≤ 32 &&
  s.lanesTaken p.core &&& laneBits p.lane0 lanes == 0 && s.heldClear (some queue) lanes tcm p &&
  !(hs.any fun h => h.core == p.core && h.ctx == p.ctx) &&
  p.tcm % 4096 == 0 && p.tcm + tcm ≤ 0x40000 &&
  !(hs.any fun h => h.core == p.core && overlap h.tcmOff h.tcmSize p.tcm tcm) &&
  p.spad % 2048 == 0 && p.spad + spad ≤ 0x1000000 && spad ≤ s.quotaLeft w clus own &&
  s.sched.allocs.all (fun a => a.clus != clus || (if own a then a.off == p.spad && a.size == spad else !overlap a.off a.size p.spad spad)) &&
  (List.range 64).all (fun v => let (b, n) := tailorRes s (BitVec.ofNat 6 v)
                                let (rb, rn) := refreshRes s (BitVec.ofNat 6 v)
                                !(overlap b n p.spad spad) && !(overlap rb rn p.spad spad)) &&
  hs.all (fun h => clusOf h.core != clus || h.world == w || !(s.exclusive w || s.exclusive h.world))

/-- Zeroes what a hart receives and writes its registers (R25, R106, R164). Its supervisor trap registers keep the values that a hart
of its world left there, else read 0 (R6, R161); those of firmware stay. -/
def Hart.launchInto (old : Hart) (p : Place) (queue num ord : Nat) (w : BitVec 6) (lanes tcm spad launched : Nat) : Hart :=
  let mine := old.world = w
  let keep (c : TrapCsrs) : TrapCsrs := { c with nest := false, strict := false, inh := false, pl := .user, ie := false, pie := false }
  { Hart.idle p.core p.ctx with
    active := true, lane0 := p.lane0, lanes, tcmOff := p.tcm, tcmSize := tcm, spadOff := p.spad, spadSize := spad, world := w,
    queue, num, ord, launched, strap := keep (if mine then old.strap else .reset), mtrap := keep old.mtrap,
    csr := { Csrs.reset with srvec := if mine then old.csr.srvec else 0, vlmaxSeen := BitVec.ofNat 64 (vlmaxOf lanes Csrs.reset.vtype) } }

/-- Puts a hart into a place, with its memories zeroed; the first hart of a task in a cluster brings the task's allocation there. -/
def State.install (s : State) (h : Hart) : State :=
  let fresh := !(s.sched.allocs.any fun a => a.clus == clusOf h.core && a.queue == h.queue && a.num == h.num)
  let s := { s with mem := s.mem.erase (tcmKey h.core h.tcmOff) h.tcmSize }
  let s := if !fresh then s else
    { s with mem := s.mem.erase (spadKey (clusOf h.core) h.spadOff) h.spadSize,
             sched := { s.sched with allocs := s.sched.allocs ++
               [{ queue := h.queue, num := h.num, world := h.world, clus := clusOf h.core, off := h.spadOff, size := h.spadSize }] } }
  let s := if s.cur.isAt h.core h.ctx then { s with cur := h }
    else if s.others.any fun x => x.isAt h.core h.ctx then { s with others := s.others.map fun x => if x.isAt h.core h.ctx then h else x }
    else { s with others := s.others ++ [h] }
  s.divideWays h.core

/-- The registers of R106 for ordinal h of H. -/
def launchBank (p : BitVec 512) (t : LoopTab) (h n : Nat) : Bank :=
  let per := prodOf t.temps
  let vals : List Word := [BitVec.ofNat 64 (h * per), BitVec.ofNat 64 per, t.args, pkArg0 p, pkArg1 p, BitVec.ofNat 64 h,
                           BitVec.ofNat 64 n, pkLtab p]
  { Bank.reset with x := vals.zipIdx.foldl (fun v (a, i) => v.setIfInBounds (4 + i) a) Bank.reset.x }

/-- The position of an ordinal over the spatial levels, outermost first (R106): the die part and the core part. -/
def spatialPos (t : LoopTab) (h : Nat) : Nat × Nat :=
  (t.spatial.reverse.foldl (fun (acc : Nat × (Nat × Nat) × (Nat × Nat)) l =>
    let (rest, (d, dm), (c, cm)) := acc
    let i := rest % l.2
    if l.1 = 2 then (rest / l.2, (d + i * dm, dm * l.2), (c, cm)) else (rest / l.2, (d, dm), (c + i * cm, cm * l.2)))
    (h, (0, 1), (0, 1))).2 |> fun x => (x.1.1, x.2.1)

/-- Whether the places of a task keep R106: one stack for each die position, one core for each run of hpc core positions. -/
def placesMatch (t : LoopTab) (hpc : Nat) (place : List Place) : Bool :=
  let pos := (List.range place.length).map fun i => (spatialPos t i, place.getD i { core := 0, ctx := 0, lane0 := 0, tcm := 0, spad := 0 })
  pos.all fun ((d, c), p) => pos.all fun ((d', c'), p') =>
    (d == d') == (stackOf p.core == stackOf p'.core) && ((d == d' && c / hpc == c' / hpc) == (p.core == p'.core)) &&
    (clusOf p.core != clusOf p'.core || p.spad == p'.spad)

/-- The panel that a victim keeps: the largest aligned part with its lowest lane that leaves the claimed lanes free, never fewer
than 4 lanes (R115). -/
def keptLanes (lanes claimed : Nat) : Nat :=
  if claimed = 0 then lanes
  else max 4 (if claimed ≤ lanes / 2 then lanes / 2 else if claimed ≤ lanes - lanes / 4 then lanes / 4 else lanes / 8)
/-- The lanes that a victim gives up for a target panel, in the sizes that R115 allows; none where the target needs its lowest
lanes. -/
def claimFor (h : Hart) (lane0 lanes : Nat) : Option Nat :=
  [h.lanes / 2, h.lanes - h.lanes / 4, h.lanes - h.lanes / 8].find? fun c =>
    4 ≤ keptLanes h.lanes c && laneBits h.lane0 (keptLanes h.lanes c) &&& laneBits lane0 lanes == 0
/-- The harts of a core whose lanes a panel needs. -/
def State.inWay (s : State) (core lane0 lanes : Nat) : List Hart :=
  s.activeHarts.filter fun h => h.core == core && laneBits h.lane0 h.lanes &&& laneBits lane0 lanes != 0
/-- Nothing is held any more for a queue's head that has started or is gone (R114): victims on those cores owe only what the panels of
other heads claim. -/
def State.dropHeld (s : State) (q : Nat) : State :=
  let gone := s.sched.heldFor.filter fun x => x.queue == q
  let rest := s.sched.heldFor.filter fun x => x.queue != q
  let owes (h : Hart) : Nat := ((rest.filter fun x => x.core == h.core && laneBits h.lane0 h.lanes &&& laneBits x.lane0 x.lanes != 0).map
    fun x => (claimFor h x.lane0 x.lanes).getD 0).foldl max 0
  let u := (s.activeHarts.filter fun h => h.claimed != 0 && gone.any fun x => x.core == h.core).foldl (fun (u : State) h =>
    u.modHart h.core h.ctx fun x => { x with claimed := owes h }) s
  { u with sched := { u.sched with heldFor := rest } }

/-- Starts a task at its places (R106, R25); none where a place is not free. -/
def State.startTask (s : State) (q : Nat) (slot : Slot) (t : LoopTab) (place : List Place) : Option State :=
  let p := slot.packet
  let w := pkWorld p
  let n := t.dies * t.cores
  if place.length != n ∨ !placesMatch t (pkHpc p) place then none else
  let tcm := pkTcm p * 4096
  let spad := pkSpad p * 1024
  let x := s.worlds.getD w.toNat .reset
  let put (acc : Option State) (e : Place × Nat) : Option State :=
    match acc with
    | none => none
    | some s =>
      if !s.placeOk q slot.num w (pkLanes p) tcm spad e.1 then none else
      let old := (s.hartAt e.1.core e.1.ctx).getD (.idle e.1.core e.1.ctx)
      let h := old.launchInto e.1 q slot.num e.2 w (pkLanes p) tcm spad s.clock
      let lc := (t.temps.map (BitVec.ofNat 64)).zipIdx.foldl (fun v (a, i) => v.setIfInBounds i a) Csrs.reset.lcnt
      some (s.install { h with pc := pkEntry p, user := launchBank p t e.2 n,
                               csr := { h.csr with lcnt := lc, poolmap := x.poolmap },
                               ct := { h.ct with ptab := x.profiles.map entryProfile, pools := x.pools } })
  match place.zipIdx.foldl put (some s) with
  | none => none
  | some s =>
    let task : Task := { queue := q, num := slot.num, world := w, cls := pkClass p, packet := p, left := n, ended := 0, tenq := slot.tenq,
                         tstart := s.time, unmeasured := false, poisoned := false, profiles := 0, npois := 0, ecorr0 := x.ecorr,
                         eunc0 := x.eunc, elink0 := x.elink, disp := if t.dies ≤ 1 then (s.queue q).home else 8 }
    let s := s.modQueue q fun y => { y with slots := y.slots.drop 1, started := y.started + 1, promoted := false }
    some ({ s with sched := { s.sched with tasks := s.sched.tasks ++ [task] } }.dropHeld q)

/-! Dispatch (R108, R111 to R114). -/

/-- The queue's head, where it may start by R108 and its wait event is met or unreadable (R103, R405). -/
def State.headReady (s : State) (q : Nat) : Option (Slot × LoopTab × Bool) :=
  let x := s.queue q
  match x.slots.head? with
  | none => none
  | some slot =>
    let p := slot.packet
    let running := s.sched.tasks.any fun t => t.queue == q
    if (x.serial && running) || (pkBar p && running) then none else
    let met : Option Bool := if !evOn (pkWev p) then some true else match s.dispatchRead (pkWorld p) (evAddr (pkWev p)) with
      | .error _ => none
      | .ok v => some ((v.extractLsb' 0 15 - evCnt (pkWev p)).msb == false)
    match met, s.loopTab p with
    | none, _ => some (slot, { args := 0, levels := [] }, false)
    | some true, some t => some (slot, t, true)
    | some true, none => some (slot, { args := 0, levels := [] }, false)
    | some false, _ => none

/-- The class that a dispatcher uses for a queue's head (R113). -/
def State.headClass (s : State) (q : Nat) : Nat := let x := s.queue q; if x.cls = 3 && x.promoted then 2 else x.cls

/-- How many aligned panels of a size are free on a core for a queue. -/
def freePanels (taken lanes : Nat) : Nat :=
  ((List.range (32 / lanes)).filter fun i => taken &&& laneBits (i * lanes) lanes == 0).length
/-- How many slices of a size fit in the gaps between taken intervals of [0, top). -/
def fitIn (top size : Nat) : Nat → List (Nat × Nat) → Nat
  | from', [] => if size = 0 then 8 else (top - from') / size
  | from', (b, n) :: r => (if size = 0 then 8 else (b - from') / size) + fitIn top size (max from' (b + n)) r
def sortIv (l : List (Nat × Nat)) : List (Nat × Nat) :=
  l.foldl (fun acc x => (acc.takeWhile fun y => y.1 ≤ x.1) ++ [x] ++ (acc.dropWhile fun y => y.1 ≤ x.1)) []
/-- Whether a core's cluster has scratchpad for a packet, within its world's quota, and lets its world in (R22, R162). -/
def State.coreRoom (s : State) (p : BitVec 512) (core : Nat) : Bool :=
  let clus := s.activeHarts.filter fun h => clusOf h.core == clusOf core
  let w := pkWorld p
  let taken := ((s.sched.allocs.filter fun a => a.clus == clusOf core).map fun a => (a.off, a.size)) ++ (List.range 64).flatMap fun v =>
    [tailorRes s (BitVec.ofNat 6 v), refreshRes s (BitVec.ofNat 6 v)]
  !(clus.any fun h => h.world != w && (s.exclusive w || s.exclusive h.world)) &&
  fitIn 0x1000000 (pkSpad p * 1024) 0 (sortIv taken) != 0 && pkSpad p * 1024 ≤ s.quotaLeft w (clusOf core) fun _ => false
/-- How many harts of a packet would fit on a core if every hart there kept `kept` of its lanes, one that keeps none being gone. -/
def State.coreFitsIf (s : State) (kept : Hart → Nat) (q : Nat) (p : BitVec 512) (core : Nat) : Nat :=
  let hs := s.activeHarts.filter fun h => h.core == core && kept h != 0
  let held := s.sched.heldFor.filter fun x => x.core == core && x.queue != q && !(hs.any fun h => h.ctx == x.ctx)
  let lanes := hs.foldl (fun acc h => acc ||| laneBits h.lane0 (kept h)) (s.lanesHeld core (some q))
  if !s.coreRoom p core then 0
  else min (8 - hs.length - held.length) (min (freePanels lanes (pkLanes p))
    (fitIn 0x40000 (pkTcm p * 4096) 0 (sortIv (hs.map (fun h => (h.tcmOff, h.tcmSize)) ++ held.map fun x => (x.tcm, x.tcmSize)))))
/-- Whether the resources of a head would be free on a dispatcher's stacks if harts kept so many lanes (R111, R114). -/
def State.resourcesFreeIf (s : State) (kept : Hart → Nat) (disp q : Nat) (p : BitVec 512) (t : LoopTab) : Bool :=
  let hpc := pkHpc p
  let stackOk (st : Nat) : Bool :=
    let fits := (List.range 96).map fun i => s.coreFitsIf kept q p (96 * st + i)
    let full := (fits.filter fun f => hpc ≤ f).length
    let part := t.cores % hpc
    t.cores / hpc ≤ full && (part == 0 || t.cores / hpc < full || fits.any fun f => part ≤ f && f < hpc)
  if disp < 8 then stackOk disp else t.dies ≤ ((List.range 8).filter stackOk).length
/-- Whether the resources of a head are free on a dispatcher's stacks (R111). -/
def State.resourcesFree (s : State) (disp q : Nat) (p : BitVec 512) (t : LoopTab) : Bool :=
  s.resourcesFreeIf (·.lanes) disp q p t

/-- Whether a dispatcher visits a bound queue: the queue's home and the package dispatcher (R111, log 74). -/
def State.homeHead (s : State) (disp q : Nat) : Bool := (s.queue q).bound && (disp == (s.queue q).home || disp == 8)
/-- Whether a queue's head belongs to a dispatcher (R111). -/
def State.headOf (s : State) (disp q : Nat) (t : LoopTab) : Bool :=
  if t.dies ≤ 1 then disp == (s.queue q).home else disp == 8

/-- demand(t) of R112. -/
def demand (p : BitVec 512) (t : LoopTab) : Nat := t.dies * t.cores * pkLanes p

/-- The queues of a class in the order that deficit round-robin visits them from a pointer. -/
def rrOrder (l : List Nat) (ptr : Nat) : List Nat := (l.filter fun q => ptr ≤ q) ++ l.filter fun q => q < ptr

/-- Deficit round-robin over dispatchable heads (R112): the queue that starts and the new deficits. -/
def drr (disp? : Nat → Option Nat) : Nat → List Nat → List Nat → (Nat → Nat) → Option (Nat × (Nat → Nat))
  | 0, _, _, _ => none
  | n + 1, all, [], def_ => drr disp? n all all def_
  | n + 1, all, q :: r, def_ =>
    match disp? q with
    | some dem =>
      let d := def_ q + 256
      if dem ≤ d then some (q, fun x => if x = q then d - dem else def_ x)
      else drr disp? n all r (fun x => if x = q then d else def_ x)
    | none => drr disp? n all r (fun x => if x = q then 0 else def_ x)

/-- The head that a dispatcher starts next: the highest class with a dispatchable head, then round-robin (R112). A queue has one
deficit, which every dispatcher that visits it reads and writes; ptr is each dispatcher's own (log 74). The largest demand,
8·96·32, takes 96 visits. -/
def State.chooseHead (s : State) (disp : Nat) : Option (Nat × Nat × (Nat → Nat)) :=
  let can (q : Nat) : Option Nat := match s.headReady q with
    | some (slot, t, true) =>
      if s.headOf disp q t && s.resourcesFree disp q slot.packet t then some (demand slot.packet t) else none
    | _ => none
  let classQs (c : Nat) : List Nat := (List.range 256).filter fun q => s.homeHead disp q && s.headClass q == c
  (List.range 4).findSome? fun c =>
    let qs := classQs c
    if qs.any fun q => (can q).isSome then
      (drr can ((qs.length + 1) * 100) (rrOrder qs (s.sched.ptr.getD (4 * disp + c) 0)) (rrOrder qs (s.sched.ptr.getD (4 * disp + c) 0))
        fun q => (s.queue q).deficit).map fun (q, d) => (c, q, d)
    else none

end Sys2Proof.Machine
end

