-- ==== Sys2Proof/Machine/Alarm.lean ====
section
/-! DEFINITION. Alarms of Thatum (R188 to R191): logging, quarantine of a world, erasure of keys. -/
namespace Sys2Proof.Machine

/-- The tasks that wait in a queue of a quarantined world end with code 3, in their order (R188, log 75). -/
def State.endQueued (s : State) (q : Nat) : State :=
  let l := (s.queue q).slots
  l.foldl (fun s x => s.retireUnrun x.packet q x.num 3 x.tenq true)
    ((s.modQueue q fun x => { x with slots := [], started := x.started + l.length, promoted := false }).dropHeld q)
/-- A world is quarantined (R188): its harts stop, its commands are cancelled, its tasks end with code 3, running or not, its queues
refuse new tasks, its line, MAC, element and context keys, its save, image and nonce counters are erased (R184), its bounce channels lose
their keys (R385). -/
def State.quarantine (s : State) (w : Nat) : State :=
  let s := (s.sched.tasks.filter fun t => t.world.toNat == w).foldl (fun s t => s.endTask t 3) s
  let s := ((List.range 256).filter fun q => (s.queue q).bound && (s.queue q).world.toNat == w).foldl State.endQueued s
  let s := s.modWorld w fun x => { x with
    quarantined := true, keys := { line := false, mac := false, elem := false, ctx := false }, nonceCtr := World.reset.nonceCtr,
    imageCtr := World.reset.imageCtr }
  { s with thatum := { s.thatum with saves := s.thatum.saves.filter fun c => c.owner.world.toNat != w },
           groups := s.groups.filter fun g => match g.op with
             | some id => s.ops.any fun o => o.id == id
             | none => true,
           bounce := s.bounce.map fun b => if b.world.toNat = w then { b with key := none, st := 0 } else b }

/-- ALARM becomes pending at a hart of the device, a free choice among the active ones (R188 names none; log 22). -/
def State.pendAlarm (s : State) (src : Nat) : State :=
  let hs := s.activeHarts.filter fun h => h.hold != some .ending
  match hs[Config.pick s.free (2 ^ 45) % max 1 hs.length]? with
  | some h => s.modHart h.core h.ctx fun x => { x with alarm := some (x.alarm.getD (BitVec.ofNat 64 src)) }
  | none => s

/-- An alarm source fires for some worlds (R188, R189); sources 5 and 6 act on the device, so on every world. A level 3 alarm quarantines
every world, ends every SPDM session and renews the die-to-die keys. -/
def State.raiseAlarm (s : State) (src : Nat) (ws : List Nat) : State :=
  let s1 := { s with thatum := { s.thatum with log := s.thatum.log ++ (if ws.isEmpty then [(src, 64)] else ws.map fun w => (src, w)) } }
  match s.alarmLevel src with
  | 2 => ((if src = 5 ∨ src = 6 then List.range 64 else ws).foldl State.quarantine s1).pendAlarm src
  | 3 =>
    let s2 := (List.range 64).foldl State.quarantine s1
    let s3 := (s2.members.filter (· != s2.device)).foldl (fun (s : State) v => s.modPeer v fun p => { p with keyed := false }) s2
    ({ s3 with thatum := { s3.thatum with d2dKeys := s3.thatum.d2dKeys + 1 } }).pendAlarm src
  | _ => s1

/-- A CTXIMAGE refusal of a world; whether five of them lie within 1 s is a free choice (R189, log 5). -/
def State.countRefusal (s : State) (w : Nat) : State :=
  let n := (s.worlds.getD w .reset).refusals + 1
  if 5 ≤ n && Config.pick s.free (2 ^ 46) % 2 = 1 then (s.modWorld w fun x => { x with refusals := 0 }).raiseAlarm 3 [w]
  else s.modWorld w fun x => { x with refusals := n }

end Sys2Proof.Machine
end

