-- ==== Sys2Proof/Machine/CtMath.lean ====
section
/-! DEFINITION. Ciphertext data: profile constants and allowances (R63, R64, R341, R342), the pattern expander (R361), and the data
effect of each ciphertext operation on lists of words (R354 to R367). -/
namespace Sys2Proof.Machine

/-! Profile constants. -/

/-- N (R341). -/
def Profile.big (p : Profile) : Nat := match p.base with | 1 => 8 | 2 => 2048 | _ => 65536
/-- n, the LWE dimension; A64K has none. -/
def Profile.dim (p : Profile) : Nat := match p.base with | 1 => 4 | 2 => 768 | _ => 0
/-- p, the plaintext modulus; A64K has none. -/
def Profile.plain (p : Profile) : Nat := match p.base with | 1 => 16 | 2 => 128 | _ => 0
/-- The modulus of the first limb. -/
def Profile.q1 (p : Profile) : Nat := at' p.q 0 1
def Profile.installed (p : Profile) : Bool := p.base != 0
/-- TOY8 or F2K. -/
def Profile.lwe (p : Profile) : Bool := p.base == 1 || p.base == 2
/-- The widths a_i of the moduli of A64K (R58). -/
def Profile.widths (p : Profile) : List Nat := p.q.map fun q => match modulusForm q with | some (a, _) => a | none => 0

/-- a_max of R63, for A64K with l limbs. -/
def Profile.aMax (p : Profile) (l : Nat) : Int :=
  match p.base with
  | 1 => 48
  | 2 => 672
  | _ => min 65535 (16 * (((p.widths.take l).foldl (· + ·) 0 : Nat) - 24 : Int))
/-- a_refresh. -/
def Profile.aRefresh (p : Profile) : Int := if p.base = 1 then 40 else 608
/-- a_in_min. -/
def Profile.aInMin (p : Profile) : Int := if p.base = 1 then 16 else 64
/-- a_ksw. -/
def Profile.aKsw (p : Profile) (l : Nat) : Int := match p.base with | 1 => 32 | 2 => 576 | _ => p.aMax l - 320

/-- The add rule (R63). -/
def addAllow (a1 a2 : Int) : Int :=
  let d := min 15 ((a1 - a2).natAbs / 16)
  min a1 a2 - (if d = 0 then 8 else if d = 1 then 3 else 1)
/-- The allowance after a product with a factor of a size (R64). -/
def scaleAllow (p : Profile) (l : Nat) (a : Int) (b : Nat) : Int :=
  if b = 0 then p.aMax l else if b = 1 then a else a - 16 * (clog2 b : Int)

/-- The words of a kind (R342). -/
def Profile.words (p : Profile) (kind limbs : Nat) : Nat :=
  match kind with
  | 1 => p.dim + 1
  | 2 => p.big + 1
  | 3 => 2 * p.big * limbs
  | 4 => 2 * p.big + p.dim
  | _ => 0

/-! Descriptors (R344), key registers (R360) and table registers (R363). -/

def dBase (d : Desc) : Word := d.extractLsb' 192 64
def dGen (d : Desc) : Half := d.extractLsb' 160 32
def dAllow (d : Desc) : Nat := (d.extractLsb' 144 16).toNat
def dScale (d : Desc) : Int := (d.extractLsb' 136 8).toInt
def dLimbs (d : Desc) : Nat := (d.extractLsb' 130 6).toNat
def dProf (d : Desc) : Nat := (d.extractLsb' 126 4).toNat
def dKind (d : Desc) : Nat := (d.extractLsb' 123 3).toNat
def dPois (d : Desc) : Bool := d.getLsbD 122
def dCap (d : Desc) : Nat := (d.extractLsb' 96 26).toNat
/-- A descriptor from its fields. -/
def mkDesc (base : Word) (gen : Half) (allow scale : BitVec 16) (limbs prof kind : Nat) (pois : Bool) (cap : BitVec 26) : Desc :=
  base ++ gen ++ allow ++ scale.setWidth 8 ++ BitVec.ofNat 6 limbs ++ BitVec.ofNat 4 prof ++ BitVec.ofNat 3 kind ++
    BitVec.ofBool pois ++ cap ++ 0#96

/-- Whether a descriptor is well-formed in a profile table (R344). -/
def descOk (pt : Vector Profile 16) (d : Desc) : Bool :=
  let p := pt.getD (dProf d) { base := 0, q := [] }
  d == 0 ||
  (d.extractLsb' 0 96 == 0 && p.installed && (dBase d).toNat % 64 == 0 &&
   (if p.lwe then 1 ≤ dKind d && dKind d ≤ 4 && dLimbs d == 1
    else (dKind d == 2 && dLimbs d == 1) || (dKind d == 3 && 1 ≤ dLimbs d && dLimbs d ≤ p.q.length)))
/-- The clamp of R351 and R352. An a_max below 0, of a limb set too narrow for any noise, is taken modulo 2^16 (DESIGN CHOICE, log 87). -/
def descClamp (pt : Vector Profile 16) (d : Desc) : Desc :=
  if d = 0 then d else
  let p := pt.getD (dProf d) { base := 0, q := [] }
  mkDesc (dBase d) (dGen d) (BitVec.ofInt 16 (min (dAllow d : Int) (p.aMax (dLimbs d)))) (BitVec.ofInt 16 (dScale d)) (dLimbs d)
    (dProf d) (dKind d) (dPois d) (d.extractLsb' 96 26)

def kBase (k : Desc) : Word := k.extractLsb' 192 64
def kKeyid (k : Desc) : Nat := (k.extractLsb' 128 64).toNat
def kKind (k : Desc) : Nat := (k.extractLsb' 124 4).toNat
def kPat (k : Desc) : Bool := k.getLsbD 123
def kPois (k : Desc) : Bool := k.getLsbD 122
def kSprof (k : Desc) : Nat := (k.extractLsb' 118 4).toNat
def kDprof (k : Desc) : Nat := (k.extractLsb' 114 4).toNat
def kBeta (k : Desc) : Nat := (k.extractLsb' 108 6).toNat
def kEll (k : Desc) : Nat := (k.extractLsb' 104 4).toNat
def kGamma (k : Desc) : Nat := (k.extractLsb' 72 32).toNat
/-- The checks of `ky.bind` on a header (R360, R362). The base is not among them; `tb.ld` checks its own. -/
def keyOk (pt : Vector Profile 16) (k : Desc) : Bool :=
  let sp := pt.getD (kSprof k) { base := 0, q := [] }
  let dp := pt.getD (kDprof k) { base := 0, q := [] }
  k.extractLsb' 0 72 == 0 && kKind k ≤ 5 &&
  (if kKind k = 0 then !kPat k
   else sp.installed && dp.installed &&
    (kKind k == 2 || kKind k == 4 || kSprof k == kDprof k) &&
    (kKind k != 1 || sp.lwe) && (kKind k != 2 || dp.lwe) &&
    (if sp.lwe then 1 ≤ kBeta k && kBeta k * kEll k ≤ 64 else kBeta k == 0) && 1 ≤ kEll k &&
    (if kKind k = 3 then kGamma k % 2 == 1 && kGamma k < 2 * sp.big else kGamma k == 0))

def tbBase (t : Desc) : Word := t.extractLsb' 192 64
def tbProf (t : Desc) : Nat := (t.extractLsb' 188 4).toNat
def tbPois (t : Desc) : Bool := t.getLsbD 187
def tbBound (t : Desc) : Bool := t.getLsbD 186
/-- The checks of `tb.ld` on a header (R363). -/
def tableOk (pt : Vector Profile 16) (t : Desc) : Bool :=
  let p := pt.getD (tbProf t) { base := 0, q := [] }
  t.extractLsb' 0 186 == 0 && tbBound t && p.lwe && (tbBase t).toNat % 64 == 0

/-- Bit length. -/
def bitLen (q : Nat) : Nat := if q = 0 then 0 else q.log2 + 1
/-- Euclid's steps on (r, s) pairs with r ≡ s·x modulo q. -/
def egcd : Nat → Int × Int → Int × Int → Int × Int
  | 0, a, _ => a
  | f + 1, a, b => if b.1 = 0 then a else egcd f b (a.1 % b.1, a.2 - a.1 / b.1 * b.2)
/-- The inverse of x modulo q. -/
def invMod (q x : Nat) : Nat :=
  let (g, s) := egcd (2 * bitLen q + 2) ((q : Int), 0) (((x % q : Nat) : Int), 1)
  if g = 1 then modQ q s else Config.noInverse q x % q

/-! The pattern expander (R361). -/

/-- The kept words of an output: 8 bytes each, cut to the bit length of q, below q. -/
def keptWords (q : Nat) : Nat → List Byte → List Nat
  | 0, _ => []
  | n + 1, bs =>
    let x := ofBytes (bs.take 8) % 2 ^ bitLen q
    if x < q then x :: keptWords q n (bs.drop 8) else keptWords q n (bs.drop 8)
/-- The first `count` kept words, from an output long enough to hold them. -/
def expandFrom (seed : List Byte) (q count : Nat) : Nat → Nat → List Nat
  | 0, _ => []
  | f + 1, len =>
    let l := keptWords q len (shake128 seed (8 * len))
    if count ≤ l.length then l.take count else expandFrom seed q count f (2 * len)
/-- The kept words of a row: its position and limb are counted from the numbers that R361 leaves open (log 19). -/
def expandRow (keyid pos limb q count : Nat) : List Nat :=
  expandFrom (toBytes 8 keyid ++ toBytes 4 (pos + Config.patternFirst.1) ++ toBytes 1 (limb + Config.patternFirst.2)) q count 64 (2 * count)
/-- The random half of an RLWE row: the inverse transform of the kept values. -/
def expandPoly (keyid pos limb q n : Nat) : List Nat :=
  let root := Config.patternRoot q n
  inverseNtt q (invMod q root) (invMod q n) n.log2 (expandRow keyid pos limb q n)

/-! Data effects. -/

/-- n words from a place. -/
def cut (l : List Nat) (i n : Nat) : List Nat := (l.drop i).take n
/-- Limb j of RLWE data, A and B, each residue reduced (R342). -/
def limbA (n : Nat) (w : List Nat) (j q : Nat) : List Nat := (cut w (2 * n * j) n).map (· % q)
def limbB (n : Nat) (w : List Nat) (j q : Nat) : List Nat := (cut w (2 * n * j + n) n).map (· % q)

/-- The digits of a residue of one limb as integers (R356): beta 0 is the split by limbs. -/
def digitsOf (q beta ell x : Nat) : List Int := if beta = 0 then [centred q x] else digits q beta ell (x % q)
/-- Digit u of a polynomial, in every limb (R356). -/
def digitPoly (qs : List Nat) (beta ell u : Nat) (a : List (List Nat)) : List (List Nat) :=
  if beta = 0 then
    let qu := at' qs u 1
    let d := (at' a u []).map (centred qu)
    qs.map fun q => d.map (modQ q)
  else
    qs.zipIdx.map fun (q, j) => (at' a j []).map fun x => modQ q (at' (digits q beta ell x) u 0)

/-- One RLWE row of a key, limb by limb: A from the data or the expander, then B (R360, R361). -/
def keyRow (qs : List Nat) (n keyid : Nat) (pat : Bool) (key : List Nat) (row pos : Nat) : List (List Nat × List Nat) :=
  qs.zipIdx.map fun (q, j) =>
    if pat then (expandPoly keyid pos j q n, (cut key ((row * qs.length + j) * n) n).map (· % q))
    else (limbA n key (row * qs.length + j) q, limbB n key (row * qs.length + j) q)

/-- The key switch of an RLWE ciphertext (R357): rows u of the key against the digits of A. -/
def kswPoly (qs : List Nat) (n beta ell keyid : Nat) (pat : Bool) (key : List Nat) (a b : List (List Nat)) :
    List (List Nat × List Nat) :=
  (List.range ell).foldl (fun acc u =>
    let d := digitPoly qs beta ell u a
    let k := keyRow qs n keyid pat key u u
    acc.zipIdx.map fun (ab, j) =>
      let q := at' qs j 1
      let (ka, kb) := at' k j ([], [])
      (subPoly q ab.1 (mulPoly q n (at' d j []) ka), subPoly q ab.2 (mulPoly q n (at' d j []) kb)))
    (b.map fun x => (List.replicate n 0, x))

/-- `ct.ksw` on LWE (R357). -/
def kswLweData (qs qd ns nd beta ell keyid : Nat) (pat : Bool) (src key : List Nat) : List Nat :=
  let b := at' src ns 0 % qs
  let acc := (List.range ns).foldl (fun acc t =>
    (digitsOf qs beta ell (at' src t 0 % qs)).zipIdx.foldl (fun (acc : List Nat) (d, u) =>
      let r := t * ell + u
      let row := if pat then expandRow keyid r 0 qs nd ++ [at' key r 0 % qs] else (cut key (r * (nd + 1)) (nd + 1)).map (· % qs)
      List.zipWith (fun (x y : Nat) => modQ qs ((x : Int) - d * y)) acc row) acc)
    (List.replicate nd 0 ++ [b])
  acc.map (switchWord qs qd)

/-- `ct.pack` (R357): `srcs` are the inputs in order. A digit is multiplied as the signed digit, modulo the destination's modulus (DESIGN
CHOICE, log 88). -/
def packData (qs qd ns nd big beta ell keyid : Nat) (pat : Bool) (srcs : List (List Nat)) (key : List Nat) : List Nat :=
  let one (src : List Nat) : List Nat × List Nat :=
    (List.range ns).foldl (fun acc t =>
      (digitsOf qs beta ell (at' src t 0 % qs)).zipIdx.foldl (fun (acc : List Nat × List Nat) (d, u) =>
        match keyRow [qd] nd keyid pat key (t * ell + u) (t * ell + u) with
        | (ka, kb) :: _ =>
          (List.zipWith (fun (x y : Nat) => modQ qd ((x : Int) - d * y)) acc.1 ka,
           List.zipWith (fun (x y : Nat) => modQ qd ((x : Int) - d * y)) acc.2 kb)
        | [] => acc) acc)
      (List.replicate nd 0, switchWord qs qd (at' src ns 0 % qs) :: List.replicate (nd - 1) 0)
  let (a, b) := srcs.zipIdx.foldl (fun (acc : List Nat × List Nat) (src, j) =>
    let (x, y) := one src
    (addPoly qd acc.1 (rot qd nd (j * nd / big) x), addPoly qd acc.2 (rot qd nd (j * nd / big) y)))
    (List.replicate nd 0, List.replicate nd 0)
  a ++ b

/-- The CRT value of residues (R358). -/
def crt (qs : List Nat) (r : List Nat) : Nat :=
  let big := qs.foldl (· * ·) 1
  (List.zipWith (fun q x => (big / q) * (invMod q (big / q) * x % q)) qs r).foldl (· + ·) 0 % big

/-- `ct.modsw` (R358). -/
def modswData (qs : List Nat) (n keep : Nat) (src : List Nat) : List Nat :=
  let drop := (qs.drop keep).foldl (· * ·) 1
  let coef (off i : Nat) : Nat := (crt qs (qs.zipIdx.map fun (q, j) => at' src (2 * n * j + off + i) 0 % q) + drop / 2) / drop
  let va := (List.range n).map (coef 0)
  let vb := (List.range n).map (coef n)
  (qs.take keep).flatMap fun q => va.map (· % q) ++ vb.map (· % q)

/-- Extraction of a coefficient (R359). -/
def extrData (q n c : Nat) (a b : List Nat) : List Nat :=
  ((List.range n).map fun t => if t ≤ c then at' a (c - t) 0 % q else modQ q (-(at' a (n + c - t) 0 : Int))) ++ [at' b c 0 % q]

/-- The test polynomial (R363). -/
def testPoly (q n p : Nat) (table : List Nat) : List Nat :=
  let w := 2 * n / p
  (List.range n).map fun j =>
    let k := (j + w / 2) / w
    if k < p / 2 then encMsg q p (at' table k 0 % p) else modQ q (-(encMsg q p (at' table 0 0 % p) : Int))

/-- `ct.brinit` (R364): A, B, indices. -/
def brinitData (q n dim p : Nat) (src table : List Nat) : List Nat :=
  let b := switchWord q (2 * n) (at' src dim 0 % q)
  List.replicate n 0 ++ rot q n (2 * n - b) (testPoly q n p table) ++
    (List.range dim).map fun t => switchWord q (2 * n) (at' src t 0 % q)

/-- `ct.brstep` (R365) with the rows of step i. -/
def brstepData (q n dim beta ell keyid i : Nat) (pat : Bool) (src key : List Nat) : List Nat :=
  let a := (cut src 0 n).map (· % q)
  let b := (cut src n n).map (· % q)
  let idx := cut src (2 * n) dim
  let c := at' idx i 0 % (2 * n)
  let da := subPoly q (rot q n c a) a
  let db := subPoly q (rot q n c b) b
  let (a', b') := (List.range (2 * ell)).foldl (fun (acc : List Nat × List Nat) r =>
    let d := ((if r < ell then da else db)).map fun x => modQ q (at' (digits q beta ell x) (r % ell) 0)
    match keyRow [q] n keyid pat key r (i * 2 * ell + r) with
    | (ka, kb) :: _ => (addPoly q acc.1 (mulPoly q n d ka), addPoly q acc.2 (mulPoly q n d kb))
    | [] => acc) (a, b)
  a' ++ b' ++ idx

/-- `ct.refresh` (R67, R367): initialisation, every step, extraction. -/
def refreshData (q n dim p beta ell keyid : Nat) (pat : Bool) (src table key : List Nat) : List Nat :=
  let per := 2 * ell * (if pat then n else 2 * n)
  let acc := (List.range dim).foldl (fun acc i => brstepData q n dim beta ell keyid i pat acc (cut key (per * i) per))
    (brinitData q n dim p src table)
  extrData q n 0 (cut acc 0 n) (cut acc n n)

/-- The result words of an operation, and whether it found its stated bound broken (R66, R355). -/
def CtOp.run (op : CtOp) (srcs : List (List Nat)) (key table : List Nat) : List Nat × Bool :=
  let x := at' srcs 0 []
  match op with
  | .word f k qs per =>
    let y := at' srcs 1 []
    ((List.range (per * qs.length)).map fun i =>
      let q := at' qs (i / per) 1
      let u : Int := (at' x i 0 : Nat)
      let v : Int := (at' y i 0 : Nat)
      modQ q (match f with | 0 => u + v | 1 => u - v | 2 => -u | _ => k * u), false)
  | .mulp qs n bound =>
    let q0 := at' qs 0 1
    let norm := ((cut table 0 n).map fun w => (centred q0 w).natAbs).foldl (· + ·) 0
    (qs.zipIdx.flatMap fun (q, j) =>
      let p := (cut table (n * j) n).map fun w => modQ q (centred q w)
      mulPoly q n (limbA n x j q) p ++ mulPoly q n (limbB n x j q) p, bound < norm)
  | .kswLwe qs qd ns nd beta ell keyid pat => (kswLweData qs qd ns nd beta ell keyid pat x key, false)
  | .kswRlwe qs n beta ell keyid gamma pat =>
    let a := qs.zipIdx.map fun (q, j) => autoPoly q n gamma (limbA n x j q)
    let b := qs.zipIdx.map fun (q, j) => autoPoly q n gamma (limbB n x j q)
    ((kswPoly qs n beta ell keyid pat key a b).flatMap fun ab => ab.1 ++ ab.2, false)
  | .pack qs qd ns nd big beta ell keyid _ pat => (packData qs qd ns nd big beta ell keyid pat srcs key, false)
  | .modsw qs n keep => (modswData qs n keep x, false)
  | .extr q n c => (extrData q n c (cut x 0 n) (cut x n n), false)
  | .brinit q n dim p => (brinitData q n dim p x table, false)
  | .brstep q n dim beta ell keyid i pat => (brstepData q n dim beta ell keyid i pat x key, false)
  | .brfin q n => (extrData q n 0 (cut x 0 n) (cut x n n), false)
  | .refresh q n dim p beta ell keyid pat => (refreshData q n dim p beta ell keyid pat x table key, false)

end Sys2Proof.Machine
end

