-- ==== Sys2Proof/Machine/Csr.lean ====
section
/-! DEFINITION. The CSR map (R264, R269 to R271), and the writes with effects of their own: poolmap (R171), rgtab (R174), rgkey
(R177), tlbinv (R168), spres (R22), alpol (R190), ldest (R236). -/
namespace Sys2Proof.Machine

/-- How a CSR write forms the new value (R264). -/
inductive CsrForm where
  | write | set | clear
deriving DecidableEq, Repr
/-- The new value of an RW field. -/
def CsrForm.rw (f : CsrForm) (old v : Word) : Word :=
  match f with
  | .write => v
  | .set => old ||| v
  | .clear => old &&& ~~~v
/-- The W1C bits that the write clears. -/
def CsrForm.w1c (f : CsrForm) (v : Word) : Word :=
  match f with
  | .clear => 0
  | _ => v

/-! Reading tables through the hart's translation. -/

/-- Reads one aligned dword as a load of the hart; one on another device from the read that holds it (R143), else, where an image is
restored, as a free value (log 16). -/
def State.readDword (s : State) (va : Word) : Except Trap Word :=
  match translate s s.cur s.cur.level va 8 .load true with
  | .error t => .error t
  | .ok t => if t.isFar then (if (s.farCover s.cur t 8).isSome then (s.farHeld s.cur t 8 va).map fun bs => BitVec.ofNat 64 (ofBytes bs)
                              else .ok (BitVec.ofNat 64 (Config.pick s.free (2 ^ 35 + t.key))))
             else .ok (BitVec.ofNat 64 (ofBytes (s.readAt s.cur.world t 8).1))
/-- Reads n aligned dwords from an address upward. -/
def State.readDwords (s : State) (va : Word) : Nat → Except Trap (List Word)
  | 0 => .ok []
  | n + 1 =>
    match s.readDword va with
    | .error t => .error t
    | .ok v => match s.readDwords (va + 8) n with
      | .error t => .error t
      | .ok r => .ok (v :: r)

/-! The pool map (R171). -/

/-- An entry of the pool table: first granule divided by 32, granule count. -/
def poolEntry (w : Word) : Nat × Nat := ((w.extractLsb' 14 50).toNat, (w.extractLsb' 0 14).toNat)
/-- The first entry that is empty, out of order or overlaps the one before. -/
def badPool : Nat → Nat → List (Nat × Nat) → Option Nat
  | _, _, [] => none
  | i, lo, (g, n) :: r => if n = 0 ∨ g < lo then some i else badPool (i + 1) (g + n) r
def State.writePoolmap (s : State) (v : Word) : Except Trap State :=
  let n := (v.extractLsb' 0 12).toNat
  if 1024 < n then .error (illegalN 1024) else
  match s.readDwords (v &&& ~~~(0xFFF#64)) n with
  | .error t => .error t
  | .ok ws =>
    let es := ws.map poolEntry
    match badPool 0 0 es with
    | some i => .error (illegalN i)
    | none =>
      .ok ((s.modCur fun h => { h with csr := { h.csr with poolmap := v }, ct := { h.ct with pools := es } }).modWorld
        s.cur.world.toNat fun w => { w with poolmap := v, pools := es })

/-! Element regions (R174, R177). -/

/-- The first granule of an entry's first dword. -/
def rgBase (w : Word) : Nat := (w.extractLsb' 16 31).toNat
/-- An entry of four dwords: valid bit, base granule, size. -/
def rgEntry (d : List Word) : Bool × Nat × Nat :=
  ((d.getD 0 0).getLsbD 0, rgBase (d.getD 0 0), ((d.getD 1 0).extractLsb' 0 32).toNat)
/-- Whether an entry's res fields are zero (R174). -/
def rgResOk (d : List Word) : Bool :=
  (d.getD 0 0).extractLsb' 1 15 == 0 && (d.getD 0 0).extractLsb' 47 17 == 0 && (d.getD 1 0).extractLsb' 32 32 == 0 &&
    (d.getD 2 0).extractLsb' 0 32 == 0
/-- Whether a region lies wholly in stack SRAM and DRAM, or wholly in host memory. -/
def rgInside (base size : Nat) : Bool :=
  let lo := homeOf (base * 65536)
  1 ≤ size && (match lo with | some (.stack _) | some .host => true | _ => false) && homeOf ((base + size) * 65536 - 1) == lo &&
    (decide (base * 65536 < 0x10000000000) == decide ((base + size) * 65536 - 1 < 0x10000000000))
/-- Whether each granule of a local region belongs to the world in element mode. -/
def State.rgOwned (s : State) (w : BitVec 6) (base size : Nat) : Bool :=
  !isLocalRam (base * 65536) || (size ≤ s.mem.granules.length && (List.range size).all fun i =>
    let g := s.mem.granule ((base + i) * 65536)
    gOwner g == w && gMode g == 2)
def rgDisjoint (l : List (Nat × Nat)) : Bool := l.Pairwise fun a b => overlap a.1 a.2 b.1 b.2 = false

/-- Clears the written bits of a run of granules. -/
def Memory.clearWritten (m : Memory) (base size : Nat) : Memory :=
  { m with written := m.written.filter fun u => !(base * 16384 ≤ u && u < (base + size) * 16384) }

/-- Writes a dword through the hart's translation as a store. -/
def State.writeDword (s : State) (va v : Word) : Except Trap State :=
  match translate s s.cur s.cur.level va 8 .store true with
  | .error t => .error t
  | .ok t => if t.isFar then .ok (s.send t.dev (.wr { seq := 0, tag := t.tag s.cur.world, addr := t.key, data := toBytes 8 v.toNat }))
             else .ok (s.keepWords (s.writeAt s.cur.world t (toBytes 8 v.toNat) false) s.cur.world t 8)

/-- Gives each valid entry its nonce: the regions in force, the table's new dwords, the counter after it. -/
def rgAssign (dev : Nat) : Nat → List (List Word) → List (ElemRegion × List Word) × Nat
  | ctr, [] => ([], ctr)
  | ctr, d :: r =>
    let (v, b, n) := rgEntry d
    if v then
      let nonce : Word := BitVec.ofNat 9 dev ++ BitVec.ofNat 55 ctr
      let (rest, c) := rgAssign dev (ctr + 1) r
      (({ valid := true, base := b, size := n, nonce, gen := 0 }, [(d.getD 2 0) &&& 0xFFFFFFFF#64, nonce]) :: rest, c)
    else
      let (rest, c) := rgAssign dev ctr r
      (({ valid := false, base := b, size := n, nonce := 0, gen := 0 }, []) :: rest, c)

/-- Writes the assigned nonce and gen dwords of each valid entry back into the table. -/
def State.rgStore (s : State) (va : Word) : List (List Word) → Except Trap State
  | [] => .ok s
  | [g, n] :: r =>
    match s.writeDword (va + 16) g with
    | .error t => .error t
    | .ok s => match s.writeDword (va + 24) n with
      | .error t => .error t
      | .ok s => s.rgStore (va + 32) r
  | _ :: r => s.rgStore (va + 32) r

/-- Splits dwords into entries of four. -/
def entries4 : List Word → List (List Word)
  | a :: b :: c :: d :: r => [a, b, c, d] :: entries4 r
  | _ => []

def State.writeRgtab (s : State) (v : Word) : Except Trap State :=
  let w := s.cur.world
  let n := (v.extractLsb' 0 7).toNat
  let va := v &&& ~~~(0xFFF#64)
  if 64 < n then .error s.cur.illegal else
  match s.readDwords va (4 * n) with
  | .error t => .error t
  | .ok ds =>
    let es := entries4 ds
    let live := es.filter fun d => (rgEntry d).1
    let spans : List (Nat × Nat) := live.map fun d => (rgEntry d).2
    let ctr := (s.worlds[w.toNat]).nonceCtr
    if !(live.all rgResOk && spans.all (fun e => rgInside e.1 e.2 && s.rgOwned w e.1 e.2) && rgDisjoint spans) ||
        2 ^ 55 < ctr + live.length then .error s.cur.illegal
    else
      let (rs, c) := rgAssign s.device ctr es
      match s.rgStore va (rs.map (·.2)) with
      | .error t => .error t
      | .ok s =>
        let s := { s with mem := spans.foldl (fun (m : Memory) (e : Nat × Nat) => m.clearWritten e.1 e.2) s.mem }
        .ok (s.modWorld w.toNat fun x => { x with rgtab := v &&& 0xFFFFFFFFFFFFF07F#64, regions := rs.map Prod.fst, nonceCtr := c })

/-- The end of a rekey (R177): the region's gen rises or it takes a new nonce, its written bits clear, held accesses go on. -/
def State.rekeyDone (s : State) (w : Nat) : State :=
  let x := s.worlds.getD w .reset
  match x.rgkey with
  | none => s
  | some (i, _) =>
    let wrap : Bool := match x.regions[i]? with | some r => r.gen == 0xFFFFFFFF#32 | none => false
    let regions := x.regions.modify i fun r =>
      if wrap then { r with nonce := BitVec.ofNat 9 s.device ++ BitVec.ofNat 55 x.nonceCtr, gen := 0 } else { r with gen := r.gen + 1 }
    let m := match x.regions[i]? with | some r => s.mem.clearWritten r.base r.size | none => s.mem
    ({ s with mem := m }).modWorld w fun x => { x with rgkey := none, regions, nonceCtr := if wrap then x.nonceCtr + 1 else x.nonceCtr }

/-- A write of rgkey starts the rekey of a region (R177); one that is in progress ends first. -/
def State.writeRgkey (s : State) (v : Word) : Except Trap State :=
  let w := s.cur.world.toNat
  let s := s.rekeyDone w
  let x := s.worlds.getD w .reset
  let i := (v.extractLsb' 0 6).toNat
  match x.regions[i]? with
  | some r =>
    if !r.valid then .error (illegalN v.toNat)
    else if r.gen == 0xFFFFFFFF#32 && 2 ^ 55 ≤ x.nonceCtr then .error s.cur.illegal
    else .ok (s.modWorld w fun x => { x with rgkey := some (i, s.nextOp) })
  | none => .error (illegalN v.toNat)

/-! Translation caches (R168). -/

/-- The end of an invalidation: the named entries of the world leave every TLB. -/
def State.tlbDone (s : State) (w : BitVec 6) : State :=
  match (s.worlds[w.toNat]).tlbinv with
  | none => s
  | some v =>
    let hit (e : TlbEntry) : Bool := e.world == w && (v.getLsbD 0 || e.page == (v.extractLsb' 16 39).toNat)
    ({ s with mem := { s.mem with tlb := s.mem.tlb.filter fun e => !hit e } }).modWorld w.toNat fun x => { x with tlbinv := none }
def State.writeTlbinv (s : State) (v : Word) : State :=
  (s.tlbDone s.cur.world).modWorld s.cur.world.toNat fun x => { x with tlbinv := some v }

/-! Scratchpad reservations (R22). -/

/-- Tailoring and refresh intervals in units: base and size. -/
def spresTl (v : Word) : Nat × Nat := ((v.extractLsb' 38 8).toNat, (v.extractLsb' 46 9).toNat)
def spresRf (v : Word) : Nat × Nat := ((v.extractLsb' 21 8).toNat, (v.extractLsb' 29 9).toNat)
/-- Whether a refresh or tailoring operation of a world is in progress. -/
def State.reserving (s : State) (w : BitVec 6) : Bool :=
  s.ops.any fun o => (match s.hartAt o.core o.ctx with | some h => h.world == w | none => false) &&
    match o.kind with
    | .ct k => (match k.op with | .refresh .. => true | _ => false)
    | .tailor .. | .tailorBusy => true
    | _ => false
/-- The first condition of R22 that refuses a value of spres; 0 for none. -/
def State.spresCheck (s : State) (w : BitVec 6) (v : Word) : Nat :=
  let tl := spresTl v
  let rf := spresRf v
  let hits (a : Nat × Nat) : Bool :=
    (List.range 64).any (fun u => u != w.toNat &&
      let x := (s.worlds.getD u .reset).spres
      (overlap a.1 a.2 (spresTl x).1 (spresTl x).2 || overlap a.1 a.2 (spresRf x).1 (spresRf x).2)) ||
    s.sched.allocs.any fun x => overlap (a.1 * 65536) (a.2 * 65536) x.off x.size
  if 256 < tl.1 + tl.2 || 256 < rf.1 + rf.2 || overlap tl.1 tl.2 rf.1 rf.2 then 1
  else if (v.extractLsb' 55 9).toNat < tl.2 + rf.2 then 2
  else if hits tl || hits rf then 3
  else if s.reserving w then 4
  else 0
/-- A write of spres; only machine firmware sets the quota (R22, log 14). -/
def State.writeSpres (s : State) (v : Word) : Except Trap State :=
  let w := s.cur.world
  let old := (s.worlds[w.toNat]).spres
  let quota := if s.cur.level = .machine then v &&& 0xFF80000000000000#64 else old &&& 0xFF80000000000000#64
  let new := quota ||| (v &&& 0x7FFFFFFFE00000#64)
  match s.spresCheck w new with
  | 0 => .ok (s.modWorld w.toNat fun x => { x with spres := new })
  | n + 1 => .error (illegalN (n + 1))

/-- A write of alpol (R190): nothing changes while lock is set. -/
def State.writeAlpol (s : State) (v : Word) : State :=
  if s.thatum.alpol.getLsbD 63 then s else { s with thatum := { s.thatum with alpol := v &&& 0x8000000000003FFF#64 } }

/-! The map. -/

/-- hwid (R270). -/
def State.hwid (s : State) : Word :=
  let h := s.cur
  (BitVec.ofNat 9 s.device ++ h.level.bits ++ h.world ++ BitVec.ofNat 2 (h.lanes.log2 - 2) ++ BitVec.ofNat 5 h.lane0 ++
    BitVec.ofNat 3 h.ctx ++ BitVec.ofNat 10 h.core).setWidth 64

/-- fcsr as a read may find it: the flags of vector work in flight with or without (R51). -/
def State.fcsrSeen (s : State) : Word :=
  (s.opsOf s.cur).foldl (fun v o => match o.kind with
    | .vector f _ _ _ _ _ _ _ => if Config.pick s.free (2 ^ 36 + o.id) % 2 = 1 then v ||| f.setWidth 64 else v
    | _ => v) s.cur.csr.fcsr

/-- Whether a level reaches a CSR (R264). -/
def csrReach (l : Level) (c : Nat) : Bool :=
  c == 0x3C0 || (match l with
    | .user => c < 0x100
    | .supervisor => c < 0x200
    | .machine => c < 0x200 || 0x300 ≤ c)

/-- What a read of a CSR returns; none for a number that the map does not list. -/
def State.csrValue (s : State) (c : Nat) : Option Word :=
  let h := s.cur
  let w := s.worlds[h.world.toNat]
  let win := h.bankOf h.strap.pl
  if 0x010 ≤ c ∧ c < 0x020 then some ((h.hook (BitVec.ofNat 4 c)).setWidth 64)
  else if 0x020 ≤ c ∧ c < 0x026 then some (h.csr.lcnt.getD (c - 0x020) 0)
  else if 0x026 ≤ c ∧ c < 0x02C then some (h.bank.lidx.getD (c - 0x026) 0)
  else if 0x140 ≤ c ∧ c < 0x160 then some (win.readX (BitVec.ofNat 5 (c - 0x140)))
  else if 0x160 ≤ c ∧ c < 0x170 then some ((win.readH (BitVec.ofNat 4 (c - 0x160))).setWidth 64)
  else match c with
  | 0x000 => some s.fcsrSeen
  | 0x001 => some h.csr.vlSeen
  | 0x002 => some (h.csr.vtypeSeen.setWidth 64)
  | 0x003 => some h.csr.vstart
  | 0x004 => some h.csr.vlmaxSeen
  | 0x005 => some h.csr.vsbSeen
  | 0x006 => some h.csr.srseed
  | 0x007 => some h.csr.srdraw
  | 0x008 => some h.csr.ctfloor
  | 0x009 => some (h.bank.ldest.setWidth 64)
  | 0x00A => some h.csr.brstep
  | 0x031 => some h.csr.slstat
  | 0x040 => some s.cycle
  | 0x041 => some h.csr.instret
  | 0x042 => some s.time
  | 0x050 => some s.hwid
  | 0x105 => some h.csr.hvl
  | 0x106 => some h.csr.hvtype
  | 0x107 => some h.csr.hvstart
  | 0x108 => some h.csr.srvec
  | 0x109 => some h.csr.sresume
  | 0x10A => some h.csr.stimecmp
  | 0x110 => some w.ecorr
  | 0x111 => some w.eunc
  | 0x112 => some w.epois
  | 0x113 => some w.elink
  | 0x114 => some w.eviol
  | 0x118 => some w.ptroot
  | 0x119 => some (if w.tlbinv.isSome then 1 else 0)
  | 0x11A => some h.csr.poolmap
  | 0x11B => some w.rgtab
  | 0x11C => some (if w.rgkey.isSome then 1 else 0)
  | 0x11D => some w.spres
  | 0x180 => some (h.status .supervisor)
  | 0x181 => some h.strap.tvec
  | 0x182 => some h.strap.epc
  | 0x183 => some h.strap.cause
  | 0x184 => some h.strap.detail
  | 0x380 => some (h.status .machine)
  | 0x381 => some h.mtrap.tvec
  | 0x382 => some h.mtrap.epc
  | 0x383 => some h.mtrap.cause
  | 0x384 => some h.mtrap.detail
  | 0x3A0 => some s.thatum.alpol
  | 0x3C0 => some (w.attr.setWidth 64)
  | _ => none

/-- CSRs whose every field is RO (R264). -/
def csrReadOnly (c : Nat) : Bool :=
  [0x001, 0x002, 0x004, 0x031, 0x040, 0x041, 0x042, 0x050, 0x3C0].contains c || (0x010 ≤ c && c < 0x020) || (0x026 ≤ c && c < 0x02C) ||
    (0x110 ≤ c && c < 0x115)

/-- The number under which the poison of a CSR stands: ldest and lidx0 to lidx5, of which each level has its own (R196), stand 4,096
times the level higher. -/
def Level.csrKey (l : Level) (c : Nat) : Nat := if c = 0x009 ∨ (0x026 ≤ c ∧ c < 0x02C) then c + 4096 * l.bits.toNat else c
/-- Whether a CSR is poisoned (R211): a hook, a register of the window's bank, or one marked so; an ldest that names a register has been
written since. -/
def Hart.csrPoison (h : Hart) (c : Nat) : Bool :=
  if 0x010 ≤ c ∧ c < 0x020 then h.ph (BitVec.ofNat 4 c)
  else if 0x140 ≤ c ∧ c < 0x160 then (h.bankOf h.strap.pl).poisonX (BitVec.ofNat 5 (c - 0x140))
  else if 0x160 ≤ c ∧ c < 0x170 then (h.bankOf h.strap.pl).poisonH (BitVec.ofNat 4 (c - 0x160))
  else h.pcsr.contains (h.level.csrKey c) && (c != 0x009 || h.bank.ldest == 0)

/-- Applies a change to the unbanked CSRs of the issuing hart. -/
def State.modCsr (s : State) (f : Csrs → Csrs) : State := s.modCur fun h => { h with csr := f h.csr }
def State.modTrap (s : State) (l : Level) (f : TrapCsrs → TrapCsrs) : State := s.modCur fun h => h.setTrapCsrs l (f (h.trapCsrs l))
/-- Applies a change to the bank that sstatus.pl names (R194). -/
def State.modWindow (s : State) (f : Bank → Bank) : State := s.modCur fun h => h.modBank h.strap.pl f

/-- The poison of a CSR after a write of it (R212). -/
def State.markCsr (s : State) (c : Nat) (p : Bool) : State :=
  if 0x140 ≤ c ∧ c < 0x160 then (if p then s.modWindow fun b => b.writeX (BitVec.ofNat 5 (c - 0x140)) 0 true else s)
  else if 0x160 ≤ c ∧ c < 0x170 then (if p then s.modWindow fun b => b.markH (BitVec.ofNat 4 (c - 0x160)) else s)
  else s.modCur fun h => { h with pcsr := if p then insertSorted (h.level.csrKey c) h.pcsr else h.pcsr.filter (· != h.level.csrKey c) }

/-- A write of vsb: what `csrr` reads follows, and an earlier strip's pending copy no longer touches it (R118, R243). -/
def Hart.writeVsb (h : Hart) (v : Word) : Hart :=
  { h with csr := { h.csr with vsb := v, vsbSeen := v },
           pend := h.pend.map fun p => match p.dest with | .cfg vl vt _ m => { p with dest := .cfg vl vt v m } | _ => p }

/-- A vector base takes a word's address: bits [1:0] of a pc are no part of it but for a pair's second half, which only `eret` returns
to (R215, log 71). -/
def handlerAt (n : Word) : Word := n &&& ~~~3#64
/-- The fields of hvtype: those of vtype, whose bits [27:25] are reserved (R5, R271, R275). -/
def vtypeFields (n : Word) : Word := n &&& 0xF1FFFFFF#64
/-- The fields of a cause register; bits [23:20] are reserved (R5, R194). -/
def causeFields (n : Word) : Word := n &&& ~~~0xF00000#64

/-- The write of a CSR that the level reaches and that has an RW or W1C field: `n` is the new value of its RW fields, `clr` its
W1C bits to clear (R264). -/
def State.csrPut (s : State) (c : Nat) (n clr : Word) : Except Trap State :=
  if 0x020 ≤ c ∧ c < 0x026 then .ok (s.modCsr fun x => { x with lcnt := x.lcnt.setIfInBounds (c - 0x020) n })
  else if 0x140 ≤ c ∧ c < 0x160 then .ok (s.modWindow fun b => b.writeX (BitVec.ofNat 5 (c - 0x140)) n false)
  else if 0x160 ≤ c ∧ c < 0x170 then .ok (s.modWindow fun b => b.writeH (BitVec.ofNat 4 (c - 0x160)) (n.setWidth 32))
  else match c with
  | 0x000 => .ok (s.modCsr fun x => { x with fcsr := n &&& 0xFF })
  | 0x003 => .ok (s.modCsr fun x => { x with vstart := n })
  | 0x005 => .ok (s.modCur fun h => h.writeVsb n)
  | 0x006 => .ok (s.modCsr fun x => { x with srseed := n })
  | 0x007 => .ok (s.modCsr fun x => { x with srdraw := n })
  | 0x008 => .ok (s.modCsr fun x => { x with ctfloor := n &&& 0xFFFF })
  | 0x009 => .ok (s.modCur fun h => h.modBank h.level fun b => { b with ldest := n.setWidth 5 })
  | 0x00A => .ok (s.modCsr fun x => { x with brstep := n })
  | 0x105 => .ok (s.modCsr fun x => { x with hvl := n })
  | 0x106 => .ok (s.modCsr fun x => { x with hvtype := vtypeFields n })
  | 0x107 => .ok (s.modCsr fun x => { x with hvstart := n })
  | 0x108 => .ok (s.modCsr fun x => { x with srvec := handlerAt n })
  | 0x109 => .ok (s.modCsr fun x => { x with sresume := n })
  | 0x10A => .ok (s.modCsr fun x => { x with stimecmp := n })
  | 0x118 => .ok (s.modWorld s.cur.world.toNat fun w => { w with ptroot := n &&& 0x7FFFFFFF0000 })
  | 0x119 => .ok (s.writeTlbinv n)
  | 0x11A => s.writePoolmap n
  | 0x11B => s.writeRgtab n
  | 0x11C => s.writeRgkey n
  | 0x11D => s.writeSpres n
  | 0x180 => .ok (s.modCur fun h => h.setStatus .supervisor n clr)
  | 0x181 => .ok (s.modTrap .supervisor fun t => { t with tvec := handlerAt n })
  | 0x182 => .ok (s.modTrap .supervisor fun t => { t with epc := n })
  | 0x183 => .ok (s.modTrap .supervisor fun t => { t with cause := causeFields n })
  | 0x184 => .ok (s.modTrap .supervisor fun t => { t with detail := n })
  | 0x380 => .ok (s.modCur fun h => h.setStatus .machine n clr)
  | 0x381 => .ok (s.modTrap .machine fun t => { t with tvec := handlerAt n })
  | 0x382 => .ok (s.modTrap .machine fun t => { t with epc := n })
  | 0x383 => .ok (s.modTrap .machine fun t => { t with cause := causeFields n })
  | 0x384 => .ok (s.modTrap .machine fun t => { t with detail := n })
  | 0x3A0 => .ok (s.writeAlpol n)
  | _ => .error s.cur.illegal

/-- The old value that `csrs` and `csrc` combine with: the register itself, ahead of what `csrr` reads of vsb and fcsr. -/
def State.csrOld (s : State) (c : Nat) : Word :=
  if c = 0x005 then s.cur.csr.vsb else if c = 0x000 then s.cur.csr.fcsr else (s.csrValue c).getD 0

/-- A CSR write by any of the three forms (R264). -/
def State.csrWrite (s : State) (c : Nat) (f : CsrForm) (v : Word) : Except Trap State :=
  if !csrReach s.cur.level c || (s.csrValue c).isNone || csrReadOnly c then .error s.cur.illegal
  else s.csrPut c (f.rw (s.csrOld c) v) (f.w1c v)

/-- The table that a write of poolmap or rgtab makes the device read (R171, R174): addresses and lengths. -/
def tableSpan (c : Nat) (n : Word) : List (Nat × Nat) :=
  let va := (n &&& ~~~(0xFFF#64)).toNat
  if c = 0x11A ∧ (n.extractLsb' 0 12).toNat ≤ 1024 then [(va, 8 * (n.extractLsb' 0 12).toNat)]
  else if c = 0x11B ∧ (n.extractLsb' 0 7).toNat ≤ 64 then [(va, 32 * (n.extractLsb' 0 7).toNat)] else []
/-- What the write of a value must wait for: the parts of its table that lie on other devices are requested first (R143). -/
def State.csrAsk (s : State) (c : Nat) (n : Word) : Option State :=
  if tableSpan c n = [] then none else
  let needs := s.spanNeeds s.cur s.cur s.cur.level (tableSpan c n)
  if needs.isEmpty && !s.asking s.cur then none else some ((s.askAll s.cur needs).holdOn .far)
/-- The answers have been taken up. -/
def State.tookTable (s : State) (c : Nat) (n : Word) : State := if tableSpan c n = [] then s else s.dropAsks s.cur

/-- Whether a read of a CSR waits for an earlier instruction (R119, R243): vl, vtype, vlmax and vsb after `setvl`, fcsr after
a flag-raising instruction, slstat after a sleeve command. -/
def State.awaitsCsr (s : State) (c : Nat) : Bool :=
  ((c == 1 || c == 2 || c == 4 || c == 5) && s.cur.pend.any fun p => match p.dest with | .cfg _ _ _ _ => true | _ => false) ||
  (c == 0 && s.awaitsFlags) ||
  (c == 0x31 && (s.opsOf s.cur).any fun o => match o.kind with | .sleeve _ _ => true | _ => false)
/-- STRICT on an under-waited CSR (R119, R193). -/
def State.strictCsr (s : State) (c : Nat) : Except Trap Unit :=
  failIf (s.cur.strap.strict && s.awaitsCsr c) (strictTrap 5 c)

end Sys2Proof.Machine
end

