-- ==== Sys2Proof/Machine/Control.lean ====
section
/-! DEFINITION. Control: branches and jumps (R249), hooks and delays (R251 to R253), hardware loops (R254 to R256), `halt` and
`launch` (R258, R259). -/
namespace Sys2Proof.Machine

/-- A conditional branch (R249). -/
def State.branch (s : State) (a b : BitVec 5) (off : BitVec 16) (taken : Bool) : Out :=
  s.attempt do
    s.strictX [a, b]
    .ok (if taken then (s.useX [a, b]).retireJump (s.cur.targetBR off) false else (s.useX [a, b]).retire)

/-- BEQ (R249). -/
def execBeq (a b : BitVec 5) (off : BitVec 16) (s : State) : Out := s.branch a b off (s.cur.x a == s.cur.x b)
/-- BNE (R249). -/
def execBne (a b : BitVec 5) (off : BitVec 16) (s : State) : Out := s.branch a b off (s.cur.x a != s.cur.x b)
/-- BLT (R249). -/
def execBlt (a b : BitVec 5) (off : BitVec 16) (s : State) : Out := s.branch a b off ((s.cur.x a).slt (s.cur.x b))
/-- BGE (R249). -/
def execBge (a b : BitVec 5) (off : BitVec 16) (s : State) : Out := s.branch a b off (!(s.cur.x a).slt (s.cur.x b))
/-- BLTU (R249). -/
def execBltu (a b : BitVec 5) (off : BitVec 16) (s : State) : Out := s.branch a b off ((s.cur.x a).ult (s.cur.x b))
/-- BGEU (R249). -/
def execBgeu (a b : BitVec 5) (off : BitVec 16) (s : State) : Out := s.branch a b off (!(s.cur.x a).ult (s.cur.x b))

/-- JAL (R224, R249): the link register takes the next word's address; x0 makes no call (R256). -/
def execJal (d : BitVec 5) (off : BitVec 21) (s : State) : Out :=
  .next (((s.writeX d (s.cur.wordPc + 4) false).setLdest d).retireJump (s.cur.targetJL off) (d != 0))
/-- JALR (R249): ALIGN at a target that is no word. -/
def execJalr (d a : BitVec 5) (imm : BitVec 16) (s : State) : Out :=
  let t := s.cur.x a + imm16s imm
  s.attempt do
    s.strictX [a]
    failIf (t.extractLsb' 0 2 != 0) (alignTrap t)
    .ok ((((s.useX [a]).writeX d (s.cur.wordPc + 4) false).setLdest d).retireJump t (d != 0))

/-- The address just past a loop's body (R250). -/
def Hart.loopEnd (h : Hart) (off : BitVec 9) : Word := h.wordPc + BitVec.ofNat 64 (4 * off.toNat)
/-- Whether the nest can take an entry that ends at `stop` (R254). -/
def State.loopRoom (s : State) (stop : Word) : Except Trap Unit :=
  let nest := s.cur.bank.nest
  failIf (6 ≤ nest.length || (match nest with | e :: _ => e.stop.ult stop | [] => false)) s.cur.illegal
/-- Pushes a nest entry and goes on, or skips the body when the count is 0 (R254). -/
def State.loopPush (s : State) (count stop : Word) (fixed : Bool) (lvl : BitVec 3) : Except Trap State :=
  if count = 0 then .ok (s.modCur fun h => { h.count 1 with pc := stop })
  else
    let e : LoopEntry := { count, stop, start := s.cur.wordPc + 4, fixed, lvl }
    .ok (s.modCur fun h => ({ (h.count 1).modBank h.level fun b =>
      { b with nest := e :: b.nest, lidx := if fixed then b.lidx else b.lidx.setIfInBounds lvl.toNat 0 } with
      pc := h.wordPc + 4, pcsr := if fixed then h.pcsr else h.pcsr.filter (· != h.level.csrKey (0x026 + lvl.toNat)) }))

/-- LOOP (R254): the count is lcnt[lvl]. -/
def execLoop (lvl : BitVec 3) (off : BitVec 9) (s : State) : Out :=
  s.attempt do
    s.loopRoom (s.cur.loopEnd off)
    s.loopPush (s.cur.csr.lcnt.getD lvl.toNat 0) (s.cur.loopEnd off) false lvl
/-- LOOPR (R254): the count is X[A]. -/
def execLoopr (a : BitVec 5) (off : BitVec 9) (s : State) : Out :=
  s.attempt do
    s.loopRoom (s.cur.loopEnd off)
    s.strictX [a]
    s.loopPush (s.cur.x a) (s.cur.loopEnd off) true 0

/-- DLY (R117, R253): one instruction that takes n slots, one in each of n cycles; other harts may issue in those that follow its
own. -/
def execDly (n : BitVec 16) (s : State) : Out :=
  .next (if n.toNat ≤ 1 then s.retire else s.retire.holdOn (.dly (n.toNat - 1)))

/-- Whether a wait is satisfied: (H[N] − thr) is at least 0 as a signed 32-bit number (R251). -/
def Hart.waitMet (h : Hart) (r : BitVec 4) (thr : Half) : Bool := !(h.hook r - thr).msb
/-- What a wait on a hook must report first: an engine fault of a command with that hook (R199), a write acknowledgement that
timed out (R147); hooks are those of the bank in use (R196). -/
def Hart.waitTrap (h : Hart) (r : BitVec 4) : Option Trap :=
  match h.faults.find? fun f => f.lvl == h.level && f.hook == r with
  | some f => some f.trap
  | none => (h.lateAck.find? fun f => f.lvl == h.level && f.hook == r).map (·.trap)
/-- A `wait` passes: it has seen the posts of its hook (R404); the count of a poisoned hook is a control decision (R212). -/
def State.waitPast (s : State) (r : BitVec 4) : State :=
  ((if s.cur.ph r then s.countPoison s.cur 1 else s).modCur fun h => h.seenPosts h.level r).retire

/-- WAIT (R251). -/
def execWait (a : BitVec 5) (h : BitVec 4) (n : BitVec 12) (s : State) : Out :=
  let thr : Half := (s.cur.x a).setWidth 32 + imm12h n
  s.attempt do
    s.strictX [a]
    match s.cur.waitTrap h with
    | some t => .error t
    | none => .ok (if s.cur.waitMet h thr then (s.useX [a]).waitPast h else (s.useX [a]).holdClosing (.wait h thr))

/-- Applies a change to the bank in use of the issuing hart. -/
def State.inBank (s : State) (f : Bank → Bank) : State := s.modCur fun h => h.modBank h.level f
/-- POST (R252). -/
def execPost (h : BitVec 4) (n : BitVec 12) (s : State) : Out := .next (s.inBank fun b => b.addH h (imm12h n)).retire
/-- HSET (R252): posts of results that land in its slot are added to the value that it sets. -/
def execHset (a : BitVec 5) (h : BitVec 4) (s : State) : Out :=
  s.attempt do
    s.strictX [a]
    .ok (s.inBank fun b => if s.cur.px a then b.markH h
      else b.writeH h ((s.cur.x a).setWidth 32 + BitVec.ofNat 32 (s.cur.duePosts h))).retire

/-- `halt` once nothing of the hart is outstanding (R204, R258): unreported faults trap; else the hart ends or parks. -/
def State.haltNow (s : State) : Except Trap State :=
  match s.cur.faults, s.cur.lateAck with
  | f :: _, _ => .error f.trap
  | [], f :: _ => .error f.trap
  | [], [] =>
    let s := s.closeConvoy false
    .ok (if s.cur.level = .supervisor && s.cur.csr.sresume != 0 then s.parkHart s.cur else s.endHart s.cur)
/-- HALT (R258). -/
def execHalt (s : State) : Out :=
  s.attempt (if s.drained s.cur then (s.modCur Hart.landAll).haltNow else .ok (s.holdOn .halt))

/-- An operand of n bytes lies wholly in the hart's TCM slice (R403). -/
def Hart.inSlice (h : Hart) (a : Word) (n : Nat) : Bool := 0x100000 ≤ a.toNat && a.toNat + n ≤ 0x100000 + h.tcmSize
/-- n bytes of the hart's TCM slice. -/
def State.tcmBytes (s : State) (a : Word) (n : Nat) : List Byte :=
  let key := tcmKey s.cur.core (s.cur.tcmOff + (a.toNat - 0x100000))
  if s.mem.anyPoison key n then
    (List.range n).map fun i => if s.mem.poisoned (key + i) then 0 else s.mem.read (key + i)
  else s.mem.readBytes key n

/-- LAUNCH (R104, R107, R259). The launch is a release at scope dev. -/
def execLaunch (a : BitVec 5) (h : BitVec 4) (s : State) : Out :=
  let addr := s.cur.x a
  s.attempt do
    s.strictX [a]
    failIf (!s.cur.inSlice addr 64) (accessTrap 11 .load addr)
    failIf (addr.toNat % 64 != 0) (alignTrap addr)
    let s1 := s.drainAll false
    let p := BitVec.ofNat 512 (ofBytes (s1.tcmBytes addr 64))
    match s1.packetCheck p (some s.cur.world) with
    | 0 =>
      s.counting [a] (.ok (if 64 ≤ (s1.queue (pkQueue p)).slots.length then .held (s1.holdOn (.launch p h))
        else .done ((s1.enqueue p (pkQueue p)).postNow h).retire))
    | c => .error (illegalN c)

end Sys2Proof.Machine
end

