-- ==== Sys2Proof/Machine/Engine.lean ====
section
/-! DEFINITION. Engine channels (R12, R199), the copy engine (R322 to R325) and barriers (R326). -/
namespace Sys2Proof.Machine

/-! Channels. -/

/-- The channel that an operation in flight belongs to. -/
def OpKind.chan : OpKind → Option Chan
  | .copy .. | .copied _ _ => some .copy
  | .bar .. => some .bar
  | .sleeve _ _ => some .sleeve
  | .tailor .. | .tailorBusy => some .tailor
  | .ct w => (match w.op with | .refresh .. => none | _ => some .cipher)
  | _ => none
/-- The commands of a hart's channel, in push order (R12). -/
def State.chanOps (s : State) (core ctx : Nat) (c : Chan) : List Op :=
  s.ops.filter fun o => o.core == core && o.ctx == ctx && o.kind.chan == some c
/-- A channel holds 16 commands (R12). -/
def State.chanFull (s : State) (h : Hart) (c : Chan) : Bool := 16 ≤ (s.chanOps h.core h.ctx c).length
/-- A push reports an unreported fault of its channel (R199). -/
def State.pushGate (s : State) (c : Chan) : Except Trap Unit :=
  match s.cur.faults.find? fun f => f.chan == c with
  | some f => .error f.trap
  | none => .ok ()
/-- Whether an operation is the oldest of its channel. -/
def State.isHead (s : State) (o : Op) : Bool :=
  match o.kind.chan with
  | some c => (match (s.chanOps o.core o.ctx c).head? with | some p => p.id == o.id | none => false)
  | none => false
def State.setKind (s : State) (id : Nat) (k : OpKind) : State :=
  { s with ops := s.ops.map fun p => if p.id == id then { p with kind := k } else p }

/-- What a faulted command reports (R199): the element, the underlying code, the address. -/
def engineTrap (k : Nat) (t : Trap) (store : Bool) : Trap :=
  { t with code := cENGINE, cause := t.code, store := t.store || store, idx := BitVec.ofNat 40 k, viol := false }
/-- A command stops at its first faulting element: the fault is held for report, the channel's later commands are cancelled (R199). -/
def State.engineFault (s : State) (o : Op) (c : Chan) (t : Trap) : State :=
  let gone (p : Op) : Bool := p.core == o.core && p.ctx == o.ctx && p.kind.chan == some c && o.id ≤ p.id
  let s' : State := { s with ops := s.ops.filter fun p => !gone p }
  s'.modHart o.core o.ctx fun h => { h with faults := h.faults ++ [{ chan := c, lvl := o.lvl, hook := o.hook, trap := t }] }

/-- Counts the violation behind an engine command's fault (R213). -/
def State.countFault (s : State) (o : Op) (t : Trap) : State :=
  match s.hartAt o.core o.ctx with
  | some h => s.countDenied h.world t
  | none => s

/-! Copy commands. -/

/-- R200: the report of a `copy` in rising order has the store bit set. -/
def CopyCmd.storeBit : CopyCmd → Bool
  | .copy n w src dst => copyRising n w src dst
  | .copyn .. => false
/-- The result element: the bytes copied (R324). -/
def CopyCmd.result : CopyCmd → Option Word
  | .copyn _ _ w dims true => some (BitVec.ofNat 64 (w * (dims.map (·.1)).foldl (· * ·) 1))
  | _ => none

/-- The engine's own requester for far data of a hart's command. -/
def Hart.engine (h : Hart) : Hart := { h with ctx := h.ctx + 8 }

/-- The request that one element must still send (R143, R176, R178): the read of its source, then, once that has answered, the
claims of its destination. -/
def State.copyNeed (s : State) (h : Hart) (l : Level) (w : Nat) (e : Nat × Word × Word) : Option (Target × FarAsk × (Nat → Msg)) :=
  match translate s h l e.2.1 w .load true with
  | .error _ => none
  | .ok src =>
    match (if src.isFar then s.farNeed h.engine src w true false else none) with
    | some (a, m) => some (src, a, m)
    | none =>
      if s.asking h.engine then none
      else if src.isFar && (match s.farRead h.engine src w .load e.2.1 with | .ok _ => false | .error _ => true) then none
      else match translate s h l e.2.2 w .store true with
      | .error _ => none
      | .ok dst => if dst.isFar then (s.farNeed h.engine dst w false true).map fun (a, m) => (dst, a, m) else none

/-- A byte that the command has itself replaced. -/
def CopyRun.old (r : CopyRun) (key : Nat) : Option (Byte × Bool) := (r.prior.find? fun e => e.1 == key).map (·.2)
/-- Element-mode data as the device holds it: ciphertext, zeros for a unit that is not written (R172, R175). -/
def State.readCipher (s : State) (w : BitVec 6) (t : Target) (n : Nat) : List Byte × Bool :=
  if t.erased s w || s.mem.anyPoison t.key n then (List.replicate n 0, true)
  else ((List.range n).map fun i => if s.mem.unitWritten (t.key + i) then s.mem.read (t.key + i) else 0, false)
/-- Whether a copy's destination is the TCM or the scratchpad: element-mode data stays ciphertext there (R172, log 97). -/
def State.copyRaw (s : State) (h : Hart) (l : Level) (w : Nat) (dst : Word) : Bool :=
  match translate s h l dst w .store true with
  | .ok t => t.home == .tcm || t.home == .spad
  | .error _ => false
/-- The bytes of a local source element: an element of a `copyn` that the command has itself written is read old or new (R8, R324). -/
def State.copySource (s : State) (h : Hart) (w : Nat) (r : CopyRun) (i : Nat) (src : Target) (raw : Bool) : List Byte × Bool :=
  let (bs, p) := if raw && src.enc == 2 then s.readCipher h.world src w else s.readAt h.world src w
  if !r.prior.isEmpty && Config.pick s.free (2 ^ 37 + i) % 2 == 1 then
    (bs.zipIdx.map fun (b, j) => ((r.old (src.key + j)).map (·.1)).getD b,
     (List.range w).any fun j => ((r.old (src.key + j)).map (·.2)).getD p)
  else (bs, p)
/-- Moves one element: the state and the far acknowledgement to wait for, or the fault (R323, R176, R212). -/
def State.copyElem (s : State) (h : Hart) (l : Level) (w : Nat) (r : CopyRun) (e : Nat × Word × Word) :
    Except Trap (State × List (Nat × Nat)) :=
  match translate s h l e.2.1 w .load true with
  | .error t => .error t
  | .ok src =>
    let data : Except Trap (List Byte × Bool) :=
      if src.isFar then match s.farRead h.engine src w .load e.2.1 (s.copyRaw h l w e.2.2) with
        | .error t => .error t
        | .ok bs => .ok (bs, false)
      else .ok (s.copySource h w r e.1 src (s.copyRaw h l w e.2.2))
    match data with
    | .error t => .error t
    | .ok (bs, p) =>
      match translate s h l e.2.2 w .store true with
      | .error t => .error t
      | .ok dst =>
        if dst.isFar then
          match s.farClaims h.engine dst w true .store e.2.2 with
          | .error t => .error t
          | .ok us => .ok (s.farWrite h dst bs p us)
        else match claimTarget s dst w with
        | .error i => .error (keystreamTrap (e.2.2 + BitVec.ofNat 64 i))
        | .ok s => .ok (s.performStore h { target := dst, data := bs, poison := p }, [])
/-- The bytes that an element of a `copyn` is about to replace. -/
def State.copyPrior (s : State) (h : Hart) (l : Level) (w : Nat) (e : Nat × Word × Word) : List (Nat × Byte × Bool) :=
  match translate s h l e.2.2 w .store true with
  | .ok dst => if dst.isFar then [] else
    let (bs, p) := s.readAt h.world dst w
    bs.zipIdx.map fun (b, j) => (dst.key + j, b, p)
  | .error _ => []

/-- Whether an element of the command numbered `id` lies in a region that has been under rekey since before the command (R177). -/
def State.copyHeld (s : State) (h : Hart) (l : Level) (id w : Nat) (e : Nat × Word × Word) : Bool :=
  let held (va : Word) (acc : Acc) : Bool := match translate s h l va w acc true with
    | .ok t => s.rekeyHolds h.world id t
    | .error _ => false
  held e.2.1 .load || held e.2.2 .store

/-- What a copy command has come to: it waits for an answer or a rekey, has moved all its elements, or stops at a fault. -/
inductive CopyStop where
  | waits | moved | fault (k : Nat) (t : Trap)
deriving DecidableEq, Repr

/-- Moves the elements of a command in its order, up to one that faults, that must still send a request, or that waits. A later
element claims nothing before it (R176). -/
def State.copyRun (s : State) (h : Hart) (l : Level) (id w : Nat) (multi : Bool) (r : CopyRun) :
    List (Nat × Word × Word) → State × CopyRun × CopyStop
  | [] => (s, r, .moved)
  | e :: es =>
    if s.copyHeld h l id w e then (s, r, .waits)
    else match s.copyNeed h l w e with
    | some (t, a, m) => (s.ask h.engine t a m, r, .waits)
    | none =>
      if s.asking h.engine then (s, r, .waits)
      else match s.copyElem h l w r e with
      | .error t => (s.dropAsks h.engine, r, .fault e.1 t)
      | .ok (u, ws) =>
        let prior := if multi then s.copyPrior h l w e ++ r.prior else r.prior
        (u.dropAsks h.engine).copyRun h l id w multi { r with pos := r.pos + 1, waits := r.waits ++ ws, prior } es

/-- Runs a copy command that is the head of its channel from where it stands. -/
def State.runCopy (s : State) (o : Op) (cmd : CopyCmd) (r : CopyRun) : State × CopyRun × CopyStop :=
  let h := (s.hartAt o.core o.ctx).getD s.cur
  let multi : Bool := match cmd with | .copyn .. => true | .copy .. => false
  s.copyRun h o.lvl o.id cmd.elems.1 multi { r with started := true } (cmd.elems.2.drop r.pos)

/-! Turns of an engine (R12). -/

/-- Whether a command is the head of its channel and its engine has not taken it up. -/
def State.mayStart (s : State) (o : Op) : Bool :=
  s.isHead o && (match o.kind with
    | .copy _ r => !r.started
    | _ => false)
/-- The turns from the channel that an engine served last to the channel of an operation, in rising core and context (DESIGN CHOICE, log
86). -/
def State.turnsTo (s : State) (c : Chan) (o : Op) : Nat :=
  let last := ((s.turns.find? fun e => e.1 == clusOf o.core && e.2.1 == c).map (·.2.2)).getD 6143
  (8 * o.core + o.ctx + 6144 - last - 1) % 6144
/-- Whether an engine serves an operation next: of the cluster's channels with a command that can start, its own comes first after
the one served last. -/
def State.itsTurn (s : State) (c : Chan) (o : Op) : Bool :=
  s.ops.all fun p => !(clusOf p.core == clusOf o.core && p.kind.chan == some c && s.mayStart p &&
    s.turnsTo c p < s.turnsTo c o)
/-- An engine has served an operation's channel. -/
def State.served (s : State) (c : Chan) (o : Op) : State :=
  { s with turns := (clusOf o.core, c, 8 * o.core + o.ctx) :: s.turns.filter fun e => !(e.1 == clusOf o.core && e.2.1 == c) }

/-- Pushes a command's result into the cp FIFO, which holds 32 (R325). -/
def Hart.pushCp (h : Hart) (v : Word) (p : Bool) : Hart := { h with cpFifo := h.cpFifo ++ [(v, p)] }

/-- The end of a command whose data has moved: result, post; it waits while acknowledgements are due or the FIFO is full. -/
def State.copyEnd (s : State) (o : Op) (waits : List (Nat × Nat)) (res : Option Word) : State × Bool :=
  match s.hartAt o.core o.ctx with
  | none => (s.dropOp o.id, true)
  | some h =>
    if !waits.isEmpty || (res.isSome && 32 ≤ h.cpFifo.length) then (s.setKind o.id (.copied waits res), false)
    else
      let s := match res with
        | some v => s.modHart o.core o.ctx fun h => h.pushCp v false
        | none => s
      (s.finish o, true)

/-- What the head command of a copy channel can do now: start in its turn, move data, end, stop at its fault, or only wait. The
Bool says whether anything but a wait came about. -/
def State.copyAdvance (s : State) (o : Op) : State × Bool :=
  if !s.isHead o then (s, false) else
  match o.kind with
  | .copied ws res => s.copyEnd o ws res
  | .copy cmd r =>
    if !r.started && !s.itsTurn .copy o then (s, false) else
    let u := if r.started then s else s.served .copy o
    match u.runCopy o cmd r with
    | (t, r', .waits) => (t.setKind o.id (.copy cmd r'), r' != r || t.nextOp != s.nextOp)
    | (t, _, .fault k e) => ((t.countFault o e).engineFault o .copy (engineTrap k e cmd.storeBit), true)
    | (t, r', .moved) => ((t.copyEnd o r'.waits cmd.result).1, true)
  | _ => (s, false)

/-- Pushes a command that has passed its checks; a full channel holds the hart (R12, R116). -/
def State.pushCmd (s : State) (c : Chan) (hook : BitVec 4) (k : OpKind) (va : Word) : Issued :=
  if s.chanFull s.cur c then .held (s.holdOn (.channel c)) else .done ((s.drainAll false).start hook k false va).retire

/-- COPY (R323). -/
def execCopy (d a : BitVec 5) (h : BitVec 4) (s : State) : Out :=
  let t := s.cur.csr.vtype
  let w := vtSew t / 8
  s.attempt do
    failIf (vtVill t) s.cur.illegal
    s.strictX [a, d]
    s.pushGate .copy
    failIf ((s.cur.x a).toNat % w != 0) (alignTrap (s.cur.x a))
    failIf ((s.cur.x d).toNat % w != 0) (alignTrap (s.cur.x d))
    s.counting [a, d] (.ok (s.pushCmd .copy h (.copy (.copy s.cur.csr.vl.toNat w (s.cur.x a) (s.cur.x d))) (s.cur.x d)))

/-- Dword i of a byte string. -/
def dwordI (bs : List Byte) (i : Nat) : Word := dwordOf bs (8 * i)
/-- The first failing check of a `copyn` descriptor (R324), or its command. -/
def parseCopyn (bs : List Byte) : Except Nat CopyCmd :=
  let ctl := (bs.getD 16 0)
  let n := (ctl.extractLsb' 0 3).toNat
  let w := 2 ^ (ctl.extractLsb' 3 2).toNat
  let dims : List (Nat × Word × Word) := (List.range (min n 6)).map fun j => ((dwordI bs (3 + 3 * j)).toNat, dwordI bs (4 + 3 * j), dwordI bs (5 + 3 * j))
  let total : Nat := (dims.map (·.1)).foldl (· * ·) 1
  if ctl.extractLsb' 6 2 != 0 || ((bs.drop 17).take 7).any (· != 0) || (bs.drop (24 + 24 * min n 6)).any (· != 0) then .error 1
  else if n = 0 ∨ n = 7 then .error 2
  else if total = 0 ∨ 2 ^ 40 < total then .error 3
  else if (dwordI bs 0).toNat % w != 0 || (dwordI bs 1).toNat % w != 0 || dims.any (fun d => d.2.1.toNat % w != 0 || d.2.2.toNat % w != 0)
  then .error 4
  else .ok (.copyn (dwordI bs 0) (dwordI bs 1) w dims (ctl.getLsbD 5))

/-- COPYN (R324). -/
def execCopyn (a : BitVec 5) (h : BitVec 4) (s : State) : Out :=
  let addr := s.cur.x a
  s.attempt do
    s.strictX [a]
    s.pushGate .copy
    failIf (!s.cur.inSlice addr 192) (accessTrap 11 .load addr)
    failIf (addr.toNat % 64 != 0) (alignTrap addr)
    let desc := (s.drainAll false).tcmBytes addr 192
    match parseCopyn desc with
    | .error n => .error (illegalN n)
    | .ok cmd => s.counting [a] (.ok (s.pushCmd .copy h (.copy cmd) (dwordI desc 1)))

/-- The channel that a result FIFO belongs to. -/
def fifoChan (rp : Bool) : Chan := if rp then .tailor else .copy
/-- Whether a command in flight will push a result (R325). -/
def OpKind.pushes : OpKind → Bool
  | .copy (.copyn _ _ _ _ r) _ => r
  | .copied _ (some _) => true
  | .tailor .. | .tailorBusy => true
  | _ => false
/-- What an `epop` takes now: an element, or −1 where none will come (R325); none while it must wait. -/
def State.popNow (s : State) (h : Hart) (rp : Bool) : Option (Word × Bool) :=
  match (if rp then h.rpFifo else h.cpFifo) with
  | e :: _ => some e
  | [] => if (s.chanOps h.core h.ctx (fifoChan rp)).any fun o => o.kind.pushes then none else some (-1, false)
def Hart.popFifo (h : Hart) (rp : Bool) : Hart := if rp then { h with rpFifo := h.rpFifo.drop 1, rpOf := h.rpOf.drop 1 } else { h with cpFifo := h.cpFifo.drop 1 }
/-- Takes the element for the issuing hart: destination, post, retirement. -/
def State.popDone (s : State) (rp : Bool) (d : BitVec 5) (h : BitVec 4) (e : Word × Bool) : State :=
  (((s.modCur fun x => x.popFifo rp).writeX d e.1 e.2).setLdest d |>.postNow h).retire

/-- EPOP (R325). -/
def execEpop (d b : BitVec 5) (h : BitVec 4) (s : State) : Out :=
  let rp := b != 0
  s.attempt do
    s.pushGate (fifoChan rp)
    match s.popNow s.cur rp with
    | some e => .ok (s.popDone rp d h e)
    | none => .ok (s.holdClosing (.epop rp d h))

/-! Barriers (R326). -/

def barId (w : Word) : Nat := (w.extractLsb' 0 16).toNat
def barN (w : Word) : Nat := (w.extractLsb' 16 16).toNat
def barCoord (w : Word) : Nat := (w.extractLsb' 32 9).toNat
/-- The unit that holds barriers of a scope for a hart: core, cluster, stack, package, or the coordinating device. -/
def barUnit (sc : BitVec 3) (core coord : Nat) : Nat :=
  match sc.toNat with
  | 1 => core
  | 2 => clusOf core
  | 3 => stackOf core
  | 4 => 0
  | _ => coord

/-- Marks a participant's command of this device as closed. -/
def State.barClosed (s : State) (id : Nat) : State :=
  { s with ops := s.ops.map fun o => if o.id == id then
      (match o.kind with | .bar w sc _ _ => { o with kind := .bar w sc true true } | _ => o) else o }
/-- Whether two scopes' barriers are held by one unit: the package dispatcher holds those of scope dev and of scope sys. -/
def sameHolder (a b : BitVec 3) : Bool := a == b || (4 ≤ a.toNat && 4 ≤ b.toNat)
/-- An arrival at a unit of this device: opens or joins an episode of (instance, id) and closes it at the n-th; none where it would
open one more than the unit's 64. Participants are a device and a command number there; `w` is the world of the arrival. -/
def State.barArrive (s : State) (sc : BitVec 3) (unit : Nat) (id n w : Nat) (who : Nat × Nat) : Option State :=
  let is (e : Episode) : Bool := e.sc == sc && e.unit == unit && e.id == id
  let holder (e : Episode) : Bool := sameHolder e.sc sc && (4 ≤ sc.toNat || e.unit == unit)
  let close (s : State) (arr : List (Nat × Nat)) : State :=
    arr.foldl (fun s (p : Nat × Nat) => if p.1 = s.device then s.barClosed p.2 else s.send p.1 (.bar (.close w p.2))) s
  match s.episodes.find? is with
  | some e =>
    if e.n ≤ e.arrivals.length + 1 then
      some (close { s with episodes := s.episodes.filter fun x => !is x } (e.arrivals ++ [who]))
    else some { s with episodes := s.episodes.map fun x => if is x then { x with arrivals := x.arrivals ++ [who] } else x }
  | none =>
    if 64 ≤ (s.episodes.filter holder).length then none
    else if n ≤ 1 then some (close s [who])
    else some { s with episodes := s.episodes ++ [{ sc, unit, id, n, arrivals := [who] }] }

/-- A `bar` command that has not arrived arrives, where its channel's earlier commands have and its unit has room. -/
def State.barStart (s : State) (o : Op) : State :=
  match o.kind, s.hartAt o.core o.ctx with
  | .bar w sc false _, some h =>
    let earlier := (s.chanOps o.core o.ctx .bar).takeWhile fun p => p.id != o.id
    if earlier.any fun p => match p.kind with | .bar _ _ a _ => !a | _ => false then s
    else
      let s1 := s.setKind o.id (.bar w sc true false)
      if sc = 5 ∧ barCoord w ≠ s.device then s1.send (barCoord w) (.bar (.arrive h.world.toNat (barId w) (barN w) o.id (8 * o.core + o.ctx)))
      else (s1.barArrive sc (barUnit sc o.core (barCoord w)) (barId w) (barN w) h.world.toNat (s.device, o.id)).getD s
  | _, _ => s
/-- Posts the closed commands at the head of a hart's barrier channel, in push order (R12). -/
def State.barPosts (s : State) (l : List Op) : State :=
  match l with
  | [] => s
  | o :: r => match o.kind with
    | .bar _ _ _ true => (s.finish o).barPosts r
    | _ => s
/-- Whether two arrivals come from one hart's channel. -/
def sameHart : BarMsg → BarMsg → Bool
  | .arrive _ _ _ _ h, .arrive _ _ _ _ g => h == g
  | _, _ => false
/-- An arrival from another device comes about; none where its channel has an earlier one that waits or the unit has no room (R326). -/
def State.barTake (s : State) (src : Nat) (m : BarMsg) : Option State :=
  match m with
  | .arrive w id n op _ =>
    if ((s.peer src).bars.takeWhile (· != m)).any (sameHart m) then none
    else (s.barArrive 5 s.device id n w (src, op)).map fun t => t.modPeer src fun p => { p with bars := p.bars.erase m }
  | .close _ _ => none
/-- Arrivals from other devices that wait for room come about where they can, in their order. -/
def State.barRetry : Nat → State → State
  | 0, s => s
  | n + 1, s =>
    match s.fabric.peers.findSome? fun p => p.bars.findSome? fun m => s.barTake p.dev m with
    | some t => t.barRetry n
    | none => s
/-- Lets waiting arrivals come about and closed commands post. -/
def State.barProgress (s : State) : State :=
  let s := s.ops.foldl (fun s o => s.barStart o) s
  let s := s.barRetry (s.fabric.peers.map fun p => p.bars.length).sum
  s.harts.foldl (fun s h => s.barPosts (s.chanOps h.core h.ctx .bar)) s

/-- BAR (R326). An arrival is a release at its scope. -/
def execBar (a : BitVec 5) (sc : BitVec 3) (h : BitVec 4) (s : State) : Out :=
  let w := s.cur.x a
  s.attempt do
    s.strictX [a]
    s.pushGate .bar
    failIf (w.extractLsb' 41 23 != 0 || barN w == 0 || (if sc = 5 then !s.members.contains (barCoord w) else barCoord w != 0))
      { code := cILLEGAL, detail := w }
    let wait ← s.sysGate sc
    .ok (if wait then (s.drainAll true).holdOn .ack
      else if s.chanFull s.cur .bar then s.holdOn (.channel .bar)
      else (((s.drainAll (sc == 5)).start h (.bar w sc false false) false 0).retire).barProgress)

end Sys2Proof.Machine
end

