-- ==== Sys2Proof/Machine/Cipher.lean ====
section
/-! DEFINITION. Ciphertext, table and key instructions (R344 to R367): the checks at issue, the ciphertext channel, the refresh
batcher, and the completion of an operation. -/
namespace Sys2Proof.Machine

def State.prof (s : State) (e : Nat) : Profile := s.cur.ct.ptab.getD e { base := 0, q := [] }
def State.cReg (s : State) (r : BitVec 5) : Desc := s.cur.ct.c[r.toNat]'r.isLt
def State.kReg (s : State) (r : BitVec 5) : Desc := s.cur.ct.k[(r.setWidth 3).toNat]'(r.setWidth 3).isLt
def State.tbReg (s : State) (r : BitVec 3) : Desc := s.cur.ct.tb[r.toNat]'r.isLt

/-- Writes a c-register at issue (R118, R347). -/
def State.writeC (s : State) (r : BitVec 5) (d : Desc) : State :=
  s.modCur fun h => h.landPend { seq := s.issues, land := 0, dest := .c r d, lvl := h.level, hook := 0 }

/-- STRICT on a c, tb or k register whose binding has not landed (R119, R352, R404). -/
def State.strictCt (s : State) (l : List (Dest × Nat)) : Except Trap Unit :=
  if s.cur.strap.strict then
    match l.find? fun d => s.cur.pend.any fun p => p.dest.same d.1 with
    | some d => .error (strictTrap 3 d.2)
    | none => .ok ()
  else .ok ()
def cSrc (r : BitVec 5) : Dest × Nat := (.c r 0, r.toNat)
def kSrc (r : BitVec 5) : Dest × Nat := (.k (r.setWidth 3) 0, r.toNat)
def tbSrc (r : BitVec 3) : Dest × Nat := (.tb r 0, r.toNat)

/-- Marks profile entries as used by the hart's task (R186). -/
def State.useProfiles (s : State) (es : List Nat) : State :=
  { s with sched := { s.sched with tasks := s.sched.tasks.map fun t =>
      if t.queue == s.cur.queue && t.num == s.cur.num then
        { t with profiles := es.foldl (fun b e => b ||| 1#16 <<< e) t.profiles } else t } }

/-! Regions. -/

/-- The pieces of a range within its 64 KiB granules: first byte and length. -/
def granulePieces (va len : Nat) : List (Nat × Nat) :=
  if len = 0 then [] else
  (List.range ((va + len - 1) / 65536 - va / 65536 + 1)).map fun i =>
    let lo := max va ((va / 65536 + i) * 65536)
    (lo, min (va + len) ((va / 65536 + i + 1) * 65536) - lo)

/-- Translates one piece of a region (R347 step 5). -/
def State.ctPiece (s : State) (acc : Acc) (p : Nat × Nat) : Except Trap Target :=
  let va := BitVec.ofNat 64 p.1
  match translate s s.cur s.cur.level va (if p.1 < 0x2000000 then p.2 else 8) acc true with
  | .error t => .error t
  | .ok t =>
    match t.home with
    | .stack _ | .spad => .ok t
    | .tcm => .error (accessTrap 6 acc va)
    | _ =>
      let lvl := match leafOf s s.cur.world p.1 with | .ok (_, l) => l | .error _ => 3
      .error (memTrap cACCESS 6 lvl t.isFar acc va)

/-- The targets of a region, or the trap of its lowest failing page. -/
def State.ctPages (s : State) (acc : Acc) : List (Nat × Nat) → Except Trap (List Target)
  | [] => .ok []
  | p :: r => do
    let t ← s.ctPiece acc p
    let ts ← s.ctPages acc r
    .ok (t :: ts)
def State.ctRegion (s : State) (va : Word) (len : Nat) (acc : Acc) : Except Trap Region := do
  let ts ← s.ctPages acc (granulePieces va.toNat len)
  .ok { base := va.toNat, len, pages := ts }

/-- The place of byte i of a region. -/
def Region.place (r : Region) (i : Nat) : Option Target :=
  let a := r.base + i
  (r.pages[a / 65536 - r.base / 65536]?).map fun t => { t with key := t.key + (a - max r.base (a / 65536 * 65536)) }
/-- Claims every unit of a destination in element regions (R347 step 6): the state, or KEYSTREAM at the lowest written unit. -/
def State.ctClaim (s : State) (r : Region) : List (Nat × Nat) → List Target → Except Trap State
  | p :: ps, t :: ts =>
    match claimTarget s t p.2 with
    | .error i => .error (keystreamTrap (BitVec.ofNat 64 (p.1 + i)))
    | .ok s => s.ctClaim r ps ts
  | _, _ => .ok s
def State.ctClaims (s : State) (r : Region) : Except Trap State := s.ctClaim r (granulePieces r.base r.len) r.pages
/-- Whether a region lies in an element region that is being rekeyed (R177). -/
def State.ctRekeying (s : State) (r : Region) : Bool := r.pages.any s.rekeying
/-- Records the translations of a region. -/
def State.ctTouch (s : State) (r : Region) : State := (granulePieces r.base r.len).foldl (fun s p => s.touch s.cur.world p.1) s

/-! Issue. -/

/-- What an instruction that has passed its operand checks will do: sources of `len` words each, the result's fields, the key
and the table or plaintext it reads, whether a poisoned key or table is bound, whether its source is below a_in_min, brstep's
new value, the refresh's accumulator size in words. -/
structure CtPlan where
  op : CtOp
  srcs : List (BitVec 5)
  len : Nat
  kind : Nat
  limbs : Nat
  prof : Nat
  scale : Int
  allow : Int
  key : Option (Word × Nat)
  table : Option (Word × Nat)
  pois : Bool
  low : Bool
  step : Option Word
  acc : Option (BitVec 262 × Nat)
  used : List Nat

/-- The scale of a result where the manual states none (log 20): a free function of the operands alone (R40). -/
def ctScale (op : Nat) (p : Profile) (scale : BitVec 8) (other : Desc) : BitVec 8 := Config.ctScale op p.base p.q scale other
def extrScale (p : Profile) (x : Desc) (c : Nat) : Int := (ctScale 0 p (BitVec.ofInt 8 (dScale x)) (BitVec.ofNat 256 c)).toInt
def brinitScale (p : Profile) (x t : Desc) : Int := (ctScale 1 p (BitVec.ofInt 8 (dScale x)) t).toInt
def brstepScale (p : Profile) (x k : Desc) : Int := (ctScale 2 p (BitVec.ofInt 8 (dScale x)) k).toInt
def brfinScale (p : Profile) (x : Desc) : Int := (ctScale 3 p (BitVec.ofInt 8 (dScale x)) 0).toInt
/-- The scale of a refresh is that of its steps one by one (R67). -/
def refreshScale (p : Profile) (x k t : Desc) : Int :=
  let start := ctScale 1 p (BitVec.ofInt 8 (dScale x)) t
  (ctScale 3 p ((List.range p.dim).foldl (fun v _ => ctScale 2 p v k) start) 0).toInt

/-- Byte ranges overlap. -/
def Region.meets (a b : Region) : Bool := overlap a.base a.len b.base b.len
/-- The regions an operation reads. -/
def CtWork.reads (w : CtWork) : List Region := w.src.map (·.1) ++ w.key.toList ++ w.table.toList

/-- The ciphertext operations in flight of the issuing hart. -/
def State.ctOps (s : State) : List (Op × CtWork) :=
  (s.opsOf s.cur).filterMap fun o => match o.kind with | .ct w => some (o, w) | _ => none

/-- How many refreshes a batch may hold (R22, R124). -/
def State.batchCap (s : State) (words : Nat) : Nat := min 256 ((refreshRes s s.cur.world).2 / (8 * words))
/-- Whether the gathering batch can take a refresh (R124). -/
def State.canJoin (s : State) (key : BitVec 262) (prof cap : Nat) : Bool :=
  match (s.batcher (clusOf s.cur.core)).gathering with
  | none => true
  | some g => g.key == key && g.prof == prof && g.ops.length < cap
/-- A refresh with another key or profile closes the gathering batch (R124). -/
def State.arriveOther (s : State) (key : BitVec 262) (prof : Nat) : State :=
  match (s.batcher (clusOf s.cur.core)).gathering with
  | none => s
  | some g => if g.key == key && g.prof == prof then s else s.closeBatch (clusOf s.cur.core)
/-- Closes the gathering batch where the issuing hart's limits ask for it (R124). -/
def State.windowCheck (s : State) : State :=
  match (s.batcher (clusOf s.cur.core)).gathering with
  | none => s
  | some g =>
    let mine := ((s.opsOf s.cur).filter fun o => g.ops.contains o.id).length
    if 0 < mine && (s.cur.csr.winN.toNat ≤ mine || s.cur.csr.winW == 0) then s.closeBatch (clusOf s.cur.core) else s
/-- A refresh joins the gathering batch (R124). -/
def State.joinBatch (s : State) (id : Nat) (key : BitVec 262) (prof cap : Nat) : State :=
  let clus := clusOf s.cur.core
  let s := s.modBatcher clus fun b =>
    let g : Batch := b.gathering.getD { key, prof, ops := [], closed := false }
    { b with gathering := some { g with ops := g.ops ++ [id], closed := g.closed || cap ≤ g.ops.length + 1 } }
  (s.modBatcher clus Batcher.advance).windowCheck

/-- Issue of an operation that has passed its operand checks (R347): capacity, NOISE, translation, claims, then the destination
descriptor, the channel or the batch. -/
def State.ctIssue (s : State) (d : BitVec 5) (h : BitVec 4) (p : CtPlan) : Except Trap Issued := do
  let old := s.cReg d
  let words := (s.prof p.prof).words p.kind p.limbs
  failIf (64 * dCap old < 8 * words) s.cur.illegal
  failIf (match p.acc with | some (_, n) => s.batchCap n == 0 | none => false) s.cur.illegal
  failIf (p.low || p.allow < 0 || p.allow < (s.cur.csr.ctfloor.extractLsb' 0 16).toNat)
    { code := cNOISE, detail := BitVec.ofInt 64 p.allow }
  let srcs ← p.srcs.mapM fun r => s.ctRegion (dBase (s.cReg r)) (8 * p.len) .load
  let dst ← s.ctRegion (dBase old) (8 * words) .store
  let optional (o : Option (Word × Nat)) : Except Trap (Option Region) := match o with
    | none => .ok none
    | some (b, n) => (s.ctRegion b n .load).map some
  let table ← optional p.table
  let key ← optional p.key
  let work : CtWork :=
    { op := p.op, src := List.zipWith (fun r reg => (reg, r != d)) p.srcs srcs, dst, cd := d,
      desc := mkDesc (dBase old) (dGen old + 1) (BitVec.ofInt 16 p.allow) (BitVec.ofInt 16 p.scale) p.limbs p.prof p.kind false
        (old.extractLsb' 96 26),
      after := (s.ctOps.filter fun (o : Op × CtWork) =>
        p.srcs.contains o.2.cd || (srcs ++ key.toList ++ table.toList).any (fun r => r.meets o.2.dst) || dst.meets o.2.dst ||
        o.2.reads.any fun r => r.meets dst).map fun (o : Op × CtWork) => o.1.id,
      feeds := (s.ctOps.filter fun (o : Op × CtWork) => p.srcs.any fun r => r == o.2.cd && s.cReg r == o.2.desc).map
        fun (o : Op × CtWork) => o.1.id,
      key, table, poison := p.pois || p.srcs.any fun r => dPois (s.cReg r) }
  let regs := srcs ++ [dst] ++ table.toList ++ key.toList
  if regs.any s.ctRekeying then .ok (.held (s.holdOn .rekey))
  else
    let issue (s : State) : Except Trap State := do
      let s ← s.ctClaims dst
      let s := (regs.foldl State.ctTouch s).useProfiles p.used
      let s := match p.step with
        | some v => s.modCur fun x => { x with csr := { x.csr with brstep := v } }
        | none => s
      .ok (((s.drainAll false).writeC d work.desc).start h (.ct work) false (dBase old))
    match p.acc with
    | none => if s.chanFull s.cur .cipher then .ok (.held (s.holdOn (.channel .cipher))) else (issue s).map fun t => .done t.retire
    | some (k, n) =>
      let cap := s.batchCap n
      let s1 := s.arriveOther k p.prof
      if s1.canJoin k p.prof cap then (issue s1).map fun t => .done (t.joinBatch s1.nextOp k p.prof cap).retire
      else .ok (.held (s1.holdOn (.batch k p.prof cap)))

/-- The checks every arithmetic instruction makes of its first source: not empty, its entry installed. -/
def State.ctSource (s : State) (a : BitVec 5) : Except Trap (Desc × Profile) :=
  let d := s.cReg a
  if dKind d = 0 || !(s.prof (dProf d)).installed then .error s.cur.illegal else .ok (d, s.prof (dProf d))

/-- The moduli of a number of limbs. -/
def Profile.limbs (p : Profile) (l : Nat) : List Nat := p.q.take l
/-- The words of one limb of a kind. -/
def Profile.per (p : Profile) (kind : Nat) : Nat := p.words kind 1

/-- A word-wise operation (R354). -/
def State.ctWord (s : State) (f : Nat) (d a : BitVec 5) (more : List (BitVec 5)) (h : BitVec 4) (k : Int)
    (allow : Desc → Profile → Int) : Except Trap Issued := do
  let (x, p) ← s.ctSource a
  failIf (4 ≤ dKind x) s.cur.illegal
  failIf (more.any fun b =>
      let y := s.cReg b
      dKind y != dKind x || dProf y != dProf x || dLimbs y != dLimbs x || dScale y != dScale x) s.cur.illegal
  s.ctIssue d h
    { op := .word f k (p.limbs (dLimbs x)) (p.per (dKind x)), srcs := a :: more, len := p.words (dKind x) (dLimbs x), kind := dKind x,
      limbs := dLimbs x, prof := dProf x, scale := dScale x, allow := allow x p, key := none, table := none, pois := false,
      low := false, step := none, acc := none, used := [dProf x] }

/-- CT_ADD (R354). -/
def execCtAdd (d a b : BitVec 5) (h : BitVec 4) (s : State) : Out :=
  s.attempt do
    s.strictCt [cSrc a, cSrc b]
    s.counting [] <| s.ctWord 0 d a [b] h 0 fun x _ => addAllow (dAllow x) (dAllow (s.cReg b))
/-- CT_SUB (R354). -/
def execCtSub (d a b : BitVec 5) (h : BitVec 4) (s : State) : Out :=
  s.attempt do
    s.strictCt [cSrc a, cSrc b]
    s.counting [] <| s.ctWord 1 d a [b] h 0 fun x _ => addAllow (dAllow x) (dAllow (s.cReg b))
/-- CT_NEG (R354). -/
def execCtNeg (d a : BitVec 5) (h : BitVec 4) (s : State) : Out :=
  s.attempt do
    s.strictCt [cSrc a]
    s.counting [] <| s.ctWord 2 d a [] h 0 fun x _ => dAllow x
/-- CT_MULK (R354). -/
def execCtMulk (d a b : BitVec 5) (h : BitVec 4) (s : State) : Out :=
  let k := (s.cur.x b).toInt
  s.attempt do
    s.strictCt [cSrc a]
    s.strictX [b]
    s.counting [b] (s.ctWord 3 d a [] h k fun x p => scaleAllow p (dLimbs x) (dAllow x) k.natAbs)

/-- CT_MULP (R355). -/
def execCtMulp (d a b : BitVec 5) (h : BitVec 4) (s : State) : Out :=
  let v := s.cur.x b
  s.attempt do
    s.strictCt [cSrc a]
    s.strictX [b]
    let (x, p) ← s.ctSource a
    let scale := dScale x + (v.extractLsb' 56 8).toInt
    let bc := (v.extractLsb' 0 6).toNat
    let bound := if bc = 0 then 0 else 2 ^ (bc - 1)
    failIf (dKind x != 3 || v.getLsbD 55 || scale < -128 || 127 < scale) s.cur.illegal
    s.counting [b] (s.ctIssue d h
      { op := .mulp (p.limbs (dLimbs x)) p.big bound, srcs := [a], len := p.words 3 (dLimbs x), kind := 3, limbs := dLimbs x,
        prof := dProf x, scale, allow := scaleAllow p (dLimbs x) (dAllow x) bound, key := none,
        table := some (v &&& 0x7FFFFFFFFFFFC0#64, 8 * p.big * dLimbs x), pois := false, low := false, step := none, acc := none,
        used := [dProf x] })

/-- The bytes of the rows of a key (R360) that an operation reads. -/
def keyBytes (pat : Bool) (rows full half : Nat) : Nat := 8 * rows * (if pat then half else full)

/-- A key switch of an RLWE ciphertext, by RKSW or by ROT with its γ (R357). -/
def State.ctSwitch (s : State) (kind : Nat) (d a b : BitVec 5) (h : BitVec 4) (x : Desc) (p : Profile) : Except Trap Issued := do
  let k := s.kReg b
  let l := dLimbs x
  failIf (dKind x != 3 || kKind k != kind || kSprof k != dProf x || (!p.lwe && kEll k != l)) s.cur.illegal
  s.ctIssue d h
    { op := .kswRlwe (p.limbs l) p.big (kBeta k) (kEll k) (kKeyid k) (if kind = 3 then kGamma k else 1) (kPat k), srcs := [a],
      len := p.words 3 l, kind := 3, limbs := l, prof := dProf x, scale := dScale x,
      allow := addAllow (dAllow x) (p.aKsw l), key := some (kBase k, keyBytes (kPat k) (kEll k) (2 * p.big * l) (p.big * l)),
      table := none, pois := kPois k, low := false, step := none, acc := none, used := [dProf x] }

/-- CT_ROT (R357). -/
def execCtRot (d a b : BitVec 5) (h : BitVec 4) (s : State) : Out :=
  s.attempt do
    s.strictCt [cSrc a, kSrc b]
    let (x, p) ← s.ctSource a
    s.counting [] <| s.ctSwitch 3 d a b h x p

/-- CT_KSW (R357): LWE by a KSK, RLWE by an RKSW. -/
def execCtKsw (d a b : BitVec 5) (h : BitVec 4) (s : State) : Out :=
  s.attempt do
    s.strictCt [cSrc a, kSrc b]
    let (x, p) ← s.ctSource a
    let k := s.kReg b
    let dp := s.prof (kDprof k)
    if dKind x = 3 then s.counting [] <| s.ctSwitch 5 d a b h x p
    else
      failIf (dKind x != 2 || kKind k != 2 || kSprof k != dProf x || dLimbs x != 1 || !dp.lwe || (!p.lwe && kEll k != 1)) s.cur.illegal
      s.counting [] <| s.ctIssue d h
        { op := .kswLwe p.q1 dp.q1 p.big dp.dim (kBeta k) (kEll k) (kKeyid k) (kPat k), srcs := [a], len := p.words 2 1, kind := 1,
          limbs := 1, prof := kDprof k, scale := dScale x, allow := addAllow (dAllow x) (dp.aKsw 1),
          key := some (kBase k, keyBytes (kPat k) (p.big * kEll k) (dp.dim + 1) 1), table := none, pois := kPois k, low := false,
          step := none, acc := none, used := [dProf x, kDprof k] }

/-- CT_PACK (R357). -/
def execCtPack (d a b : BitVec 5) (h : BitVec 4) (cnt : BitVec 5) (s : State) : Out :=
  let m := cnt.toNat + 1
  let ins := (List.range m).map fun i => a + BitVec.ofNat 5 i
  s.attempt do
    failIf (32 < a.toNat + m) s.cur.illegal
    s.strictCt (ins.map cSrc ++ [kSrc b])
    let (x, p) ← s.ctSource a
    let k := s.kReg b
    let dp := s.prof (kDprof k)
    let big := 2 ^ clog2 m
    failIf (kKind k != 4 || (ins.any fun r => let y := s.cReg r
      dKind y != 2 || dProf y != kSprof k || dLimbs y != 1) || !dp.installed || dp.big < big || (!p.lwe && kEll k != 1)) s.cur.illegal
    let lo : Int := ins.foldl (fun (acc : Int) r => min acc (dAllow (s.cReg r))) (dAllow x)
    s.counting [] <| s.ctIssue d h
      { op := .pack p.q1 dp.q1 p.big dp.big big (kBeta k) (kEll k) (kKeyid k) m (kPat k), srcs := ins, len := p.words 2 1, kind := 3,
        limbs := 1, prof := kDprof k, scale := dScale x, allow := addAllow lo (dp.aKsw 1) - 8 * (clog2 m : Int),
        key := some (kBase k, keyBytes (kPat k) (p.big * kEll k) (2 * dp.big) dp.big), table := none, pois := kPois k, low := false,
        step := none, acc := none, used := [dProf x, kDprof k] }

/-- CT_MODSW (R358). -/
def execCtModsw (d a b : BitVec 5) (h : BitVec 4) (s : State) : Out :=
  let keep := (s.cur.x b).toNat
  s.attempt do
    s.strictCt [cSrc a]
    s.strictX [b]
    let (x, p) ← s.ctSource a
    failIf (p.lwe || dKind x != 3 || keep = 0 || dLimbs x ≤ keep) s.cur.illegal
    let scale := dScale x - ((((p.widths.take (dLimbs x)).drop keep).foldl (· + ·) 0 : Nat) : Int)
    failIf (scale < -128) s.cur.illegal
    s.counting [b] (s.ctIssue d h
      { op := .modsw (p.limbs (dLimbs x)) p.big keep, srcs := [a], len := p.words 3 (dLimbs x), kind := 3, limbs := keep,
        prof := dProf x, scale, allow := addAllow (dAllow x) (p.aMax keep), key := none, table := none, pois := false, low := false,
        step := none, acc := none, used := [dProf x] })

/-- CT_EXTR (R359). -/
def execCtExtr (d a b : BitVec 5) (h : BitVec 4) (s : State) : Out :=
  let c := (s.cur.x b).toNat
  s.attempt do
    s.strictCt [cSrc a]
    s.strictX [b]
    let (x, p) ← s.ctSource a
    failIf (dKind x != 3 || dLimbs x != 1 || p.big ≤ c) s.cur.illegal
    s.counting [b] (s.ctIssue d h
      { op := .extr p.q1 p.big c, srcs := [a], len := p.words 3 1, kind := 2, limbs := 1, prof := dProf x, scale := extrScale p x c,
        allow := dAllow x, key := none, table := none, pois := false, low := false, step := none, acc := none, used := [dProf x] })

/-- The checks of `ct.brinit` on source and table (R364). -/
def State.brSource (s : State) (a : BitVec 5) (tb : BitVec 3) : Except Trap (Desc × Profile) := do
  let (x, p) ← s.ctSource a
  failIf (!p.lwe || dKind x != 1 || dLimbs x != 1 || !tbBound (s.tbReg tb) || tbProf (s.tbReg tb) != dProf x) s.cur.illegal
  .ok (x, p)

/-- CT_REFRESH (R367): all the checks of `ct.brinit` and `ct.brstep` at once. -/
def execCtRefresh (d a b : BitVec 5) (h : BitVec 4) (tb : BitVec 3) (s : State) : Out :=
  let k := s.kReg b
  let t := s.tbReg tb
  s.attempt do
    s.strictCt [cSrc a, kSrc b, tbSrc tb]
    let (x, p) ← s.brSource a tb
    failIf (kKind k != 1 || kSprof k != dProf x) s.cur.illegal
    s.counting [] <| s.ctIssue d h
      { op := .refresh p.q1 p.big p.dim p.plain (kBeta k) (kEll k) (kKeyid k) (kPat k), srcs := [a], len := p.words 1 1, kind := 2,
        limbs := 1, prof := dProf x, scale := refreshScale p x k t, allow := p.aRefresh,
        key := some (kBase k, keyBytes (kPat k) (p.dim * 2 * kEll k) (2 * p.big) p.big), table := some (tbBase t, 8 * (p.plain / 2)),
        pois := kPois k || tbPois t, low := (dAllow x : Int) < p.aInMin, step := none, acc := some (s.cur.world ++ k, p.words 4 1),
        used := [dProf x] }

/-- CT_BRINIT (R364). -/
def execCtBrinit (d a : BitVec 5) (h : BitVec 4) (tb : BitVec 3) (s : State) : Out :=
  let t := s.tbReg tb
  s.attempt do
    s.strictCt [cSrc a, tbSrc tb]
    let (x, p) ← s.brSource a tb
    s.counting [] <| s.ctIssue d h
      { op := .brinit p.q1 p.big p.dim p.plain, srcs := [a], len := p.words 1 1, kind := 4, limbs := 1, prof := dProf x,
        scale := brinitScale p x t, allow := p.aRefresh, key := none, table := some (tbBase t, 8 * (p.plain / 2)), pois := tbPois t,
        low := (dAllow x : Int) < p.aInMin, step := some 0, acc := none, used := [dProf x] }

/-- CT_BRSTEP (R365). -/
def execCtBrstep (d a b : BitVec 5) (h : BitVec 4) (s : State) : Out :=
  let k := s.kReg b
  let i := s.cur.csr.brstep
  s.attempt do
    s.strictCt [cSrc a, kSrc b]
    let (x, p) ← s.ctSource a
    failIf (dKind x != 4 || kKind k != 1 || kSprof k != dProf x || p.dim ≤ i.toNat) s.cur.illegal
    let per := keyBytes (kPat k) (2 * kEll k) (2 * p.big) p.big
    s.counting [] <| s.ctIssue d h
      { op := .brstep p.q1 p.big p.dim (kBeta k) (kEll k) (kKeyid k) i.toNat (kPat k), srcs := [a], len := p.words 4 1, kind := 4,
        limbs := 1, prof := dProf x, scale := brstepScale p x k, allow := dAllow x, key := some (kBase k + BitVec.ofNat 64 (per * i.toNat), per),
        table := none, pois := kPois k, low := false, step := some (i + 1), acc := none, used := [dProf x] }

/-- CT_BRFIN (R366). -/
def execCtBrfin (d a : BitVec 5) (h : BitVec 4) (s : State) : Out :=
  s.attempt do
    s.strictCt [cSrc a]
    let (x, p) ← s.ctSource a
    failIf (dKind x != 4 || s.cur.csr.brstep.toNat != p.dim) s.cur.illegal
    s.counting [] <| s.ctIssue d h
      { op := .brfin p.q1 p.big, srcs := [a], len := p.words 4 1, kind := 2, limbs := 1, prof := dProf x, scale := brfinScale p x,
        allow := p.aRefresh, key := none, table := none, pois := false, low := false, step := none, acc := none, used := [dProf x] }

/-! Descriptor moves, bindings and limits. -/

/-- CT_BIND (R351). -/
def execCtBind (d a b : BitVec 5) (s : State) : Out :=
  let v := s.cur.x b
  s.attempt do
    s.strictX [a, b]
    let new := mkDesc (s.cur.x a) 0 (v.extractLsb' 0 16) ((v.extractLsb' 17 8).setWidth 16) (v.extractLsb' 25 6).toNat
      (v.extractLsb' 34 4).toNat (v.extractLsb' 31 3).toNat false (v.extractLsb' 38 26)
    failIf (v.getLsbD 16 || !descOk s.cur.ct.ptab new) { code := cILLEGAL, detail := v }
    .ok (((s.useX [a, b]).useProfiles (if new = 0 then [] else [dProf new])).writeC d (descClamp s.cur.ct.ptab new)).retire

/-- Checks the address of a 32-byte header or descriptor (R352, R403): the TCM key. -/
def State.headerAt (s : State) (addr : Word) (acc : Acc) : Except Trap Nat := do
  failIf (!s.cur.inSlice addr 32) (accessTrap 11 acc addr)
  failIf (addr.toNat % 32 != 0) (alignTrap addr acc.writes)
  .ok (tcmKey s.cur.core (s.cur.tcmOff + (addr.toNat - 0x100000)))
/-- Reads 32 bytes of the slice in program order (R73): the value, and whether a word of it is poisoned. -/
def State.readHeader (s : State) (addr : Word) : Except Trap (State × Desc × Bool) := do
  let key ← s.headerAt addr .load
  let s1 := s.drainFor key 32
  .ok (s1, BitVec.ofNat 256 (ofBytes (s1.tcmBytes addr 32)), s1.mem.anyPoison key 32)

/-- CT_LD (R352). The register takes the gen of the descriptor loaded, not its own old gen plus 1 (DESIGN CHOICE, log 95): R352 and R344
leave it open which. -/
def execCtLd (d a : BitVec 5) (s : State) : Out :=
  s.attempt do
    s.strictX [a]
    let (s1, v, p) ← s.readHeader (s.cur.x a)
    failIf (!descOk s.cur.ct.ptab v) s.cur.illegal
    let v' := descClamp s.cur.ct.ptab v
    .ok ((((s1.useX [a]).useProfiles (if v = 0 then [] else [dProf v])).later 3
      (.c d (if p && v != 0 then v' ||| (1#256 <<< 122) else v')) 0).retire)

/-- CT_ST (R347, R352). -/
def execCtSt (d a : BitVec 5) (h : BitVec 4) (s : State) : Out :=
  s.attempt do
    s.strictCt [cSrc d]
    s.strictX [a]
    failIf (dKind (s.cReg d) = 0) s.cur.illegal
    let key ← s.headerAt (s.cur.x a) .store
    let s1 := (s.useX [a]).drainFor key 32
    let t : Target := { home := .tcm, key, lworld := s.cur.world.toNat, enc := 0, nonce := 0, gen := 0 }
    let s2 := s1.keepWords (s1.writeAt s.cur.world t (toBytes 32 (s1.cReg d).toNat) false) s.cur.world t 32
    .ok (if h = 0 then s2 else s2.later 3 .none h).retire

/-- CT_ALW (R65, R347). -/
def execCtAlw (d a : BitVec 5) (s : State) : Out :=
  s.attempt do
    s.strictCt [cSrc a]
    failIf (dKind (s.cReg a) = 0) s.cur.illegal
    .ok ((s.laterX 2 d (BitVec.ofNat 64 (dAllow (s.cReg a))) false).setLdest d).retire

/-- CT_WIN (R353). -/
def execCtWin (a : BitVec 5) (s : State) : Out :=
  let v := s.cur.x a
  s.attempt do
    s.strictX [a]
    failIf (v.extractLsb' 39 25 != 0 || v.extractLsb' 32 7 == 0 || 64 < (v.extractLsb' 32 7).toNat) { code := cILLEGAL, detail := v }
    .ok (((s.useX [a]).modCur fun h => { h with csr := { h.csr with winN := v.extractLsb' 32 7, winW := v.extractLsb' 0 32 } }).windowCheck).retire

/-- TB_LD (R363). -/
def execTbLd (d a : BitVec 5) (h : BitVec 4) (s : State) : Out :=
  s.attempt do
    s.strictX [a]
    let (s1, v, p) ← s.readHeader (s.cur.x a)
    failIf (!tableOk s.cur.ct.ptab v) s.cur.illegal
    .ok ((((s1.useX [a]).useProfiles [tbProf v]).later 3 (.tb (d.setWidth 3) (if p then v ||| (1#256 <<< 187) else v)) h).retire)

/-- KY_BIND (R362). A header of kind 0 unbinds. -/
def execKyBind (d a : BitVec 5) (h : BitVec 4) (s : State) : Out :=
  s.attempt do
    s.strictX [a]
    let (s1, v, p) ← s.readHeader (s.cur.x a)
    failIf (!keyOk s.cur.ct.ptab v) s.cur.illegal
    let v' : Desc := if kKind v = 0 then 0 else if p then v ||| (1#256 <<< 122) else v
    .ok ((((s1.useX [a]).useProfiles (if kKind v = 0 then [] else [kSprof v, kDprof v])).later 3 (.k (d.setWidth 3) v') h).retire)

/-! Completion. -/

/-- The words of a region, and whether any is poisoned. -/
def State.regionWords (s : State) (w : BitVec 6) (r : Region) : List Nat × Bool :=
  (List.range (r.len / 8)).foldr (fun i (acc : List Nat × Bool) =>
    match r.place (8 * i) with
    | none => (0 :: acc.1, acc.2)
    | some t =>
      let (bs, p) := readTarget s w t 8
      (ofBytes bs :: acc.1, p || acc.2)) ([], false)

/-- The operands of an operation that the channel reads: the region, and whether its register is another than the destination's. -/
def CtWork.operands (w : CtWork) : List (Region × Bool) :=
  let plain : Bool := match w.op with | .mulp .. => true | _ => false
  w.src ++ (w.key.toList.map fun r => (r, true)) ++ (w.table.toList.map fun r => (r, !plain))
/-- Whether an operand's words may be read as the old or the new ones: the regions of two different registers that overlap in part.
Regions that coincide are read old (R348). -/
def CtWork.mixes (w : CtWork) (r : Region × Bool) : Bool :=
  r.2 && r.1.meets w.dst && !(r.1.base == w.dst.base && r.1.len == w.dst.len)
/-- The data effect on given operand words: the result's words, and whether a stated bound was broken. -/
def CtWork.effect (w : CtWork) (ins : List (List Nat)) : List Nat × Bool :=
  let rest := ins.drop w.src.length
  w.op.run (ins.take w.src.length) (if w.key.isSome then rest.headD [] else []) (if w.table.isSome then rest.getLastD [] else [])
/-- The word of operand n, word i, as a choice of R8 has it: the old one, or a word that `CtWork.outcome` admits only where it is the new
one. -/
def State.mixedWord (s : State) (w : CtWork) (n : Nat) (r : Region × Bool) (i old : Nat) : Nat :=
  let x := 2 ^ 70 + (n * 2 ^ 48 + i) * 2
  if w.mixes r && overlap (r.1.base + 8 * i) 8 w.dst.base w.dst.len && Config.pick s.free x % 2 = 1 then Config.pick s.free (x + 1) % 2 ^ 64
  else old
/-- Whether every word of an operand was read as the old word or as the new one, `res` being what the operation writes. -/
def CtWork.fits (w : CtWork) (r : Region) (old seen res : List Nat) : Bool :=
  ((old.zip seen).zipIdx).all fun ((o, v), i) =>
    o == v || (w.dst.base ≤ r.base + 8 * i && res[(r.base + 8 * i - w.dst.base) / 8]? == some v)
/-- The data effect (R348): on the old words; where operands overlap the destination in part, on any choice of old and new words that
agrees with the result it gives (log 21). -/
def State.ctOutcome (s : State) (w : CtWork) (olds : List (List Nat)) : List Nat × Bool :=
  let seen := (olds.zip w.operands).zipIdx.map fun ((l, r), n) => l.zipIdx.map fun (v, i) => s.mixedWord w n r i v
  let mixed := w.effect seen
  if w.operands.any w.mixes && ((olds.zip seen).zip w.operands).all fun ((l, v), r) => w.fits r.1 l v mixed.1 then mixed else w.effect olds
/-- Writes words to a region. -/
def State.writeRegion (s : State) (w : BitVec 6) (r : Region) (words : List Nat) (poison : Bool) : State :=
  words.zipIdx.foldl (fun s (v, i) =>
    match r.place (8 * i) with
    | none => s
    | some t => s.keepWords (writeTarget s w t (toBytes 8 v) poison) w t 8) s

/-- Whether every operation that a ciphertext operation follows has completed (R66). -/
def State.ctReady (s : State) (w : CtWork) : Bool := !s.ops.any fun o => w.after.contains o.id

/-- Marks the results that take a producer's poison: its register, where its descriptor still stands there, and the operations
that read that descriptor (R66). -/
def State.ctPoison (s : State) (o : Op) (w : CtWork) : State :=
  let younger := s.ops.any fun p => p.core == o.core && p.ctx == o.ctx && o.id < p.id && (match p.kind with
    | .ct v => v.cd == w.cd
    | _ => false)
  let s := s.modHart o.core o.ctx fun h =>
    if younger || h.ct.c[w.cd.toNat]'w.cd.isLt != w.desc then h
    else { h with ct := { h.ct with c := h.ct.c.set w.cd.toNat (w.desc ||| (1#256 <<< 122)) w.cd.isLt } }
  { s with ops := s.ops.map fun p => match p.kind with
    | .ct v => if v.feeds.contains o.id then { p with kind := .ct { v with poison := true } } else p
    | _ => p }

/-- Completes a ciphertext operation: its data effect, its poison, its post (R66, R348, R355). -/
def State.ctDone (s : State) (o : Op) (w : CtWork) : State :=
  let h := (s.hartAt o.core o.ctx).getD s.cur
  let ins := w.operands.map fun r => s.regionWords h.world r.1
  let (res, broken) := s.ctOutcome w (ins.map (·.1))
  let poison := w.poison || ins.any (·.2) || broken
  let s := if broken then s.modWorld h.world.toNat fun x => { x with eunc := x.eunc + 1 } else s
  let s := s.writeRegion h.world w.dst res poison
  let s := if poison then (s.ctPoison o w).countPoison h 1 else s
  s.finish o

/-- Completes the refreshes of the executing batch that can run, those of one hart in its push order (R12); the batch ends when none is
left (R125). None where nothing can happen. -/
def State.batchDone (s : State) (clus : Nat) : Option State :=
  match (s.batcher clus).executing with
  | none => none
  | some b =>
    let go := b.ops.foldl (fun (acc : State × List Nat × Bool) id =>
      match acc.1.ops.find? fun o => o.id == id with
      | none => (acc.1, acc.2.1, true)
      | some o => match o.kind with
        | .ct w =>
          let behind := acc.2.1.any fun i => acc.1.ops.any fun p => p.id == i && p.core == o.core && p.ctx == o.ctx
          if acc.1.ctReady w && !behind then (acc.1.ctDone o w, acc.2.1, true) else (acc.1, acc.2.1 ++ [id], acc.2.2)
        | _ => (acc.1, acc.2.1, true)) (s, [], false)
    if !go.2.2 && !b.ops.isEmpty then none
    else some (go.1.modBatcher clus fun x =>
      ({ x with executing := if go.2.1.isEmpty then none else some { b with ops := go.2.1 } } : Batcher).advance)

end Sys2Proof.Machine
end

