-- ==== Sys2Proof/Machine/System.lean ====
section
/-! DEFINITION. System instructions (R262 to R267) but for context images. -/
namespace Sys2Proof.Machine

/-- TRAP (R263). -/
def execTrap (n : BitVec 16) (s : State) : Out := s.attempt (.error { code := cTRAPCALL, detail := n.setWidth 64 })
/-- BKPT (R263). -/
def execBkpt (n : BitVec 16) (s : State) : Out := s.attempt (.error { code := cBKPT, detail := n.setWidth 64 })
/-- Sends that PREEMPT has withdrawn issue again, in their order, once their hart is back at the level that pushed them (R153). -/
def State.reissueSends (s : State) : State :=
  let mine (e : Identity × Op) : Bool := e.1 == s.cur.identity && e.2.lvl == s.cur.level
  let back := s.sleeves.resend.filter mine
  if back.isEmpty then s else
  { s with ops := s.ops ++ back.zipIdx.map (fun (e, i) => ({ e.2 with id := s.nextOp + i, core := s.cur.core, ctx := s.cur.ctx } : Op)),
           nextOp := s.nextOp + back.length, sleeves := { s.sleeves with resend := s.sleeves.resend.filter fun e => !mine e } }
/-- ERET (R196): ILLEGAL at user level. -/
def execEret (s : State) : Out :=
  s.attempt (if s.cur.level = .user then .error s.cur.illegal
             else .ok ((s.closeConvoy false).modCur fun h => (h.count 1).eret).reissueSends)

/-- CSRR (R264). -/
def execCsrr (d : BitVec 5) (csr : BitVec 12) (s : State) : Out :=
  s.attempt do
    failIf (!csrReach s.cur.level csr.toNat) s.cur.illegal
    match s.csrValue csr.toNat with
    | none => .error s.cur.illegal
    | some v =>
      s.strictCsr csr.toNat
      .ok ((s.writeX d v (s.cur.csrPoison csr.toNat)).setLdest d).retire

/-- A CSR write by an instruction (R264): ILLEGAL comes before STRICT, the register's own checks after it. A write of
rgkey waits for a rekey of its world that still waits for accesses (R177), a write of rgtab for every access to the world's regions
that has been issued, far ones whose claims the device has answered among them (R178). -/
def State.csrInstr (s : State) (f : CsrForm) (a : BitVec 5) (c : Nat) : Out :=
  s.attempt do
    failIf (!csrReach s.cur.level c || (s.csrValue c).isNone || csrReadOnly c) s.cur.illegal
    s.strictX [a]
    if c = 0x11C ∧ s.rekeyWaits s.cur.world.toNat = true then .ok (s.holdOn .rekey)
    else if c = 0x11B ∧ s.regionsBusy s.cur.world.toNat = true then .ok (s.holdOn .regions)
    else
      let n := f.rw (s.csrOld c) (s.cur.x a)
      match s.csrAsk c n with
      | some u => .ok u
      | none => (s.csrWrite c f (s.cur.x a)).map fun t =>
        ((t.tookTable c n).markCsr c (s.cur.px a || (f != .write && s.cur.csrPoison c))).retire
/-- CSRW (R264). -/
def execCsrw (a : BitVec 5) (csr : BitVec 12) (s : State) : Out := s.csrInstr .write a csr.toNat
/-- CSRS (R264). -/
def execCsrs (a : BitVec 5) (csr : BitVec 12) (s : State) : Out := s.csrInstr .set a csr.toNat
/-- CSRC (R264). -/
def execCsrc (a : BitVec 5) (csr : BitVec 12) (s : State) : Out := s.csrInstr .clear a csr.toNat

/-- A fence: the accesses it orders are performed; at scope sys every far write is acknowledged first (R74, R147, R265). -/
def State.fence (s : State) (p : OpKind → Bool) (sc : BitVec 3) : Out :=
  s.attempt do
    let wait ← s.sysGate sc
    .ok (if wait then (s.drain p true).holdOn .ack else (s.drain p (sc == 5)).retire)
/-- Reads in flight. -/
def OpKind.isRead : OpKind → Bool
  | .load .. | .atomic .. | .arrived .. => true
  | _ => false
/-- FENCE_ACQ (R74). -/
def execFenceAcq (sc : BitVec 3) (s : State) : Out := s.fence OpKind.isRead sc
/-- FENCE_REL (R74). -/
def execFenceRel (sc : BitVec 3) (s : State) : Out := s.fence OpKind.isAccess sc
/-- FENCE_FULL (R74). -/
def execFenceFull (sc : BitVec 3) (s : State) : Out := s.fence OpKind.isAccess sc
/-- FENCE_SV (R74): scalar accesses before vector accesses, of the hart only. -/
def execFenceSv (s : State) : Out := s.fence OpKind.isScalarAccess 0
/-- FENCE_IO (R74). -/
def execFenceIo (sc : BitVec 3) (s : State) : Out := s.fence OpKind.isAccess sc

/-- ICINV (R266): ILLEGAL at scope sys. -/
def execIcinv (a : BitVec 5) (h : BitVec 4) (b : BitVec 5) (sc : BitVec 3) (s : State) : Out :=
  s.attempt do
    failIf (5 ≤ sc.toNat) s.cur.illegal
    s.strictX [a, b]
    .ok ((s.useX [a]).start h (.icinv (s.cur.x a).toNat (s.cur.x b).toNat sc) false (s.cur.x a)).retire
/-- The end of an `icinv`: fetches of the world's words in the range no longer return, in any core of the scope instance, a version
that was replaced before (R266). -/
def State.icinvDone (s : State) (o : Op) : State :=
  match o.kind, s.hartAt o.core o.ctx with
  | .icinv base len sc, some h =>
    let e : Icinv := { world := h.world, sc, core := o.core, ctx := o.ctx, base, len, stamp := s.clock }
    ({ s with mem := { s.mem with icinvs := e :: s.mem.icinvs } }).finish o
  | _, _ => s

/-- IDLE (R267). -/
def execIdle (s : State) : Out := .next (s.holdOn (.idle s.cur.posts))

/-- POOL_HEADER (R241): never executes. -/
def execPoolHeader (_n : BitVec 14) (s : State) : Out := s.attempt (.error { code := cPOOL, detail := s.cur.wordPc })

end Sys2Proof.Machine
end

