-- ==== Sys2Proof/Machine/Ctx.lean ====
section
/-! DEFINITION. Context images (R206 to R210, R268): `ctxsave` and `ctxrst`. -/
namespace Sys2Proof.Machine

/-! Layout. -/

/-- Offsets of the z, TCM and scratchpad sections and the length (R207). -/
structure ImgLay where
  z : Nat
  tcm : Nat
  spad : Nat
  len : Nat
def imgLay (p : Nat) (tile : Bool) (t s : Nat) : ImgLay :=
  let z := 0x2000 + 40 * 256 * p
  let tcm := z + (if tile then 16384 else 0)
  let spad := tcm + t + t / 64
  { z, tcm, spad, len := spad + s + s / 64 + 16 }

/-- The tile owner's panel contains lane 0 (R15). -/
def Hart.tileOwner (h : Hart) : Bool := h.lane0 == 0
/-- The context's name for its per-context key (R207). -/
def Identity.keyName (i : Identity) : Nat := i.world.toNat * 2 ^ 80 + jobWord i.queue i.num * 2 ^ 16 + i.ord
/-- The IV of R207. -/
def imgIv (ctr : Nat) : BitVec 96 := BitVec.ofNat 64 ctr ++ 0#32

/-- A mask register as a slot of 256·P bytes (R273). -/
def maskBytes (p : Nat) (m : BitVec 65536) : List Byte :=
  (List.range (256 * p)).map fun i =>
    BitVec.ofNat 8 ((List.range 8).foldl (fun acc j => acc + (if m.getLsbD (p * (8 * (i % 256) + j) + i / 256) then 2 ^ j else 0)) 0)
/-- The mask register that a slot holds. -/
def maskOfBytes (p : Nat) (bs : List Byte) : BitVec 65536 :=
  let a := bs.toArray
  maskOf (2048 * p) fun e => (a.getD (256 * (e % p) + e / p / 8) 0).getLsbD (e / p % 8)

/-- A memory section with its poison bits (R207). -/
def State.sectionBytes (s : State) (key n : Nat) : List Byte :=
  let bad (i : Nat) : Bool := s.mem.poisoned (key + 8 * i)
  ((List.range n).map fun i => if s.mem.poisoned (key + i) then 0 else s.mem.read (key + i)) ++
  (List.range (n / 64)).map fun b => BitVec.ofNat 8 ((List.range 8).foldl (fun acc j => acc + (if bad (8 * b + j) then 2 ^ j else 0)) 0)

/-- The flags byte of a header (R208). -/
def ctxFlags (s : State) (h : Hart) (tcm spad : Bool) : Nat :=
  (s.worlds[h.world.toNat]).prot.toNat + 2 * h.tileOwner.toNat + 4 * spad.toNat + 8 * h.csr.vlost.toNat + 16 * tcm.toNat
/-- The header (R208). -/
def ctxHeader (s : State) (h : Hart) (tcm spad : Bool) (ctr : Nat) (l : ImgLay) : List Byte :=
  toBytes 8 0x5158435400000001 ++ toBytes 8 (jobWord h.queue h.num) ++ toBytes 2 h.ord ++ toBytes 1 h.world.toNat ++
  toBytes 1 (ctxFlags s h tcm spad) ++ toBytes 2 h.lanes ++ toBytes 2 0 ++ toBytes 8 ctr ++
  toBytes 8 (if spad then h.spadSize else 0) ++ toBytes 8 l.len ++ toBytes 8 (if tcm then h.tcmSize else 0) ++ List.replicate 200 0

/-- A nest entry in its 24 bytes (R257). -/
def nestBytes (e : LoopEntry) : List Byte :=
  toBytes 8 (2 ^ 63 + e.fixed.toNat * 2 ^ 62 + e.lvl.toNat * 2 ^ 59 + e.start.toNat % 2 ^ 55) ++ toBytes 8 e.stop.toNat ++ toBytes 8 e.count.toNat
/-- The poison map (R209). -/
def poisonMap (h : Hart) : Nat :=
  h.user.px.toNat + h.vec.pv.toNat * 2 ^ 32 + h.vec.pm.toNat / 2 * 2 ^ 64 + (if h.tileOwner then h.vec.pz.toNat * 2 ^ 72 else 0)
/-- The CSR block (R209). -/
def ctxCsrs (h : Hart) : List Byte :=
  let c := h.csr
  let u := h.user
  [h.strap.epc, u.ldest.setWidth 64, c.fcsr, c.hvl, c.hvtype, c.hvstart, c.vsb, c.srseed, c.srdraw, c.ctfloor, c.brstep, c.slstat,
   c.instret, c.poolmap].flatMap (fun v => toBytes 8 v.toNat) ++
  toBytes 16 (poisonMap h) ++ c.lcnt.toList.flatMap (fun v => toBytes 8 v.toNat) ++ u.lidx.toList.flatMap (fun v => toBytes 8 v.toNat) ++
  (u.h.toList.drop 1).flatMap (fun v => toBytes 4 v.toNat) ++ toBytes 4 0 ++
  ((u.nest.reverse.flatMap nestBytes ++ List.replicate 144 0).take 144) ++
  toBytes 8 (c.winN.toNat * 2 ^ 32 + c.winW.toNat) ++ List.replicate 72 0
/-- The image after the header, in plaintext, without its tag (R207). -/
def ctxBody (s : State) (h : Hart) (tcm spad : Bool) : List Byte :=
  let slot (v : BitVec 65536) : List Byte := toBytes (256 * h.lanes) (v.toNat % 2 ^ (2048 * h.lanes))
  toBytes 8 0 ++ (h.user.x.toList.drop 1).flatMap (fun v => toBytes 8 v.toNat) ++ ctxCsrs h ++
  h.ct.c.toList.flatMap (fun d => toBytes 32 d.toNat) ++ h.ct.tb.toList.flatMap (fun d => toBytes 32 d.toNat) ++
  h.ct.k.toList.flatMap (fun d => toBytes 32 d.toNat) ++ List.replicate 1536 0 ++
  h.ct.mtab.toList.flatMap (fun d => toBytes 64 d.toNat) ++ List.replicate (256 * h.lanes) 0 ++
  (h.vec.m.toList.drop 1).flatMap (maskBytes h.lanes) ++ h.vec.v.toList.flatMap slot ++
  (if h.tileOwner then h.vec.z.toList.flatMap (fun z => toBytes 4096 z.toNat) else []) ++
  (if tcm then s.sectionBytes (tcmKey h.core h.tcmOff) h.tcmSize else []) ++
  (if spad then s.sectionBytes (spadKey (clusOf h.core) h.spadOff) h.spadSize else [])
/-! Pages. -/

/-- Translates one piece (R206): element mode ACCESS 9, windows and register space ACCESS 8. -/
def State.ctxPiece (s : State) (acc : Acc) (a : Nat) : Except Trap Target :=
  let va := BitVec.ofNat 64 a
  if a < 0x2000000 then .error (accessTrap 8 acc va)
  else match translate s s.cur s.cur.level va 8 acc false with
  | .error t => .error t
  | .ok t =>
    if t.home = .regs then
      .error (memTrap cACCESS 8 (match leafOf s s.cur.world a with | .ok (_, l) => l | .error _ => 3) false acc va)
    else .ok t
def State.ctxTargets (s : State) (acc : Acc) : List (Nat × Nat) → Except Trap (List Target)
  | [] => .ok []
  | p :: r => do
    let t ← s.ctxPiece acc p.1
    let ts ← s.ctxTargets acc r
    .ok (t :: ts)
/-- Requests for the pieces of an image that lie on other devices, as many as there are read tags (R143). -/
def State.ctxAsk (s : State) (ps : List (Nat × Nat)) (ts : List Target) : State :=
  s.askAll s.cur ((List.zip ps ts).filterMap fun (p, t) =>
    if t.isFar then (s.farNeed s.cur t p.2 true false).map fun a => (t, a.1, a.2) else none)
/-- Reads the pieces of an image. -/
def State.ctxRead (s : State) : List (Nat × Nat) → List Target → Except Trap (List Byte)
  | p :: ps, t :: ts => do
    let bs ← (if t.isFar then s.farRead s.cur t p.2 .load (BitVec.ofNat 64 p.1) else .ok (s.readAt s.cur.world t p.2).1)
    let r ← s.ctxRead ps ts
    .ok (bs ++ r)
  | _, _ => .ok []

/-! `ctxsave`. -/

/-- CTXIMAGE with a reason (R193, R210). -/
def ctxTrap (reason : Nat) : Trap := { code := cCTXIMAGE, cause := BitVec.ofNat 8 reason, detail := BitVec.ofNat 64 reason }

/-- Refuses an image: the refusal is counted (R189, R210). -/
def State.ctxRefuse (s : State) (reason : Nat) : State :=
  let s := s.countRefusal s.cur.world.toNat
  if s.cur.active then s.takeTrap (ctxTrap reason) else s

/-- The checks of both instructions before any page (R206, R262). -/
def State.ctxGate (s : State) (a : BitVec 5) : Except Trap Unit := do
  failIf (s.cur.level != .supervisor || s.cur.strap.pl != .user || !s.cur.csr.held) s.cur.illegal
  s.strictX [a]
  failIf ((s.cur.x a).extractLsb' 2 4 != 0) { code := cILLEGAL, detail := s.cur.x a }

/-- The counter that a save takes (R210): none where no entry is free. -/
def State.saveCounter (s : State) (h : Hart) : Option (Nat × State) :=
  let w := s.worlds[h.world.toNat]
  if w.prot then
    match s.thatum.saves.find? fun c => c.owner == h.identity with
    | some c => some (c.c + 1, { s with thatum := { s.thatum with saves := s.thatum.saves.map fun x =>
        if x.owner == h.identity then { x with c := x.c + 1, live := true } else x } })
    | none =>
      if 4096 ≤ s.thatum.saves.length then none
      else some (1, { s with thatum := { s.thatum with saves := s.thatum.saves ++ [{ owner := h.identity, c := 1, live := true }] } })
  else some (w.imageCtr, s.modWorld h.world.toNat fun x => { x with imageCtr := x.imageCtr + 1 })

/-- CTXSAVE (R206, R210, R268). -/
def execCtxsave (a : BitVec 5) (h : BitVec 4) (s : State) : Out :=
  let v := s.cur.x a
  let base := (v &&& ~~~63#64).toNat
  let tcm := v.getLsbD 1
  let spad := v.getLsbD 0
  let l := imgLay s.cur.lanes s.cur.tileOwner (if tcm then s.cur.tcmSize else 0) (if spad then s.cur.spadSize else 0)
  s.attempt do
    s.ctxGate a
    if !s.drained s.cur then .ok (s.holdOn .drain)
    else do
      let s := s.modCur Hart.landHooks
      let ps := blockPieces base l.len
      let ts ← s.ctxTargets .store ps
      match s.saveCounter s.cur with
      | none => .ok (s.ctxRefuse 9)
      | some (ctr, s1) =>
        let hd := ctxHeader s s.cur tcm spad ctr l
        let body := ctxBody s s.cur tcm spad
        let key := s.cur.identity.keyName
        let img := (hd ++ sealText key (imgIv ctr) hd body).toArray
        let ws : List WriteBack := (List.zip ps ts).map fun (p, t) =>
          { target := t, data := (List.range p.2).map fun i => img.getD (p.1 - base + i) 0, poison := false }
        .ok (((s1.useX [a]).start h (.ctxsave ws) false (v &&& ~~~63#64)).retire)

/-- The end of a save: the image is written; parts on another device wait for their acknowledgements (R210). -/
def State.ctxsaveDone (s : State) (o : Op) (ws : List WriteBack) : State :=
  let h := (s.hartAt o.core o.ctx).getD s.cur
  let (s, waits) := ws.foldl (fun (acc : State × List (Nat × Nat)) w =>
    if w.target.isFar then
      let (s, l) := acc.1.farWrite h w.target w.data false []
      (s, acc.2 ++ l)
    else (acc.1.performStore h w, acc.2)) (s, [])
  if waits.isEmpty then s.finish o else s.setKind o.id (.farStore waits o.va)

/-! `ctxrst`. -/

def imgN (img : Array Byte) (off n : Nat) : Nat := ofBytes ((List.range n).map fun i => img.getD (off + i) 0)
def imgZero (img : Array Byte) (off n : Nat) : Bool := (List.range n).all fun i => img.getD (off + i) 0 == 0

/-- The layout that a header's lanes, flags and lengths give (R207). -/
def headerLay (hd : Array Byte) : ImgLay :=
  let fl := imgN hd 19 1
  imgLay (imgN hd 20 2) (fl.testBit 1) (if fl.testBit 4 then imgN hd 48 8 else 0) (if fl.testBit 2 then imgN hd 32 8 else 0)

/-- Phase 2 (R210): the first refusing reason, 0 for none. -/
def State.headerReason (s : State) (hd : Array Byte) : Nat :=
  let h := s.cur
  let fl := imgN hd 19 1
  let w := s.worlds[h.world.toNat]
  if imgN hd 0 8 != 0x5158435400000001 || imgN hd 22 2 != 0 || !imgZero hd 56 200 || 32 ≤ fl || imgN hd 40 8 != (headerLay hd).len then 1
  else if imgN hd 18 1 != h.world.toNat || imgN hd 8 8 != jobWord h.queue h.num || imgN hd 16 2 != h.ord || fl.testBit 0 != w.prot then 2
  else if imgN hd 20 2 != h.lanes then 3
  else if fl.testBit 1 != h.tileOwner || (fl.testBit 2 && imgN hd 32 8 != h.spadSize) || (fl.testBit 4 && imgN hd 48 8 != h.tcmSize) then 4
  else if !w.prot then 0
  else match s.thatum.saves.find? fun c => c.owner == h.identity with
  | none => 5
  | some c => if imgN hd 24 8 != c.c then 6 else if !c.live then 7 else 0

/-- The nest entry in a slot (R257); none where its valid bit is 0. -/
def imgEntry (img : Array Byte) (i : Nat) : Option LoopEntry :=
  let lo := imgN img (0x320 + 24 * i) 8
  if lo.testBit 63 then
    some { count := BitVec.ofNat 64 (imgN img (0x330 + 24 * i) 8), stop := BitVec.ofNat 64 (imgN img (0x328 + 24 * i) 8),
           start := BitVec.ofNat 64 (lo % 2 ^ 55), fixed := lo.testBit 62, lvl := BitVec.ofNat 3 (fieldN lo 59 3) }
  else none
/-- Whether a slot's entry keeps R257 and the limits of R254, inside an outer end. -/
def entryKeeps (img : Array Byte) (i : Nat) (e : LoopEntry) (outer : Option Word) : Bool :=
  let n := e.stop.toNat - e.start.toNat
  fieldN (imgN img (0x320 + 24 * i) 8) 55 4 == 0 && e.start.toNat % 4 == 0 && e.stop.toNat % 4 == 0 && e.start.toNat < e.stop.toNat &&
  n ≤ 1024 && e.count != 0 && e.lvl.toNat ≤ 5 && (!e.fixed || e.lvl == 0) && (match outer with | some o => e.stop ≤ o | none => true)
/-- The nest from slot i on, `gap` once a slot without an entry has been seen. -/
def nestKeeps (img : Array Byte) : Nat → Nat → Bool → Option Word → Bool
  | 0, _, _, _ => true
  | n + 1, i, gap, outer =>
    match imgEntry img i with
    | none => imgZero img (0x320 + 24 * i) 24 && nestKeeps img n (i + 1) true outer
    | some e => !gap && entryKeeps img i e outer && nestKeeps img n (i + 1) false (some e.stop)

/-- The modulus table of an image (R59). -/
def imgMtab (img : Array Byte) : List (BitVec 512) := (List.range 64).map fun i => BitVec.ofNat 512 (imgN img (0x1000 + 64 * i) 64)
/-- Phase 4's checks on the decrypted contents (R210): whether reason 1 stands. -/
def contentsBad (img : Array Byte) (p : Nat) : Bool :=
  let pm := imgN img 0x270 16
  let win := imgN img 0x3B0 8
  !imgZero img 0x100 8 || imgN img 0x208 8 ≥ 32 || !imgZero img 0x31C 4 || !imgZero img 0x3B8 72 || !imgZero img 0xA00 1536 ||
  !imgZero img 0x2000 (256 * p) || pm.testBit 0 || pm.testBit 71 || fieldN pm 76 52 != 0 || !nestKeeps img 6 0 false none ||
  fieldN win 39 25 != 0 || fieldN win 32 7 == 0 || 64 < fieldN win 32 7 || (imgMtab img).any fun e => e.getLsbD 511 && !modEntryOk e

/-- CTXRST (R206, R210): the four phases. -/
def execCtxrst (a : BitVec 5) (h : BitVec 4) (s : State) : Out :=
  let v := s.cur.x a
  let base := (v &&& ~~~63#64).toNat
  s.attempt do
    s.ctxGate a
    if !(s.opsOf s.cur).isEmpty then .ok (s.holdOn .drain)
    else do
      let s := s.modCur Hart.landHooks
      let ps := blockPieces base 256
      let ts ← s.ctxTargets .load ps
      let s1 := s.ctxAsk ps ts
      if s1.asking s1.cur then .ok (s1.holdOn .far)
      else do
        let hd ← s1.ctxRead ps ts
        let l := headerLay hd.toArray
        match s1.headerReason hd.toArray with
        | 0 =>
          let ps := blockPieces base l.len
          let ts ← s1.ctxTargets .load ps
          let s2 := s1.ctxAsk ps ts
          if s2.asking s2.cur then .ok (s2.holdOn .far)
          else do
            let raw ← s2.ctxRead ps ts
            let id := s.cur.identity
            let s3 := s2.dropAsks s2.cur
            match openText id.keyName (imgIv (imgN hd.toArray 24 8)) hd ((raw.take (l.len - 16)).drop 256) (raw.drop (l.len - 16)) with
            | none => .ok (s3.ctxRefuse 8)
            | some text =>
            let img := hd ++ text
            if contentsBad img.toArray s.cur.lanes then .ok (s3.ctxRefuse 1)
            else
              let s4 := { s3 with thatum := { s3.thatum with saves := s3.thatum.saves.map fun (c : SaveCtr) =>
                if c.owner == id then ({ c with live := false } : SaveCtr) else c } }
              .ok (((s4.useX [a]).start h (.ctxrst img) false (v &&& ~~~63#64)).retire)
        | r => .ok ((s1.dropAsks s1.cur).ctxRefuse r)

/-- Writes a memory section and its poison bits, or zeros where the image holds none (R210). -/
def State.loadSection (s : State) (img : Array Byte) (off key n : Nat) (held : Bool) : State :=
  let data := if held then (List.range n).map fun i => img.getD (off + i) 0 else List.replicate n 0
  let m := s.mem.writeClean key data
  { s with mem := (List.range (n / 8)).foldl (fun m i =>
      if held && (img.getD (off + n + i / 8) 0).getLsbD (i % 8) then m.poisonWord (key + 8 * i) else m) m }

/-- The CSRs that an image restores (R209). -/
def ctxCsrNums : List Nat :=
  [0x000, 0x005, 0x006, 0x007, 0x008, 0x009, 0x00A, 0x020, 0x021, 0x022, 0x023, 0x024, 0x025, 0x026, 0x027, 0x028, 0x029, 0x02A, 0x02B,
   0x031, 0x041, 0x105, 0x106, 0x107, 0x11A, 0x182]
/-- Whether a result is on its way to a register that an image restores. -/
def Dest.restored : Dest → Bool
  | .flags _ | .c _ _ | .tb _ _ | .k _ _ => true
  | _ => false
/-- The registers of a restored context (R207, R209, R210); older results on their way to them are discarded (R118), and the image carries
no poison of hooks and CSRs (log 72). status.vlost, which the image records in its flags, stays as it is (DESIGN CHOICE, log 90). -/
def Hart.ctxLoad (h : Hart) (img : Array Byte) (l : ImgLay) : Hart :=
  let w (off : Nat) : Word := BitVec.ofNat 64 (imgN img off 8)
  let pm := imgN img 0x270 16
  let b := 256 * h.lanes
  let tile := (imgN img 19 1).testBit 1
  { h with
    user := { x := Vector.ofFn fun (i : Fin 32) => w (0x100 + 8 * i.val), px := BitVec.ofNat 32 pm, ph := 0,
              h := Vector.ofFn fun (i : Fin 16) => if i.val = 0 then 0 else BitVec.ofNat 32 (imgN img (0x2DC + 4 * i.val) 4),
              ldest := BitVec.ofNat 5 (imgN img 0x208 8),
              nest := ((List.range 6).filterMap (imgEntry img)).reverse,
              lidx := Vector.ofFn fun (i : Fin 6) => w (0x2B0 + 8 * i.val) },
    strap := { h.strap with epc := w 0x200 }, pcsr := h.pcsr.filter fun c => !ctxCsrNums.contains c,
    csr := { h.csr with
      fcsr := w 0x210 &&& 0xFF, hvl := w 0x218, hvtype := vtypeFields (w 0x220), hvstart := w 0x228, vsb := w 0x230, vsbSeen := w 0x230, srseed := w 0x238,
      srdraw := w 0x240, ctfloor := w 0x248 &&& 0xFFFF, brstep := w 0x250, slstat := w 0x258, instret := w 0x260, poolmap := w 0x268,
      lcnt := Vector.ofFn fun (i : Fin 6) => w (0x280 + 8 * i.val), winN := BitVec.ofNat 7 (imgN img 0x3B4 4),
      winW := BitVec.ofNat 32 (imgN img 0x3B0 4), held := true },
    vec := { v := Vector.ofFn fun (i : Fin 32) => BitVec.ofNat 65536 (imgN img (0x2000 + 8 * b + b * i.val) b),
             m := Vector.ofFn fun (i : Fin 8) => if i.val = 0 then 0 else
               maskOfBytes h.lanes ((List.range b).map fun k => img.getD (0x2000 + b * i.val + k) 0),
             z := if tile then Vector.ofFn fun (i : Fin 4) => BitVec.ofNat 32768 (imgN img (l.z + 4096 * i.val) 4096) else h.vec.z,
             pv := BitVec.ofNat 32 (pm / 2 ^ 32), pm := BitVec.ofNat 8 (pm / 2 ^ 64 % 128 * 2),
             pz := if tile then BitVec.ofNat 4 (pm / 2 ^ 72) else h.vec.pz },
    ct := { h.ct with
      c := Vector.ofFn fun (i : Fin 32) => BitVec.ofNat 256 (imgN img (0x400 + 32 * i.val) 32),
      tb := Vector.ofFn fun (i : Fin 8) => BitVec.ofNat 256 (imgN img (0x800 + 32 * i.val) 32),
      k := Vector.ofFn fun (i : Fin 8) => BitVec.ofNat 256 (imgN img (0x900 + 32 * i.val) 32),
      mtab := Vector.ofFn fun (i : Fin 64) => BitVec.ofNat 512 (imgN img (0x1000 + 64 * i.val) 64) } }

/-- The pool table is read again (R171); one that cannot be read or is malformed leaves the pools as they are (log 23). -/
def State.reloadPools (s : State) : State :=
  match s.writePoolmap s.cur.csr.poolmap with
  | .ok t => t
  | .error _ => s

/-- The end of a restore (R210). -/
def State.ctxrstDone (s : State) (o : Op) (image : List Byte) : State :=
  let img := image.toArray
  let l := headerLay img
  match s.hartAt o.core o.ctx with
  | some h =>
    let fl := imgN img 19 1
    let s := s.modHart o.core o.ctx fun x => { x.ctxLoad img l with pend := x.pend.filter fun p => !(p.seq < o.seq && p.dest.restored) }
    let s := s.loadSection img l.tcm (tcmKey h.core h.tcmOff) h.tcmSize (fl.testBit 4)
    let s := s.loadSection img l.spad (spadKey (clusOf h.core) h.spadOff) h.spadSize (fl.testBit 2)
    (s.onHart o.core o.ctx State.reloadPools).finish o
  | none => s.finish o

end Sys2Proof.Machine
end

