-- ==== Sys2Proof/Machine/Sleeve.lean ====
section
/-! DEFINITION. Sleeve instructions (R328 to R334). -/
namespace Sys2Proof.Machine

/-- STREAM by R329: the check and the register. -/
def streamTrap (check : Nat) (r : BitVec 5) : Trap := { code := cSTREAM, detail := BitVec.ofNat 64 (check + 256 * r.toNat) }
/-- The checks of the cuff registers at issue (R329): the cuff operands, and the end that A must be where the function asks for one. -/
def State.cuffChecks (s : State) (a : BitVec 5) (cuffs : List (BitVec 5)) (recv : Option Bool) : Except Trap Unit :=
  match cuffs.find? fun r => (s.cur.x r).getLsbD 32 with
  | some r => .error (streamTrap 1 r)
  | none =>
    if recv.isSome && recv != some (cuffRecv (s.cur.x a)) then .error (streamTrap 2 a)
    else match cuffs.find? fun r => cuffWorld (s.cur.x r) != s.cur.world with
    | some r => .error (streamTrap 3 r)
    | none => .ok ()

/-- Pushes a sleeve command and lets the channel's head start. -/
def State.pushSleeve (s : State) (hook : BitVec 4) (c : SleeveCmd) (d : XDest) : State :=
  if s.chanFull s.cur .sleeve then s.holdOn (.channel .sleeve)
  else (((s.drainAll false).start hook (.sleeve c d) false 0).retire).startSleeve s.cur.core s.cur.ctx

/-- A destination that discards. -/
def State.noDest (s : State) : XDest := s.xdest 0

/-- SLOPEN (R331): xd takes the send cuff, the next register the receive cuff. -/
def execSlopen (d : BitVec 5) (h : BitVec 4) (s : State) : Out :=
  .next (if s.chanFull s.cur .sleeve then s.holdOn (.channel .sleeve)
    else (s.pushSleeve h (.opened (s.xdest (d + 1))) (s.xdest d)).setLdest d)
/-- SLSEND (R332). -/
def execSlsend (a b : BitVec 5) (h : BitVec 4) (s : State) : Out :=
  s.attempt do
    s.strictX [a, b]
    s.cuffChecks a [a] (some false)
    .ok (s.pushSleeve h (.send (s.cur.x a) (s.cur.x b) (s.cur.px b) none false) s.noDest)
/-- SLPASS (R150, R332). -/
def execSlpass (a b : BitVec 5) (h : BitVec 4) (s : State) : Out :=
  s.attempt do
    s.strictX [a, b]
    s.cuffChecks a [a, b] (some false)
    .ok (s.pushSleeve h (.pass (s.cur.x a) (s.cur.x b) none false) s.noDest)
/-- SLCLOSE (R334). -/
def execSlclose (a : BitVec 5) (h : BitVec 4) (s : State) : Out :=
  s.attempt do
    s.strictX [a]
    s.cuffChecks a [a] none
    .ok (s.pushSleeve h (.close (s.cur.x a)) s.noDest)
/-- SLPOLL (R333). -/
def execSlpoll (d a : BitVec 5) (h : BitVec 4) (s : State) : Out :=
  s.attempt do
    s.strictX [a]
    s.cuffChecks a [a] (some true)
    .ok (if s.chanFull s.cur .sleeve then s.holdOn (.channel .sleeve)
      else (s.pushSleeve h (.poll (s.cur.x a)) (s.xdest d)).setLdest d)

/-- What a `slrecv` of the issuing hart takes now, once the commands before it have completed (R333): item, status, post. -/
def State.recvNow (s : State) (d : BitVec 5) (cuff : Word) (h : BitVec 4) : Option State :=
  if !(s.sleeveOps s.cur.core s.cur.ctx).isEmpty then none
  else match s.receive s.cur cuff with
  | none => none
  | some (s, v, p, code) =>
    some ((((s.writeX d v p).modCur fun x => { x with csr := { x.csr with slstat := slstatWord 2 code } }).setLdest d).postNow h).retire
/-- SLRECV (R333). -/
def execSlrecv (d a : BitVec 5) (h : BitVec 4) (s : State) : Out :=
  s.attempt do
    s.strictX [a]
    s.cuffChecks a [a] (some true)
    .ok ((s.recvNow d (s.cur.x a) h).getD (s.holdClosing (.slrecv d (s.cur.x a) h)))

end Sys2Proof.Machine
end

