-- ==== Sys2Proof/Machine/Tailor.lean ====
section
/-! DEFINITION. Tailoring: `rprun`, `rpdisp`, `rpstat` and the group operation (R155 to R160, R335 to R340). -/
namespace Sys2Proof.Machine

/-! Reading a hart's memory for a command. -/

/-- The tailoring port as a requester of far data, for a command of a hart. -/
def Hart.port (h : Hart) : Hart := { h with ctx := h.ctx + 24 }
/-- Translates an access of the port for a hart's command: no engine but the copy engine reaches a TCM slice (R20, log 82). -/
def State.portAt (s : State) (h : Hart) (l : Level) (va : Word) (n : Nat) (acc : Acc) : Except Trap Target :=
  match translate s h l va n acc true with
  | .error t => .error t
  | .ok t => if t.home == .tcm then .error (accessTrap 8 acc va) else .ok t
/-- Reads n bytes at an address as loads of a hart at a level, in the widest aligned accesses: each byte with its poison. `at_` is the
translation. What lies on another device has been requested before. -/
def State.virtRead (s : State) (rq h : Hart) (at_ : Word → Nat → Except Trap Target) : Nat → Word → Nat → Except Trap (List (Byte × Bool))
  | 0, _, _ => .ok []
  | f + 1, va, n =>
    if n = 0 then .ok [] else
    let k := chunkSize va.toNat n
    match at_ va k with
    | .error t => .error t
    | .ok t =>
      match (if t.isFar then (s.farHeld rq t k va).map fun bs => bs.map fun b => (b, false)
             else let (bs, p) := s.readAt h.world t k; Except.ok (bs.map fun b => (b, p))) with
      | .error e => .error e
      | .ok bs => (s.virtRead rq h at_ f (va + BitVec.ofNat 64 k) (n - k)).map fun r => bs ++ r
/-- Reads `count` items of n bytes that lie `step` apart, from item i on: the item whose read faults, with its trap (R199). -/
def State.virtArray (s : State) (h : Hart) (l : Level) (va : Word) (n step : Nat) : Nat → Nat → Except (Nat × Trap) (List (List (Byte × Bool)))
  | _, 0 => .ok []
  | i, k + 1 => match s.virtRead h.port h (fun a m => s.portAt h l a m .load) n va n with
    | .error t => .error (i, t)
    | .ok b => (s.virtArray h l (va + BitVec.ofNat 64 step) n step (i + 1) k).map fun r => b :: r

/-! The descriptor (R337). -/
def tdGid (d : BitVec 1024) : Nat := (d.extractLsb' 0 16).toNat
def tdEpoch (d : BitVec 1024) : Nat := (d.extractLsb' 32 32).toNat
def tdMmap (d : BitVec 1024) : Word := d.extractLsb' 64 64
def tdRec (d : BitVec 1024) : Word := d.extractLsb' 128 64
def tdNrec (d : BitVec 1024) : Nat := (d.extractLsb' 192 24).toNat
def tdRlen (d : BitVec 1024) : Nat := (d.extractLsb' 224 16).toNat
def tdDisp (d : BitVec 1024) : Bool := d.getLsbD 240
def tdPolicy (d : BitVec 1024) : Nat := (d.extractLsb' 241 2).toNat
def tdKsrc (d : BitVec 1024) : Bool := d.getLsbD 243
def tdKoff (d : BitVec 1024) : Nat := (d.extractLsb' 248 8).toNat
def tdKaddr (d : BitVec 1024) : Word := d.extractLsb' 256 64
def tdWaddr (d : BitVec 1024) : Word := d.extractLsb' 320 64
def tdSpill (d : BitVec 1024) : Word := d.extractLsb' 384 64
def tdOvf (d : BitVec 1024) : Word := d.extractLsb' 448 64
def tdBuf (d : BitVec 1024) (j : Nat) : Word := d.extractLsb' (512 + 64 * j) 64
def tdCap (d : BitVec 1024) (j : Nat) : Nat := ((tdBuf d j).extractLsb' 40 17).toNat
def tdOff (d : BitVec 1024) (j : Nat) : Nat := ((tdBuf d j).extractLsb' 0 25).toNat
/-- The bytes of one entry of a buffer (R159). -/
def tdStride (d : BitVec 1024) : Nat := 8 + 8 * cdiv (tdRlen d) 8

/-- The members of a bitmap, in rising device number (R155). -/
def membersOf (m : BitVec 512) : List Nat := (List.range 512).filter fun v => m.getLsbD v

/-- The first failing check of R338; 0 for none. `disp` is the instruction. A capacity that the 17-bit field holds past the 65,536 of R155
is taken whole, since no check of R338 refuses it (DESIGN CHOICE, log 92). -/
def State.tailorCheck (s : State) (disp : Bool) (d : BitVec 1024) (m : BitVec 512) : Nat :=
  let res := d.extractLsb' 16 16 != 0 || d.extractLsb' 216 8 != 0 || d.extractLsb' 244 4 != 0 ||
    (List.range 8).any fun j => (tdBuf d j).extractLsb' 57 7 != 0 || (tdBuf d j).extractLsb' 25 15 != 0
  let one := res || (if disp then tdKoff d != 0 || tdWaddr d != 0 || tdSpill d != 0
    else (tdKsrc d && tdKoff d != 0) || (!tdKsrc d && tdKaddr d != 0) || (tdPolicy d != 1 && tdSpill d != 0))
  let (tb, ts) := tailorRes s s.cur.world
  let bufBad (j : Nat) : Bool := tdCap d j != 0 &&
    !(tdOff d j % 8 == 0 && tb ≤ tdOff d j && tdOff d j + tdCap d j * tdStride d ≤ tb + ts)
  if one then 1
  else if tdDisp d != disp || tdPolicy d == 3 || (disp && (tdPolicy d == 1 || tdKsrc d)) then 2
  else if tdRlen d == 0 || 256 < tdRlen d || (!tdKsrc d && (tdRlen d < tdKoff d + 8 || tdKoff d % 8 != 0)) ||
      2 ^ 64 < (tdRec d).toNat + tdNrec d * tdRlen d then 3
  else if !m.getLsbD s.device || (membersOf m).any (fun v => !s.members.contains v) then 4
  else if !disp && (tdCap d 0 == 0 || (List.range 7).any fun j => tdBuf d (j + 1) != 0) then 5
  else if (List.range 8).any bufBad then 6
  else 0

/-! What a member brings (R156, R158, R338). -/

/-- The spans of addresses that a member's command reads: records, keys or destinations, weights, spill table. -/
def tailorSpans (d : BitVec 1024) (ranks : Nat) : List (Nat × Nat) :=
  let n := tdNrec d
  ([(tdRec d, n * tdRlen d), (tdKaddr d, if tdDisp d then 4 * n else if tdKsrc d then 8 * n else 0),
    (tdWaddr d, if tdDisp d || tdWaddr d == 0 then 0 else 2 * n), (tdSpill d, if tdPolicy d = 1 then 2 * ranks else 0)].filter fun e =>
      e.2 != 0).map fun e => (e.1.toNat, e.2)
/-- Reads a member's records, keys, weights or destinations, and spill table; the item at which a fault stops the command. -/
def State.tailorRead (s : State) (h : Hart) (l : Level) (d : BitVec 1024) (ranks : Nat) :
    Except (Nat × Trap) (List (List Byte × List Nat) × TailorInput) :=
  let n := tdNrec d
  let num (b : List (Byte × Bool)) : Nat := ofBytes (b.map (·.1))
  match s.virtArray h l (tdRec d) (tdRlen d) (tdRlen d) 0 n with
  | .error t => .error t
  | .ok items =>
    let recs := items.map fun b => (b.map (·.1), (b.zipIdx.filter fun x => x.1.2).map (·.2))
    let mk (f : Nat → List Byte → RecKey) : List RecKey := recs.zipIdx.map fun ((b, p), i) => { f i b with poison := !p.isEmpty }
    let caps := (List.range 8).map (tdCap d)
    if tdDisp d then
      match s.virtArray h l (tdKaddr d) 4 4 0 n with
      | .error t => .error t
      | .ok ds =>
        let dest (i : Nat) : Half := BitVec.ofNat 32 (num (ds.getD i []))
        let bad := (List.range n).any fun i => (dest i).extractLsb' 28 3 != 0 || (dest i).extractLsb' 12 4 != 0
        .ok (recs, { disp := true, policy := tdPolicy d, rlen := tdRlen d, caps, spill := [], bad,
                     recs := mk fun i _ => { key := 0, weight := 0, dest := dest i, poison := false } })
    else
      match s.virtArray h l (tdKaddr d) 8 8 0 (if tdKsrc d then n else 0), s.virtArray h l (tdWaddr d) 2 2 0 (if tdWaddr d = 0 then 0 else n),
          s.virtArray h l (tdSpill d) 2 2 0 (if tdPolicy d = 1 then ranks else 0) with
      | .error t, _, _ => .error t
      | _, .error t, _ => .error t
      | _, _, .error t => .error t
      | .ok ks, .ok ws, .ok sp =>
        let key (i : Nat) (b : List Byte) : Nat := if tdKsrc d then num (ks.getD i []) else ofBytes ((b.drop (tdKoff d)).take 8)
        let wt (i : Nat) : Nat := if tdWaddr d = 0 then 1 else num (ws.getD i [])
        .ok (recs, { disp := false, policy := tdPolicy d, rlen := tdRlen d, caps, spill := sp.map num, bad := false,
                     recs := mk fun i b => { key := key i b, weight := wt i, dest := 0, poison := false } })

/-! The plan: what every member computes from all inputs (R156 to R158). -/

/-- One record of the group: rank and index, key, weight, first and second choice (rank and buffer), poison. -/
structure PlanRec where
  rank : Nat
  idx : Nat
  key : Nat
  weight : Nat
  first : Nat × Nat
  second : Option (Nat × Nat)
  poison : Bool
deriving DecidableEq, Repr

/-- Global order of `rprun`: by key, source rank, source index (R156). -/
def PlanRec.before (a b : PlanRec) : Bool :=
  a.key < b.key || (a.key == b.key && (a.rank < b.rank || (a.rank == b.rank && a.idx < b.idx)))
def insertRec (a : PlanRec) : List PlanRec → List PlanRec
  | [] => [a]
  | b :: r => if a.before b then a :: b :: r else b :: insertRec a r
def sortRecs (l : List PlanRec) : List PlanRec := l.foldr insertRec []

/-- The inputs by rank. -/
def inputsOf (g : Group) : List TailorInput :=
  (membersOf g.mmap).filterMap fun v => (g.inputs.find? fun i => i.1 == v).map (·.2)

/-- Destination ranks of `rprun` (R156). A position that reaches the total weight, which only records of weight 0 at the end do,
is left open by the spec: a free value (log 18). -/
def rangeDests (p total : Nat) (unit : Bool) : Nat → List PlanRec → List (PlanRec × Nat)
  | _, [] => []
  | pos, r :: rs =>
    let d := p * pos / (max total 1)
    (r, if d < p then d else Config.pick 0 (2 ^ 40 + r.rank * 2 ^ 24 + r.idx) % p) ::
      rangeDests p total unit (pos + if unit then 1 else r.weight) rs

/-- Every record in global order with its choices: the order of R156, over whole inputs (log 85). -/
def planRecs (ins : List TailorInput) : List PlanRec :=
  let flat := ins.zipIdx.flatMap fun (t, k) => t.recs.zipIdx.map fun (r, i) =>
    let nosec := r.dest.getLsbD 31
    ({ rank := k, idx := i, key := r.key, weight := r.weight,
       first := ((r.dest.extractLsb' 0 9).toNat, (r.dest.extractLsb' 9 3).toNat),
       second := if nosec then none else some ((r.dest.extractLsb' 16 9).toNat, (r.dest.extractLsb' 25 3).toNat),
       poison := r.poison } : PlanRec)
  match ins.head? with
  | none => []
  | some t =>
    if t.disp then flat
    else
      let total := flat.foldl (fun a r => a + r.weight) 0
      let unit := total == 0
      (rangeDests ins.length (if unit then flat.length else total) unit 0 (sortRecs flat)).map fun (r, d) =>
        let sp := ((ins.getD r.rank { disp := false, policy := 0, rlen := 0, caps := [], spill := [], recs := [], bad := false }).spill).getD d 512
        { r with first := (d, 0), second := if t.policy = 1 then some (sp, 0) else none }

/-- How a record ends: accepted at its first or second choice, as entry number `pos` there, or returned. -/
inductive Fate where
  | first (rank buf pos : Nat)
  | second (rank buf pos : Nat)
  | back
deriving DecidableEq, Repr

/-- Offers records to one choice in order: what is accepted, with its entry number, and what is left (R157, R158, R339). -/
def offer (caps : List (List Nat)) (choice : PlanRec → Option (Nat × Nat)) :
    List PlanRec → List ((Nat × Nat) × Nat) → List (PlanRec × Option (Nat × Nat × Nat)) × List ((Nat × Nat) × Nat)
  | [], used => ([], used)
  | r :: rs, used =>
    match choice r with
    | none => let (l, u) := offer caps choice rs used; ((r, none) :: l, u)
    | some c =>
      let n := ((used.find? fun e => e.1 == c).map (·.2)).getD 0
      let cap := (caps.getD c.1 []).getD c.2 0
      if n < cap && !(r.poison && c.1 != r.rank) then
        let (l, u) := offer caps choice rs ((c, n + 1) :: used.filter fun e => e.1 != c)
        ((r, some (c.1, c.2, n)) :: l, u)
      else let (l, u) := offer caps choice rs used; ((r, none) :: l, u)

/-- Every record's fate in global order, and whether a policy of FAIL refuses the operation. -/
def planFates (ins : List TailorInput) : List (PlanRec × Fate) × Bool :=
  let caps := ins.map (·.caps)
  let (one, used) := offer caps (fun r => some r.first) (planRecs ins) []
  let rest := one.filterMap fun (r, a) => if a.isNone then some r else none
  let (two, _) := offer caps (fun r => r.second) rest used
  let firsts := one.filterMap fun (r, a) => a.map fun (k, b, p) => (r, Fate.first k b p)
  let seconds := two.map fun (r, a) => match a with | some (k, b, p) => (r, Fate.second k b p) | none => (r, Fate.back)
  let policy := match ins.head? with | some t => t.policy | none => 0
  (firsts ++ seconds, policy == 2 && seconds.any fun e => e.2 == .back && !e.1.poison)

/-- Whether the members agree and none brings a bad destination entry (R155, R338). Record lengths that differ are taken as a disagreement
too: an entry lands whole, and a buffer has room for entries of its own length (R159, log 82). -/
def inputsAgree (ins : List TailorInput) : Bool :=
  match ins with
  | [] => true
  | t :: _ => ins.all fun u => u.disp == t.disp && u.policy == t.policy && u.rlen == t.rlen && !u.bad

/-! The group operation. -/

/-- Whether a record is the one of an operation that has not posted here. -/
def Group.is (g : Group) (gid epoch : Nat) (m : BitVec 512) : Bool := g.gid == gid && g.epoch == epoch && g.mmap == m && !g.posted
def State.modGroup (s : State) (gid epoch : Nat) (m : BitVec 512) (f : Group → Group) : State :=
  { s with groups := s.groups.map fun g => if g.is gid epoch m then f g else g }
def State.groupOf (s : State) (gid epoch : Nat) (m : BitVec 512) : Option Group := s.groups.find? fun g => g.is gid epoch m
def Group.fresh (gid epoch : Nat) (m : BitVec 512) (world : Nat) : Group :=
  { gid, epoch, mmap := m, core := 0, ctx := 0, op := none, desc := 0, inputs := [], ready := [], records := [], phase := 0,
    out := [], due := [], landed := 0, returned := [], status := 0, posted := false, world }
/-- The group record, made where this member hears of the operation first from another. -/
def State.openGroup (s : State) (gid epoch : Nat) (m : BitVec 512) (world : Nat) : State :=
  if s.groups.any fun g => g.is gid epoch m then s else { s with groups := s.groups ++ [.fresh gid epoch m world] }
/-- The record of an operation that this member issues: the one that the others' messages have made, or a new one. It is the group's
latest, and what had posted before is no longer reported (R340). -/
def State.issueGroup (s : State) (gid epoch : Nat) (m : BitVec 512) (world : Nat) (f : Group → Group) : State :=
  let g := (s.groupOf gid epoch m).getD (.fresh gid epoch m world)
  { s with groups := s.groups.filter (fun g => !g.is gid epoch m && !(g.gid == gid && g.posted)) ++ [f g] }
/-- The operation of a group that this member has issued and that has not posted (R155). -/
def State.groupBusy (s : State) (gid : Nat) : Bool := s.groups.any fun g => g.gid == gid && g.op.isSome && !g.posted
/-- A message to every other member. -/
def State.toMembers (s : State) (m : BitVec 512) (c : TailorCtl) : State :=
  (membersOf m).foldl (fun s v => if v = s.device then s else s.send v (.tlc c)) s
/-- This device's rank. -/
def State.rankIn (s : State) (m : BitVec 512) : Nat := (membersOf m).idxOf s.device

/-- Ends the operation at this member with a status. -/
def State.groupEnd (s : State) (g : Group) (status : Nat) : State :=
  s.modGroup g.gid g.epoch g.mmap fun g => if g.phase < 3 then { g with phase := 3, was := g.phase, status, out := [], due := [] } else g
/-- A fault in a member's reads or checks, at item k: FAILED at every member, ENGINE at its issuing hart (R199, R338). -/
def State.groupFault (s : State) (g : Group) (o : Op) (k : Nat) (t : Trap) : State :=
  let s := s.toMembers g.mmap (.ended g.gid g.epoch g.mmap 1 g.world)
  let s := s.modGroup g.gid g.epoch g.mmap fun g => { g with phase := 3, was := g.phase, status := 1, posted := true }
  let s := match s.hartAt o.core o.ctx with | some h => s.dropAsks h.port | none => s
  (s.countFault o t).engineFault o .tailor (engineTrap k t false)

/-- The entry of a record (R159): header and record, padded to 8 bytes. -/
def entryBytes (src idx how : Nat) (data : List Byte) : List Byte :=
  toBytes 8 (src * 2 ^ 55 + idx * 2 ^ 31 + how * 2 ^ 29 + data.length) ++ data ++ List.replicate ((8 - data.length % 8) % 8) 0
/-- Lands one record in a buffer of this member, whole; a written word is poisoned where its source word was (R159, R212). -/
def State.landRecord (s : State) (g : Group) (src idx how buf pos : Nat) (data : List Byte) (poison : List Nat) : State :=
  let key := spadKey (clusOf g.core) (tdOff g.desc buf + pos * tdStride g.desc)
  let m := poison.foldl (fun (m : Memory) j => m.writePoison (key + 8 + j) 1) (s.mem.writeClean key (entryBytes src idx how data))
  (s.keepPlain { s with mem := m } (BitVec.ofNat 6 g.world) key (cdiv (8 + data.length) 8 * 8)).modGroup g.gid g.epoch g.mmap fun g =>
    { g with landed := g.landed + 1, due := g.due.filter fun e => e != (src, idx) }

/-- The records that a member sends start to move: those bound for itself land, the others leave (R157 to R159). -/
def State.groupMove (s : State) (g : Group) : State :=
  let me := s.rankIn g.mmap
  let devs := membersOf g.mmap
  let s := s.modGroup g.gid g.epoch g.mmap fun g => { g with phase := 2 }
  ((planFates (inputsOf g)).1.filter fun e => e.1.rank == me).foldl (fun s (r, f) =>
    let go (k b p how : Nat) : State :=
      let (data, poison) := g.records.getD r.idx ([], [])
      if k = me then s.landRecord g me r.idx how b p data poison
      else s.send (devs.getD k 0) (.tlr { gid := g.gid, epoch := g.epoch, mmap := g.mmap, src := me, idx := r.idx, how, buf := b, data, world := g.world })
    match f with
    | .first k b p => go k b p 0
    | .second k b p => go k b p 1
    | .back => s) s

/-- The parts of an overflow list of n entries, with the requests for claims that far element-mode parts must still send. -/
def ovfPieces (d : BitVec 1024) (n : Nat) : List (Nat × Nat) := blockPieces (tdOvf d).toNat (4 * n)
def State.ovfNeeds (s : State) (h : Hart) (l : Level) (d : BitVec 1024) (n : Nat) : List (Target × FarAsk × (Nat → Msg)) :=
  (ovfPieces d n).filterMap fun p =>
    match s.portAt h l (BitVec.ofNat 64 p.1) (chunkSize p.1 p.2) .store with
    | .ok t => if t.isFar then (s.needClaims h.port t (unitsOf t.key p.2 true) 4).map fun a => (t, a.1, a.2) else none
    | .error _ => none
/-- Translates and checks an overflow list entry by entry, and claims its units (R176, R338): the entry at which it faults. -/
def State.ovfCheck (s : State) (h : Hart) (l : Level) (d : BitVec 1024) (n : Nat) : Except (Nat × Trap) State :=
  (List.range n).foldl (fun (acc : Except (Nat × Trap) State) i =>
    let va := tdOvf d + BitVec.ofNat 64 (4 * i)
    match acc with
    | .error e => .error e
    | .ok s => match s.portAt h l va 4 .store with
      | .error t => .error (i, t)
      | .ok t =>
        if t.isFar then
          match (ovfPieces d n).findSome? fun p => if p.1 ≤ va.toNat && va.toNat < p.1 + p.2 then
              (match s.farClaims h.port { t with key := t.key + p.1 - va.toNat } p.2 true .store (BitVec.ofNat 64 p.1) with
                | .error e => some e
                | .ok _ => none) else none with
          | some e => .error (i, e)
          | none => .ok s
        else match claimTarget s t 4 with
          | .error _ => .error (i, keystreamTrap va)
          | .ok u => .ok u) (.ok s)
/-- Destinations are fixed once every member's input is here: FAILED where they disagree or FAIL refuses; else this member checks
its overflow list, once the claims of a far one have been answered, and tells the others (R155 to R158, R338). A poisoned record that
a destination on another device would have taken counts one link error where it is returned (R339). -/
def State.groupFix (s : State) (g : Group) (o : Op) : State :=
  let ins := inputsOf g
  let me := s.rankIn g.mmap
  let (plan, refuse) := planFates ins
  if !inputsAgree ins || refuse then s.groupEnd g 1
  else
    let mine := plan.filter fun e => e.1.rank == me
    let back := (List.range (tdNrec g.desc)).filter fun i => mine.any fun e => e.1.idx == i && e.2 == .back
    let away := mine.filterMap fun e => match e.2 with
      | .first k _ _ | .second k _ _ => if k = me then none else some e.1.idx
      | .back => none
    let due := plan.filterMap fun e => match e.2 with
      | .first k _ _ | .second k _ _ => if k = me then some (e.1.rank, e.1.idx) else none
      | .back => none
    match s.hartAt o.core o.ctx with
    | none => s
    | some h =>
      let needs := s.ovfNeeds h o.lvl g.desc back.length
      if !needs.isEmpty || s.asking h.port then s.askAll h.port needs else
      let afar (e : PlanRec) : Bool := e.first.1 != me || e.second.any fun c => c.1 != me
      let poisoned := (mine.filter fun e => e.1.poison && e.2 == .back && afar e.1).length
      match s.ovfCheck h o.lvl g.desc back.length with
      | .error (i, t) => s.groupFault g o i t
      | .ok s =>
        let s := s.modWorld h.world.toNat fun w => { w with elink := w.elink + BitVec.ofNat 64 poisoned }
        let s := s.modGroup g.gid g.epoch g.mmap fun g => { g with phase := 1, returned := back, out := away, due, ready := s.device :: g.ready }
        s.toMembers g.mmap (.ready g.gid g.epoch g.mmap g.world)

/-- Moves a group operation on as far as it can go now. -/
def State.groupStep (s : State) (gid epoch : Nat) (m : BitVec 512) : State :=
  let fixed := match s.groupOf gid epoch m with
    | some g =>
      match g.op.bind fun id => s.ops.find? fun (o : Op) => o.id == id with
      | some o => if g.phase = 0 && (membersOf m).all (fun v => g.inputs.any fun i => i.1 == v) then s.groupFix g o else s
      | none => s
    | none => s
  match fixed.groupOf gid epoch m with
  | some g => if g.phase = 1 && (membersOf m).all (fun v => g.ready.contains v) then fixed.groupMove g else fixed
  | none => fixed

/-- Whether a span of a command lies in a region that has been under rekey since before the command (R177). -/
def State.portHeld (s : State) (h : Hart) (l : Level) (id : Nat) (spans : List (Nat × Nat)) : Bool :=
  (spans.flatMap fun p => blockPieces p.1 p.2).any fun p =>
    match translate s h l (BitVec.ofNat 64 p.1) (chunkSize p.1 p.2) .load true with
    | .ok t => s.rekeyHolds h.world id t
    | .error _ => false
/-- The head command of a tailoring channel starts: it asks for what lies on other devices, then reads its records and joins the
exchange (R143, R155, R338). -/
def State.tailorStart (s : State) (o : Op) : State :=
  if !s.isHead o then s else
  match o.kind with
  | .tailor _ gid epoch _ =>
    match s.groups.find? fun g => g.gid == gid && g.epoch == epoch && g.op == some o.id, s.hartAt o.core o.ctx with
    | some g, some h =>
      let ranks := (membersOf g.mmap).length
      let spans := tailorSpans g.desc ranks
      let needs := s.spanNeeds h.port h o.lvl spans
      if g.phase = 3 || g.inputs.any (fun i => i.1 == s.device) || s.portHeld h o.lvl o.id spans then s
      else if !needs.isEmpty || s.asking h.port then s.askAll h.port needs
      else match s.tailorRead h o.lvl g.desc ranks with
      | .error (k, t) => s.groupFault g o k t
      | .ok (recs, inp) =>
        let s := (s.dropAsks h.port).modGroup gid epoch g.mmap fun g => { g with records := recs, inputs := (s.device, inp) :: g.inputs }
        (s.toMembers g.mmap (.exchange gid epoch g.mmap inp g.world)).groupStep gid epoch g.mmap
    | _, _ => s
  | _ => s

/-- The five results of an operation (R159). -/
def groupResults (g : Group) (me : Nat) : List Word :=
  if g.status = 1 ∨ g.status = 2 then [0, 0, 0, 0, BitVec.ofNat 64 g.status]
  else
    let mine := (planFates (inputsOf g)).1.filter fun e => e.1.rank == me && !g.returned.contains e.1.idx
    let ones := (mine.filter fun e => match e.2 with | .first .. => true | _ => false).length
    let twos := (mine.filter fun e => match e.2 with | .second .. => true | _ => false).length
    [g.landed, ones, twos, g.returned.length, g.status].map (BitVec.ofNat 64)

/-- Writes the overflow list, the returned records' indices in rising order (R337): the state and the acknowledgements of the parts on
another device. -/
def State.groupOvf (s : State) (h : Hart) (l : Level) (g : Group) : State × List (Nat × Nat) :=
  let data := g.returned.flatMap (toBytes 4)
  (ovfPieces g.desc g.returned.length).foldl (fun (acc : State × List (Nat × Nat)) p =>
    let s := acc.1
    let bs := (data.drop (p.1 - (tdOvf g.desc).toNat)).take p.2
    match s.portAt h l (BitVec.ofNat 64 p.1) (chunkSize p.1 p.2) .store with
    | .error _ => acc
    | .ok t =>
      if t.isFar then
        let us := match s.answer h.port t.dev (.claim (unitsOf t.key p.2 true)) with | some (some (.claims us)) => us | _ => []
        let (u, ws) := s.farWrite h t bs false us
        (u, acc.2 ++ ws)
      else (s.performStore h { target := t, data := bs, poison := false }, acc.2)) (s, [])

/-- Puts the five results of a command into its hart's FIFO; `tag` says whose they are (R159, R340). -/
def State.pushRp (s : State) (o : Op) (tag : Nat) (vs : List Word) : State :=
  s.modHart o.core o.ctx fun h => { h with rpFifo := h.rpFifo ++ vs.map fun v => (v, false), rpOf := h.rpOf ++ vs.map fun _ => tag }
/-- The end of a hart's head tailoring command, where it can end: the overflow list, its acknowledgements (R78), then results and
post; BUSY commands end at once (R155, R159). -/
def State.tailorEnd (s : State) (o : Op) : State × Bool :=
  if !s.isHead o then (s, false) else
  match o.kind, s.hartAt o.core o.ctx with
  | .tailorBusy, some h =>
    if 27 < h.rpFifo.length then (s, false) else ((s.pushRp o 0 [0, 0, 0, 0, 3]).finish o, true)
  | .tailor disp gid epoch waits, some h =>
    match s.groups.find? fun g => g.gid == gid && g.epoch == epoch && g.op == some o.id with
    | some g =>
      let done : Bool := g.phase == 3 || (g.phase == 2 && g.out.isEmpty && g.due.isEmpty)
      let (u, ws) := match waits with
        | some l => (s, l)
        | none => if g.status = 0 ∨ g.status = 4 then s.groupOvf h o.lvl g else (s, [])
      if !done || 27 < h.rpFifo.length then (s, false)
      else if !ws.isEmpty then (u.setKind o.id (.tailor disp gid epoch (some ws)), waits.isNone)
      else
        let u := (u.dropAsks h.port).pushRp o (gid + 1) (groupResults g (s.rankIn g.mmap))
        let u := u.modGroup gid epoch g.mmap fun g => { g with phase := 3, posted := true }
        (u.finish o, true)
    | none => (s, false)
  | _, _ => (s, false)
/-- What a hart's head tailoring command can do now, and whether anything came about. -/
def State.tailorAdvance (s : State) (o : Op) : State × Bool :=
  match o.kind with
  | .tailor _ gid epoch _ =>
    let t := s.tailorStart o
    let u := match t.groups.find? fun g => g.gid == gid && g.epoch == epoch && g.op == some o.id with
      | some g => t.groupStep gid epoch g.mmap
      | none => t
    if u.groups != s.groups || u.nextOp != s.nextOp then (u, true) else u.tailorEnd o
  | _ => s.tailorEnd o
/-- Ends the BUSY commands at the head of a hart's tailoring channel (R155). -/
def State.tailorNext (s : State) (core ctx : Nat) : Nat → State
  | 0 => s
  | n + 1 =>
    match (s.chanOps core ctx .tailor).head? with
    | some o => match o.kind with
      | .tailorBusy => let (s', b) := s.tailorEnd o; if b then s'.tailorNext core ctx n else s'
      | _ => s
    | none => s

/-- The packed bytes of a descriptor. -/
def packDesc (bs : List Byte) : BitVec 1024 := BitVec.ofNat 1024 (ofBytes bs)

/-- `rprun` and `rpdisp` (R337 to R339). The push is a release at scope sys; a member bitmap on another device is asked for first, and
the hart waits for it as for a far load (R143). A translation fault of the bitmap's read is a precise trap at the push, and the bitmap may
lie in the hart's TCM slice (DESIGN CHOICE, log 96). The command's data is read when its port starts it, after the push (R338). -/
def State.tailorX (s : State) (disp : Bool) (a : BitVec 5) (h : BitVec 4) : Out :=
  let addr := s.cur.x a
  s.attempt do
    s.strictX [a]
    s.pushGate .tailor
    failIf (!s.cur.inSlice addr 128) (accessTrap 11 .load addr)
    failIf (addr.toNat % 64 != 0) (alignTrap addr)
    let u := s.drainAll true
    let d := packDesc (u.tcmBytes addr 128)
    let needs := u.spanNeeds u.cur u.cur s.cur.level [((tdMmap d).toNat, 64)]
    if !needs.isEmpty || u.asking u.cur then .ok ((u.askAll u.cur needs).holdOn .far)
    else
    let mb ← u.virtRead u.cur u.cur (fun v n => translate u u.cur s.cur.level v n .load true) 64 (tdMmap d) 64
    let m := BitVec.ofNat 512 (ofBytes (mb.map (·.1)))
    let c := s.tailorCheck disp d m
    failIf (c != 0) { code := cSTREAM, detail := BitVec.ofNat 64 (16 + c) }
    let wait ← s.sysGate 5
    if wait then .ok (u.holdOn .ack)
    else if s.chanFull s.cur .tailor then .ok (s.holdOn (.channel .tailor))
    else
      let id := s.nextOp
      let s0 := u.dropAsks u.cur
      if s0.groupBusy (tdGid d) then
        s.counting [a] (.ok (.done (((s0.start h .tailorBusy false 0).retire).tailorNext s.cur.core s.cur.ctx 17)))
      else
        let s1 := (s0.start h (.tailor disp (tdGid d) (tdEpoch d)) false 0).retire
        s.counting [a] (.ok (.done (s1.issueGroup (tdGid d) (tdEpoch d) m s.cur.world.toNat fun g =>
          { g with core := s.cur.core, ctx := s.cur.ctx, op := some id, desc := d, world := s.cur.world.toNat })))
/-- RPRUN (R339). -/
def execRprun (a : BitVec 5) (h : BitVec 4) (s : State) : Out := s.tailorX false a h
/-- RPDISP (R339). -/
def execRpdisp (a : BitVec 5) (h : BitVec 4) (s : State) : Out := s.tailorX true a h

/-- What `rpstat` reports of a group (R340): an operation that has ended and waits to post is reported in the phase in which it ended
(log 82); this member has issued it, whether or not its command has started. -/
def State.groupView (s : State) (h : Hart) (gid : Nat) : Word :=
  match (s.groups.filter fun g => g.gid == gid && g.op.isSome).getLast? with
  | none => 0
  | some g =>
    let st : Nat := if g.posted then (if h.rpOf.contains (gid + 1) then 4 else 0) else (if g.phase = 3 then g.was else g.phase) + 1
    let n := if st = 0 then (membersOf g.mmap).length else (g.inputs.filter fun i => i.1 != s.device).length + 1
    BitVec.ofNat 32 g.epoch ++ BitVec.ofNat 10 n ++ 0#19 ++ BitVec.ofNat 3 st
/-- RPSTAT (R340). -/
def execRpstat (d a : BitVec 5) (h : BitVec 4) (s : State) : Out :=
  s.attempt do
    failIf ((s.cur.x a).extractLsb' 16 48 != 0) s.cur.illegal
    s.strictX [a]
    .ok ((s.start h (.rpstat ((s.cur.x a).extractLsb' 0 16).toNat (s.xdest d)) false 0).setLdest d).retire
/-- The end of an `rpstat`. -/
def State.rpstatDone (s : State) (o : Op) : State :=
  match o.kind, s.hartAt o.core o.ctx with
  | .rpstat gid d, some h => (s.deliver o d (s.groupView h gid) false).finish o
  | _, _ => s

/-- A tailoring record arrives (R159): it lands in its buffer and its sender hears of it. -/
def State.recordArrives (s : State) (src : Nat) (q : TailorRec) : State :=
  match s.groupOf q.gid q.epoch q.mmap with
  | some g =>
    if g.phase = 3 || !g.due.contains (q.src, q.idx) then s
    else
      let pos := ((planFates (inputsOf g)).1.findSome? fun e => if e.1.rank == q.src && e.1.idx == q.idx then
        (match e.2 with | .first _ _ p | .second _ _ p => some p | .back => none) else none).getD 0
      (s.landRecord g q.src q.idx q.how q.buf pos q.data []).send src (.tlc (.outcome q.gid q.epoch q.mmap q.idx q.world))
  | none => s

/-- A tailoring control message (R155 to R160). An operation that timed out before this member has issued it leaves nothing here: this
member's own operation, issued later, waits alone (R395); one that a fault stopped is FAILED here too when this member issues it (R338). -/
def State.tailorCtl (s : State) (src : Nat) (m : TailorCtl) : State :=
  match m with
  | .exchange gid epoch mm inp w =>
    ((s.openGroup gid epoch mm w).modGroup gid epoch mm fun g =>
      if g.inputs.any fun i => i.1 == src then g else { g with inputs := g.inputs ++ [(src, inp)] }).groupStep gid epoch mm
  | .ready gid epoch mm _ => (s.modGroup gid epoch mm fun g => { g with ready := src :: g.ready }).groupStep gid epoch mm
  | .outcome gid epoch mm idx _ => s.modGroup gid epoch mm fun g => { g with out := g.out.filter (· != idx) }
  | .ended gid epoch mm st w =>
    match s.groupOf gid epoch mm with
    | some g =>
      if g.op.isNone && st == 2 then { s with groups := s.groups.filter fun g => !g.is gid epoch mm }
      else if g.phase < 2 then s.groupEnd g st else s
    | none => if st == 2 then s else
      let u := s.openGroup gid epoch mm w
      match u.groupOf gid epoch mm with | some g => u.groupEnd g st | none => u

/-- A member that leaves after the destinations are fixed (R160): what was bound for it comes back, what it had not sent never
comes. -/
def State.groupLost (s : State) (g : Group) (peer : Nat) : State :=
  let me := s.rankIn g.mmap
  let gone := (membersOf g.mmap).idxOf peer
  let bound := (planFates (inputsOf g)).1.filterMap fun e => if e.1.rank == me then (match e.2 with
    | .first k _ _ | .second k _ _ => if k = gone && (g.out.contains e.1.idx) then some e.1.idx else none
    | .back => none) else none
  let s := match s.hartAt g.core g.ctx with
    | some h => s.modWorld h.world.toNat fun w => { w with elink := w.elink + 1 }
    | none => s
  let s := s.modGroup g.gid g.epoch g.mmap fun g =>
    { g with returned := (List.range (tdNrec g.desc)).filter (fun i => g.returned.contains i || bound.contains i),
             out := g.out.filter (fun i => !bound.contains i), due := g.due.filter (fun e => e.1 != gone), status := 4,
             ready := peer :: g.ready }
  s.groupStep g.gid g.epoch g.mmap

end Sys2Proof.Machine
end

