-- ==== Sys2Proof/Machine/Holds.lean ====
section
/-! DEFINITION. What holds a hart and when it goes on (R116, R251, R325, R333), asynchronous traps at an instruction boundary
(R197, R204, R399), and the entry of a trap in progress (R196). -/
namespace Sys2Proof.Machine

/-- Whether asynchronous traps other than ALARM are enabled (R197): at machine level never, whatever mstatus.ie, since R197 names only user
and supervisor level for them (DESIGN CHOICE, log 91). -/
def Hart.asyncOn (h : Hart) : Bool :=
  match h.level with
  | .user => true
  | .supervisor => h.strap.ie
  | .machine => false
/-- PREEMPT, then TIMER (R197). -/
def Hart.lowTrap (h : Hart) : Option Trap :=
  if h.preempt && h.asyncOn then some { code := cPREEMPT } else if h.timer && h.asyncOn then some { code := cTIMER } else none
/-- The asynchronous trap that goes first at the next boundary (R197). -/
def Hart.asyncTrap (h : Hart) : Option Trap :=
  match h.alarm with
  | some src => if h.level != .machine || h.mtrap.ie then some { code := cALARM, detail := src } else h.lowTrap
  | none => h.lowTrap

/-- Whether an asynchronous trap is pending, enabled or not (R267). -/
def Hart.asyncPending (h : Hart) : Bool := h.alarm.isSome || h.preempt || h.timer

/-- Whether a hold lets an asynchronous trap be taken: the held instruction has had no effect and issues again. -/
def Hold.interruptible : Hold → Bool
  | .far | .dly _ | .trap _ | .ending => false
  | _ => true

/-- Holds whose instruction issues again when they are released; the others complete. -/
def Hold.again : Hold → Bool
  | .viq | .channel _ | .batch .. | .ack | .rekey | .regions | .far | .drain => true
  | _ => false

/-- Whether a hart has stopped for PREEMPT with nothing outstanding. -/
def State.atPreempt (s : State) (h : Hart) : Bool :=
  match h.hold with
  | some (.trap t) => t.code == cPREEMPT && s.drained h
  | _ => false
/-- The harts saved in one decision take PREEMPT together (R399). -/
def State.preemptTogether (s : State) (h : Hart) : Bool :=
  s.activeHarts.all fun g => !(g.queue == h.queue && g.num == h.num && g.preempt) || s.atPreempt g

/-- Whether a held hart can go on. An `idle` that issues while an asynchronous trap already pends goes on at once (DESIGN CHOICE, log 94):
R267 says only when one becomes pending. -/
def State.released (s : State) (h : Hart) (k : Hold) : Bool :=
  match k with
  | .wait r thr => h.waitMet r thr || (h.waitTrap r).isSome
  | .epop rp _ _ => (s.popNow h rp).isSome || h.faults.any fun f => f.chan == fifoChan rp
  | .slrecv d cuff hk => ((s.select h.core h.ctx).recvNow d cuff hk).isSome
  | .idle posts => h.posts != posts || h.asyncPending
  | .dly _ => false
  | .viq => ((s.opsOf h).filter fun o => o.kind.isVector).length < 32
  | .channel c => !s.chanFull h c
  | .launch p _ => (s.queue (pkQueue p)).slots.length < 64
  | .batch key prof cap => match (s.batcher (clusOf h.core)).gathering with
    | none => true
    | some g => g.key == key && g.prof == prof && g.ops.length < cap
  | .halt => s.drained h
  | .drain => (s.opsOf h).isEmpty
  | .ack => !h.lateAck.isEmpty || !((s.opsOf h).any fun o => o.kind.awaitsAcks)
  | .rekey => (s.worlds[h.world.toNat]).rgkey.isNone
  | .regions => !s.regionsBusy h.world.toNat
  | .far => !s.asking h
  | .ending => (s.opsOf h).isEmpty
  | .trap t => s.drained h && (t.code != cPREEMPT || s.preemptTogether h)

/-- A hart that can issue: active, and not held or released (R116). -/
def State.ready (s : State) (h : Hart) : Bool :=
  h.active && (match h.hold with | none => true | some k => s.released h k || (k.interruptible && h.asyncTrap.isSome))

/-- Whether a command of the issuing hart is a send that waits for a credit. -/
def State.creditWaits (s : State) (o : Op) : Bool :=
  o.core == s.cur.core && o.ctx == s.cur.ctx && (match o.kind with
    | .sleeve (.send _ _ _ none _) _ => true
    | .sleeve (.pass _ _ none _) _ => true
    | _ => false)
/-- Sends that still wait for a credit when PREEMPT arrives are withdrawn, youngest first, while nothing has issued after them: the pc goes
back to them, and they issue again after the restore (R153, R196). -/
def State.withdrawSends : Nat → State → State
  | 0, s => s
  | n + 1, s =>
    match s.ops.find? fun o => s.creditWaits o && o.ret + 1 == s.cur.csr.instret && o.pc + 4 == s.cur.pc with
    | none => s
    | some o => State.withdrawSends n ((s.dropOp o.id).modCur fun h => { h with pc := o.pc, csr := { h.csr with instret := o.ret } })
/-- Those after which younger instructions have issued go back to the sleeve unit, which issues them again after the restore (R153,
log 78). -/
def State.holdSends (s : State) : State :=
  { s with ops := s.ops.filter fun o => !s.creditWaits o,
           sleeves := { s.sleeves with resend := s.sleeves.resend ++ (s.ops.filter s.creditWaits).map fun o => (s.cur.identity, o) } }

/-- Takes an asynchronous trap of the issuing hart at its boundary (R197): PREEMPT waits for the other harts saved with it. -/
def State.takeAsync (s : State) (t : Trap) : State :=
  let s := s.modCur fun h => { h with hold := none }
  if t.code = cPREEMPT then (State.withdrawSends 16 s).holdSends.modCur fun h => { h with hold := some (.trap t) } else s.takeTrap t

/-- What a released hold of the issuing hart comes to without issuing again; none where the instruction issues again. -/
def State.resume (s : State) (k : Hold) : Option State :=
  let u := s.modCur fun h => { h with hold := none }
  match k with
  | .wait r _ => some (match s.cur.waitTrap r with | some t => u.takeTrap t | none => u.waitPast r)
  | .epop rp d hk => some (match s.cur.faults.find? fun f => f.chan == fifoChan rp with
    | some f => u.takeTrap f.trap
    | none => match u.popNow u.cur rp with
      | some e => u.popDone rp d hk e
      | none => s)
  | .slrecv d cuff hk => some ((u.recvNow d cuff hk).getD s)
  | .idle _ => some u.retire
  | .launch p hk => some ((u.enqueue p (pkQueue p)).postNow hk).retire
  | .halt => some (match (u.modCur Hart.landAll).haltNow with | .ok t => t | .error t => u.takeTrap t)
  | .trap t => some (s.enterTrap t)
  | .ending => some (u.endHart s.cur)
  | _ => none

/-- What comes about at the issuing hart's boundary instead of an issue: an asynchronous trap, the end of a hold, or nothing while
it holds; none where its instruction issues (again) now. A hold that completes does so before an asynchronous trap is taken. -/
def State.boundary (s : State) : Option State :=
  match s.cur.hold with
  | some k =>
    if k.interruptible && s.cur.asyncTrap.isSome && !(s.released s.cur k && !k.again) then s.cur.asyncTrap.map s.takeAsync
    else if s.released s.cur k then s.resume k else some s
  | none => s.cur.asyncTrap.map s.takeAsync

end Sys2Proof.Machine
end

