-- ==== Sys2Proof/Machine/Complete.lean ====
section
/-! DEFINITION. How operations in flight come to their end, and what goes on when nothing else is said. -/
namespace Sys2Proof.Machine

/-- Ends or advances one operation; none where it must still wait. -/
def State.completeOp (s : State) (o : Op) : Option State :=
  let when (b : Bool) (t : State) : Option State := if b then some t else none
  match o.kind with
  | .load .. | .store .. | .atomic .. | .arrived .. | .divide .. => some (s.completeLocal o)
  | .vector _ _ _ _ _ _ waits _ => when (s.viqHead o && waits.isEmpty) (s.completeLocal o)
  | .copy .. | .copied _ _ => let (t, b) := s.copyAdvance o; when b t
  | .ct w => when (s.isHead o && s.ctReady w) (s.ctDone o w)
  | .sleeve _ _ => if s.isHead o then s.completeSleeve o else none
  | .tailor .. | .tailorBusy => let (t, b) := s.tailorAdvance o; when b (t.tailorNext o.core o.ctx 17)
  | .rpstat _ _ => some (s.rpstatDone o)
  | .icinv .. => some (s.icinvDone o)
  | .ctxsave ws => some (s.ctxsaveDone o ws)
  | .ctxrst img => some (s.ctxrstDone o img)
  | .bar .. => none
  | .farStore waits _ => when waits.isEmpty (s.finish o)

/-- An operation by its number. -/
def State.opById (s : State) (id : Nat) : Option Op := s.ops.find? fun o => o.id == id

/-- The first operation of a list that can end or advance. -/
def State.completeFirst (s : State) : List Op → Option State
  | [] => none
  | o :: r => match s.completeOp o with
    | some t => some t
    | none => s.completeFirst r

/-- The first executing batch that can complete refreshes. -/
def State.batchFirst (s : State) : List Batcher → Option State
  | [] => none
  | b :: r => match s.batchDone b.clus with
    | some t => some t
    | none => s.batchFirst r

/-- A hooked fixed-latency result of a hart lands at the end of its third cycle, ahead of its slot (R404). -/
def State.landHook (s : State) (h : Hart) (p : Pend) : State :=
  (match p.dest with
    | .x l r _ _ => s.supersede h.core h.ctx l r p.seq
    | _ => s).modHart h.core h.ctx fun h => h.landEarly p
/-- The oldest hooked fixed-latency result of a hart that has not landed. -/
def Hart.nextHooked (h : Hart) : Option Pend := h.pend.find? fun p => p.hook != 0 && !p.done
def State.landFirst (s : State) : List Hart → Option State
  | [] => none
  | h :: r => match h.nextHooked with
    | some p => some (s.landHook h p)
    | none => s.landFirst r

/-- The end of a world's rekey or TLB invalidation (R168, R177). -/
def State.worldFirst (s : State) : Option State :=
  (List.range 64).findSome? fun w =>
    let x := s.worlds.getD w .reset
    if x.rgkey.isSome && !s.rekeyWaits w then some (s.rekeyDone w)
    else if x.tlbinv.isSome then some (s.tlbDone (BitVec.ofNat 6 w)) else none
/-- Progress where nothing is said: the oldest operation that can end, a batch, a gathering batch's window, a hooked result, the end
of a rekey or an invalidation, a done increment that has waited. -/
def State.progress (s : State) : Option State :=
  s.completeFirst s.ops <|> s.batchFirst s.batchers <|>
  ((s.batchers.find? fun b => b.gathering.isSome && b.executing.isNone).map fun b => s.closeBatch b.clus) <|> s.landFirst s.harts <|> s.worldFirst <|> s.doneFirst

/-- Whether `dly` holds a hart (R117). -/
def Hart.delaying (h : Hart) : Bool := match h.hold with | some (.dly _) => true | _ => false
/-- The cores for which a cycle counts: those with a ready hart, or one that `dly` holds. -/
def State.readyCores (s : State) : List Nat := ((s.harts.filter fun h => s.ready h || h.delaying).map (·.core)).dedup

end Sys2Proof.Machine
end

