-- ==== Sys2Proof/Machine/Deliver.lean ====
section
/-! DEFINITION. Messages handed on to this device: far writes, reads, atomics and claims at their home (R143, R144, R170, R176,
R178), the responses to its own requests, and the control messages of sleeves, tailoring and barriers (R142). -/
namespace Sys2Proof.Machine

/-- The home's check of a far request against its granule table and the requester's regions (R170, R178): the refusing cause, 0
for none. -/
def State.homeCheck (s : State) (tag : FarTag) (pa : Nat) : Nat :=
  let g := s.mem.granule pa
  if !isLocalRam pa then 3
  else if ((gOwner g).toNat != tag.world && !gShared g) || (gOwner g).toNat != tag.lworld then 3
  else if gMode g != tag.enc then 4
  else if tag.enc = 2 && (regionOf s (BitVec.ofNat 6 tag.world) pa).isNone then 4
  else 0
/-- The place of a far request at this home. -/
def State.homeTarget (s : State) (tag : FarTag) (pa : Nat) : Target :=
  let r := if tag.enc = 2 then regionOf s (BitVec.ofNat 6 tag.world) pa else none
  { home := .stack 0, key := pa, lworld := tag.lworld, enc := tag.enc,
    nonce := (match r with | some x => x.nonce | none => 0), gen := (match r with | some x => x.gen | none => 0) }

/-- The units of answered claims whose data has now moved leave the record (R178). -/
def State.moved (s : State) (src addr len : Nat) (wr : Bool) : State :=
  s.modPeer src fun p => { p with moving := p.moving.filter fun m => !(m.2.2 == wr && overlap addr len m.2.1 4) }
/-- Sends the acknowledgement of a device's writes that is due (R142, R143). -/
def State.sendWack (s : State) (src : Nat) : State :=
  match (s.peer src).ack with
  | some a => (s.modPeer src fun p => { p with ack := none }).send src (.wack a)
  | none => s
/-- A write of a device is to be acknowledged: with the consecutive write before it, where that one's acknowledgement has not left and
says the same; else that one leaves first (R142, R398). -/
def State.noteWack (s : State) (src : Nat) (a : WackMsg) : State :=
  match (s.peer src).ack with
  | some b =>
    if (b.seq + 1) % 2 ^ 32 = a.seq && b.refused = a.refused && b.world = a.world then
      s.modPeer src fun p => { p with ack := some { a with count := b.count + a.count } }
    else (s.sendWack src).modPeer src fun p => { p with ack := some a }
  | none => s.modPeer src fun p => { p with ack := some a }
/-- WR: performed at the home when it is handed on, then acknowledged (R143). A refused write is counted, and the acknowledgement
brings the refusal (R170, log 36); a write to erased data is dropped and counted (R188). Words that it replaces may still be fetched
(R216). -/
def State.homeWrite (s : State) (src : Nat) (q : WrReq) : State :=
  let ack (s : State) (c : Nat) : State :=
    (s.moved src q.addr q.data.length true).noteWack src { seq := q.seq, count := 1, refused := c, world := q.tag.world }
  let c := s.homeCheck q.tag q.addr
  if c != 0 then ack (s.violation q.tag.world) c
  else if (s.homeTarget q.tag q.addr).erased s (BitVec.ofNat 6 q.tag.world) then ack (s.violation q.tag.world) 0
  else
    let u : State := { s with mem := (s.mem.writeClean q.addr q.data).setMeas q.addr false }
    ack (s.keepWords u (BitVec.ofNat 6 q.tag.world) (s.homeTarget q.tag q.addr) q.data.length) 0

/-- RD: answered by RDR; a poisoned word gets no response (R143, R212). -/
def State.homeRead (s : State) (src : Nat) (q : RdReq) : State :=
  let c := s.homeCheck q.tag q.addr
  let s := s.moved src q.addr q.len false
  if c != 0 then (s.violation q.tag.world).send src (.rdr { rid := q.rid, res := .world c, world := q.tag.world })
  else if s.mem.anyPoison q.addr q.len || (s.homeTarget q.tag q.addr).erased s (BitVec.ofNat 6 q.tag.world) then s
  else s.send src (.rdr { rid := q.rid, res := .data (s.mem.readBytes q.addr q.len), world := q.tag.world })

/-- The result of an atomic at its home; none where a poisoned word gives no response (R144, R176, R212). -/
def State.homeAtomic (s : State) (q : AmoReq) : Option (State × AmoResult) :=
  let c := s.homeCheck q.tag q.addr
  let w := BitVec.ofNat 6 q.tag.world
  let t := s.homeTarget q.tag q.addr
  if c != 0 then some (s.violation q.tag.world, .world c)
  else if s.mem.anyPoison q.addr 8 || t.erased s w then none
  else match claimTarget s t 8 with
  | .error _ => some (s, .keystream)
  | .ok s =>
    let old : Word := if q.tag.enc = 2 then 0 else BitVec.ofNat 64 (ofBytes (readTarget s w t 8).1)
    match amoNew q.op old q.arg q.cmp with
    | some v => some (s.keepWords (writeTarget s w t (toBytes 8 v.toNat) false) w t 8, .old old)
    | none => some (s, .old old)
/-- Whether an atomic's id is older than every one that a full replay cache holds (R87). -/
def Peer.forgotten (p : Peer) (rid : BitVec 16) : Bool := 64 ≤ p.cache.length && p.cache.all fun e => (rid - e.1).msb
/-- AMO: performed, answered from the cache, or answered REPLAY-UNKNOWN (R87, R144). -/
def State.homeAmo (s : State) (src : Nat) (q : AmoReq) : State :=
  let p := s.peer src
  let reply (s : State) (r : AmoResult) : State := s.send src (.amor { rid := q.rid, res := r, world := q.tag.world })
  if (q.rid - p.base).msb || p.forgotten q.rid then reply s .unknown
  else match p.cache.find? fun e => e.1 == q.rid with
  | some e => reply s e.2
  | none =>
    match s.homeAtomic q with
    | none => s
    | some (s, r) => reply (s.modPeer src fun p => { p with cache := ((q.rid, r) :: p.cache).take 64 }) r

/-- CLM: the units that the request names, element by element in rising order. The units of an element are claimed together; from the
first element that is refused or finds a unit set, nothing more is claimed (R176, R178). A refusal counts one violation (R170). -/
def State.homeClaims (s : State) (q : ClmReq) : State × List (UnitResult × Word × Half) :=
  let g := max 1 q.group
  let bad (u : Nat × Bool) : Bool := s.homeCheck q.tag u.1 != 0 || (u.2 && s.mem.unitWritten u.1)
  let stop := match q.units.findIdx? bad with | some i => i / g * g | none => q.units.length
  let res := q.units.zipIdx.map fun (u, i) =>
    let c := s.homeCheck q.tag u.1
    let t := s.homeTarget q.tag u.1
    if c != 0 then (UnitResult.refused c, 0, 0)
    else (if u.2 && i < stop then .claimed else if s.mem.unitWritten u.1 then .set else .clear, t.nonce, t.gen)
  let m := ((q.units.take stop).filter (·.2)).foldl (fun (m : Memory) u => m.claim u.1) s.mem
  let s := if q.units.any fun u => s.homeCheck q.tag u.1 != 0 then s.violation q.tag.world else s
  ({ s with mem := m }, res)
/-- The units of a claim's answer whose data the requester will move (R178): those claimed, and those looked up; a request with a
refused unit moves no looked-up data. -/
def movingUnits (q : ClmReq) (res : List (UnitResult × Word × Half)) : List (Nat × Bool) :=
  (q.units.zip res).filterMap fun (u, r) => match r.1 with
    | .claimed => some (u.1, true)
    | .set | .clear => if u.2 || res.any (fun x => match x.1 with | .refused _ => true | _ => false) then none else some (u.1, false)
    | .refused _ => none
/-- A claim is answered, and an element region waits for the data before it is rekeyed or dropped (R178). -/
def State.homeClaim (s : State) (src : Nat) (q : ClmReq) : State :=
  let (s, us) := s.homeClaims q
  let l := (movingUnits q us).map fun u => (s.nextOp, u.1, u.2)
  let s := { s with nextOp := s.nextOp + 1 }.modPeer src fun p => { p with moving := p.moving ++ l }
  s.send src (.clmr { rid := q.rid, units := us, world := q.tag.world })

/-- Takes up the answer to a request of this device, once; a dispatcher needs none. -/
def State.takeAnswer (s : State) (dev : Nat) (is : FarReq → Bool) (a : FarAnswer) : State :=
  let mine (r : FarReq) : Bool := r.dev == dev && r.answer.isNone && is r
  { s with farReqs := (s.farReqs.filter fun r => !(r.core == 768 && mine r)).map fun r => if mine r then { r with answer := some a } else r }
def FarReq.isRead (r : FarReq) : Bool := match r.ask with | .read _ _ => true | _ => false
def FarReq.isClaim (r : FarReq) : Bool := match r.ask with | .claim _ => true | _ => false
def FarReq.isAmo (r : FarReq) : Bool := match r.ask with | .amo _ _ => true | _ => false

/-- What an atomic's response says to its requester (R87, R144). -/
def amoAnswer : AmoResult → FarAnswer
  | .old v => .old v
  | .unknown => .fail 13 cACCESS
  | .world c => .fail (BitVec.ofNat 8 c) cWORLD
  | .keystream => .fail 0 cKEYSTREAM

/-- Takes acknowledged writes off an operation's list. -/
def OpKind.acked (done : Nat × Nat → Bool) : OpKind → OpKind
  | .farStore ws va => .farStore (ws.filter fun w => !done w) va
  | .copied ws r => .copied (ws.filter fun w => !done w) r
  | .copy c r => .copy c { r with waits := r.waits.filter fun w => !done w }
  | .tailor d g e ws => .tailor d g e (ws.map fun l => l.filter fun w => !done w)
  | .vector f x w ov om mt ws m => .vector f x w ov om mt (ws.filter fun w => !done w) m
  | k => k
/-- Ends the operations whose far writes have all been acknowledged. -/
def State.settleAcks (s : State) : State :=
  s.ops.foldl (fun s o => match o.kind with
    | .farStore [] _ | .copied [] _ => (s.completeOp o).getD s
    | _ => s) s
/-- The acknowledgements that an operation waits for. -/
def OpKind.waiting : OpKind → List (Nat × Nat)
  | .farStore ws _ => ws
  | .copied ws _ => ws
  | .copy _ r => r.waits
  | .vector _ _ _ _ _ _ ws _ => ws
  | .tailor _ _ _ ws => ws.getD []
  | _ => []
/-- Writes of an operation that were refused, or whose acknowledgement timed out, are reported late (R147, R170): what it waits for of
them is over, its hook is not posted. -/
def State.ackFails (s : State) (o : Op) (done : Nat × Nat → Bool) (t : Trap) : State :=
  let s := { s with ops := s.ops.map fun (p : Op) => if p.id == o.id then { p with hook := 0, kind := p.kind.acked done } else p }
  s.modHart o.core o.ctx fun h => { h with lateAck := h.lateAck ++ [{ lvl := o.lvl, hook := o.hook, trap := t }] }
/-- WACK: the writes it covers are acknowledged (R142, R143); a refusal is reported as an acknowledgement that times out is (R170, log
36). -/
def State.ackWrites (s : State) (src : Nat) (q : WackMsg) : State :=
  let done (w : Nat × Nat) : Bool := w.1 == src && (q.seq + 2 ^ 32 - w.2) % 2 ^ 32 < q.count
  let s := s.modPeer src fun p => { p with writes := p.writes.filter fun u => !done (src, u.1) }
  let s := if q.refused = 0 then s else
    (s.ops.filter fun o => o.kind.waiting.any done).foldl (fun s o => s.ackFails o done (failTrap cWORLD (BitVec.ofNat 8 q.refused) .store o.va)) s
  ({ s with ops := s.ops.map fun (o : Op) => ({ o with kind := o.kind.acked done } : Op) } : State).settleAcks

/-- A barrier message: an arrival, which waits where the coordinator's unit has no room for it, or the close of an episode (R326). -/
def State.barMsg (s : State) (src : Nat) (m : BarMsg) : State :=
  match m with
  | .arrive .. => (s.modPeer src fun p => { p with bars := p.bars ++ [m] }).barProgress
  | .close _ op => (s.barClosed op).barProgress

/-- Drops acknowledged packets (R139). -/
def State.ackPackets (s : State) (src seq : Nat) : State :=
  let open' (n : Nat) : Bool := (seq + 2 ^ 32 - n) % 2 ^ 32 ≥ 2 ^ 31
  s.modPeer src fun p => { p with unacked := p.unacked.filter fun u => open' u.1, via := p.via.filter fun u => open' u.1 }
/-- Resends every unacknowledged packet from a sequence number on, each with a fresh ctr (R139, R141). -/
def State.resendFrom (s : State) (dst seq : Nat) : State :=
  ((s.peer dst).unacked.filter fun u => (u.1 + 2 ^ 32 - seq) % 2 ^ 32 < 2 ^ 31).foldl (fun s u => s.transmit dst u.1 true u.2) s

/-- Handles a message of another device, or one of the device to itself; none where it must wait. NAK(n) and NAK-CTX(n) are taken to
acknowledge what lies below n too, since the receiver's next is n (log 76). -/
def State.handle (s : State) (src : Nat) (m : Msg) : Option State :=
  match m with
  | .wr q => some (s.homeWrite src q)
  | .rd q => some (s.homeRead src q)
  | .rdr q => some (s.takeAnswer src (fun r => r.isRead && r.rid == q.rid) (match q.res with
      | .data bs => .data bs
      | .world c => .fail (BitVec.ofNat 8 c) cWORLD))
  | .amo q => some (s.homeAmo src q)
  | .amor q => some (s.takeAnswer src (fun r => r.isAmo && r.rid == q.rid.toNat) (amoAnswer q.res))
  | .wack q => some (s.ackWrites src q)
  | .sli q => some (s.itemArrives src q)
  | .slc q => some (s.sleeveCtl src q)
  | .tlr q => some (s.recordArrives src q)
  | .tlc q => some (s.tailorCtl src q)
  | .bar q => some (s.barMsg src q)
  | .clm q => some (s.homeClaim src q)
  | .clmr q => some (s.takeAnswer src (fun r => r.isClaim && r.rid == q.rid) (.claims q.units))
  | .ack n => some (s.ackPackets src n)
  | .nak n | .nakCtx n => some ((s.ackPackets src ((n + 2 ^ 32 - 1) % 2 ^ 32)).resendFrom src n)
  | .plane _ => some s

end Sys2Proof.Machine
end

