-- ==== Sys2Proof/Machine/Scalar.lean ====
section
/-! DEFINITION. Integer register and immediate forms (R41, R244 to R246). -/
namespace Sys2Proof.Machine

/-- A latency-1 scalar result: the shape of the integer instructions (R243, R244). -/
def State.alu (s : State) (srcs : List (BitVec 5)) (d : BitVec 5) (v : Word) : Out :=
  s.attempt do
    s.strictX srcs
    .ok ((s.writeX d v (s.anyPX srcs)).setLdest d).retire

/-- A scalar result at latency 2 or more, with the flags that land with it (R243). -/
def State.aluLate (s : State) (lat : Nat) (srcs : List (BitVec 5)) (d : BitVec 5) (v : Word) (f : Flags) : Out :=
  s.attempt do
    s.strictX srcs
    .ok (((s.laterX lat d v (s.anyPX srcs)).laterFlags lat f).setLdest d).retire

/-- A hooked scalar result that lands when the operation completes (R245, R261). -/
def State.divStart (s : State) (fp : Bool) (srcs : List (BitVec 5)) (d : BitVec 5) (h : BitVec 4) (v : Word) (f : Flags) : Out :=
  s.attempt do
    s.strictX srcs
    .ok ((s.start h (.divide fp v f (s.anyPX srcs) (s.xdest d)) false 0).setLdest d).retire

def ofBoolW (b : Bool) : Word := if b then 1 else 0
def mulHigh (a b : Word) : Word := BitVec.ofInt 64 (a.toInt * b.toInt / 2 ^ 64)
def mulHighU (a b : Word) : Word := BitVec.ofNat 64 (a.toNat * b.toNat / 2 ^ 64)
/-- Signed quotient (R41). -/
def divS (a b : Word) : Word :=
  if b = 0 then -1 else if a.toInt = -(2 ^ 63) ∧ b.toInt = -1 then a else BitVec.ofInt 64 (a.toInt.tdiv b.toInt)
def remS (a b : Word) : Word :=
  if b = 0 then a else if a.toInt = -(2 ^ 63) ∧ b.toInt = -1 then 0 else BitVec.ofInt 64 (a.toInt.tmod b.toInt)
def divU (a b : Word) : Word := if b = 0 then -1 else BitVec.ofNat 64 (a.toNat / b.toNat)
def remU (a b : Word) : Word := if b = 0 then a else BitVec.ofNat 64 (a.toNat % b.toNat)

/-- The shift amount X[B][5:0]. -/
def shiftBy (b : Word) : Nat := (b.extractLsb' 0 6).toNat

/-- ADD (R244). -/
def execAdd (d a b : BitVec 5) (s : State) : Out := s.alu [a, b] d (s.cur.x a + s.cur.x b)
/-- SUB (R244). -/
def execSub (d a b : BitVec 5) (s : State) : Out := s.alu [a, b] d (s.cur.x a - s.cur.x b)
/-- AND (R244). -/
def execAnd (d a b : BitVec 5) (s : State) : Out := s.alu [a, b] d (s.cur.x a &&& s.cur.x b)
/-- OR (R244). -/
def execOr (d a b : BitVec 5) (s : State) : Out := s.alu [a, b] d (s.cur.x a ||| s.cur.x b)
/-- XOR (R244). -/
def execXor (d a b : BitVec 5) (s : State) : Out := s.alu [a, b] d (s.cur.x a ^^^ s.cur.x b)
/-- SHL (R244). -/
def execShl (d a b : BitVec 5) (s : State) : Out := s.alu [a, b] d (s.cur.x a <<< shiftBy (s.cur.x b))
/-- SHR (R244). -/
def execShr (d a b : BitVec 5) (s : State) : Out := s.alu [a, b] d (s.cur.x a >>> shiftBy (s.cur.x b))
/-- SRA (R244). -/
def execSra (d a b : BitVec 5) (s : State) : Out := s.alu [a, b] d ((s.cur.x a).sshiftRight (shiftBy (s.cur.x b)))
/-- SLT (R244). -/
def execSlt (d a b : BitVec 5) (s : State) : Out := s.alu [a, b] d (ofBoolW ((s.cur.x a).slt (s.cur.x b)))
/-- SLTU (R244). -/
def execSltu (d a b : BitVec 5) (s : State) : Out := s.alu [a, b] d (ofBoolW ((s.cur.x a).ult (s.cur.x b)))
/-- MIN (R244). -/
def execMin (d a b : BitVec 5) (s : State) : Out :=
  s.alu [a, b] d (if (s.cur.x a).slt (s.cur.x b) then s.cur.x a else s.cur.x b)
/-- MAX (R244). -/
def execMax (d a b : BitVec 5) (s : State) : Out :=
  s.alu [a, b] d (if (s.cur.x a).slt (s.cur.x b) then s.cur.x b else s.cur.x a)
/-- MINU (R244). -/
def execMinu (d a b : BitVec 5) (s : State) : Out :=
  s.alu [a, b] d (if (s.cur.x a).ult (s.cur.x b) then s.cur.x a else s.cur.x b)
/-- MAXU (R244). -/
def execMaxu (d a b : BitVec 5) (s : State) : Out :=
  s.alu [a, b] d (if (s.cur.x a).ult (s.cur.x b) then s.cur.x b else s.cur.x a)
/-- MUL (R244), latency 3 (R243). -/
def execMul (d a b : BitVec 5) (s : State) : Out := s.aluLate 3 [a, b] d (s.cur.x a * s.cur.x b) 0
/-- MULH (R244). -/
def execMulh (d a b : BitVec 5) (s : State) : Out := s.aluLate 3 [a, b] d (mulHigh (s.cur.x a) (s.cur.x b)) 0
/-- MULHU (R244). -/
def execMulhu (d a b : BitVec 5) (s : State) : Out := s.aluLate 3 [a, b] d (mulHighU (s.cur.x a) (s.cur.x b)) 0
/-- DIV (R41, R245). -/
def execDiv (d a b : BitVec 5) (h : BitVec 4) (s : State) : Out := s.divStart false [a, b] d h (divS (s.cur.x a) (s.cur.x b)) 0
/-- DIVU (R41, R245). -/
def execDivu (d a b : BitVec 5) (h : BitVec 4) (s : State) : Out := s.divStart false [a, b] d h (divU (s.cur.x a) (s.cur.x b)) 0
/-- REM (R41, R245). -/
def execRem (d a b : BitVec 5) (h : BitVec 4) (s : State) : Out := s.divStart false [a, b] d h (remS (s.cur.x a) (s.cur.x b)) 0
/-- REMU (R41, R245). -/
def execRemu (d a b : BitVec 5) (h : BitVec 4) (s : State) : Out := s.divStart false [a, b] d h (remU (s.cur.x a) (s.cur.x b)) 0
/-- CLZ (R244). -/
def execClz (d a : BitVec 5) (s : State) : Out := s.alu [a] d (BitVec.ofNat 64 (leadingZeros 64 (s.cur.x a).toNat))
/-- CTZ (R244). -/
def execCtz (d a : BitVec 5) (s : State) : Out := s.alu [a] d (BitVec.ofNat 64 (trailingZeros 64 0 (s.cur.x a).toNat))
/-- POPC (R244). -/
def execPopc (d a : BitVec 5) (s : State) : Out := s.alu [a] d (BitVec.ofNat 64 (popCount 64 (s.cur.x a).toNat))
/-- BSWAP (R244). -/
def execBswap (d a : BitVec 5) (s : State) : Out := s.alu [a] d (byteSwap (s.cur.x a))

/-- ADDI (R246). -/
def execAddi (d a : BitVec 5) (imm : BitVec 16) (s : State) : Out := s.alu [a] d (s.cur.x a + imm16s imm)
/-- ANDI (R246). -/
def execAndi (d a : BitVec 5) (imm : BitVec 16) (s : State) : Out := s.alu [a] d (s.cur.x a &&& imm16s imm)
/-- ORI (R246). -/
def execOri (d a : BitVec 5) (imm : BitVec 16) (s : State) : Out := s.alu [a] d (s.cur.x a ||| imm16z imm)
/-- XORI (R246). -/
def execXori (d a : BitVec 5) (imm : BitVec 16) (s : State) : Out := s.alu [a] d (s.cur.x a ^^^ imm16z imm)
/-- SHLI (R246). -/
def execShli (d a : BitVec 5) (n : BitVec 6) (s : State) : Out := s.alu [a] d (s.cur.x a <<< n.toNat)
/-- SHRI (R246). -/
def execShri (d a : BitVec 5) (n : BitVec 6) (s : State) : Out := s.alu [a] d (s.cur.x a >>> n.toNat)
/-- SRAI (R246). -/
def execSrai (d a : BitVec 5) (n : BitVec 6) (s : State) : Out := s.alu [a] d ((s.cur.x a).sshiftRight n.toNat)
/-- SLTI (R246). -/
def execSlti (d a : BitVec 5) (imm : BitVec 16) (s : State) : Out := s.alu [a] d (ofBoolW ((s.cur.x a).slt (imm16s imm)))
/-- SLTIU (R246). -/
def execSltiu (d a : BitVec 5) (imm : BitVec 16) (s : State) : Out := s.alu [a] d (ofBoolW ((s.cur.x a).ult (imm16s imm)))
/-- LHI (R246). -/
def execLhi (d : BitVec 5) (imm : BitVec 16) (s : State) : Out := s.alu [] d (imm16h imm)
/-- LPC (R221, R246). -/
def execLpc (d : BitVec 5) (imm : BitVec 16) (s : State) : Out := s.alu [] d (s.cur.wordPc + imm16h imm)

end Sys2Proof.Machine
end

