-- ==== Sys2Proof/Machine/ScalarFp.lean ====
section
/-! DEFINITION. Scalar floating point (R260, R261; R42 to R53). -/
namespace Sys2Proof.Machine

/-- The format that a fmt field names (R260). -/
def fmtOf (f : BitVec 2) : Fmt :=
  match f.toNat with
  | 0 => fmtD
  | 1 => fmtS
  | 2 => fmtH
  | _ => fmtB
/-- A scalar operand: the low bits of the register (R44). -/
def Hart.fp (h : Hart) (f : Fmt) (r : BitVec 5) : Fp := f.read ((h.x r).toNat % 2 ^ f.width)

/-- An instruction that rounds: ILLEGAL where fcsr.rm is not a scalar mode (R46, R261). -/
def State.fpRound (s : State) (srcs : List (BitVec 5)) (d : BitVec 5) (r : Nat × Flags) : Out :=
  if s.cur.rmBad then s.attempt (.error s.cur.illegal) else s.aluLate 4 srcs d (BitVec.ofNat 64 r.1) r.2
def State.fpExact (s : State) (lat : Nat) (srcs : List (BitVec 5)) (d : BitVec 5) (r : Nat × Flags) : Out :=
  s.aluLate lat srcs d (BitVec.ofNat 64 r.1) r.2
def State.fpLong (s : State) (srcs : List (BitVec 5)) (d : BitVec 5) (h : BitVec 4) (r : Nat × Flags) : Out :=
  if s.cur.rmBad then s.attempt (.error s.cur.illegal) else s.divStart true srcs d h (BitVec.ofNat 64 r.1) r.2

/-- The negation that turns a subtraction into an addition; a NaN stays. -/
def Fmt.sub (f : Fmt) (rm : Rm) (fo : Bool) (a b : Fp) : Nat × Flags := f.add rm fo a b.negate

/-- FADD (R260). -/
def execFadd (d a b : BitVec 5) (fmt : BitVec 2) (s : State) : Out :=
  let f := fmtOf fmt
  s.fpRound [a, b] d (f.add s.cur.rm false (s.cur.fp f a) (s.cur.fp f b))
/-- FSUB (R260). -/
def execFsub (d a b : BitVec 5) (fmt : BitVec 2) (s : State) : Out :=
  let f := fmtOf fmt
  s.fpRound [a, b] d (f.sub s.cur.rm false (s.cur.fp f a) (s.cur.fp f b))
/-- FMUL (R260). -/
def execFmul (d a b : BitVec 5) (fmt : BitVec 2) (s : State) : Out :=
  let f := fmtOf fmt
  s.fpRound [a, b] d (f.mul s.cur.rm false (s.cur.fp f a) (s.cur.fp f b))
/-- FMA (R260): X[D] + X[A]·X[B], one rounding. -/
def execFma (d a b : BitVec 5) (fmt : BitVec 2) (s : State) : Out :=
  let f := fmtOf fmt
  s.fpRound [d, a, b] d (f.fma s.cur.rm false (s.cur.fp f d) (s.cur.fp f a) (s.cur.fp f b))
/-- FDIV (R260, R261). -/
def execFdiv (d a b : BitVec 5) (h : BitVec 4) (fmt : BitVec 2) (s : State) : Out :=
  let f := fmtOf fmt
  s.fpLong [a, b] d h (f.div s.cur.rm false (s.cur.fp f a) (s.cur.fp f b))
/-- FSQRT (R260). -/
def execFsqrt (d a : BitVec 5) (h : BitVec 4) (fmt : BitVec 2) (s : State) : Out :=
  let f := fmtOf fmt
  s.fpLong [a] d h (f.sqrt s.cur.rm false (s.cur.fp f a))
/-- FMIN (R53). -/
def execFmin (d a b : BitVec 5) (fmt : BitVec 2) (s : State) : Out :=
  let f := fmtOf fmt
  s.fpExact 2 [a, b] d (f.minmax false false ((s.cur.x a).toNat % 2 ^ f.width) ((s.cur.x b).toNat % 2 ^ f.width))
/-- FMAX (R53). -/
def execFmax (d a b : BitVec 5) (fmt : BitVec 2) (s : State) : Out :=
  let f := fmtOf fmt
  s.fpExact 2 [a, b] d (f.minmax true false ((s.cur.x a).toNat % 2 ^ f.width) ((s.cur.x b).toNat % 2 ^ f.width))

/-- A comparison (R53, R260). -/
def State.fpCmp (s : State) (c : Cond) (d a b : BitVec 5) (fmt : BitVec 2) : Out :=
  let f := fmtOf fmt
  let (r, fl) := c.holds (s.cur.fp f a) (s.cur.fp f b)
  s.fpExact 2 [a, b] d (r.toNat, fl)
/-- FCMP_EQ (R260). -/
def execFcmpEq (d a b : BitVec 5) (fmt : BitVec 2) (s : State) : Out := s.fpCmp .eq d a b fmt
/-- FCMP_NE (R260). -/
def execFcmpNe (d a b : BitVec 5) (fmt : BitVec 2) (s : State) : Out := s.fpCmp .ne d a b fmt
/-- FCMP_LT (R260). -/
def execFcmpLt (d a b : BitVec 5) (fmt : BitVec 2) (s : State) : Out := s.fpCmp .lt d a b fmt
/-- FCMP_LE (R260). -/
def execFcmpLe (d a b : BitVec 5) (fmt : BitVec 2) (s : State) : Out := s.fpCmp .le d a b fmt
/-- FCMP_GT (R260). -/
def execFcmpGt (d a b : BitVec 5) (fmt : BitVec 2) (s : State) : Out := s.fpCmp .gt d a b fmt
/-- FCMP_GE (R260). -/
def execFcmpGe (d a b : BitVec 5) (fmt : BitVec 2) (s : State) : Out := s.fpCmp .ge d a b fmt
/-- FCLASS (R261). -/
def execFclass (d a : BitVec 5) (fmt : BitVec 2) (s : State) : Out :=
  let f := fmtOf fmt
  s.fpExact 2 [a] d (f.classify ((s.cur.x a).toNat % 2 ^ f.width), 0)

/-- Whether every value of the source of `fcvt` is a value of the destination (R46): a source code of R260. -/
def cvtExact (g : BitVec 2) (src : Nat) : Bool :=
  match g.toNat, src with
  | 0, 1 | 0, 2 | 0, 3 | 0, 4 | 1, 2 | 1, 3 => true
  | _, _ => false

/-- FCVT (R52, R260): to fmt from the source that the code names. -/
def execFcvt (d a code : BitVec 5) (fmt : BitVec 2) (s : State) : Out :=
  let g := fmtOf fmt
  let v := (s.cur.x a).toNat
  let rm := s.cur.rm
  let r : Nat × Flags :=
    if code = 4 then g.ofInt rm false (sextInt 32 v)
    else if code = 5 then g.ofInt rm false (sextInt 64 v)
    else let f := fmtOf (code.setWidth 2); g.convert rm false (f.read (v % 2 ^ f.width))
  if cvtExact fmt code.toNat then s.fpExact 4 [a] d r else s.fpRound [a] d r

/-- FCVT_INT (R52, R260): to i32 (code 4, sign-extended) or i64 (code 5). -/
def execFcvtInt (d a code : BitVec 5) (fmt : BitVec 2) (s : State) : Out :=
  let f := fmtOf fmt
  let w := if code = 4 then 32 else 64
  let (v, fl) := (s.cur.fp f a).toInt s.cur.rm w
  s.fpRound [a] d ((sextWord w (BitVec.ofNat 64 v)).toNat, fl)

end Sys2Proof.Machine
end

