-- ==== Sys2Proof/Machine/Compact.lean ====
section
/-! DEFINITION. The compact operations (R234 to R238): each has the effect of its expansion with X[L] as first source. -/
namespace Sys2Proof.Machine

/-- The implicit source's register of the issuing hart (R234). -/
def State.imp (s : State) : BitVec 5 := s.cur.implicit
/-- The value of the implicit source. -/
def State.xL (s : State) : Word := s.cur.x s.imp

/-- C_NOP (R237): takes its issue slot and has no other effect. -/
def execCNop (_a _b : BitVec 5) (s : State) : Out := .next s.retire
/-- C_ADD (R237). -/
def execCAdd (a b : BitVec 5) (s : State) : Out := s.alu [s.imp, b] a (s.xL + s.cur.x b)
/-- C_SUB (R237). -/
def execCSub (a b : BitVec 5) (s : State) : Out := s.alu [s.imp, b] a (s.xL - s.cur.x b)
/-- C_AND (R237). -/
def execCAnd (a b : BitVec 5) (s : State) : Out := s.alu [s.imp, b] a (s.xL &&& s.cur.x b)
/-- C_OR (R237). -/
def execCOr (a b : BitVec 5) (s : State) : Out := s.alu [s.imp, b] a (s.xL ||| s.cur.x b)
/-- C_XOR (R237). -/
def execCXor (a b : BitVec 5) (s : State) : Out := s.alu [s.imp, b] a (s.xL ^^^ s.cur.x b)
/-- C_SHL (R237). -/
def execCShl (a b : BitVec 5) (s : State) : Out := s.alu [s.imp, b] a (s.xL <<< shiftBy (s.cur.x b))
/-- C_SHR (R237). -/
def execCShr (a b : BitVec 5) (s : State) : Out := s.alu [s.imp, b] a (s.xL >>> shiftBy (s.cur.x b))
/-- C_SRA (R237). -/
def execCSra (a b : BitVec 5) (s : State) : Out := s.alu [s.imp, b] a (s.xL.sshiftRight (shiftBy (s.cur.x b)))
/-- C_SLT (R237). -/
def execCSlt (a b : BitVec 5) (s : State) : Out := s.alu [s.imp, b] a (ofBoolW (s.xL.slt (s.cur.x b)))
/-- C_SLTU (R237). -/
def execCSltu (a b : BitVec 5) (s : State) : Out := s.alu [s.imp, b] a (ofBoolW (s.xL.ult (s.cur.x b)))
/-- C_MIN (R237). -/
def execCMin (a b : BitVec 5) (s : State) : Out := s.alu [s.imp, b] a (if s.xL.slt (s.cur.x b) then s.xL else s.cur.x b)
/-- C_MAX (R237). -/
def execCMax (a b : BitVec 5) (s : State) : Out := s.alu [s.imp, b] a (if s.xL.slt (s.cur.x b) then s.cur.x b else s.xL)
/-- C_MINU (R237). -/
def execCMinu (a b : BitVec 5) (s : State) : Out := s.alu [s.imp, b] a (if s.xL.ult (s.cur.x b) then s.xL else s.cur.x b)
/-- C_MAXU (R237). -/
def execCMaxu (a b : BitVec 5) (s : State) : Out := s.alu [s.imp, b] a (if s.xL.ult (s.cur.x b) then s.cur.x b else s.xL)
/-- C_MUL (R237). -/
def execCMul (a b : BitVec 5) (s : State) : Out := s.aluLate 3 [s.imp, b] a (s.xL * s.cur.x b) 0
/-- C_ADDI (R237). -/
def execCAddi (a b : BitVec 5) (s : State) : Out := s.alu [s.imp] a (s.xL + simm5 b)
/-- C_ANDI (R237). -/
def execCAndi (a b : BitVec 5) (s : State) : Out := s.alu [s.imp] a (s.xL &&& simm5 b)
/-- C_SHLI (R237). -/
def execCShli (a b : BitVec 5) (s : State) : Out := s.alu [s.imp] a (s.xL <<< b.toNat)
/-- C_SHRI (R237). -/
def execCShri (a b : BitVec 5) (s : State) : Out := s.alu [s.imp] a (s.xL >>> b.toNat)
/-- C_SRAI (R237). -/
def execCSrai (a b : BitVec 5) (s : State) : Out := s.alu [s.imp] a (s.xL.sshiftRight b.toNat)
/-- C_SLTI (R237). -/
def execCSlti (a b : BitVec 5) (s : State) : Out := s.alu [s.imp] a (ofBoolW (s.xL.slt (simm5 b)))
/-- C_LD_D (R237). -/
def execCLdD (a b : BitVec 5) (s : State) : Out := s.loadX a s.imp (s.xL + BitVec.ofNat 64 (8 * b.toNat)) 8 true 0
/-- C_LD_W (R237). -/
def execCLdW (a b : BitVec 5) (s : State) : Out := s.loadX a s.imp (s.xL + BitVec.ofNat 64 (4 * b.toNat)) 4 true 0
/-- C_ST_D (R237). -/
def execCStD (a b : BitVec 5) (s : State) : Out := s.storeX a s.imp (s.xL + BitVec.ofNat 64 (8 * b.toNat)) 8 0
/-- C_ST_W (R237). -/
def execCStW (a b : BitVec 5) (s : State) : Out := s.storeX a s.imp (s.xL + BitVec.ofNat 64 (4 * b.toNat)) 4 0
/-- C_FADD_D (R237). -/
def execCFaddD (a b : BitVec 5) (s : State) : Out :=
  s.fpRound [s.imp, b] a (fmtD.add s.cur.rm false (s.cur.fp fmtD s.imp) (s.cur.fp fmtD b))
/-- C_FSUB_D (R237). -/
def execCFsubD (a b : BitVec 5) (s : State) : Out :=
  s.fpRound [s.imp, b] a (fmtD.sub s.cur.rm false (s.cur.fp fmtD s.imp) (s.cur.fp fmtD b))
/-- C_FMUL_D (R237). -/
def execCFmulD (a b : BitVec 5) (s : State) : Out :=
  s.fpRound [s.imp, b] a (fmtD.mul s.cur.rm false (s.cur.fp fmtD s.imp) (s.cur.fp fmtD b))
/-- C_FMA_D (R237): xa += X[L]·X[xb]. -/
def execCFmaD (a b : BitVec 5) (s : State) : Out :=
  s.fpRound [a, s.imp, b] a (fmtD.fma s.cur.rm false (s.cur.fp fmtD a) (s.cur.fp fmtD s.imp) (s.cur.fp fmtD b))
/-- C_MULHU (R237). -/
def execCMulhu (a b : BitVec 5) (s : State) : Out := s.aluLate 3 [s.imp, b] a (mulHighU s.xL (s.cur.x b)) 0

end Sys2Proof.Machine
end

