-- ==== Sys2Proof/WellFormed.lean ====
section
/-! DEFINITION. Which operand values an instruction admits (R217 to R219, R226, R231, R240, R250, R260, R262, R322, R328).
An operand outside them is a bit pattern that is not an instruction (R239). -/
namespace Sys2Proof

/-- Why a pattern of operand fields is not an instruction. -/
inductive FormError where
  /-- hook 0 where a hook is required (R218) -/
  | hook
  /-- scope code 0b110 or 0b111, or a scope the instruction refuses (R219, R266, R322) -/
  | scope
  /-- a register field out of range for its file (R217) -/
  | register
  /-- a loop level above 5 or a body length outside 1 to 256 words (R250) -/
  | loop
  /-- a `dly` count outside 1 to 64 (R250) -/
  | delay
  /-- a conversion code that the function does not accept (R260) -/
  | format
  /-- a `setvli` cfg above 207 (R227) -/
  | config
  /-- a `vamo` code above 53 (R231) -/
  | code
  /-- an `epop` engine above 1 (R322) -/
  | engine
  /-- a pool of no granules (R240) -/
  | pool
  /-- a compact nop with a non-zero field (R237) -/
  | nop
  /-- a chain bit of a load that reads no vector source (R228, R230) -/
  | chain
deriving DecidableEq, Repr

namespace Form

/-- Answers the error where the test fails. -/
def need (ok : Bool) (e : FormError) : Option FormError := if ok then none else some e
def hookSet (h : BitVec 4) : Option FormError := need (h != 0) .hook
def scopeOk (sc : BitVec 3) : Option FormError := need (sc.toNat ≤ 5) .scope
def scopeUpToDev (sc : BitVec 3) : Option FormError := need (sc.toNat ≤ 4) .scope
def scopeFromCore (sc : BitVec 3) : Option FormError := need (1 ≤ sc.toNat && sc.toNat ≤ 5) .scope
def maskReg (r : BitVec 5) : Option FormError := need (r.toNat < 8) .register
def accReg (r : BitVec 5) : Option FormError := need (r.toNat < 4) .register
def keyReg (r : BitVec 5) : Option FormError := need (r.toNat < 8) .register
def loopLevel (l : BitVec 3) : Option FormError := need (l.toNat ≤ 5) .loop
def loopOffset (o : BitVec 9) : Option FormError := need (2 ≤ o.toNat && o.toNat ≤ 257) .loop
def delay (n : BitVec 16) : Option FormError := need (1 ≤ n.toNat && n.toNat ≤ 64) .delay
def fcvtSource (fmt : BitVec 2) (code : BitVec 5) : Option FormError :=
  need (code.toNat ≤ 5 && code.toNat != fmt.toNat) .format
def fcvtInteger (code : BitVec 5) : Option FormError := need (code == 4 || code == 5) .format
def cfgOk (c : BitVec 8) : Option FormError := need (c.toNat ≤ 207) .config
def vamoCode (c : BitVec 6) : Option FormError := need (c.toNat ≤ 53) .code
def cuffPair (d : BitVec 5) : Option FormError := need (d != 0 && d != 31) .register
def engine (b : BitVec 5) : Option FormError := need (b.toNat < 2) .engine
def poolSize (n : BitVec 14) : Option FormError := need (n != 0) .pool
def nopFields (a b : BitVec 5) : Option FormError := need (a == 0 && b == 0) .nop
def noChain (c : BitVec 1) : Option FormError := need (c == 0) .chain

end Form

open Form in
/-- The first operand check that fails, or none. -/
def Instr.formError : Instr → Option FormError
  | .add _ _ _ => none
  | .sub _ _ _ => none
  | .and _ _ _ => none
  | .or _ _ _ => none
  | .xor _ _ _ => none
  | .shl _ _ _ => none
  | .shr _ _ _ => none
  | .sra _ _ _ => none
  | .slt _ _ _ => none
  | .sltu _ _ _ => none
  | .min _ _ _ => none
  | .max _ _ _ => none
  | .minu _ _ _ => none
  | .maxu _ _ _ => none
  | .mul _ _ _ => none
  | .mulh _ _ _ => none
  | .mulhu _ _ _ => none
  | .div _ _ _ h => hookSet h
  | .divu _ _ _ h => hookSet h
  | .rem _ _ _ h => hookSet h
  | .remu _ _ _ h => hookSet h
  | .clz _ _ => none
  | .ctz _ _ => none
  | .popc _ _ => none
  | .bswap _ _ => none
  | .addi _ _ _ => none
  | .andi _ _ _ => none
  | .ori _ _ _ => none
  | .xori _ _ _ => none
  | .shli _ _ _ => none
  | .shri _ _ _ => none
  | .srai _ _ _ => none
  | .slti _ _ _ => none
  | .sltiu _ _ _ => none
  | .lhi _ _ => none
  | .lpc _ _ => none
  | .ldB _ _ _ _ => none
  | .ldH _ _ _ _ => none
  | .ldW _ _ _ _ => none
  | .ldD _ _ _ _ => none
  | .ldBu _ _ _ _ => none
  | .ldHu _ _ _ _ => none
  | .ldWu _ _ _ _ => none
  | .stB _ _ _ _ => none
  | .stH _ _ _ _ => none
  | .stW _ _ _ _ => none
  | .stD _ _ _ _ => none
  | .ldacq _ _ h sc => (hookSet h) <|> (scopeOk sc)
  | .strel _ _ _ sc => scopeOk sc
  | .amoAdd _ _ _ h sc => (hookSet h) <|> (scopeOk sc)
  | .amoAnd _ _ _ h sc => (hookSet h) <|> (scopeOk sc)
  | .amoOr _ _ _ h sc => (hookSet h) <|> (scopeOk sc)
  | .amoXor _ _ _ h sc => (hookSet h) <|> (scopeOk sc)
  | .amoMin _ _ _ h sc => (hookSet h) <|> (scopeOk sc)
  | .amoMax _ _ _ h sc => (hookSet h) <|> (scopeOk sc)
  | .amoMinu _ _ _ h sc => (hookSet h) <|> (scopeOk sc)
  | .amoMaxu _ _ _ h sc => (hookSet h) <|> (scopeOk sc)
  | .amoSwap _ _ _ h sc => (hookSet h) <|> (scopeOk sc)
  | .cas _ _ _ h sc => (hookSet h) <|> (scopeOk sc)
  | .beq _ _ _ => none
  | .bne _ _ _ => none
  | .blt _ _ _ => none
  | .bge _ _ _ => none
  | .bltu _ _ _ => none
  | .bgeu _ _ _ => none
  | .jal _ _ => none
  | .jalr _ _ _ => none
  | .loop lvl off => (loopLevel lvl) <|> (loopOffset off)
  | .loopr _ off => loopOffset off
  | .dly n => delay n
  | .wait _ h _ => hookSet h
  | .post h _ => hookSet h
  | .hset _ h => hookSet h
  | .halt => none
  | .launch _ h => hookSet h
  | .fadd _ _ _ _ => none
  | .fsub _ _ _ _ => none
  | .fmul _ _ _ _ => none
  | .fma _ _ _ _ => none
  | .fdiv _ _ _ h _ => hookSet h
  | .fsqrt _ _ h _ => hookSet h
  | .fmin _ _ _ _ => none
  | .fmax _ _ _ _ => none
  | .fcmpEq _ _ _ _ => none
  | .fcmpNe _ _ _ _ => none
  | .fcmpLt _ _ _ _ => none
  | .fcmpLe _ _ _ _ => none
  | .fcmpGt _ _ _ _ => none
  | .fcmpGe _ _ _ _ => none
  | .fclass _ _ _ => none
  | .fcvt _ _ code fmt => fcvtSource fmt code
  | .fcvtInt _ _ code _ => fcvtInteger code
  | .trap _ => none
  | .eret => none
  | .csrr _ _ => none
  | .csrw _ _ => none
  | .csrs _ _ => none
  | .csrc _ _ => none
  | .fenceAcq sc => scopeOk sc
  | .fenceRel sc => scopeOk sc
  | .fenceFull sc => scopeOk sc
  | .fenceSv => none
  | .fenceIo sc => scopeOk sc
  | .bkpt _ => none
  | .icinv _ h _ sc => (hookSet h) <|> (scopeUpToDev sc)
  | .idle => none
  | .ctxsave _ h => hookSet h
  | .ctxrst _ h => hookSet h
  | .poolHeader n => poolSize n
  | .setvli _ _ _ _ _ _ _ cfg => cfgOk cfg
  | .setvl _ _ _ _ => none
  | .settl _ _ _ => none
  | .vld _ _ _ _ ch _ => noChain ch
  | .vst _ _ _ _ _ _ => none
  | .mld d _ _ => maskReg d
  | .mst d _ _ => maskReg d
  | .vlds _ _ _ _ _ ch _ => noChain ch
  | .vsts _ _ _ _ _ _ _ => none
  | .vldx _ _ _ _ _ _ _ => none
  | .vstx _ _ _ _ _ _ _ => none
  | .vamo _ _ _ code h => (hookSet h) <|> (vamoCode code)
  | .vaddVV _ _ _ _ _ _ _ => none
  | .vaddVX _ _ _ _ _ _ => none
  | .vaddVI _ _ _ _ _ _ => none
  | .vsubVV _ _ _ _ _ _ _ => none
  | .vsubVX _ _ _ _ _ _ => none
  | .vsubVI _ _ _ _ _ _ => none
  | .vrsubVV _ _ _ _ _ _ _ => none
  | .vrsubVX _ _ _ _ _ _ => none
  | .vrsubVI _ _ _ _ _ _ => none
  | .vadcVV _ _ _ _ _ _ => none
  | .vadcVX _ _ _ _ _ => none
  | .vadcVI _ _ _ _ _ => none
  | .vsbcVV _ _ _ _ _ _ => none
  | .vsbcVX _ _ _ _ _ => none
  | .vsbcVI _ _ _ _ _ => none
  | .vmadcVV d _ _ _ _ _ => maskReg d
  | .vmadcVX d _ _ _ _ => maskReg d
  | .vmadcVI d _ _ _ _ => maskReg d
  | .vmsbcVV d _ _ _ _ _ => maskReg d
  | .vmsbcVX d _ _ _ _ => maskReg d
  | .vmsbcVI d _ _ _ _ => maskReg d
  | .vandVV _ _ _ _ _ _ _ => none
  | .vandVX _ _ _ _ _ _ => none
  | .vandVI _ _ _ _ _ _ => none
  | .vorVV _ _ _ _ _ _ _ => none
  | .vorVX _ _ _ _ _ _ => none
  | .vorVI _ _ _ _ _ _ => none
  | .vxorVV _ _ _ _ _ _ _ => none
  | .vxorVX _ _ _ _ _ _ => none
  | .vxorVI _ _ _ _ _ _ => none
  | .vshlVV _ _ _ _ _ _ _ => none
  | .vshlVX _ _ _ _ _ _ => none
  | .vshlVI _ _ _ _ _ _ => none
  | .vshrVV _ _ _ _ _ _ _ => none
  | .vshrVX _ _ _ _ _ _ => none
  | .vshrVI _ _ _ _ _ _ => none
  | .vsraVV _ _ _ _ _ _ _ => none
  | .vsraVX _ _ _ _ _ _ => none
  | .vsraVI _ _ _ _ _ _ => none
  | .vmulVV _ _ _ _ _ _ _ => none
  | .vmulVX _ _ _ _ _ _ => none
  | .vmulVI _ _ _ _ _ _ => none
  | .vmulhVV _ _ _ _ _ _ _ => none
  | .vmulhVX _ _ _ _ _ _ => none
  | .vmulhVI _ _ _ _ _ _ => none
  | .vmulhuVV _ _ _ _ _ _ _ => none
  | .vmulhuVX _ _ _ _ _ _ => none
  | .vmulhuVI _ _ _ _ _ _ => none
  | .vminVV _ _ _ _ _ _ _ => none
  | .vminVX _ _ _ _ _ _ => none
  | .vminVI _ _ _ _ _ _ => none
  | .vmaxVV _ _ _ _ _ _ _ => none
  | .vmaxVX _ _ _ _ _ _ => none
  | .vmaxVI _ _ _ _ _ _ => none
  | .vminuVV _ _ _ _ _ _ _ => none
  | .vminuVX _ _ _ _ _ _ => none
  | .vminuVI _ _ _ _ _ _ => none
  | .vmaxuVV _ _ _ _ _ _ _ => none
  | .vmaxuVX _ _ _ _ _ _ => none
  | .vmaxuVI _ _ _ _ _ _ => none
  | .vmergeVV _ _ _ _ _ _ => none
  | .vmergeVX _ _ _ _ _ => none
  | .vmergeVI _ _ _ _ _ => none
  | .vmvVV _ _ _ _ _ => none
  | .vmvVX _ _ _ _ => none
  | .vmvVI _ _ _ _ => none
  | .vcmpEqVV d _ _ _ _ _ _ => maskReg d
  | .vcmpEqVX d _ _ _ _ _ => maskReg d
  | .vcmpEqVI d _ _ _ _ _ => maskReg d
  | .vcmpNeVV d _ _ _ _ _ _ => maskReg d
  | .vcmpNeVX d _ _ _ _ _ => maskReg d
  | .vcmpNeVI d _ _ _ _ _ => maskReg d
  | .vcmpLtVV d _ _ _ _ _ _ => maskReg d
  | .vcmpLtVX d _ _ _ _ _ => maskReg d
  | .vcmpLtVI d _ _ _ _ _ => maskReg d
  | .vcmpLtuVV d _ _ _ _ _ _ => maskReg d
  | .vcmpLtuVX d _ _ _ _ _ => maskReg d
  | .vcmpLtuVI d _ _ _ _ _ => maskReg d
  | .vcmpLeVV d _ _ _ _ _ _ => maskReg d
  | .vcmpLeVX d _ _ _ _ _ => maskReg d
  | .vcmpLeVI d _ _ _ _ _ => maskReg d
  | .vcmpLeuVV d _ _ _ _ _ _ => maskReg d
  | .vcmpLeuVX d _ _ _ _ _ => maskReg d
  | .vcmpLeuVI d _ _ _ _ _ => maskReg d
  | .vcmpGtVV d _ _ _ _ _ _ => maskReg d
  | .vcmpGtVX d _ _ _ _ _ => maskReg d
  | .vcmpGtVI d _ _ _ _ _ => maskReg d
  | .vcmpGtuVV d _ _ _ _ _ _ => maskReg d
  | .vcmpGtuVX d _ _ _ _ _ => maskReg d
  | .vcmpGtuVI d _ _ _ _ _ => maskReg d
  | .vslupVX _ _ _ _ _ _ => none
  | .vslupVI _ _ _ _ _ _ => none
  | .vsldnVX _ _ _ _ _ _ => none
  | .vsldnVI _ _ _ _ _ _ => none
  | .vsl1up _ _ _ _ _ _ => none
  | .vsl1dn _ _ _ _ _ _ => none
  | .vperm _ _ _ _ _ _ _ => none
  | .vcompress _ _ _ _ => none
  | .viota _ _ => none
  | .vid _ _ _ => none
  | .vwadd _ _ _ _ _ _ _ => none
  | .vwaddu _ _ _ _ _ _ _ => none
  | .vwmul _ _ _ _ _ _ _ => none
  | .vwmulu _ _ _ _ _ _ _ => none
  | .vnshrVX _ _ _ _ _ _ => none
  | .vnshrVI _ _ _ _ _ _ => none
  | .vnsraVX _ _ _ _ _ _ => none
  | .vnsraVI _ _ _ _ _ _ => none
  | .vextS2 _ _ _ _ _ => none
  | .vextS4 _ _ _ _ _ => none
  | .vextZ2 _ _ _ _ _ => none
  | .vextZ4 _ _ _ _ _ => none
  | .vlastx _ _ b h _ => (hookSet h) <|> (maskReg b)
  | .mand d a b => (maskReg d) <|> (maskReg a) <|> (maskReg b)
  | .mor d a b => (maskReg d) <|> (maskReg a) <|> (maskReg b)
  | .mxor d a b => (maskReg d) <|> (maskReg a) <|> (maskReg b)
  | .mandn d a b => (maskReg d) <|> (maskReg a) <|> (maskReg b)
  | .mshl d a _ => (maskReg d) <|> (maskReg a)
  | .mpopc _ a h => (hookSet h) <|> (maskReg a)
  | .mfirst _ a h => (hookSet h) <|> (maskReg a)
  | .mlast _ a h => (hookSet h) <|> (maskReg a)
  | .vmvx _ _ _ h _ => hookSet h
  | .vmvsx _ _ => none
  | .vredSum _ _ _ _ _ _ _ => none
  | .vredAnd _ _ _ _ _ _ _ => none
  | .vredOr _ _ _ _ _ _ _ => none
  | .vredXor _ _ _ _ _ _ _ => none
  | .vredMin _ _ _ _ _ _ _ => none
  | .vredMax _ _ _ _ _ _ _ => none
  | .vredMinu _ _ _ _ _ _ _ => none
  | .vredMaxu _ _ _ _ _ _ _ => none
  | .vfaddVV _ _ _ _ _ _ _ => none
  | .vfaddVX _ _ _ _ _ _ => none
  | .vfsubVV _ _ _ _ _ _ _ => none
  | .vfsubVX _ _ _ _ _ _ => none
  | .vfmulVV _ _ _ _ _ _ _ => none
  | .vfmulVX _ _ _ _ _ _ => none
  | .vfmaVV _ _ _ _ _ _ _ => none
  | .vfmaVX _ _ _ _ _ _ => none
  | .vfdivVV _ _ _ _ _ _ _ => none
  | .vfdivVX _ _ _ _ _ _ => none
  | .vfsqrt _ _ _ _ _ => none
  | .vfminVV _ _ _ _ _ _ _ => none
  | .vfminVX _ _ _ _ _ _ => none
  | .vfmaxVV _ _ _ _ _ _ _ => none
  | .vfmaxVX _ _ _ _ _ _ => none
  | .vfcmpEqVV d _ _ _ _ _ _ => maskReg d
  | .vfcmpEqVX d _ _ _ _ _ => maskReg d
  | .vfcmpNeVV d _ _ _ _ _ _ => maskReg d
  | .vfcmpNeVX d _ _ _ _ _ => maskReg d
  | .vfcmpLtVV d _ _ _ _ _ _ => maskReg d
  | .vfcmpLtVX d _ _ _ _ _ => maskReg d
  | .vfcmpLeVV d _ _ _ _ _ _ => maskReg d
  | .vfcmpLeVX d _ _ _ _ _ => maskReg d
  | .vfcmpGtVV d _ _ _ _ _ _ => maskReg d
  | .vfcmpGtVX d _ _ _ _ _ => maskReg d
  | .vfcmpGeVV d _ _ _ _ _ _ => maskReg d
  | .vfcmpGeVX d _ _ _ _ _ => maskReg d
  | .vfaddBfVV _ _ _ _ _ _ _ => none
  | .vfaddBfVX _ _ _ _ _ _ => none
  | .vfsubBfVV _ _ _ _ _ _ _ => none
  | .vfsubBfVX _ _ _ _ _ _ => none
  | .vfmulBfVV _ _ _ _ _ _ _ => none
  | .vfmulBfVX _ _ _ _ _ _ => none
  | .vfmaBfVV _ _ _ _ _ _ _ => none
  | .vfmaBfVX _ _ _ _ _ _ => none
  | .vfcvt _ _ _ _ _ _ _ => none
  | .vfredo _ _ _ _ _ _ _ => none
  | .vfredSum _ _ _ _ _ _ _ => none
  | .vfredMin _ _ _ _ _ _ _ => none
  | .vfredMax _ _ _ _ _ _ _ => none
  | .vfpot _ _ _ _ _ _ _ => none
  | .vmaddVV _ _ _ _ _ _ _ => none
  | .vmsubVV _ _ _ _ _ _ _ => none
  | .vmmulVV _ _ _ _ _ _ _ => none
  | .vmmacVV _ _ _ _ _ _ _ => none
  | .vmaddVX _ _ _ _ _ _ => none
  | .vmsubVX _ _ _ _ _ _ => none
  | .vmmulVX _ _ _ _ _ _ => none
  | .vmmacVX _ _ _ _ _ _ => none
  | .vbfly _ _ _ _ _ _ _ => none
  | .vibfly _ _ _ _ _ _ _ => none
  | .vntt _ _ _ _ => none
  | .vintt _ _ _ _ => none
  | .vauto _ _ _ _ => none
  | .vdigit _ _ _ _ _ _ => none
  | .mtld _ h => hookSet h
  | .tzero d => accReg d
  | .tld d _ _ _ => accReg d
  | .tst d _ _ _ => accReg d
  | .tmma d _ _ => accReg d
  | .tmvr _ a _ => accReg a
  | .copy _ _ h => hookSet h
  | .copyn _ h => hookSet h
  | .epop _ b h => (hookSet h) <|> (engine b)
  | .bar _ sc h => (hookSet h) <|> (scopeFromCore sc)
  | .slopen d h => (hookSet h) <|> (cuffPair d)
  | .slsend _ _ h => hookSet h
  | .slrecv _ _ h => hookSet h
  | .slpass _ _ h => hookSet h
  | .slclose _ h => hookSet h
  | .slpoll _ _ h => hookSet h
  | .rpkey _ _ _ => none
  | .rprun _ h => hookSet h
  | .rpdisp _ h => hookSet h
  | .rpstat _ _ h => hookSet h
  | .ctBind _ _ _ => none
  | .ctLd _ _ => none
  | .ctSt _ _ _ => none
  | .ctAdd _ _ _ h => hookSet h
  | .ctSub _ _ _ h => hookSet h
  | .ctNeg _ _ h => hookSet h
  | .ctMulk _ _ _ h => hookSet h
  | .ctMulp _ _ _ h => hookSet h
  | .ctRot _ _ b h => (hookSet h) <|> (keyReg b)
  | .ctKsw _ _ b h => (hookSet h) <|> (keyReg b)
  | .ctModsw _ _ _ h => hookSet h
  | .ctExtr _ _ _ h => hookSet h
  | .ctPack _ _ b h _ => (hookSet h) <|> (keyReg b)
  | .ctRefresh _ _ b h _ => (hookSet h) <|> (keyReg b)
  | .ctBrinit _ _ h _ => hookSet h
  | .ctBrstep _ _ b h => (hookSet h) <|> (keyReg b)
  | .ctBrfin _ _ h => hookSet h
  | .ctAlw _ _ => none
  | .ctWin _ => none
  | .tbLd d _ h => (hookSet h) <|> (keyReg d)
  | .kyBind d _ h => (hookSet h) <|> (keyReg d)
  | .cNop a b => nopFields a b
  | .cAdd _ _ => none
  | .cSub _ _ => none
  | .cAnd _ _ => none
  | .cOr _ _ => none
  | .cXor _ _ => none
  | .cShl _ _ => none
  | .cShr _ _ => none
  | .cSra _ _ => none
  | .cSlt _ _ => none
  | .cSltu _ _ => none
  | .cMin _ _ => none
  | .cMax _ _ => none
  | .cMinu _ _ => none
  | .cMaxu _ _ => none
  | .cMul _ _ => none
  | .cAddi _ _ => none
  | .cAndi _ _ => none
  | .cShli _ _ => none
  | .cShri _ _ => none
  | .cSrai _ _ => none
  | .cSlti _ _ => none
  | .cLdD _ _ => none
  | .cLdW _ _ => none
  | .cStD _ _ => none
  | .cStW _ _ => none
  | .cFaddD _ _ => none
  | .cFsubD _ _ => none
  | .cFmulD _ _ => none
  | .cFmaD _ _ => none
  | .cMulhu _ _ => none
  | .trapTake _ => none
  | .timer _ => none
  | .idleTimeout _ => none
  | .loadDataArrival _ => none
  | .storePerformed _ => none
  | .divideComplete _ => none
  | .fdivComplete _ => none
  | .atomicComplete _ => none
  | .vectorComplete _ => none
  | .copyComplete _ => none
  | .engineFault _ => none
  | .ctChannelComplete _ => none
  | .refreshWindowExpiry _ => none
  | .refreshBatchComplete _ => none
  | .sleeveCommandComplete _ => none
  | .tailoringComplete _ => none
  | .tailoringTimeout _ => none
  | .peerLost _ => none
  | .icinvComplete _ => none
  | .ctxsaveComplete _ => none
  | .ctxrstComplete _ => none
  | .launchEnqueue _ => none
  | .hostLaunchWrite _ _ _ => none
  | .dispatch _ _ => none
  | .headPromotion _ => none
  | .yieldTimeout _ _ => none
  | .preemptTimeout _ => none
  | .resumeParked _ _ => none
  | .receiptSign _ => none
  | .powerWindow _ => none
  | .thrinAssert => none
  | .pkglim _ => none
  | .stklim _ _ => none
  | .spres _ => none
  | .poolmap _ => none
  | .rgtab _ => none
  | .rgkey _ => none
  | .rgkeyComplete _ => none
  | .tlbinv _ => none
  | .tlbinvComplete _ => none
  | .ldest _ => none
  | .fcsr _ => none
  | .alpol _ => none
  | .registerWrite _ _ => none
  | .obctl _ _ => none
  | .obbuf _ _ => none
  | .obtail _ _ => none
  | .rcreq _ _ => none
  | .profileEntry _ _ _ _ => none
  | .qstat _ _ => none
  | .bccfg _ _ => none
  | .bcstg _ _ => none
  | .bchc _ _ => none
  | .bcresync _ _ => none
  | .bcKeyInstall _ _ => none
  | .bcSlot _ _ => none
  | .flitReceive _ _ _ _ => none
  | .laneLockLoss _ _ => none
  | .planeControl _ _ => none
  | .frameArbitration _ _ => none
  | .frameDigest _ _ _ => none
  | .planeResume _ => none
  | .wr _ _ => none
  | .rd _ _ => none
  | .rdr _ _ => none
  | .amo _ _ => none
  | .amor _ _ => none
  | .wack _ _ => none
  | .sli _ _ => none
  | .slc _ _ => none
  | .tlr _ _ => none
  | .tlc _ _ => none
  | .barMessage _ _ => none
  | .clm _ _ => none
  | .clmr _ _ => none
  | .ack _ _ => none
  | .nak _ _ => none
  | .nakCtx _ _ => none
  | .ackTimer _ => none
  | .gapTimer _ => none
  | .resendTimer _ => none
  | .atomicRetry _ => none
  | .deliveryTimeout _ => none
  | .sessionReestablish _ => none
  | .contactLoss _ => none
  | .d2dKeyRenewal => none
  | .ideIntegrityFailure _ => none
  | .hostRegisterRequest _ => none
  | .glitchDetect => none
  | .debugPortAccess => none
  | .eccError _ _ => none
  | .reset _ => none
  | .i3cAddressAssignment _ => none
  | .thrinDeassert => none
  | .doeSpdmMessage _ => none
  | .cxlMemRequest _ => none
  | .sessionKeyUpdate _ => none
  | .queueBind _ => none
  | .supervisorTaskEnd _ _ => none
  | .fixedResultLanding _ => none
  | .rpstatComplete _ => none

/-- Every operand field holds a value its instruction admits. -/
abbrev Instr.WellFormed (i : Instr) : Prop := i.formError = none

end Sys2Proof
end

