-- ==== Sys2Proof/Decode.lean ====
section
/-! DEFINITION. The decoder, from 32-bit words and 15-bit compact halves to instructions, and the encoder back, both from the
layouts of R214 to R240 and the function tables of the instruction chapters. Lean's runtime cannot build a value of a
constructor above the 244th; the definitions that build one are therefore marked as not compiled, and the kernel evaluates them. -/
namespace Sys2Proof

/-- Why a bit pattern is not an instruction (R239). -/
inductive DecodeError where
  /-- majors 0x00 and 0x2B to 0x2F -/
  | major
  /-- a function code that its chapter leaves unassigned -/
  | function
  /-- a non-zero res bit, or a non-zero field that the instruction does not use -/
  | unused
  /-- an operand field outside its range -/
  | form (e : FormError)
  /-- a pc with bit 1 set on a word that is not a pair word (R215) -/
  | notPair
  /-- fewer than four bytes -/
  | short
deriving DecidableEq, Repr

/-- What decoding answers. -/
abbrev Decoded := Except DecodeError Instr

/-- A field that the instruction does not use must be 0 (R217). -/
def zero (x : BitVec n) (r : Decoded) : Decoded := if x = 0 then r else .error .unused

/-- Major 0x01: function code in bits [6:0]. -/
def decodeMajor01 (w : Half) : Decoded :=
  match w.extractLsb' 0 7 with
  | 0#7 => zero (w.extractLsb' 7 4) (.ok (.add (w.extractLsb' 21 5) (w.extractLsb' 16 5) (w.extractLsb' 11 5)))
  | 1#7 => zero (w.extractLsb' 7 4) (.ok (.sub (w.extractLsb' 21 5) (w.extractLsb' 16 5) (w.extractLsb' 11 5)))
  | 2#7 => zero (w.extractLsb' 7 4) (.ok (.and (w.extractLsb' 21 5) (w.extractLsb' 16 5) (w.extractLsb' 11 5)))
  | 3#7 => zero (w.extractLsb' 7 4) (.ok (.or (w.extractLsb' 21 5) (w.extractLsb' 16 5) (w.extractLsb' 11 5)))
  | 4#7 => zero (w.extractLsb' 7 4) (.ok (.xor (w.extractLsb' 21 5) (w.extractLsb' 16 5) (w.extractLsb' 11 5)))
  | 5#7 => zero (w.extractLsb' 7 4) (.ok (.shl (w.extractLsb' 21 5) (w.extractLsb' 16 5) (w.extractLsb' 11 5)))
  | 6#7 => zero (w.extractLsb' 7 4) (.ok (.shr (w.extractLsb' 21 5) (w.extractLsb' 16 5) (w.extractLsb' 11 5)))
  | 7#7 => zero (w.extractLsb' 7 4) (.ok (.sra (w.extractLsb' 21 5) (w.extractLsb' 16 5) (w.extractLsb' 11 5)))
  | 8#7 => zero (w.extractLsb' 7 4) (.ok (.slt (w.extractLsb' 21 5) (w.extractLsb' 16 5) (w.extractLsb' 11 5)))
  | 9#7 => zero (w.extractLsb' 7 4) (.ok (.sltu (w.extractLsb' 21 5) (w.extractLsb' 16 5) (w.extractLsb' 11 5)))
  | 10#7 => zero (w.extractLsb' 7 4) (.ok (.min (w.extractLsb' 21 5) (w.extractLsb' 16 5) (w.extractLsb' 11 5)))
  | 11#7 => zero (w.extractLsb' 7 4) (.ok (.max (w.extractLsb' 21 5) (w.extractLsb' 16 5) (w.extractLsb' 11 5)))
  | 12#7 => zero (w.extractLsb' 7 4) (.ok (.minu (w.extractLsb' 21 5) (w.extractLsb' 16 5) (w.extractLsb' 11 5)))
  | 13#7 => zero (w.extractLsb' 7 4) (.ok (.maxu (w.extractLsb' 21 5) (w.extractLsb' 16 5) (w.extractLsb' 11 5)))
  | 14#7 => zero (w.extractLsb' 7 4) (.ok (.mul (w.extractLsb' 21 5) (w.extractLsb' 16 5) (w.extractLsb' 11 5)))
  | 15#7 => zero (w.extractLsb' 7 4) (.ok (.mulh (w.extractLsb' 21 5) (w.extractLsb' 16 5) (w.extractLsb' 11 5)))
  | 16#7 => zero (w.extractLsb' 7 4) (.ok (.mulhu (w.extractLsb' 21 5) (w.extractLsb' 16 5) (w.extractLsb' 11 5)))
  | 17#7 => .ok (.div (w.extractLsb' 21 5) (w.extractLsb' 16 5) (w.extractLsb' 11 5) (w.extractLsb' 7 4))
  | 18#7 => .ok (.divu (w.extractLsb' 21 5) (w.extractLsb' 16 5) (w.extractLsb' 11 5) (w.extractLsb' 7 4))
  | 19#7 => .ok (.rem (w.extractLsb' 21 5) (w.extractLsb' 16 5) (w.extractLsb' 11 5) (w.extractLsb' 7 4))
  | 20#7 => .ok (.remu (w.extractLsb' 21 5) (w.extractLsb' 16 5) (w.extractLsb' 11 5) (w.extractLsb' 7 4))
  | 21#7 => zero (w.extractLsb' 7 9) (.ok (.clz (w.extractLsb' 21 5) (w.extractLsb' 16 5)))
  | 22#7 => zero (w.extractLsb' 7 9) (.ok (.ctz (w.extractLsb' 21 5) (w.extractLsb' 16 5)))
  | 23#7 => zero (w.extractLsb' 7 9) (.ok (.popc (w.extractLsb' 21 5) (w.extractLsb' 16 5)))
  | 24#7 => zero (w.extractLsb' 7 9) (.ok (.bswap (w.extractLsb' 21 5) (w.extractLsb' 16 5)))
  | _ => .error .function

/-- Major 0x06: function code in bits [7:6]. -/
def decodeMajor06 (w : Half) : Decoded :=
  match w.extractLsb' 6 2 with
  | 0#2 => zero (w.extractLsb' 8 8) (.ok (.shli (w.extractLsb' 21 5) (w.extractLsb' 16 5) (w.extractLsb' 0 6)))
  | 1#2 => zero (w.extractLsb' 8 8) (.ok (.shri (w.extractLsb' 21 5) (w.extractLsb' 16 5) (w.extractLsb' 0 6)))
  | 2#2 => zero (w.extractLsb' 8 8) (.ok (.srai (w.extractLsb' 21 5) (w.extractLsb' 16 5) (w.extractLsb' 0 6)))
  | _ => .error .function

/-- Major 0x0B: function code in bits [11:9]. -/
def decodeMajor0B (w : Half) : Decoded :=
  match w.extractLsb' 9 3 with
  | 0#3 => .ok (.ldB (w.extractLsb' 21 5) (w.extractLsb' 16 5) (w.extractLsb' 12 4) (w.extractLsb' 0 9))
  | 1#3 => .ok (.ldH (w.extractLsb' 21 5) (w.extractLsb' 16 5) (w.extractLsb' 12 4) (w.extractLsb' 0 9))
  | 2#3 => .ok (.ldW (w.extractLsb' 21 5) (w.extractLsb' 16 5) (w.extractLsb' 12 4) (w.extractLsb' 0 9))
  | 3#3 => .ok (.ldD (w.extractLsb' 21 5) (w.extractLsb' 16 5) (w.extractLsb' 12 4) (w.extractLsb' 0 9))
  | 4#3 => .ok (.ldBu (w.extractLsb' 21 5) (w.extractLsb' 16 5) (w.extractLsb' 12 4) (w.extractLsb' 0 9))
  | 5#3 => .ok (.ldHu (w.extractLsb' 21 5) (w.extractLsb' 16 5) (w.extractLsb' 12 4) (w.extractLsb' 0 9))
  | 6#3 => .ok (.ldWu (w.extractLsb' 21 5) (w.extractLsb' 16 5) (w.extractLsb' 12 4) (w.extractLsb' 0 9))
  | _ => .error .function

/-- Major 0x0C: function code in bits [11:9]. -/
def decodeMajor0C (w : Half) : Decoded :=
  match w.extractLsb' 9 3 with
  | 0#3 => .ok (.stB (w.extractLsb' 21 5) (w.extractLsb' 16 5) (w.extractLsb' 12 4) (w.extractLsb' 0 9))
  | 1#3 => .ok (.stH (w.extractLsb' 21 5) (w.extractLsb' 16 5) (w.extractLsb' 12 4) (w.extractLsb' 0 9))
  | 2#3 => .ok (.stW (w.extractLsb' 21 5) (w.extractLsb' 16 5) (w.extractLsb' 12 4) (w.extractLsb' 0 9))
  | 3#3 => .ok (.stD (w.extractLsb' 21 5) (w.extractLsb' 16 5) (w.extractLsb' 12 4) (w.extractLsb' 0 9))
  | _ => .error .function

/-- Major 0x0D: function code in bits [3:0]. -/
def decodeMajor0D (w : Half) : Decoded :=
  match w.extractLsb' 0 4 with
  | 0#4 => zero (w.extractLsb' 11 5) (.ok (.ldacq (w.extractLsb' 21 5) (w.extractLsb' 16 5) (w.extractLsb' 7 4) (w.extractLsb' 4 3)))
  | 1#4 => zero (w.extractLsb' 11 5) (.ok (.strel (w.extractLsb' 21 5) (w.extractLsb' 16 5) (w.extractLsb' 7 4) (w.extractLsb' 4 3)))
  | 2#4 => .ok (.amoAdd (w.extractLsb' 21 5) (w.extractLsb' 16 5) (w.extractLsb' 11 5) (w.extractLsb' 7 4) (w.extractLsb' 4 3))
  | 3#4 => .ok (.amoAnd (w.extractLsb' 21 5) (w.extractLsb' 16 5) (w.extractLsb' 11 5) (w.extractLsb' 7 4) (w.extractLsb' 4 3))
  | 4#4 => .ok (.amoOr (w.extractLsb' 21 5) (w.extractLsb' 16 5) (w.extractLsb' 11 5) (w.extractLsb' 7 4) (w.extractLsb' 4 3))
  | 5#4 => .ok (.amoXor (w.extractLsb' 21 5) (w.extractLsb' 16 5) (w.extractLsb' 11 5) (w.extractLsb' 7 4) (w.extractLsb' 4 3))
  | 6#4 => .ok (.amoMin (w.extractLsb' 21 5) (w.extractLsb' 16 5) (w.extractLsb' 11 5) (w.extractLsb' 7 4) (w.extractLsb' 4 3))
  | 7#4 => .ok (.amoMax (w.extractLsb' 21 5) (w.extractLsb' 16 5) (w.extractLsb' 11 5) (w.extractLsb' 7 4) (w.extractLsb' 4 3))
  | 8#4 => .ok (.amoMinu (w.extractLsb' 21 5) (w.extractLsb' 16 5) (w.extractLsb' 11 5) (w.extractLsb' 7 4) (w.extractLsb' 4 3))
  | 9#4 => .ok (.amoMaxu (w.extractLsb' 21 5) (w.extractLsb' 16 5) (w.extractLsb' 11 5) (w.extractLsb' 7 4) (w.extractLsb' 4 3))
  | 10#4 => .ok (.amoSwap (w.extractLsb' 21 5) (w.extractLsb' 16 5) (w.extractLsb' 11 5) (w.extractLsb' 7 4) (w.extractLsb' 4 3))
  | 11#4 => .ok (.cas (w.extractLsb' 21 5) (w.extractLsb' 16 5) (w.extractLsb' 11 5) (w.extractLsb' 7 4) (w.extractLsb' 4 3))
  | _ => .error .function

/-- Major 0x16: function code in bits [25:21]. -/
def decodeMajor16 (w : Half) : Decoded :=
  match w.extractLsb' 21 5 with
  | 0#5 => zero (w.extractLsb' 16 5) (zero (w.extractLsb' 9 4) (.ok (.loop (w.extractLsb' 13 3) (w.extractLsb' 0 9))))
  | 1#5 => zero (w.extractLsb' 9 7) (.ok (.loopr (w.extractLsb' 16 5) (w.extractLsb' 0 9)))
  | 2#5 => zero (w.extractLsb' 16 5) (.ok (.dly (w.extractLsb' 0 16)))
  | 3#5 => .ok (.wait (w.extractLsb' 16 5) (w.extractLsb' 12 4) (w.extractLsb' 0 12))
  | 4#5 => zero (w.extractLsb' 16 5) (.ok (.post (w.extractLsb' 12 4) (w.extractLsb' 0 12)))
  | 5#5 => zero (w.extractLsb' 0 12) (.ok (.hset (w.extractLsb' 16 5) (w.extractLsb' 12 4)))
  | 6#5 => zero (w.extractLsb' 0 21) (.ok .halt)
  | 7#5 => zero (w.extractLsb' 0 12) (.ok (.launch (w.extractLsb' 16 5) (w.extractLsb' 12 4)))
  | _ => .error .function

/-- Major 0x17: function code in bits [6:2]. -/
def decodeMajor17 (w : Half) : Decoded :=
  match w.extractLsb' 2 5 with
  | 0#5 => zero (w.extractLsb' 7 4) (.ok (.fadd (w.extractLsb' 21 5) (w.extractLsb' 16 5) (w.extractLsb' 11 5) (w.extractLsb' 0 2)))
  | 1#5 => zero (w.extractLsb' 7 4) (.ok (.fsub (w.extractLsb' 21 5) (w.extractLsb' 16 5) (w.extractLsb' 11 5) (w.extractLsb' 0 2)))
  | 2#5 => zero (w.extractLsb' 7 4) (.ok (.fmul (w.extractLsb' 21 5) (w.extractLsb' 16 5) (w.extractLsb' 11 5) (w.extractLsb' 0 2)))
  | 3#5 => zero (w.extractLsb' 7 4) (.ok (.fma (w.extractLsb' 21 5) (w.extractLsb' 16 5) (w.extractLsb' 11 5) (w.extractLsb' 0 2)))
  | 4#5 => .ok (.fdiv (w.extractLsb' 21 5) (w.extractLsb' 16 5) (w.extractLsb' 11 5) (w.extractLsb' 7 4) (w.extractLsb' 0 2))
  | 5#5 => zero (w.extractLsb' 11 5) (.ok (.fsqrt (w.extractLsb' 21 5) (w.extractLsb' 16 5) (w.extractLsb' 7 4) (w.extractLsb' 0 2)))
  | 6#5 => zero (w.extractLsb' 7 4) (.ok (.fmin (w.extractLsb' 21 5) (w.extractLsb' 16 5) (w.extractLsb' 11 5) (w.extractLsb' 0 2)))
  | 7#5 => zero (w.extractLsb' 7 4) (.ok (.fmax (w.extractLsb' 21 5) (w.extractLsb' 16 5) (w.extractLsb' 11 5) (w.extractLsb' 0 2)))
  | 8#5 => zero (w.extractLsb' 7 4) (.ok (.fcmpEq (w.extractLsb' 21 5) (w.extractLsb' 16 5) (w.extractLsb' 11 5) (w.extractLsb' 0 2)))
  | 9#5 => zero (w.extractLsb' 7 4) (.ok (.fcmpNe (w.extractLsb' 21 5) (w.extractLsb' 16 5) (w.extractLsb' 11 5) (w.extractLsb' 0 2)))
  | 10#5 => zero (w.extractLsb' 7 4) (.ok (.fcmpLt (w.extractLsb' 21 5) (w.extractLsb' 16 5) (w.extractLsb' 11 5) (w.extractLsb' 0 2)))
  | 11#5 => zero (w.extractLsb' 7 4) (.ok (.fcmpLe (w.extractLsb' 21 5) (w.extractLsb' 16 5) (w.extractLsb' 11 5) (w.extractLsb' 0 2)))
  | 12#5 => zero (w.extractLsb' 7 4) (.ok (.fcmpGt (w.extractLsb' 21 5) (w.extractLsb' 16 5) (w.extractLsb' 11 5) (w.extractLsb' 0 2)))
  | 13#5 => zero (w.extractLsb' 7 4) (.ok (.fcmpGe (w.extractLsb' 21 5) (w.extractLsb' 16 5) (w.extractLsb' 11 5) (w.extractLsb' 0 2)))
  | 14#5 => zero (w.extractLsb' 7 9) (.ok (.fclass (w.extractLsb' 21 5) (w.extractLsb' 16 5) (w.extractLsb' 0 2)))
  | 16#5 => zero (w.extractLsb' 7 4) (.ok (.fcvt (w.extractLsb' 21 5) (w.extractLsb' 16 5) (w.extractLsb' 11 5) (w.extractLsb' 0 2)))
  | 17#5 => zero (w.extractLsb' 7 4) (.ok (.fcvtInt (w.extractLsb' 21 5) (w.extractLsb' 16 5) (w.extractLsb' 11 5) (w.extractLsb' 0 2)))
  | _ => .error .function

/-- Major 0x18: function code in bits [25:21]. -/
def decodeMajor18 (w : Half) : Decoded :=
  match w.extractLsb' 21 5 with
  | 0#5 => zero (w.extractLsb' 16 5) (.ok (.trap (w.extractLsb' 0 16)))
  | 1#5 => zero (w.extractLsb' 0 21) (.ok .eret)
  | 2#5 => zero (w.extractLsb' 12 4) (.ok (.csrr (w.extractLsb' 16 5) (w.extractLsb' 0 12)))
  | 3#5 => zero (w.extractLsb' 12 4) (.ok (.csrw (w.extractLsb' 16 5) (w.extractLsb' 0 12)))
  | 4#5 => zero (w.extractLsb' 12 4) (.ok (.csrs (w.extractLsb' 16 5) (w.extractLsb' 0 12)))
  | 5#5 => zero (w.extractLsb' 12 4) (.ok (.csrc (w.extractLsb' 16 5) (w.extractLsb' 0 12)))
  | 6#5 => 
    match w.extractLsb' 0 3 with
    | 0#3 => zero (w.extractLsb' 7 14) (zero (w.extractLsb' 3 1) (.ok (.fenceAcq (w.extractLsb' 4 3))))
    | 1#3 => zero (w.extractLsb' 7 14) (zero (w.extractLsb' 3 1) (.ok (.fenceRel (w.extractLsb' 4 3))))
    | 2#3 => zero (w.extractLsb' 7 14) (zero (w.extractLsb' 3 1) (.ok (.fenceFull (w.extractLsb' 4 3))))
    | 3#3 => zero (w.extractLsb' 3 18) (.ok .fenceSv)
    | 4#3 => zero (w.extractLsb' 7 14) (zero (w.extractLsb' 3 1) (.ok (.fenceIo (w.extractLsb' 4 3))))
    | _ => .error .function
  | 7#5 => zero (w.extractLsb' 16 5) (.ok (.bkpt (w.extractLsb' 0 16)))
  | 8#5 => zero (w.extractLsb' 0 4) (.ok (.icinv (w.extractLsb' 16 5) (w.extractLsb' 12 4) (w.extractLsb' 7 5) (w.extractLsb' 4 3)))
  | 9#5 => zero (w.extractLsb' 0 21) (.ok .idle)
  | 10#5 => zero (w.extractLsb' 0 12) (.ok (.ctxsave (w.extractLsb' 16 5) (w.extractLsb' 12 4)))
  | 11#5 => zero (w.extractLsb' 0 12) (.ok (.ctxrst (w.extractLsb' 16 5) (w.extractLsb' 12 4)))
  | 31#5 => zero (w.extractLsb' 14 7) (.ok (.poolHeader (w.extractLsb' 0 14)))
  | _ => .error .function

/-- Major 0x19: bit [15] selects `setvli`, bits [1:0] the others (R226). -/
def decodeMajor19 (w : Half) : Decoded :=
  if w.extractLsb' 15 1 = 1 then .ok (.setvli (w.extractLsb' 21 5) (w.extractLsb' 16 5) (w.extractLsb' 14 1) (w.extractLsb' 12 2) (w.extractLsb' 10 2) (w.extractLsb' 9 1) (w.extractLsb' 8 1) (w.extractLsb' 0 8))
  else match w.extractLsb' 0 2 with
  | 0#2 => zero (w.extractLsb' 2 7) (.ok (.setvl (w.extractLsb' 21 5) (w.extractLsb' 16 5) (w.extractLsb' 10 5) (w.extractLsb' 9 1)))
  | 1#2 => zero (w.extractLsb' 2 8) (.ok (.settl (w.extractLsb' 21 5) (w.extractLsb' 16 5) (w.extractLsb' 10 5)))
  | _ => .error .function

/-- Major 0x1A: function code in bits [1:0]. -/
def decodeMajor1A (w : Half) : Decoded :=
  match w.extractLsb' 0 2 with
  | 0#2 => zero (w.extractLsb' 11 5) (.ok (.vld (w.extractLsb' 21 5) (w.extractLsb' 16 5) (w.extractLsb' 8 3) (w.extractLsb' 7 1) (w.extractLsb' 6 1) (w.extractLsb' 2 4)))
  | 1#2 => zero (w.extractLsb' 11 5) (.ok (.vst (w.extractLsb' 21 5) (w.extractLsb' 16 5) (w.extractLsb' 8 3) (w.extractLsb' 7 1) (w.extractLsb' 6 1) (w.extractLsb' 2 4)))
  | 2#2 => zero (w.extractLsb' 6 10) (.ok (.mld (w.extractLsb' 21 5) (w.extractLsb' 16 5) (w.extractLsb' 2 4)))
  | 3#2 => zero (w.extractLsb' 6 10) (.ok (.mst (w.extractLsb' 21 5) (w.extractLsb' 16 5) (w.extractLsb' 2 4)))

/-- Major 0x1B: function code in bits [1:0]. -/
def decodeMajor1B (w : Half) : Decoded :=
  match w.extractLsb' 0 2 with
  | 0#2 => .ok (.vlds (w.extractLsb' 21 5) (w.extractLsb' 16 5) (w.extractLsb' 11 5) (w.extractLsb' 8 3) (w.extractLsb' 7 1) (w.extractLsb' 6 1) (w.extractLsb' 2 4))
  | 1#2 => .ok (.vsts (w.extractLsb' 21 5) (w.extractLsb' 16 5) (w.extractLsb' 11 5) (w.extractLsb' 8 3) (w.extractLsb' 7 1) (w.extractLsb' 6 1) (w.extractLsb' 2 4))
  | _ => .error .function

/-- Major 0x1C: bit 1 selects `vamo`, whose code's high bit is bit 0; else bit 0 selects load or store (R231). -/
def decodeMajor1C (w : Half) : Decoded :=
  if w.extractLsb' 1 1 = 1 then .ok (.vamo (w.extractLsb' 21 5) (w.extractLsb' 16 5) (w.extractLsb' 11 5) (w.extractLsb' 0 1 ++ w.extractLsb' 6 5) (w.extractLsb' 2 4))
  else match w.extractLsb' 0 2 with
  | 0#2 => .ok (.vldx (w.extractLsb' 21 5) (w.extractLsb' 16 5) (w.extractLsb' 11 5) (w.extractLsb' 8 3) (w.extractLsb' 7 1) (w.extractLsb' 6 1) (w.extractLsb' 2 4))
  | _ => .ok (.vstx (w.extractLsb' 21 5) (w.extractLsb' 16 5) (w.extractLsb' 11 5) (w.extractLsb' 8 3) (w.extractLsb' 7 1) (w.extractLsb' 6 1) (w.extractLsb' 2 4))

/-- Major 0x1D: function code in bits [4:0]. -/
def decodeMajor1D (w : Half) : Decoded :=
  match w.extractLsb' 0 5 with
  | 0#5 => .ok (.vaddVV (w.extractLsb' 21 5) (w.extractLsb' 16 5) (w.extractLsb' 11 5) (w.extractLsb' 8 3) (w.extractLsb' 7 1) (w.extractLsb' 6 1) (w.extractLsb' 5 1))
  | 1#5 => .ok (.vsubVV (w.extractLsb' 21 5) (w.extractLsb' 16 5) (w.extractLsb' 11 5) (w.extractLsb' 8 3) (w.extractLsb' 7 1) (w.extractLsb' 6 1) (w.extractLsb' 5 1))
  | 2#5 => .ok (.vrsubVV (w.extractLsb' 21 5) (w.extractLsb' 16 5) (w.extractLsb' 11 5) (w.extractLsb' 8 3) (w.extractLsb' 7 1) (w.extractLsb' 6 1) (w.extractLsb' 5 1))
  | 3#5 => zero (w.extractLsb' 7 1) (.ok (.vadcVV (w.extractLsb' 21 5) (w.extractLsb' 16 5) (w.extractLsb' 11 5) (w.extractLsb' 8 3) (w.extractLsb' 6 1) (w.extractLsb' 5 1)))
  | 4#5 => zero (w.extractLsb' 7 1) (.ok (.vsbcVV (w.extractLsb' 21 5) (w.extractLsb' 16 5) (w.extractLsb' 11 5) (w.extractLsb' 8 3) (w.extractLsb' 6 1) (w.extractLsb' 5 1)))
  | 5#5 => zero (w.extractLsb' 7 1) (.ok (.vmadcVV (w.extractLsb' 21 5) (w.extractLsb' 16 5) (w.extractLsb' 11 5) (w.extractLsb' 8 3) (w.extractLsb' 6 1) (w.extractLsb' 5 1)))
  | 6#5 => zero (w.extractLsb' 7 1) (.ok (.vmsbcVV (w.extractLsb' 21 5) (w.extractLsb' 16 5) (w.extractLsb' 11 5) (w.extractLsb' 8 3) (w.extractLsb' 6 1) (w.extractLsb' 5 1)))
  | 7#5 => .ok (.vandVV (w.extractLsb' 21 5) (w.extractLsb' 16 5) (w.extractLsb' 11 5) (w.extractLsb' 8 3) (w.extractLsb' 7 1) (w.extractLsb' 6 1) (w.extractLsb' 5 1))
  | 8#5 => .ok (.vorVV (w.extractLsb' 21 5) (w.extractLsb' 16 5) (w.extractLsb' 11 5) (w.extractLsb' 8 3) (w.extractLsb' 7 1) (w.extractLsb' 6 1) (w.extractLsb' 5 1))
  | 9#5 => .ok (.vxorVV (w.extractLsb' 21 5) (w.extractLsb' 16 5) (w.extractLsb' 11 5) (w.extractLsb' 8 3) (w.extractLsb' 7 1) (w.extractLsb' 6 1) (w.extractLsb' 5 1))
  | 10#5 => .ok (.vshlVV (w.extractLsb' 21 5) (w.extractLsb' 16 5) (w.extractLsb' 11 5) (w.extractLsb' 8 3) (w.extractLsb' 7 1) (w.extractLsb' 6 1) (w.extractLsb' 5 1))
  | 11#5 => .ok (.vshrVV (w.extractLsb' 21 5) (w.extractLsb' 16 5) (w.extractLsb' 11 5) (w.extractLsb' 8 3) (w.extractLsb' 7 1) (w.extractLsb' 6 1) (w.extractLsb' 5 1))
  | 12#5 => .ok (.vsraVV (w.extractLsb' 21 5) (w.extractLsb' 16 5) (w.extractLsb' 11 5) (w.extractLsb' 8 3) (w.extractLsb' 7 1) (w.extractLsb' 6 1) (w.extractLsb' 5 1))
  | 13#5 => .ok (.vmulVV (w.extractLsb' 21 5) (w.extractLsb' 16 5) (w.extractLsb' 11 5) (w.extractLsb' 8 3) (w.extractLsb' 7 1) (w.extractLsb' 6 1) (w.extractLsb' 5 1))
  | 14#5 => .ok (.vmulhVV (w.extractLsb' 21 5) (w.extractLsb' 16 5) (w.extractLsb' 11 5) (w.extractLsb' 8 3) (w.extractLsb' 7 1) (w.extractLsb' 6 1) (w.extractLsb' 5 1))
  | 15#5 => .ok (.vmulhuVV (w.extractLsb' 21 5) (w.extractLsb' 16 5) (w.extractLsb' 11 5) (w.extractLsb' 8 3) (w.extractLsb' 7 1) (w.extractLsb' 6 1) (w.extractLsb' 5 1))
  | 16#5 => .ok (.vminVV (w.extractLsb' 21 5) (w.extractLsb' 16 5) (w.extractLsb' 11 5) (w.extractLsb' 8 3) (w.extractLsb' 7 1) (w.extractLsb' 6 1) (w.extractLsb' 5 1))
  | 17#5 => .ok (.vmaxVV (w.extractLsb' 21 5) (w.extractLsb' 16 5) (w.extractLsb' 11 5) (w.extractLsb' 8 3) (w.extractLsb' 7 1) (w.extractLsb' 6 1) (w.extractLsb' 5 1))
  | 18#5 => .ok (.vminuVV (w.extractLsb' 21 5) (w.extractLsb' 16 5) (w.extractLsb' 11 5) (w.extractLsb' 8 3) (w.extractLsb' 7 1) (w.extractLsb' 6 1) (w.extractLsb' 5 1))
  | 19#5 => .ok (.vmaxuVV (w.extractLsb' 21 5) (w.extractLsb' 16 5) (w.extractLsb' 11 5) (w.extractLsb' 8 3) (w.extractLsb' 7 1) (w.extractLsb' 6 1) (w.extractLsb' 5 1))
  | 20#5 => zero (w.extractLsb' 7 1) (.ok (.vmergeVV (w.extractLsb' 21 5) (w.extractLsb' 16 5) (w.extractLsb' 11 5) (w.extractLsb' 8 3) (w.extractLsb' 6 1) (w.extractLsb' 5 1)))
  | 21#5 => zero (w.extractLsb' 16 5) (zero (w.extractLsb' 6 1) (.ok (.vmvVV (w.extractLsb' 21 5) (w.extractLsb' 11 5) (w.extractLsb' 8 3) (w.extractLsb' 7 1) (w.extractLsb' 5 1))))
  | 22#5 => .ok (.vcmpEqVV (w.extractLsb' 21 5) (w.extractLsb' 16 5) (w.extractLsb' 11 5) (w.extractLsb' 8 3) (w.extractLsb' 7 1) (w.extractLsb' 6 1) (w.extractLsb' 5 1))
  | 23#5 => .ok (.vcmpNeVV (w.extractLsb' 21 5) (w.extractLsb' 16 5) (w.extractLsb' 11 5) (w.extractLsb' 8 3) (w.extractLsb' 7 1) (w.extractLsb' 6 1) (w.extractLsb' 5 1))
  | 24#5 => .ok (.vcmpLtVV (w.extractLsb' 21 5) (w.extractLsb' 16 5) (w.extractLsb' 11 5) (w.extractLsb' 8 3) (w.extractLsb' 7 1) (w.extractLsb' 6 1) (w.extractLsb' 5 1))
  | 25#5 => .ok (.vcmpLtuVV (w.extractLsb' 21 5) (w.extractLsb' 16 5) (w.extractLsb' 11 5) (w.extractLsb' 8 3) (w.extractLsb' 7 1) (w.extractLsb' 6 1) (w.extractLsb' 5 1))
  | 26#5 => .ok (.vcmpLeVV (w.extractLsb' 21 5) (w.extractLsb' 16 5) (w.extractLsb' 11 5) (w.extractLsb' 8 3) (w.extractLsb' 7 1) (w.extractLsb' 6 1) (w.extractLsb' 5 1))
  | 27#5 => .ok (.vcmpLeuVV (w.extractLsb' 21 5) (w.extractLsb' 16 5) (w.extractLsb' 11 5) (w.extractLsb' 8 3) (w.extractLsb' 7 1) (w.extractLsb' 6 1) (w.extractLsb' 5 1))
  | 28#5 => .ok (.vcmpGtVV (w.extractLsb' 21 5) (w.extractLsb' 16 5) (w.extractLsb' 11 5) (w.extractLsb' 8 3) (w.extractLsb' 7 1) (w.extractLsb' 6 1) (w.extractLsb' 5 1))
  | 29#5 => .ok (.vcmpGtuVV (w.extractLsb' 21 5) (w.extractLsb' 16 5) (w.extractLsb' 11 5) (w.extractLsb' 8 3) (w.extractLsb' 7 1) (w.extractLsb' 6 1) (w.extractLsb' 5 1))
  | _ => .error .function

/-- Major 0x1E: function code in bits [4:0]. -/
def decodeMajor1E (w : Half) : Decoded :=
  match w.extractLsb' 0 5 with
  | 0#5 => zero (w.extractLsb' 5 1) (.ok (.vaddVX (w.extractLsb' 21 5) (w.extractLsb' 16 5) (w.extractLsb' 11 5) (w.extractLsb' 8 3) (w.extractLsb' 7 1) (w.extractLsb' 6 1)))
  | 1#5 => zero (w.extractLsb' 5 1) (.ok (.vsubVX (w.extractLsb' 21 5) (w.extractLsb' 16 5) (w.extractLsb' 11 5) (w.extractLsb' 8 3) (w.extractLsb' 7 1) (w.extractLsb' 6 1)))
  | 2#5 => zero (w.extractLsb' 5 1) (.ok (.vrsubVX (w.extractLsb' 21 5) (w.extractLsb' 16 5) (w.extractLsb' 11 5) (w.extractLsb' 8 3) (w.extractLsb' 7 1) (w.extractLsb' 6 1)))
  | 3#5 => zero (w.extractLsb' 7 1) (zero (w.extractLsb' 5 1) (.ok (.vadcVX (w.extractLsb' 21 5) (w.extractLsb' 16 5) (w.extractLsb' 11 5) (w.extractLsb' 8 3) (w.extractLsb' 6 1))))
  | 4#5 => zero (w.extractLsb' 7 1) (zero (w.extractLsb' 5 1) (.ok (.vsbcVX (w.extractLsb' 21 5) (w.extractLsb' 16 5) (w.extractLsb' 11 5) (w.extractLsb' 8 3) (w.extractLsb' 6 1))))
  | 5#5 => zero (w.extractLsb' 7 1) (zero (w.extractLsb' 5 1) (.ok (.vmadcVX (w.extractLsb' 21 5) (w.extractLsb' 16 5) (w.extractLsb' 11 5) (w.extractLsb' 8 3) (w.extractLsb' 6 1))))
  | 6#5 => zero (w.extractLsb' 7 1) (zero (w.extractLsb' 5 1) (.ok (.vmsbcVX (w.extractLsb' 21 5) (w.extractLsb' 16 5) (w.extractLsb' 11 5) (w.extractLsb' 8 3) (w.extractLsb' 6 1))))
  | 7#5 => zero (w.extractLsb' 5 1) (.ok (.vandVX (w.extractLsb' 21 5) (w.extractLsb' 16 5) (w.extractLsb' 11 5) (w.extractLsb' 8 3) (w.extractLsb' 7 1) (w.extractLsb' 6 1)))
  | 8#5 => zero (w.extractLsb' 5 1) (.ok (.vorVX (w.extractLsb' 21 5) (w.extractLsb' 16 5) (w.extractLsb' 11 5) (w.extractLsb' 8 3) (w.extractLsb' 7 1) (w.extractLsb' 6 1)))
  | 9#5 => zero (w.extractLsb' 5 1) (.ok (.vxorVX (w.extractLsb' 21 5) (w.extractLsb' 16 5) (w.extractLsb' 11 5) (w.extractLsb' 8 3) (w.extractLsb' 7 1) (w.extractLsb' 6 1)))
  | 10#5 => zero (w.extractLsb' 5 1) (.ok (.vshlVX (w.extractLsb' 21 5) (w.extractLsb' 16 5) (w.extractLsb' 11 5) (w.extractLsb' 8 3) (w.extractLsb' 7 1) (w.extractLsb' 6 1)))
  | 11#5 => zero (w.extractLsb' 5 1) (.ok (.vshrVX (w.extractLsb' 21 5) (w.extractLsb' 16 5) (w.extractLsb' 11 5) (w.extractLsb' 8 3) (w.extractLsb' 7 1) (w.extractLsb' 6 1)))
  | 12#5 => zero (w.extractLsb' 5 1) (.ok (.vsraVX (w.extractLsb' 21 5) (w.extractLsb' 16 5) (w.extractLsb' 11 5) (w.extractLsb' 8 3) (w.extractLsb' 7 1) (w.extractLsb' 6 1)))
  | 13#5 => zero (w.extractLsb' 5 1) (.ok (.vmulVX (w.extractLsb' 21 5) (w.extractLsb' 16 5) (w.extractLsb' 11 5) (w.extractLsb' 8 3) (w.extractLsb' 7 1) (w.extractLsb' 6 1)))
  | 14#5 => zero (w.extractLsb' 5 1) (.ok (.vmulhVX (w.extractLsb' 21 5) (w.extractLsb' 16 5) (w.extractLsb' 11 5) (w.extractLsb' 8 3) (w.extractLsb' 7 1) (w.extractLsb' 6 1)))
  | 15#5 => zero (w.extractLsb' 5 1) (.ok (.vmulhuVX (w.extractLsb' 21 5) (w.extractLsb' 16 5) (w.extractLsb' 11 5) (w.extractLsb' 8 3) (w.extractLsb' 7 1) (w.extractLsb' 6 1)))
  | 16#5 => zero (w.extractLsb' 5 1) (.ok (.vminVX (w.extractLsb' 21 5) (w.extractLsb' 16 5) (w.extractLsb' 11 5) (w.extractLsb' 8 3) (w.extractLsb' 7 1) (w.extractLsb' 6 1)))
  | 17#5 => zero (w.extractLsb' 5 1) (.ok (.vmaxVX (w.extractLsb' 21 5) (w.extractLsb' 16 5) (w.extractLsb' 11 5) (w.extractLsb' 8 3) (w.extractLsb' 7 1) (w.extractLsb' 6 1)))
  | 18#5 => zero (w.extractLsb' 5 1) (.ok (.vminuVX (w.extractLsb' 21 5) (w.extractLsb' 16 5) (w.extractLsb' 11 5) (w.extractLsb' 8 3) (w.extractLsb' 7 1) (w.extractLsb' 6 1)))
  | 19#5 => zero (w.extractLsb' 5 1) (.ok (.vmaxuVX (w.extractLsb' 21 5) (w.extractLsb' 16 5) (w.extractLsb' 11 5) (w.extractLsb' 8 3) (w.extractLsb' 7 1) (w.extractLsb' 6 1)))
  | 20#5 => zero (w.extractLsb' 7 1) (zero (w.extractLsb' 5 1) (.ok (.vmergeVX (w.extractLsb' 21 5) (w.extractLsb' 16 5) (w.extractLsb' 11 5) (w.extractLsb' 8 3) (w.extractLsb' 6 1))))
  | 21#5 => zero (w.extractLsb' 16 5) (zero (w.extractLsb' 5 2) (.ok (.vmvVX (w.extractLsb' 21 5) (w.extractLsb' 11 5) (w.extractLsb' 8 3) (w.extractLsb' 7 1))))
  | 22#5 => zero (w.extractLsb' 5 1) (.ok (.vcmpEqVX (w.extractLsb' 21 5) (w.extractLsb' 16 5) (w.extractLsb' 11 5) (w.extractLsb' 8 3) (w.extractLsb' 7 1) (w.extractLsb' 6 1)))
  | 23#5 => zero (w.extractLsb' 5 1) (.ok (.vcmpNeVX (w.extractLsb' 21 5) (w.extractLsb' 16 5) (w.extractLsb' 11 5) (w.extractLsb' 8 3) (w.extractLsb' 7 1) (w.extractLsb' 6 1)))
  | 24#5 => zero (w.extractLsb' 5 1) (.ok (.vcmpLtVX (w.extractLsb' 21 5) (w.extractLsb' 16 5) (w.extractLsb' 11 5) (w.extractLsb' 8 3) (w.extractLsb' 7 1) (w.extractLsb' 6 1)))
  | 25#5 => zero (w.extractLsb' 5 1) (.ok (.vcmpLtuVX (w.extractLsb' 21 5) (w.extractLsb' 16 5) (w.extractLsb' 11 5) (w.extractLsb' 8 3) (w.extractLsb' 7 1) (w.extractLsb' 6 1)))
  | 26#5 => zero (w.extractLsb' 5 1) (.ok (.vcmpLeVX (w.extractLsb' 21 5) (w.extractLsb' 16 5) (w.extractLsb' 11 5) (w.extractLsb' 8 3) (w.extractLsb' 7 1) (w.extractLsb' 6 1)))
  | 27#5 => zero (w.extractLsb' 5 1) (.ok (.vcmpLeuVX (w.extractLsb' 21 5) (w.extractLsb' 16 5) (w.extractLsb' 11 5) (w.extractLsb' 8 3) (w.extractLsb' 7 1) (w.extractLsb' 6 1)))
  | 28#5 => zero (w.extractLsb' 5 1) (.ok (.vcmpGtVX (w.extractLsb' 21 5) (w.extractLsb' 16 5) (w.extractLsb' 11 5) (w.extractLsb' 8 3) (w.extractLsb' 7 1) (w.extractLsb' 6 1)))
  | 29#5 => zero (w.extractLsb' 5 1) (.ok (.vcmpGtuVX (w.extractLsb' 21 5) (w.extractLsb' 16 5) (w.extractLsb' 11 5) (w.extractLsb' 8 3) (w.extractLsb' 7 1) (w.extractLsb' 6 1)))
  | _ => .error .function

/-- Major 0x1F: function code in bits [4:0]. -/
def decodeMajor1F (w : Half) : Decoded :=
  match w.extractLsb' 0 5 with
  | 0#5 => zero (w.extractLsb' 5 1) (.ok (.vaddVI (w.extractLsb' 21 5) (w.extractLsb' 16 5) (w.extractLsb' 11 5) (w.extractLsb' 8 3) (w.extractLsb' 7 1) (w.extractLsb' 6 1)))
  | 1#5 => zero (w.extractLsb' 5 1) (.ok (.vsubVI (w.extractLsb' 21 5) (w.extractLsb' 16 5) (w.extractLsb' 11 5) (w.extractLsb' 8 3) (w.extractLsb' 7 1) (w.extractLsb' 6 1)))
  | 2#5 => zero (w.extractLsb' 5 1) (.ok (.vrsubVI (w.extractLsb' 21 5) (w.extractLsb' 16 5) (w.extractLsb' 11 5) (w.extractLsb' 8 3) (w.extractLsb' 7 1) (w.extractLsb' 6 1)))
  | 3#5 => zero (w.extractLsb' 7 1) (zero (w.extractLsb' 5 1) (.ok (.vadcVI (w.extractLsb' 21 5) (w.extractLsb' 16 5) (w.extractLsb' 11 5) (w.extractLsb' 8 3) (w.extractLsb' 6 1))))
  | 4#5 => zero (w.extractLsb' 7 1) (zero (w.extractLsb' 5 1) (.ok (.vsbcVI (w.extractLsb' 21 5) (w.extractLsb' 16 5) (w.extractLsb' 11 5) (w.extractLsb' 8 3) (w.extractLsb' 6 1))))
  | 5#5 => zero (w.extractLsb' 7 1) (zero (w.extractLsb' 5 1) (.ok (.vmadcVI (w.extractLsb' 21 5) (w.extractLsb' 16 5) (w.extractLsb' 11 5) (w.extractLsb' 8 3) (w.extractLsb' 6 1))))
  | 6#5 => zero (w.extractLsb' 7 1) (zero (w.extractLsb' 5 1) (.ok (.vmsbcVI (w.extractLsb' 21 5) (w.extractLsb' 16 5) (w.extractLsb' 11 5) (w.extractLsb' 8 3) (w.extractLsb' 6 1))))
  | 7#5 => zero (w.extractLsb' 5 1) (.ok (.vandVI (w.extractLsb' 21 5) (w.extractLsb' 16 5) (w.extractLsb' 11 5) (w.extractLsb' 8 3) (w.extractLsb' 7 1) (w.extractLsb' 6 1)))
  | 8#5 => zero (w.extractLsb' 5 1) (.ok (.vorVI (w.extractLsb' 21 5) (w.extractLsb' 16 5) (w.extractLsb' 11 5) (w.extractLsb' 8 3) (w.extractLsb' 7 1) (w.extractLsb' 6 1)))
  | 9#5 => zero (w.extractLsb' 5 1) (.ok (.vxorVI (w.extractLsb' 21 5) (w.extractLsb' 16 5) (w.extractLsb' 11 5) (w.extractLsb' 8 3) (w.extractLsb' 7 1) (w.extractLsb' 6 1)))
  | 10#5 => zero (w.extractLsb' 5 1) (.ok (.vshlVI (w.extractLsb' 21 5) (w.extractLsb' 16 5) (w.extractLsb' 11 5) (w.extractLsb' 8 3) (w.extractLsb' 7 1) (w.extractLsb' 6 1)))
  | 11#5 => zero (w.extractLsb' 5 1) (.ok (.vshrVI (w.extractLsb' 21 5) (w.extractLsb' 16 5) (w.extractLsb' 11 5) (w.extractLsb' 8 3) (w.extractLsb' 7 1) (w.extractLsb' 6 1)))
  | 12#5 => zero (w.extractLsb' 5 1) (.ok (.vsraVI (w.extractLsb' 21 5) (w.extractLsb' 16 5) (w.extractLsb' 11 5) (w.extractLsb' 8 3) (w.extractLsb' 7 1) (w.extractLsb' 6 1)))
  | 13#5 => zero (w.extractLsb' 5 1) (.ok (.vmulVI (w.extractLsb' 21 5) (w.extractLsb' 16 5) (w.extractLsb' 11 5) (w.extractLsb' 8 3) (w.extractLsb' 7 1) (w.extractLsb' 6 1)))
  | 14#5 => zero (w.extractLsb' 5 1) (.ok (.vmulhVI (w.extractLsb' 21 5) (w.extractLsb' 16 5) (w.extractLsb' 11 5) (w.extractLsb' 8 3) (w.extractLsb' 7 1) (w.extractLsb' 6 1)))
  | 15#5 => zero (w.extractLsb' 5 1) (.ok (.vmulhuVI (w.extractLsb' 21 5) (w.extractLsb' 16 5) (w.extractLsb' 11 5) (w.extractLsb' 8 3) (w.extractLsb' 7 1) (w.extractLsb' 6 1)))
  | 16#5 => zero (w.extractLsb' 5 1) (.ok (.vminVI (w.extractLsb' 21 5) (w.extractLsb' 16 5) (w.extractLsb' 11 5) (w.extractLsb' 8 3) (w.extractLsb' 7 1) (w.extractLsb' 6 1)))
  | 17#5 => zero (w.extractLsb' 5 1) (.ok (.vmaxVI (w.extractLsb' 21 5) (w.extractLsb' 16 5) (w.extractLsb' 11 5) (w.extractLsb' 8 3) (w.extractLsb' 7 1) (w.extractLsb' 6 1)))
  | 18#5 => zero (w.extractLsb' 5 1) (.ok (.vminuVI (w.extractLsb' 21 5) (w.extractLsb' 16 5) (w.extractLsb' 11 5) (w.extractLsb' 8 3) (w.extractLsb' 7 1) (w.extractLsb' 6 1)))
  | 19#5 => zero (w.extractLsb' 5 1) (.ok (.vmaxuVI (w.extractLsb' 21 5) (w.extractLsb' 16 5) (w.extractLsb' 11 5) (w.extractLsb' 8 3) (w.extractLsb' 7 1) (w.extractLsb' 6 1)))
  | 20#5 => zero (w.extractLsb' 7 1) (zero (w.extractLsb' 5 1) (.ok (.vmergeVI (w.extractLsb' 21 5) (w.extractLsb' 16 5) (w.extractLsb' 11 5) (w.extractLsb' 8 3) (w.extractLsb' 6 1))))
  | 21#5 => zero (w.extractLsb' 16 5) (zero (w.extractLsb' 5 2) (.ok (.vmvVI (w.extractLsb' 21 5) (w.extractLsb' 11 5) (w.extractLsb' 8 3) (w.extractLsb' 7 1))))
  | 22#5 => zero (w.extractLsb' 5 1) (.ok (.vcmpEqVI (w.extractLsb' 21 5) (w.extractLsb' 16 5) (w.extractLsb' 11 5) (w.extractLsb' 8 3) (w.extractLsb' 7 1) (w.extractLsb' 6 1)))
  | 23#5 => zero (w.extractLsb' 5 1) (.ok (.vcmpNeVI (w.extractLsb' 21 5) (w.extractLsb' 16 5) (w.extractLsb' 11 5) (w.extractLsb' 8 3) (w.extractLsb' 7 1) (w.extractLsb' 6 1)))
  | 24#5 => zero (w.extractLsb' 5 1) (.ok (.vcmpLtVI (w.extractLsb' 21 5) (w.extractLsb' 16 5) (w.extractLsb' 11 5) (w.extractLsb' 8 3) (w.extractLsb' 7 1) (w.extractLsb' 6 1)))
  | 25#5 => zero (w.extractLsb' 5 1) (.ok (.vcmpLtuVI (w.extractLsb' 21 5) (w.extractLsb' 16 5) (w.extractLsb' 11 5) (w.extractLsb' 8 3) (w.extractLsb' 7 1) (w.extractLsb' 6 1)))
  | 26#5 => zero (w.extractLsb' 5 1) (.ok (.vcmpLeVI (w.extractLsb' 21 5) (w.extractLsb' 16 5) (w.extractLsb' 11 5) (w.extractLsb' 8 3) (w.extractLsb' 7 1) (w.extractLsb' 6 1)))
  | 27#5 => zero (w.extractLsb' 5 1) (.ok (.vcmpLeuVI (w.extractLsb' 21 5) (w.extractLsb' 16 5) (w.extractLsb' 11 5) (w.extractLsb' 8 3) (w.extractLsb' 7 1) (w.extractLsb' 6 1)))
  | 28#5 => zero (w.extractLsb' 5 1) (.ok (.vcmpGtVI (w.extractLsb' 21 5) (w.extractLsb' 16 5) (w.extractLsb' 11 5) (w.extractLsb' 8 3) (w.extractLsb' 7 1) (w.extractLsb' 6 1)))
  | 29#5 => zero (w.extractLsb' 5 1) (.ok (.vcmpGtuVI (w.extractLsb' 21 5) (w.extractLsb' 16 5) (w.extractLsb' 11 5) (w.extractLsb' 8 3) (w.extractLsb' 7 1) (w.extractLsb' 6 1)))
  | _ => .error .function

/-- Major 0x20: function code in bits [4:0]. -/
def decodeMajor20 (w : Half) : Decoded :=
  match w.extractLsb' 0 5 with
  | 0#5 => zero (w.extractLsb' 5 1) (.ok (.vslupVX (w.extractLsb' 21 5) (w.extractLsb' 16 5) (w.extractLsb' 11 5) (w.extractLsb' 8 3) (w.extractLsb' 7 1) (w.extractLsb' 6 1)))
  | 1#5 => zero (w.extractLsb' 5 1) (.ok (.vslupVI (w.extractLsb' 21 5) (w.extractLsb' 16 5) (w.extractLsb' 11 5) (w.extractLsb' 8 3) (w.extractLsb' 7 1) (w.extractLsb' 6 1)))
  | 2#5 => zero (w.extractLsb' 5 1) (.ok (.vsldnVX (w.extractLsb' 21 5) (w.extractLsb' 16 5) (w.extractLsb' 11 5) (w.extractLsb' 8 3) (w.extractLsb' 7 1) (w.extractLsb' 6 1)))
  | 3#5 => zero (w.extractLsb' 5 1) (.ok (.vsldnVI (w.extractLsb' 21 5) (w.extractLsb' 16 5) (w.extractLsb' 11 5) (w.extractLsb' 8 3) (w.extractLsb' 7 1) (w.extractLsb' 6 1)))
  | 4#5 => zero (w.extractLsb' 5 1) (.ok (.vsl1up (w.extractLsb' 21 5) (w.extractLsb' 16 5) (w.extractLsb' 11 5) (w.extractLsb' 8 3) (w.extractLsb' 7 1) (w.extractLsb' 6 1)))
  | 5#5 => zero (w.extractLsb' 5 1) (.ok (.vsl1dn (w.extractLsb' 21 5) (w.extractLsb' 16 5) (w.extractLsb' 11 5) (w.extractLsb' 8 3) (w.extractLsb' 7 1) (w.extractLsb' 6 1)))
  | 6#5 => .ok (.vperm (w.extractLsb' 21 5) (w.extractLsb' 16 5) (w.extractLsb' 11 5) (w.extractLsb' 8 3) (w.extractLsb' 7 1) (w.extractLsb' 6 1) (w.extractLsb' 5 1))
  | 7#5 => zero (w.extractLsb' 11 5) (zero (w.extractLsb' 7 1) (zero (w.extractLsb' 5 1) (.ok (.vcompress (w.extractLsb' 21 5) (w.extractLsb' 16 5) (w.extractLsb' 8 3) (w.extractLsb' 6 1)))))
  | 8#5 => zero (w.extractLsb' 11 10) (zero (w.extractLsb' 5 3) (.ok (.viota (w.extractLsb' 21 5) (w.extractLsb' 8 3))))
  | 9#5 => zero (w.extractLsb' 11 10) (zero (w.extractLsb' 5 2) (.ok (.vid (w.extractLsb' 21 5) (w.extractLsb' 8 3) (w.extractLsb' 7 1))))
  | 10#5 => .ok (.vwadd (w.extractLsb' 21 5) (w.extractLsb' 16 5) (w.extractLsb' 11 5) (w.extractLsb' 8 3) (w.extractLsb' 7 1) (w.extractLsb' 6 1) (w.extractLsb' 5 1))
  | 11#5 => .ok (.vwaddu (w.extractLsb' 21 5) (w.extractLsb' 16 5) (w.extractLsb' 11 5) (w.extractLsb' 8 3) (w.extractLsb' 7 1) (w.extractLsb' 6 1) (w.extractLsb' 5 1))
  | 12#5 => .ok (.vwmul (w.extractLsb' 21 5) (w.extractLsb' 16 5) (w.extractLsb' 11 5) (w.extractLsb' 8 3) (w.extractLsb' 7 1) (w.extractLsb' 6 1) (w.extractLsb' 5 1))
  | 13#5 => .ok (.vwmulu (w.extractLsb' 21 5) (w.extractLsb' 16 5) (w.extractLsb' 11 5) (w.extractLsb' 8 3) (w.extractLsb' 7 1) (w.extractLsb' 6 1) (w.extractLsb' 5 1))
  | 14#5 => zero (w.extractLsb' 5 1) (.ok (.vnshrVX (w.extractLsb' 21 5) (w.extractLsb' 16 5) (w.extractLsb' 11 5) (w.extractLsb' 8 3) (w.extractLsb' 7 1) (w.extractLsb' 6 1)))
  | 15#5 => zero (w.extractLsb' 5 1) (.ok (.vnshrVI (w.extractLsb' 21 5) (w.extractLsb' 16 5) (w.extractLsb' 11 5) (w.extractLsb' 8 3) (w.extractLsb' 7 1) (w.extractLsb' 6 1)))
  | 16#5 => zero (w.extractLsb' 5 1) (.ok (.vnsraVX (w.extractLsb' 21 5) (w.extractLsb' 16 5) (w.extractLsb' 11 5) (w.extractLsb' 8 3) (w.extractLsb' 7 1) (w.extractLsb' 6 1)))
  | 17#5 => zero (w.extractLsb' 5 1) (.ok (.vnsraVI (w.extractLsb' 21 5) (w.extractLsb' 16 5) (w.extractLsb' 11 5) (w.extractLsb' 8 3) (w.extractLsb' 7 1) (w.extractLsb' 6 1)))
  | 18#5 => zero (w.extractLsb' 11 5) (zero (w.extractLsb' 5 1) (.ok (.vextS2 (w.extractLsb' 21 5) (w.extractLsb' 16 5) (w.extractLsb' 8 3) (w.extractLsb' 7 1) (w.extractLsb' 6 1))))
  | 19#5 => zero (w.extractLsb' 11 5) (zero (w.extractLsb' 5 1) (.ok (.vextS4 (w.extractLsb' 21 5) (w.extractLsb' 16 5) (w.extractLsb' 8 3) (w.extractLsb' 7 1) (w.extractLsb' 6 1))))
  | 20#5 => zero (w.extractLsb' 11 5) (zero (w.extractLsb' 5 1) (.ok (.vextZ2 (w.extractLsb' 21 5) (w.extractLsb' 16 5) (w.extractLsb' 8 3) (w.extractLsb' 7 1) (w.extractLsb' 6 1))))
  | 21#5 => zero (w.extractLsb' 11 5) (zero (w.extractLsb' 5 1) (.ok (.vextZ4 (w.extractLsb' 21 5) (w.extractLsb' 16 5) (w.extractLsb' 8 3) (w.extractLsb' 7 1) (w.extractLsb' 6 1))))
  | 22#5 => zero (w.extractLsb' 5 1) (.ok (.vlastx (w.extractLsb' 21 5) (w.extractLsb' 16 5) (w.extractLsb' 11 5) (w.extractLsb' 7 4) (w.extractLsb' 6 1)))
  | _ => .error .function

/-- Major 0x21: function code in bits [4:0]. -/
noncomputable def decodeMajor21 (w : Half) : Decoded :=
  match w.extractLsb' 0 5 with
  | 0#5 => zero (w.extractLsb' 5 6) (.ok (.mand (w.extractLsb' 21 5) (w.extractLsb' 16 5) (w.extractLsb' 11 5)))
  | 1#5 => zero (w.extractLsb' 5 6) (.ok (.mor (w.extractLsb' 21 5) (w.extractLsb' 16 5) (w.extractLsb' 11 5)))
  | 2#5 => zero (w.extractLsb' 5 6) (.ok (.mxor (w.extractLsb' 21 5) (w.extractLsb' 16 5) (w.extractLsb' 11 5)))
  | 3#5 => zero (w.extractLsb' 5 6) (.ok (.mandn (w.extractLsb' 21 5) (w.extractLsb' 16 5) (w.extractLsb' 11 5)))
  | 4#5 => zero (w.extractLsb' 5 6) (.ok (.mshl (w.extractLsb' 21 5) (w.extractLsb' 16 5) (w.extractLsb' 11 5)))
  | 5#5 => zero (w.extractLsb' 11 5) (zero (w.extractLsb' 5 2) (.ok (.mpopc (w.extractLsb' 21 5) (w.extractLsb' 16 5) (w.extractLsb' 7 4))))
  | 6#5 => zero (w.extractLsb' 11 5) (zero (w.extractLsb' 5 2) (.ok (.mfirst (w.extractLsb' 21 5) (w.extractLsb' 16 5) (w.extractLsb' 7 4))))
  | 7#5 => zero (w.extractLsb' 11 5) (zero (w.extractLsb' 5 2) (.ok (.mlast (w.extractLsb' 21 5) (w.extractLsb' 16 5) (w.extractLsb' 7 4))))
  | 8#5 => zero (w.extractLsb' 5 1) (.ok (.vmvx (w.extractLsb' 21 5) (w.extractLsb' 16 5) (w.extractLsb' 11 5) (w.extractLsb' 7 4) (w.extractLsb' 6 1)))
  | 9#5 => zero (w.extractLsb' 5 11) (.ok (.vmvsx (w.extractLsb' 21 5) (w.extractLsb' 16 5)))
  | 10#5 => .ok (.vredSum (w.extractLsb' 21 5) (w.extractLsb' 16 5) (w.extractLsb' 11 5) (w.extractLsb' 8 3) (w.extractLsb' 7 1) (w.extractLsb' 6 1) (w.extractLsb' 5 1))
  | 11#5 => .ok (.vredAnd (w.extractLsb' 21 5) (w.extractLsb' 16 5) (w.extractLsb' 11 5) (w.extractLsb' 8 3) (w.extractLsb' 7 1) (w.extractLsb' 6 1) (w.extractLsb' 5 1))
  | 12#5 => .ok (.vredOr (w.extractLsb' 21 5) (w.extractLsb' 16 5) (w.extractLsb' 11 5) (w.extractLsb' 8 3) (w.extractLsb' 7 1) (w.extractLsb' 6 1) (w.extractLsb' 5 1))
  | 13#5 => .ok (.vredXor (w.extractLsb' 21 5) (w.extractLsb' 16 5) (w.extractLsb' 11 5) (w.extractLsb' 8 3) (w.extractLsb' 7 1) (w.extractLsb' 6 1) (w.extractLsb' 5 1))
  | 14#5 => .ok (.vredMin (w.extractLsb' 21 5) (w.extractLsb' 16 5) (w.extractLsb' 11 5) (w.extractLsb' 8 3) (w.extractLsb' 7 1) (w.extractLsb' 6 1) (w.extractLsb' 5 1))
  | 15#5 => .ok (.vredMax (w.extractLsb' 21 5) (w.extractLsb' 16 5) (w.extractLsb' 11 5) (w.extractLsb' 8 3) (w.extractLsb' 7 1) (w.extractLsb' 6 1) (w.extractLsb' 5 1))
  | 16#5 => .ok (.vredMinu (w.extractLsb' 21 5) (w.extractLsb' 16 5) (w.extractLsb' 11 5) (w.extractLsb' 8 3) (w.extractLsb' 7 1) (w.extractLsb' 6 1) (w.extractLsb' 5 1))
  | 17#5 => .ok (.vredMaxu (w.extractLsb' 21 5) (w.extractLsb' 16 5) (w.extractLsb' 11 5) (w.extractLsb' 8 3) (w.extractLsb' 7 1) (w.extractLsb' 6 1) (w.extractLsb' 5 1))
  | _ => .error .function

/-- Major 0x22: function code in bits [4:0]. -/
noncomputable def decodeMajor22 (w : Half) : Decoded :=
  match w.extractLsb' 0 5 with
  | 0#5 => .ok (.vfaddVV (w.extractLsb' 21 5) (w.extractLsb' 16 5) (w.extractLsb' 11 5) (w.extractLsb' 8 3) (w.extractLsb' 7 1) (w.extractLsb' 6 1) (w.extractLsb' 5 1))
  | 1#5 => .ok (.vfsubVV (w.extractLsb' 21 5) (w.extractLsb' 16 5) (w.extractLsb' 11 5) (w.extractLsb' 8 3) (w.extractLsb' 7 1) (w.extractLsb' 6 1) (w.extractLsb' 5 1))
  | 2#5 => .ok (.vfmulVV (w.extractLsb' 21 5) (w.extractLsb' 16 5) (w.extractLsb' 11 5) (w.extractLsb' 8 3) (w.extractLsb' 7 1) (w.extractLsb' 6 1) (w.extractLsb' 5 1))
  | 3#5 => .ok (.vfmaVV (w.extractLsb' 21 5) (w.extractLsb' 16 5) (w.extractLsb' 11 5) (w.extractLsb' 8 3) (w.extractLsb' 7 1) (w.extractLsb' 6 1) (w.extractLsb' 5 1))
  | 4#5 => .ok (.vfdivVV (w.extractLsb' 21 5) (w.extractLsb' 16 5) (w.extractLsb' 11 5) (w.extractLsb' 8 3) (w.extractLsb' 7 1) (w.extractLsb' 6 1) (w.extractLsb' 5 1))
  | 5#5 => zero (w.extractLsb' 11 5) (zero (w.extractLsb' 5 1) (.ok (.vfsqrt (w.extractLsb' 21 5) (w.extractLsb' 16 5) (w.extractLsb' 8 3) (w.extractLsb' 7 1) (w.extractLsb' 6 1))))
  | 6#5 => .ok (.vfminVV (w.extractLsb' 21 5) (w.extractLsb' 16 5) (w.extractLsb' 11 5) (w.extractLsb' 8 3) (w.extractLsb' 7 1) (w.extractLsb' 6 1) (w.extractLsb' 5 1))
  | 7#5 => .ok (.vfmaxVV (w.extractLsb' 21 5) (w.extractLsb' 16 5) (w.extractLsb' 11 5) (w.extractLsb' 8 3) (w.extractLsb' 7 1) (w.extractLsb' 6 1) (w.extractLsb' 5 1))
  | 8#5 => .ok (.vfcmpEqVV (w.extractLsb' 21 5) (w.extractLsb' 16 5) (w.extractLsb' 11 5) (w.extractLsb' 8 3) (w.extractLsb' 7 1) (w.extractLsb' 6 1) (w.extractLsb' 5 1))
  | 9#5 => .ok (.vfcmpNeVV (w.extractLsb' 21 5) (w.extractLsb' 16 5) (w.extractLsb' 11 5) (w.extractLsb' 8 3) (w.extractLsb' 7 1) (w.extractLsb' 6 1) (w.extractLsb' 5 1))
  | 10#5 => .ok (.vfcmpLtVV (w.extractLsb' 21 5) (w.extractLsb' 16 5) (w.extractLsb' 11 5) (w.extractLsb' 8 3) (w.extractLsb' 7 1) (w.extractLsb' 6 1) (w.extractLsb' 5 1))
  | 11#5 => .ok (.vfcmpLeVV (w.extractLsb' 21 5) (w.extractLsb' 16 5) (w.extractLsb' 11 5) (w.extractLsb' 8 3) (w.extractLsb' 7 1) (w.extractLsb' 6 1) (w.extractLsb' 5 1))
  | 12#5 => .ok (.vfcmpGtVV (w.extractLsb' 21 5) (w.extractLsb' 16 5) (w.extractLsb' 11 5) (w.extractLsb' 8 3) (w.extractLsb' 7 1) (w.extractLsb' 6 1) (w.extractLsb' 5 1))
  | 13#5 => .ok (.vfcmpGeVV (w.extractLsb' 21 5) (w.extractLsb' 16 5) (w.extractLsb' 11 5) (w.extractLsb' 8 3) (w.extractLsb' 7 1) (w.extractLsb' 6 1) (w.extractLsb' 5 1))
  | 14#5 => .ok (.vfaddBfVV (w.extractLsb' 21 5) (w.extractLsb' 16 5) (w.extractLsb' 11 5) (w.extractLsb' 8 3) (w.extractLsb' 7 1) (w.extractLsb' 6 1) (w.extractLsb' 5 1))
  | 15#5 => .ok (.vfsubBfVV (w.extractLsb' 21 5) (w.extractLsb' 16 5) (w.extractLsb' 11 5) (w.extractLsb' 8 3) (w.extractLsb' 7 1) (w.extractLsb' 6 1) (w.extractLsb' 5 1))
  | 16#5 => .ok (.vfmulBfVV (w.extractLsb' 21 5) (w.extractLsb' 16 5) (w.extractLsb' 11 5) (w.extractLsb' 8 3) (w.extractLsb' 7 1) (w.extractLsb' 6 1) (w.extractLsb' 5 1))
  | 17#5 => .ok (.vfmaBfVV (w.extractLsb' 21 5) (w.extractLsb' 16 5) (w.extractLsb' 11 5) (w.extractLsb' 8 3) (w.extractLsb' 7 1) (w.extractLsb' 6 1) (w.extractLsb' 5 1))
  | 18#5 => zero (w.extractLsb' 15 1) (zero (w.extractLsb' 5 1) (.ok (.vfcvt (w.extractLsb' 21 5) (w.extractLsb' 16 5) (w.extractLsb' 14 1) (w.extractLsb' 11 3) (w.extractLsb' 8 3) (w.extractLsb' 7 1) (w.extractLsb' 6 1))))
  | 19#5 => .ok (.vfredo (w.extractLsb' 21 5) (w.extractLsb' 16 5) (w.extractLsb' 11 5) (w.extractLsb' 8 3) (w.extractLsb' 7 1) (w.extractLsb' 6 1) (w.extractLsb' 5 1))
  | 20#5 => .ok (.vfredSum (w.extractLsb' 21 5) (w.extractLsb' 16 5) (w.extractLsb' 11 5) (w.extractLsb' 8 3) (w.extractLsb' 7 1) (w.extractLsb' 6 1) (w.extractLsb' 5 1))
  | 21#5 => .ok (.vfredMin (w.extractLsb' 21 5) (w.extractLsb' 16 5) (w.extractLsb' 11 5) (w.extractLsb' 8 3) (w.extractLsb' 7 1) (w.extractLsb' 6 1) (w.extractLsb' 5 1))
  | 22#5 => .ok (.vfredMax (w.extractLsb' 21 5) (w.extractLsb' 16 5) (w.extractLsb' 11 5) (w.extractLsb' 8 3) (w.extractLsb' 7 1) (w.extractLsb' 6 1) (w.extractLsb' 5 1))
  | 23#5 => .ok (.vfpot (w.extractLsb' 21 5) (w.extractLsb' 16 5) (w.extractLsb' 11 5) (w.extractLsb' 8 3) (w.extractLsb' 7 1) (w.extractLsb' 6 1) (w.extractLsb' 5 1))
  | _ => .error .function

/-- Major 0x23: function code in bits [4:0]. -/
noncomputable def decodeMajor23 (w : Half) : Decoded :=
  match w.extractLsb' 0 5 with
  | 0#5 => zero (w.extractLsb' 5 1) (.ok (.vfaddVX (w.extractLsb' 21 5) (w.extractLsb' 16 5) (w.extractLsb' 11 5) (w.extractLsb' 8 3) (w.extractLsb' 7 1) (w.extractLsb' 6 1)))
  | 1#5 => zero (w.extractLsb' 5 1) (.ok (.vfsubVX (w.extractLsb' 21 5) (w.extractLsb' 16 5) (w.extractLsb' 11 5) (w.extractLsb' 8 3) (w.extractLsb' 7 1) (w.extractLsb' 6 1)))
  | 2#5 => zero (w.extractLsb' 5 1) (.ok (.vfmulVX (w.extractLsb' 21 5) (w.extractLsb' 16 5) (w.extractLsb' 11 5) (w.extractLsb' 8 3) (w.extractLsb' 7 1) (w.extractLsb' 6 1)))
  | 3#5 => zero (w.extractLsb' 5 1) (.ok (.vfmaVX (w.extractLsb' 21 5) (w.extractLsb' 16 5) (w.extractLsb' 11 5) (w.extractLsb' 8 3) (w.extractLsb' 7 1) (w.extractLsb' 6 1)))
  | 4#5 => zero (w.extractLsb' 5 1) (.ok (.vfdivVX (w.extractLsb' 21 5) (w.extractLsb' 16 5) (w.extractLsb' 11 5) (w.extractLsb' 8 3) (w.extractLsb' 7 1) (w.extractLsb' 6 1)))
  | 6#5 => zero (w.extractLsb' 5 1) (.ok (.vfminVX (w.extractLsb' 21 5) (w.extractLsb' 16 5) (w.extractLsb' 11 5) (w.extractLsb' 8 3) (w.extractLsb' 7 1) (w.extractLsb' 6 1)))
  | 7#5 => zero (w.extractLsb' 5 1) (.ok (.vfmaxVX (w.extractLsb' 21 5) (w.extractLsb' 16 5) (w.extractLsb' 11 5) (w.extractLsb' 8 3) (w.extractLsb' 7 1) (w.extractLsb' 6 1)))
  | 8#5 => zero (w.extractLsb' 5 1) (.ok (.vfcmpEqVX (w.extractLsb' 21 5) (w.extractLsb' 16 5) (w.extractLsb' 11 5) (w.extractLsb' 8 3) (w.extractLsb' 7 1) (w.extractLsb' 6 1)))
  | 9#5 => zero (w.extractLsb' 5 1) (.ok (.vfcmpNeVX (w.extractLsb' 21 5) (w.extractLsb' 16 5) (w.extractLsb' 11 5) (w.extractLsb' 8 3) (w.extractLsb' 7 1) (w.extractLsb' 6 1)))
  | 10#5 => zero (w.extractLsb' 5 1) (.ok (.vfcmpLtVX (w.extractLsb' 21 5) (w.extractLsb' 16 5) (w.extractLsb' 11 5) (w.extractLsb' 8 3) (w.extractLsb' 7 1) (w.extractLsb' 6 1)))
  | 11#5 => zero (w.extractLsb' 5 1) (.ok (.vfcmpLeVX (w.extractLsb' 21 5) (w.extractLsb' 16 5) (w.extractLsb' 11 5) (w.extractLsb' 8 3) (w.extractLsb' 7 1) (w.extractLsb' 6 1)))
  | 12#5 => zero (w.extractLsb' 5 1) (.ok (.vfcmpGtVX (w.extractLsb' 21 5) (w.extractLsb' 16 5) (w.extractLsb' 11 5) (w.extractLsb' 8 3) (w.extractLsb' 7 1) (w.extractLsb' 6 1)))
  | 13#5 => zero (w.extractLsb' 5 1) (.ok (.vfcmpGeVX (w.extractLsb' 21 5) (w.extractLsb' 16 5) (w.extractLsb' 11 5) (w.extractLsb' 8 3) (w.extractLsb' 7 1) (w.extractLsb' 6 1)))
  | 14#5 => zero (w.extractLsb' 5 1) (.ok (.vfaddBfVX (w.extractLsb' 21 5) (w.extractLsb' 16 5) (w.extractLsb' 11 5) (w.extractLsb' 8 3) (w.extractLsb' 7 1) (w.extractLsb' 6 1)))
  | 15#5 => zero (w.extractLsb' 5 1) (.ok (.vfsubBfVX (w.extractLsb' 21 5) (w.extractLsb' 16 5) (w.extractLsb' 11 5) (w.extractLsb' 8 3) (w.extractLsb' 7 1) (w.extractLsb' 6 1)))
  | 16#5 => zero (w.extractLsb' 5 1) (.ok (.vfmulBfVX (w.extractLsb' 21 5) (w.extractLsb' 16 5) (w.extractLsb' 11 5) (w.extractLsb' 8 3) (w.extractLsb' 7 1) (w.extractLsb' 6 1)))
  | 17#5 => zero (w.extractLsb' 5 1) (.ok (.vfmaBfVX (w.extractLsb' 21 5) (w.extractLsb' 16 5) (w.extractLsb' 11 5) (w.extractLsb' 8 3) (w.extractLsb' 7 1) (w.extractLsb' 6 1)))
  | _ => .error .function

/-- Major 0x24: function code in bits [4:0]. -/
noncomputable def decodeMajor24 (w : Half) : Decoded :=
  match w.extractLsb' 0 5 with
  | 0#5 => .ok (.vmaddVV (w.extractLsb' 21 5) (w.extractLsb' 16 5) (w.extractLsb' 11 5) (w.extractLsb' 8 3) (w.extractLsb' 7 1) (w.extractLsb' 6 1) (w.extractLsb' 5 1))
  | 1#5 => .ok (.vmsubVV (w.extractLsb' 21 5) (w.extractLsb' 16 5) (w.extractLsb' 11 5) (w.extractLsb' 8 3) (w.extractLsb' 7 1) (w.extractLsb' 6 1) (w.extractLsb' 5 1))
  | 2#5 => .ok (.vmmulVV (w.extractLsb' 21 5) (w.extractLsb' 16 5) (w.extractLsb' 11 5) (w.extractLsb' 8 3) (w.extractLsb' 7 1) (w.extractLsb' 6 1) (w.extractLsb' 5 1))
  | 3#5 => .ok (.vmmacVV (w.extractLsb' 21 5) (w.extractLsb' 16 5) (w.extractLsb' 11 5) (w.extractLsb' 8 3) (w.extractLsb' 7 1) (w.extractLsb' 6 1) (w.extractLsb' 5 1))
  | 4#5 => zero (w.extractLsb' 5 1) (.ok (.vmaddVX (w.extractLsb' 21 5) (w.extractLsb' 16 5) (w.extractLsb' 11 5) (w.extractLsb' 8 3) (w.extractLsb' 7 1) (w.extractLsb' 6 1)))
  | 5#5 => zero (w.extractLsb' 5 1) (.ok (.vmsubVX (w.extractLsb' 21 5) (w.extractLsb' 16 5) (w.extractLsb' 11 5) (w.extractLsb' 8 3) (w.extractLsb' 7 1) (w.extractLsb' 6 1)))
  | 6#5 => zero (w.extractLsb' 5 1) (.ok (.vmmulVX (w.extractLsb' 21 5) (w.extractLsb' 16 5) (w.extractLsb' 11 5) (w.extractLsb' 8 3) (w.extractLsb' 7 1) (w.extractLsb' 6 1)))
  | 7#5 => zero (w.extractLsb' 5 1) (.ok (.vmmacVX (w.extractLsb' 21 5) (w.extractLsb' 16 5) (w.extractLsb' 11 5) (w.extractLsb' 8 3) (w.extractLsb' 7 1) (w.extractLsb' 6 1)))
  | 8#5 => .ok (.vbfly (w.extractLsb' 21 5) (w.extractLsb' 16 5) (w.extractLsb' 11 5) (w.extractLsb' 8 3) (w.extractLsb' 7 1) (w.extractLsb' 6 1) (w.extractLsb' 5 1))
  | 9#5 => .ok (.vibfly (w.extractLsb' 21 5) (w.extractLsb' 16 5) (w.extractLsb' 11 5) (w.extractLsb' 8 3) (w.extractLsb' 7 1) (w.extractLsb' 6 1) (w.extractLsb' 5 1))
  | 10#5 => zero (w.extractLsb' 7 4) (zero (w.extractLsb' 5 1) (.ok (.vntt (w.extractLsb' 21 5) (w.extractLsb' 16 5) (w.extractLsb' 11 5) (w.extractLsb' 6 1))))
  | 11#5 => zero (w.extractLsb' 7 4) (zero (w.extractLsb' 5 1) (.ok (.vintt (w.extractLsb' 21 5) (w.extractLsb' 16 5) (w.extractLsb' 11 5) (w.extractLsb' 6 1))))
  | 12#5 => zero (w.extractLsb' 7 4) (zero (w.extractLsb' 5 1) (.ok (.vauto (w.extractLsb' 21 5) (w.extractLsb' 16 5) (w.extractLsb' 11 5) (w.extractLsb' 6 1))))
  | 13#5 => zero (w.extractLsb' 5 1) (.ok (.vdigit (w.extractLsb' 21 5) (w.extractLsb' 16 5) (w.extractLsb' 11 5) (w.extractLsb' 8 3) (w.extractLsb' 7 1) (w.extractLsb' 6 1)))
  | 14#5 => zero (w.extractLsb' 21 5) (zero (w.extractLsb' 11 5) (zero (w.extractLsb' 5 2) (.ok (.mtld (w.extractLsb' 16 5) (w.extractLsb' 7 4)))))
  | _ => .error .function

/-- Major 0x25: function code in bits [6:0]. -/
noncomputable def decodeMajor25 (w : Half) : Decoded :=
  match w.extractLsb' 0 7 with
  | 0#7 => zero (w.extractLsb' 7 14) (.ok (.tzero (w.extractLsb' 21 5)))
  | 1#7 => .ok (.tld (w.extractLsb' 21 5) (w.extractLsb' 16 5) (w.extractLsb' 11 5) (w.extractLsb' 7 4))
  | 2#7 => .ok (.tst (w.extractLsb' 21 5) (w.extractLsb' 16 5) (w.extractLsb' 11 5) (w.extractLsb' 7 4))
  | 3#7 => zero (w.extractLsb' 7 4) (.ok (.tmma (w.extractLsb' 21 5) (w.extractLsb' 16 5) (w.extractLsb' 11 5)))
  | 4#7 => zero (w.extractLsb' 7 4) (.ok (.tmvr (w.extractLsb' 21 5) (w.extractLsb' 16 5) (w.extractLsb' 11 5)))
  | _ => .error .function

/-- Major 0x26: function code in bits [6:0]. -/
noncomputable def decodeMajor26 (w : Half) : Decoded :=
  match w.extractLsb' 0 7 with
  | 0#7 => zero (w.extractLsb' 11 5) (.ok (.copy (w.extractLsb' 21 5) (w.extractLsb' 16 5) (w.extractLsb' 7 4)))
  | 1#7 => zero (w.extractLsb' 21 5) (zero (w.extractLsb' 11 5) (.ok (.copyn (w.extractLsb' 16 5) (w.extractLsb' 7 4))))
  | 2#7 => zero (w.extractLsb' 16 5) (.ok (.epop (w.extractLsb' 21 5) (w.extractLsb' 11 5) (w.extractLsb' 7 4)))
  | 3#7 => zero (w.extractLsb' 21 5) (zero (w.extractLsb' 14 2) (.ok (.bar (w.extractLsb' 16 5) (w.extractLsb' 11 3) (w.extractLsb' 7 4))))
  | _ => .error .function

/-- Major 0x27: function code in bits [6:0]. -/
noncomputable def decodeMajor27 (w : Half) : Decoded :=
  match w.extractLsb' 0 7 with
  | 0#7 => zero (w.extractLsb' 11 10) (.ok (.slopen (w.extractLsb' 21 5) (w.extractLsb' 7 4)))
  | 1#7 => zero (w.extractLsb' 21 5) (.ok (.slsend (w.extractLsb' 16 5) (w.extractLsb' 11 5) (w.extractLsb' 7 4)))
  | 2#7 => zero (w.extractLsb' 11 5) (.ok (.slrecv (w.extractLsb' 21 5) (w.extractLsb' 16 5) (w.extractLsb' 7 4)))
  | 3#7 => zero (w.extractLsb' 21 5) (.ok (.slpass (w.extractLsb' 16 5) (w.extractLsb' 11 5) (w.extractLsb' 7 4)))
  | 4#7 => zero (w.extractLsb' 21 5) (zero (w.extractLsb' 11 5) (.ok (.slclose (w.extractLsb' 16 5) (w.extractLsb' 7 4))))
  | 5#7 => zero (w.extractLsb' 11 5) (.ok (.slpoll (w.extractLsb' 21 5) (w.extractLsb' 16 5) (w.extractLsb' 7 4)))
  | _ => .error .function

/-- Major 0x28: function code in bits [6:0]. -/
noncomputable def decodeMajor28 (w : Half) : Decoded :=
  match w.extractLsb' 0 7 with
  | 0#7 => zero (w.extractLsb' 7 4) (.ok (.rpkey (w.extractLsb' 21 5) (w.extractLsb' 16 5) (w.extractLsb' 11 5)))
  | 1#7 => zero (w.extractLsb' 21 5) (zero (w.extractLsb' 11 5) (.ok (.rprun (w.extractLsb' 16 5) (w.extractLsb' 7 4))))
  | 2#7 => zero (w.extractLsb' 21 5) (zero (w.extractLsb' 11 5) (.ok (.rpdisp (w.extractLsb' 16 5) (w.extractLsb' 7 4))))
  | 3#7 => zero (w.extractLsb' 11 5) (.ok (.rpstat (w.extractLsb' 21 5) (w.extractLsb' 16 5) (w.extractLsb' 7 4)))
  | _ => .error .function

/-- Major 0x29: function code in bits [6:0]; bits [6:5] = 3 are `ct.pack`, its count in bits [4:0]. -/
noncomputable def decodeMajor29 (w : Half) : Decoded :=
  if w.extractLsb' 5 2 = 3 then .ok (.ctPack (w.extractLsb' 21 5) (w.extractLsb' 16 5) (w.extractLsb' 11 5) (w.extractLsb' 7 4) (w.extractLsb' 0 5))
  else match w.extractLsb' 0 7 with
  | 0#7 => zero (w.extractLsb' 7 4) (.ok (.ctBind (w.extractLsb' 21 5) (w.extractLsb' 16 5) (w.extractLsb' 11 5)))
  | 1#7 => zero (w.extractLsb' 7 9) (.ok (.ctLd (w.extractLsb' 21 5) (w.extractLsb' 16 5)))
  | 2#7 => zero (w.extractLsb' 11 5) (.ok (.ctSt (w.extractLsb' 21 5) (w.extractLsb' 16 5) (w.extractLsb' 7 4)))
  | 3#7 => .ok (.ctAdd (w.extractLsb' 21 5) (w.extractLsb' 16 5) (w.extractLsb' 11 5) (w.extractLsb' 7 4))
  | 4#7 => .ok (.ctSub (w.extractLsb' 21 5) (w.extractLsb' 16 5) (w.extractLsb' 11 5) (w.extractLsb' 7 4))
  | 5#7 => zero (w.extractLsb' 11 5) (.ok (.ctNeg (w.extractLsb' 21 5) (w.extractLsb' 16 5) (w.extractLsb' 7 4)))
  | 6#7 => .ok (.ctMulk (w.extractLsb' 21 5) (w.extractLsb' 16 5) (w.extractLsb' 11 5) (w.extractLsb' 7 4))
  | 7#7 => .ok (.ctMulp (w.extractLsb' 21 5) (w.extractLsb' 16 5) (w.extractLsb' 11 5) (w.extractLsb' 7 4))
  | 8#7 => .ok (.ctRot (w.extractLsb' 21 5) (w.extractLsb' 16 5) (w.extractLsb' 11 5) (w.extractLsb' 7 4))
  | 9#7 => .ok (.ctKsw (w.extractLsb' 21 5) (w.extractLsb' 16 5) (w.extractLsb' 11 5) (w.extractLsb' 7 4))
  | 10#7 => .ok (.ctModsw (w.extractLsb' 21 5) (w.extractLsb' 16 5) (w.extractLsb' 11 5) (w.extractLsb' 7 4))
  | 11#7 => .ok (.ctExtr (w.extractLsb' 21 5) (w.extractLsb' 16 5) (w.extractLsb' 11 5) (w.extractLsb' 7 4))
  | _ => .error .function

/-- Major 0x2A: function code in bits [6:0]; `ct.refresh` and `ct.brinit` hold a table register in bits [2:0]. -/
noncomputable def decodeMajor2A (w : Half) : Decoded :=
  if w.extractLsb' 3 4 = 1 then zero (w.extractLsb' 11 5) (.ok (.ctBrinit (w.extractLsb' 21 5) (w.extractLsb' 16 5) (w.extractLsb' 7 4) (w.extractLsb' 0 3)))
  else if w.extractLsb' 3 4 = 0 then .ok (.ctRefresh (w.extractLsb' 21 5) (w.extractLsb' 16 5) (w.extractLsb' 11 5) (w.extractLsb' 7 4) (w.extractLsb' 0 3))
  else match w.extractLsb' 0 7 with
  | 16#7 => .ok (.ctBrstep (w.extractLsb' 21 5) (w.extractLsb' 16 5) (w.extractLsb' 11 5) (w.extractLsb' 7 4))
  | 17#7 => zero (w.extractLsb' 11 5) (.ok (.ctBrfin (w.extractLsb' 21 5) (w.extractLsb' 16 5) (w.extractLsb' 7 4)))
  | 18#7 => zero (w.extractLsb' 7 9) (.ok (.ctAlw (w.extractLsb' 21 5) (w.extractLsb' 16 5)))
  | 19#7 => zero (w.extractLsb' 21 5) (zero (w.extractLsb' 7 9) (.ok (.ctWin (w.extractLsb' 16 5))))
  | 20#7 => zero (w.extractLsb' 11 5) (.ok (.tbLd (w.extractLsb' 21 5) (w.extractLsb' 16 5) (w.extractLsb' 7 4)))
  | 21#7 => zero (w.extractLsb' 11 5) (.ok (.kyBind (w.extractLsb' 21 5) (w.extractLsb' 16 5) (w.extractLsb' 7 4)))
  | _ => .error .function

/-- A word that is not a pair word: the major in bits [31:26] decides (R214, R233). -/
noncomputable def decodeMajor (w : Half) : Decoded :=
  match w.extractLsb' 26 6 with
  | 1#6 => decodeMajor01 w
  | 2#6 => .ok (.addi (w.extractLsb' 21 5) (w.extractLsb' 16 5) (w.extractLsb' 0 16))
  | 3#6 => .ok (.andi (w.extractLsb' 21 5) (w.extractLsb' 16 5) (w.extractLsb' 0 16))
  | 4#6 => .ok (.ori (w.extractLsb' 21 5) (w.extractLsb' 16 5) (w.extractLsb' 0 16))
  | 5#6 => .ok (.xori (w.extractLsb' 21 5) (w.extractLsb' 16 5) (w.extractLsb' 0 16))
  | 6#6 => decodeMajor06 w
  | 7#6 => .ok (.slti (w.extractLsb' 21 5) (w.extractLsb' 16 5) (w.extractLsb' 0 16))
  | 8#6 => .ok (.sltiu (w.extractLsb' 21 5) (w.extractLsb' 16 5) (w.extractLsb' 0 16))
  | 9#6 => zero (w.extractLsb' 16 5) (.ok (.lhi (w.extractLsb' 21 5) (w.extractLsb' 0 16)))
  | 10#6 => zero (w.extractLsb' 16 5) (.ok (.lpc (w.extractLsb' 21 5) (w.extractLsb' 0 16)))
  | 11#6 => decodeMajor0B w
  | 12#6 => decodeMajor0C w
  | 13#6 => decodeMajor0D w
  | 14#6 => .ok (.beq (w.extractLsb' 21 5) (w.extractLsb' 16 5) (w.extractLsb' 0 16))
  | 15#6 => .ok (.bne (w.extractLsb' 21 5) (w.extractLsb' 16 5) (w.extractLsb' 0 16))
  | 16#6 => .ok (.blt (w.extractLsb' 21 5) (w.extractLsb' 16 5) (w.extractLsb' 0 16))
  | 17#6 => .ok (.bge (w.extractLsb' 21 5) (w.extractLsb' 16 5) (w.extractLsb' 0 16))
  | 18#6 => .ok (.bltu (w.extractLsb' 21 5) (w.extractLsb' 16 5) (w.extractLsb' 0 16))
  | 19#6 => .ok (.bgeu (w.extractLsb' 21 5) (w.extractLsb' 16 5) (w.extractLsb' 0 16))
  | 20#6 => .ok (.jal (w.extractLsb' 21 5) (w.extractLsb' 0 21))
  | 21#6 => .ok (.jalr (w.extractLsb' 21 5) (w.extractLsb' 16 5) (w.extractLsb' 0 16))
  | 22#6 => decodeMajor16 w
  | 23#6 => decodeMajor17 w
  | 24#6 => decodeMajor18 w
  | 25#6 => decodeMajor19 w
  | 26#6 => decodeMajor1A w
  | 27#6 => decodeMajor1B w
  | 28#6 => decodeMajor1C w
  | 29#6 => decodeMajor1D w
  | 30#6 => decodeMajor1E w
  | 31#6 => decodeMajor1F w
  | 32#6 => decodeMajor20 w
  | 33#6 => decodeMajor21 w
  | 34#6 => decodeMajor22 w
  | 35#6 => decodeMajor23 w
  | 36#6 => decodeMajor24 w
  | 37#6 => decodeMajor25 w
  | 38#6 => decodeMajor26 w
  | 39#6 => decodeMajor27 w
  | 40#6 => decodeMajor28 w
  | 41#6 => decodeMajor29 w
  | 42#6 => decodeMajor2A w
  | _ => .error .major

/-- A compact half: op in [14:10], a in [9:5], b in [4:0] (R234, R237). -/
noncomputable def decodeCompact (h : BitVec 15) : Decoded :=
  match h.extractLsb' 10 5 with
  | 0#5 => .ok (.cNop (h.extractLsb' 5 5) (h.extractLsb' 0 5))
  | 1#5 => .ok (.cAdd (h.extractLsb' 5 5) (h.extractLsb' 0 5))
  | 2#5 => .ok (.cSub (h.extractLsb' 5 5) (h.extractLsb' 0 5))
  | 3#5 => .ok (.cAnd (h.extractLsb' 5 5) (h.extractLsb' 0 5))
  | 4#5 => .ok (.cOr (h.extractLsb' 5 5) (h.extractLsb' 0 5))
  | 5#5 => .ok (.cXor (h.extractLsb' 5 5) (h.extractLsb' 0 5))
  | 6#5 => .ok (.cShl (h.extractLsb' 5 5) (h.extractLsb' 0 5))
  | 7#5 => .ok (.cShr (h.extractLsb' 5 5) (h.extractLsb' 0 5))
  | 8#5 => .ok (.cSra (h.extractLsb' 5 5) (h.extractLsb' 0 5))
  | 9#5 => .ok (.cSlt (h.extractLsb' 5 5) (h.extractLsb' 0 5))
  | 10#5 => .ok (.cSltu (h.extractLsb' 5 5) (h.extractLsb' 0 5))
  | 11#5 => .ok (.cMin (h.extractLsb' 5 5) (h.extractLsb' 0 5))
  | 12#5 => .ok (.cMax (h.extractLsb' 5 5) (h.extractLsb' 0 5))
  | 13#5 => .ok (.cMinu (h.extractLsb' 5 5) (h.extractLsb' 0 5))
  | 14#5 => .ok (.cMaxu (h.extractLsb' 5 5) (h.extractLsb' 0 5))
  | 15#5 => .ok (.cMul (h.extractLsb' 5 5) (h.extractLsb' 0 5))
  | 16#5 => .ok (.cAddi (h.extractLsb' 5 5) (h.extractLsb' 0 5))
  | 17#5 => .ok (.cAndi (h.extractLsb' 5 5) (h.extractLsb' 0 5))
  | 18#5 => .ok (.cShli (h.extractLsb' 5 5) (h.extractLsb' 0 5))
  | 19#5 => .ok (.cShri (h.extractLsb' 5 5) (h.extractLsb' 0 5))
  | 20#5 => .ok (.cSrai (h.extractLsb' 5 5) (h.extractLsb' 0 5))
  | 21#5 => .ok (.cSlti (h.extractLsb' 5 5) (h.extractLsb' 0 5))
  | 22#5 => .ok (.cLdD (h.extractLsb' 5 5) (h.extractLsb' 0 5))
  | 23#5 => .ok (.cLdW (h.extractLsb' 5 5) (h.extractLsb' 0 5))
  | 24#5 => .ok (.cStD (h.extractLsb' 5 5) (h.extractLsb' 0 5))
  | 25#5 => .ok (.cStW (h.extractLsb' 5 5) (h.extractLsb' 0 5))
  | 26#5 => .ok (.cFaddD (h.extractLsb' 5 5) (h.extractLsb' 0 5))
  | 27#5 => .ok (.cFsubD (h.extractLsb' 5 5) (h.extractLsb' 0 5))
  | 28#5 => .ok (.cFmulD (h.extractLsb' 5 5) (h.extractLsb' 0 5))
  | 29#5 => .ok (.cFmaD (h.extractLsb' 5 5) (h.extractLsb' 0 5))
  | 30#5 => .ok (.cMulhu (h.extractLsb' 5 5) (h.extractLsb' 0 5))
  | _ => .error .function

/-- The range checks of the operand fields, after the layout. -/
def checked (r : Decoded) : Decoded :=
  match r with
  | .error e => .error e
  | .ok i => match i.formError with
    | none => .ok i
    | some e => .error (.form e)

/-- Majors 0x30 to 0x3F are pair words (R214). -/
def isPair (w : Half) : Bool := w.extractLsb' 30 2 == 3#2

/-- The instruction that a word holds at a pc whose bit 1 is `second` (R215, R238). -/
noncomputable def decode (w : Half) (second : Bool) : Decoded :=
  if isPair w then checked (decodeCompact (if second then w.extractLsb' 0 15 else w.extractLsb' 15 15))
  else if second then .error .notPair
  else checked (decodeMajor w)

/-- A word from its four bytes in memory, the lowest address first: little-endian (R214). -/
def wordOfBytes (b0 b1 b2 b3 : Byte) : Half := b3 ++ b2 ++ b1 ++ b0

/-- Decoding from bytes in memory order: the instruction (a pair word's first half) and the bytes after its word. -/
noncomputable def decodeBytes : List Byte → Except DecodeError (Instr × List Byte)
  | b0 :: b1 :: b2 :: b3 :: rest =>
    match decode (wordOfBytes b0 b1 b2 b3) false with
    | .ok i => .ok (i, rest)
    | .error e => .error e
  | _ => .error .short

/-- The decoder on a word numbered as the opcode table numbers it: bit 0 is bit 0 of the 32-bit word. -/
noncomputable def decodeTableWord (nbits w : Nat) : Option Instr :=
  let v := BitVec.ofNat 32 (w % 2 ^ nbits)
  match decodeBytes [v.extractLsb' 0 8, v.extractLsb' 8 8, v.extractLsb' 16 8, v.extractLsb' 24 8] with
  | .ok (i, _) => some i
  | .error _ => none

/-- The word of an instruction that has a word of its own; none for compact instructions and device events. -/
def encode : Instr → Option Half
  | .add d a b => some (1#6 ++ d ++ a ++ b ++ 0#11)
  | .sub d a b => some (1#6 ++ d ++ a ++ b ++ 1#11)
  | .and d a b => some (1#6 ++ d ++ a ++ b ++ 2#11)
  | .or d a b => some (1#6 ++ d ++ a ++ b ++ 3#11)
  | .xor d a b => some (1#6 ++ d ++ a ++ b ++ 4#11)
  | .shl d a b => some (1#6 ++ d ++ a ++ b ++ 5#11)
  | .shr d a b => some (1#6 ++ d ++ a ++ b ++ 6#11)
  | .sra d a b => some (1#6 ++ d ++ a ++ b ++ 7#11)
  | .slt d a b => some (1#6 ++ d ++ a ++ b ++ 8#11)
  | .sltu d a b => some (1#6 ++ d ++ a ++ b ++ 9#11)
  | .min d a b => some (1#6 ++ d ++ a ++ b ++ 10#11)
  | .max d a b => some (1#6 ++ d ++ a ++ b ++ 11#11)
  | .minu d a b => some (1#6 ++ d ++ a ++ b ++ 12#11)
  | .maxu d a b => some (1#6 ++ d ++ a ++ b ++ 13#11)
  | .mul d a b => some (1#6 ++ d ++ a ++ b ++ 14#11)
  | .mulh d a b => some (1#6 ++ d ++ a ++ b ++ 15#11)
  | .mulhu d a b => some (1#6 ++ d ++ a ++ b ++ 16#11)
  | .div d a b h => some (1#6 ++ d ++ a ++ b ++ h ++ 17#7)
  | .divu d a b h => some (1#6 ++ d ++ a ++ b ++ h ++ 18#7)
  | .rem d a b h => some (1#6 ++ d ++ a ++ b ++ h ++ 19#7)
  | .remu d a b h => some (1#6 ++ d ++ a ++ b ++ h ++ 20#7)
  | .clz d a => some (1#6 ++ d ++ a ++ 21#16)
  | .ctz d a => some (1#6 ++ d ++ a ++ 22#16)
  | .popc d a => some (1#6 ++ d ++ a ++ 23#16)
  | .bswap d a => some (1#6 ++ d ++ a ++ 24#16)
  | .addi d a imm => some (2#6 ++ d ++ a ++ imm)
  | .andi d a imm => some (3#6 ++ d ++ a ++ imm)
  | .ori d a imm => some (4#6 ++ d ++ a ++ imm)
  | .xori d a imm => some (5#6 ++ d ++ a ++ imm)
  | .shli d a n => some (6#6 ++ d ++ a ++ 0#10 ++ n)
  | .shri d a n => some (6#6 ++ d ++ a ++ 1#10 ++ n)
  | .srai d a n => some (6#6 ++ d ++ a ++ 2#10 ++ n)
  | .slti d a imm => some (7#6 ++ d ++ a ++ imm)
  | .sltiu d a imm => some (8#6 ++ d ++ a ++ imm)
  | .lhi d imm => some (9#6 ++ d ++ 0#5 ++ imm)
  | .lpc d imm => some (10#6 ++ d ++ 0#5 ++ imm)
  | .ldB d a h imm => some (11#6 ++ d ++ a ++ h ++ 0#3 ++ imm)
  | .ldH d a h imm => some (11#6 ++ d ++ a ++ h ++ 1#3 ++ imm)
  | .ldW d a h imm => some (11#6 ++ d ++ a ++ h ++ 2#3 ++ imm)
  | .ldD d a h imm => some (11#6 ++ d ++ a ++ h ++ 3#3 ++ imm)
  | .ldBu d a h imm => some (11#6 ++ d ++ a ++ h ++ 4#3 ++ imm)
  | .ldHu d a h imm => some (11#6 ++ d ++ a ++ h ++ 5#3 ++ imm)
  | .ldWu d a h imm => some (11#6 ++ d ++ a ++ h ++ 6#3 ++ imm)
  | .stB d a h imm => some (12#6 ++ d ++ a ++ h ++ 0#3 ++ imm)
  | .stH d a h imm => some (12#6 ++ d ++ a ++ h ++ 1#3 ++ imm)
  | .stW d a h imm => some (12#6 ++ d ++ a ++ h ++ 2#3 ++ imm)
  | .stD d a h imm => some (12#6 ++ d ++ a ++ h ++ 3#3 ++ imm)
  | .ldacq d a h sc => some (13#6 ++ d ++ a ++ 0#5 ++ h ++ sc ++ 0#4)
  | .strel d a h sc => some (13#6 ++ d ++ a ++ 0#5 ++ h ++ sc ++ 1#4)
  | .amoAdd d a b h sc => some (13#6 ++ d ++ a ++ b ++ h ++ sc ++ 2#4)
  | .amoAnd d a b h sc => some (13#6 ++ d ++ a ++ b ++ h ++ sc ++ 3#4)
  | .amoOr d a b h sc => some (13#6 ++ d ++ a ++ b ++ h ++ sc ++ 4#4)
  | .amoXor d a b h sc => some (13#6 ++ d ++ a ++ b ++ h ++ sc ++ 5#4)
  | .amoMin d a b h sc => some (13#6 ++ d ++ a ++ b ++ h ++ sc ++ 6#4)
  | .amoMax d a b h sc => some (13#6 ++ d ++ a ++ b ++ h ++ sc ++ 7#4)
  | .amoMinu d a b h sc => some (13#6 ++ d ++ a ++ b ++ h ++ sc ++ 8#4)
  | .amoMaxu d a b h sc => some (13#6 ++ d ++ a ++ b ++ h ++ sc ++ 9#4)
  | .amoSwap d a b h sc => some (13#6 ++ d ++ a ++ b ++ h ++ sc ++ 10#4)
  | .cas d a b h sc => some (13#6 ++ d ++ a ++ b ++ h ++ sc ++ 11#4)
  | .beq a b off => some (14#6 ++ a ++ b ++ off)
  | .bne a b off => some (15#6 ++ a ++ b ++ off)
  | .blt a b off => some (16#6 ++ a ++ b ++ off)
  | .bge a b off => some (17#6 ++ a ++ b ++ off)
  | .bltu a b off => some (18#6 ++ a ++ b ++ off)
  | .bgeu a b off => some (19#6 ++ a ++ b ++ off)
  | .jal d off => some (20#6 ++ d ++ off)
  | .jalr d a imm => some (21#6 ++ d ++ a ++ imm)
  | .loop lvl off => some (22#6 ++ 0#10 ++ lvl ++ 0#4 ++ off)
  | .loopr a off => some (22#6 ++ 1#5 ++ a ++ 0#7 ++ off)
  | .dly n => some (22#6 ++ 64#10 ++ n)
  | .wait a h n => some (22#6 ++ 3#5 ++ a ++ h ++ n)
  | .post h n => some (22#6 ++ 128#10 ++ h ++ n)
  | .hset a h => some (22#6 ++ 5#5 ++ a ++ h ++ 0#12)
  | .halt => some (22#6 ++ 12582912#26)
  | .launch a h => some (22#6 ++ 7#5 ++ a ++ h ++ 0#12)
  | .fadd d a b fmt => some (23#6 ++ d ++ a ++ b ++ 0#9 ++ fmt)
  | .fsub d a b fmt => some (23#6 ++ d ++ a ++ b ++ 1#9 ++ fmt)
  | .fmul d a b fmt => some (23#6 ++ d ++ a ++ b ++ 2#9 ++ fmt)
  | .fma d a b fmt => some (23#6 ++ d ++ a ++ b ++ 3#9 ++ fmt)
  | .fdiv d a b h fmt => some (23#6 ++ d ++ a ++ b ++ h ++ 4#5 ++ fmt)
  | .fsqrt d a h fmt => some (23#6 ++ d ++ a ++ 0#5 ++ h ++ 5#5 ++ fmt)
  | .fmin d a b fmt => some (23#6 ++ d ++ a ++ b ++ 6#9 ++ fmt)
  | .fmax d a b fmt => some (23#6 ++ d ++ a ++ b ++ 7#9 ++ fmt)
  | .fcmpEq d a b fmt => some (23#6 ++ d ++ a ++ b ++ 8#9 ++ fmt)
  | .fcmpNe d a b fmt => some (23#6 ++ d ++ a ++ b ++ 9#9 ++ fmt)
  | .fcmpLt d a b fmt => some (23#6 ++ d ++ a ++ b ++ 10#9 ++ fmt)
  | .fcmpLe d a b fmt => some (23#6 ++ d ++ a ++ b ++ 11#9 ++ fmt)
  | .fcmpGt d a b fmt => some (23#6 ++ d ++ a ++ b ++ 12#9 ++ fmt)
  | .fcmpGe d a b fmt => some (23#6 ++ d ++ a ++ b ++ 13#9 ++ fmt)
  | .fclass d a fmt => some (23#6 ++ d ++ a ++ 14#14 ++ fmt)
  | .fcvt d a code fmt => some (23#6 ++ d ++ a ++ code ++ 16#9 ++ fmt)
  | .fcvtInt d a code fmt => some (23#6 ++ d ++ a ++ code ++ 17#9 ++ fmt)
  | .trap n => some (24#6 ++ 0#10 ++ n)
  | .eret => some (24#6 ++ 2097152#26)
  | .csrr d csr => some (24#6 ++ 2#5 ++ d ++ 0#4 ++ csr)
  | .csrw a csr => some (24#6 ++ 3#5 ++ a ++ 0#4 ++ csr)
  | .csrs a csr => some (24#6 ++ 4#5 ++ a ++ 0#4 ++ csr)
  | .csrc a csr => some (24#6 ++ 5#5 ++ a ++ 0#4 ++ csr)
  | .fenceAcq sc => some (24#6 ++ 98304#19 ++ sc ++ 0#4)
  | .fenceRel sc => some (24#6 ++ 98304#19 ++ sc ++ 1#4)
  | .fenceFull sc => some (24#6 ++ 98304#19 ++ sc ++ 2#4)
  | .fenceSv => some (24#6 ++ 12582915#26)
  | .fenceIo sc => some (24#6 ++ 98304#19 ++ sc ++ 4#4)
  | .bkpt n => some (24#6 ++ 224#10 ++ n)
  | .icinv a h b sc => some (24#6 ++ 8#5 ++ a ++ h ++ b ++ sc ++ 0#4)
  | .idle => some (24#6 ++ 18874368#26)
  | .ctxsave a h => some (24#6 ++ 10#5 ++ a ++ h ++ 0#12)
  | .ctxrst a h => some (24#6 ++ 11#5 ++ a ++ h ++ 0#12)
  | .poolHeader n => some (24#6 ++ 3968#12 ++ n)
  | .setvli d a yb sew grp tl mk cfg => some (25#6 ++ d ++ a ++ 1#1 ++ yb ++ sew ++ grp ++ tl ++ mk ++ cfg)
  | .setvl d a b yb => some (25#6 ++ d ++ a ++ 0#1 ++ b ++ yb ++ 0#9)
  | .settl d a b => some (25#6 ++ d ++ a ++ 0#1 ++ b ++ 1#10)
  | .vld d a mk dt ch h => some (26#6 ++ d ++ a ++ 0#5 ++ mk ++ dt ++ ch ++ h ++ 0#2)
  | .vst d a mk dt ch h => some (26#6 ++ d ++ a ++ 0#5 ++ mk ++ dt ++ ch ++ h ++ 1#2)
  | .mld d a h => some (26#6 ++ d ++ a ++ 0#10 ++ h ++ 2#2)
  | .mst d a h => some (26#6 ++ d ++ a ++ 0#10 ++ h ++ 3#2)
  | .vlds d a b mk dt ch h => some (27#6 ++ d ++ a ++ b ++ mk ++ dt ++ ch ++ h ++ 0#2)
  | .vsts d a b mk dt ch h => some (27#6 ++ d ++ a ++ b ++ mk ++ dt ++ ch ++ h ++ 1#2)
  | .vldx d a b mk dt ch h => some (28#6 ++ d ++ a ++ b ++ mk ++ dt ++ ch ++ h ++ 0#2)
  | .vstx d a b mk dt ch h => some (28#6 ++ d ++ a ++ b ++ mk ++ dt ++ ch ++ h ++ 1#2)
  | .vamo d a b code h => some (28#6 ++ d ++ a ++ b ++ code.extractLsb' 0 5 ++ h ++ 1#1 ++ code.extractLsb' 5 1)
  | .vaddVV d a b mk dt ca cb => some (29#6 ++ d ++ a ++ b ++ mk ++ dt ++ ca ++ cb ++ 0#5)
  | .vaddVX d a b mk dt ca => some (30#6 ++ d ++ a ++ b ++ mk ++ dt ++ ca ++ 0#6)
  | .vaddVI d a imm mk dt ca => some (31#6 ++ d ++ a ++ imm ++ mk ++ dt ++ ca ++ 0#6)
  | .vsubVV d a b mk dt ca cb => some (29#6 ++ d ++ a ++ b ++ mk ++ dt ++ ca ++ cb ++ 1#5)
  | .vsubVX d a b mk dt ca => some (30#6 ++ d ++ a ++ b ++ mk ++ dt ++ ca ++ 1#6)
  | .vsubVI d a imm mk dt ca => some (31#6 ++ d ++ a ++ imm ++ mk ++ dt ++ ca ++ 1#6)
  | .vrsubVV d a b mk dt ca cb => some (29#6 ++ d ++ a ++ b ++ mk ++ dt ++ ca ++ cb ++ 2#5)
  | .vrsubVX d a b mk dt ca => some (30#6 ++ d ++ a ++ b ++ mk ++ dt ++ ca ++ 2#6)
  | .vrsubVI d a imm mk dt ca => some (31#6 ++ d ++ a ++ imm ++ mk ++ dt ++ ca ++ 2#6)
  | .vadcVV d a b mk ca cb => some (29#6 ++ d ++ a ++ b ++ mk ++ 0#1 ++ ca ++ cb ++ 3#5)
  | .vadcVX d a b mk ca => some (30#6 ++ d ++ a ++ b ++ mk ++ 0#1 ++ ca ++ 3#6)
  | .vadcVI d a imm mk ca => some (31#6 ++ d ++ a ++ imm ++ mk ++ 0#1 ++ ca ++ 3#6)
  | .vsbcVV d a b mk ca cb => some (29#6 ++ d ++ a ++ b ++ mk ++ 0#1 ++ ca ++ cb ++ 4#5)
  | .vsbcVX d a b mk ca => some (30#6 ++ d ++ a ++ b ++ mk ++ 0#1 ++ ca ++ 4#6)
  | .vsbcVI d a imm mk ca => some (31#6 ++ d ++ a ++ imm ++ mk ++ 0#1 ++ ca ++ 4#6)
  | .vmadcVV d a b mk ca cb => some (29#6 ++ d ++ a ++ b ++ mk ++ 0#1 ++ ca ++ cb ++ 5#5)
  | .vmadcVX d a b mk ca => some (30#6 ++ d ++ a ++ b ++ mk ++ 0#1 ++ ca ++ 5#6)
  | .vmadcVI d a imm mk ca => some (31#6 ++ d ++ a ++ imm ++ mk ++ 0#1 ++ ca ++ 5#6)
  | .vmsbcVV d a b mk ca cb => some (29#6 ++ d ++ a ++ b ++ mk ++ 0#1 ++ ca ++ cb ++ 6#5)
  | .vmsbcVX d a b mk ca => some (30#6 ++ d ++ a ++ b ++ mk ++ 0#1 ++ ca ++ 6#6)
  | .vmsbcVI d a imm mk ca => some (31#6 ++ d ++ a ++ imm ++ mk ++ 0#1 ++ ca ++ 6#6)
  | .vandVV d a b mk dt ca cb => some (29#6 ++ d ++ a ++ b ++ mk ++ dt ++ ca ++ cb ++ 7#5)
  | .vandVX d a b mk dt ca => some (30#6 ++ d ++ a ++ b ++ mk ++ dt ++ ca ++ 7#6)
  | .vandVI d a imm mk dt ca => some (31#6 ++ d ++ a ++ imm ++ mk ++ dt ++ ca ++ 7#6)
  | .vorVV d a b mk dt ca cb => some (29#6 ++ d ++ a ++ b ++ mk ++ dt ++ ca ++ cb ++ 8#5)
  | .vorVX d a b mk dt ca => some (30#6 ++ d ++ a ++ b ++ mk ++ dt ++ ca ++ 8#6)
  | .vorVI d a imm mk dt ca => some (31#6 ++ d ++ a ++ imm ++ mk ++ dt ++ ca ++ 8#6)
  | .vxorVV d a b mk dt ca cb => some (29#6 ++ d ++ a ++ b ++ mk ++ dt ++ ca ++ cb ++ 9#5)
  | .vxorVX d a b mk dt ca => some (30#6 ++ d ++ a ++ b ++ mk ++ dt ++ ca ++ 9#6)
  | .vxorVI d a imm mk dt ca => some (31#6 ++ d ++ a ++ imm ++ mk ++ dt ++ ca ++ 9#6)
  | .vshlVV d a b mk dt ca cb => some (29#6 ++ d ++ a ++ b ++ mk ++ dt ++ ca ++ cb ++ 10#5)
  | .vshlVX d a b mk dt ca => some (30#6 ++ d ++ a ++ b ++ mk ++ dt ++ ca ++ 10#6)
  | .vshlVI d a imm mk dt ca => some (31#6 ++ d ++ a ++ imm ++ mk ++ dt ++ ca ++ 10#6)
  | .vshrVV d a b mk dt ca cb => some (29#6 ++ d ++ a ++ b ++ mk ++ dt ++ ca ++ cb ++ 11#5)
  | .vshrVX d a b mk dt ca => some (30#6 ++ d ++ a ++ b ++ mk ++ dt ++ ca ++ 11#6)
  | .vshrVI d a imm mk dt ca => some (31#6 ++ d ++ a ++ imm ++ mk ++ dt ++ ca ++ 11#6)
  | .vsraVV d a b mk dt ca cb => some (29#6 ++ d ++ a ++ b ++ mk ++ dt ++ ca ++ cb ++ 12#5)
  | .vsraVX d a b mk dt ca => some (30#6 ++ d ++ a ++ b ++ mk ++ dt ++ ca ++ 12#6)
  | .vsraVI d a imm mk dt ca => some (31#6 ++ d ++ a ++ imm ++ mk ++ dt ++ ca ++ 12#6)
  | .vmulVV d a b mk dt ca cb => some (29#6 ++ d ++ a ++ b ++ mk ++ dt ++ ca ++ cb ++ 13#5)
  | .vmulVX d a b mk dt ca => some (30#6 ++ d ++ a ++ b ++ mk ++ dt ++ ca ++ 13#6)
  | .vmulVI d a imm mk dt ca => some (31#6 ++ d ++ a ++ imm ++ mk ++ dt ++ ca ++ 13#6)
  | .vmulhVV d a b mk dt ca cb => some (29#6 ++ d ++ a ++ b ++ mk ++ dt ++ ca ++ cb ++ 14#5)
  | .vmulhVX d a b mk dt ca => some (30#6 ++ d ++ a ++ b ++ mk ++ dt ++ ca ++ 14#6)
  | .vmulhVI d a imm mk dt ca => some (31#6 ++ d ++ a ++ imm ++ mk ++ dt ++ ca ++ 14#6)
  | .vmulhuVV d a b mk dt ca cb => some (29#6 ++ d ++ a ++ b ++ mk ++ dt ++ ca ++ cb ++ 15#5)
  | .vmulhuVX d a b mk dt ca => some (30#6 ++ d ++ a ++ b ++ mk ++ dt ++ ca ++ 15#6)
  | .vmulhuVI d a imm mk dt ca => some (31#6 ++ d ++ a ++ imm ++ mk ++ dt ++ ca ++ 15#6)
  | .vminVV d a b mk dt ca cb => some (29#6 ++ d ++ a ++ b ++ mk ++ dt ++ ca ++ cb ++ 16#5)
  | .vminVX d a b mk dt ca => some (30#6 ++ d ++ a ++ b ++ mk ++ dt ++ ca ++ 16#6)
  | .vminVI d a imm mk dt ca => some (31#6 ++ d ++ a ++ imm ++ mk ++ dt ++ ca ++ 16#6)
  | .vmaxVV d a b mk dt ca cb => some (29#6 ++ d ++ a ++ b ++ mk ++ dt ++ ca ++ cb ++ 17#5)
  | .vmaxVX d a b mk dt ca => some (30#6 ++ d ++ a ++ b ++ mk ++ dt ++ ca ++ 17#6)
  | .vmaxVI d a imm mk dt ca => some (31#6 ++ d ++ a ++ imm ++ mk ++ dt ++ ca ++ 17#6)
  | .vminuVV d a b mk dt ca cb => some (29#6 ++ d ++ a ++ b ++ mk ++ dt ++ ca ++ cb ++ 18#5)
  | .vminuVX d a b mk dt ca => some (30#6 ++ d ++ a ++ b ++ mk ++ dt ++ ca ++ 18#6)
  | .vminuVI d a imm mk dt ca => some (31#6 ++ d ++ a ++ imm ++ mk ++ dt ++ ca ++ 18#6)
  | .vmaxuVV d a b mk dt ca cb => some (29#6 ++ d ++ a ++ b ++ mk ++ dt ++ ca ++ cb ++ 19#5)
  | .vmaxuVX d a b mk dt ca => some (30#6 ++ d ++ a ++ b ++ mk ++ dt ++ ca ++ 19#6)
  | .vmaxuVI d a imm mk dt ca => some (31#6 ++ d ++ a ++ imm ++ mk ++ dt ++ ca ++ 19#6)
  | .vmergeVV d a b mk ca cb => some (29#6 ++ d ++ a ++ b ++ mk ++ 0#1 ++ ca ++ cb ++ 20#5)
  | .vmergeVX d a b mk ca => some (30#6 ++ d ++ a ++ b ++ mk ++ 0#1 ++ ca ++ 20#6)
  | .vmergeVI d a imm mk ca => some (31#6 ++ d ++ a ++ imm ++ mk ++ 0#1 ++ ca ++ 20#6)
  | .vmvVV d b mk dt cb => some (29#6 ++ d ++ 0#5 ++ b ++ mk ++ dt ++ 0#1 ++ cb ++ 21#5)
  | .vmvVX d b mk dt => some (30#6 ++ d ++ 0#5 ++ b ++ mk ++ dt ++ 21#7)
  | .vmvVI d imm mk dt => some (31#6 ++ d ++ 0#5 ++ imm ++ mk ++ dt ++ 21#7)
  | .vcmpEqVV d a b mk dt ca cb => some (29#6 ++ d ++ a ++ b ++ mk ++ dt ++ ca ++ cb ++ 22#5)
  | .vcmpEqVX d a b mk dt ca => some (30#6 ++ d ++ a ++ b ++ mk ++ dt ++ ca ++ 22#6)
  | .vcmpEqVI d a imm mk dt ca => some (31#6 ++ d ++ a ++ imm ++ mk ++ dt ++ ca ++ 22#6)
  | .vcmpNeVV d a b mk dt ca cb => some (29#6 ++ d ++ a ++ b ++ mk ++ dt ++ ca ++ cb ++ 23#5)
  | .vcmpNeVX d a b mk dt ca => some (30#6 ++ d ++ a ++ b ++ mk ++ dt ++ ca ++ 23#6)
  | .vcmpNeVI d a imm mk dt ca => some (31#6 ++ d ++ a ++ imm ++ mk ++ dt ++ ca ++ 23#6)
  | .vcmpLtVV d a b mk dt ca cb => some (29#6 ++ d ++ a ++ b ++ mk ++ dt ++ ca ++ cb ++ 24#5)
  | .vcmpLtVX d a b mk dt ca => some (30#6 ++ d ++ a ++ b ++ mk ++ dt ++ ca ++ 24#6)
  | .vcmpLtVI d a imm mk dt ca => some (31#6 ++ d ++ a ++ imm ++ mk ++ dt ++ ca ++ 24#6)
  | .vcmpLtuVV d a b mk dt ca cb => some (29#6 ++ d ++ a ++ b ++ mk ++ dt ++ ca ++ cb ++ 25#5)
  | .vcmpLtuVX d a b mk dt ca => some (30#6 ++ d ++ a ++ b ++ mk ++ dt ++ ca ++ 25#6)
  | .vcmpLtuVI d a imm mk dt ca => some (31#6 ++ d ++ a ++ imm ++ mk ++ dt ++ ca ++ 25#6)
  | .vcmpLeVV d a b mk dt ca cb => some (29#6 ++ d ++ a ++ b ++ mk ++ dt ++ ca ++ cb ++ 26#5)
  | .vcmpLeVX d a b mk dt ca => some (30#6 ++ d ++ a ++ b ++ mk ++ dt ++ ca ++ 26#6)
  | .vcmpLeVI d a imm mk dt ca => some (31#6 ++ d ++ a ++ imm ++ mk ++ dt ++ ca ++ 26#6)
  | .vcmpLeuVV d a b mk dt ca cb => some (29#6 ++ d ++ a ++ b ++ mk ++ dt ++ ca ++ cb ++ 27#5)
  | .vcmpLeuVX d a b mk dt ca => some (30#6 ++ d ++ a ++ b ++ mk ++ dt ++ ca ++ 27#6)
  | .vcmpLeuVI d a imm mk dt ca => some (31#6 ++ d ++ a ++ imm ++ mk ++ dt ++ ca ++ 27#6)
  | .vcmpGtVV d a b mk dt ca cb => some (29#6 ++ d ++ a ++ b ++ mk ++ dt ++ ca ++ cb ++ 28#5)
  | .vcmpGtVX d a b mk dt ca => some (30#6 ++ d ++ a ++ b ++ mk ++ dt ++ ca ++ 28#6)
  | .vcmpGtVI d a imm mk dt ca => some (31#6 ++ d ++ a ++ imm ++ mk ++ dt ++ ca ++ 28#6)
  | .vcmpGtuVV d a b mk dt ca cb => some (29#6 ++ d ++ a ++ b ++ mk ++ dt ++ ca ++ cb ++ 29#5)
  | .vcmpGtuVX d a b mk dt ca => some (30#6 ++ d ++ a ++ b ++ mk ++ dt ++ ca ++ 29#6)
  | .vcmpGtuVI d a imm mk dt ca => some (31#6 ++ d ++ a ++ imm ++ mk ++ dt ++ ca ++ 29#6)
  | .vslupVX d a b mk dt ca => some (32#6 ++ d ++ a ++ b ++ mk ++ dt ++ ca ++ 0#6)
  | .vslupVI d a imm mk dt ca => some (32#6 ++ d ++ a ++ imm ++ mk ++ dt ++ ca ++ 1#6)
  | .vsldnVX d a b mk dt ca => some (32#6 ++ d ++ a ++ b ++ mk ++ dt ++ ca ++ 2#6)
  | .vsldnVI d a imm mk dt ca => some (32#6 ++ d ++ a ++ imm ++ mk ++ dt ++ ca ++ 3#6)
  | .vsl1up d a b mk dt ca => some (32#6 ++ d ++ a ++ b ++ mk ++ dt ++ ca ++ 4#6)
  | .vsl1dn d a b mk dt ca => some (32#6 ++ d ++ a ++ b ++ mk ++ dt ++ ca ++ 5#6)
  | .vperm d a b mk dt ca cb => some (32#6 ++ d ++ a ++ b ++ mk ++ dt ++ ca ++ cb ++ 6#5)
  | .vcompress d a mk ca => some (32#6 ++ d ++ a ++ 0#5 ++ mk ++ 0#1 ++ ca ++ 7#6)
  | .viota d mk => some (32#6 ++ d ++ 0#10 ++ mk ++ 8#8)
  | .vid d mk dt => some (32#6 ++ d ++ 0#10 ++ mk ++ dt ++ 9#7)
  | .vwadd d a b mk dt ca cb => some (32#6 ++ d ++ a ++ b ++ mk ++ dt ++ ca ++ cb ++ 10#5)
  | .vwaddu d a b mk dt ca cb => some (32#6 ++ d ++ a ++ b ++ mk ++ dt ++ ca ++ cb ++ 11#5)
  | .vwmul d a b mk dt ca cb => some (32#6 ++ d ++ a ++ b ++ mk ++ dt ++ ca ++ cb ++ 12#5)
  | .vwmulu d a b mk dt ca cb => some (32#6 ++ d ++ a ++ b ++ mk ++ dt ++ ca ++ cb ++ 13#5)
  | .vnshrVX d a b mk dt ca => some (32#6 ++ d ++ a ++ b ++ mk ++ dt ++ ca ++ 14#6)
  | .vnshrVI d a imm mk dt ca => some (32#6 ++ d ++ a ++ imm ++ mk ++ dt ++ ca ++ 15#6)
  | .vnsraVX d a b mk dt ca => some (32#6 ++ d ++ a ++ b ++ mk ++ dt ++ ca ++ 16#6)
  | .vnsraVI d a imm mk dt ca => some (32#6 ++ d ++ a ++ imm ++ mk ++ dt ++ ca ++ 17#6)
  | .vextS2 d a mk dt ca => some (32#6 ++ d ++ a ++ 0#5 ++ mk ++ dt ++ ca ++ 18#6)
  | .vextS4 d a mk dt ca => some (32#6 ++ d ++ a ++ 0#5 ++ mk ++ dt ++ ca ++ 19#6)
  | .vextZ2 d a mk dt ca => some (32#6 ++ d ++ a ++ 0#5 ++ mk ++ dt ++ ca ++ 20#6)
  | .vextZ4 d a mk dt ca => some (32#6 ++ d ++ a ++ 0#5 ++ mk ++ dt ++ ca ++ 21#6)
  | .vlastx d a b h ca => some (32#6 ++ d ++ a ++ b ++ h ++ ca ++ 22#6)
  | .mand d a b => some (33#6 ++ d ++ a ++ b ++ 0#11)
  | .mor d a b => some (33#6 ++ d ++ a ++ b ++ 1#11)
  | .mxor d a b => some (33#6 ++ d ++ a ++ b ++ 2#11)
  | .mandn d a b => some (33#6 ++ d ++ a ++ b ++ 3#11)
  | .mshl d a n => some (33#6 ++ d ++ a ++ n ++ 4#11)
  | .mpopc d a h => some (33#6 ++ d ++ a ++ 0#5 ++ h ++ 5#7)
  | .mfirst d a h => some (33#6 ++ d ++ a ++ 0#5 ++ h ++ 6#7)
  | .mlast d a h => some (33#6 ++ d ++ a ++ 0#5 ++ h ++ 7#7)
  | .vmvx d a b h ca => some (33#6 ++ d ++ a ++ b ++ h ++ ca ++ 8#6)
  | .vmvsx d a => some (33#6 ++ d ++ a ++ 9#16)
  | .vredSum d a b mk dt ca cb => some (33#6 ++ d ++ a ++ b ++ mk ++ dt ++ ca ++ cb ++ 10#5)
  | .vredAnd d a b mk dt ca cb => some (33#6 ++ d ++ a ++ b ++ mk ++ dt ++ ca ++ cb ++ 11#5)
  | .vredOr d a b mk dt ca cb => some (33#6 ++ d ++ a ++ b ++ mk ++ dt ++ ca ++ cb ++ 12#5)
  | .vredXor d a b mk dt ca cb => some (33#6 ++ d ++ a ++ b ++ mk ++ dt ++ ca ++ cb ++ 13#5)
  | .vredMin d a b mk dt ca cb => some (33#6 ++ d ++ a ++ b ++ mk ++ dt ++ ca ++ cb ++ 14#5)
  | .vredMax d a b mk dt ca cb => some (33#6 ++ d ++ a ++ b ++ mk ++ dt ++ ca ++ cb ++ 15#5)
  | .vredMinu d a b mk dt ca cb => some (33#6 ++ d ++ a ++ b ++ mk ++ dt ++ ca ++ cb ++ 16#5)
  | .vredMaxu d a b mk dt ca cb => some (33#6 ++ d ++ a ++ b ++ mk ++ dt ++ ca ++ cb ++ 17#5)
  | .vfaddVV d a b mk dt ca cb => some (34#6 ++ d ++ a ++ b ++ mk ++ dt ++ ca ++ cb ++ 0#5)
  | .vfaddVX d a b mk dt ca => some (35#6 ++ d ++ a ++ b ++ mk ++ dt ++ ca ++ 0#6)
  | .vfsubVV d a b mk dt ca cb => some (34#6 ++ d ++ a ++ b ++ mk ++ dt ++ ca ++ cb ++ 1#5)
  | .vfsubVX d a b mk dt ca => some (35#6 ++ d ++ a ++ b ++ mk ++ dt ++ ca ++ 1#6)
  | .vfmulVV d a b mk dt ca cb => some (34#6 ++ d ++ a ++ b ++ mk ++ dt ++ ca ++ cb ++ 2#5)
  | .vfmulVX d a b mk dt ca => some (35#6 ++ d ++ a ++ b ++ mk ++ dt ++ ca ++ 2#6)
  | .vfmaVV d a b mk dt ca cb => some (34#6 ++ d ++ a ++ b ++ mk ++ dt ++ ca ++ cb ++ 3#5)
  | .vfmaVX d a b mk dt ca => some (35#6 ++ d ++ a ++ b ++ mk ++ dt ++ ca ++ 3#6)
  | .vfdivVV d a b mk dt ca cb => some (34#6 ++ d ++ a ++ b ++ mk ++ dt ++ ca ++ cb ++ 4#5)
  | .vfdivVX d a b mk dt ca => some (35#6 ++ d ++ a ++ b ++ mk ++ dt ++ ca ++ 4#6)
  | .vfsqrt d a mk dt ca => some (34#6 ++ d ++ a ++ 0#5 ++ mk ++ dt ++ ca ++ 5#6)
  | .vfminVV d a b mk dt ca cb => some (34#6 ++ d ++ a ++ b ++ mk ++ dt ++ ca ++ cb ++ 6#5)
  | .vfminVX d a b mk dt ca => some (35#6 ++ d ++ a ++ b ++ mk ++ dt ++ ca ++ 6#6)
  | .vfmaxVV d a b mk dt ca cb => some (34#6 ++ d ++ a ++ b ++ mk ++ dt ++ ca ++ cb ++ 7#5)
  | .vfmaxVX d a b mk dt ca => some (35#6 ++ d ++ a ++ b ++ mk ++ dt ++ ca ++ 7#6)
  | .vfcmpEqVV d a b mk dt ca cb => some (34#6 ++ d ++ a ++ b ++ mk ++ dt ++ ca ++ cb ++ 8#5)
  | .vfcmpEqVX d a b mk dt ca => some (35#6 ++ d ++ a ++ b ++ mk ++ dt ++ ca ++ 8#6)
  | .vfcmpNeVV d a b mk dt ca cb => some (34#6 ++ d ++ a ++ b ++ mk ++ dt ++ ca ++ cb ++ 9#5)
  | .vfcmpNeVX d a b mk dt ca => some (35#6 ++ d ++ a ++ b ++ mk ++ dt ++ ca ++ 9#6)
  | .vfcmpLtVV d a b mk dt ca cb => some (34#6 ++ d ++ a ++ b ++ mk ++ dt ++ ca ++ cb ++ 10#5)
  | .vfcmpLtVX d a b mk dt ca => some (35#6 ++ d ++ a ++ b ++ mk ++ dt ++ ca ++ 10#6)
  | .vfcmpLeVV d a b mk dt ca cb => some (34#6 ++ d ++ a ++ b ++ mk ++ dt ++ ca ++ cb ++ 11#5)
  | .vfcmpLeVX d a b mk dt ca => some (35#6 ++ d ++ a ++ b ++ mk ++ dt ++ ca ++ 11#6)
  | .vfcmpGtVV d a b mk dt ca cb => some (34#6 ++ d ++ a ++ b ++ mk ++ dt ++ ca ++ cb ++ 12#5)
  | .vfcmpGtVX d a b mk dt ca => some (35#6 ++ d ++ a ++ b ++ mk ++ dt ++ ca ++ 12#6)
  | .vfcmpGeVV d a b mk dt ca cb => some (34#6 ++ d ++ a ++ b ++ mk ++ dt ++ ca ++ cb ++ 13#5)
  | .vfcmpGeVX d a b mk dt ca => some (35#6 ++ d ++ a ++ b ++ mk ++ dt ++ ca ++ 13#6)
  | .vfaddBfVV d a b mk dt ca cb => some (34#6 ++ d ++ a ++ b ++ mk ++ dt ++ ca ++ cb ++ 14#5)
  | .vfaddBfVX d a b mk dt ca => some (35#6 ++ d ++ a ++ b ++ mk ++ dt ++ ca ++ 14#6)
  | .vfsubBfVV d a b mk dt ca cb => some (34#6 ++ d ++ a ++ b ++ mk ++ dt ++ ca ++ cb ++ 15#5)
  | .vfsubBfVX d a b mk dt ca => some (35#6 ++ d ++ a ++ b ++ mk ++ dt ++ ca ++ 15#6)
  | .vfmulBfVV d a b mk dt ca cb => some (34#6 ++ d ++ a ++ b ++ mk ++ dt ++ ca ++ cb ++ 16#5)
  | .vfmulBfVX d a b mk dt ca => some (35#6 ++ d ++ a ++ b ++ mk ++ dt ++ ca ++ 16#6)
  | .vfmaBfVV d a b mk dt ca cb => some (34#6 ++ d ++ a ++ b ++ mk ++ dt ++ ca ++ cb ++ 17#5)
  | .vfmaBfVX d a b mk dt ca => some (35#6 ++ d ++ a ++ b ++ mk ++ dt ++ ca ++ 17#6)
  | .vfcvt d a alt frm mk dt ca => some (34#6 ++ d ++ a ++ 0#1 ++ alt ++ frm ++ mk ++ dt ++ ca ++ 18#6)
  | .vfredo d a b mk dt ca cb => some (34#6 ++ d ++ a ++ b ++ mk ++ dt ++ ca ++ cb ++ 19#5)
  | .vfredSum d a b mk dt ca cb => some (34#6 ++ d ++ a ++ b ++ mk ++ dt ++ ca ++ cb ++ 20#5)
  | .vfredMin d a b mk dt ca cb => some (34#6 ++ d ++ a ++ b ++ mk ++ dt ++ ca ++ cb ++ 21#5)
  | .vfredMax d a b mk dt ca cb => some (34#6 ++ d ++ a ++ b ++ mk ++ dt ++ ca ++ cb ++ 22#5)
  | .vfpot d a b mk dt ca cb => some (34#6 ++ d ++ a ++ b ++ mk ++ dt ++ ca ++ cb ++ 23#5)
  | .vmaddVV d a b mk dt ca cb => some (36#6 ++ d ++ a ++ b ++ mk ++ dt ++ ca ++ cb ++ 0#5)
  | .vmsubVV d a b mk dt ca cb => some (36#6 ++ d ++ a ++ b ++ mk ++ dt ++ ca ++ cb ++ 1#5)
  | .vmmulVV d a b mk dt ca cb => some (36#6 ++ d ++ a ++ b ++ mk ++ dt ++ ca ++ cb ++ 2#5)
  | .vmmacVV d a b mk dt ca cb => some (36#6 ++ d ++ a ++ b ++ mk ++ dt ++ ca ++ cb ++ 3#5)
  | .vmaddVX d a b mk dt ca => some (36#6 ++ d ++ a ++ b ++ mk ++ dt ++ ca ++ 4#6)
  | .vmsubVX d a b mk dt ca => some (36#6 ++ d ++ a ++ b ++ mk ++ dt ++ ca ++ 5#6)
  | .vmmulVX d a b mk dt ca => some (36#6 ++ d ++ a ++ b ++ mk ++ dt ++ ca ++ 6#6)
  | .vmmacVX d a b mk dt ca => some (36#6 ++ d ++ a ++ b ++ mk ++ dt ++ ca ++ 7#6)
  | .vbfly d a b mk dt ca cb => some (36#6 ++ d ++ a ++ b ++ mk ++ dt ++ ca ++ cb ++ 8#5)
  | .vibfly d a b mk dt ca cb => some (36#6 ++ d ++ a ++ b ++ mk ++ dt ++ ca ++ cb ++ 9#5)
  | .vntt d a b ca => some (36#6 ++ d ++ a ++ b ++ 0#4 ++ ca ++ 10#6)
  | .vintt d a b ca => some (36#6 ++ d ++ a ++ b ++ 0#4 ++ ca ++ 11#6)
  | .vauto d a b ca => some (36#6 ++ d ++ a ++ b ++ 0#4 ++ ca ++ 12#6)
  | .vdigit d a b mk dt ca => some (36#6 ++ d ++ a ++ b ++ mk ++ dt ++ ca ++ 13#6)
  | .mtld a h => some (36#6 ++ 0#5 ++ a ++ 0#5 ++ h ++ 14#7)
  | .tzero d => some (37#6 ++ d ++ 0#21)
  | .tld d a b h => some (37#6 ++ d ++ a ++ b ++ h ++ 1#7)
  | .tst d a b h => some (37#6 ++ d ++ a ++ b ++ h ++ 2#7)
  | .tmma d a b => some (37#6 ++ d ++ a ++ b ++ 3#11)
  | .tmvr d a b => some (37#6 ++ d ++ a ++ b ++ 4#11)
  | .copy d a h => some (38#6 ++ d ++ a ++ 0#5 ++ h ++ 0#7)
  | .copyn a h => some (38#6 ++ 0#5 ++ a ++ 0#5 ++ h ++ 1#7)
  | .epop d b h => some (38#6 ++ d ++ 0#5 ++ b ++ h ++ 2#7)
  | .bar a sc h => some (38#6 ++ 0#5 ++ a ++ 0#2 ++ sc ++ h ++ 3#7)
  | .slopen d h => some (39#6 ++ d ++ 0#10 ++ h ++ 0#7)
  | .slsend a b h => some (39#6 ++ 0#5 ++ a ++ b ++ h ++ 1#7)
  | .slrecv d a h => some (39#6 ++ d ++ a ++ 0#5 ++ h ++ 2#7)
  | .slpass a b h => some (39#6 ++ 0#5 ++ a ++ b ++ h ++ 3#7)
  | .slclose a h => some (39#6 ++ 0#5 ++ a ++ 0#5 ++ h ++ 4#7)
  | .slpoll d a h => some (39#6 ++ d ++ a ++ 0#5 ++ h ++ 5#7)
  | .rpkey d a b => some (40#6 ++ d ++ a ++ b ++ 0#11)
  | .rprun a h => some (40#6 ++ 0#5 ++ a ++ 0#5 ++ h ++ 1#7)
  | .rpdisp a h => some (40#6 ++ 0#5 ++ a ++ 0#5 ++ h ++ 2#7)
  | .rpstat d a h => some (40#6 ++ d ++ a ++ 0#5 ++ h ++ 3#7)
  | .ctBind d a b => some (41#6 ++ d ++ a ++ b ++ 0#11)
  | .ctLd d a => some (41#6 ++ d ++ a ++ 1#16)
  | .ctSt d a h => some (41#6 ++ d ++ a ++ 0#5 ++ h ++ 2#7)
  | .ctAdd d a b h => some (41#6 ++ d ++ a ++ b ++ h ++ 3#7)
  | .ctSub d a b h => some (41#6 ++ d ++ a ++ b ++ h ++ 4#7)
  | .ctNeg d a h => some (41#6 ++ d ++ a ++ 0#5 ++ h ++ 5#7)
  | .ctMulk d a b h => some (41#6 ++ d ++ a ++ b ++ h ++ 6#7)
  | .ctMulp d a b h => some (41#6 ++ d ++ a ++ b ++ h ++ 7#7)
  | .ctRot d a b h => some (41#6 ++ d ++ a ++ b ++ h ++ 8#7)
  | .ctKsw d a b h => some (41#6 ++ d ++ a ++ b ++ h ++ 9#7)
  | .ctModsw d a b h => some (41#6 ++ d ++ a ++ b ++ h ++ 10#7)
  | .ctExtr d a b h => some (41#6 ++ d ++ a ++ b ++ h ++ 11#7)
  | .ctPack d a b h cnt => some (41#6 ++ d ++ a ++ b ++ h ++ 3#2 ++ cnt)
  | .ctRefresh d a b h tb => some (42#6 ++ d ++ a ++ b ++ h ++ 0#4 ++ tb)
  | .ctBrinit d a h tb => some (42#6 ++ d ++ a ++ 0#5 ++ h ++ 1#4 ++ tb)
  | .ctBrstep d a b h => some (42#6 ++ d ++ a ++ b ++ h ++ 16#7)
  | .ctBrfin d a h => some (42#6 ++ d ++ a ++ 0#5 ++ h ++ 17#7)
  | .ctAlw d a => some (42#6 ++ d ++ a ++ 18#16)
  | .ctWin a => some (42#6 ++ 0#5 ++ a ++ 19#16)
  | .tbLd d a h => some (42#6 ++ d ++ a ++ 0#5 ++ h ++ 20#7)
  | .kyBind d a h => some (42#6 ++ d ++ a ++ 0#5 ++ h ++ 21#7)
  | .cNop _ _ => none
  | .cAdd _ _ => none
  | .cSub _ _ => none
  | .cAnd _ _ => none
  | .cOr _ _ => none
  | .cXor _ _ => none
  | .cShl _ _ => none
  | .cShr _ _ => none
  | .cSra _ _ => none
  | .cSlt _ _ => none
  | .cSltu _ _ => none
  | .cMin _ _ => none
  | .cMax _ _ => none
  | .cMinu _ _ => none
  | .cMaxu _ _ => none
  | .cMul _ _ => none
  | .cAddi _ _ => none
  | .cAndi _ _ => none
  | .cShli _ _ => none
  | .cShri _ _ => none
  | .cSrai _ _ => none
  | .cSlti _ _ => none
  | .cLdD _ _ => none
  | .cLdW _ _ => none
  | .cStD _ _ => none
  | .cStW _ _ => none
  | .cFaddD _ _ => none
  | .cFsubD _ _ => none
  | .cFmulD _ _ => none
  | .cFmaD _ _ => none
  | .cMulhu _ _ => none
  | .trapTake _ => none
  | .timer _ => none
  | .idleTimeout _ => none
  | .loadDataArrival _ => none
  | .storePerformed _ => none
  | .divideComplete _ => none
  | .fdivComplete _ => none
  | .atomicComplete _ => none
  | .vectorComplete _ => none
  | .copyComplete _ => none
  | .engineFault _ => none
  | .ctChannelComplete _ => none
  | .refreshWindowExpiry _ => none
  | .refreshBatchComplete _ => none
  | .sleeveCommandComplete _ => none
  | .tailoringComplete _ => none
  | .tailoringTimeout _ => none
  | .peerLost _ => none
  | .icinvComplete _ => none
  | .ctxsaveComplete _ => none
  | .ctxrstComplete _ => none
  | .launchEnqueue _ => none
  | .hostLaunchWrite _ _ _ => none
  | .dispatch _ _ => none
  | .headPromotion _ => none
  | .yieldTimeout _ _ => none
  | .preemptTimeout _ => none
  | .resumeParked _ _ => none
  | .receiptSign _ => none
  | .powerWindow _ => none
  | .thrinAssert => none
  | .pkglim _ => none
  | .stklim _ _ => none
  | .spres _ => none
  | .poolmap _ => none
  | .rgtab _ => none
  | .rgkey _ => none
  | .rgkeyComplete _ => none
  | .tlbinv _ => none
  | .tlbinvComplete _ => none
  | .ldest _ => none
  | .fcsr _ => none
  | .alpol _ => none
  | .registerWrite _ _ => none
  | .obctl _ _ => none
  | .obbuf _ _ => none
  | .obtail _ _ => none
  | .rcreq _ _ => none
  | .profileEntry _ _ _ _ => none
  | .qstat _ _ => none
  | .bccfg _ _ => none
  | .bcstg _ _ => none
  | .bchc _ _ => none
  | .bcresync _ _ => none
  | .bcKeyInstall _ _ => none
  | .bcSlot _ _ => none
  | .flitReceive _ _ _ _ => none
  | .laneLockLoss _ _ => none
  | .planeControl _ _ => none
  | .frameArbitration _ _ => none
  | .frameDigest _ _ _ => none
  | .planeResume _ => none
  | .wr _ _ => none
  | .rd _ _ => none
  | .rdr _ _ => none
  | .amo _ _ => none
  | .amor _ _ => none
  | .wack _ _ => none
  | .sli _ _ => none
  | .slc _ _ => none
  | .tlr _ _ => none
  | .tlc _ _ => none
  | .barMessage _ _ => none
  | .clm _ _ => none
  | .clmr _ _ => none
  | .ack _ _ => none
  | .nak _ _ => none
  | .nakCtx _ _ => none
  | .ackTimer _ => none
  | .gapTimer _ => none
  | .resendTimer _ => none
  | .atomicRetry _ => none
  | .deliveryTimeout _ => none
  | .sessionReestablish _ => none
  | .contactLoss _ => none
  | .d2dKeyRenewal => none
  | .ideIntegrityFailure _ => none
  | .hostRegisterRequest _ => none
  | .glitchDetect => none
  | .debugPortAccess => none
  | .eccError _ _ => none
  | .reset _ => none
  | .i3cAddressAssignment _ => none
  | .thrinDeassert => none
  | .doeSpdmMessage _ => none
  | .cxlMemRequest _ => none
  | .sessionKeyUpdate _ => none
  | .queueBind _ => none
  | .supervisorTaskEnd _ _ => none
  | .fixedResultLanding _ => none
  | .rpstatComplete _ => none

/-- The half of a compact instruction; none for every other instruction. -/
def encodeCompact : Instr → Option (BitVec 15)
  | .cNop a b => some (0#5 ++ a ++ b)
  | .cAdd a b => some (1#5 ++ a ++ b)
  | .cSub a b => some (2#5 ++ a ++ b)
  | .cAnd a b => some (3#5 ++ a ++ b)
  | .cOr a b => some (4#5 ++ a ++ b)
  | .cXor a b => some (5#5 ++ a ++ b)
  | .cShl a b => some (6#5 ++ a ++ b)
  | .cShr a b => some (7#5 ++ a ++ b)
  | .cSra a b => some (8#5 ++ a ++ b)
  | .cSlt a b => some (9#5 ++ a ++ b)
  | .cSltu a b => some (10#5 ++ a ++ b)
  | .cMin a b => some (11#5 ++ a ++ b)
  | .cMax a b => some (12#5 ++ a ++ b)
  | .cMinu a b => some (13#5 ++ a ++ b)
  | .cMaxu a b => some (14#5 ++ a ++ b)
  | .cMul a b => some (15#5 ++ a ++ b)
  | .cAddi a b => some (16#5 ++ a ++ b)
  | .cAndi a b => some (17#5 ++ a ++ b)
  | .cShli a b => some (18#5 ++ a ++ b)
  | .cShri a b => some (19#5 ++ a ++ b)
  | .cSrai a b => some (20#5 ++ a ++ b)
  | .cSlti a b => some (21#5 ++ a ++ b)
  | .cLdD a b => some (22#5 ++ a ++ b)
  | .cLdW a b => some (23#5 ++ a ++ b)
  | .cStD a b => some (24#5 ++ a ++ b)
  | .cStW a b => some (25#5 ++ a ++ b)
  | .cFaddD a b => some (26#5 ++ a ++ b)
  | .cFsubD a b => some (27#5 ++ a ++ b)
  | .cFmulD a b => some (28#5 ++ a ++ b)
  | .cFmaD a b => some (29#5 ++ a ++ b)
  | .cMulhu a b => some (30#5 ++ a ++ b)
  | .add _ _ _ => none
  | .sub _ _ _ => none
  | .and _ _ _ => none
  | .or _ _ _ => none
  | .xor _ _ _ => none
  | .shl _ _ _ => none
  | .shr _ _ _ => none
  | .sra _ _ _ => none
  | .slt _ _ _ => none
  | .sltu _ _ _ => none
  | .min _ _ _ => none
  | .max _ _ _ => none
  | .minu _ _ _ => none
  | .maxu _ _ _ => none
  | .mul _ _ _ => none
  | .mulh _ _ _ => none
  | .mulhu _ _ _ => none
  | .div _ _ _ _ => none
  | .divu _ _ _ _ => none
  | .rem _ _ _ _ => none
  | .remu _ _ _ _ => none
  | .clz _ _ => none
  | .ctz _ _ => none
  | .popc _ _ => none
  | .bswap _ _ => none
  | .addi _ _ _ => none
  | .andi _ _ _ => none
  | .ori _ _ _ => none
  | .xori _ _ _ => none
  | .shli _ _ _ => none
  | .shri _ _ _ => none
  | .srai _ _ _ => none
  | .slti _ _ _ => none
  | .sltiu _ _ _ => none
  | .lhi _ _ => none
  | .lpc _ _ => none
  | .ldB _ _ _ _ => none
  | .ldH _ _ _ _ => none
  | .ldW _ _ _ _ => none
  | .ldD _ _ _ _ => none
  | .ldBu _ _ _ _ => none
  | .ldHu _ _ _ _ => none
  | .ldWu _ _ _ _ => none
  | .stB _ _ _ _ => none
  | .stH _ _ _ _ => none
  | .stW _ _ _ _ => none
  | .stD _ _ _ _ => none
  | .ldacq _ _ _ _ => none
  | .strel _ _ _ _ => none
  | .amoAdd _ _ _ _ _ => none
  | .amoAnd _ _ _ _ _ => none
  | .amoOr _ _ _ _ _ => none
  | .amoXor _ _ _ _ _ => none
  | .amoMin _ _ _ _ _ => none
  | .amoMax _ _ _ _ _ => none
  | .amoMinu _ _ _ _ _ => none
  | .amoMaxu _ _ _ _ _ => none
  | .amoSwap _ _ _ _ _ => none
  | .cas _ _ _ _ _ => none
  | .beq _ _ _ => none
  | .bne _ _ _ => none
  | .blt _ _ _ => none
  | .bge _ _ _ => none
  | .bltu _ _ _ => none
  | .bgeu _ _ _ => none
  | .jal _ _ => none
  | .jalr _ _ _ => none
  | .loop _ _ => none
  | .loopr _ _ => none
  | .dly _ => none
  | .wait _ _ _ => none
  | .post _ _ => none
  | .hset _ _ => none
  | .halt => none
  | .launch _ _ => none
  | .fadd _ _ _ _ => none
  | .fsub _ _ _ _ => none
  | .fmul _ _ _ _ => none
  | .fma _ _ _ _ => none
  | .fdiv _ _ _ _ _ => none
  | .fsqrt _ _ _ _ => none
  | .fmin _ _ _ _ => none
  | .fmax _ _ _ _ => none
  | .fcmpEq _ _ _ _ => none
  | .fcmpNe _ _ _ _ => none
  | .fcmpLt _ _ _ _ => none
  | .fcmpLe _ _ _ _ => none
  | .fcmpGt _ _ _ _ => none
  | .fcmpGe _ _ _ _ => none
  | .fclass _ _ _ => none
  | .fcvt _ _ _ _ => none
  | .fcvtInt _ _ _ _ => none
  | .trap _ => none
  | .eret => none
  | .csrr _ _ => none
  | .csrw _ _ => none
  | .csrs _ _ => none
  | .csrc _ _ => none
  | .fenceAcq _ => none
  | .fenceRel _ => none
  | .fenceFull _ => none
  | .fenceSv => none
  | .fenceIo _ => none
  | .bkpt _ => none
  | .icinv _ _ _ _ => none
  | .idle => none
  | .ctxsave _ _ => none
  | .ctxrst _ _ => none
  | .poolHeader _ => none
  | .setvli _ _ _ _ _ _ _ _ => none
  | .setvl _ _ _ _ => none
  | .settl _ _ _ => none
  | .vld _ _ _ _ _ _ => none
  | .vst _ _ _ _ _ _ => none
  | .mld _ _ _ => none
  | .mst _ _ _ => none
  | .vlds _ _ _ _ _ _ _ => none
  | .vsts _ _ _ _ _ _ _ => none
  | .vldx _ _ _ _ _ _ _ => none
  | .vstx _ _ _ _ _ _ _ => none
  | .vamo _ _ _ _ _ => none
  | .vaddVV _ _ _ _ _ _ _ => none
  | .vaddVX _ _ _ _ _ _ => none
  | .vaddVI _ _ _ _ _ _ => none
  | .vsubVV _ _ _ _ _ _ _ => none
  | .vsubVX _ _ _ _ _ _ => none
  | .vsubVI _ _ _ _ _ _ => none
  | .vrsubVV _ _ _ _ _ _ _ => none
  | .vrsubVX _ _ _ _ _ _ => none
  | .vrsubVI _ _ _ _ _ _ => none
  | .vadcVV _ _ _ _ _ _ => none
  | .vadcVX _ _ _ _ _ => none
  | .vadcVI _ _ _ _ _ => none
  | .vsbcVV _ _ _ _ _ _ => none
  | .vsbcVX _ _ _ _ _ => none
  | .vsbcVI _ _ _ _ _ => none
  | .vmadcVV _ _ _ _ _ _ => none
  | .vmadcVX _ _ _ _ _ => none
  | .vmadcVI _ _ _ _ _ => none
  | .vmsbcVV _ _ _ _ _ _ => none
  | .vmsbcVX _ _ _ _ _ => none
  | .vmsbcVI _ _ _ _ _ => none
  | .vandVV _ _ _ _ _ _ _ => none
  | .vandVX _ _ _ _ _ _ => none
  | .vandVI _ _ _ _ _ _ => none
  | .vorVV _ _ _ _ _ _ _ => none
  | .vorVX _ _ _ _ _ _ => none
  | .vorVI _ _ _ _ _ _ => none
  | .vxorVV _ _ _ _ _ _ _ => none
  | .vxorVX _ _ _ _ _ _ => none
  | .vxorVI _ _ _ _ _ _ => none
  | .vshlVV _ _ _ _ _ _ _ => none
  | .vshlVX _ _ _ _ _ _ => none
  | .vshlVI _ _ _ _ _ _ => none
  | .vshrVV _ _ _ _ _ _ _ => none
  | .vshrVX _ _ _ _ _ _ => none
  | .vshrVI _ _ _ _ _ _ => none
  | .vsraVV _ _ _ _ _ _ _ => none
  | .vsraVX _ _ _ _ _ _ => none
  | .vsraVI _ _ _ _ _ _ => none
  | .vmulVV _ _ _ _ _ _ _ => none
  | .vmulVX _ _ _ _ _ _ => none
  | .vmulVI _ _ _ _ _ _ => none
  | .vmulhVV _ _ _ _ _ _ _ => none
  | .vmulhVX _ _ _ _ _ _ => none
  | .vmulhVI _ _ _ _ _ _ => none
  | .vmulhuVV _ _ _ _ _ _ _ => none
  | .vmulhuVX _ _ _ _ _ _ => none
  | .vmulhuVI _ _ _ _ _ _ => none
  | .vminVV _ _ _ _ _ _ _ => none
  | .vminVX _ _ _ _ _ _ => none
  | .vminVI _ _ _ _ _ _ => none
  | .vmaxVV _ _ _ _ _ _ _ => none
  | .vmaxVX _ _ _ _ _ _ => none
  | .vmaxVI _ _ _ _ _ _ => none
  | .vminuVV _ _ _ _ _ _ _ => none
  | .vminuVX _ _ _ _ _ _ => none
  | .vminuVI _ _ _ _ _ _ => none
  | .vmaxuVV _ _ _ _ _ _ _ => none
  | .vmaxuVX _ _ _ _ _ _ => none
  | .vmaxuVI _ _ _ _ _ _ => none
  | .vmergeVV _ _ _ _ _ _ => none
  | .vmergeVX _ _ _ _ _ => none
  | .vmergeVI _ _ _ _ _ => none
  | .vmvVV _ _ _ _ _ => none
  | .vmvVX _ _ _ _ => none
  | .vmvVI _ _ _ _ => none
  | .vcmpEqVV _ _ _ _ _ _ _ => none
  | .vcmpEqVX _ _ _ _ _ _ => none
  | .vcmpEqVI _ _ _ _ _ _ => none
  | .vcmpNeVV _ _ _ _ _ _ _ => none
  | .vcmpNeVX _ _ _ _ _ _ => none
  | .vcmpNeVI _ _ _ _ _ _ => none
  | .vcmpLtVV _ _ _ _ _ _ _ => none
  | .vcmpLtVX _ _ _ _ _ _ => none
  | .vcmpLtVI _ _ _ _ _ _ => none
  | .vcmpLtuVV _ _ _ _ _ _ _ => none
  | .vcmpLtuVX _ _ _ _ _ _ => none
  | .vcmpLtuVI _ _ _ _ _ _ => none
  | .vcmpLeVV _ _ _ _ _ _ _ => none
  | .vcmpLeVX _ _ _ _ _ _ => none
  | .vcmpLeVI _ _ _ _ _ _ => none
  | .vcmpLeuVV _ _ _ _ _ _ _ => none
  | .vcmpLeuVX _ _ _ _ _ _ => none
  | .vcmpLeuVI _ _ _ _ _ _ => none
  | .vcmpGtVV _ _ _ _ _ _ _ => none
  | .vcmpGtVX _ _ _ _ _ _ => none
  | .vcmpGtVI _ _ _ _ _ _ => none
  | .vcmpGtuVV _ _ _ _ _ _ _ => none
  | .vcmpGtuVX _ _ _ _ _ _ => none
  | .vcmpGtuVI _ _ _ _ _ _ => none
  | .vslupVX _ _ _ _ _ _ => none
  | .vslupVI _ _ _ _ _ _ => none
  | .vsldnVX _ _ _ _ _ _ => none
  | .vsldnVI _ _ _ _ _ _ => none
  | .vsl1up _ _ _ _ _ _ => none
  | .vsl1dn _ _ _ _ _ _ => none
  | .vperm _ _ _ _ _ _ _ => none
  | .vcompress _ _ _ _ => none
  | .viota _ _ => none
  | .vid _ _ _ => none
  | .vwadd _ _ _ _ _ _ _ => none
  | .vwaddu _ _ _ _ _ _ _ => none
  | .vwmul _ _ _ _ _ _ _ => none
  | .vwmulu _ _ _ _ _ _ _ => none
  | .vnshrVX _ _ _ _ _ _ => none
  | .vnshrVI _ _ _ _ _ _ => none
  | .vnsraVX _ _ _ _ _ _ => none
  | .vnsraVI _ _ _ _ _ _ => none
  | .vextS2 _ _ _ _ _ => none
  | .vextS4 _ _ _ _ _ => none
  | .vextZ2 _ _ _ _ _ => none
  | .vextZ4 _ _ _ _ _ => none
  | .vlastx _ _ _ _ _ => none
  | .mand _ _ _ => none
  | .mor _ _ _ => none
  | .mxor _ _ _ => none
  | .mandn _ _ _ => none
  | .mshl _ _ _ => none
  | .mpopc _ _ _ => none
  | .mfirst _ _ _ => none
  | .mlast _ _ _ => none
  | .vmvx _ _ _ _ _ => none
  | .vmvsx _ _ => none
  | .vredSum _ _ _ _ _ _ _ => none
  | .vredAnd _ _ _ _ _ _ _ => none
  | .vredOr _ _ _ _ _ _ _ => none
  | .vredXor _ _ _ _ _ _ _ => none
  | .vredMin _ _ _ _ _ _ _ => none
  | .vredMax _ _ _ _ _ _ _ => none
  | .vredMinu _ _ _ _ _ _ _ => none
  | .vredMaxu _ _ _ _ _ _ _ => none
  | .vfaddVV _ _ _ _ _ _ _ => none
  | .vfaddVX _ _ _ _ _ _ => none
  | .vfsubVV _ _ _ _ _ _ _ => none
  | .vfsubVX _ _ _ _ _ _ => none
  | .vfmulVV _ _ _ _ _ _ _ => none
  | .vfmulVX _ _ _ _ _ _ => none
  | .vfmaVV _ _ _ _ _ _ _ => none
  | .vfmaVX _ _ _ _ _ _ => none
  | .vfdivVV _ _ _ _ _ _ _ => none
  | .vfdivVX _ _ _ _ _ _ => none
  | .vfsqrt _ _ _ _ _ => none
  | .vfminVV _ _ _ _ _ _ _ => none
  | .vfminVX _ _ _ _ _ _ => none
  | .vfmaxVV _ _ _ _ _ _ _ => none
  | .vfmaxVX _ _ _ _ _ _ => none
  | .vfcmpEqVV _ _ _ _ _ _ _ => none
  | .vfcmpEqVX _ _ _ _ _ _ => none
  | .vfcmpNeVV _ _ _ _ _ _ _ => none
  | .vfcmpNeVX _ _ _ _ _ _ => none
  | .vfcmpLtVV _ _ _ _ _ _ _ => none
  | .vfcmpLtVX _ _ _ _ _ _ => none
  | .vfcmpLeVV _ _ _ _ _ _ _ => none
  | .vfcmpLeVX _ _ _ _ _ _ => none
  | .vfcmpGtVV _ _ _ _ _ _ _ => none
  | .vfcmpGtVX _ _ _ _ _ _ => none
  | .vfcmpGeVV _ _ _ _ _ _ _ => none
  | .vfcmpGeVX _ _ _ _ _ _ => none
  | .vfaddBfVV _ _ _ _ _ _ _ => none
  | .vfaddBfVX _ _ _ _ _ _ => none
  | .vfsubBfVV _ _ _ _ _ _ _ => none
  | .vfsubBfVX _ _ _ _ _ _ => none
  | .vfmulBfVV _ _ _ _ _ _ _ => none
  | .vfmulBfVX _ _ _ _ _ _ => none
  | .vfmaBfVV _ _ _ _ _ _ _ => none
  | .vfmaBfVX _ _ _ _ _ _ => none
  | .vfcvt _ _ _ _ _ _ _ => none
  | .vfredo _ _ _ _ _ _ _ => none
  | .vfredSum _ _ _ _ _ _ _ => none
  | .vfredMin _ _ _ _ _ _ _ => none
  | .vfredMax _ _ _ _ _ _ _ => none
  | .vfpot _ _ _ _ _ _ _ => none
  | .vmaddVV _ _ _ _ _ _ _ => none
  | .vmsubVV _ _ _ _ _ _ _ => none
  | .vmmulVV _ _ _ _ _ _ _ => none
  | .vmmacVV _ _ _ _ _ _ _ => none
  | .vmaddVX _ _ _ _ _ _ => none
  | .vmsubVX _ _ _ _ _ _ => none
  | .vmmulVX _ _ _ _ _ _ => none
  | .vmmacVX _ _ _ _ _ _ => none
  | .vbfly _ _ _ _ _ _ _ => none
  | .vibfly _ _ _ _ _ _ _ => none
  | .vntt _ _ _ _ => none
  | .vintt _ _ _ _ => none
  | .vauto _ _ _ _ => none
  | .vdigit _ _ _ _ _ _ => none
  | .mtld _ _ => none
  | .tzero _ => none
  | .tld _ _ _ _ => none
  | .tst _ _ _ _ => none
  | .tmma _ _ _ => none
  | .tmvr _ _ _ => none
  | .copy _ _ _ => none
  | .copyn _ _ => none
  | .epop _ _ _ => none
  | .bar _ _ _ => none
  | .slopen _ _ => none
  | .slsend _ _ _ => none
  | .slrecv _ _ _ => none
  | .slpass _ _ _ => none
  | .slclose _ _ => none
  | .slpoll _ _ _ => none
  | .rpkey _ _ _ => none
  | .rprun _ _ => none
  | .rpdisp _ _ => none
  | .rpstat _ _ _ => none
  | .ctBind _ _ _ => none
  | .ctLd _ _ => none
  | .ctSt _ _ _ => none
  | .ctAdd _ _ _ _ => none
  | .ctSub _ _ _ _ => none
  | .ctNeg _ _ _ => none
  | .ctMulk _ _ _ _ => none
  | .ctMulp _ _ _ _ => none
  | .ctRot _ _ _ _ => none
  | .ctKsw _ _ _ _ => none
  | .ctModsw _ _ _ _ => none
  | .ctExtr _ _ _ _ => none
  | .ctPack _ _ _ _ _ => none
  | .ctRefresh _ _ _ _ _ => none
  | .ctBrinit _ _ _ _ => none
  | .ctBrstep _ _ _ _ => none
  | .ctBrfin _ _ _ => none
  | .ctAlw _ _ => none
  | .ctWin _ => none
  | .tbLd _ _ _ => none
  | .kyBind _ _ _ => none
  | .trapTake _ => none
  | .timer _ => none
  | .idleTimeout _ => none
  | .loadDataArrival _ => none
  | .storePerformed _ => none
  | .divideComplete _ => none
  | .fdivComplete _ => none
  | .atomicComplete _ => none
  | .vectorComplete _ => none
  | .copyComplete _ => none
  | .engineFault _ => none
  | .ctChannelComplete _ => none
  | .refreshWindowExpiry _ => none
  | .refreshBatchComplete _ => none
  | .sleeveCommandComplete _ => none
  | .tailoringComplete _ => none
  | .tailoringTimeout _ => none
  | .peerLost _ => none
  | .icinvComplete _ => none
  | .ctxsaveComplete _ => none
  | .ctxrstComplete _ => none
  | .launchEnqueue _ => none
  | .hostLaunchWrite _ _ _ => none
  | .dispatch _ _ => none
  | .headPromotion _ => none
  | .yieldTimeout _ _ => none
  | .preemptTimeout _ => none
  | .resumeParked _ _ => none
  | .receiptSign _ => none
  | .powerWindow _ => none
  | .thrinAssert => none
  | .pkglim _ => none
  | .stklim _ _ => none
  | .spres _ => none
  | .poolmap _ => none
  | .rgtab _ => none
  | .rgkey _ => none
  | .rgkeyComplete _ => none
  | .tlbinv _ => none
  | .tlbinvComplete _ => none
  | .ldest _ => none
  | .fcsr _ => none
  | .alpol _ => none
  | .registerWrite _ _ => none
  | .obctl _ _ => none
  | .obbuf _ _ => none
  | .obtail _ _ => none
  | .rcreq _ _ => none
  | .profileEntry _ _ _ _ => none
  | .qstat _ _ => none
  | .bccfg _ _ => none
  | .bcstg _ _ => none
  | .bchc _ _ => none
  | .bcresync _ _ => none
  | .bcKeyInstall _ _ => none
  | .bcSlot _ _ => none
  | .flitReceive _ _ _ _ => none
  | .laneLockLoss _ _ => none
  | .planeControl _ _ => none
  | .frameArbitration _ _ => none
  | .frameDigest _ _ _ => none
  | .planeResume _ => none
  | .wr _ _ => none
  | .rd _ _ => none
  | .rdr _ _ => none
  | .amo _ _ => none
  | .amor _ _ => none
  | .wack _ _ => none
  | .sli _ _ => none
  | .slc _ _ => none
  | .tlr _ _ => none
  | .tlc _ _ => none
  | .barMessage _ _ => none
  | .clm _ _ => none
  | .clmr _ _ => none
  | .ack _ _ => none
  | .nak _ _ => none
  | .nakCtx _ _ => none
  | .ackTimer _ => none
  | .gapTimer _ => none
  | .resendTimer _ => none
  | .atomicRetry _ => none
  | .deliveryTimeout _ => none
  | .sessionReestablish _ => none
  | .contactLoss _ => none
  | .d2dKeyRenewal => none
  | .ideIntegrityFailure _ => none
  | .hostRegisterRequest _ => none
  | .glitchDetect => none
  | .debugPortAccess => none
  | .eccError _ _ => none
  | .reset _ => none
  | .i3cAddressAssignment _ => none
  | .thrinDeassert => none
  | .doeSpdmMessage _ => none
  | .cxlMemRequest _ => none
  | .sessionKeyUpdate _ => none
  | .queueBind _ => none
  | .supervisorTaskEnd _ _ => none
  | .fixedResultLanding _ => none
  | .rpstatComplete _ => none

/-- A pair word from its two halves (R215). -/
def pairWord (first second : BitVec 15) : Half := 3#2 ++ first ++ second

end Sys2Proof
end

