-- ==== Sys2Proof/Machine/Fetch.lean ====
section
/-! DEFINITION. Fetching an instruction word (R171, R185, R197, R215, R216) and choosing the hart that issues (R116). -/
namespace Sys2Proof.Machine

/-- The requester of a hart's far fetches. -/
def Hart.fetcher (h : Hart) : Hart := { h with ctx := h.ctx + 16 }

/-- Whether an address lies in a pool of the context (R171). -/
def Hart.inPool (h : Hart) (a : Word) : Bool := h.ct.pools.any fun p => p.1 ≤ a.toNat / 32 && a.toNat / 32 < p.1 + p.2

/-- Whether a fetched place is measured code of a queue (R185). -/
def State.measured (s : State) (q : Queue) (t : Target) : Bool :=
  match t.home with
  | .stack _ => gMeas (s.mem.granule t.key) && q.image.1 ≤ t.key && t.key < q.image.1 + q.image.2
  | _ => false
/-- A fetch outside measured code sets the task's unmeasured flag (R185). -/
def State.noteFetch (s : State) (t : Target) : State :=
  let q := s.sched.queues.getD s.cur.queue .reset
  if s.measured q t then s
  else { s with sched := { s.sched with tasks := s.sched.tasks.map fun k =>
    if k.queue == s.cur.queue && k.num == s.cur.num then { k with unmeasured := true } else k } }

/-- Whether an invalidation covers the issuing hart's fetch of the word at its pc (R163, R266). -/
def Icinv.covers (i : Icinv) (device : Nat) (h : Hart) : Bool :=
  i.world == h.world && scopeInstance i.sc device h.core i.ctx == scopeInstance i.sc device i.core i.ctx &&
    (List.range 4).any fun j => (h.wordPc.toNat + j + 2 ^ 55 - i.base % 2 ^ 55) % 2 ^ 55 < i.len
/-- The replaced versions of the word at a place that no invalidation has taken from the issuing hart's fetches; a line of a world that no
longer owns the place is never hit (R161, R163). -/
def State.oldWords (s : State) (t : Target) : List Half :=
  (s.mem.olds.filter fun e => e.key == t.fetchKey && e.world == t.lworld && !(s.mem.icinvs.any fun i => e.stamp ≤ i.stamp && i.covers s.device s.cur)).map (·.word)
/-- The word that a fetch returns: the one in memory, or a replaced version, by a free choice where they differ (R216, R266). -/
def State.cachedWord (s : State) (t : Target) (w : Half) : Half :=
  match (s.oldWords t).filter (· != w) with
  | [] => w
  | l => (w :: l).getD (Config.pick s.free (2 ^ 47) % (l.length + 1)) w
/-- Keeps a word fetched from another device: it may be fetched again after the other device has replaced it (R216). -/
def State.noteWord (s : State) (t : Target) (w : Half) : State :=
  if t.isFar then { s with mem := { s.mem with olds := { key := t.fetchKey, word := w, stamp := s.clock, world := t.lworld } :: s.mem.olds } } else s

/-- What a fetch comes to. -/
inductive Fetched where
  | word (s : State) (w : Half)
  | trap (t : Trap)
  | hold (s : State)

/-- Takes the word at a translated place. -/
def State.fetchAt (s : State) (t : Target) : Fetched :=
  let s1 := (s.touch s.cur.world s.cur.wordPc.toNat).noteFetch t
  let got (s : State) (bs : List Byte) : Fetched :=
    let w := BitVec.ofNat 32 (ofBytes bs)
    .word (s.noteWord t w) (s.cachedWord t w)
  if t.isFar then
    match s.farNeed s.cur.fetcher t 4 true false with
    | some (a, m) => .hold ((s1.ask s.cur.fetcher t a m).holdOn .far)
    | none =>
      if s.asking s.cur.fetcher then .hold (s1.holdOn .far)
      else match s.farRead s.cur.fetcher t 4 .fetch s.cur.wordPc with
      | .error e => .trap e
      | .ok bs => got (s1.dropAsks s.cur.fetcher) bs
  else got s1 (s.readAt s.cur.world t 4).1

/-- Fetches the word at the pc in the order of R197. The second half of a pair word that has just executed its first half comes
from the same version of the word (R216). -/
def State.fetch (s : State) : Fetched :=
  let h := s.cur
  if h.pc.getLsbD 0 then .trap (alignTrap h.pc)
  else if h.pc.getLsbD 1 && isPair h.ir then .word s h.ir
  else if h.inPool h.wordPc then .trap { code := cPOOL, detail := h.wordPc }
  else match translate s h h.level h.wordPc 4 .fetch true with
  | .error t => .trap t
  | .ok t => s.fetchAt t

/-- The hart of a core that issues next: the ready one whose previous issue is oldest, the lower context on a tie (R116). -/
def State.nextHart (s : State) (core : Nat) : Option Hart :=
  (s.harts.filter fun h => h.core == core && s.ready h).foldl (fun (best : Option Hart) h => match best with
    | none => some h
    | some b => if h.lastIssue < b.lastIssue || (h.lastIssue == b.lastIssue && h.ctx < b.ctx) then some h else some b) none

/-- A cycle of a core passes at a hart that `dly` holds: it counts one slot (R117). -/
def Hart.delayed (h : Hart) : Hart :=
  match h.hold with
  | some (.dly n) => { h with slots := h.slots + 1, hold := if n ≤ 1 then none else some (.dly (n - 1)) }
  | _ => h
/-- A cycle of a core passes (R117). -/
def State.passCycle (s : State) (core : Nat) : State :=
  let f (h : Hart) : Hart := if h.core == core then h.delayed else h
  { s with cur := f s.cur, others := s.others.map f }

/-- Makes the issuing hart of a core the current one and lands what is due at its slot (R118). -/
def State.prepare (s : State) (h : Hart) : State :=
  let s1 := { s.select h.core h.ctx with issues := s.issues + 1 }
  (s1.modCur fun x => { x with lastIssue := s.issues + 1 }).landDue

/-- Whether the pc names the second half of a pair word (R215). -/
def Hart.secondHalf (h : Hart) : Bool := h.pc.getLsbD 1
/-- The issuing hart without its hold: its instruction issues again. -/
def State.freed (s : State) : State := s.modCur fun h => { h with hold := none }
/-- A word that is no instruction traps ILLEGAL (R239). -/
def State.undecoded (s : State) : State := s.takeTrap s.cur.illegal
/-- A device event: a row of the opcode table that has no encoding. -/
def isEvent (i : Instr) : Bool := (encode i).isNone && (encodeCompact i).isNone

/-- Whether an asynchronous trap may find an instruction under way and stop it at an element boundary (R54, R204). -/
def stopsInside (t : Trap) (i : Instr) : Bool :=
  match i with
  | .vfredo .. => true
  | .vld .. | .vst .. | .vlds .. | .vsts .. | .vldx .. | .vstx .. | .vamo .. | .mld .. | .mst .. => t.code == cPREEMPT
  | _ => false
/-- Whether the pending asynchronous trap of the issuing hart is taken inside the next instruction, not before it: a free choice. -/
noncomputable def State.midStop (s : State) : Bool :=
  match s.cur.hold, s.cur.asyncTrap with
  | none, some t => Config.pick s.free (2 ^ 51) % 2 == 1 && (match s.fetch with
    | .word u w => (match decode w u.cur.secondHalf with | .ok i => stopsInside t i | .error _ => false)
    | _ => false)
  | _, _ => false
/-- What comes about at the issuing hart's turn without an instruction; none where one issues. -/
noncomputable def State.turnStart (s : State) : Option State := if s.midStop then none else s.boundary

/-- A step passes: the counters advance. -/
def State.tick (s : State) : State := { s with clock := s.clock + 1, free := s.free + 1 }
/-- Takes the oldest message of the device to itself; one that must wait goes to the end. -/
def State.selfMessage (s : State) (m : Nat × Msg) : State :=
  let u := { s with inbox := s.inbox.drop 1 }
  (u.handle m.1 m.2).getD { u with inbox := u.inbox ++ [m] }

/-- What comes about where nothing is said: progress of what is in flight, or the core whose turn it is. -/
def State.idleTurn (s : State) : State ⊕ Nat :=
  let cores := s.readyCores
  if cores.isEmpty || s.clock % 8 == 7 then
    match s.progress with
    | some t => .inl t
    | none => if cores.isEmpty then .inl s else .inr (cores.getD (s.clock % cores.length) 0)
  else .inr (cores.getD (s.clock % cores.length) 0)

/-- An active user-level hart in core 0 with a word at the start of its TCM slice. -/
def State.placeWord (s : State) (w : Half) : State :=
  let b := s.cur
  let h : Hart := { b with core := 0, ctx := 0, active := true, lane0 := 0, lanes := 4, tcmOff := 0, tcmSize := 4096, level := .user,
                           pc := 0x100000, ir := 0, hold := none, pend := [], preempt := false, timer := false, alarm := none,
                           ct := { b.ct with pools := [] } }
  { s with cur := h, mem := { s.mem.writeClean (tcmKey 0 0) (toBytes 4 w.toNat) with olds := [] } }

end Sys2Proof.Machine
end

