-- ==== Sys2Proof/Machine/Lanes.lean ====
section
/-! DEFINITION. What every vector instruction shares: its checks (R201, R276, R277), its entry in the VIQ (R120), element groups and
convoys (R121 to R123), the destination rules (R278) and poison (R212), hooked moves (R296). -/
namespace Sys2Proof.Machine

/-- The sources of a vector instruction with their chain bits, its mask sources, its groups executed and skipped, whether it reads
its sources whole, and whether its destination counts as written only at its end (R279). -/
structure VMeta where
  vsrc : List (List Nat × BitVec 1)
  msrc : List Nat
  run : Nat
  skip : Nat
  whole : Bool
  atEnd : Bool := false
deriving DecidableEq, Repr

/-- What a vector instruction leaves behind: the registers after it with those it writes, flags, a scalar result, memory writes
a modulus table and a memory sample that come about at its completion, the acknowledgements of its far writes and the
address they name. -/
structure VEffect where
  regs : VecRegs
  vd : List Nat
  md : List Nat
  flags : Flags
  x : Option (BitVec 5 × Word × Bool)
  writes : List WriteBack
  mtab : Option (Vector (BitVec 512) 64)
  waits : List (Nat × Nat)
  sample : List Byte
  va : Word
deriving DecidableEq, Repr

/-- Whether a source with its chain bit clear was written by a member of the open convoy (R122). -/
def Convoy.takes (c : Convoy) (m : VMeta) : Bool :=
  !c.whole && !m.whole && (m.vsrc.any (fun (e : List Nat × BitVec 1) => e.2 == 0 && e.1.any fun r => c.v.getLsbD r) ||
    m.msrc.any fun r => r != 0 && c.m.getLsbD r)
/-- The convoy that the instruction joins or opens. -/
def State.convoyFor (s : State) (m : VMeta) (vd md : List Nat) : State :=
  let joins := match s.cur.convoy with | some c => c.takes m | none => false
  s.convoyJoin joins m.whole (vd.foldl (fun w r => w ||| 1#32 <<< r) 0) (md.foldl (fun w r => w ||| 1#8 <<< r) 0) m.run m.skip
/-- The convoy of an instruction that stops at an element, with the groups that it has run. -/
def State.convoyCut (s : State) (m : VMeta) (run : Nat × Nat) : State :=
  s.convoyStop (match s.cur.convoy with | some c => c.takes m | none => false) m.whole run.1 run.2

/-- Issues a vector instruction that has passed its checks: it holds its hart while the VIQ is full (R116), else takes an entry,
and its register effects stand in program order. -/
def State.vecIssue (s : State) (hook : BitVec 4) (m : VMeta) (e : VEffect) : State :=
  if 32 ≤ s.viqLength then s.holdClosing .viq
  else
    let s1 := (s.convoyFor m e.vd e.md).start hook
      (.vector e.flags (e.x.map fun (x : BitVec 5 × Word × Bool) => (s.xdest x.1, x.2.1, x.2.2)) e.writes
        ((if m.atEnd then e.regs else s.cur.vec).oldV e.vd) (s.cur.vec.oldM e.md) e.mtab e.waits e.sample) false e.va
    let s2 := (s1.modCur fun h => { h with vec := e.regs, csr := { h.csr with vstart := 0 } }).closeFull
    (match e.x with
      | some (d, _, _) => s2.setLdest d
      | none => s2).retire

/-- The checks of R276 and R201. -/
def State.vecOk (s : State) : Except Trap Unit := do
  failIf (vtVill s.cur.csr.vtype) s.cur.illegal
  failIf (s.cur.csr.vstart != 0) s.cur.illegal
/-- Group registers that are no multiple of their group's size (R277). -/
def State.alignV (s : State) (l : List (BitVec 5 × Nat)) : Except Trap Unit :=
  failIf (l.any fun (e : BitVec 5 × Nat) => !aligned e.1.toNat e.2) s.cur.illegal
/-- Whether a group overlaps one of a list. -/
def overlaps (d : BitVec 5 × Nat) (l : List (BitVec 5 × Nat)) : Bool :=
  l.any fun (e : BitVec 5 × Nat) => overlap d.1.toNat d.2 e.1.toNat e.2
/-- Reserved overlaps of a destination group with its sources (R202). -/
def State.apartV (s : State) (d : BitVec 5 × Nat) (l : List (BitVec 5 × Nat)) : Except Trap Unit := failIf (overlaps d l) s.cur.illegal

/-- The groups of an instruction that run and those that dt skips (R121, R123). -/
def State.groupsRun (s : State) (mk : BitVec 3) (dt : BitVec 1) : Nat × Nat :=
  let c := s.cur.vcfg
  let n := cdiv c.vl c.p
  if dt = 0 ∨ mk = 0 ∨ (s.worlds[s.cur.world.toNat]).ct then (n, 0)
  else
    let on (g : Nat) : Bool := (List.range (min c.p (c.vl - g * c.p))).any fun j => s.cur.vec.mask mk.toNat (g * c.p + j)
    let run := ((List.range n).filter on).length
    (run, n - run)
/-- The groups of a mask-only instruction: 64 rows each (R280). -/
def State.maskGroups (s : State) : Nat := cdiv s.cur.vcfg.vl (64 * s.cur.vcfg.p)

/-- Whether an element keeps its old value (R278). -/
def VCfg.keeps (c : VCfg) (active : Nat → Bool) (i : Nat) : Bool :=
  i < c.vstart || (if c.vl ≤ i then !c.tz else !active i && !c.mz)
/-- Whether register k of a destination group at width w keeps any old element. -/
def VCfg.keepsIn (c : VCfg) (active : Nat → Bool) (w k : Nat) : Bool :=
  let n := 2048 * c.p / w
  (List.range n).any fun j => c.keeps active (k * n + j)
/-- The poison of a destination group of n registers: marked where a source was poisoned; a register that a clean result fills
only in part stays poisoned (R212). -/
def VecRegs.settleV (r : VecRegs) (c : VCfg) (active : Nat → Bool) (vd n w : Nat) (p : Bool) : VecRegs :=
  (List.range n).foldl (fun r k => r.markV (vd + k) 1 (p || (r.poisonV (vd + k) 1 && c.keepsIn active w k))) r
/-- The poison of a mask destination. -/
def VecRegs.settleM (r : VecRegs) (c : VCfg) (active : Nat → Bool) (md : Nat) (p : Bool) : VecRegs :=
  r.markM md (p || (r.poisonM md && (List.range (2048 * c.p)).any (c.keeps active)))

/-- An element-wise instruction: its destination, the destination's width and registers, active elements and results, flags, and
whether a source is poisoned. -/
structure VWrite where
  d : BitVec 5
  w : Nat
  n : Nat
  active : Nat → Bool
  res : Nat → Nat
  flags : Flags
  poison : Bool

/-- An effect on vector registers alone. -/
def VecRegs.effect (r : VecRegs) (vd md : List Nat) (f : Flags) : VEffect :=
  { regs := r, vd, md, flags := f, x := none, writes := [], mtab := none, waits := [], sample := [], va := 0 }

/-- Issues an instruction that writes a vector group by R278. -/
def State.vecWrite (s : State) (m : VMeta) (v : VWrite) : State :=
  let c := s.cur.vcfg
  let r := (s.cur.vec.writeGroup c v.d.toNat v.w (v.n * (2048 * c.p / v.w)) v.active v.res).settleV c v.active v.d.toNat v.n v.w v.poison
  s.vecIssue 0 m (r.effect (groupRegs v.d.toNat v.n) [] v.flags)
/-- Issues an instruction that writes a mask register by R278. -/
def State.maskWrite (s : State) (m : VMeta) (d : Nat) (active : Nat → Bool) (res : Nat → Bool) (f : Flags) (p : Bool) : State :=
  let c := s.cur.vcfg
  let r := (s.cur.vec.setMask d (maskResult c (s.cur.vec.m.getD d 0) active res)).settleM c active d p
  s.vecIssue 0 m (r.effect [] (if d = 0 then [] else [d]) f)
/-- Issues an instruction that writes element 0 of a group (when it has a value) and treats the elements from `first` on as tail
elements (R294, R295, R302). -/
def State.elemWrite (s : State) (m : VMeta) (d : BitVec 5) (v : Option Nat) (f : Flags) (p : Bool) : State :=
  let c := { s.cur.vcfg with vl := if v.isSome then 1 else 0, vstart := 0 }
  let on (_ : Nat) : Bool := v.isSome
  let r := (s.cur.vec.writeGroup c d.toNat c.sew (c.g * (2048 * c.p / c.sew)) on (fun _ => v.getD 0)).settleV c on d.toNat c.g c.sew p
  s.vecIssue 0 m (r.effect (groupRegs d.toNat c.g) [] f)
/-- Issues a hooked move (R296). -/
def State.moveOut (s : State) (hook : BitVec 4) (m : VMeta) (d : BitVec 5) (v : Word) (p : Bool) : State :=
  s.vecIssue hook m { (s.cur.vec.effect [] [] 0) with x := some (d, v, p) }

/-- A vector operand's element at the current sew. -/
def State.vE (s : State) (r : BitVec 5) (i : Nat) : Nat := s.cur.vec.elem s.cur.vcfg.p r.toNat s.cur.vcfg.sew i
/-- The registers of a group operand of n registers. -/
def vRegs (r : BitVec 5) (n : Nat) : List Nat := groupRegs r.toNat n
/-- Whether a vector or mask source is poisoned. -/
def State.anyPV (s : State) (l : List (BitVec 5 × Nat)) (ms : List Nat) : Bool :=
  l.any (fun (e : BitVec 5 × Nat) => s.cur.vec.poisonV e.1.toNat e.2) || ms.any s.cur.vec.poisonM

end Sys2Proof.Machine
end

