-- ==== Sys2Proof/Machine/VConfig.lean ====
section
/-! DEFINITION. Vector configuration: `setvli`, `setvl` and `settl` (R281, R282), with lane reclaim and return at a yield point
(R115). -/
namespace Sys2Proof.Machine

/-- The value that the fields of `setvli` give vtype (R226, R227). -/
def cfgVtype (sew grp : BitVec 2) (tl mk : BitVec 1) (cfg : BitVec 8) : Word :=
  let n := cfg.toNat
  let flush := if n < 144 then n / 36 else 0
  let rnd := if n < 144 then n / 6 % 6 else 0
  let slices := if n < 144 then [0, 3, 4, 5, 6, 7].getD (n % 6) 0 else 0
  let q := if n < 144 then 0 else n - 144
  BitVec.ofNat 64 (sew.toNat + 8 * grp.toNat + 32 * tl.toNat + 64 * mk.toNat + 128 * flush + 512 * rnd + 4096 * slices + 32768 * q)

/-- v0 to v31 and m1 to m7 read zero (R115). -/
def VecRegs.scrub (r : VecRegs) : VecRegs := { r with v := Vector.replicate 32 0, m := Vector.replicate 8 0, pv := 0, pm := 0 }
/-- Whether every lane of a former panel is free but for the hart's own. -/
def State.formerFree (s : State) (h : Hart) (f : Nat × Nat) : Bool :=
  let others := (s.activeHarts.filter fun x => x.core == h.core && x.ctx != h.ctx).foldl (fun acc x => acc ||| laneBits x.lane0 x.lanes) 0
  (others ||| s.lanesHeld h.core none) &&& laneBits f.1 f.2 == 0
/-- A yield point (R115): a due reclaim shrinks the panel, a due return restores it; else no register changes. A hart with a
refresh in a batch is no victim (R126). -/
def State.yieldPoint (s : State) : State :=
  let h := s.cur
  if h.claimed != 0 && !s.refreshing h then
    s.modCur fun h => { h with lanes := keptLanes h.lanes h.claimed, former := some (h.former.getD (h.lane0, h.lanes)), claimed := 0,
                               vec := h.vec.scrub }
  else match h.former with
  | some f => if s.formerFree h f then
      s.modCur fun h => { h with lane0 := f.1, lanes := f.2, former := none, vec := h.vec.scrub }
    else s
  | none => s

/-- Installs a requested configuration or the illegal one (R275, R276, R281). -/
def Hart.configure (h : Hart) (avl new : Word) : Hart :=
  let c := vtypeCause new
  let vt : Half := if c = 0 then new.setWidth 32 else BitVec.ofNat 32 (2 ^ 31 + 2 ^ 28 * c)
  let vl : Word := if c = 0 then BitVec.ofNat 64 (min avl.toNat (vlmaxOf h.lanes vt)) else 0
  { h with csr := { h.csr with vtype := vt, vl, vstart := 0 }, pcsr := h.pcsr.filter fun c => !(List.contains [0x001, 0x002, 0x003, 0x004] c) }
/-- `setvl` and `setvli` (R281): closes the strip, drains as fence.full.core, grants vl. -/
def State.configX (s : State) (d a : BitVec 5) (srcs : List (BitVec 5)) (y : Bool) (new : Word) : Out :=
  let avl := s.cur.x a
  s.attempt do
    s.strictX srcs
    let s1 := ((s.useX [a]).drainAll false).modCur fun h => { h with yMark := y, csr := { h.csr with vsb := h.csr.vsb + h.csr.vl } }
    let s2 := (if y then s1.yieldPoint else s1).modCur fun h => h.configure avl new
    let c := s2.cur.csr
    .ok (((s2.later 2 (.cfg c.vl c.vtype c.vsb (BitVec.ofNat 64 (vlmaxOf s2.cur.lanes c.vtype))) 0).laterX 2 d c.vl false).setLdest d).retire

/-- SETVLI (R281). -/
def execSetvli (d a : BitVec 5) (yb : BitVec 1) (sew grp : BitVec 2) (tl mk : BitVec 1) (cfg : BitVec 8) (s : State) : Out :=
  s.configX d a [a] (yb == 1) (cfgVtype sew grp tl mk cfg)
/-- SETVL (R281). -/
def execSetvl (d a b : BitVec 5) (yb : BitVec 1) (s : State) : Out := s.configX d a [a, b] (yb == 1) (s.cur.x b)
/-- SETTL (R282): xm in D, xn in A, xk in B. -/
def execSettl (d a b : BitVec 5) (s : State) : Out :=
  let cap (v : Word) (n : Nat) : Word := BitVec.ofNat 64 (min v.toNat n)
  let h := s.cur
  s.attempt do
    failIf (vtVill h.csr.vtype) h.illegal
    s.strictX [d, a, b]
    .ok ((((s.laterX 2 d (cap (h.x d) 32) (h.px d)).laterX 2 a (cap (h.x a) 32) (h.px a)).laterX 2 b
      (cap (h.x b) (h.vcfg.vlmax / 32)) (h.px b)).setLdest d).retire

end Sys2Proof.Machine
end

