-- ==== Sys2Proof/Machine/EvHart.lean ====
section
/-! DEFINITION. Device events that concern one hart or one operation in flight: traps and timers (R193 to R197, R267), completions,
refresh batches (R124, R125), the effects of CSR writes (R264). An event that names an operation, hart or world in no fitting state
cannot come about. -/
namespace Sys2Proof.Machine

/-- An operation in flight of some kind ends. -/
def State.endOp (s : State) (event : String) (is : OpKind → Bool) (id : Nat) : Out :=
  match s.opById id with
  | some o => if is o.kind then (match s.completeOp o with | some t => .next t | none => notEnabled event) else notEnabled event
  | none => notEnabled event
/-- An event of an active hart, where it can come about. -/
def State.hartEvent (s : State) (event : String) (n : Nat) (f : State → Option State) : Out :=
  match s.hartNo n with
  | some h =>
    if !h.active then notEnabled event else
    match f (s.select h.core h.ctx) with
    | some t => .next (t.select s.cur.core s.cur.ctx)
    | none => notEnabled event
  | none => notEnabled event
/-- An event of one of the device's worlds. -/
def State.worldEvent (event : String) (w : Nat) (ok : Bool) (t : State) : Out := if w < 64 && ok then .next t else notEnabled event

/-- TRAP_TAKE (R196, R197): a trap in progress is entered once nothing is outstanding, or an asynchronous trap is taken. -/
def execTrapTake (hart : Nat) (s : State) : Out :=
  s.hartEvent "TRAP_TAKE" hart fun s => match s.cur.hold with
    | some (.trap t) => if s.released s.cur (.trap t) then some (s.enterTrap t) else none
    | some k => if k.interruptible then s.cur.asyncTrap.map s.takeAsync else none
    | none => s.cur.asyncTrap.map s.takeAsync
/-- TIMER (R193): time has reached stimecmp. -/
def execTimer (hart : Nat) (s : State) : Out :=
  s.hartEvent "TIMER" hart fun s =>
    if s.cur.csr.stimecmp ≤ s.time then some (s.modCur fun h => { h with timer := true }) else none
/-- IDLE_TIMEOUT (R267). -/
def execIdleTimeout (hart : Nat) (s : State) : Out :=
  s.hartEvent "IDLE_TIMEOUT" hart fun s => match s.cur.hold with
    | some (.idle _) => some (s.freed.retire)
    | _ => none

/-- LOAD_DATA_ARRIVAL (R247). -/
def execLoadDataArrival (op : Nat) (s : State) : Out :=
  s.endOp "LOAD_DATA_ARRIVAL" (fun k => match k with | .load .. | .arrived .. => true | _ => false) op
/-- STORE_PERFORMED (R247). -/
def execStorePerformed (op : Nat) (s : State) : Out :=
  s.endOp "STORE_PERFORMED" (fun k => match k with | .store _ => true | _ => false) op
/-- DIVIDE_COMPLETE (R245). -/
def execDivideComplete (op : Nat) (s : State) : Out :=
  s.endOp "DIVIDE_COMPLETE" (fun k => match k with | .divide fp _ _ _ _ => !fp | _ => false) op
/-- FDIV_COMPLETE (R261). -/
def execFdivComplete (op : Nat) (s : State) : Out :=
  s.endOp "FDIV_COMPLETE" (fun k => match k with | .divide fp _ _ _ _ => fp | _ => false) op
/-- ATOMIC_COMPLETE (R248). -/
def execAtomicComplete (op : Nat) (s : State) : Out :=
  s.endOp "ATOMIC_COMPLETE" (fun k => match k with | .atomic .. | .arrived .. => true | _ => false) op
/-- VECTOR_COMPLETE (R120). -/
def execVectorComplete (op : Nat) (s : State) : Out := s.endOp "VECTOR_COMPLETE" OpKind.isVector op
/-- Whether the head command of a copy channel will stop at a fault. -/
def State.copyFaults (s : State) (o : Op) : Bool :=
  match o.kind with
  | .copy cmd r => (match s.runCopy o cmd r with | (_, _, .fault _ _) => true | _ => false)
  | _ => false
/-- COPY_COMPLETE (R323). -/
def execCopyComplete (op : Nat) (s : State) : Out :=
  match s.opById op with
  | some o => if s.copyFaults o then notEnabled "COPY_COMPLETE"
    else s.endOp "COPY_COMPLETE" (fun k => match k with | .copy .. | .copied _ _ => true | _ => false) op
  | none => notEnabled "COPY_COMPLETE"
/-- ENGINE_FAULT (R199). -/
def execEngineFault (op : Nat) (s : State) : Out :=
  match s.opById op with
  | some o => if s.isHead o && s.copyFaults o then s.endOp "ENGINE_FAULT" (fun _ => true) op else notEnabled "ENGINE_FAULT"
  | none => notEnabled "ENGINE_FAULT"
/-- CT_CHANNEL_COMPLETE (R348). -/
def execCtChannelComplete (op : Nat) (s : State) : Out :=
  s.endOp "CT_CHANNEL_COMPLETE" (fun k => match k with | .ct _ => true | _ => false) op
/-- SLEEVE_COMMAND_COMPLETE (R328). -/
def execSleeveCommandComplete (op : Nat) (s : State) : Out :=
  s.endOp "SLEEVE_COMMAND_COMPLETE" (fun k => match k with | .sleeve _ _ => true | _ => false) op
/-- ICINV_COMPLETE (R266). -/
def execIcinvComplete (op : Nat) (s : State) : Out :=
  s.endOp "ICINV_COMPLETE" (fun k => match k with | .icinv .. => true | _ => false) op
/-- CTXSAVE_COMPLETE (R210). -/
def execCtxsaveComplete (op : Nat) (s : State) : Out :=
  s.endOp "CTXSAVE_COMPLETE" (fun k => match k with | .ctxsave _ => true | _ => false) op
/-- CTXRST_COMPLETE (R210). -/
def execCtxrstComplete (op : Nat) (s : State) : Out :=
  s.endOp "CTXRST_COMPLETE" (fun k => match k with | .ctxrst _ => true | _ => false) op
/-- RPSTAT_COMPLETE (R340). -/
def execRpstatComplete (op : Nat) (s : State) : Out :=
  s.endOp "RPSTAT_COMPLETE" (fun k => match k with | .rpstat _ _ => true | _ => false) op

/-- REFRESH_WINDOW_EXPIRY (R124). -/
def execRefreshWindowExpiry (clus : Nat) (s : State) : Out :=
  if (s.batcher clus).gathering.isSome then .next (s.closeBatch clus) else notEnabled "REFRESH_WINDOW_EXPIRY"
/-- REFRESH_BATCH_COMPLETE (R125). -/
def execRefreshBatchComplete (clus : Nat) (s : State) : Out :=
  match s.batchDone clus with
  | some t => .next t
  | none => notEnabled "REFRESH_BATCH_COMPLETE"

/-- The member's operation of a group that has not posted. -/
def State.liveGroup (s : State) (gid : Nat) : Option Group := s.groups.find? fun g => g.gid == gid && g.op.isSome && !g.posted
/-- TAILORING_COMPLETE (R159). -/
def execTailoringComplete (gid : Nat) (s : State) : Out :=
  match s.liveGroup gid with
  | some g => s.endOp "TAILORING_COMPLETE" (fun k => match k with | .tailor .. => true | _ => false) (g.op.getD 0)
  | none => notEnabled "TAILORING_COMPLETE"
/-- TAILORING_TIMEOUT (R155): some member has not issued the operation 10 ms after the first did. -/
def execTailoringTimeout (gid : Nat) (s : State) : Out :=
  match s.groups.find? fun g => g.gid == gid && g.phase == 0 && !(membersOf g.mmap).all fun v => g.inputs.any fun i => i.1 == v with
  | some g => .next ((s.groupEnd g 2).toMembers g.mmap (.ended g.gid g.epoch g.mmap 2 g.world))
  | none => notEnabled "TAILORING_TIMEOUT"

/-- LAUNCH_ENQUEUE (R107): a slot is free for a held `launch`. -/
def execLaunchEnqueue (hart : Nat) (s : State) : Out :=
  s.hartEvent "LAUNCH_ENQUEUE" hart fun s => match s.cur.hold with
    | some (.launch p h) => if s.released s.cur (.launch p h) then s.resume (.launch p h) else none
    | _ => none
/-- FIXED_RESULT_LANDING (R404): the hooked fixed-latency result of an issue number lands. -/
def execFixedResultLanding (op : Nat) (s : State) : Out :=
  match s.harts.find? fun h => h.pend.any fun p => p.seq == op && p.hook != 0 && !p.done with
  | some h => (match h.pend.find? fun p => p.seq == op && p.hook != 0 && !p.done with
    | some p => .next (s.landHook h p)
    | none => notEnabled "FIXED_RESULT_LANDING")
  | none => notEnabled "FIXED_RESULT_LANDING"

/-! The effects of CSR writes by the issuing hart. -/

/-- The effect of a CSR write of a clean value, apart from the instruction's retirement. -/
def State.csrEffect (s : State) (c : Nat) (v : Word) : Out :=
  match if csrReach s.cur.level c then s.csrAsk c v else none with
  | some u => .next u
  | none => s.attempt ((s.csrWrite c .write v).map fun t => (t.tookTable c v).markCsr c false)
/-- SPRES (R22). -/
def execSpres (v : Word) (s : State) : Out := s.csrEffect 0x11D v
/-- POOLMAP (R171). -/
def execPoolmap (v : Word) (s : State) : Out := s.csrEffect 0x11A v
/-- RGTAB (R174). -/
def execRgtab (v : Word) (s : State) : Out :=
  if s.cur.level ≠ .user ∧ s.regionsBusy s.cur.world.toNat = true then .next (s.holdOn .regions) else s.csrEffect 0x11B v
/-- RGKEY (R177). -/
def execRgkey (v : Word) (s : State) : Out :=
  if s.cur.level ≠ .user ∧ s.rekeyWaits s.cur.world.toNat = true then .next (s.holdOn .rekey) else s.csrEffect 0x11C v
/-- TLBINV (R168). -/
def execTlbinv (v : Word) (s : State) : Out := s.csrEffect 0x119 v
/-- LDEST (R236). -/
def execLdest (v : Word) (s : State) : Out := s.csrEffect 0x009 v
/-- FCSR (R51). -/
def execFcsr (v : Word) (s : State) : Out := s.csrEffect 0x000 v
/-- ALPOL (R190). -/
def execAlpol (v : Word) (s : State) : Out := s.csrEffect 0x3A0 v
/-- REGISTER_WRITE (R264). -/
def execRegisterWrite (csr : BitVec 12) (v : Word) (s : State) : Out :=
  if csr = 0x11C#12 then execRgkey v s else if csr = 0x11B#12 then execRgtab v s else s.csrEffect csr.toNat v

/-- RGKEY_COMPLETE (R177): once every access to the region that was issued has completed. -/
def execRgkeyComplete (world : Nat) (s : State) : Out :=
  State.worldEvent "RGKEY_COMPLETE" world ((s.worlds.getD world .reset).rgkey.isSome && !s.rekeyWaits world) (s.rekeyDone world)
/-- TLBINV_COMPLETE (R168). -/
def execTlbinvComplete (world : Nat) (s : State) : Out :=
  State.worldEvent "TLBINV_COMPLETE" world (s.worlds.getD world .reset).tlbinv.isSome (s.tlbDone (BitVec.ofNat 6 world))

end Sys2Proof.Machine
end

