-- ==== Sys2Proof/Machine/EvSched.lean ====
section
/-! DEFINITION. Device events of the dispatchers (R107 to R115, R204, R205, R399): launch windows, bindings, starts, reclaim and
full saves for class-0 heads, resumption of parked harts, ends of tasks. -/
namespace Sys2Proof.Machine

/-- HOST_LAUNCH_WRITE (R104, R107, R382): a write to a launch window that R181 lets through. -/
def execHostLaunchWrite (queue off : Nat) (data : List Byte) (s : State) : Out :=
  if 256 ≤ queue then notEnabled "HOST_LAUNCH_WRITE" else .next (s.hostLaunch queue off data)

/-- The granules of a run of bytes. -/
def granulesOf (base len : Nat) : List Nat := (List.range (cdiv (base % 65536 + len) 65536)).map fun i => base / 65536 * 65536 + 65536 * i
/-- Whether a binding is one that firmware approves: a ready device, a world of a tenant that exists, an idle queue, a code image in
local memory (R28, R107, R162, R386). -/
def State.bindOk (s : State) (q : BindReq) : Bool :=
  s.board.bootst == 4 && q.queue < 256 && 1 ≤ q.world && q.world < 64 && q.cls < 4 && q.home < 8 &&
  (s.worlds.getD q.world .reset).live && !(s.worlds.getD q.world .reset).quarantined &&
  (s.queue q.queue).slots.isEmpty && !(s.sched.tasks.any fun t => t.queue == q.queue) &&
  (granulesOf q.base q.len).all isLocalRam
/-- QUEUE_BIND (R107, R185): the queue starts afresh; Thatum records the image's digest and sets meas on its granules. -/
def execQueueBind (q : BindReq) (s : State) : Out :=
  if s.bindOk q then
    let code := shake256 (s.mem.readBytes q.base q.len) 64
    let s := { s with mem := (granulesOf q.base q.len).foldl (fun m a => m.setMeas a true) s.mem }
    .next (s.modQueue q.queue fun _ => { Queue.reset with
      bound := true, world := BitVec.ofNat 6 q.world, cls := q.cls, serial := q.serial, home := q.home, code, image := (q.base, q.len) })
  else notEnabled "QUEUE_BIND"

/-- Whether the places that an event names lie on a dispatcher's stacks (R111). -/
def onDispatcher (disp : Nat) (place : List Place) : Bool := disp == 8 || place.all fun p => stackOf p.core == disp

/-! Heads whose tables or events can no longer be read. -/

/-- The first head of a dispatcher that retires as refused (R405). -/
def State.refusedHead (s : State) (disp : Nat) : Option (Nat × Slot) :=
  (List.range 256).findSome? fun q => if !s.homeHead disp q then none else match s.headReady q with
    | some (slot, _, false) => some (q, slot)
    | _ => none
/-- Such a head retires without running. -/
def State.refuseHead (s : State) (q : Nat) (slot : Slot) : State :=
  (((s.modQueue q fun x => { x with slots := x.slots.drop 1, started := x.started + 1, promoted := false }).dropHeld q).violation
    (s.queue q).world.toNat).refuse slot.packet q slot.num slot.tenq true

/-! Parked harts (R205, R399). -/

/-- Whether a parked hart's task still has an active hart, and so its allocations (R399). -/
def State.stillHeld (s : State) (p : Parked) : Bool := s.activeHarts.any fun h => h.queue == p.queue && h.num == p.num
/-- The harts that resume with a parked one: itself where its task still has an active hart, else all parked harts of its task. -/
def State.parkedGroup (s : State) (p : Parked) : List Parked :=
  if s.stillHeld p then [p] else s.sched.parked.filter fun x => x.queue == p.queue && x.num == p.num
/-- A resumed hart at a place: supervisor level at srvec, the parked sresume in supervisor a0 (R205). -/
def Hart.resumed (old : Hart) (e : Place) (p : Parked) (launched : Nat) : Hart :=
  let h := old.launchInto e p.queue p.num p.ord p.world p.lanes p.tcmSize p.spadSize launched
  { h with level := .supervisor, pc := h.csr.srvec, sup := { Bank.reset with x := Bank.reset.x.set 4 p.sresume },
           samples := p.samples, ct := { h.ct with ptab := p.ptab } }
/-- Whether a place keeps R399 for a parked hart: tile ownership as it was; the cluster of the allocation that its task still holds
there; else one cluster for those of its task that shared one, as far as they have their places (log 29). -/
def Parked.fits (held : Bool) (done : List (Parked × Place)) (p : Parked) (e : Place) : Bool :=
  (e.lane0 == 0) == p.tile &&
  if held then clusOf e.core == p.clus else done.all fun x => (x.1.clus == p.clus) == (clusOf x.2.core == clusOf e.core)
/-- Puts parked harts at their places, after those that have theirs; none where a place is not free, or is held for a class-0 head. -/
def State.resumeAt (s : State) (held : Bool) : List (Parked × Place) → List (Parked × Place) → Option State
  | _, [] => some s
  | done, (p, e) :: r =>
    if p.fits held done e && s.placeOk p.queue p.num p.world p.lanes p.tcmSize p.spadSize e && s.heldClear none p.lanes p.tcmSize e then
      ((s.install (((s.hartAt e.core e.ctx).getD (.idle e.core e.ctx)).resumed e p s.clock)).resumeAt held (done ++ [(p, e)]) r).map fun t =>
        { t with sched := { t.sched with parked := t.sched.parked.filter fun x => x != p } }
    else none
/-- The places to try for a parked hart on its dispatcher's cores: what fits at all fits in the first free context, and at the start of
a memory or right behind something that stands in it (R205, R399). -/
def State.parkedPlaces (s : State) (p : Parked) : List Place :=
  let up (n x : Nat) : Nat := cdiv x n * n
  (if p.disp = 8 then List.range 768 else (List.range 96).map (96 * p.disp + ·)).flatMap fun core =>
    let hs := s.activeHarts.filter fun h => h.core == core
    let held := s.sched.heldFor.filter fun x => x.core == core
    let ctxs := ((List.range 8).filter fun k => !(hs.any fun h => h.ctx == k) && !(held.any fun x => x.ctx == k)).take 1
    let tcms := 0 :: (hs.map fun h => h.tcmOff + h.tcmSize) ++ held.map fun x => x.tcm + x.tcmSize
    let spads := 0 :: ((s.sched.allocs.filter fun a => a.clus == clusOf core).flatMap fun a => [a.off, a.off + a.size]) ++
      (List.range 64).flatMap fun w => [tailorRes s (BitVec.ofNat 6 w), refreshRes s (BitVec.ofNat 6 w)].map fun r => r.1 + r.2
    ctxs.flatMap fun ctx => (List.range (32 / p.lanes)).flatMap fun j => tcms.eraseDups.flatMap fun t => spads.eraseDups.map fun spad =>
      { core, ctx, lane0 := j * p.lanes, tcm := up 4096 t, spad := up 2048 spad }
/-- Whether parked harts that resume together all have a place, after those that have theirs (R205, R399). -/
def State.parkedFit (s : State) (held : Bool) : List (Parked × Place) → List Parked → Bool
  | _, [] => true
  | done, p :: r => (s.parkedPlaces p).any fun e => p.fits held done e && match s.resumeAt held done [(p, e)] with
    | some t => t.parkedFit held (done ++ [(p, e)]) r
    | none => false
/-- The parked heads of a dispatcher in the order that it considers them within a class: the one parked longest first (R205). -/
def State.parkedHeads (s : State) (disp c : Nat) : List Parked := s.sched.parked.filter fun p => p.disp == disp && p.cls == c
/-- The first parked head of a dispatcher that fits, by class and then by time parked (R205). -/
def State.nextParked (s : State) (disp : Nat) : Option Parked :=
  ((List.range 4).flatMap (s.parkedHeads disp)).find? fun p => s.parkedFit (s.stillHeld p) [] (s.parkedGroup p)

/-- RESUME_PARKED (R205, R399): the first parked head that fits, unless a queue head of a higher class is dispatchable. -/
def execResumeParked (disp : Nat) (place : List Place) (s : State) : Out :=
  match s.nextParked disp with
  | none => notEnabled "RESUME_PARKED"
  | some p =>
    let g := s.parkedGroup p
    let better : Bool := match s.chooseHead disp with | some (c, _, _) => decide (c < p.cls) | none => false
    if better || g.length != place.length || !onDispatcher disp place then notEnabled "RESUME_PARKED"
    else match s.resumeAt (s.stillHeld p) [] (g.zip place) with
    | some t => .next t
    | none => notEnabled "RESUME_PARKED"

/-! Reclaim for a class-0 head (R114, R115). -/

/-- Harts by launch time, the latest first. -/
def latestFirst (l : List Hart) : List Hart :=
  l.foldl (fun acc h => (acc.takeWhile fun x => h.launched ≤ x.launched) ++ [h] ++ (acc.dropWhile fun x => h.launched ≤ x.launched)) []
/-- The class of a hart's task; 0 where it has none. -/
def State.classOf (s : State) (h : Hart) : Nat := match s.taskOf h with | some t => t.cls | none => 0
/-- The harts that a class-0 head of a dispatcher may take from, lowest priority first: class 3, then 2, then 1, within a class the
most recently launched first (R114). -/
def State.victimOrder (s : State) (disp : Nat) : List Hart :=
  [3, 2, 1].flatMap fun c => latestFirst (s.activeHarts.filter fun h =>
    (disp == 8 || stackOf h.core == disp) && s.classOf h == c && h.hold != some .ending)
/-- The class-0 heads of a dispatcher, in rising queue number (log 43), that may start but for lanes, harts or TCM that its victims have:
their scratchpad, quota and clusters are free (R114). -/
def State.starvedHeads (s : State) (disp : Nat) : List (Nat × Slot × LoopTab) :=
  let gone (h : Hart) : Bool := h.preempt || h.preempted || (s.victimOrder disp).any fun x => x.isAt h.core h.ctx
  (List.range 256).filterMap fun q => if !s.homeHead disp q || s.headClass q != 0 then none else match s.headReady q with
    | some (slot, t, true) =>
      if s.headOf disp q t && !s.resourcesFree disp q slot.packet t &&
        s.resourcesFreeIf (fun h => if gone h then 0 else h.lanes) disp q slot.packet t then some (q, slot, t) else none
    | _ => none
/-- The yield-marked harts among them; one with a refresh in a batch gives no lanes (R114, R126). -/
def State.yieldOrder (s : State) (disp : Nat) : List Hart := (s.victimOrder disp).filter fun h => h.yMark && !s.refreshing h
/-- The shortest beginning of a list that suffices (R114). -/
def leastPrefix (enough : List Hart → Bool) (l : List Hart) : Option (List Hart) :=
  ((List.range (l.length + 1)).map fun n => l.take n).find? enough
def Hart.among (h : Hart) (l : List Hart) : Bool := l.any fun x => x.isAt h.core h.ctx
/-- The victims whose reclaimable lanes suffice for a starved head: each would keep the fewest lanes that R115 lets it keep. -/
def State.yieldVictims (s : State) (disp q : Nat) (p : BitVec 512) (t : LoopTab) : Option (List Hart) :=
  leastPrefix (fun l => s.resourcesFreeIf (fun h => if h.among l then max 4 (h.lanes / 8) else h.lanes) disp q p t) (s.yieldOrder disp)

/-- The further lanes that a panel at a place claims from victims; none where something else stands there (R115). -/
def State.claimCost (s : State) (victims : List Hart) (core lane0 lanes : Nat) : Option Nat :=
  let held := (s.sched.heldFor.filter fun x => x.core == core).any fun x => laneBits x.lane0 x.lanes &&& laneBits lane0 lanes != 0
  if held || !(s.inWay core lane0 lanes).all fun h => h.among victims && (claimFor h lane0 lanes).isSome then none
  else some (((s.inWay core lane0 lanes).map fun h => (claimFor h lane0 lanes).getD 0 - h.claimed).foldl (· + ·) 0)
/-- Claims a panel from victims: a free context and TCM slice, and no other panel of the core that would claim fewer lanes (R114,
R115). -/
def State.claimPanel (s : State) (victims : List Hart) (q lanes tcm : Nat) (e : Place) : Option State :=
  let hs := s.activeHarts.filter fun h => h.core == e.core
  let held := s.sched.heldFor.filter fun x => x.core == e.core
  let free := !(hs.any fun h => h.ctx == e.ctx || overlap h.tcmOff h.tcmSize e.tcm tcm) &&
    !(held.any fun x => x.ctx == e.ctx || overlap x.tcm x.tcmSize e.tcm tcm)
  match s.claimCost victims e.core e.lane0 lanes with
  | none => none
  | some c =>
    let cheaper := (List.range (32 / lanes)).any fun j => match s.claimCost victims e.core (j * lanes) lanes with
      | some d => d < c
      | none => false
    if e.lane0 % lanes != 0 || 32 < e.lane0 + lanes || 8 ≤ e.ctx || e.tcm % 4096 != 0 || 0x40000 < e.tcm + tcm || !free || cheaper then none
    else
      let s := (s.inWay e.core e.lane0 lanes).foldl (fun (s : State) h => s.modHart h.core h.ctx fun x =>
        { x with claimed := max x.claimed ((claimFor h e.lane0 lanes).getD 0) }) s
      some { s with sched := { s.sched with heldFor := s.sched.heldFor ++
        [{ queue := q, core := e.core, lane0 := e.lane0, lanes, ctx := e.ctx, tcm := e.tcm, tcmSize := tcm }] } }
/-- The first starved head that has claimed nothing yet and for which yield-marked harts suffice, with these victims (R114). -/
def State.reclaimHead (s : State) (disp : Nat) : Option ((Nat × Slot × LoopTab) × List Hart) :=
  (s.starvedHeads disp).findSome? fun (q, slot, t) =>
    if s.sched.heldFor.any fun x => x.queue == q then none
    else (s.yieldVictims disp q slot.packet t).map fun l => ((q, slot, t), l)
/-- Decides a reclaim for a starved class-0 head: the panels that it will get (R114). -/
def State.reclaim (s : State) (disp : Nat) (place : List Place) : Option State :=
  match s.reclaimHead disp with
  | none => none
  | some ((q, slot, t), l) =>
    if place.length != t.dies * t.cores || !onDispatcher disp place || !(place.all fun e => s.coreRoom slot.packet e.core) then none
    else place.foldl (fun (acc : Option State) e => acc.bind fun s =>
      s.claimPanel l q (pkLanes slot.packet) (4096 * pkTcm slot.packet) e) (some s)

/-- Starts the chosen head of a class at its places (R112); a parked hart of the same or a higher class that fits goes first
(R205). -/
def State.startHead (s : State) (disp : Nat) (place : List Place) (c q : Nat) (d : Nat → Nat) : Option State :=
  let parked : Bool := match s.nextParked disp with | some p => p.cls ≤ c | none => false
  if parked then none else
  match s.headReady q with
  | some (slot, t, _) => (s.startTask q slot t place).map fun u =>
    let u := (List.range 256).foldl (fun (u : State) i => if s.homeHead disp i && s.headClass i == c then u.modQueue i fun x => { x with deficit := d i } else u) u
    { u with sched := { u.sched with ptr := u.sched.ptr.setIfInBounds (4 * disp + c) q } }
  | none => none

/-- DISPATCH (R111 to R114, R405): a head that can no longer be read retires; else the chosen head starts, or a starved class-0 head
claims lanes, which goes before a start of a lower class. -/
def execDispatch (disp : Nat) (place : List Place) (s : State) : Out :=
  let start (c q : Nat) (d : Nat → Nat) : Out := match s.startHead disp place c q d with
    | some u => .next u
    | none => notEnabled "DISPATCH"
  if !onDispatcher disp place || 8 < disp then notEnabled "DISPATCH" else
  match s.refusedHead disp with
  | some (q, slot) => .next (s.refuseHead q slot)
  | none =>
    match s.chooseHead disp with
    | some (0, q, d) => start 0 q d
    | head =>
      match s.reclaim disp place with
      | some u => .next u
      | none =>
        if (s.reclaimHead disp).isSome then notEnabled "DISPATCH"
        else match head with
        | some (c, q, d) => start c q d
        | none => notEnabled "DISPATCH"

/-- HEAD_PROMOTION (R113): once for a head of class 3. -/
def execHeadPromotion (queue : Nat) (s : State) : Out :=
  let x := s.queue queue
  if queue < 256 && x.bound && x.cls == 3 && !x.slots.isEmpty && !x.promoted then .next (s.modQueue queue fun x => { x with promoted := true })
  else notEnabled "HEAD_PROMOTION"

/-- The harts whose full save suffices for a starved head, those already being saved counted as gone (R114). -/
def State.saveVictims (s : State) (disp q : Nat) (p : BitVec 512) (t : LoopTab) : Option (List Hart) :=
  leastPrefix (fun l => s.resourcesFreeIf (fun h => if h.among l || h.preempt || h.preempted then 0 else h.lanes) disp q p t)
    ((s.victimOrder disp).filter fun h => !h.preempt && !h.preempted)
/-- Whether a starved head takes whole harts: yield-marked harts do not suffice for it or have not yielded in time, the named victims are
those of the shortest beginning of the order that suffices, but for any whose resources do not help (R114, R204). -/
def State.savesFor (s : State) (disp : Nat) (hs : List Hart) (e : Nat × Slot × LoopTab) : Bool :=
  let due := s.sched.heldFor.any (fun x => x.queue == e.1) || (s.yieldVictims disp e.1 e.2.1.packet e.2.2).isNone
  let kept (h : Hart) : Nat := if h.among hs || h.preempt || h.preempted then 0 else h.lanes
  due && match s.saveVictims disp e.1 e.2.1.packet e.2.2 with
    | some l => hs.all (fun h => h.among l) && l.getLast?.all (fun h => h.among hs) && s.resourcesFreeIf kept disp e.1 e.2.1.packet e.2.2
    | none => false
/-- YIELD_TIMEOUT (R114, R204, R399): the first starved class-0 head for which the named victims are the ones to save takes those whole
harts. The resources of each are held for the head. -/
def execYieldTimeout (disp : Nat) (victims : List Nat) (s : State) : Out :=
  let hs := victims.filterMap s.hartNo
  if hs.length != victims.length || hs.isEmpty then notEnabled "YIELD_TIMEOUT" else
  match (s.starvedHeads disp).find? (s.savesFor disp hs) with
  | none => notEnabled "YIELD_TIMEOUT"
  | some (q, _) =>
    let s := hs.foldl (fun (s : State) h => s.modHart h.core h.ctx fun x => { x with preempt := true, claimed := 0 }) s
    .next { s with sched := { s.sched with heldFor := s.sched.heldFor ++ hs.map fun h =>
      ({ queue := q, core := h.core, lane0 := h.lane0, lanes := h.lanes, ctx := h.ctx, tcm := h.tcmOff, tcmSize := h.tcmSize } : HeldLanes) } }

/-- PREEMPT_TIMEOUT (R204): a hart that has taken PREEMPT and neither parked nor halted has its task ended, end code 1. -/
def execPreemptTimeout (hart : Nat) (s : State) : Out :=
  match s.hartNo hart with
  | some h =>
    match s.taskOf h with
    | some t => if h.active && h.preempted && t.code == 0 then .next (s.endTask t 1) else notEnabled "PREEMPT_TIMEOUT"
    | none => notEnabled "PREEMPT_TIMEOUT"
  | none => notEnabled "PREEMPT_TIMEOUT"
/-- SUPERVISOR_TASK_END (R109). -/
def execSupervisorTaskEnd (queue num : Nat) (s : State) : Out :=
  match s.sched.tasks.find? fun t => t.queue == queue && t.num == num with
  | some t => if t.code = 0 then .next (s.endTask t 1) else notEnabled "SUPERVISOR_TASK_END"
  | none => notEnabled "SUPERVISOR_TASK_END"

end Sys2Proof.Machine
end

