-- ==== Sys2Proof/Machine/VInt.lean ====
section
/-! DEFINITION. Vector integer arithmetic of majors 0x1D, 0x1E and 0x1F (R288, R289): one function each, in .vv, .vx and .vi form. -/
namespace Sys2Proof.Machine

/-- Operand b of R288: its vector register with the chain bit, the x registers read, its value for each element. -/
structure VOperand where
  vec : List (BitVec 5 × BitVec 1)
  xs : List (BitVec 5)
  val : Nat → Nat

/-- .vv: V[B].e[i]. -/
def State.opVV (s : State) (b : BitVec 5) (cb : BitVec 1) : VOperand := { vec := [(b, cb)], xs := [], val := s.vE b }
/-- .vx: the low bits of X[B], captured at issue. -/
def State.opVX (s : State) (b : BitVec 5) : VOperand :=
  { vec := [], xs := [b], val := fun _ => (s.cur.x b).toNat % 2 ^ s.cur.vcfg.sew }
/-- .vi: sext(B, 5) modulo 2^sew. -/
def State.opVI (s : State) (n : BitVec 5) : VOperand :=
  { vec := [], xs := [], val := fun _ => wrapInt s.cur.vcfg.sew (sextInt 5 n.toNat) }
/-- .vi of a shift: zext(B, 5). -/
def opVU (n : BitVec 5) : VOperand := { vec := [], xs := [], val := fun _ => n.toNat }

/-- The vector groups that an operand names. -/
def VOperand.groups (b : VOperand) (g : Nat) : List (BitVec 5 × Nat) := b.vec.map fun (e : BitVec 5 × BitVec 1) => (e.1, g)
/-- The chaining of an instruction with a vector group a and an operand b. -/
def State.metaAB (s : State) (va : List (BitVec 5 × BitVec 1)) (b : VOperand) (mk : BitVec 3) (run : Nat × Nat) : VMeta :=
  let g := s.cur.vcfg.g
  { vsrc := (va ++ b.vec).map fun (e : BitVec 5 × BitVec 1) => (vRegs e.1 g, e.2), msrc := [mk.toNat], run := run.1, skip := run.2,
    whole := false }
/-- Whether a source of an instruction with operand b is poisoned. -/
def State.poisonAB (s : State) (va : List (BitVec 5)) (b : VOperand) (mk : BitVec 3) : Bool :=
  let g := s.cur.vcfg.g
  s.anyPX b.xs || s.anyPV (va.map (fun r => (r, g)) ++ b.groups g) [mk.toNat]

/-- A result in a vector group; `f` takes the width, a and b; the mask field masks (R289). -/
def State.vecAB (s : State) (f : Nat → Nat → Nat → Nat) (d a : BitVec 5) (b : VOperand) (mk : BitVec 3) (dt ca : BitVec 1) : Out :=
  let c := s.cur.vcfg
  s.attempt do
    s.vecOk
    s.alignV ([(d, c.g), (a, c.g)] ++ b.groups c.g)
    s.strictX b.xs
    .ok (s.vecWrite (s.metaAB [(a, ca)] b mk (s.groupsRun mk dt))
      { d, w := c.sew, n := c.g, active := s.cur.vec.active c mk.toNat, res := fun i => f c.sew (s.vE a i) (b.val i), flags := 0,
        poison := s.poisonAB [a] b mk })
/-- A result in a vector group; the mask field is an operand, whose bit `f` takes last (R289). -/
def State.vecABM (s : State) (f : Nat → Nat → Nat → Nat → Nat) (d a : BitVec 5) (b : VOperand) (mk : BitVec 3) (ca : BitVec 1) : Out :=
  let c := s.cur.vcfg
  s.attempt do
    s.vecOk
    s.alignV ([(d, c.g), (a, c.g)] ++ b.groups c.g)
    s.strictX b.xs
    .ok (s.vecWrite (s.metaAB [(a, ca)] b mk (s.groupsRun 0 0))
      { d, w := c.sew, n := c.g, active := s.cur.vec.active c 0,
        res := fun i => f c.sew (s.vE a i) (b.val i) (s.cur.vec.mask mk.toNat i).toNat, flags := 0, poison := s.poisonAB [a] b mk })
/-- A comparison: a result in a mask register, masked (R289). -/
def State.cmpAB (s : State) (f : Nat → Nat → Nat → Bool) (d a : BitVec 5) (b : VOperand) (mk : BitVec 3) (dt ca : BitVec 1) : Out :=
  let c := s.cur.vcfg
  s.attempt do
    s.vecOk
    s.alignV ((a, c.g) :: b.groups c.g)
    s.strictX b.xs
    .ok (s.maskWrite (s.metaAB [(a, ca)] b mk (s.groupsRun mk dt)) d.toNat (s.cur.vec.active c mk.toNat)
      (fun i => f c.sew (s.vE a i) (b.val i)) 0 (s.poisonAB [a] b mk))
/-- A carry or borrow out: a result in a mask register, the mask field an operand (R289). -/
def State.carryAB (s : State) (f : Nat → Nat → Nat → Nat → Bool) (d a : BitVec 5) (b : VOperand) (mk : BitVec 3) (ca : BitVec 1) : Out :=
  let c := s.cur.vcfg
  s.attempt do
    s.vecOk
    s.alignV ((a, c.g) :: b.groups c.g)
    s.strictX b.xs
    .ok (s.maskWrite (s.metaAB [(a, ca)] b mk (s.groupsRun 0 0)) d.toNat (s.cur.vec.active c 0)
      (fun i => f c.sew (s.vE a i) (b.val i) (s.cur.vec.mask mk.toNat i).toNat) 0 (s.poisonAB [a] b mk))
/-- `vmv`: b (R289). -/
def State.moveB (s : State) (d : BitVec 5) (b : VOperand) (mk : BitVec 3) (dt : BitVec 1) : Out :=
  let c := s.cur.vcfg
  s.attempt do
    s.vecOk
    s.alignV ((d, c.g) :: b.groups c.g)
    s.strictX b.xs
    .ok (s.vecWrite (s.metaAB [] b mk (s.groupsRun mk dt))
      { d, w := c.sew, n := c.g, active := s.cur.vec.active c mk.toNat, res := b.val, flags := 0, poison := s.poisonAB [] b mk })

/-! The functions of R289 at width w. -/
def fAdd (_w a b : Nat) : Nat := a + b
def fSub (w a b : Nat) : Nat := 2 ^ w + a - b
def fRsub (w a b : Nat) : Nat := 2 ^ w + b - a
def fAdc (_w a b k : Nat) : Nat := a + b + k
def fSbc (w a b k : Nat) : Nat := 2 ^ w + a + 2 ^ w - b - k
def fMadc (w a b k : Nat) : Bool := 2 ^ w ≤ a + b + k
def fMsbc (_w a b k : Nat) : Bool := a < b + k
def fAnd (_w a b : Nat) : Nat := a &&& b
def fOr (_w a b : Nat) : Nat := a ||| b
def fXor (_w a b : Nat) : Nat := a ^^^ b
def fShl (w a b : Nat) : Nat := a * 2 ^ (b % w)
def fShr (w a b : Nat) : Nat := a / 2 ^ (b % w)
def fSra (w a b : Nat) : Nat := wrapInt w (sextInt w a / (2 ^ (b % w) : Nat))
def fMul (_w a b : Nat) : Nat := a * b
def fMulh (w a b : Nat) : Nat := wrapInt w (sextInt w a * sextInt w b / (2 ^ w : Nat))
def fMulhu (w a b : Nat) : Nat := a * b / 2 ^ w
def fMin (w a b : Nat) : Nat := if sextInt w b < sextInt w a then b else a
def fMax (w a b : Nat) : Nat := if sextInt w a < sextInt w b then b else a
def fMinu (_w a b : Nat) : Nat := min a b
def fMaxu (_w a b : Nat) : Nat := max a b
def fMerge (_w a b k : Nat) : Nat := if k = 1 then b else a
def fEq (_w a b : Nat) : Bool := a == b
def fNe (_w a b : Nat) : Bool := a != b
def fLt (w a b : Nat) : Bool := sextInt w a < sextInt w b
def fLtu (_w a b : Nat) : Bool := a < b
def fLe (w a b : Nat) : Bool := sextInt w a ≤ sextInt w b
def fLeu (_w a b : Nat) : Bool := a ≤ b
def fGt (w a b : Nat) : Bool := sextInt w b < sextInt w a
def fGtu (_w a b : Nat) : Bool := b < a

/-- VADD_VV (R289). -/
def execVaddVV (d a b : BitVec 5) (mk : BitVec 3) (dt ca cb : BitVec 1) (s : State) : Out := s.vecAB fAdd d a (s.opVV b cb) mk dt ca
/-- VADD_VX (R289). -/
def execVaddVX (d a b : BitVec 5) (mk : BitVec 3) (dt ca : BitVec 1) (s : State) : Out := s.vecAB fAdd d a (s.opVX b) mk dt ca
/-- VADD_VI (R289). -/
def execVaddVI (d a imm : BitVec 5) (mk : BitVec 3) (dt ca : BitVec 1) (s : State) : Out := s.vecAB fAdd d a (s.opVI imm) mk dt ca
/-- VSUB_VV (R289). -/
def execVsubVV (d a b : BitVec 5) (mk : BitVec 3) (dt ca cb : BitVec 1) (s : State) : Out := s.vecAB fSub d a (s.opVV b cb) mk dt ca
/-- VSUB_VX (R289). -/
def execVsubVX (d a b : BitVec 5) (mk : BitVec 3) (dt ca : BitVec 1) (s : State) : Out := s.vecAB fSub d a (s.opVX b) mk dt ca
/-- VSUB_VI (R289). -/
def execVsubVI (d a imm : BitVec 5) (mk : BitVec 3) (dt ca : BitVec 1) (s : State) : Out := s.vecAB fSub d a (s.opVI imm) mk dt ca
/-- VRSUB_VV (R289). -/
def execVrsubVV (d a b : BitVec 5) (mk : BitVec 3) (dt ca cb : BitVec 1) (s : State) : Out := s.vecAB fRsub d a (s.opVV b cb) mk dt ca
/-- VRSUB_VX (R289). -/
def execVrsubVX (d a b : BitVec 5) (mk : BitVec 3) (dt ca : BitVec 1) (s : State) : Out := s.vecAB fRsub d a (s.opVX b) mk dt ca
/-- VRSUB_VI (R289). -/
def execVrsubVI (d a imm : BitVec 5) (mk : BitVec 3) (dt ca : BitVec 1) (s : State) : Out := s.vecAB fRsub d a (s.opVI imm) mk dt ca
/-- VADC_VV (R289). -/
def execVadcVV (d a b : BitVec 5) (mk : BitVec 3) (ca cb : BitVec 1) (s : State) : Out := s.vecABM fAdc d a (s.opVV b cb) mk ca
/-- VADC_VX (R289). -/
def execVadcVX (d a b : BitVec 5) (mk : BitVec 3) (ca : BitVec 1) (s : State) : Out := s.vecABM fAdc d a (s.opVX b) mk ca
/-- VADC_VI (R289). -/
def execVadcVI (d a imm : BitVec 5) (mk : BitVec 3) (ca : BitVec 1) (s : State) : Out := s.vecABM fAdc d a (s.opVI imm) mk ca
/-- VSBC_VV (R289). -/
def execVsbcVV (d a b : BitVec 5) (mk : BitVec 3) (ca cb : BitVec 1) (s : State) : Out := s.vecABM fSbc d a (s.opVV b cb) mk ca
/-- VSBC_VX (R289). -/
def execVsbcVX (d a b : BitVec 5) (mk : BitVec 3) (ca : BitVec 1) (s : State) : Out := s.vecABM fSbc d a (s.opVX b) mk ca
/-- VSBC_VI (R289). -/
def execVsbcVI (d a imm : BitVec 5) (mk : BitVec 3) (ca : BitVec 1) (s : State) : Out := s.vecABM fSbc d a (s.opVI imm) mk ca
/-- VMADC_VV (R289). -/
def execVmadcVV (d a b : BitVec 5) (mk : BitVec 3) (ca cb : BitVec 1) (s : State) : Out := s.carryAB fMadc d a (s.opVV b cb) mk ca
/-- VMADC_VX (R289). -/
def execVmadcVX (d a b : BitVec 5) (mk : BitVec 3) (ca : BitVec 1) (s : State) : Out := s.carryAB fMadc d a (s.opVX b) mk ca
/-- VMADC_VI (R289). -/
def execVmadcVI (d a imm : BitVec 5) (mk : BitVec 3) (ca : BitVec 1) (s : State) : Out := s.carryAB fMadc d a (s.opVI imm) mk ca
/-- VMSBC_VV (R289). -/
def execVmsbcVV (d a b : BitVec 5) (mk : BitVec 3) (ca cb : BitVec 1) (s : State) : Out := s.carryAB fMsbc d a (s.opVV b cb) mk ca
/-- VMSBC_VX (R289). -/
def execVmsbcVX (d a b : BitVec 5) (mk : BitVec 3) (ca : BitVec 1) (s : State) : Out := s.carryAB fMsbc d a (s.opVX b) mk ca
/-- VMSBC_VI (R289). -/
def execVmsbcVI (d a imm : BitVec 5) (mk : BitVec 3) (ca : BitVec 1) (s : State) : Out := s.carryAB fMsbc d a (s.opVI imm) mk ca
/-- VAND_VV (R289). -/
def execVandVV (d a b : BitVec 5) (mk : BitVec 3) (dt ca cb : BitVec 1) (s : State) : Out := s.vecAB fAnd d a (s.opVV b cb) mk dt ca
/-- VAND_VX (R289). -/
def execVandVX (d a b : BitVec 5) (mk : BitVec 3) (dt ca : BitVec 1) (s : State) : Out := s.vecAB fAnd d a (s.opVX b) mk dt ca
/-- VAND_VI (R289). -/
def execVandVI (d a imm : BitVec 5) (mk : BitVec 3) (dt ca : BitVec 1) (s : State) : Out := s.vecAB fAnd d a (s.opVI imm) mk dt ca
/-- VOR_VV (R289). -/
def execVorVV (d a b : BitVec 5) (mk : BitVec 3) (dt ca cb : BitVec 1) (s : State) : Out := s.vecAB fOr d a (s.opVV b cb) mk dt ca
/-- VOR_VX (R289). -/
def execVorVX (d a b : BitVec 5) (mk : BitVec 3) (dt ca : BitVec 1) (s : State) : Out := s.vecAB fOr d a (s.opVX b) mk dt ca
/-- VOR_VI (R289). -/
def execVorVI (d a imm : BitVec 5) (mk : BitVec 3) (dt ca : BitVec 1) (s : State) : Out := s.vecAB fOr d a (s.opVI imm) mk dt ca
/-- VXOR_VV (R289). -/
def execVxorVV (d a b : BitVec 5) (mk : BitVec 3) (dt ca cb : BitVec 1) (s : State) : Out := s.vecAB fXor d a (s.opVV b cb) mk dt ca
/-- VXOR_VX (R289). -/
def execVxorVX (d a b : BitVec 5) (mk : BitVec 3) (dt ca : BitVec 1) (s : State) : Out := s.vecAB fXor d a (s.opVX b) mk dt ca
/-- VXOR_VI (R289). -/
def execVxorVI (d a imm : BitVec 5) (mk : BitVec 3) (dt ca : BitVec 1) (s : State) : Out := s.vecAB fXor d a (s.opVI imm) mk dt ca
/-- VSHL_VV (R289). -/
def execVshlVV (d a b : BitVec 5) (mk : BitVec 3) (dt ca cb : BitVec 1) (s : State) : Out := s.vecAB fShl d a (s.opVV b cb) mk dt ca
/-- VSHL_VX (R289). -/
def execVshlVX (d a b : BitVec 5) (mk : BitVec 3) (dt ca : BitVec 1) (s : State) : Out := s.vecAB fShl d a (s.opVX b) mk dt ca
/-- VSHL_VI (R289). -/
def execVshlVI (d a imm : BitVec 5) (mk : BitVec 3) (dt ca : BitVec 1) (s : State) : Out := s.vecAB fShl d a (opVU imm) mk dt ca
/-- VSHR_VV (R289). -/
def execVshrVV (d a b : BitVec 5) (mk : BitVec 3) (dt ca cb : BitVec 1) (s : State) : Out := s.vecAB fShr d a (s.opVV b cb) mk dt ca
/-- VSHR_VX (R289). -/
def execVshrVX (d a b : BitVec 5) (mk : BitVec 3) (dt ca : BitVec 1) (s : State) : Out := s.vecAB fShr d a (s.opVX b) mk dt ca
/-- VSHR_VI (R289). -/
def execVshrVI (d a imm : BitVec 5) (mk : BitVec 3) (dt ca : BitVec 1) (s : State) : Out := s.vecAB fShr d a (opVU imm) mk dt ca
/-- VSRA_VV (R289). -/
def execVsraVV (d a b : BitVec 5) (mk : BitVec 3) (dt ca cb : BitVec 1) (s : State) : Out := s.vecAB fSra d a (s.opVV b cb) mk dt ca
/-- VSRA_VX (R289). -/
def execVsraVX (d a b : BitVec 5) (mk : BitVec 3) (dt ca : BitVec 1) (s : State) : Out := s.vecAB fSra d a (s.opVX b) mk dt ca
/-- VSRA_VI (R289). -/
def execVsraVI (d a imm : BitVec 5) (mk : BitVec 3) (dt ca : BitVec 1) (s : State) : Out := s.vecAB fSra d a (opVU imm) mk dt ca
/-- VMUL_VV (R289). -/
def execVmulVV (d a b : BitVec 5) (mk : BitVec 3) (dt ca cb : BitVec 1) (s : State) : Out := s.vecAB fMul d a (s.opVV b cb) mk dt ca
/-- VMUL_VX (R289). -/
def execVmulVX (d a b : BitVec 5) (mk : BitVec 3) (dt ca : BitVec 1) (s : State) : Out := s.vecAB fMul d a (s.opVX b) mk dt ca
/-- VMUL_VI (R289). -/
def execVmulVI (d a imm : BitVec 5) (mk : BitVec 3) (dt ca : BitVec 1) (s : State) : Out := s.vecAB fMul d a (s.opVI imm) mk dt ca
/-- VMULH_VV (R289). -/
def execVmulhVV (d a b : BitVec 5) (mk : BitVec 3) (dt ca cb : BitVec 1) (s : State) : Out := s.vecAB fMulh d a (s.opVV b cb) mk dt ca
/-- VMULH_VX (R289). -/
def execVmulhVX (d a b : BitVec 5) (mk : BitVec 3) (dt ca : BitVec 1) (s : State) : Out := s.vecAB fMulh d a (s.opVX b) mk dt ca
/-- VMULH_VI (R289). -/
def execVmulhVI (d a imm : BitVec 5) (mk : BitVec 3) (dt ca : BitVec 1) (s : State) : Out := s.vecAB fMulh d a (s.opVI imm) mk dt ca
/-- VMULHU_VV (R289). -/
def execVmulhuVV (d a b : BitVec 5) (mk : BitVec 3) (dt ca cb : BitVec 1) (s : State) : Out := s.vecAB fMulhu d a (s.opVV b cb) mk dt ca
/-- VMULHU_VX (R289). -/
def execVmulhuVX (d a b : BitVec 5) (mk : BitVec 3) (dt ca : BitVec 1) (s : State) : Out := s.vecAB fMulhu d a (s.opVX b) mk dt ca
/-- VMULHU_VI (R289). -/
def execVmulhuVI (d a imm : BitVec 5) (mk : BitVec 3) (dt ca : BitVec 1) (s : State) : Out := s.vecAB fMulhu d a (s.opVI imm) mk dt ca
/-- VMIN_VV (R289). -/
def execVminVV (d a b : BitVec 5) (mk : BitVec 3) (dt ca cb : BitVec 1) (s : State) : Out := s.vecAB fMin d a (s.opVV b cb) mk dt ca
/-- VMIN_VX (R289). -/
def execVminVX (d a b : BitVec 5) (mk : BitVec 3) (dt ca : BitVec 1) (s : State) : Out := s.vecAB fMin d a (s.opVX b) mk dt ca
/-- VMIN_VI (R289). -/
def execVminVI (d a imm : BitVec 5) (mk : BitVec 3) (dt ca : BitVec 1) (s : State) : Out := s.vecAB fMin d a (s.opVI imm) mk dt ca
/-- VMAX_VV (R289). -/
def execVmaxVV (d a b : BitVec 5) (mk : BitVec 3) (dt ca cb : BitVec 1) (s : State) : Out := s.vecAB fMax d a (s.opVV b cb) mk dt ca
/-- VMAX_VX (R289). -/
def execVmaxVX (d a b : BitVec 5) (mk : BitVec 3) (dt ca : BitVec 1) (s : State) : Out := s.vecAB fMax d a (s.opVX b) mk dt ca
/-- VMAX_VI (R289). -/
def execVmaxVI (d a imm : BitVec 5) (mk : BitVec 3) (dt ca : BitVec 1) (s : State) : Out := s.vecAB fMax d a (s.opVI imm) mk dt ca
/-- VMINU_VV (R289). -/
def execVminuVV (d a b : BitVec 5) (mk : BitVec 3) (dt ca cb : BitVec 1) (s : State) : Out := s.vecAB fMinu d a (s.opVV b cb) mk dt ca
/-- VMINU_VX (R289). -/
def execVminuVX (d a b : BitVec 5) (mk : BitVec 3) (dt ca : BitVec 1) (s : State) : Out := s.vecAB fMinu d a (s.opVX b) mk dt ca
/-- VMINU_VI (R289). -/
def execVminuVI (d a imm : BitVec 5) (mk : BitVec 3) (dt ca : BitVec 1) (s : State) : Out := s.vecAB fMinu d a (s.opVI imm) mk dt ca
/-- VMAXU_VV (R289). -/
def execVmaxuVV (d a b : BitVec 5) (mk : BitVec 3) (dt ca cb : BitVec 1) (s : State) : Out := s.vecAB fMaxu d a (s.opVV b cb) mk dt ca
/-- VMAXU_VX (R289). -/
def execVmaxuVX (d a b : BitVec 5) (mk : BitVec 3) (dt ca : BitVec 1) (s : State) : Out := s.vecAB fMaxu d a (s.opVX b) mk dt ca
/-- VMAXU_VI (R289). -/
def execVmaxuVI (d a imm : BitVec 5) (mk : BitVec 3) (dt ca : BitVec 1) (s : State) : Out := s.vecAB fMaxu d a (s.opVI imm) mk dt ca
/-- VMERGE_VV (R289). -/
def execVmergeVV (d a b : BitVec 5) (mk : BitVec 3) (ca cb : BitVec 1) (s : State) : Out := s.vecABM fMerge d a (s.opVV b cb) mk ca
/-- VMERGE_VX (R289). -/
def execVmergeVX (d a b : BitVec 5) (mk : BitVec 3) (ca : BitVec 1) (s : State) : Out := s.vecABM fMerge d a (s.opVX b) mk ca
/-- VMERGE_VI (R289). -/
def execVmergeVI (d a imm : BitVec 5) (mk : BitVec 3) (ca : BitVec 1) (s : State) : Out := s.vecABM fMerge d a (s.opVI imm) mk ca
/-- VMV_VV (R289). -/
def execVmvVV (d b : BitVec 5) (mk : BitVec 3) (dt cb : BitVec 1) (s : State) : Out := s.moveB d (s.opVV b cb) mk dt
/-- VMV_VX (R289). -/
def execVmvVX (d b : BitVec 5) (mk : BitVec 3) (dt : BitVec 1) (s : State) : Out := s.moveB d (s.opVX b) mk dt
/-- VMV_VI (R289). -/
def execVmvVI (d imm : BitVec 5) (mk : BitVec 3) (dt : BitVec 1) (s : State) : Out := s.moveB d (s.opVI imm) mk dt
/-- VCMP_EQ_VV (R289). -/
def execVcmpEqVV (d a b : BitVec 5) (mk : BitVec 3) (dt ca cb : BitVec 1) (s : State) : Out := s.cmpAB fEq d a (s.opVV b cb) mk dt ca
/-- VCMP_EQ_VX (R289). -/
def execVcmpEqVX (d a b : BitVec 5) (mk : BitVec 3) (dt ca : BitVec 1) (s : State) : Out := s.cmpAB fEq d a (s.opVX b) mk dt ca
/-- VCMP_EQ_VI (R289). -/
def execVcmpEqVI (d a imm : BitVec 5) (mk : BitVec 3) (dt ca : BitVec 1) (s : State) : Out := s.cmpAB fEq d a (s.opVI imm) mk dt ca
/-- VCMP_NE_VV (R289). -/
def execVcmpNeVV (d a b : BitVec 5) (mk : BitVec 3) (dt ca cb : BitVec 1) (s : State) : Out := s.cmpAB fNe d a (s.opVV b cb) mk dt ca
/-- VCMP_NE_VX (R289). -/
def execVcmpNeVX (d a b : BitVec 5) (mk : BitVec 3) (dt ca : BitVec 1) (s : State) : Out := s.cmpAB fNe d a (s.opVX b) mk dt ca
/-- VCMP_NE_VI (R289). -/
def execVcmpNeVI (d a imm : BitVec 5) (mk : BitVec 3) (dt ca : BitVec 1) (s : State) : Out := s.cmpAB fNe d a (s.opVI imm) mk dt ca
/-- VCMP_LT_VV (R289). -/
def execVcmpLtVV (d a b : BitVec 5) (mk : BitVec 3) (dt ca cb : BitVec 1) (s : State) : Out := s.cmpAB fLt d a (s.opVV b cb) mk dt ca
/-- VCMP_LT_VX (R289). -/
def execVcmpLtVX (d a b : BitVec 5) (mk : BitVec 3) (dt ca : BitVec 1) (s : State) : Out := s.cmpAB fLt d a (s.opVX b) mk dt ca
/-- VCMP_LT_VI (R289). -/
def execVcmpLtVI (d a imm : BitVec 5) (mk : BitVec 3) (dt ca : BitVec 1) (s : State) : Out := s.cmpAB fLt d a (s.opVI imm) mk dt ca
/-- VCMP_LTU_VV (R289). -/
def execVcmpLtuVV (d a b : BitVec 5) (mk : BitVec 3) (dt ca cb : BitVec 1) (s : State) : Out := s.cmpAB fLtu d a (s.opVV b cb) mk dt ca
/-- VCMP_LTU_VX (R289). -/
def execVcmpLtuVX (d a b : BitVec 5) (mk : BitVec 3) (dt ca : BitVec 1) (s : State) : Out := s.cmpAB fLtu d a (s.opVX b) mk dt ca
/-- VCMP_LTU_VI (R289). -/
def execVcmpLtuVI (d a imm : BitVec 5) (mk : BitVec 3) (dt ca : BitVec 1) (s : State) : Out := s.cmpAB fLtu d a (s.opVI imm) mk dt ca
/-- VCMP_LE_VV (R289). -/
def execVcmpLeVV (d a b : BitVec 5) (mk : BitVec 3) (dt ca cb : BitVec 1) (s : State) : Out := s.cmpAB fLe d a (s.opVV b cb) mk dt ca
/-- VCMP_LE_VX (R289). -/
def execVcmpLeVX (d a b : BitVec 5) (mk : BitVec 3) (dt ca : BitVec 1) (s : State) : Out := s.cmpAB fLe d a (s.opVX b) mk dt ca
/-- VCMP_LE_VI (R289). -/
def execVcmpLeVI (d a imm : BitVec 5) (mk : BitVec 3) (dt ca : BitVec 1) (s : State) : Out := s.cmpAB fLe d a (s.opVI imm) mk dt ca
/-- VCMP_LEU_VV (R289). -/
def execVcmpLeuVV (d a b : BitVec 5) (mk : BitVec 3) (dt ca cb : BitVec 1) (s : State) : Out := s.cmpAB fLeu d a (s.opVV b cb) mk dt ca
/-- VCMP_LEU_VX (R289). -/
def execVcmpLeuVX (d a b : BitVec 5) (mk : BitVec 3) (dt ca : BitVec 1) (s : State) : Out := s.cmpAB fLeu d a (s.opVX b) mk dt ca
/-- VCMP_LEU_VI (R289). -/
def execVcmpLeuVI (d a imm : BitVec 5) (mk : BitVec 3) (dt ca : BitVec 1) (s : State) : Out := s.cmpAB fLeu d a (s.opVI imm) mk dt ca
/-- VCMP_GT_VV (R289). -/
def execVcmpGtVV (d a b : BitVec 5) (mk : BitVec 3) (dt ca cb : BitVec 1) (s : State) : Out := s.cmpAB fGt d a (s.opVV b cb) mk dt ca
/-- VCMP_GT_VX (R289). -/
def execVcmpGtVX (d a b : BitVec 5) (mk : BitVec 3) (dt ca : BitVec 1) (s : State) : Out := s.cmpAB fGt d a (s.opVX b) mk dt ca
/-- VCMP_GT_VI (R289). -/
def execVcmpGtVI (d a imm : BitVec 5) (mk : BitVec 3) (dt ca : BitVec 1) (s : State) : Out := s.cmpAB fGt d a (s.opVI imm) mk dt ca
/-- VCMP_GTU_VV (R289). -/
def execVcmpGtuVV (d a b : BitVec 5) (mk : BitVec 3) (dt ca cb : BitVec 1) (s : State) : Out := s.cmpAB fGtu d a (s.opVV b cb) mk dt ca
/-- VCMP_GTU_VX (R289). -/
def execVcmpGtuVX (d a b : BitVec 5) (mk : BitVec 3) (dt ca : BitVec 1) (s : State) : Out := s.cmpAB fGtu d a (s.opVX b) mk dt ca
/-- VCMP_GTU_VI (R289). -/
def execVcmpGtuVI (d a imm : BitVec 5) (mk : BitVec 3) (dt ca : BitVec 1) (s : State) : Out := s.cmpAB fGtu d a (s.opVI imm) mk dt ca

end Sys2Proof.Machine
end

