-- ==== Sys2Proof/Machine/VPerm.lean ====
section
/-! DEFINITION. Permute, widen, narrow and extend: major 0x20 (R290 to R293). -/
namespace Sys2Proof.Machine

/-- The chaining of an instruction by its vector groups and its mask. -/
def permMeta (vs : List ((BitVec 5 × Nat) × BitVec 1)) (mk : BitVec 3) (run : Nat × Nat) : VMeta :=
  { vsrc := vs.map fun (e : (BitVec 5 × Nat) × BitVec 1) => (vRegs e.1.1 e.1.2, e.2), msrc := [mk.toNat], run := run.1, skip := run.2,
    whole := false }

/-- STRICT where a source is read ahead of a hooked producer (R119). -/
def State.aheadOk (s : State) (a : BitVec 5) (ca : BitVec 1) (w : Nat) (els : List Nat) : Except Trap Unit :=
  match s.strictV a ca w els with
  | some r => .error (strictTrap 1 r)
  | none => .ok ()
/-- The shape of the functions whose mask field masks: sources by group, destination width and registers, a limit (R291), results. `ahead`
gives a source's register and chain bit, the width of its elements, and, for a result element, the one that it reads ahead (R279). -/
def State.permX (s : State) (xs : List (BitVec 5)) (bad : Bool) (d : BitVec 5) (w n : Nat) (vs : List ((BitVec 5 × Nat) × BitVec 1))
    (mk : BitVec 3) (dt : BitVec 1) (res : Nat → Nat) (ahead : Option (BitVec 5 × BitVec 1 × Nat × (Nat → Option Nat)) := none) : Out :=
  let gs := vs.map (·.1)
  let act := s.cur.vec.active s.cur.vcfg mk.toNat
  s.attempt do
    s.vecOk
    failIf bad s.cur.illegal
    s.alignV ((d, n) :: gs)
    s.apartV (d, n) gs
    s.strictX xs
    match ahead with
    | some (a, ca, wa, f) => s.aheadOk a ca wa (((List.range s.cur.vcfg.vl).filter act).filterMap f)
    | none => .ok ()
    .ok (s.vecWrite (permMeta vs mk (s.groupsRun mk dt))
      { d, w, n, active := s.cur.vec.active s.cur.vcfg mk.toNat, res, flags := 0, poison := s.anyPX xs || s.anyPV gs [mk.toNat] })

/-- A source element that the result element j reads ahead, at width w. -/
def State.ahead (s : State) (a : BitVec 5) (ca : BitVec 1) (w i j : Nat) : Nat :=
  s.aheadElem s.stale ca s.cur.vcfg.p a.toNat w i (j + 1)

/-- `vslup` by n. -/
def State.slideUp (s : State) (xs : List (BitVec 5)) (d a : BitVec 5) (n : Nat) (mk : BitVec 3) (dt ca : BitVec 1) : Out :=
  let c := s.cur.vcfg
  s.permX xs false d c.sew c.g [((a, c.g), ca)] mk dt fun i => if n ≤ i then s.vE a (i - n) else 0
/-- `vsldn` by n. -/
def State.slideDown (s : State) (xs : List (BitVec 5)) (d a : BitVec 5) (n : Nat) (mk : BitVec 3) (dt ca : BitVec 1) : Out :=
  let c := s.cur.vcfg
  s.permX xs false d c.sew c.g [((a, c.g), ca)] mk dt (fun i => if i + n < c.vl then s.ahead a ca c.sew (i + n) i else 0)
    (some (a, ca, c.sew, fun i => if 0 < n && i + n < c.vl then some (i + n) else none))

/-- VSLUP_VX (R290). -/
def execVslupVX (d a b : BitVec 5) (mk : BitVec 3) (dt ca : BitVec 1) (s : State) : Out := s.slideUp [b] d a (s.cur.x b).toNat mk dt ca
/-- VSLUP_VI (R290). -/
def execVslupVI (d a imm : BitVec 5) (mk : BitVec 3) (dt ca : BitVec 1) (s : State) : Out := s.slideUp [] d a imm.toNat mk dt ca
/-- VSLDN_VX (R290). -/
def execVsldnVX (d a b : BitVec 5) (mk : BitVec 3) (dt ca : BitVec 1) (s : State) : Out := s.slideDown [b] d a (s.cur.x b).toNat mk dt ca
/-- VSLDN_VI (R290). -/
def execVsldnVI (d a imm : BitVec 5) (mk : BitVec 3) (dt ca : BitVec 1) (s : State) : Out := s.slideDown [] d a imm.toNat mk dt ca
/-- VSL1UP (R290). -/
def execVsl1up (d a b : BitVec 5) (mk : BitVec 3) (dt ca : BitVec 1) (s : State) : Out :=
  let c := s.cur.vcfg
  s.permX [b] false d c.sew c.g [((a, c.g), ca)] mk dt fun i => if i = 0 then (s.cur.x b).toNat else s.vE a (i - 1)
/-- VSL1DN (R290). -/
def execVsl1dn (d a b : BitVec 5) (mk : BitVec 3) (dt ca : BitVec 1) (s : State) : Out :=
  let c := s.cur.vcfg
  s.permX [b] false d c.sew c.g [((a, c.g), ca)] mk dt (fun i =>
    if i + 1 = c.vl then (s.cur.x b).toNat else s.ahead a ca c.sew (i + 1) i)
    (some (a, ca, c.sew, fun i => if i + 1 = c.vl then none else some (i + 1)))
/-- VPERM (R290). -/
def execVperm (d a b : BitVec 5) (mk : BitVec 3) (dt ca cb : BitVec 1) (s : State) : Out :=
  let c := s.cur.vcfg
  s.permX [] false d c.sew c.g [((a, c.g), ca), ((b, c.g), cb)] mk dt (fun i =>
    let j := s.vE b i
    if j < c.vl then s.ahead a ca c.sew j i else 0)
    (some (a, ca, c.sew, fun i => if i < s.vE b i && s.vE b i < c.vl then some (s.vE b i) else none))

/-- VCOMPRESS (R292): the selected elements packed from element 0; the rest are tail elements. -/
def execVcompress (d a : BitVec 5) (mk : BitVec 3) (ca : BitVec 1) (s : State) : Out :=
  let c := s.cur.vcfg
  s.attempt do
    s.vecOk
    s.alignV [(d, c.g), (a, c.g)]
    s.apartV (d, c.g) [(a, c.g)]
    let sel := (List.range c.vl).filter fun i => s.cur.vec.mask mk.toNat i
    s.aheadOk a ca c.sew ((sel.zipIdx.filter fun e => e.2 < e.1).map (·.1))
    let c' := { c with vl := sel.length }
    let r := (s.cur.vec.writeGroup c' d.toNat c.sew c.vlmax (fun _ => true) fun j => s.ahead a ca c.sew (sel.getD j 0) j).settleV c'
      (fun _ => true) d.toNat c.g c.sew (s.anyPV [(a, c.g)] [mk.toNat])
    .ok (s.vecIssue 0 { permMeta [((a, c.g), ca)] mk (s.groupsRun 0 0) with atEnd := true } (r.effect (vRegs d c.g) [] 0))
/-- VIOTA (R290). -/
def execViota (d : BitVec 5) (mk : BitVec 3) (s : State) : Out :=
  let c := s.cur.vcfg
  s.attempt do
    s.vecOk
    s.alignV [(d, c.g)]
    .ok (s.vecWrite (permMeta [] mk (s.groupsRun 0 0))
      { d, w := c.sew, n := c.g, active := s.cur.vec.active c 0,
        res := fun i => ((List.range i).filter fun j => s.cur.vec.mask mk.toNat j).length, flags := 0, poison := s.anyPV [] [mk.toNat] })
/-- VID (R290). -/
def execVid (d : BitVec 5) (mk : BitVec 3) (dt : BitVec 1) (s : State) : Out :=
  let c := s.cur.vcfg
  s.permX [] false d c.sew c.g [] mk dt id

/-- Widening needs sew at most 32 and g at most 4 (R291). -/
def VCfg.narrow (c : VCfg) : Bool := !(c.sew ≤ 32 && c.g ≤ 4)
/-- A widening result at 2·sew from elements of va and vb. -/
def State.widen (s : State) (d a b : BitVec 5) (mk : BitVec 3) (dt ca cb : BitVec 1) (f : Nat → Nat → Nat) : Out :=
  let c := s.cur.vcfg
  s.permX [] c.narrow d (2 * c.sew) (2 * c.g) [((a, c.g), ca), ((b, c.g), cb)] mk dt fun i => f (s.vE a i) (s.vE b i)
/-- VWADD (R290). -/
def execVwadd (d a b : BitVec 5) (mk : BitVec 3) (dt ca cb : BitVec 1) (s : State) : Out :=
  let w := s.cur.vcfg.sew
  s.widen d a b mk dt ca cb fun x y => wrapInt (2 * w) (sextInt w x + sextInt w y)
/-- VWADDU (R290). -/
def execVwaddu (d a b : BitVec 5) (mk : BitVec 3) (dt ca cb : BitVec 1) (s : State) : Out := s.widen d a b mk dt ca cb fun x y => x + y
/-- VWMUL (R290). -/
def execVwmul (d a b : BitVec 5) (mk : BitVec 3) (dt ca cb : BitVec 1) (s : State) : Out :=
  let w := s.cur.vcfg.sew
  s.widen d a b mk dt ca cb fun x y => wrapInt (2 * w) (sextInt w x * sextInt w y)
/-- VWMULU (R290). -/
def execVwmulu (d a b : BitVec 5) (mk : BitVec 3) (dt ca cb : BitVec 1) (s : State) : Out := s.widen d a b mk dt ca cb fun x y => x * y

/-- A narrowing shift of A.e2[i] by n modulo 2·sew. Every source element counts as read ahead (R290, log 24). -/
def State.narrowX (s : State) (xs : List (BitVec 5)) (d a : BitVec 5) (n : Nat) (sign : Bool) (mk : BitVec 3) (dt ca : BitVec 1) : Out :=
  let c := s.cur.vcfg
  s.permX xs c.narrow d c.sew c.g [((a, 2 * c.g), ca)] mk dt (fun i =>
    let v := s.aheadElem s.stale ca c.p a.toNat (2 * c.sew) i i
    let k := n % (2 * c.sew)
    if sign then wrapInt c.sew (sextInt (2 * c.sew) v / (2 ^ k : Nat)) else v / 2 ^ k)
    (some (a, ca, 2 * c.sew, some))
/-- VNSHR_VX (R290). -/
def execVnshrVX (d a b : BitVec 5) (mk : BitVec 3) (dt ca : BitVec 1) (s : State) : Out :=
  s.narrowX [b] d a (s.cur.x b).toNat false mk dt ca
/-- VNSHR_VI (R290). -/
def execVnshrVI (d a imm : BitVec 5) (mk : BitVec 3) (dt ca : BitVec 1) (s : State) : Out := s.narrowX [] d a imm.toNat false mk dt ca
/-- VNSRA_VX (R290). -/
def execVnsraVX (d a b : BitVec 5) (mk : BitVec 3) (dt ca : BitVec 1) (s : State) : Out :=
  s.narrowX [b] d a (s.cur.x b).toNat true mk dt ca
/-- VNSRA_VI (R290). -/
def execVnsraVI (d a imm : BitVec 5) (mk : BitVec 3) (dt ca : BitVec 1) (s : State) : Out := s.narrowX [] d a imm.toNat true mk dt ca

/-- `vext` from sew/f (R291). -/
def State.extend (s : State) (f : Nat) (sign : Bool) (d a : BitVec 5) (mk : BitVec 3) (dt ca : BitVec 1) : Out :=
  let c := s.cur.vcfg
  let w := c.sew / f
  s.permX [] (c.sew < 8 * f) d c.sew c.g [((a, max 1 (c.g / f)), ca)] mk dt fun i =>
    let v := s.cur.vec.elem c.p a.toNat w i
    if sign then wrapInt c.sew (sextInt w v) else v
/-- VEXT_S2 (R290). -/
def execVextS2 (d a : BitVec 5) (mk : BitVec 3) (dt ca : BitVec 1) (s : State) : Out := s.extend 2 true d a mk dt ca
/-- VEXT_S4 (R290). -/
def execVextS4 (d a : BitVec 5) (mk : BitVec 3) (dt ca : BitVec 1) (s : State) : Out := s.extend 4 true d a mk dt ca
/-- VEXT_Z2 (R290). -/
def execVextZ2 (d a : BitVec 5) (mk : BitVec 3) (dt ca : BitVec 1) (s : State) : Out := s.extend 2 false d a mk dt ca
/-- VEXT_Z4 (R290). -/
def execVextZ4 (d a : BitVec 5) (mk : BitVec 3) (dt ca : BitVec 1) (s : State) : Out := s.extend 4 false d a mk dt ca

/-- The chaining of a hooked move: it reads its sources whole (R296). -/
def moveMeta (run : Nat) : VMeta := { vsrc := [], msrc := [], run, skip := 0, whole := true }
/-- The highest index below n of a set mask bit. -/
def VecRegs.lastBit (r : VecRegs) (m : Nat) : Nat → Option Nat
  | 0 => none
  | n + 1 => if r.mask m n then some n else r.lastBit m n
/-- The lowest index from i of a set mask bit, among n. -/
def VecRegs.firstBit (r : VecRegs) (m i : Nat) : Nat → Option Nat
  | 0 => none
  | n + 1 => if r.mask m i then some i else r.firstBit m (i + 1) n

/-- VLASTX (R293). -/
def execVlastx (d a b : BitVec 5) (h : BitVec 4) (_ca : BitVec 1) (s : State) : Out :=
  let c := s.cur.vcfg
  s.attempt do
    s.vecOk
    s.alignV [(a, c.g)]
    let v : Word := match s.cur.vec.lastBit b.toNat c.vl with
      | some j => sextWord c.sew (BitVec.ofNat 64 (s.vE a j))
      | none => 0
    .ok (s.moveOut h (moveMeta s.maskGroups) d v (s.anyPV [(a, c.g)] [b.toNat]))

end Sys2Proof.Machine
end

