-- ==== Sys2Proof/Machine/VMask.lean ====
section
/-! DEFINITION. Masks, integer reductions and moves: major 0x21 (R294 to R296). -/
namespace Sys2Proof.Machine

/-- A mask result below vl from mask sources (R294). -/
def State.maskLogic (s : State) (d : BitVec 5) (srcs : List Nat) (f : Nat → Bool) : Out :=
  let c := s.cur.vcfg
  s.attempt do
    s.vecOk
    .ok (s.maskWrite { vsrc := [], msrc := srcs, run := s.maskGroups, skip := 0, whole := false } d.toNat (s.cur.vec.active c 0) f 0
      (s.anyPV [] srcs))
/-- The bit of a mask operand. -/
def State.mb (s : State) (m : BitVec 5) (i : Nat) : Bool := s.cur.vec.mask m.toNat i

/-- MAND (R294). -/
def execMand (d a b : BitVec 5) (s : State) : Out := s.maskLogic d [a.toNat, b.toNat] fun i => s.mb a i && s.mb b i
/-- MOR (R294). -/
def execMor (d a b : BitVec 5) (s : State) : Out := s.maskLogic d [a.toNat, b.toNat] fun i => s.mb a i || s.mb b i
/-- MXOR (R294). -/
def execMxor (d a b : BitVec 5) (s : State) : Out := s.maskLogic d [a.toNat, b.toNat] fun i => s.mb a i != s.mb b i
/-- MANDN (R294). -/
def execMandn (d a b : BitVec 5) (s : State) : Out := s.maskLogic d [a.toNat, b.toNat] fun i => s.mb a i && !s.mb b i
/-- MSHL (R294). -/
def execMshl (d a n : BitVec 5) (s : State) : Out := s.maskLogic d [a.toNat] fun i => n.toNat ≤ i && s.mb a (i - n.toNat)

/-- A hooked move of a number taken from a mask (R294, R296). -/
def State.maskOut (s : State) (d a : BitVec 5) (h : BitVec 4) (v : Word) : Out :=
  s.attempt do
    s.vecOk
    .ok (s.moveOut h (moveMeta s.maskGroups) d v (s.anyPV [] [a.toNat]))
/-- A position, or −1. -/
def posWord (p : Option Nat) : Word := match p with | some i => BitVec.ofNat 64 i | none => -1
/-- MPOPC (R294). -/
def execMpopc (d a : BitVec 5) (h : BitVec 4) (s : State) : Out :=
  s.maskOut d a h (BitVec.ofNat 64 ((List.range s.cur.vcfg.vl).filter (s.mb a)).length)
/-- MFIRST (R294). -/
def execMfirst (d a : BitVec 5) (h : BitVec 4) (s : State) : Out := s.maskOut d a h (posWord (s.cur.vec.firstBit a.toNat 0 s.cur.vcfg.vl))
/-- MLAST (R294). -/
def execMlast (d a : BitVec 5) (h : BitVec 4) (s : State) : Out := s.maskOut d a h (posWord (s.cur.vec.lastBit a.toNat s.cur.vcfg.vl))
/-- VMVX (R294). -/
def execVmvx (d a b : BitVec 5) (h : BitVec 4) (_ca : BitVec 1) (s : State) : Out :=
  let c := s.cur.vcfg
  s.attempt do
    s.vecOk
    s.alignV [(a, c.g)]
    s.strictX [b]
    let i := (s.cur.x b).toNat
    .ok (s.moveOut h (moveMeta (s.groupsRun 0 0).1) d (if i < c.vl then sextWord c.sew (BitVec.ofNat 64 (s.vE a i)) else 0)
      (s.cur.px b || s.anyPV [(a, c.g)] []))
/-- VMVSX (R294). -/
def execVmvsx (d a : BitVec 5) (s : State) : Out :=
  let c := s.cur.vcfg
  s.attempt do
    s.vecOk
    s.alignV [(d, c.g)]
    s.strictX [a]
    .ok (s.elemWrite { vsrc := [], msrc := [], run := (s.groupsRun 0 0).1, skip := 0, whole := false } d
      (if c.vl = 0 then none else some (s.cur.x a).toNat) 0 (s.cur.px a))

/-- Reduces the active elements of va into a start value (R295). -/
def State.reduce (s : State) (mk : BitVec 3) (a : BitVec 5) (f : Nat → Nat → Nat) (start : Nat) : Nat :=
  let c := s.cur.vcfg
  (List.range c.vl).foldl (fun acc i => if s.cur.vec.active c mk.toNat i then f acc (s.vE a i) else acc) start
/-- The chaining of a reduction: the group va and the one register vb; its destination is written at its end (R279). -/
def State.reduceMeta (s : State) (a b : BitVec 5) (mk : BitVec 3) (dt ca cb : BitVec 1) : VMeta :=
  { permMeta [((a, s.cur.vcfg.g), ca), ((b, 1), cb)] mk (s.groupsRun mk dt) with atEnd := true }
/-- `vred.op` (R295). vb names one register, whatever the group factor (log 25). -/
def State.redX (s : State) (f : Nat → Nat → Nat → Nat) (d a b : BitVec 5) (mk : BitVec 3) (dt ca cb : BitVec 1) : Out :=
  let c := s.cur.vcfg
  s.attempt do
    s.vecOk
    s.alignV [(d, c.g), (a, c.g)]
    .ok (s.elemWrite (s.reduceMeta a b mk dt ca cb) d (some (s.reduce mk a (fun x y => f c.sew x y % 2 ^ c.sew) (s.vE b 0))) 0
      (s.anyPV [(a, c.g), (b, 1)] [mk.toNat]))
/-- VRED_SUM (R295). -/
def execVredSum (d a b : BitVec 5) (mk : BitVec 3) (dt ca cb : BitVec 1) (s : State) : Out := s.redX fAdd d a b mk dt ca cb
/-- VRED_AND (R295). -/
def execVredAnd (d a b : BitVec 5) (mk : BitVec 3) (dt ca cb : BitVec 1) (s : State) : Out := s.redX fAnd d a b mk dt ca cb
/-- VRED_OR (R295). -/
def execVredOr (d a b : BitVec 5) (mk : BitVec 3) (dt ca cb : BitVec 1) (s : State) : Out := s.redX fOr d a b mk dt ca cb
/-- VRED_XOR (R295). -/
def execVredXor (d a b : BitVec 5) (mk : BitVec 3) (dt ca cb : BitVec 1) (s : State) : Out := s.redX fXor d a b mk dt ca cb
/-- VRED_MIN (R295). -/
def execVredMin (d a b : BitVec 5) (mk : BitVec 3) (dt ca cb : BitVec 1) (s : State) : Out := s.redX fMin d a b mk dt ca cb
/-- VRED_MAX (R295). -/
def execVredMax (d a b : BitVec 5) (mk : BitVec 3) (dt ca cb : BitVec 1) (s : State) : Out := s.redX fMax d a b mk dt ca cb
/-- VRED_MINU (R295). -/
def execVredMinu (d a b : BitVec 5) (mk : BitVec 3) (dt ca cb : BitVec 1) (s : State) : Out := s.redX fMinu d a b mk dt ca cb
/-- VRED_MAXU (R295). -/
def execVredMaxu (d a b : BitVec 5) (mk : BitVec 3) (dt ca cb : BitVec 1) (s : State) : Out := s.redX fMaxu d a b mk dt ca cb

end Sys2Proof.Machine
end

