-- ==== Sys2Proof/Machine/VFp.lean ====
section
/-! DEFINITION. Vector floating point: majors 0x22 and 0x23 (R297 to R303, R48 to R55). -/
namespace Sys2Proof.Machine

/-- The mode of a vector result at a global index (R46, R48, R49). -/
def VCfg.rmAt (c : VCfg) (g : Word) : Rm := rmOf c.rnd c.seed c.draw g
/-- The mode at element i: index vsb + i. -/
def VCfg.rm (c : VCfg) (i : Nat) : Rm := c.rmAt (c.vsb + BitVec.ofNat 64 i)
/-- An issued instruction whose rounding mode is sr takes a draw (R49). -/
def State.drew (t : State) (rounds : Bool) : State :=
  if rounds && t.cur.vcfg.rnd == 5 && t.cur.hold.isNone then
    t.modCur fun h => { h with csr := { h.csr with srdraw := h.csr.srdraw + 1 } }
  else t

/-- The format of R297; none where the function traps. -/
def fpFmt (bf : Bool) (sew : Nat) : Option Fmt :=
  if bf then (if sew = 16 then some fmtB else none)
  else if sew = 64 then some fmtD else if sew = 32 then some fmtS else if sew = 16 then some fmtH else none

/-- An element operation on encoded values: format, mode, flush of inputs and of results, d, a, b. -/
abbrev FpOp := Fmt → Rm → Bool → Bool → Nat → Nat → Nat → Nat × Flags

def opAdd : FpOp := fun f rm fi fo _ a b => f.add rm fo (f.readIn fi a) (f.readIn fi b)
def opSub : FpOp := fun f rm fi fo _ a b => f.sub rm fo (f.readIn fi a) (f.readIn fi b)
def opMul : FpOp := fun f rm fi fo _ a b => f.mul rm fo (f.readIn fi a) (f.readIn fi b)
def opFma : FpOp := fun f rm fi fo d a b => f.fma rm fo (f.readIn fi d) (f.readIn fi a) (f.readIn fi b)
def opDiv : FpOp := fun f rm fi fo _ a b => f.div rm fo (f.readIn fi a) (f.readIn fi b)
def opSqrt : FpOp := fun f rm fi fo _ a _ => f.sqrt rm fo (f.readIn fi a)
/-- fo and fb flush no result of these two (DESIGN CHOICE, log 66). -/
def opMin : FpOp := fun f _ fi _ _ a b => f.minmax false fi a b
def opMax : FpOp := fun f _ fi _ _ a b => f.minmax true fi a b

/-- The flags of the active elements (R51). -/
def flagsOf (vl : Nat) (active : Nat → Bool) (f : Nat → Flags) : Flags :=
  (List.range vl).foldl (fun acc i => if active i then acc ||| f i else acc) 0

/-- ILLEGAL where there is no format. -/
def State.needFmt (s : State) : Option Fmt → Except Trap Fmt
  | some f => .ok f
  | none => .error s.cur.illegal

/-- The last check of R313. -/
def State.startZero (s : State) : Except Trap Unit := failIf (s.cur.csr.vstart != 0) s.cur.illegal
def State.villOk (s : State) : Except Trap Unit := failIf (vtVill s.cur.csr.vtype) s.cur.illegal

/-- Functions 0 to 7 and 14 to 17 (R299). `useD` marks those that read the old vd. -/
def State.fpAB (s : State) (bf rounds useD : Bool) (op : FpOp) (d a : BitVec 5) (b : VOperand) (mk : BitVec 3) (dt ca : BitVec 1) : Out :=
  let c := s.cur.vcfg
  let old : List (BitVec 5 × BitVec 1) := if useD then [(d, 0)] else []
  s.attempt do
    s.villOk
    let f ← s.needFmt (fpFmt bf c.sew)
    s.alignV ([(d, c.g), (a, c.g)] ++ b.groups c.g)
    s.startZero
    s.strictX b.xs
    let r (i : Nat) : Nat × Flags := op f (c.rm i) c.flushIn c.flushOut (s.vE d i) (s.vE a i) (b.val i)
    let act := s.cur.vec.active c mk.toNat
    .ok ((s.vecWrite (s.metaAB ((a, ca) :: old) b mk (s.groupsRun mk dt))
      { d, w := c.sew, n := c.g, active := act, res := fun i => (r i).1, flags := flagsOf c.vl act fun i => (r i).2,
        poison := s.poisonAB (a :: old.map (·.1)) b mk }).drew rounds)
/-- No operand b. -/
def opNone : VOperand := { vec := [], xs := [], val := fun _ => 0 }
/-- `vfcmp` (R300). -/
def State.fpCmpAB (s : State) (k : Cond) (d a : BitVec 5) (b : VOperand) (mk : BitVec 3) (dt ca : BitVec 1) : Out :=
  let c := s.cur.vcfg
  s.attempt do
    s.villOk
    let f ← s.needFmt (fpFmt false c.sew)
    s.alignV ((a, c.g) :: b.groups c.g)
    s.startZero
    s.strictX b.xs
    let r (i : Nat) : Bool × Flags := k.holds (f.readIn c.flushIn (s.vE a i)) (f.readIn c.flushIn (b.val i))
    let act := s.cur.vec.active c mk.toNat
    .ok (s.maskWrite (s.metaAB [(a, ca)] b mk (s.groupsRun mk dt)) d.toNat act (fun i => (r i).1)
      (flagsOf c.vl act fun i => (r i).2) (s.poisonAB [a] b mk))

/-- VFADD_VV (R298). -/
def execVfaddVV (d a b : BitVec 5) (mk : BitVec 3) (dt ca cb : BitVec 1) (s : State) : Out :=
  s.fpAB false true false opAdd d a (s.opVV b cb) mk dt ca
/-- VFADD_VX (R298). -/
def execVfaddVX (d a b : BitVec 5) (mk : BitVec 3) (dt ca : BitVec 1) (s : State) : Out :=
  s.fpAB false true false opAdd d a (s.opVX b) mk dt ca
/-- VFSUB_VV (R298). -/
def execVfsubVV (d a b : BitVec 5) (mk : BitVec 3) (dt ca cb : BitVec 1) (s : State) : Out :=
  s.fpAB false true false opSub d a (s.opVV b cb) mk dt ca
/-- VFSUB_VX (R298). -/
def execVfsubVX (d a b : BitVec 5) (mk : BitVec 3) (dt ca : BitVec 1) (s : State) : Out :=
  s.fpAB false true false opSub d a (s.opVX b) mk dt ca
/-- VFMUL_VV (R298). -/
def execVfmulVV (d a b : BitVec 5) (mk : BitVec 3) (dt ca cb : BitVec 1) (s : State) : Out :=
  s.fpAB false true false opMul d a (s.opVV b cb) mk dt ca
/-- VFMUL_VX (R298). -/
def execVfmulVX (d a b : BitVec 5) (mk : BitVec 3) (dt ca : BitVec 1) (s : State) : Out :=
  s.fpAB false true false opMul d a (s.opVX b) mk dt ca
/-- VFMA_VV (R298). -/
def execVfmaVV (d a b : BitVec 5) (mk : BitVec 3) (dt ca cb : BitVec 1) (s : State) : Out :=
  s.fpAB false true true opFma d a (s.opVV b cb) mk dt ca
/-- VFMA_VX (R298). -/
def execVfmaVX (d a b : BitVec 5) (mk : BitVec 3) (dt ca : BitVec 1) (s : State) : Out :=
  s.fpAB false true true opFma d a (s.opVX b) mk dt ca
/-- VFDIV_VV (R298). -/
def execVfdivVV (d a b : BitVec 5) (mk : BitVec 3) (dt ca cb : BitVec 1) (s : State) : Out :=
  s.fpAB false true false opDiv d a (s.opVV b cb) mk dt ca
/-- VFDIV_VX (R298). -/
def execVfdivVX (d a b : BitVec 5) (mk : BitVec 3) (dt ca : BitVec 1) (s : State) : Out :=
  s.fpAB false true false opDiv d a (s.opVX b) mk dt ca
/-- VFSQRT (R298). -/
def execVfsqrt (d a : BitVec 5) (mk : BitVec 3) (dt ca : BitVec 1) (s : State) : Out :=
  s.fpAB false true false opSqrt d a opNone mk dt ca
/-- VFMIN_VV (R298). -/
def execVfminVV (d a b : BitVec 5) (mk : BitVec 3) (dt ca cb : BitVec 1) (s : State) : Out :=
  s.fpAB false false false opMin d a (s.opVV b cb) mk dt ca
/-- VFMIN_VX (R298). -/
def execVfminVX (d a b : BitVec 5) (mk : BitVec 3) (dt ca : BitVec 1) (s : State) : Out :=
  s.fpAB false false false opMin d a (s.opVX b) mk dt ca
/-- VFMAX_VV (R298). -/
def execVfmaxVV (d a b : BitVec 5) (mk : BitVec 3) (dt ca cb : BitVec 1) (s : State) : Out :=
  s.fpAB false false false opMax d a (s.opVV b cb) mk dt ca
/-- VFMAX_VX (R298). -/
def execVfmaxVX (d a b : BitVec 5) (mk : BitVec 3) (dt ca : BitVec 1) (s : State) : Out :=
  s.fpAB false false false opMax d a (s.opVX b) mk dt ca
/-- VFCMP_EQ_VV (R298). -/
def execVfcmpEqVV (d a b : BitVec 5) (mk : BitVec 3) (dt ca cb : BitVec 1) (s : State) : Out :=
  s.fpCmpAB .eq d a (s.opVV b cb) mk dt ca
/-- VFCMP_EQ_VX (R298). -/
def execVfcmpEqVX (d a b : BitVec 5) (mk : BitVec 3) (dt ca : BitVec 1) (s : State) : Out :=
  s.fpCmpAB .eq d a (s.opVX b) mk dt ca
/-- VFCMP_NE_VV (R298). -/
def execVfcmpNeVV (d a b : BitVec 5) (mk : BitVec 3) (dt ca cb : BitVec 1) (s : State) : Out :=
  s.fpCmpAB .ne d a (s.opVV b cb) mk dt ca
/-- VFCMP_NE_VX (R298). -/
def execVfcmpNeVX (d a b : BitVec 5) (mk : BitVec 3) (dt ca : BitVec 1) (s : State) : Out :=
  s.fpCmpAB .ne d a (s.opVX b) mk dt ca
/-- VFCMP_LT_VV (R298). -/
def execVfcmpLtVV (d a b : BitVec 5) (mk : BitVec 3) (dt ca cb : BitVec 1) (s : State) : Out :=
  s.fpCmpAB .lt d a (s.opVV b cb) mk dt ca
/-- VFCMP_LT_VX (R298). -/
def execVfcmpLtVX (d a b : BitVec 5) (mk : BitVec 3) (dt ca : BitVec 1) (s : State) : Out :=
  s.fpCmpAB .lt d a (s.opVX b) mk dt ca
/-- VFCMP_LE_VV (R298). -/
def execVfcmpLeVV (d a b : BitVec 5) (mk : BitVec 3) (dt ca cb : BitVec 1) (s : State) : Out :=
  s.fpCmpAB .le d a (s.opVV b cb) mk dt ca
/-- VFCMP_LE_VX (R298). -/
def execVfcmpLeVX (d a b : BitVec 5) (mk : BitVec 3) (dt ca : BitVec 1) (s : State) : Out :=
  s.fpCmpAB .le d a (s.opVX b) mk dt ca
/-- VFCMP_GT_VV (R298). -/
def execVfcmpGtVV (d a b : BitVec 5) (mk : BitVec 3) (dt ca cb : BitVec 1) (s : State) : Out :=
  s.fpCmpAB .gt d a (s.opVV b cb) mk dt ca
/-- VFCMP_GT_VX (R298). -/
def execVfcmpGtVX (d a b : BitVec 5) (mk : BitVec 3) (dt ca : BitVec 1) (s : State) : Out :=
  s.fpCmpAB .gt d a (s.opVX b) mk dt ca
/-- VFCMP_GE_VV (R298). -/
def execVfcmpGeVV (d a b : BitVec 5) (mk : BitVec 3) (dt ca cb : BitVec 1) (s : State) : Out :=
  s.fpCmpAB .ge d a (s.opVV b cb) mk dt ca
/-- VFCMP_GE_VX (R298). -/
def execVfcmpGeVX (d a b : BitVec 5) (mk : BitVec 3) (dt ca : BitVec 1) (s : State) : Out :=
  s.fpCmpAB .ge d a (s.opVX b) mk dt ca
/-- VFADD_BF_VV (R298). -/
def execVfaddBfVV (d a b : BitVec 5) (mk : BitVec 3) (dt ca cb : BitVec 1) (s : State) : Out :=
  s.fpAB true true false opAdd d a (s.opVV b cb) mk dt ca
/-- VFADD_BF_VX (R298). -/
def execVfaddBfVX (d a b : BitVec 5) (mk : BitVec 3) (dt ca : BitVec 1) (s : State) : Out :=
  s.fpAB true true false opAdd d a (s.opVX b) mk dt ca
/-- VFSUB_BF_VV (R298). -/
def execVfsubBfVV (d a b : BitVec 5) (mk : BitVec 3) (dt ca cb : BitVec 1) (s : State) : Out :=
  s.fpAB true true false opSub d a (s.opVV b cb) mk dt ca
/-- VFSUB_BF_VX (R298). -/
def execVfsubBfVX (d a b : BitVec 5) (mk : BitVec 3) (dt ca : BitVec 1) (s : State) : Out :=
  s.fpAB true true false opSub d a (s.opVX b) mk dt ca
/-- VFMUL_BF_VV (R298). -/
def execVfmulBfVV (d a b : BitVec 5) (mk : BitVec 3) (dt ca cb : BitVec 1) (s : State) : Out :=
  s.fpAB true true false opMul d a (s.opVV b cb) mk dt ca
/-- VFMUL_BF_VX (R298). -/
def execVfmulBfVX (d a b : BitVec 5) (mk : BitVec 3) (dt ca : BitVec 1) (s : State) : Out :=
  s.fpAB true true false opMul d a (s.opVX b) mk dt ca
/-- VFMA_BF_VV (R298). -/
def execVfmaBfVV (d a b : BitVec 5) (mk : BitVec 3) (dt ca cb : BitVec 1) (s : State) : Out :=
  s.fpAB true true true opFma d a (s.opVV b cb) mk dt ca
/-- VFMA_BF_VX (R298). -/
def execVfmaBfVX (d a b : BitVec 5) (mk : BitVec 3) (dt ca : BitVec 1) (s : State) : Out :=
  s.fpAB true true true opFma d a (s.opVX b) mk dt ca

/-! Conversions (R301). -/

/-- A format of `vfcvt`: floating point, or a signed integer of a width. -/
inductive CvtFmt where
  | fp (f : Fmt)
  | int (w : Nat)
deriving DecidableEq, Repr
def CvtFmt.width : CvtFmt → Nat
  | .fp f => f.width
  | .int w => w
def CvtFmt.isInt : CvtFmt → Bool
  | .int _ => true
  | .fp _ => false
/-- The source that a from code names. -/
def cvtFrom (n : BitVec 3) : CvtFmt :=
  match n.toNat with
  | 0 => .fp fmtD
  | 1 => .fp fmtS
  | 2 => .fp fmtH
  | 3 => .fp fmtB
  | 4 => .fp fmtE4
  | 5 => .fp fmtE5
  | 6 => .int 32
  | _ => .int 64
/-- The destination that sew and alt name. -/
def cvtTo (sew : Nat) (alt : Bool) : CvtFmt :=
  if sew = 64 then (if alt then .int 64 else .fp fmtD) else if sew = 32 then (if alt then .int 32 else .fp fmtS)
  else if sew = 16 then .fp (if alt then fmtB else fmtH) else .fp (if alt then fmtE5 else fmtE4)
/-- Conversions whose destination holds every value of the source (R46). -/
def vcvtExact (src dst : CvtFmt) : Bool :=
  match src, dst with
  | .int 32, .fp f => f == fmtD
  | .fp e, .fp f => ((e == fmtH || e == fmtB || e == fmtE4 || e == fmtE5) && (f == fmtS || f == fmtD)) || (e == fmtS && f == fmtD) ||
      ((e == fmtE4 || e == fmtE5) && (f == fmtH || f == fmtB))
  | _, _ => false
/-- One conversion (R52); one that is exact for every input flushes no result (log 26). -/
def convertOne (src dst : CvtFmt) (rm : Rm) (fi fo : Bool) (v : Nat) : Nat × Flags :=
  match src, dst with
  | .fp e, .fp f => f.convert rm (fo && !vcvtExact src dst) (e.readIn fi v)
  | .int w, .fp f => f.ofInt rm fo (sextInt w v)
  | .fp e, .int w => (e.readIn fi v).toInt rm w
  | .int _, .int _ => (v, 0)

/-- VFCVT (R301). -/
def execVfcvt (d a : BitVec 5) (alt : BitVec 1) (frm mk : BitVec 3) (dt ca : BitVec 1) (s : State) : Out :=
  let c := s.cur.vcfg
  let src := cvtFrom frm
  let dst := cvtTo c.sew (alt == 1)
  let sw := src.width
  let n := max 1 (c.g * sw / c.sew)
  s.attempt do
    s.villOk
    failIf (src == dst || (src.isInt && dst.isInt) || 4 * sw < c.sew || 4 * c.sew < sw || 8 * c.sew < c.g * sw) s.cur.illegal
    s.alignV [(d, c.g), (a, n)]
    if sw ≠ c.sew then s.apartV (d, c.g) [(a, n)]
    s.startZero
    let r (i : Nat) : Nat × Flags := convertOne src dst (c.rm i) c.flushIn c.flushOut (s.cur.vec.elem c.p a.toNat sw i)
    let act := s.cur.vec.active c mk.toNat
    .ok ((s.vecWrite (permMeta [((a, n), ca)] mk (s.groupsRun mk dt))
      { d, w := c.sew, n := c.g, active := act, res := fun i => (r i).1, flags := flagsOf c.vl act fun i => (r i).2,
        poison := s.anyPV [(a, n)] [mk.toNat] }).drew (!vcvtExact src dst))

/-! Reductions (R54, R55, R302). -/

/-- The running sum of `vfredo` over the active elements of [lo, hi) (R54); fi and fb flush it as an input of each addition (DESIGN
CHOICE, log 65). -/
def State.orderedSum (s : State) (f : Fmt) (c : VCfg) (act : Nat → Bool) (a : BitVec 5) (start : Nat) (lo hi : Nat) : Nat × Flags :=
  (List.range (hi - lo)).foldl (fun (acc : Nat × Flags) k =>
    if act (lo + k) then
      let r := opAdd f (c.rm (lo + k)) c.flushIn c.flushOut 0 acc.1 (s.vE a (lo + k))
      (r.1, acc.2 ||| r.2)
    else acc) (start, 0)

/-- The instruction stops before element k: the running sum stands in vd.e[0], its flags in fcsr, and the trap is taken (R54). No
other element is written, since vd may be va; a poisoned vd, which reads 0, comes clean where its tail is to be zero. -/
def State.stopOrdered (s : State) (d : BitVec 5) (k : Nat) (r : Nat × Flags) (p : Bool) (t : Trap) : State :=
  let c := s.cur.vcfg
  let v := (s.cur.vec.setElem c.p d.toNat c.sew 0 r.1).markV d.toNat 1 (p || (s.cur.vec.poisonV d.toNat 1 && !c.tz))
  (s.modCur fun h => { (h.raiseFlags r.2) with vec := v, csr := { (h.raiseFlags r.2).csr with vstart := BitVec.ofNat 64 k } }).takeAsync t

/-- VFREDO (R54, R302); the instruction of this family that goes on from vstart ≠ 0, with the draw that it took before (R49). -/
def execVfredo (d a b : BitVec 5) (mk : BitVec 3) (dt ca cb : BitVec 1) (s : State) : Out :=
  let c0 := s.cur.vcfg
  let again := c0.vstart != 0
  let c := { c0 with draw := if again then c0.draw - 1 else c0.draw }
  s.attempt do
    s.villOk
    let f ← s.needFmt (fpFmt false c.sew)
    s.alignV [(d, c.g), (a, c.g)]
    let act := s.cur.vec.active c mk.toNat
    let start := if again then s.vE d 0 else s.vE b 0
    let p := s.anyPV (if again then [(a, c.g), (d, 1)] else [(a, c.g), (b, 1)]) [mk.toNat]
    if 32 ≤ s.viqLength then .ok (s.holdClosing .viq) else
    match s.cur.asyncTrap with
    | some t =>
      if c.vstart + 1 < c.vl then
        let k := c.vstart + 1 + Config.pick s.free (2 ^ 52) % (c.vl - c.vstart - 1)
        .ok ((s.stopOrdered d k (s.orderedSum f c act a start c.vstart k) p t).modCur fun h =>
          if again || c.rnd != 5 then h else { h with csr := { h.csr with srdraw := h.csr.srdraw + 1 } })
      else .ok (s.takeAsync t)
    | none =>
      let r := s.orderedSum f c act a start c.vstart c.vl
      .ok ((s.elemWrite (s.reduceMeta a b mk dt ca cb) d (some r.1) r.2 p).drew (!again))

/-- The tree T(lo, n) of R55: absent, or a sum with its flags; node sums are flushed as inputs (DESIGN CHOICE, log 65). -/
def State.treeSum (s : State) (f : Fmt) (c : VCfg) (act : Nat → Bool) (a : BitVec 5) : Nat → Nat → Nat → Option Nat × Flags
  | 0, _, _ => (none, 0)
  | fuel + 1, lo, n =>
    if n = 0 then (none, 0)
    else if n = 1 then (if act lo then some (s.vE a lo) else none, 0)
    else
      let h := 2 ^ (n - 1).log2
      let x := State.treeSum s f c act a fuel lo h
      let y := State.treeSum s f c act a fuel (lo + h) (n - h)
      match x.1, y.1 with
      | none, _ => (y.1, x.2 ||| y.2)
      | _, none => (x.1, x.2 ||| y.2)
      | some u, some v =>
        let r := opAdd f (c.rm (lo + h)) c.flushIn c.flushOut 0 u v
        (some r.1, x.2 ||| y.2 ||| r.2)

/-- The shape of `vfred.op`: a start value, a combination, whether it rounds. -/
def State.fpRed (s : State) (rounds : Bool) (red : Fmt → (Nat → Bool) → Nat → Nat × Flags) (d a b : BitVec 5) (mk : BitVec 3)
    (dt ca cb : BitVec 1) : Out :=
  let c := s.cur.vcfg
  s.attempt do
    s.villOk
    let f ← s.needFmt (fpFmt false c.sew)
    s.alignV [(d, c.g), (a, c.g)]
    s.startZero
    let r := red f (s.cur.vec.active c mk.toNat) (s.vE b 0)
    .ok ((s.elemWrite (s.reduceMeta a b mk dt ca cb) d (some r.1) r.2 (s.anyPV [(a, c.g), (b, 1)] [mk.toNat])).drew rounds)
/-- VFRED_SUM (R55): the last addition rounds at index vsb. -/
def execVfredSum (d a b : BitVec 5) (mk : BitVec 3) (dt ca cb : BitVec 1) (s : State) : Out :=
  s.fpRed true (fun f act start =>
    let c := s.cur.vcfg
    match s.treeSum f c act a 20 0 c.vl with
    | (none, _) => (start, 0)
    | (some v, fl) =>
      let r := opAdd f (c.rm 0) c.flushIn c.flushOut 0 start v
      (r.1, fl ||| r.2)) d a b mk dt ca cb
/-- The fold of R53 over vb.e[0] and the active elements; NV only on a signalling NaN (R302). -/
def State.foldMinmax (s : State) (isMax : Bool) (a : BitVec 5) (f : Fmt) (act : Nat → Bool) (start : Nat) : Nat × Flags :=
  let c := s.cur.vcfg
  (List.range c.vl).foldl (fun (acc : Nat × Flags) i =>
    if act i then
      let r := f.minmax isMax c.flushIn acc.1 (s.vE a i)
      (r.1, acc.2 ||| r.2)
    else acc) (start, 0)
/-- VFRED_MIN (R55). -/
def execVfredMin (d a b : BitVec 5) (mk : BitVec 3) (dt ca cb : BitVec 1) (s : State) : Out :=
  s.fpRed false (s.foldMinmax false a) d a b mk dt ca cb
/-- VFRED_MAX (R55). -/
def execVfredMax (d a b : BitVec 5) (mk : BitVec 3) (dt ca cb : BitVec 1) (s : State) : Out :=
  s.fpRed false (s.foldMinmax true a) d a b mk dt ca cb

/-- One PoT2 element (R303, R45). -/
def potOne (rm : Rm) (fi fo : Bool) (d x w e : Nat) : Nat × Flags :=
  if e = 255 then fmtS.nanOut true else fmtS.fma rm fo (fmtS.readIn fi d) (fmtB.readIn fi x) (pot2Fp w e)
/-- VFPOT (R303): bfloat16 activations, byte weights, the scales in the register after the weights. -/
def execVfpot (d a b : BitVec 5) (mk : BitVec 3) (dt ca cb : BitVec 1) (s : State) : Out :=
  let c := s.cur.vcfg
  let ga := max 1 (c.g / 2)
  let gw := max 1 (c.g / 4)
  let srcs : List ((BitVec 5 × Nat) × BitVec 1) := [((d, c.g), 0), ((a, ga), ca), ((b, gw + 1), cb)]
  s.attempt do
    s.villOk
    failIf (c.sew != 32 || 4 < c.g) s.cur.illegal
    s.alignV [(d, c.g), (a, ga), (b, gw)]
    failIf (31 < b.toNat + gw) s.cur.illegal
    s.apartV (d, c.g) [(a, ga), (b, gw + 1)]
    s.startZero
    let e (r : Nat) (w i : Nat) : Nat := s.cur.vec.elem c.p r w i
    let r (i : Nat) : Nat × Flags := potOne (c.rm i) c.flushIn c.flushOut (s.vE d i) (e a.toNat 16 i) (e b.toNat 8 i)
      (e (b.toNat + gw) 8 (i / 32))
    let act := s.cur.vec.active c mk.toNat
    .ok ((s.vecWrite (permMeta srcs mk (s.groupsRun mk dt))
      { d, w := 32, n := c.g, active := act, res := fun i => (r i).1, flags := flagsOf c.vl act fun i => (r i).2,
        poison := s.anyPV (srcs.map (·.1)) [mk.toNat] }).drew true)

end Sys2Proof.Machine
end

