-- ==== Sys2Proof/Machine/VMem.lean ====
section
/-! DEFINITION. Vector memory: unit-stride, strided, indexed and mask loads and stores (R283 to R285, R287), `vamo` (R286), their
element faults (R198, R200), far elements (R143, R178), the stop at PREEMPT (R204), memory samples (R375). -/
namespace Sys2Proof.Machine

/-- One vector memory instruction: whether it stores, bytes per element, element units of vstart (8 for mask bytes), the stride
class of R375, scalar and vector sources, mask field and dt, the elements it names and their addresses. -/
structure VMemOp where
  store : Bool
  n : Nat
  step : Nat
  cls : Nat
  xs : List (BitVec 5)
  vs : List ((BitVec 5 × Nat) × BitVec 1)
  mask : BitVec 3
  dt : BitVec 1 := 0
  run : Nat × Nat
  idx : List Nat
  addr : Nat → Word

/-- An element access: its index, its address, the place. -/
structure VElem where
  idx : Nat
  va : Word
  t : Target
deriving DecidableEq, Repr

/-- The failing element and its trap. -/
abbrev Stop := Option (Nat × Trap)

/-- Alignment and translation of the elements in rising order, up to the lowest that fails (R169, R284). -/
def State.probe (s : State) (n : Nat) (acc : Acc) (addr : Nat → Word) : List Nat → List VElem × Stop
  | [] => ([], none)
  | i :: r =>
    if (addr i).toNat % n != 0 then ([], some (i, alignTrap (addr i) acc.writes))
    else match translate s s.cur s.cur.level (addr i) n acc true with
    | .error t => ([], some (i, t))
    | .ok t => let (l, e) := s.probe n acc addr r; ({ idx := i, va := addr i, t } :: l, e)

/-- The claims of local elements in rising order, up to the lowest that fails (R176). -/
def State.claimAll (s : State) (n : Nat) (stop : Stop) : List VElem → State × List VElem × Stop
  | [] => (s, [], stop)
  | e :: r =>
    if e.t.isFar then let (s', l, x) := s.claimAll n stop r; (s', e :: l, x)
    else match claimTarget s e.t n with
    | .error i => (s, [], some (e.idx, keystreamTrap (e.va + BitVec.ofNat 64 i)))
    | .ok s1 => let (s', l, x) := s1.claimAll n stop r; (s', e :: l, x)

/-- The bytes of far elements within one 256-byte block that one request names (R143): the span of all the instruction's elements there
for a read; for a write one range without gaps, since WR names one address and a length (R142, log 27). -/
structure FarRun where
  t : Target
  va : Word
  len : Nat
deriving DecidableEq, Repr

/-- Whether an element lies in the same block as a place, through the same leaf. -/
def Target.sameBlock (t u : Target) : Bool := t.home == u.home && t.enc == u.enc && t.lworld == u.lworld && t.key / 256 == u.key / 256
/-- Whether a far element of a read goes into a request. -/
def FarRun.spans (r : FarRun) (e : VElem) : Bool := r.t.sameBlock e.t && e.t.key + r.va.toNat == r.t.key + e.va.toNat
/-- The span with an element of n bytes. -/
def FarRun.cover (r : FarRun) (n : Nat) (e : VElem) : FarRun :=
  let lo := min r.t.key e.t.key
  { t := { r.t with key := lo }, va := r.va - BitVec.ofNat 64 (r.t.key - lo), len := max (r.t.key + r.len) (e.t.key + n) - lo }
/-- The read requests of the far elements: one for each block, in the order of their first elements. -/
def readRuns (n : Nat) (els : List VElem) : List FarRun :=
  (els.filter fun e => e.t.isFar).foldl (fun (acc : List FarRun) e =>
    if acc.any fun r => r.spans e then acc.map fun r => if r.spans e then r.cover n e else r
    else acc ++ [{ t := e.t, va := e.va, len := n }]) []
/-- Whether an element of a write lies in a run or touches it. -/
def FarRun.touches (r : FarRun) (n : Nat) (e : VElem) : Bool :=
  r.t.sameBlock e.t && r.t.key ≤ e.t.key + n && e.t.key ≤ r.t.key + r.len
/-- The write runs with one more element of n bytes: the runs that it touches become one. -/
def addRun (n : Nat) (acc : List FarRun) (e : VElem) : List FarRun :=
  match acc.filter fun r => r.touches n e with
  | [] => acc ++ [{ t := e.t, va := e.va, len := n }]
  | l => let u := l.foldl (fun (u : FarRun) r =>
           let lo := min u.t.key r.t.key
           { t := { u.t with key := lo }, va := u.va - BitVec.ofNat 64 (u.t.key - lo), len := max (u.t.key + u.len) (r.t.key + r.len) - lo })
           ({ t := e.t, va := e.va, len := n } : FarRun)
         let first (r : FarRun) : Bool := l.head? == some r
         acc.filterMap fun r => if first r then some u else if l.contains r then none else some r
/-- The write runs of the far elements, in the order of their first elements. -/
def farRuns (n : Nat) (els : List VElem) : List FarRun := (els.filter fun e => e.t.isFar).foldl (addRun n) []
/-- Whether a far element of a write lies in a run. -/
def FarRun.wrote (r : FarRun) (n : Nat) (e : VElem) : Bool :=
  r.t.sameBlock e.t && r.t.key ≤ e.t.key && e.t.key + n ≤ r.t.key + r.len
/-- The bytes of a run that the elements below a stop fill, the highest element of a byte last (R72). -/
def FarRun.bytes (r : FarRun) (n : Nat) (mine : List VElem) (data : Nat → List Byte) : List Byte :=
  let at' (j : Nat) : Option Byte := (mine.reverse.find? fun e => e.t.key ≤ r.t.key + j && r.t.key + j < e.t.key + n).map
    fun e => (data e.idx).getD (r.t.key + j - e.t.key) 0
  ((List.range r.len).map at').takeWhile Option.isSome |>.filterMap id
/-- Whether an element lies in a run. -/
def FarRun.holds (r : FarRun) (n : Nat) (e : VElem) : Bool :=
  r.t.home == e.t.home && r.t.enc == e.t.enc && r.va.toNat ≤ e.va.toNat && e.va.toNat + n ≤ r.va.toNat + r.len &&
  e.t.key + r.va.toNat == r.t.key + e.va.toNat

/-- The first far element-mode element whose units an earlier element of the instruction claims too (R176). -/
def dupClaim (n : Nat) : List (Nat × Nat) → List VElem → Stop
  | _, [] => none
  | seen, e :: r =>
    if e.t.isFar && e.t.enc == 2 then
      if seen.any fun k => k.1 == e.t.dev && overlap k.2 n e.t.key n then some (e.idx, keystreamTrap e.va)
      else dupClaim n ((e.t.dev, e.t.key) :: seen) r
    else dupClaim n seen r

/-- Consecutive element-mode elements of a store in one block: one CLM where they are far (R178). -/
structure ClaimRun where
  t : Target
  els : List VElem
deriving DecidableEq, Repr
/-- The claims of the element-mode elements, in order, where some of them are far. An element that comes back to a block after another one
claims anew, since nothing at or above a failing element may be claimed (R176). -/
def claimRuns (els : List VElem) : List ClaimRun :=
  if els.any fun e => e.t.isFar && e.t.enc == 2 then
    ((els.filter fun e => e.t.enc == 2).foldl (fun (acc : List ClaimRun) e => match acc with
      | c :: l => if c.t.sameBlock e.t then { c with els := c.els ++ [e] } :: l else { t := e.t, els := [e] } :: c :: l
      | [] => [{ t := e.t, els := [e] }]) []).reverse
  else []
def ClaimRun.units (c : ClaimRun) (n : Nat) : List (Nat × Bool) := c.els.flatMap fun e => unitsOf e.t.key n true
/-- The results of a claim of elements of n bytes. -/
def State.claimed (s : State) (n : Nat) (c : ClaimRun) : Except Trap (List (UnitResult × Word × Half)) :=
  let g := cdiv n 4
  s.claimResults s.cur c.t (c.units n) true .store fun i =>
    ((c.els[i / g]?).map (·.va)).getD 0 + BitVec.ofNat 64 (4 * (i % g))
/-- The claims of local elements among far ones, up to the first unit that is set: the units' results (R176). -/
def State.claimHere (s : State) (n : Nat) : List VElem → State × List (UnitResult × Word × Half)
  | [] => (s, [])
  | e :: r =>
    match claimTarget s e.t n with
    | .error i => (s, (List.range (cdiv n 4)).map fun j => (if 4 * j = i then UnitResult.set else .clear, e.t.nonce, e.t.gen))
    | .ok s1 => let (s2, l) := s1.claimHere n r
                (s2, (List.range (cdiv n 4)).map (fun _ => (UnitResult.claimed, e.t.nonce, e.t.gen)) ++ l)
/-- Makes one claim: asks for it where it is far; a local one is made at once and its answer kept until the instruction is done. -/
def State.claimRun (s : State) (n : Nat) (c : ClaimRun) : State :=
  match s.needClaims s.cur c.t (c.units n) n with
  | none => s
  | some (a, m) =>
    if c.t.isFar then s.ask s.cur c.t a m
    else
      let (u, us) := s.claimHere n c.els
      let r : FarReq := { id := u.nextOp, core := s.cur.core, ctx := s.cur.ctx, dev := c.t.dev, rid := 0, ask := a, msg := .ack 0,
                          answer := some (.claims us) }
      { u with farReqs := u.farReqs ++ [r], nextOp := u.nextOp + 1 }
/-- Makes the claims in order, one after another, since a later element claims nothing once an earlier one fails (R176): the state, and
whether an answer is awaited. -/
def State.askClaims (s : State) (n : Nat) : List ClaimRun → State × Bool
  | [] => (s, false)
  | c :: r =>
    let u := s.claimRun n c
    if u.asking u.cur then (u, true)
    else match u.claimed n c with
    | .ok _ => u.askClaims n r
    | .error _ => (u, false)
/-- What the reads must still ask, at most as many at once as a hart has read tags (R143): the state with the requests sent, or none
where every answer has come. -/
def State.askRuns (s : State) (rs : List FarRun) : Option State :=
  let need := rs.filter fun r => (s.farNeed s.cur r.t r.len true false).isSome
  if need.isEmpty then none
  else some ((need.take 64).foldl (fun s r => match s.farNeed s.cur r.t r.len true false with
    | some (a, m) => s.ask s.cur r.t a m
    | none => s) s)

/-- The element that a trap of a claim concerns: the one whose bytes hold the trap's address, else the first. -/
def ClaimRun.victim (c : ClaimRun) (n : Nat) (t : Trap) : Stop :=
  ((c.els.find? fun e => e.va.toNat ≤ t.detail.toNat && t.detail.toNat < e.va.toNat + n) <|> c.els.head?).map fun e => (e.idx, t)
/-- The lower of two stops. -/
def Stop.first (a b : Stop) : Stop :=
  match a, b with
  | some x, some y => if y.1 < x.1 then b else a
  | some _, none => a
  | none, _ => b
/-- The lowest element whose read was refused or timed out, with its trap at that element's address (R147, R198). -/
def State.readFails (s : State) (n : Nat) (rs : List FarRun) (els : List VElem) : Stop :=
  rs.foldl (fun (x : Stop) r => match s.farRead s.cur r.t r.len .load r.va with
    | .error t => x.first ((els.find? fun e => e.t.isFar && r.holds n e).map fun e => (e.idx, { t with detail := e.va }))
    | .ok _ => x) none
/-- The lowest element whose claim fails (R176). -/
def State.claimsFail (s : State) (n : Nat) (cs : List ClaimRun) : Stop :=
  cs.foldl (fun (x : Stop) c => match s.claimed n c with
    | .error t => x.first (c.victim n t)
    | .ok _ => x) none
/-- Elements below a stop. -/
def below (els : List VElem) (x : Stop) : List VElem := match x with | some (k, _) => els.filter fun e => e.idx < k | none => els

/-- The stop that PREEMPT makes of an instruction that it finds under way (R204): a free element boundary where no element has been sent;
else the boundary after the highest element that has been sent, `sent` being those whose requests or claims have gone. -/
def State.cutPoint (s : State) (sent : List Nat) (lo hi : Nat) : Stop :=
  match s.cur.asyncTrap with
  | some t =>
    if t.code != cPREEMPT then none
    else match sent with
    | [] => if lo + 1 < hi then some (lo + 1 + Config.pick s.free (2 ^ 53) % (hi - lo - 1), t) else none
    | l => let k := l.foldl max 0 + 1
           if k < hi then some (k, t) else none
  | none => none
/-- The stop that PREEMPT makes of an instruction with a list of active elements. -/
def State.cutOf (s : State) (sent idx : List Nat) : Stop :=
  match idx with | lo :: _ => s.cutPoint sent lo (idx.getLast?.getD lo + 1) | [] => none
/-- The elements whose reads or lookups have been asked for. -/
def State.askedReads (s : State) (n : Nat) (rs : List FarRun) (els : List VElem) : List Nat :=
  (els.filter fun e => e.t.isFar && rs.any fun r => r.holds n e &&
    ((s.answer s.cur r.t.dev (.read r.t.key r.len)).isSome || (s.answer s.cur r.t.dev (.claim (unitsOf r.t.key r.len false))).isSome)).map (·.idx)
/-- The elements whose claims have been made or asked for. -/
def State.askedClaims (s : State) (n : Nat) (cs : List ClaimRun) : List Nat :=
  ((cs.filter fun c => (s.answer s.cur c.t.dev (.claim (c.units n))).isSome).flatMap (·.els)).map (·.idx)

/-- The convoy that an instruction is a member of: its head and its members with the instruction (R122, R373). -/
def State.convoyOf (s : State) (m : VMeta) : Word × Nat :=
  match s.cur.convoy with
  | some c => if c.takes m && c.count < 8 then (c.head, c.count + 1) else (s.cur.pc, 1)
  | none => (s.cur.pc, 1)
/-- The memory sample of an instruction, where obctl asks for one (R370, R374, R375). Times, conflicts and misses are free. -/
def State.sampleOf (s : State) (m : VMeta) (cls : Nat) (store : Bool) (els : List VElem) (fault : Bool) : State × List Byte :=
  let o := (s.worlds[s.cur.world.toNat]).obs.ctl
  if !o.getLsbD 1 then (s, []) else
  let s := s.modCur fun h => { h with samples := h.samples + 1 }
  let period := (o.extractLsb' 32 32).toNat
  if period = 0 ∨ s.cur.samples % period ≠ 0 then (s, []) else
  let far := els.any fun e => e.t.remote
  let flags := (if store then 2 else 0) + (if far then 4 else 0) + (if fault then 8 else 0) + (if els.any fun e => e.t.enc == 2 then 16 else 0)
  let (head, members) := s.convoyOf m
  let freeN (i : Nat) : Nat := Config.pick s.free (2 ^ 54 + i) % 2 ^ 32
  let conflicts := if els.any fun e => e.t.home == .spad then freeN 0 else 0
  (s, recordHead s.cur 2 members flags head ++ toBytes 8 s.cur.pc.toNat ++ toBytes 4 els.length ++ toBytes 4 conflicts ++
    toBytes 4 (els.map fun e => e.va.toNat / 64).dedup.length ++ toBytes 4 (els.map fun e => e.va.toNat / 65536).dedup.length ++
    toBytes 4 (freeN 1) ++ toBytes 4 (if els.isEmpty then 0 else freeN 2) ++ toBytes 1 cls ++ List.replicate 7 0)

/-- The address translations that the elements use (R168). -/
def State.touchAll (s : State) (els : List VElem) : State := els.foldl (fun s e => s.touch s.cur.world e.va.toNat) s

/-- Completes acquires in flight and, before a read, earlier vector stores (R73, R76). -/
def State.beforeVector (s : State) (reads : Bool) : State :=
  let s := s.drainAcq
  if reads then s.drain OpKind.isVector true else s

/-- The chaining of a vector memory instruction. -/
def VMemOp.meta' (m : VMemOp) : VMeta :=
  { (permMeta m.vs m.mask m.run) with msrc := if m.mask = 0 then [] else [m.mask.toNat] }

/-- The groups of an instruction that the elements below a stop at k lie in (R369, R374). -/
def State.runBelow (s : State) (m : VMemOp) (k : Nat) : Nat × Nat :=
  let u := s.modCur fun h => { h with csr := { h.csr with vl := BitVec.ofNat 64 (m.step * k) } }
  if m.step = 8 then (u.maskGroups, 0) else u.groupsRun m.mask m.dt
/-- Commits an instruction that stops at element k: the elements below k, nothing else, then the trap (R198, R204), which ends its convoy
(R369). -/
def State.stopAt (s : State) (m : VMeta) (step : Nat) (run : Nat × Nat) (x : Nat × Trap) (e : VEffect) : State :=
  let s1 := (s.convoyCut m run).start 0 (.vector 0 none e.writes [] [] none e.waits e.sample) false e.va
  let s2 := s1.modCur fun h => { h with vec := e.regs, csr := { h.csr with vstart := BitVec.ofNat 64 (step * x.1) } }
  let t := { x.2 with elem := true }
  if t.code = cPREEMPT then s2.takeAsync t else s2.takeTrap t

/-- Ends a vector memory instruction: complete, or stopped. -/
def State.vmemEnd (s : State) (m : VMemOp) (hook : BitVec 4) (x : Stop) (e : VEffect) : Issued :=
  match x with
  | none => .done (s.vecIssue hook m.meta' e)
  | some k => .held (s.stopAt m.meta' m.step (s.runBelow m k.1) k e)

/-- The bytes that a run's answers give an element. -/
def State.elemBytes (s : State) (n : Nat) (rs : List FarRun) (e : VElem) : List Byte × Bool :=
  if e.t.isFar then
    match rs.find? fun r => r.holds n e with
    | some r => match s.farRead s.cur r.t r.len .load r.va with
      | .ok bs => ((bs.drop (e.t.key - r.t.key)).take n, false)
      | .error _ => (List.replicate n 0, false)
    | none => (List.replicate n 0, false)
  else s.readAt s.cur.world e.t n

/-- A vector load from its checked elements: `put` places the loaded values of the elements below a stop. -/
def State.vload (s : State) (m : VMemOp) (hook : BitVec 4) (vd md : List Nat)
    (put : State → List (Nat × Nat) → Stop → Bool → VecRegs) : Issued :=
  if 32 ≤ s.viqLength then .held (s.holdClosing .viq) else
  let (els, x) := s.probe m.n .load m.addr m.idx
  if els.any fun e => s.rekeying e.t then .held (s.holdOn .rekey) else
  let runs := readRuns m.n els
  let cut := s.cutOf (s.askedReads m.n runs els) m.idx
  let x := x.first cut
  let rs := runs.filter fun r => (below els x).any fun e => e.t.isFar && r.holds m.n e
  let s1 := if rs.isEmpty then s.touchAll els else (s.touchAll els).drainSys
  match s1.askRuns rs with
  | some s2 => .held (s2.holdOn .far)
  | none =>
    if s1.asking s1.cur then .held (s1.holdOn .far) else
    let x := (x.first (s1.cutOf (s1.askedReads m.n runs els) m.idx)).first (s1.readFails m.n rs els)
    let els := below els x
    let s2 := s1.beforeVector true
    let got := els.map fun e => (e.idx, s2.elemBytes m.n rs e)
    let p := got.any fun g => g.2.2
    let regs := put s2 (got.map fun g => (g.1, ofBytes g.2.1)) x p
    let (s3, smp) := s2.sampleOf m.meta' m.cls false els (match x with | some (_, t) => t.code != cPREEMPT | none => false)
    ((s3.dropAsks s3.cur).vmemEnd m hook x { (regs.effect vd md 0) with sample := smp })

/-- What the answered claims say of the units of a run. -/
def State.runUnits (s : State) (n : Nat) (cs : List ClaimRun) (r : FarRun) : List (UnitResult × Word × Half) :=
  if r.t.enc != 2 then [] else
  (unitsOf r.t.key r.len true).map fun u =>
    (cs.findSome? fun c => if !c.t.sameBlock r.t then none else match s.answer s.cur c.t.dev (.claim (c.units n)) with
      | some (some (.claims us)) => (((c.units n).zip us).find? fun x => x.1.1 == u.1).map (·.2)
      | _ => none).getD (.clear, 0, 0)
/-- Sends the far elements below a stop, run by run; a request with a poisoned element is dropped whole (R212). -/
def State.sendRuns (s : State) (n : Nat) (cs : List ClaimRun) (rs : List FarRun) (els : List VElem) (data : Nat → List Byte) (p : Nat → Bool) :
    State × List (Nat × Nat) :=
  rs.foldl (fun (acc : State × List (Nat × Nat)) r =>
    let mine := els.filter fun e => e.t.isFar && r.wrote n e
    if mine.isEmpty then acc
    else
      let (s', w) := acc.1.farWrite acc.1.cur r.t (r.bytes n mine data) (mine.any fun e => p e.idx) (s.runUnits n cs r)
      (s', acc.2 ++ w)) (s, [])

/-- A vector store of its elements' bytes; `p` says whether the register of an element's data is poisoned. The claims of an instruction
with far element-mode elements are made in rising order, local ones among them, and kept until it is done (R176). -/
def State.vstore (s : State) (m : VMemOp) (hook : BitVec 4) (data : Nat → List Byte) (p : Nat → Bool) : Issued :=
  if 32 ≤ s.viqLength then .held (s.holdClosing .viq) else
  let (els, x) := s.probe m.n .store m.addr m.idx
  if !s.asked s.cur && els.any fun e => s.rekeying e.t then .held (s.holdOn .rekey) else
  let x := x.first (dupClaim m.n [] els)
  let runs := claimRuns (below els x)
  let cut := s.cutOf (s.askedClaims m.n runs) m.idx
  let cs := runs.filter fun c => !(below c.els cut).isEmpty
  match (s.touchAll els).askClaims m.n cs with
  | (s2, true) => .held (s2.holdOn .far)
  | (s1, false) =>
    let x := (x.first (s1.cutOf (s1.askedClaims m.n runs) m.idx)).first (s1.claimsFail m.n cs)
    let (s2, els, x) := if cs.isEmpty then (s1.beforeVector false).claimAll m.n x (below els x) else (s1.beforeVector false, below els x, x)
    let rs := farRuns m.n els
    let (s3, waits) := s2.sendRuns m.n cs rs els data p
    let writes := (els.filter fun e => !e.t.isFar).map fun e => ({ target := e.t, data := data e.idx, poison := p e.idx } : WriteBack)
    let (s4, smp) := s3.sampleOf m.meta' m.cls true els (match x with | some (_, t) => t.code != cPREEMPT | none => false)
    let va := match rs with | r :: _ => r.va | [] => 0
    (s4.dropAsks s4.cur).vmemEnd m hook x { (s4.cur.vec.effect [] [] 0) with writes, waits, sample := smp, va }

/-- The checks of a vector memory instruction but for vstart, which it accepts (R201): `bad` is what its form adds. -/
def State.vmemOk (s : State) (m : VMemOp) (d : List (BitVec 5 × Nat)) (bad : Bool) : Except Trap Unit := do
  s.villOk
  s.alignV (d ++ m.vs.map (·.1))
  failIf bad s.cur.illegal
  s.strictX m.xs
/-- Counts a poisoned address register or index group of an instruction that is done as one use (R212). -/
def State.countingV (s : State) (r : Issued) (m : VMemOp) (index : List (BitVec 5 × Nat)) : State :=
  match r with
  | .done t => if m.xs.any s.cur.px || s.anyPV index [] then t.countPoison s.cur 1 else t
  | .held t => t

/-- The active elements (R278). -/
def State.activeIdx (s : State) (mk : BitVec 3) : List Nat :=
  let c := s.cur.vcfg
  (List.range (c.vl - c.vstart)).map (c.vstart + ·) |>.filter fun i => s.cur.vec.mask mk.toNat i

/-- Places loaded elements in a vector group: below a stop only, or the whole group by R278. -/
def putGroup (d : BitVec 5) (mk : BitVec 3) (s : State) (got : List (Nat × Nat)) (x : Stop) (p : Bool) : VecRegs :=
  let c0 := s.cur.vcfg
  let c := match x with
    | some (k, _) => { c0 with vl := min k c0.vl, tz := false }
    | none => c0
  let arr := got.foldl (fun (a : Array Nat) e => a.setIfInBounds e.1 e.2) (Array.replicate c.vl 0)
  let act := s.cur.vec.active c mk.toNat
  (s.cur.vec.writeGroup c d.toNat c.sew (c.g * (2048 * c.p / c.sew)) act (fun i => arr.getD i 0)).settleV c act d.toNat c.g c.sew p
/-- The bytes of a stored element. -/
def State.elemData (s : State) (d : BitVec 5) (i : Nat) : List Byte := toBytes (s.cur.vcfg.sew / 8) (s.vE d i)

/-- Whether the register that holds a stored element is poisoned (R212). -/
def State.elemPoison (s : State) (d : BitVec 5) (i : Nat) : Bool :=
  s.cur.vec.poisonV (d.toNat + (elemPlace s.cur.vcfg.p s.cur.vcfg.sew i).1) 1

/-- A load into a vector group. -/
def State.loadV (s : State) (d : BitVec 5) (m : VMemOp) (index : List (BitVec 5 × Nat)) (h : BitVec 4) : Out :=
  let g := s.cur.vcfg.g
  s.attempt do
    s.vmemOk m [(d, g)] (overlaps (d, g) index)
    .ok (s.countingV (s.vload m h (vRegs d g) [] (putGroup d m.mask)) m index)
/-- A store of a vector group. -/
def State.storeV (s : State) (d : BitVec 5) (m : VMemOp) (index : List (BitVec 5 × Nat)) (h : BitVec 4) : Out :=
  let g := s.cur.vcfg.g
  s.attempt do
    s.vmemOk m [(d, g)] false
    .ok (s.countingV (s.vstore m h (s.elemData d) (s.elemPoison d)) m index)

/-- The element accesses of the unit-stride, strided and indexed forms (R284). -/
def State.unitOp (s : State) (store : Bool) (d a : BitVec 5) (mk : BitVec 3) (dt ch : BitVec 1) : VMemOp :=
  let c := s.cur.vcfg
  { store, n := c.sew / 8, step := 1, cls := 0, xs := [a], vs := if store then [((d, c.g), ch)] else [], mask := mk, dt, run := s.groupsRun mk dt,
    idx := s.activeIdx mk, addr := fun i => s.cur.x a + BitVec.ofNat 64 (i * (c.sew / 8)) }
def State.strideOp (s : State) (store : Bool) (d a b : BitVec 5) (mk : BitVec 3) (dt ch : BitVec 1) : VMemOp :=
  let c := s.cur.vcfg
  let st := (s.cur.x b).toInt.natAbs
  { store, n := c.sew / 8, step := 1, cls := if st = 0 then 3 else if st ≤ 64 then 1 else 2, xs := [a, b],
    vs := if store then [((d, c.g), ch)] else [], mask := mk, dt, run := s.groupsRun mk dt,
    idx := s.activeIdx mk, addr := fun i => s.cur.x a + BitVec.ofNat 64 i * s.cur.x b }
def State.indexOp (s : State) (store : Bool) (d a b : BitVec 5) (mk : BitVec 3) (dt ch : BitVec 1) : VMemOp :=
  let c := s.cur.vcfg
  { store, n := c.sew / 8, step := 1, cls := 4, xs := [a],
    vs := if store then [((d, c.g), ch), ((b, c.g), ch)] else [((b, c.g), ch)], mask := mk, dt, run := s.groupsRun mk dt,
    idx := s.activeIdx mk, addr := fun i => s.cur.x a + BitVec.ofNat 64 (s.vE b i) }

/-- VLD (R283, R284). -/
def execVld (d a : BitVec 5) (mk : BitVec 3) (dt ch : BitVec 1) (h : BitVec 4) (s : State) : Out :=
  s.loadV d (s.unitOp false d a mk dt ch) [] h
/-- VST (R283, R284). -/
def execVst (d a : BitVec 5) (mk : BitVec 3) (dt ch : BitVec 1) (h : BitVec 4) (s : State) : Out :=
  s.storeV d (s.unitOp true d a mk dt ch) [] h
/-- VLDS (R283, R284). -/
def execVlds (d a b : BitVec 5) (mk : BitVec 3) (dt ch : BitVec 1) (h : BitVec 4) (s : State) : Out :=
  s.loadV d (s.strideOp false d a b mk dt ch) [] h
/-- VSTS (R283, R284). -/
def execVsts (d a b : BitVec 5) (mk : BitVec 3) (dt ch : BitVec 1) (h : BitVec 4) (s : State) : Out :=
  s.storeV d (s.strideOp true d a b mk dt ch) [] h
/-- VLDX (R283, R284). -/
def execVldx (d a b : BitVec 5) (mk : BitVec 3) (dt ch : BitVec 1) (h : BitVec 4) (s : State) : Out :=
  s.loadV d (s.indexOp false d a b mk dt ch) [(b, s.cur.vcfg.g)] h
/-- VSTX (R283, R284). -/
def execVstx (d a b : BitVec 5) (mk : BitVec 3) (dt ch : BitVec 1) (h : BitVec 4) (s : State) : Out :=
  s.storeV d (s.indexOp true d a b mk dt ch) [(b, s.cur.vcfg.g)] h

/-- The byte accesses of `mld` and `mst` from vstart (R287). -/
def State.maskOp (s : State) (store : Bool) (d a : BitVec 5) : VMemOp :=
  let c := s.cur.vcfg
  { store, n := 1, step := 8, cls := 6, xs := [a], vs := [], mask := if store then d.setWidth 3 else 0, run := (s.maskGroups, 0),
    idx := (List.range (cdiv c.vl 8 - c.vstart / 8)).map (c.vstart / 8 + ·), addr := fun j => s.cur.x a + BitVec.ofNat 64 j }
/-- Places loaded mask bytes (R287). -/
def putMask (d : BitVec 5) (s : State) (got : List (Nat × Nat)) (x : Stop) (p : Bool) : VecRegs :=
  let c0 := s.cur.vcfg
  let c := match x with
    | some (k, _) => { c0 with vl := min (8 * k) c0.vl, tz := false }
    | none => c0
  let arr := got.foldl (fun (a : Array Nat) e => a.setIfInBounds e.1 e.2) (Array.replicate (cdiv c0.vl 8) 0)
  let act := s.cur.vec.active c 0
  (s.cur.vec.setMask d.toNat (maskResult c (s.cur.vec.m.getD d.toNat 0) act fun i => (arr.getD (i / 8) 0).testBit (i % 8))).settleM c act
    d.toNat p
/-- Byte j of a mask below vl (R287). -/
def State.maskByte (s : State) (d : BitVec 5) (j : Nat) : List Byte :=
  [BitVec.ofNat 8 ((List.range 8).foldl (fun acc b =>
    if 8 * j + b < s.cur.vcfg.vl && s.cur.vec.mask d.toNat (8 * j + b) then acc + 2 ^ b else acc) 0)]

/-- MLD (R287). -/
def execMld (d a : BitVec 5) (h : BitVec 4) (s : State) : Out :=
  let m := s.maskOp false d a
  s.attempt do
    s.vmemOk m [] (s.cur.vcfg.vstart % 8 != 0)
    .ok (s.countingV (s.vload m h [] (if d = 0 then [] else [d.toNat]) (putMask d)) m [])
/-- MST (R287). -/
def execMst (d a : BitVec 5) (h : BitVec 4) (s : State) : Out :=
  let m := s.maskOp true d a
  s.attempt do
    s.vmemOk m [] (s.cur.vcfg.vstart % 8 != 0)
    .ok (s.countingV (s.vstore m h (s.maskByte d) fun _ => s.anyPV [] [d.toNat]) m [])

/-! `vamo` (R85, R286). -/

/-- Whether a place's home instance lies within a scope instance of the issuing hart (R69, R70). -/
def State.inScope (s : State) (sc : Nat) (t : Target) : Bool :=
  match t.home with
  | .tcm => true
  | .spad => 2 ≤ sc
  | .stack st => 4 ≤ sc || (sc == 3 && st == stackOf s.cur.core)
  | .regs => 4 ≤ sc
  | .host | .far _ => 5 ≤ sc

/-- The operation of a `vamo` code (R231, R248). -/
def amoOfCode (n : Nat) : AmoOp := [AmoOp.add, .and, .or, .xor, .min, .max, .minu, .maxu, .swap].getD n .add

/-- The elements of a `vamo`, in rising order (R72, R198): those below the first that must wait are performed; registers, poison taken, a
stop where a claim or a far answer fails. An element that has its answer is not performed again. -/
inductive AmoRun where
  | wait (s : State)
  | done (s : State) (old : List (Nat × Option Word)) (poison : Bool) (stop : Stop)
/-- One element's old value before those of the elements above it. -/
def AmoRun.cons (i : Nat) (v : Option Word) (q : Bool) : AmoRun → AmoRun
  | .wait s => .wait s
  | .done s l p x => .done s ((i, v) :: l) (q || p) x
/-- Keeps the old value of a local element while far elements above it are awaited. -/
def State.keepOld (s : State) (e : VElem) (v : Word) (p : Bool) : State :=
  let r : FarReq := { id := s.nextOp, core := s.cur.core, ctx := s.cur.ctx, dev := e.t.dev, rid := 0, ask := .amo e.t.key e.idx,
                      msg := .ack 0, answer := some (.kept v p) }
  { s with farReqs := s.farReqs ++ [r], nextOp := s.nextOp + 1 }
def State.amoElems (s : State) (op : AmoOp) (sc : Nat) (arg : Nat → Word) (p : Nat → Bool) : List VElem → AmoRun
  | [] => .done s [] false none
  | e :: r =>
    if !s.inScope sc e.t then (s.amoElems op sc arg p r).cons e.idx none false
    else match s.answer s.cur e.t.dev (.amo e.t.key e.idx) with
    | some (some (.old v)) => (s.amoElems op sc arg p r).cons e.idx (some v) false
    | some (some (.kept v q)) => (s.amoElems op sc arg p r).cons e.idx (some v) q
    | some (some (.fail c k)) => .done s [] false (some (e.idx, failTrap k c .atomic e.va))
    | some _ => .wait s
    | none =>
      if e.t.isFar then .wait (s.askAmo s.cur e.t e.idx op (arg e.idx) 0)
      else match claimTarget s e.t 8 with
      | .error i => .done s [] false (some (e.idx, keystreamTrap (e.va + BitVec.ofNat 64 i)))
      | .ok s1 =>
        let (s2, old, q) := s1.performAtomic s1.cur (some op) e.t (arg e.idx) 0 (p e.idx)
        let s3 := if r.any fun x => x.t.isFar && s.inScope sc x.t then s2.keepOld e old q else s2
        (s3.amoElems op sc arg p r).cons e.idx (some old) q

/-- The registers after the performed elements: old values in vd, scope misses in m7 (R85, R286). -/
def putAmo (s : State) (d : BitVec 5) (res : List (Nat × Option Word)) (x : Stop) (p : Bool) : VecRegs :=
  let c0 := s.cur.vcfg
  let c := match x with
    | some (k, _) => { c0 with vl := min k c0.vl, tz := false }
    | none => c0
  let arr := res.foldl (fun (a : Array (Option Word)) e => a.setIfInBounds e.1 e.2) (Array.replicate c.vl none)
  let act (i : Nat) : Bool := s.cur.vec.active c 0 i
  let val (i : Nat) : Nat := match arr.getD i none with | some v => v.toNat | none => s.vE d i
  let r := (s.cur.vec.writeGroup c d.toNat 64 (c.g * (2048 * c.p / 64)) act val).settleV c
    (fun i => act i && (arr.getD i none).isSome) d.toNat c.g 64 p
  let m7 := r.m.getD 7 0
  { r with m := r.m.setIfInBounds 7 (res.foldl (fun (m : BitVec 65536) e =>
      if e.2.isNone then m ||| (1#65536 <<< e.1) else m &&& ~~~(1#65536 <<< e.1)) m7) }

/-- VAMO (R286): code = 6·op + scope (R231). -/
def execVamo (d a b : BitVec 5) (code : BitVec 6) (h : BitVec 4) (s : State) : Out :=
  let c := s.cur.vcfg
  let op := amoOfCode (code.toNat / 6)
  let sc := code.toNat % 6
  let m : VMemOp := { store := true, n := 8, step := 1, cls := 5, xs := [a], vs := [((d, c.g), 0), ((b, c.g), 0)], mask := 0,
                      run := s.groupsRun 0 0, idx := s.activeIdx 0, addr := fun i => s.cur.x a + BitVec.ofNat 64 (s.vE b i) }
  s.attempt do
    s.vmemOk m [] (c.sew != 64 || overlaps (d, c.g) [(b, c.g)])
    .ok (s.countingV (
      if 32 ≤ s.viqLength then .held (s.holdClosing .viq) else
      let (els, x) := s.probe 8 .atomic m.addr m.idx
      if !s.asked s.cur && els.any fun e => s.rekeying e.t then .held (s.holdOn .rekey) else
      let s1 := (s.touchAll els).beforeVector true
      let arg (i : Nat) : Word := BitVec.ofNat 64 (s.vE d i)
      let sent := (els.filter fun e => (s.answer s.cur e.t.dev (.amo e.t.key e.idx)).isSome).map (·.idx)
      let x := x.first (s1.cutOf sent m.idx)
      let els := below els x
      match s1.amoElems op sc arg (s1.elemPoison d) els with
      | .wait s2 => .held (s2.holdOn .far)
      | .done s2 res q y =>
        let x := x.first y
        let (s3, smp) := s2.sampleOf m.meta' 5 true (els.filter fun e => res.any fun r => r.1 == e.idx && r.2.isSome)
          (match x with | some (_, t) => t.code != cPREEMPT | none => false)
        (s3.dropAsks s3.cur).vmemEnd m h x { ((putAmo s3 d res x q).effect (vRegs d c.g) [7] 0) with sample := smp }) m [(b, c.g)])

end Sys2Proof.Machine
end

