-- ==== Sys2Proof/Machine/VMod.lean ====
section
/-! DEFINITION. Vector modular arithmetic: major 0x24 (R58 to R62, R305 to R313), and `rpkey` (R336). -/
namespace Sys2Proof.Machine

/-- The modulus tables that `mtld` still in flight installs (R60). -/
def State.comingTables (s : State) : List (Vector (BitVec 512) 64) :=
  (s.opsOf s.cur).filterMap fun o => match o.kind with
    | .vector _ _ _ _ _ mt _ _ => mt
    | _ => none
/-- The entry that vtype.q selects, of the context's table or, by a free choice, of one that an `mtld` in flight installs (R60). -/
def State.captured (s : State) : Option ModEntry :=
  let table := match s.comingTables with
    | [] => s.cur.ct.mtab
    | l => ((s.cur.ct.mtab :: l)[Config.pick s.free (2 ^ 55) % (l.length + 1)]?).getD s.cur.ct.mtab
  modEntry (table.getD s.cur.vcfg.q 0)
/-- ILLEGAL for an invalid entry and for a > sew (R58, R306). -/
def State.needEntry (s : State) : Except Trap ModEntry :=
  match s.captured with
  | some e => if s.cur.vcfg.sew < e.a then .error s.cur.illegal else .ok e
  | none => .error s.cur.illegal

/-- The shape of the modular functions with one destination group, the checks of R313, all ILLEGAL alike: `apart` marks
those whose destination must not overlap va, `bad` a bad operand word or vl, found once the operand has passed STRICT (log 64). -/
def State.modX (s : State) (xs : List (BitVec 5)) (apart bad : Bool) (d a : BitVec 5) (vs : List (BitVec 5 × BitVec 1)) (mk : BitVec 3)
    (dt : BitVec 1) (res : ModEntry → Nat → Nat) : Out :=
  let c := s.cur.vcfg
  let gs := vs.map fun (e : BitVec 5 × BitVec 1) => (e.1, c.g)
  s.attempt do
    s.villOk
    s.alignV ((d, c.g) :: gs)
    s.apartV (d, c.g) (if apart then [(a, c.g)] else [])
    let e ← s.needEntry
    s.startZero
    s.strictX xs
    failIf bad s.cur.illegal
    .ok (s.vecWrite (permMeta (vs.map fun (v : BitVec 5 × BitVec 1) => ((v.1, c.g), v.2)) mk (s.groupsRun mk dt))
      { d, w := c.sew, n := c.g, active := s.cur.vec.active c mk.toNat, res := res e, flags := 0,
        poison := s.anyPX xs || s.anyPV gs [mk.toNat] })

/-- Functions 0 to 7: `f` takes q, d, a and b (R305). -/
def State.modAB (s : State) (useD : Bool) (f : Nat → Nat → Nat → Nat → Nat) (d a : BitVec 5) (b : VOperand) (mk : BitVec 3)
    (dt ca : BitVec 1) : Out :=
  s.modX b.xs false false d a ((a, ca) :: b.vec ++ if useD then [(d, 0)] else []) mk dt fun e i => f e.q (s.vE d i) (s.vE a i) (b.val i)

def mAdd (q _d a b : Nat) : Nat := (a + b) % q
def mSub (q _d a b : Nat) : Nat := modQ q ((a : Int) - b)
def mMul (q _d a b : Nat) : Nat := a * b % q
def mMac (q d a b : Nat) : Nat := (d + a * b) % q

/-- VMADD_VV (R305). -/
def execVmaddVV (d a b : BitVec 5) (mk : BitVec 3) (dt ca cb : BitVec 1) (s : State) : Out := s.modAB false mAdd d a (s.opVV b cb) mk dt ca
/-- VMSUB_VV (R305). -/
def execVmsubVV (d a b : BitVec 5) (mk : BitVec 3) (dt ca cb : BitVec 1) (s : State) : Out := s.modAB false mSub d a (s.opVV b cb) mk dt ca
/-- VMMUL_VV (R305). -/
def execVmmulVV (d a b : BitVec 5) (mk : BitVec 3) (dt ca cb : BitVec 1) (s : State) : Out := s.modAB false mMul d a (s.opVV b cb) mk dt ca
/-- VMMAC_VV (R305, R306). -/
def execVmmacVV (d a b : BitVec 5) (mk : BitVec 3) (dt ca cb : BitVec 1) (s : State) : Out := s.modAB true mMac d a (s.opVV b cb) mk dt ca
/-- VMADD_VX (R305). -/
def execVmaddVX (d a b : BitVec 5) (mk : BitVec 3) (dt ca : BitVec 1) (s : State) : Out := s.modAB false mAdd d a (s.opVX b) mk dt ca
/-- VMSUB_VX (R305). -/
def execVmsubVX (d a b : BitVec 5) (mk : BitVec 3) (dt ca : BitVec 1) (s : State) : Out := s.modAB false mSub d a (s.opVX b) mk dt ca
/-- VMMUL_VX (R305). -/
def execVmmulVX (d a b : BitVec 5) (mk : BitVec 3) (dt ca : BitVec 1) (s : State) : Out := s.modAB false mMul d a (s.opVX b) mk dt ca
/-- VMMAC_VX (R305, R306). -/
def execVmmacVX (d a b : BitVec 5) (mk : BitVec 3) (dt ca : BitVec 1) (s : State) : Out := s.modAB true mMac d a (s.opVX b) mk dt ca

/-- A butterfly (R307): `f` takes q, x, y and w and gives both results. -/
def State.butterfly (s : State) (f : Nat → Nat → Nat → Nat → Nat × Nat) (d a b : BitVec 5) (mk : BitVec 3) (dt ca cb : BitVec 1) : Out :=
  let c := s.cur.vcfg
  s.attempt do
    s.villOk
    failIf (c.g != 1) s.cur.illegal
    failIf (d.getLsbD 0 || a.getLsbD 0) s.cur.illegal
    let e ← s.needEntry
    s.startZero
    let act := s.cur.vec.active c mk.toNat
    let r (i : Nat) : Nat × Nat := f e.q (s.vE a i) (s.vE (a + 1) i) (s.vE b i)
    let p := s.anyPV [(a, 2), (b, 1)] [mk.toNat]
    let n := 2048 * c.p / c.sew
    let v1 := s.cur.vec.writeGroup c d.toNat c.sew n act fun i => (r i).1
    let v2 := v1.writeGroup c (d.toNat + 1) c.sew n act fun i => (r i).2
    .ok (s.vecIssue 0 (permMeta [((a, 2), ca), ((b, 1), cb)] mk (s.groupsRun mk dt))
      (((v2.settleV c act d.toNat 1 c.sew p).settleV c act (d.toNat + 1) 1 c.sew p).effect (vRegs d 2) [] 0))
/-- VBFLY (R307). -/
def execVbfly (d a b : BitVec 5) (mk : BitVec 3) (dt ca cb : BitVec 1) (s : State) : Out :=
  s.butterfly (fun q x y w => ((x + w * y) % q, modQ q ((x : Int) - (w * y : Nat)))) d a b mk dt ca cb
/-- VIBFLY (R307). -/
def execVibfly (d a b : BitVec 5) (mk : BitVec 3) (dt ca cb : BitVec 1) (s : State) : Out :=
  s.butterfly (fun q x y w => ((x + y) % q, modQ q (((x : Int) - y) * w))) d a b mk dt ca cb

/-- The stage word of R308: l and s, none where a bound that needs no entry fails. -/
def stageWord (w : Word) : Option (Nat × Nat) :=
  let l := (w.extractLsb' 8 5).toNat
  let st := (w.extractLsb' 0 5).toNat
  if w.extractLsb' 13 51 != 0 || w.extractLsb' 5 3 != 0 || l = 0 || l ≤ st then none else some (l, st)
/-- ILLEGAL for l above the entry's lgn (R308). -/
def State.stageX (s : State) (inv : Bool) (d a b : BitVec 5) (ca : BitVec 1) : Out :=
  let c := s.cur.vcfg
  let w := stageWord (s.cur.x b)
  let l := (w.getD (1, 0)).1
  let st := (w.getD (1, 0)).2
  let bad := w.isNone || c.vl % 2 ^ l != 0 || (match s.captured with | some e => e.lgn < l | none => false)
  s.modX [b] true bad d a [(a, ca)] 0 0 fun e i =>
    let base := i / 2 ^ l * 2 ^ l
    let src (k : Nat) : Nat := s.ahead a ca c.sew (base + k) i
    if inv then inttElem e.q (e.root true l) (e.ninv * 2 ^ (e.lgn - l) % e.q) l st src (i - base)
    else nttElem e.q (e.root false l) l st src (i - base)
/-- VNTT (R308). -/
def execVntt (d a b : BitVec 5) (ca : BitVec 1) (s : State) : Out := s.stageX false d a b ca
/-- VINTT (R308). -/
def execVintt (d a b : BitVec 5) (ca : BitVec 1) (s : State) : Out := s.stageX true d a b ca

/-- VAUTO (R309): the result at k comes from coefficient k·γ⁻¹ mod 2n, with its sign. -/
def execVauto (d a b : BitVec 5) (ca : BitVec 1) (s : State) : Out :=
  let c := s.cur.vcfg
  let w := s.cur.x b
  let l := (w.extractLsb' 32 5).toNat
  let n := 2 ^ l
  let g := (w.extractLsb' 0 32).toNat
  let back := powMod (2 * n) g (n - 1)
  s.modX [b] true (w.extractLsb' 37 27 != 0 || l = 0 || g % 2 = 0 || 2 * n ≤ g || c.vl % n != 0) d a [(a, ca)] 0 0 fun e i =>
    let base := i / n * n
    let j := (i - base) * back % (2 * n)
    if j < n then s.ahead a ca c.sew (base + j) i % e.q else modQ e.q (-(s.ahead a ca c.sew (base + (j - n)) i : Int))

/-- VDIGIT (R310). -/
def execVdigit (d a b : BitVec 5) (mk : BitVec 3) (dt ca : BitVec 1) (s : State) : Out :=
  let w := s.cur.x b
  let j := (w.extractLsb' 12 4).toNat
  let ell := (w.extractLsb' 8 4).toNat
  let beta := (w.extractLsb' 0 6).toNat
  let bad := w.extractLsb' 16 48 != 0 || w.extractLsb' 6 2 != 0 || j = 0 || ell < j || beta = 0 || 64 < beta * ell
  s.modX [b] false bad d a [(a, ca)] mk dt fun e i => modQ e.q ((digits e.q beta ell (s.vE a i % e.q)).getD (j - 1) 0)

/-- The first entry of a table that `mtld` refuses (R59). -/
def badEntry (l : List (BitVec 512)) : Option Nat := l.findIdx? fun e => e.getLsbD 511 && !modEntryOk e

/-- MTLD (R59, R311): 64 pieces of 64 bytes; an entry that holds a poisoned word is loaded as invalid. -/
def execMtld (a : BitVec 5) (h : BitVec 4) (s : State) : Out :=
  let addr := s.cur.x a
  s.attempt do
    s.villOk
    s.startZero
    s.strictX [a]
    failIf (addr.toNat % 64 != 0) (alignTrap addr)
    match s.probe 64 .load (fun i => addr + BitVec.ofNat 64 (64 * i)) (List.range 64) with
    | (_, some (_, t)) => .error t
    | (els, none) =>
      if 32 ≤ s.viqLength then .ok (s.holdClosing .viq) else
      let s1 := s.touchAll els
      let rs := readRuns 64 els
      let s1 := if rs.isEmpty then s1 else s1.drainSys
      match s1.askRuns rs with
      | some s2 => .ok (s2.holdOn .far)
      | none =>
        if s1.asking s1.cur then .ok (s1.holdOn .far) else
        match s1.readFails 64 rs els with
        | some (_, t) => .error t
        | none =>
          let s2 := s1.beforeVector true
          let got := els.map (s2.elemBytes 64 rs)
          let table := got.map fun (g : List Byte × Bool) => if g.2 then 0#512 else BitVec.ofNat 512 (ofBytes g.1)
          match badEntry table with
          | some i => .error (illegalN i)
          | none =>
            let n := (got.filter fun (g : List Byte × Bool) => g.2).length
            let t := Vector.ofFn fun (i : Fin 64) => table.getD i.val 0
            let s3 := (s2.dropAsks s2.cur).vecIssue h (permMeta [] 0 (0, 0)) { (s2.cur.vec.effect [] [] 0) with mtab := some t }
            .ok (s3.countPoison s.cur (n + (s.cur.px a).toNat))

/-! `rpkey` (R336). Coordinates are a list, x first. -/

/-- One pass of the first loop at one coordinate. -/
def hilbertAxis (q : Nat) (x : List Nat) (a : Nat) : List Nat :=
  let p := q - 1
  let x0 := x.getD 0 0
  let xa := x.getD a 0
  if xa &&& q != 0 then x.set 0 (x0 ^^^ p)
  else
    let t := (x0 ^^^ xa) &&& p
    let y := x.set 0 (x0 ^^^ t)
    y.set a (y.getD a 0 ^^^ t)
/-- Q from 2^(b−1) down to 2. -/
def hilbertQs (b : Nat) : List Nat := (List.range (b - 1)).map fun i => 2 ^ (b - 1 - i)
/-- The Hilbert transform of the coordinates. -/
def hilbert (b d : Nat) (x : List Nat) : List Nat :=
  let x := (hilbertQs b).foldl (fun x q => (List.range d).foldl (hilbertAxis q) x) x
  let x := (List.range (d - 1)).foldl (fun (x : List Nat) i => x.set (i + 1) (x.getD (i + 1) 0 ^^^ x.getD i 0)) x
  let t := (hilbertQs b).foldl (fun t q => if x.getD (d - 1) 0 &&& q != 0 then t ^^^ (q - 1) else t) 0
  x.map (· ^^^ t)
/-- The key whose bit d·j + (d−1−a) is bit j of coordinate a. -/
def interleave (b d : Nat) (x : List Nat) : Nat :=
  (List.range b).foldl (fun acc j => (List.range d).foldl (fun acc a =>
    if (x.getD a 0).testBit j then acc + 2 ^ (d * j + (d - 1 - a)) else acc) acc) 0

/-- RPKEY (R336). -/
def execRpkey (d a b : BitVec 5) (s : State) : Out :=
  let c := s.cur.vcfg
  let w := s.cur.x b
  let n := (w.extractLsb' 2 5).toNat
  let dim := if w.getLsbD 1 then 3 else 2
  s.attempt do
    s.villOk
    failIf (c.sew != 64) s.cur.illegal
    s.alignV [(d, c.g), (a, c.g)]
    s.startZero
    s.strictX [b]
    failIf (w.extractLsb' 7 57 != 0 || n = 0 || 21 < n) s.cur.illegal
    let key (i : Nat) : Nat :=
      let v := s.vE a i
      let x := (List.range dim).map fun k => v / 2 ^ (21 * k) % 2 ^ n
      interleave n dim (if w.getLsbD 0 then hilbert n dim x else x)
    .ok (s.vecWrite (permMeta [((a, c.g), 0)] 0 (s.groupsRun 0 0))
      { d, w := 64, n := c.g, active := s.cur.vec.active c 0, res := key, flags := 0, poison := s.cur.px b || s.anyPV [(a, c.g)] [] })

end Sys2Proof.Machine
end

