-- ==== Sys2Proof/Machine/Tile.lean ====
section
/-! DEFINITION. The tile array: major 0x25 (R314 to R321, R56, R57, R45). -/
namespace Sys2Proof.Machine

/-- Cell c of accumulator z. -/
def VecRegs.cell (r : VecRegs) (z c : Nat) : Nat := ((r.z.getD z 0).extractLsb' (32 * c) 32).toNat
/-- An accumulator with cells by a function. -/
def VecRegs.setCells (r : VecRegs) (z : Nat) (f : Nat → Nat) : VecRegs :=
  { r with z := r.z.setIfInBounds z (BitVec.ofNat 32768 ((List.range 1024).foldr (fun c acc => f c % 2 ^ 32 + 2 ^ 32 * acc) 0)) }
/-- Marks an accumulator poisoned, its data reading 0, or clean (R211, R212). -/
def VecRegs.markZ (r : VecRegs) (z : Nat) (p : Bool) : VecRegs :=
  if p then { r with pz := r.pz ||| 1#4 <<< z, z := r.z.setIfInBounds z 0 } else { r with pz := r.pz &&& ~~~(1#4 <<< z) }

/-- Split FP64: accumulators in pairs (R316). -/
def VCfg.split (c : VCfg) : Bool := c.tmode == 9
/-- The accumulators that zd names. -/
def VCfg.zs (c : VCfg) (z : BitVec 5) : List Nat := if c.split then [z.toNat, z.toNat + 1] else [z.toNat]
/-- Cell c as the mode reads it: a 64-bit pair value in split mode (R316). -/
def VecRegs.zRead (r : VecRegs) (c : VCfg) (z : BitVec 5) (i : Nat) : Nat :=
  if c.split then r.cell z.toNat i + 2 ^ 32 * r.cell (z.toNat + 1) i else r.cell z.toNat i
/-- Writes every cell as the mode reads it. -/
def VecRegs.zWrite (r : VecRegs) (c : VCfg) (z : BitVec 5) (f : Nat → Nat) : VecRegs :=
  if c.split then (r.setCells z.toNat f).setCells (z.toNat + 1) fun i => f i / 2 ^ 32 else r.setCells z.toNat f
def VecRegs.zPoison (r : VecRegs) (c : VCfg) (z : BitVec 5) : Bool := (c.zs z).any fun i => r.pz.getLsbD i
def VecRegs.zMark (r : VecRegs) (c : VCfg) (z : BitVec 5) (p : Bool) : VecRegs := (c.zs z).foldl (fun r i => r.markZ i p) r
/-- Bytes of a cell. -/
def VCfg.cellBytes (c : VCfg) : Nat := if c.split then 8 else 4

/-- The sew that `tmma` needs (R316). -/
def tmmaSew (mode : Nat) : Nat := if mode ≤ 6 then 8 else if mode ≤ 8 then 16 else 64
/-- Checks 1, 3, 4 and 5 of R321. -/
def State.tileOk (s : State) (sew : Nat) (z : BitVec 5) : Except Trap Unit := do
  let c := s.cur.vcfg
  failIf (!s.cur.tileOwner) s.cur.illegal
  s.villOk
  failIf (c.sew != sew) s.cur.illegal
  failIf (c.split && (z.getLsbD 0 || c.slices == 0)) s.cur.illegal
/-- A tile instruction never joins a convoy (R314). -/
def tileMeta (run : Nat × Nat) : VMeta := { vsrc := [], msrc := [], run := run.1, skip := run.2, whole := true }

/-- TZERO (R319). -/
def execTzero (d : BitVec 5) (s : State) : Out :=
  s.attempt do
    failIf (!s.cur.tileOwner) s.cur.illegal
    s.villOk
    s.startZero
    let r := s.cur.vec
    .ok (s.vecIssue 0 (tileMeta (s.groupsRun 0 0)) (((r.setCells d.toNat fun _ => 0).markZ d.toNat false).effect [] [] 0))

/-- An operand's significand cut to its top slices (R57); the value of zeros, infinities and NaNs stays. -/
def sliced (n : Nat) : Fp → Fp
  | .fin neg m e => .fin neg (m / 2 ^ (53 - 8 * n) * 2 ^ (53 - 8 * n)) e
  | x => x
/-- The product of two terms whose operands are not NaN; slices are dropped only from finite products (R57, log 28). -/
def tileProd (cut : Fp → Fp) (x : Fp × Fp) : Option Fp :=
  match x.1.mul x.2 with
  | some (.fin _ _ _) => (cut x.1).mul (cut x.2)
  | r => r
/-- One floating-point cell (R56): the old value and the operand pairs; `bad` says that a block has the reserved scale (R45);
`ieee` gives a zero sum the sign of IEEE 754 (R57, log 28). Infinities that meet beside a quiet NaN raise no NV (DESIGN CHOICE, log 69). -/
def tileCell (f : Fmt) (cut : Fp → Fp) (rm : Rm) (fo ieee bad : Bool) (old : Fp) (l : List (Fp × Fp)) : Nat × Flags :=
  let real := l.filter fun x => !(x.1.isNan || x.2.isNan)
  let prods := real.map (tileProd cut)
  let none' := prods.any Option.isNone
  let snan := old.isSnan || l.any fun x => x.1.isSnan || x.2.isSnan
  if old.isNan || real.length != l.length || none' || bad then f.nanOut (snan || none' || bad)
  else
    let terms := old :: prods.filterMap id
    if !ieee && terms.all (fun t => !t.isInf) && (exactSum terms).1 == 0 then
      (f.signBit (terms.all (fun t => t.isZero && t.neg?) || rm == .rdn), 0)
    else f.sum rm fo terms

/-- The operand formats of modes 3 to 9 (R316); PoT2 weights have their own. -/
def tileFmts (mode : Nat) : Fmt × Fmt :=
  match mode with
  | 3 => (fmtE4, fmtE4)
  | 4 => (fmtE4, fmtE5)
  | 5 => (fmtE5, fmtE4)
  | 6 => (fmtE5, fmtE5)
  | 9 => (fmtD, fmtD)
  | _ => (fmtB, fmtB)
/-- An 8-bit integer operand (R316). -/
def tileInt (signed : Bool) (v : Nat) : Int := if signed then sextInt 8 v else v

/-- The cells of `tmma` for K columns (R317): results and flags. -/
def State.tmmaCells (s : State) (d a b : BitVec 5) (k : Nat) : Array (Nat × Flags) :=
  let c := s.cur.vcfg
  let r := s.cur.vec
  let e (v w i : Nat) : Nat := r.elem c.p v w i
  if c.tmode ≤ 2 then
    let xa := Array.ofFn fun (i : Fin (32 * k)) => tileInt (c.tmode != 1) (e a.toNat 8 i)
    let xb := Array.ofFn fun (i : Fin (32 * k)) => tileInt (c.tmode == 0) (e b.toNat 8 i)
    Array.ofFn fun (i : Fin 1024) =>
      let v := (List.range k).foldl (fun (acc : Int) j => acc + xa.getD (32 * j + i / 32) 0 * xb.getD (32 * j + i % 32) 0)
        (r.cell d.toNat i)
      (wrapInt 32 v, (0 : Flags))
  else
    let fm := tileFmts c.tmode
    let acc := if c.split then fmtD else fmtS
    let gw := max 1 (c.g / 2)
    let scale (j : Nat) : Nat := e (b.toNat + gw) 8 j
    let xa := Array.ofFn fun (i : Fin (32 * k)) => fm.1.readIn c.flushIn (e a.toNat c.sew i)
    let xb := Array.ofFn fun (i : Fin (32 * k)) =>
      if c.tmode = 8 then pot2Fp (e b.toNat 8 i) (scale (i / 32)) else fm.2.readIn c.flushIn (e b.toNat c.sew i)
    let bad := c.tmode == 8 && (List.range k).any fun j => scale j == 255
    let cut := if c.split then sliced c.slices else id
    let zero := Fp.fin false 0 0
    Array.ofFn fun (i : Fin 1024) =>
      tileCell acc cut (c.rmAt (BitVec.ofNat 64 i)) c.flushOut (c.split && c.slices == 7 && k == 1) bad (acc.readIn c.flushIn (r.zRead c d i))
        ((List.range k).map fun j => (xa.getD (32 * j + i / 32) zero, xb.getD (32 * j + i % 32) zero))

/-- TMMA (R317): the registers that the K columns lie in are read whole. -/
def execTmma (d a b : BitVec 5) (s : State) : Out :=
  let c := s.cur.vcfg
  let k := c.vl / 32
  let gw := max 1 (c.g / 2)
  let used (w : Nat) : Nat := cdiv (32 * k * w) (2048 * c.p)
  let srcs : List (BitVec 5 × Nat) :=
    (a, used c.sew) :: if c.tmode = 8 then [(b, used 8), (b + BitVec.ofNat 5 gw, 1)] else [(b, used c.sew)]
  s.attempt do
    s.tileOk (tmmaSew c.tmode) d
    s.alignV [(a, c.g), (b, if c.tmode = 8 then gw else c.g)]
    failIf (c.tmode == 8 && 31 < b.toNat + gw) s.cur.illegal
    failIf (c.vl == 0 || c.vl % 32 != 0 || c.vlmax < c.vl) s.cur.illegal
    s.startZero
    let cells := s.tmmaCells d a b k
    let r := (s.cur.vec.zWrite c d fun i => (cells.getD i (0, 0)).1).zMark c d (s.cur.vec.zPoison c d || s.anyPV srcs [])
    .ok ((s.vecIssue 0 (tileMeta (s.groupsRun 0 0))
      (r.effect [] [] (cells.foldl (fun (f : Flags) x => f ||| x.2) 0))).drew (3 ≤ c.tmode))

/-- TMVR (R319); its destination counts as written at its end (R279, R314). -/
def execTmvr (d a b : BitVec 5) (s : State) : Out :=
  let c := s.cur.vcfg
  let w := s.cur.x b
  let row := (w.extractLsb' 0 5).toNat
  s.attempt do
    s.tileOk (8 * c.cellBytes) a
    s.alignV [(d, c.g)]
    s.startZero
    s.strictX [b]
    failIf (w.extractLsb' 6 58 != 0) (illegalN w.toNat)
    let r := s.cur.vec
    let c' := { c with vl := 32 }
    let on (_ : Nat) : Bool := true
    let p := s.cur.px b || r.zPoison c a
    let r1 := (r.writeGroup c' d.toNat c.sew (c.g * (2048 * c.p / c.sew)) on fun n => r.zRead c a (32 * row + n)).settleV c' on d.toNat c.g
      c.sew p
    let r2 := if w.getLsbD 5 then (c.zs a).foldl (fun (x : VecRegs) z => x.setCells z fun i => if i / 32 = row then 0 else r.cell z i) r1
      else r1
    .ok (s.vecIssue 0 { tileMeta (s.groupsRun 0 0) with atEnd := true } (r2.effect (vRegs d c.g) [] 0))

/-- The address of cell i of a `tld` or `tst` (R318). -/
def State.cellAddr (s : State) (a b : BitVec 5) (i : Nat) : Word :=
  s.cur.x a + BitVec.ofNat 64 (i / 32) * s.cur.x b + BitVec.ofNat 64 (s.cur.vcfg.cellBytes * (i % 32))
/-- Translation of the cells in rising order, up to the first that fails (R318). -/
def State.probeCells (s : State) (acc : Acc) (a b : BitVec 5) : List Nat → List VElem × Stop
  | [] => ([], none)
  | i :: r =>
    match translate s s.cur s.cur.level (s.cellAddr a b i) s.cur.vcfg.cellBytes acc false with
    | .error e => ([], some (i, e))
    | .ok t => let (l, x) := s.probeCells acc a b r; ({ idx := i, va := s.cellAddr a b i, t } :: l, x)
/-- A `tld` or `tst` that faults performs nothing, whichever of its cells faults (R198, R318); it is sampled with no element (R375), in the
order of the hart's events (R372). -/
def State.cellTrap (s : State) (store : Bool) (t : Trap) : State :=
  let m := tileMeta (s.groupsRun 0 0)
  let (u, smp) := s.sampleOf m 7 store [] true
  u.stopAt m 1 (0, 0) (0, t) { (u.cur.vec.effect [] [] 0) with sample := smp }
/-- The checks of `tld` and `tst` before their fault point (R318, R321). -/
def State.tileMemOk (s : State) (z a b : BitVec 5) : Except Trap Unit := do
  s.tileOk (8 * s.cur.vcfg.cellBytes) z
  s.startZero
  s.strictX [a, b]
/-- The first fault of a `tld` or `tst`: ALIGN (R318, R403), then the translation of its cells. -/
def State.tileProbe (s : State) (acc : Acc) (a b : BitVec 5) : List VElem × Option Trap :=
  let n := s.cur.vcfg.cellBytes
  if (s.cur.x a).toNat % n != 0 then ([], some (alignTrap (s.cur.x a) acc.writes))
  else if (s.cur.x b).toNat % n != 0 then ([], some (alignTrap (s.cur.x a + s.cur.x b) acc.writes))
  else ((s.probeCells acc a b (List.range 1024)).1, (s.probeCells acc a b (List.range 1024)).2.map (·.2))

/-- TLD (R318). -/
def execTld (d a b : BitVec 5) (h : BitVec 4) (s : State) : Out :=
  let c := s.cur.vcfg
  let n := c.cellBytes
  s.attempt do
    s.tileMemOk d a b
    if 32 ≤ s.viqLength then .ok (s.holdClosing .viq) else
    match s.tileProbe .load a b with
    | (_, some t) => .ok (s.cellTrap false t)
    | (els, none) =>
    let s1 := s.touchAll els
    let rs := readRuns n els
    let s1 := if rs.isEmpty then s1 else s1.drainSys
    match s1.askRuns rs with
    | some s2 => .ok (s2.holdOn .far)
    | none =>
      if s1.asking s1.cur then .ok (s1.holdOn .far) else
      match s1.readFails n rs els with
      | some x => .ok (s1.cellTrap false x.2)
      | none =>
        let s2 := s1.beforeVector true
        let got := els.map (s2.elemBytes n rs)
        let arr := (got.map fun (g : List Byte × Bool) => ofBytes g.1).toArray
        let r := (s2.cur.vec.zWrite c d fun i => arr.getD i 0).zMark c d (got.any fun (g : List Byte × Bool) => g.2)
        let (s3, smp) := s2.sampleOf (tileMeta (s.groupsRun 0 0)) 7 false els false
        s.counting [a, b] (.ok (.done ((s3.dropAsks s3.cur).vecIssue h (tileMeta (s.groupsRun 0 0)) { (r.effect [] [] 0) with sample := smp })))

/-- TST (R318). -/
def execTst (d a b : BitVec 5) (h : BitVec 4) (s : State) : Out :=
  let c := s.cur.vcfg
  let n := c.cellBytes
  s.attempt do
    s.tileMemOk d a b
    if 32 ≤ s.viqLength then .ok (s.holdClosing .viq) else
    match s.tileProbe .store a b with
    | (_, some t) => .ok (s.cellTrap true t)
    | (els, none) =>
    let s1 := (s.touchAll els).beforeVector false
    let p := s.cur.vec.zPoison c d
    let data (i : Nat) : List Byte := toBytes n (s.cur.vec.zRead c d i)
    let rs := farRuns n els
    let (s2, waits) := s1.sendRuns n [] rs els data fun _ => p
    let writes := (els.filter fun e => !e.t.isFar).map fun e => ({ target := e.t, data := data e.idx, poison := p } : WriteBack)
    let (s3, smp) := s2.sampleOf (tileMeta (s.groupsRun 0 0)) 7 true els false
    let va := match rs with | r :: _ => r.va | [] => 0
    s.counting [a, b] (.ok (.done (s3.vecIssue h (tileMeta (s.groupsRun 0 0))
      { (s3.cur.vec.effect [] [] 0) with writes, waits, sample := smp, va })))

end Sys2Proof.Machine
end

