-- ==== Sys2Proof/Machine/EvDevice.lean ====
section
/-! DEFINITION. Device events from outside the harts: receipts (R187), power (R127, R388), register pages of the host (R181, R370 to
R385), bounce channels, alarms (R189), errors (R211), reset and boot (R386), the management and security channels (R180, R387),
CXL.mem (R378). -/
namespace Sys2Proof.Machine

/-- RECEIPT_SIGN (R187, R380). -/
def execReceiptSign (world : Nat) (s : State) : Out :=
  let r := (s.worlds.getD world .reset).receipt
  State.worldEvent "RECEIPT_SIGN" world (0 < r.due || r.req) (s.signChain world)

/-! Power (R127, R388). -/

/-- A number held within bounds. -/
def clampTo (lo hi n : Nat) : Nat := max lo (min hi n)
/-- The duty of a stack in the next window (R127). -/
def Board.dutyFor (b : Board) (current : List Nat) (i : Nat) : Nat :=
  if b.thrin then 4 else clampTo 4 16 (Config.dutyOf b.pkglim (b.stklim.getD i 250) current i)
def State.modBoard (s : State) (f : Board → Board) : State := { s with board := f s.board }
/-- POWER_WINDOW (R127): every stack gets its duty; nothing else changes (R128). -/
def execPowerWindow (current : List Nat) (s : State) : Out :=
  if current.length = 8 then .next (s.modBoard fun b => { b with duty := Vector.ofFn fun i => b.dutyFor current i.val })
  else notEnabled "POWER_WINDOW"
/-- THRIN_ASSERT (R388). -/
def execThrinAssert (s : State) : Out := .next (s.modBoard fun b => { b with thrin := true, duty := Vector.replicate 8 4 })
/-- THRIN_DEASSERT (R388): the forced duty ends with the next window. -/
def execThrinDeassert (s : State) : Out := .next (s.modBoard fun b => { b with thrin := false })
/-- PKGLIM (R388). -/
def execPkglim (watts : Nat) (s : State) : Out := .next (s.modBoard fun b => { b with pkglim := clampTo 600 2400 watts })
/-- STKLIM (R388). -/
def execStklim (stack watts : Nat) (s : State) : Out :=
  if stack < 8 then .next (s.modBoard fun b => { b with stklim := b.stklim.setIfInBounds stack (clampTo 100 250 watts) })
  else notEnabled "STKLIM"

/-! Writes of register pages (R370, R371, R380 to R385). -/

/-- A write to a register of a page that exists, at an offset of BAR0; in recovery mode none is taken (R183). -/
def pageWrite (event : String) (ok : Bool) (off : Nat) (s t : State) : Out :=
  if ok && !s.recovering then .next (t.markRegs off false) else notEnabled event
/-- Worlds with a page. -/
def hasPage (w : Nat) : Bool := 1 ≤ w && w < 64
/-- The offsets of BAR0 at which the pages of a world, a queue and a bounce channel begin (R379). -/
def worldPage (w : Nat) : Nat := 0x100000 + 0x10000 * w
def queuePage (q : Nat) : Nat := 0x1000000 + 0x10000 * q
def bouncePage (c : Nat) : Nat := 0x2000000 + 0x10000 * c
/-- OBCTL (R370). -/
def execObctl (world : Nat) (v : Word) (s : State) : Out := pageWrite "OBCTL" (hasPage world) (worldPage world) s (s.writeObctl world v)
/-- OBBUF (R371). -/
def execObbuf (world : Nat) (v : Word) (s : State) : Out := pageWrite "OBBUF" (hasPage world) (worldPage world + 8) s (s.writeObbuf world v)
/-- OBTAIL (R371). -/
def execObtail (world : Nat) (v : Word) (s : State) : Out :=
  pageWrite "OBTAIL" (hasPage world) (worldPage world + 0x18) s (s.writeObtail world v)
/-- RCREQ (R380). -/
def execRcreq (world : Nat) (v : Word) (s : State) : Out :=
  pageWrite "RCREQ" (hasPage world) (worldPage world + 0x1000) s (s.writeRcreq world v)
/-- PROFILE_ENTRY (R381). -/
def execProfileEntry (world entry off : Nat) (v : Word) (s : State) : Out :=
  pageWrite "PROFILE_ENTRY" (hasPage world && entry < 16 && off < 512 && off % 8 == 0) (worldPage world + 0x2000 + 512 * entry + off) s
    (s.writeProfile world entry off v)
/-- QSTAT (R382). -/
def execQstat (queue : Nat) (v : Word) (s : State) : Out := pageWrite "QSTAT" (queue < 256) (queuePage queue + 0x40) s (s.writeQstat queue v)
/-- BCCFG (R384). -/
def execBccfg (chan : Nat) (v : Word) (s : State) : Out := pageWrite "BCCFG" (chan < 256) (bouncePage chan) s (s.writeBccfg chan v)
/-- BCSTG (R384). -/
def execBcstg (chan : Nat) (v : Word) (s : State) : Out := pageWrite "BCSTG" (chan < 256) (bouncePage chan + 8) s (s.writeBcstg chan v)
/-- BCHC (R385). -/
def execBchc (chan : Nat) (v : Word) (s : State) : Out := pageWrite "BCHC" (chan < 256) (bouncePage chan + 0x20) s (s.writeBchc chan v)
/-- BCRESYNC (R385). -/
def execBcresync (chan : Nat) (v : Word) (s : State) : Out :=
  pageWrite "BCRESYNC" (chan < 256) (bouncePage chan + 0x28) s (s.writeBcresync chan v)

/-- What the device answers the host. -/
def State.answerHost (s : State) (c : Option Completion) : State := { s with reply := c }
/-- A request to a page that completes normally: a read returns the register, a write has its effect; what is not an aligned 8-byte access
completes as Unsupported Request (R379), and so is dropped at a launch window (R107). -/
def State.hostAccess (s : State) (q : HostReq) : State :=
  if q.size != 8 || q.off % 8 != 0 then
    ((match regPage q.off with
      | some (.queue n) => if q.write && q.off % 65536 < 0x40 then s.dropLaunch n false else s
      | _ => s) : State).answerHost (some .unsupported)
  else if q.write then (s.regStore q.off q.data false).answerHost none
  else s.answerHost (some (.value (s.regRead q.off)))
/-- HOST_REGISTER_REQUEST (R181, R379). A request that completes as Unsupported Request returns no data and changes nothing but a
count. -/
def execHostRegisterRequest (q : HostReq) (s : State) : Out :=
  let act (w : Nat) : State :=
    if q.tbit && q.tdi == w && (s.worlds.getD w .reset).tdi == .run then s.hostAccess q
    else (s.violation w).answerHost (some .unsupported)
  if s.recovering then .next (s.answerHost none) else
  match regPage q.off with
  | none => .next (s.answerHost (some .unsupported))
  | some .device => .next (s.hostAccess q)
  | some (.world w) => .next (act w)
  | some (.queue n) => .next (act (s.queue n).world.toNat)
  | some (.bounce c) => .next (act (s.bounceCh c).world.toNat)

/-! Bounce channels (R384, R385). -/

/-- BC_KEY_INSTALL (R385). -/
def execBcKeyInstall (chan key : Nat) (s : State) : Out :=
  let b := s.bounceCh chan
  if chan < 256 && (b.st == 0 || b.st == 3) && !(s.worlds.getD b.world.toNat .reset).quarantined then
    .next (s.modBounce chan fun b => { b with key := some key, st := 1, dc := 0 })
  else notEnabled "BC_KEY_INSTALL"

/-- The IV of a slot (R384). -/
def slotIv (chan : Nat) (toHost : Bool) (seq : Word) : BitVec 96 := BitVec.ofNat 8 chan ++ BitVec.ofBool toHost ++ 0#23 ++ seq
/-- Where slot `dc` of a channel lies in the host's ring and in the staging ring. -/
def Bounce.ringKey (b : Bounce) : Nat :=
  0x400000000000 + (b.cfg &&& 0x3FFFFFFF0000#64).toNat + b.dc.toNat % bcSlots b.cfg * bcSlotSize b.cfg
def Bounce.stagingKey (b : Bounce) : Nat := (b.stg &&& 0x7FFFFFFF0000#64).toNat + b.dc.toNat % bcSlots b.cfg * bcSlotSize b.cfg
/-- A channel goes STALE: one error in welink (R385). -/
def State.bounceStale (s : State) (chan : Nat) : State :=
  (s.modWorld (s.bounceCh chan).world.toNat fun w => { w with elink := w.elink + 1 }).modBounce chan fun b => { b with st := 2 }
/-- Slot dc is delivered. -/
def State.bounceNext (s : State) (chan : Nat) : State := s.modBounce chan fun b => { b with dc := b.dc + 1 }

/-- The plaintext of a slot that passes its checks (R385). -/
def slotOpen (key chan : Nat) (b : Bounce) (bytes : List Byte) : Option (List Byte) :=
  let n := ofBytes ((bytes.drop 8).take 8)
  if ofBytes (bytes.take 8) = b.dc.toNat && n + 32 ≤ bytes.length then
    openText key (slotIv chan false b.dc) (bytes.take 16) ((bytes.drop 16).take n) (bytes.drop (bytes.length - 16))
  else none
/-- The slot that the device writes for a payload. -/
def slotSeal (key chan : Nat) (b : Bounce) (text : List Byte) : List Byte :=
  let aad := toBytes 8 b.dc.toNat ++ toBytes 8 text.length
  aad ++ sealText key (slotIv chan true b.dc) aad text

/-- Whether the granules of a channel's staging bytes are still its world's, in plain or line mode (R170, R384). -/
def State.staged (s : State) (b : Bounce) (len : Nat) : Bool :=
  (granulesOf b.stagingKey len).all fun a =>
    let g := s.mem.granule a
    isLocalRam a && gOwner g == b.world && (gMode g == 0 || gMode g == 1)
/-- BC_SLOT, a slot of the host (R384, R385): its bytes, which the host has put into its ring at the index of dc, are opened, and the
plaintext goes to the same index of the staging ring. A granule that refuses the access faults the move (log 79). -/
def State.slotArrives (s : State) (chan key : Nat) (bytes : List Byte) : State :=
  let b := s.bounceCh chan
  let s := { s with mem := s.mem.writeClean b.ringKey bytes }
  match slotOpen key chan b (s.mem.readBytes b.ringKey (bcSlotSize b.cfg)) with
  | some text =>
    if !s.staged b text.length then (s.violation b.world.toNat).bounceStale chan
    else
      let u : State := { s with mem := (granulesOf b.stagingKey text.length).foldl (fun m a => m.setMeas a false) (s.mem.writeClean b.stagingKey text) }
      (s.keepPlain u b.world b.stagingKey text.length).bounceNext chan
  | none => s.bounceStale chan
/-- BC_SLOT, a slot of the device (R385): the header and the ciphertext from the slot's start, the tag in its last 16 bytes. A
poisoned payload poisons what is written of the slot (R212). -/
def State.slotSends (s : State) (chan key len : Nat) : State :=
  let b := s.bounceCh chan
  if !s.staged b len then (s.violation b.world.toNat).bounceStale chan else
  let size := bcSlotSize b.cfg
  let bs := slotSeal key chan b (s.mem.readBytes b.stagingKey len)
  let m := (s.mem.writeClean b.ringKey (bs.take (16 + len))).writeClean (b.ringKey + size - 16) (bs.drop (16 + len))
  let m := if s.mem.anyPoison b.stagingKey len then (m.writePoison (b.ringKey + 16) len).writePoison (b.ringKey + size - 16) 16 else m
  ({ s with mem := m }).bounceNext chan
/-- BC_SLOT (R385). -/
def execBcSlot (chan : Nat) (slot : SlotInput) (s : State) : Out :=
  let b := s.bounceCh chan
  if 256 ≤ chan || s.recovering then notEnabled "BC_SLOT" else
  match slot, b.key with
  | .arrives bytes, some key =>
    if bcToHost b.cfg || bytes.length != bcSlotSize b.cfg then notEnabled "BC_SLOT"
    else if b.st != 1 then .next s
    else if b.dc.toNat < b.hc.toNat then .next (s.slotArrives chan key bytes) else notEnabled "BC_SLOT"
  | .arrives _, none => .next s
  | .aborted, _ => if b.st == 1 then .next (s.bounceStale chan) else .next s
  | .send len, some key =>
    if b.st == 1 && bcToHost b.cfg && len + 32 ≤ bcSlotSize b.cfg && b.dc.toNat < b.hc.toNat + bcSlots b.cfg then
      .next (s.slotSends chan key len)
    else notEnabled "BC_SLOT"
  | .send _, none => notEnabled "BC_SLOT"

/-! Alarms of the device (R180, R189). -/

/-- IDE_INTEGRITY_FAILURE (R180): the TDI goes to ERROR and source 2 fires. -/
def execIdeIntegrityFailure (world : Nat) (s : State) : Out :=
  if hasPage world then .next ((s.modWorld world fun w => { w with tdi := .error }).raiseAlarm 2 [world])
  else notEnabled "IDE_INTEGRITY_FAILURE"
/-- GLITCH_DETECT (R189): source 5. -/
def execGlitchDetect (s : State) : Out := .next (s.raiseAlarm 5 [])
/-- DEBUG_PORT_ACCESS (R189): source 6. -/
def execDebugPortAccess (s : State) : Out := .next (s.raiseAlarm 6 [])

/-! Errors (R211, R213). -/

/-- The world that owns a byte of the device: the granule's owner, the hart of a TCM slice or scratchpad allocation, else world 0;
none for a byte that is not the device's. -/
def State.ownerOf (s : State) (key : Nat) : Option Nat :=
  if isLocalRam key then some (gOwner (s.mem.granule key)).toNat
  else if 2 ^ 47 ≤ key ∧ key < 2 ^ 47 + 96 * 2 ^ 24 then
    some (match s.sched.allocs.find? fun a => spadKey a.clus a.off ≤ key && key < spadKey a.clus (a.off + a.size) with
      | some a => a.world.toNat
      | none => 0)
  else if 2 ^ 48 ≤ key ∧ key < 2 ^ 48 + 768 * 2 ^ 18 then
    some (match s.activeHarts.find? fun h => tcmKey h.core h.tcmOff ≤ key && key < tcmKey h.core (h.tcmOff + h.tcmSize) with
      | some h => h.world.toNat
      | none => 0)
  else none
/-- Counts an error to a world. -/
def State.countError (s : State) (w : Nat) (unc : Bool) : State :=
  s.modWorld w fun x => if unc then { x with eunc := x.eunc + 1 } else { x with ecorr := x.ecorr + 1 }
/-- A bank whose ldest or lidx reads 0; none for a number that names neither. -/
def Bank.zeroCsr (b : Bank) (c : Nat) : Option Bank :=
  if c = 0x009 then some { b with ldest := 0 }
  else if 0x026 ≤ c ∧ c < 0x02C then some { b with lidx := b.lidx.setIfInBounds (c - 0x026) 0 } else none
/-- A hart whose CSR reads 0 (R211); none for a number that names no register of the hart's own. -/
def Hart.zeroCsr (h : Hart) (c : Nat) : Option Hart :=
  let put (f : Csrs → Csrs) : Option Hart := some { h with csr := f h.csr }
  let trap (l : Level) (f : TrapCsrs → TrapCsrs) : Option Hart := some (h.setTrapCsrs l (f (h.trapCsrs l)))
  if 0x020 ≤ c ∧ c < 0x026 then put fun x => { x with lcnt := x.lcnt.setIfInBounds (c - 0x020) 0 }
  else match c with
  | 0x000 => put fun x => { x with fcsr := 0 }
  | 0x001 => put fun x => { x with vl := 0, vlSeen := 0 }
  | 0x002 => put fun x => { x with vtype := 0, vtypeSeen := 0 }
  | 0x003 => put fun x => { x with vstart := 0 }
  | 0x004 => put fun x => { x with vlmaxSeen := 0 }
  | 0x005 => put fun x => { x with vsb := 0, vsbSeen := 0 }
  | 0x006 => put fun x => { x with srseed := 0 }
  | 0x007 => put fun x => { x with srdraw := 0 }
  | 0x008 => put fun x => { x with ctfloor := 0 }
  | 0x00A => put fun x => { x with brstep := 0 }
  | 0x031 => put fun x => { x with slstat := 0 }
  | 0x041 => put fun x => { x with instret := 0 }
  | 0x105 => put fun x => { x with hvl := 0 }
  | 0x106 => put fun x => { x with hvtype := 0 }
  | 0x107 => put fun x => { x with hvstart := 0 }
  | 0x108 => put fun x => { x with srvec := 0 }
  | 0x109 => put fun x => { x with sresume := 0 }
  | 0x10A => put fun x => { x with stimecmp := 0 }
  | 0x11A => put fun x => { x with poolmap := 0 }
  | 0x180 => some (h.setStatus .supervisor 0 (-1))
  | 0x181 => trap .supervisor fun t => { t with tvec := 0 }
  | 0x182 => trap .supervisor fun t => { t with epc := 0 }
  | 0x183 => trap .supervisor fun t => { t with cause := 0 }
  | 0x184 => trap .supervisor fun t => { t with detail := 0 }
  | 0x380 => some (h.setStatus .machine 0 (-1))
  | 0x381 => trap .machine fun t => { t with tvec := 0 }
  | 0x382 => trap .machine fun t => { t with epc := 0 }
  | 0x383 => trap .machine fun t => { t with cause := 0 }
  | 0x384 => trap .machine fun t => { t with detail := 0 }
  | _ => none
/-- A world whose register reads 0 (R211). -/
def World.zeroCsr (w : World) (c : Nat) : Option World :=
  match c with
  | 0x110 => some { w with ecorr := 0 }
  | 0x111 => some { w with eunc := 0 }
  | 0x112 => some { w with epois := 0 }
  | 0x113 => some { w with elink := 0 }
  | 0x114 => some { w with eviol := 0 }
  | 0x118 => some { w with ptroot := 0 }
  | 0x11B => some { w with rgtab := 0 }
  | 0x11D => some { w with spres := 0 }
  | 0x3C0 => some { w with attr := 0 }
  | _ => none
/-- Poisons a register of a hart by file and number (R211); the CSRs that a world's harts share have an operation of their own. -/
def Hart.poisonReg (h : Hart) (file num : Nat) : Option Hart :=
  let x (l : Level) : Option Hart := if 1 ≤ num ∧ num < 32 then some (h.modBank l fun b => b.writeX (BitVec.ofNat 5 num) 0 true) else none
  let banked (l : Level) : Option Hart := ((h.bankOf l).zeroCsr num).map fun b =>
    { h.setBank l b with pcsr := insertSorted (l.csrKey num) h.pcsr }
  let nest (l : Level) : Option Hart := if num < (h.bankOf l).nest.length then some (h.modBank l fun b =>
    { b with nest := b.nest.set num { count := 0, stop := 0, start := 0, fixed := false, lvl := 0 } }) else none
  let hk (l : Level) : Option Hart := if 1 ≤ num ∧ num < 16 then some (h.modBank l fun b => b.markH (BitVec.ofNat 4 num)) else none
  match file with
  | 0 => x h.level
  | 1 => if num < 32 then some { h with vec := { h.vec.markV num 1 true with v := h.vec.v.setIfInBounds num 0 } } else none
  | 2 => if 1 ≤ num ∧ num < 8 then some { h with vec := { h.vec.markM num true with m := h.vec.m.setIfInBounds num 0 } } else none
  | 3 => if num < 32 then some { h with ct := { h.ct with c := h.ct.c.setIfInBounds num (1 <<< 122) } } else none
  | 4 => if num < 4 then some { h with vec := h.vec.markZ num true } else none
  | 5 => match h.bank.zeroCsr num with
    | some _ => banked h.level
    | none => (h.zeroCsr num).map fun g => { g with pcsr := insertSorted num g.pcsr }
  | 6 => hk h.level
  | 7 => if num < 8 then some { h with ct := { h.ct with tb := h.ct.tb.setIfInBounds num (1 <<< 187) } } else none
  | 8 => if num < 8 then some { h with ct := { h.ct with k := h.ct.k.setIfInBounds num (1 <<< 122) } } else none
  | 9 => if num < 64 then some { h with ct := { h.ct with mtab := h.ct.mtab.setIfInBounds num 0 } } else none
  | 10 => x .user
  | 11 => x .supervisor
  | 12 => x .machine
  | 13 => hk .user
  | 14 => hk .supervisor
  | 15 => hk .machine
  | 17 => nest .user
  | 18 => nest .supervisor
  | 19 => nest .machine
  | 20 => banked .user
  | 21 => banked .supervisor
  | 22 => banked .machine
  | 23 => if num = 0 then some { h with csr := { h.csr with winN := 0, winW := 0 } } else none
  | 24 => if num < 16 then some { h with ct := { h.ct with ptab := h.ct.ptab.setIfInBounds num { base := 0, q := [] } } } else none
  | _ => none
/-- Poisons a register that the harts of a world share (R211). -/
def State.poisonShared (s : State) (w c : Nat) : Option State :=
  let mark (h : Hart) : Hart := if c = 0x3A0 ∨ h.world.toNat = w then { h with pcsr := insertSorted c h.pcsr } else h
  let marked (s : State) : State := { s with cur := mark s.cur, others := s.others.map mark }
  if c = 0x3A0 then some (marked { s with thatum := { s.thatum with alpol := 0 } })
  else ((s.worlds.getD w .reset).zeroCsr c).map fun x => marked (s.modWorld w fun _ => x)
/-- A line of line-mode DRAM as DRAM holds it (R172, R173): the ciphertext under the world's line key pair with the line's address divided
by 64 as the tweak, and the MAC over it. Memory holds the plaintext, which a read whose MAC verifies returns. -/
def State.dramLine (s : State) (key : Nat) : List Byte × BitVec 28 :=
  let w := (gOwner (s.mem.granule key)).toNat
  let ks := Config.lineKeys s.device w
  let c := xtsLine (toBytes 32 (ks.extractLsb' 0 256).toNat) (toBytes 32 (ks.extractLsb' 256 256).toNat) (key / 64) (s.mem.readBytes key 64)
  (c, Config.lineMac s.device w (key / 64) c)
/-- A line whose MAC fails (R173, R189): every word is poisoned; more than eight of one world feed source 1. -/
def State.lineFails (s : State) (key w : Nat) : State :=
  let n := ((s.thatum.lineMac.find? fun e => e.1 == w).map (·.2)).getD 0 + 1
  let s := { s.countError w true with
    mem := s.mem.writePoison key 64, thatum := { s.thatum with lineMac := upsert (fun e => e.1 == w) (fun e => (e.1, e.2 + 1)) (w, 0) s.thatum.lineMac } }
  if 8 < n && Config.pick s.free (2 ^ 56) % 2 = 1 then
    ({ s with thatum := { s.thatum with lineMac := s.thatum.lineMac.filter fun e => e.1 != w } }).raiseAlarm 1 [w]
  else s
/-- A poisoned pc reads 0, where the hart goes on: one use of poison (R211, R212). -/
def State.poisonPc (s : State) (h : Hart) : State := (s.modHart h.core h.ctx fun x => { x with pc := 0 }).countPoison h 1
/-- The world to which an error in a register of register space is counted (R213). -/
def State.pageOwner (s : State) (off : Nat) : Nat :=
  match regPage off with
  | some (.world w) => w
  | some (.queue q) => (s.queue q).world.toNat
  | some (.bounce c) => (s.bounceCh c).world.toNat
  | _ => 0
/-- ECC_ERROR (R211): a corrected error is counted; an uncorrectable one poisons its datum. -/
def execEccError (t : EccTarget) (uncorrectable : Bool) (s : State) : Out :=
  match t with
  | .word k =>
    match s.ownerOf (8 * k) with
    | some w => .next (if uncorrectable then { s.countError w true with mem := s.mem.poisonWord (8 * k) } else s.countError w false)
    | none => notEnabled "ECC_ERROR"
  | .reg n file num =>
    match s.hartNo n with
    | some h =>
      let struck := match h.poisonReg file num with
        | some x => some (s.modHart h.core h.ctx fun _ => x)
        | none => if file = 5 then s.poisonShared h.world.toNat num else if file = 16 then some (s.poisonPc h) else none
      match struck with
      | some t =>
        if !h.active then notEnabled "ECC_ERROR"
        else .next (if uncorrectable then t.countError h.world.toNat true else s.countError h.world.toNat false)
      | none => notEnabled "ECC_ERROR"
    | none => notEnabled "ECC_ERROR"
  | .line k =>
    if uncorrectable && isDram (64 * k) && gMode (s.mem.granule (64 * k)) == 1 then
      .next (s.lineFails (64 * k) (gOwner (s.mem.granule (64 * k))).toNat)
    else notEnabled "ECC_ERROR"
  | .firmware => .next (s.countError 0 uncorrectable)
  | .page off =>
    if (regPage off).isNone || off % 8 != 0 then notEnabled "ECC_ERROR"
    else
      let w := s.pageOwner off
      .next (if uncorrectable then { (s.regZero off).countError w true with mem := s.mem.poisonWord (regKey off) } else s.countError w false)

/-! Reset, boot and the security and management channels. -/

/-- Whether Thatum accepts an image (R183): its signature over its digest, and its version against the fused counter. -/
def bootDigest (b : BootImage) : List Byte := shake256 b.code 64
def bootAccepted (b : BootImage) : Bool := Config.larpolVerify (bootDigest b) b.sig && Config.rollback ≤ b.version
/-- The device as reset leaves it before any verification: the place in its domain, the thrin input, what the memories hold and the model's
own counters stay (R6, R386). -/
def State.restart (s : State) (images : List BootImage) : State :=
  { State.reset with
    device := s.device, members := s.members, accepted := s.accepted, agenda := s.agenda, nextOp := s.nextOp, issues := s.issues, free := s.free,
    clock := s.clock,
    mem := { s.mem with tlb := [], olds := [], icinvs := [], ways := [], poison := s.mem.poison.filter fun k => homeOf (8 * k) != some .regs },
    thatum := { State.reset.thatum with d2dKeys := s.thatum.d2dKeys, booting := images },
    board := { State.reset.board with thrin := s.board.thrin, duty := Vector.replicate 8 (if s.board.thrin then 4 else 16) } }
def State.bootTo (s : State) (stage : BitVec 3) : State := { s with board := { s.board with bootst := stage } }
/-- Memory as firmware leaves it at boot: SRAM and DRAM zeroed with fresh ECC; what host memory holds stays (R386). -/
def Memory.zeroed (m : Memory) : Memory :=
  let host (k : Nat) : Bool := homeOf k == some .host
  { State.reset.mem with bytes := m.bytes.filter (fun c => host c.1), poison := m.poison.filter fun k => host (8 * k) }
/-- RESET (R183, R386), stage by stage. Verification records the digests and keys the die-to-die links, or leaves the device in recovery
mode; firmware zeroes every memory; once the links are trained queues may be bound. -/
def execReset (step : BootStep) (s : State) : Out :=
  match step with
  | .start images => .next (s.restart images)
  | .verify =>
    if s.board.bootst != 0 then notEnabled "RESET"
    else if s.thatum.booting.isEmpty || !s.thatum.booting.all bootAccepted then .next (s.bootTo 1)
    else .next ({ s with thatum := { s.thatum with booting := [], images := s.thatum.booting.map bootDigest,
                                                   d2dKeys := s.thatum.d2dKeys + 1 } }.bootTo 2)
  | .memory => if s.board.bootst = 2 then .next ({ s with mem := s.mem.zeroed }.bootTo 3) else notEnabled "RESET"
  | .links => if s.board.bootst = 3 then .next (s.bootTo 4) else notEnabled "RESET"

/-- What the management sideband carries (R387): bootst, the power registers, temperatures by sensor, the error counters of world 0. -/
inductive SidebandItem where
  | bootst | pkglim
  | stklim (stack : Nat)
  | temperature (sensor : Nat)
  | errors (counter : Nat)
deriving DecidableEq, Repr
def State.sideband (s : State) : SidebandItem → Word
  | .bootst => s.board.bootst.setWidth 64
  | .pkglim => BitVec.ofNat 64 s.board.pkglim
  | .stklim i => BitVec.ofNat 64 (s.board.stklim.getD i 0)
  | .temperature i => Config.temperature i s.clock
  | .errors n =>
    let w := s.worlds.getD 0 .reset
    [w.ecorr, w.eunc, w.epois, w.elink, w.eviol].getD n 0

/-- I3C_ADDRESS_ASSIGNMENT (R387). -/
def execI3cAddressAssignment (addr : Nat) (s : State) : Out :=
  if addr < 128 then .next (s.modBoard fun b => { b with i3c := some addr }) else notEnabled "I3C_ADDRESS_ASSIGNMENT"
/-- D2D_KEY_RENEWAL (R179): the flits of the links inside the package are no part of the model, so a renewal may come at any step
(log 81). -/
def execD2dKeyRenewal (s : State) : Out := .next { s with thatum := { s.thatum with d2dKeys := s.thatum.d2dKeys + 1 } }

/-- A TDISP message moves a world's TDI where its state lets it. -/
def State.tdisp (s : State) (w : Nat) (f : Tdi → Tdi) : State := if hasPage w then s.modWorld w fun x => { x with tdi := f x.tdi } else s
/-- DOE_SPDM_MESSAGE (R180, R183). -/
def execDoeSpdmMessage (m : SpdmMsg) (s : State) : Out :=
  match m with
  | .getMeasurements => .next (s.answerHost (some (.measurements s.thatum.images s.fwm)))
  | .ideKey => .next (s.answerHost none)
  | .lockTdi w => .next ((s.tdisp w fun t => match t with | .unlocked => .locked | t => t).answerHost none)
  | .startTdi w => .next ((s.tdisp w fun t => match t with | .locked => .run | t => t).answerHost none)
  | .stopTdi w => .next ((s.tdisp w fun _ => .unlocked).answerHost none)

/-- The decoder of CXL.mem that holds an address (R378). -/
def State.decoder (s : State) (addr : Nat) : Option (Nat × Nat × BitVec 6) :=
  s.hdm.toList.findSome? fun d => d.filter fun d => d.1 ≤ addr && addr < d.1 + d.2.1
/-- CXL_MEM_REQUEST (R212, R378): one line of a range that a decoder maps to DRAM granules of one world. A read returns the line with its
poison; data that an alarm has erased reads poisoned, and a write of it is dropped and counted (R188). In recovery mode nothing
answers (R183). -/
def execCxlMemRequest (q : CxlReq) (s : State) : Out :=
  match s.decoder q.addr with
  | some (_, _, w) =>
    let g := s.mem.granule q.addr
    let gone := !(s.worlds.getD w.toNat .reset).reads (gMode g)
    if s.recovering then .next (s.answerHost none)
    else if q.addr % 64 != 0 || !isDram q.addr || gOwner g != w || (q.write && q.data.length != 64) then notEnabled "CXL_MEM_REQUEST"
    else if !q.write then
      let bad := gone || s.mem.anyPoison q.addr 64
      .next (s.answerHost (some (.line (if bad then List.replicate 64 0 else s.mem.readBytes q.addr 64) bad)))
    else if gone then .next ((s.violation w.toNat).answerHost none)
    else
      let u : State := { s with mem := (if q.poison then s.mem.writePoison q.addr 64 else s.mem.writeClean q.addr q.data).setMeas q.addr false }
      .next ((s.keepPlain u w q.addr 64).answerHost none)
  | none => notEnabled "CXL_MEM_REQUEST"

end Sys2Proof.Machine
end

