-- ==== Sys2Proof/Machine/EvFabric.lean ====
section
/-! DEFINITION. Device events of Velmal: link words, flits and planes (R129 to R135), packets and sessions (R137 to R147), messages
handed on (R142), members that leave (R152, R160, R326). -/
namespace Sys2Proof.Machine

/-! Planes (R131, R134, R135). -/

def State.plane (s : State) (p : Nat) : Plane := s.fabric.planes.getD p .reset
def State.modPlane (s : State) (p : Nat) (f : Plane → Plane) : State :=
  { s with fabric := { s.fabric with planes := s.fabric.planes.setIfInBounds p (f (s.plane p)) } }
/-- The other devices of the domain. -/
def State.otherMembers (s : State) : List Nat := s.members.filter (· != s.device)
/-- What a plane has brought of packets that are cut off is dropped (R131, R135). -/
def State.dropParts (s : State) (p : Nat) : State :=
  { s with fabric := { s.fabric with peers := s.fabric.peers.map fun q =>
      { q with parts := q.parts.filter fun e => e.1 != p, broken := q.broken.filter (· != p) } } }
/-- A plane goes down: what is outstanding on it is resent on the other (R131, R139). -/
def State.planeDown (s : State) (p : Nat) : State :=
  let s := (s.modPlane p fun x => { x with up := false, quiesced := false, erasing := [] }).dropParts p
  let s := { s with fabric := { s.fabric with outbox := s.fabric.outbox.filter fun k => k.plane != p,
                                              sent := s.fabric.sent.filter fun k => k.plane != p } }
  s.fabric.peers.foldl (fun s q => (q.unacked.filter fun u => q.via.contains (u.1, p)).foldl (fun s u => s.transmit q.dev u.1 true u.2) s) s
/-- A slice of a plane is erased; a second one takes the plane down (R131). -/
def State.eraseSlice (s : State) (p slice : Nat) : State :=
  match (s.plane p).erased with
  | none => s.modPlane p fun x => { x with erased := some slice }
  | some y => if y = slice then s else s.planeDown p
/-- Erases the slices whose frame has come (R131). -/
def State.eraseDue (s : State) (p : Nat) : State :=
  let due := (s.plane p).erasing.filter fun e => e.2 ≤ (s.plane p).frame
  due.foldl (fun s e => s.eraseSlice p e.1) (s.modPlane p fun x => { x with erasing := x.erasing.filter fun e => x.frame < e.2 })
/-- A slice of a plane is to be erased from a frame onward. -/
def State.eraseFrom (s : State) (p slice frame : Nat) : State :=
  (s.modPlane p fun x => { x with erasing := x.erasing ++ [(slice, frame)] }).eraseDue p
/-- This device finds a slice bad: it announces to the domain from which frame on it is erased, a free choice (R131, log 50). -/
def State.degrade (s : State) (p slice : Nat) : State :=
  let frame := (s.plane p).frame + Config.pick s.free (2 ^ 57)
  (s.otherMembers.foldl (fun s d => s.transmit d 0 true (.plane (.degraded p slice frame))) s).eraseFrom p slice frame
/-- Counts a correction against a slice; more than 1,024 within 1 ms, a free choice of the model, erase it (R131). -/
def State.countCorrection (s : State) (p slice : Nat) : State :=
  let n := (s.plane p).corrections.getD slice 0 + 1
  if 1024 < n && Config.pick s.free (2 ^ 58) % 2 = 1 then
    (s.modPlane p fun x => { x with corrections := x.corrections.setIfInBounds slice 0 }).degrade p slice
  else s.modPlane p fun x => { x with corrections := x.corrections.setIfInBounds slice n }

/-- LANE_LOCK_LOSS (R131). -/
def execLaneLockLoss (plane slice : Nat) (s : State) : Out :=
  if plane < 2 && slice < 36 && (s.plane plane).up then .next (s.degrade plane slice) else notEnabled "LANE_LOCK_LOSS"
/-- PLANE_CONTROL (R131, R135): an announcement of another device, over a plane that carries traffic; resynchronisation restarts the
frame counter. -/
def execPlaneControl (plane : Nat) (msg : PlaneMsg) (s : State) : Out :=
  if !s.usable plane then notEnabled "PLANE_CONTROL" else
  match msg with
  | .degraded p slice frame =>
    if p < 2 && slice < 36 && (s.plane p).up then .next (s.eraseFrom p slice frame) else notEnabled "PLANE_CONTROL"
  | .resync p frame => if p < 2 && (s.plane p).up then .next (s.modPlane p fun x => { x with frame }) else notEnabled "PLANE_CONTROL"

/-- The first input of a class that waits for an output, beginning after the last one granted (R134). -/
def rrInput (reqs : List PortReq) (last : Option Nat) : Option PortReq :=
  let later := match last with | some l => reqs.filter fun r => l < r.inp | none => reqs
  let low (l : List PortReq) : Option PortReq := l.foldl (fun (b : Option PortReq) r => match b with
    | some x => if r.inp < x.inp then some r else some x
    | none => some r) none
  match low later with | some r => some r | none => low reqs
/-- The class that an output grants: 3, then 0, then 1 and 2 in turn; and whether 2 goes next where both wait (R134). -/
def grantClass (reqs : List PortReq) (two : Bool) : Nat × Bool :=
  let has (c : Nat) : Bool := reqs.any fun r => portCls r == c
  if has 3 then (3, two) else if has 0 then (0, two)
  else if has 1 && has 2 then (if two then (2, false) else (1, true))
  else if has 2 then (2, two) else (1, two)
/-- The packet that an output passes in a frame: the one that holds it, else the one that it grants; and whether class 2 goes next. -/
def Plane.passes (x : Plane) (reqs : List PortReq) (out : Nat) : Option PortReq × Bool :=
  let two := x.alternate.contains out
  match x.grants.find? fun g => g.1 == out with
  | some (_, inp, cls) => (reqs.find? fun r => portOut r == out && r.inp == inp && portCls r == cls, two)
  | none =>
    let rs := reqs.filter fun r => portOut r == out
    let (cls, two) := grantClass rs two
    (rrInput (rs.filter fun r => portCls r == cls) ((x.lastIn.find? fun l => l.1 == out && l.2.1 == cls).map (·.2.2)), two)
/-- One output's grant in a frame. -/
def Plane.grantOut (x : Plane) (reqs : List PortReq) (out : Nat) : Plane :=
  match x.passes reqs out with
  | (none, _) => x
  | (some r, two) =>
    if x.grants.any fun g => g.1 == out then
      if r.last then { x with grants := x.grants.filter fun g => g.1 != out } else x
    else
      { x with grants := if r.last then x.grants else x.grants ++ [(out, r.inp, portCls r)],
               lastIn := (out, portCls r, r.inp) :: x.lastIn.filter fun l => !(l.1 == out && l.2.1 == portCls r),
               alternate := if two then out :: x.alternate.filter (· != out) else x.alternate.filter (· != out) }
/-- A flit of this device passes on a plane: the first packet of its class and destination begins, or goes on, or has passed. -/
def State.flitPasses (s : State) (plane : Nat) (r : PortReq) : State :=
  let frame := (s.plane plane).frame
  match (s.buffer plane (portCls r)).find? fun p => p.dst == portOut r with
  | none => s
  | some p =>
    let q := { p with began := some (p.began.getD frame), passed := p.passed + 1 }
    { s with fabric := { s.fabric with
        outbox := if r.last then s.fabric.outbox.erase p else s.fabric.outbox.map fun k => if k == p then q else k,
        sent := if r.last then s.fabric.sent ++ [q] else s.fabric.sent } }
/-- The grants of a frame, in rising output order, and the digest that a slice switch returns for them (R135). -/
def Plane.frameGrants (x : Plane) (reqs : List PortReq) : List (Nat × Nat × Nat) :=
  (List.range 512).filterMap fun o => (x.passes reqs o).1.map fun r => (o, r.inp, portCls r)
def grantDigest (gs : List (Nat × Nat × Nat)) : BitVec 32 := BitVec.ofNat 32 (crc32 (Config.grantBytes gs))
/-- FRAME_ARBITRATION (R133, R134): a packet whose preamble fails its parity is not granted, and the failure is reported. -/
def execFrameArbitration (plane : Nat) (reqs : List PortReq) (s : State) : Out :=
  if !s.usable plane || !(reqs.all fun r => r.inp < 512) then notEnabled "FRAME_ARBITRATION"
  else
    let good := reqs.filter fun r => evenOnes r.dest
    let mine := (List.range 512).filterMap fun o => (((s.plane plane).passes good o).1.filter fun r => r.inp == s.device)
    let s := mine.foldl (fun s r => s.flitPasses plane r) s
    .next ((s.modPlane plane fun x => { (List.range 512).foldl (fun x o => x.grantOut good o) x with
      frame := x.frame + 1, parity := x.parity || good.length != reqs.length }).eraseDue plane)

/-- A plane stops (R135): the switches empty, so packets under way are cut off, the frame counter restarts; packets that have not begun go
over the other plane. -/
def State.quiesce (s : State) (p : Nat) : State :=
  let s := (s.modPlane p fun x => { x with quiesced := true, grants := [], frame := 0, parity := false }).dropParts p
  if s.usable (1 - p) then
    { s with fabric := { s.fabric with outbox := s.fabric.outbox.map fun k => if k.plane == p && k.began.isNone then { k with plane := 1 - p } else k } }
  else s
/-- FRAME_DIGEST (R135): the digests of the frame before the present one, those of erased slices aside; digests that differ or a
parity failure, of this device's slices or another, quiesce the plane. -/
def execFrameDigest (plane : Nat) (digests : List (BitVec 32)) (parityFail : Bool) (s : State) : Out :=
  let x := s.plane plane
  if !s.usable plane || digests.length != 36 || x.frame = 0 then notEnabled "FRAME_DIGEST" else
  let ds := (digests.zipIdx.filter fun d => some d.2 != x.erased).map (·.1)
  if !parityFail && !x.parity && ds.all (fun d => some d == ds.head?) then
    let s := s.modPlane plane fun x => { x with agreed := some (x.frame - 1) }
    .next { s with fabric := { s.fabric with sent := s.fabric.sent.filter fun k => k.plane != plane } }
  else .next (s.quiesce plane)
/-- Whether a packet began on a plane after the last frame that agreed there. -/
def Packet.lostOn (k : Packet) (plane : Nat) (agreed : Option Nat) : Bool :=
  k.plane == plane && (match k.began with
    | some f => agreed.all (· < f)
    | none => false)
/-- PLANE_RESUME (R135): what this device began on the plane after the last agreed frame is sent again, on either plane. -/
def execPlaneResume (plane : Nat) (s : State) : Out :=
  let x := s.plane plane
  if 2 ≤ plane || !x.quiesced then notEnabled "PLANE_RESUME" else
  let lost := (s.fabric.sent ++ s.fabric.outbox).filter fun k => k.lostOn plane x.agreed
  let s := s.modPlane plane fun x => { x with quiesced := false, agreed := none }
  let s := { s with fabric := { s.fabric with outbox := s.fabric.outbox.filter fun k => !(k.plane == plane && k.began.isSome),
                                              sent := s.fabric.sent.filter fun k => k.plane != plane } }
  .next (lost.foldl (fun s k => s.transmit k.dst k.seq true k.msg) s)

/-! Packets received (R137 to R142). -/

/-- What a received body holds. -/
inductive Body where
  | msg (s : State) (m : Msg)
  /-- discarded and counted to the world of the packet, and next advances (R140, R213) -/
  | discard (w : Nat)
  /-- a compressed header whose context is not held (R141) -/
  | noContext

/-- The message of a full header and its payload (R140, R142); none for a reserved op, and for a write without data or a read length
outside 1 to 256, which no rule gives an effect (log 76). -/
def fullMsg (seq : Nat) (hd : BitVec 128) (pay : List Byte) : Option Msg :=
  let tag : FarTag := { world := (hd.extractLsb' 92 6).toNat, lworld := (hd.extractLsb' 49 6).toNat, enc := (hd.extractLsb' 47 2).toNat }
  let addr := (hd.extractLsb' 0 47).toNat
  let rid : BitVec 16 := hd.extractLsb' 76 16
  match (hd.extractLsb' 116 4).toNat with
  | 0 => if pay.isEmpty then none else some (.wr { seq, tag, addr, data := pay })
  | 1 => if pay.length != 2 || ofBytes pay = 0 || 256 < ofBytes pay then none else some (.rd { rid := rid.toNat, tag, addr, len := ofBytes pay })
  | 2 => some (.rdr { rid := rid.toNat, res := if pay.isEmpty then .world (Config.refusalCause addr) else .data pay, world := tag.world })
  | 3 => let (op, arg, cmp) := Config.amoPayload pay; some (.amo { rid, tag, addr, op, arg, cmp })
  | 4 => some (.amor { rid, res := Config.amorPayload pay, world := tag.world })
  | 5 => some (.wack { seq := ofBytes (pay.take 4), count := ofBytes ((pay.drop 4).take 4),
                       refused := if addr = 0 then 0 else Config.refusalCause addr, world := tag.world })
  | 6 => (Config.sliPayload pay).map .sli
  | 7 => (Config.slcPayload pay).map .slc
  | 8 => (Config.tlrPayload pay).map .tlr
  | 9 => (Config.tlcPayload pay).map .tlc
  | 10 => (Config.barPayload pay).map .bar
  | 11 => let (group, units) := Config.clmPayload pay; some (.clm { rid := rid.toNat, tag, group, units })
  | 12 => some (.clmr { rid := rid.toNat, units := Config.clmrPayload pay, world := tag.world })
  | _ => none

/-- Drops the least recently used context where 16,384 are held (R141). -/
def State.evictStream (s : State) : State :=
  let all := s.fabric.peers.flatMap fun p => p.streams.map fun c => (c.stamp, p.dev, c.ctx)
  if all.length < 16384 then s else
  match all.foldl (fun (b : Option (Nat × Nat × Nat)) c => match b with | some x => if c.1 < x.1 then some c else some x | none => some c) none with
  | some (_, d, c) => s.modPeer d fun p => { p with streams := p.streams.filter fun x => x.ctx != c }
  | none => s
/-- Sets a stream context of a source (R141). -/
def State.setStream (s : State) (src : Nat) (c : Stream) : State :=
  let s := if (s.peer src).streams.any fun x => x.ctx == c.ctx then s else s.evictStream
  { s.modPeer src fun p => { p with streams := { c with stamp := s.fabric.uses } :: p.streams.filter fun x => x.ctx != c.ctx } with
    fabric := { (s.modPeer src fun p => { p with streams := { c with stamp := s.fabric.uses } :: p.streams.filter fun x => x.ctx != c.ctx }).fabric with
      uses := s.fabric.uses + 1 } }

/-- Decodes the body of a data packet in seq order (R140, R141). A header whose len is not the length of its payload or is past 256, a
compressed tag with non-zero res bits, and a compressed payload whose length is not the context's are taken as non-zero res bits of a
full header are: discarded, counted, next advances (log 76). -/
def State.decodeBody (s : State) (src seq : Nat) (body : List Byte) : Body :=
  if Config.isCompressed body then
    let t := BitVec.ofNat 16 (ofBytes (body.take 2))
    let n := 2 * (t.extractLsb' 6 2).toNat
    let delta := (BitVec.ofNat (8 * n) (ofBytes ((body.drop 2).take n))).toInt
    match (s.peer src).streams.find? fun c => c.ctx == (t.extractLsb' 8 8).toNat with
    | none => .noContext
    | some c =>
      let addr := (((c.addr + c.len : Nat) : Int) + delta).emod (2 ^ 47) |>.toNat
      let pay := body.drop (2 + n)
      if t.extractLsb' 0 6 != 0 || pay.length != c.len then .discard c.tag.world
      else .msg (s.setStream src { c with addr }) (.wr { seq, tag := c.tag, addr, data := pay })
  else
    let hd := BitVec.ofNat 128 (ofBytes (body.take 16))
    let pay := body.drop 16
    let w := (hd.extractLsb' 92 6).toNat
    if hd.extractLsb' 55 20 != 0 || (hd.extractLsb' 107 9).toNat != pay.length || 256 < pay.length || body.length < 16 then .discard w
    else match fullMsg seq hd pay with
    | none => .discard w
    | some (.wr q) =>
      .msg (if hd.getLsbD 75 then s else s.setStream src
        { ctx := (hd.extractLsb' 120 8).toNat, tag := q.tag, len := q.data.length, addr := q.addr, stamp := 0 }) (.wr q)
    | some m => .msg s m

/-- Whether a message must wait for a rekey of its region (R177, R178): but for the data of claims that were answered before. -/
def State.rekeyBlocks (s : State) (src : Nat) (m : Msg) : Bool :=
  let busy (tag : FarTag) (a : Nat) : Bool := tag.enc == 2 && (match (s.worlds.getD tag.world .reset).rgkey with
    | some (i, _) => (match (s.worlds.getD tag.world .reset).regions[i]? with | some r => r.has a | none => false)
    | none => false)
  let claimed (a n : Nat) (wr : Bool) : Bool := (s.peer src).moving.any fun m => m.2.2 == wr && overlap a n m.2.1 4
  match m with
  | .clm q => q.units.any fun u => busy q.tag u.1
  | .amo q => busy q.tag q.addr
  | .wr q => busy q.tag q.addr && !claimed q.addr q.data.length true
  | .rd q => busy q.tag q.addr && !claimed q.addr q.len false
  | _ => false
/-- Whether a far request is refused with WORLD (R170). -/
def State.refuses (s : State) (m : Msg) : Bool :=
  match m with
  | .wr q => s.homeCheck q.tag q.addr != 0
  | .rd q => s.homeCheck q.tag q.addr != 0
  | .amo q => s.homeCheck q.tag q.addr != 0
  | .clm q => q.units.any fun u => s.homeCheck q.tag u.1 != 0
  | _ => false
/-- The worlds whose traffic crosses a peer's session: a free choice (R189). -/
def State.crossing (s : State) : List Nat := (List.range 64).filter fun w => Config.pick s.free (2 ^ 62 + w) % 2 == 1
/-- Counts a refused far request of a peer; more than 64 within 1 s feed source 4 (R189). -/
def State.countRefused (s : State) (src : Nat) : State :=
  let n := (s.peer src).refusals + 1
  if 64 < n && Config.pick s.free (2 ^ 61) % 2 = 1 then (s.modPeer src fun p => { p with refusals := 0 }).raiseAlarm 4 s.crossing
  else s.modPeer src fun p => { p with refusals := n }
/-- A message of another device is handled; none where it must wait. -/
def State.handOn (s : State) (src : Nat) (m : Msg) : Option State :=
  if s.rekeyBlocks src m then none
  else (s.handle src m).map fun t => if s.refuses m then t.countRefused src else t

/-- Acknowledges what has been handed on (R139). -/
def State.sendAck (s : State) (src : Nat) : State :=
  let n := ((s.peer src).next + 2 ^ 32 - 1) % 2 ^ 32
  (s.modPeer src fun p => { p with unsent := 0 }).transmit src n true (.ack n)
/-- A data packet of a peer is handed on: next advances, and every sixteenth is acknowledged at once (R139). -/
def State.passNext (s : State) (src : Nat) : State :=
  let q := (s.peer src).next
  let s := s.modPeer src fun p => { p with next := (q + 1) % 2 ^ 32, waiting := p.waiting.filter fun w => w.1 != q, unsent := p.unsent + 1 }
  if 16 ≤ (s.peer src).unsent then s.sendAck src else s
/-- Hands on held packets in seq order (R139, R141). -/
def State.handOnHeld : Nat → Nat → State → State
  | 0, _, s => s
  | n + 1, src, s =>
    let p := s.peer src
    match p.waiting.find? fun w => w.1 == p.next with
    | none => s
    | some (q, body) =>
      match s.decodeBody src q body with
      | .noContext => (s.modPeer src fun p => { p with waiting := [], skip := true }).transmit src q true (.nakCtx q)
      | .discard w =>
        let t := s.modWorld w fun x => { x with elink := x.elink + 1 }
        State.handOnHeld n src ({ t with fabric := { t.fabric with discards := t.fabric.discards + 1 } }.passNext src)
      | .msg t m => match (t.passNext src).handOn src m with
        | some u => State.handOnHeld n src u
        | none => s

/-- The body of a packet whose tag verifies: its length is the one, within its last flit, at which it does (R137). -/
def openPacket (key : Nat) (iv : BitVec 96) (bytes : List Byte) : Option (List Byte) :=
  (List.range 60).findSome? fun k =>
    let n := bytes.length - k
    if n < 32 then none else openText key iv (bytes.take 16) ((bytes.drop 16).take (n - 32)) ((bytes.drop (n - 16)).take 16)
/-- A packet whose tag fails: discarded, counted, reported (R138, R189). -/
def State.tagFails (s : State) (src : Nat) : State :=
  let n := (s.peer src).tagFails + 1
  let s := s.modWorld 0 fun w => { w with elink := w.elink + 1 }
  if 16 < n && Config.pick s.free (2 ^ 60) % 2 = 1 then (s.modPeer src fun p => { p with tagFails := 0 }).raiseAlarm 0 s.crossing
  else s.modPeer src fun p => { p with tagFails := n }

/-- A data packet within the window is held and what can be handed on is; others are discarded (R139). -/
def State.dataPacket (s : State) (src seq : Nat) (body : List Byte) : State :=
  let p := s.peer src
  let ahead := (seq + 2 ^ 32 - p.next) % 2 ^ 32
  if ahead ≤ 255 then
    if p.skip && ahead != 0 then s else
    let held (w : List (Nat × List Byte)) : List (Nat × List Byte) := if w.any (fun x => x.1 == seq) then w else w ++ [(seq, body)]
    let s := s.modPeer src fun p => { p with skip := false, waiting := held p.waiting }
    (State.handOnHeld 256 src s).sendWack src
  else if ahead < 2 ^ 31 then s.transmit src p.next true (.nak p.next)
  else s
/-- A whole packet (R137). -/
def State.packetIn (s : State) (src : Nat) (bytes : List Byte) : State :=
  let seq := ofBytes (bytes.take 4)
  let ctr := BitVec.ofNat 64 (ofBytes ((bytes.drop 8).take 8))
  let p := s.peer src
  match (if p.keyed then openPacket (linkKey p.session src s.device) (linkIv src s.device ctr) bytes else none) with
  | none => s.tagFails src
  | some body =>
    let count : State := { s with fabric := { s.fabric with discards := s.fabric.discards + 1 } }
    if ((bytes.drop 5).take 3).any (· != 0) then count else
    match (bytes.getD 4 0).toNat with
    | 0 => s.dataPacket src seq body
    | 1 => (s.handle src (.ack seq)).getD s
    | 2 => (s.handle src (.nak seq)).getD s
    | 3 => (s.handle src (.nakCtx seq)).getD s
    | _ => count

/-- FLIT_RECEIVE (R131, R132, R137 to R141): one flit of a packet; the last one completes it. -/
def execFlitReceive (plane src : Nat) (words : List (BitVec 72)) (last : Bool) (s : State) : Out :=
  let x := s.plane plane
  if !s.usable plane || words.length != 8 || !s.otherMembers.contains src then notEnabled "FLIT_RECEIVE" else
  let ds := words.map (decodeLink x.erased)
  let fixed := ds.filterMap fun d => d.bind (·.2)
  let s := fixed.foldl (fun s i => s.countCorrection plane i) s
  let part := if ds.all (·.isSome) then flitBytes (ds.filterMap fun d => d.map (·.1)) else none
  let s := s.modPeer src fun p => match part with
    | some bs => { p with parts := upsert (fun e => e.1 == plane) (fun e => (e.1, e.2 ++ bs)) (plane, []) p.parts }
    | none => { p with broken := plane :: p.broken }
  if !last then .next s else
  let p := s.peer src
  let bytes := ((p.parts.find? fun e => e.1 == plane).map (·.2)).getD []
  let t := s.modPeer src fun p => { p with parts := p.parts.filter fun e => e.1 != plane, broken := p.broken.filter (· != plane) }
  .next (if p.broken.contains plane then t else t.packetIn src bytes)

/-! Packets handed on (R142). -/

/-- The next data packet of a peer is handed on. -/
def State.packetEvent (s : State) (event : String) (src : Nat) (m : Msg) : Out :=
  if !s.otherMembers.contains src || !(s.peer src).keyed || s.recovering then notEnabled event else
  match (s.passNext src).handOn src m with
  | some t => .next (t.sendWack src)
  | none => notEnabled event
/-- WR (R143). -/
def execWr (src : Nat) (q : WrReq) (s : State) : Out :=
  if q.seq = (s.peer src).next then s.packetEvent "WR" src (.wr q) else notEnabled "WR"
/-- RD (R143). -/
def execRd (src : Nat) (q : RdReq) (s : State) : Out := s.packetEvent "RD" src (.rd q)
/-- RDR (R143). -/
def execRdr (src : Nat) (q : RdReply) (s : State) : Out := s.packetEvent "RDR" src (.rdr q)
/-- AMO (R144). -/
def execAmo (src : Nat) (q : AmoReq) (s : State) : Out := s.packetEvent "AMO" src (.amo q)
/-- AMOR (R144). -/
def execAmor (src : Nat) (q : AmoReply) (s : State) : Out := s.packetEvent "AMOR" src (.amor q)
/-- WACK (R143). -/
def execWack (src : Nat) (q : WackMsg) (s : State) : Out := s.packetEvent "WACK" src (.wack q)
/-- SLI (R149). -/
def execSli (src : Nat) (q : SleeveItem) (s : State) : Out := s.packetEvent "SLI" src (.sli q)
/-- SLC (R151). -/
def execSlc (src : Nat) (q : SleeveCtl) (s : State) : Out := s.packetEvent "SLC" src (.slc q)
/-- TLR (R159). -/
def execTlr (src : Nat) (q : TailorRec) (s : State) : Out := s.packetEvent "TLR" src (.tlr q)
/-- TLC (R156). -/
def execTlc (src : Nat) (q : TailorCtl) (s : State) : Out := s.packetEvent "TLC" src (.tlc q)
/-- BAR_MESSAGE (R326). -/
def execBarMessage (src : Nat) (q : BarMsg) (s : State) : Out := s.packetEvent "BAR_MESSAGE" src (.bar q)
/-- CLM (R178). -/
def execClm (src : Nat) (q : ClmReq) (s : State) : Out := s.packetEvent "CLM" src (.clm q)
/-- CLMR (R178). -/
def execClmr (src : Nat) (q : ClmReply) (s : State) : Out := s.packetEvent "CLMR" src (.clmr q)

/-- A link packet of a peer in session. -/
def State.linkEvent (s : State) (event : String) (src seq : Nat) (m : Msg) : Out :=
  if !s.otherMembers.contains src || !(s.peer src).keyed || 2 ^ 32 ≤ seq || s.recovering then notEnabled event else
  match s.handle src m with
  | some t => .next t
  | none => notEnabled event
/-- ACK (R139). -/
def execAck (src seq : Nat) (s : State) : Out := s.linkEvent "ACK" src seq (.ack seq)
/-- NAK (R139). -/
def execNak (src seq : Nat) (s : State) : Out := s.linkEvent "NAK" src seq (.nak seq)
/-- NAK_CTX (R141). -/
def execNakCtx (src seq : Nat) (s : State) : Out := s.linkEvent "NAK_CTX" src seq (.nakCtx seq)
/-- ACK_TIMER (R139): every 1 µs, whether or not something new has been handed on: an acknowledgement that was lost is made good. -/
def execAckTimer (peer : Nat) (s : State) : Out :=
  if s.otherMembers.contains peer && (s.peer peer).keyed && !s.recovering then .next (s.sendAck peer) else notEnabled "ACK_TIMER"
/-- GAP_TIMER (R139). -/
def execGapTimer (peer : Nat) (s : State) : Out :=
  let p := s.peer peer
  if !p.waiting.isEmpty && !(p.waiting.any fun w => w.1 == p.next) then .next (s.transmit peer p.next true (.nak p.next))
  else notEnabled "GAP_TIMER"
/-- RESEND_TIMER (R139). -/
def execResendTimer (peer : Nat) (s : State) : Out :=
  match (s.peer peer).unacked with
  | u :: _ => .next (s.resendFrom peer u.1)
  | [] => notEnabled "RESEND_TIMER"

/-- ATOMIC_RETRY (R144): the same request with the same id, in a new packet. -/
def execAtomicRetry (op : Nat) (s : State) : Out :=
  match s.farReqs.find? fun r => r.id == op && r.isAmo && r.answer.isNone with
  | some r => .next (s.send r.dev r.msg)
  | none => notEnabled "ATOMIC_RETRY"

/-- A world counts a fabric or delivery error (R147, R213). -/
def State.linkError (s : State) (w : BitVec 6) : State := s.modWorld w.toNat fun x => { x with elink := x.elink + 1 }
/-- The trap of a timed-out access (R147, R403). -/
def timeoutTrap (store : Bool) (va : Word) : Trap := { code := cACCESS, cause := 12, far := true, store, detail := va }
/-- The world that a far request acts for. -/
def State.reqWorld (s : State) (r : FarReq) : BitVec 6 :=
  match s.hartAt r.core r.ctx with
  | some h => h.world
  | none => match r.msg with | .amo q => BitVec.ofNat 6 q.tag.world | _ => 0
/-- A far request times out: its instruction takes the fault as its answer; a dispatcher gives it up. -/
def State.reqTimeout (s : State) (r : FarReq) : State :=
  let s := s.linkError (s.reqWorld { r with ctx := r.ctx % 8 })
  if r.core = 768 then { s with farReqs := s.farReqs.filter fun x => x.id != r.id }
  else { s with farReqs := s.farReqs.map fun x => if x.id == r.id then { x with answer := some (.fail 12 cACCESS) } else x }
/-- Write acknowledgements of an operation time out: they stay pending at the hart, and the hook is not posted; a copy command moves
on without them (R147, log 52). -/
def State.ackTimeout (s : State) (o : Op) : State :=
  let s := match s.hartAt o.core o.ctx with | some h => s.linkError h.world | none => s
  let s := o.kind.waiting.foldl (fun s w => s.modPeer w.1 fun p => { p with writes := p.writes.filter fun u => u.1 != w.2 }) s
  (s.ackFails o (fun _ => true) (timeoutTrap true o.va)).settleAcks
/-- Answered claims whose data has not come within the time of R147: the requester has given them up (R178, log 80). -/
def State.givesUp (s : State) (id : Nat) : State :=
  { s with fabric := { s.fabric with peers := s.fabric.peers.map fun p => { p with moving := p.moving.filter fun m => m.1 != id } } }
/-- DELIVERY_TIMEOUT (R147). -/
def execDeliveryTimeout (op : Nat) (s : State) : Out :=
  match s.farReqs.find? fun r => r.id == op && r.answer.isNone with
  | some r => .next (s.reqTimeout r)
  | none => match s.opById op with
    | some o => if o.kind.waiting.isEmpty then notEnabled "DELIVERY_TIMEOUT" else .next (s.ackTimeout o)
    | none =>
      if s.fabric.peers.any fun p => p.moving.any fun m => m.1 == op then .next (s.givesUp op) else notEnabled "DELIVERY_TIMEOUT"

/-! Sessions (R138, R145). -/

/-- SESSION_KEY_UPDATE (R138): a new key, whose counter starts afresh. -/
def execSessionKeyUpdate (peer : Nat) (s : State) : Out :=
  if s.otherMembers.contains peer && (s.peer peer).keyed then
    .next (s.modPeer peer fun p => { p with session := p.session + 1, ctr := 0 })
  else notEnabled "SESSION_KEY_UPDATE"

/-- Whether a message is sent again in a new session: requests still open come from their own records, answers are asked for
again (R145). -/
def Msg.carriesOver : Msg → Bool
  | .sli _ | .slc _ | .tlr _ | .tlc _ | .bar _ => true
  | _ => false
/-- A pair's state at the start of a session (R145): the peer's next atomic id becomes base, and this device has told its own. -/
def Peer.restart (p : Peer) (base : BitVec 16) : Peer :=
  { p with session := p.session + 1, keyed := true, lost := false, ctr := 0, sendSeq := 0, unacked := [], via := [], told := p.rid,
           next := 0, waiting := [], unsent := 0, streams := [], skip := false, base, cache := [], writes := [], parts := [], broken := [],
           moving := [], ack := none }
/-- Whether an id can be the next of a peer: it lies after every one that the peer has used here (R144, R145). -/
def Peer.mayCome (p : Peer) (next : BitVec 16) : Bool := p.cache.all fun e => 0 < (next - e.1).toInt
/-- Renames the acknowledgements that operations wait for: the writes are sent again under new numbers. -/
def OpKind.renamed (f : Nat × Nat → Nat × Nat) : OpKind → OpKind
  | .farStore ws va => .farStore (ws.map f) va
  | .copied ws r => .copied (ws.map f) r
  | .copy c r => .copy c { r with waits := r.waits.map f }
  | .tailor d g e ws => .tailor d g e (ws.map (·.map f))
  | .vector a b c d e g ws m => .vector a b c d e g (ws.map f) m
  | k => k
/-- SESSION_REESTABLISH (R145, R179): a peer whose measurements the domain does not accept is refused a session; else writes go
first, in their order, under seq 0 and up, then open requests, then what carries over. Packets of the session before it go no more. -/
def execSessionReestablish (offer : SessionOffer) (s : State) : Out :=
  let peer := offer.peer
  let p := s.peer peer
  if !s.otherMembers.contains peer || !p.mayCome offer.next then notEnabled "SESSION_REESTABLISH"
  else if !s.accepted.contains offer.meas then .next (s.modPeer peer fun p => { p with keyed := false })
  else
  let rename (w : Nat × Nat) : Nat × Nat :=
    if w.1 == peer then (match p.writes.findIdx? fun u => u.1 == w.2 with | some i => (peer, i) | none => w) else w
  let s := s.modPeer peer fun p => p.restart offer.next
  let s : State := { s with fabric := { s.fabric with outbox := s.fabric.outbox.filter fun k => k.dst != peer, sent := s.fabric.sent.filter fun k => k.dst != peer } }
  let s : State := { s with ops := s.ops.map fun (o : Op) => ({ o with kind := o.kind.renamed rename } : Op) }
  let s := p.writes.foldl (fun s u => s.send peer u.2) s
  let s := (s.farReqs.filter fun r => r.dev == peer && r.answer.isNone).foldl (fun s r => s.send peer r.msg) s
  .next ((p.unacked.filter fun u => u.2.carriesOver).foldl (fun s u => s.send peer u.2) s)

/-! Members that leave or are out of contact (R152, R160, R326). -/

/-- Sleeves homed here lose the ends that a device holds; the other ends are orphaned (R152). -/
def State.orphanEnds (s : State) (peer : Nat) : State :=
  s.sleeves.dir.foldl (fun s e =>
    let sl : SleeveId := { home := s.device, index := e.index, world := e.world }
    if !e.used then s else
    let s := if e.sendDev = peer && e.sendClosed.isNone && !e.sendLost then s.sleeveCtl s.device (.orphan sl true) else s
    if e.recvDev = peer && !e.recvClosed && !e.recvLost then s.sleeveCtl s.device (.orphan sl false) else s) s
/-- CONTACT_LOSS (R152). -/
def execContactLoss (peer : Nat) (s : State) : Out :=
  if s.otherMembers.contains peer then .next ((s.modPeer peer fun p => { p with lost := true }).orphanEnds peer)
  else notEnabled "CONTACT_LOSS"
/-- Open episodes of barriers that a device coordinates end: no hook is posted, and the next wait traps ENGINE (R326). A participant whose
episode has closed posts. -/
def State.barriersLost (s : State) (peer : Nat) : State :=
  s.ops.foldl (fun s o => match o.kind with
    | .bar w sc _ false => if sc = 5 && barCoord w = peer then
        (s.dropOp o.id).modHart o.core o.ctx fun h =>
          { h with faults := h.faults ++ [{ chan := .bar, lvl := o.lvl, hook := o.hook, trap := engineTrap 0 { code := cACCESS } false }] }
      else s
    | _ => s) s
/-- PEER_LOST (R152, R160, R326): a member leaves the domain. -/
def execPeerLost (peer : Nat) (s : State) : Out :=
  if !s.otherMembers.contains peer then notEnabled "PEER_LOST" else
  let s := { s with members := s.members.filter (· != peer) }
  let s := ((s.modPeer peer fun p => { p with lost := true, keyed := false, moving := [], bars := [] }).orphanEnds peer).barriersLost peer
  .next ((s.groups.filter fun g => (g.phase == 1 || g.phase == 2) && (membersOf g.mmap).contains peer).foldl (fun s g => s.groupLost g peer) s)

end Sys2Proof.Machine
end

