-- ==== Sys2Proof/Machine/ScalarMem.lean ====
section
/-! DEFINITION. Scalar loads and stores (R247), acquires, releases and atomics (R248). -/
namespace Sys2Proof.Machine

/-- LD_B (R247). -/
def execLdB (d a : BitVec 5) (h : BitVec 4) (imm : BitVec 9) (s : State) : Out := s.loadX d a (s.cur.addrM a imm 1) 1 true h
/-- LD_H (R247). -/
def execLdH (d a : BitVec 5) (h : BitVec 4) (imm : BitVec 9) (s : State) : Out := s.loadX d a (s.cur.addrM a imm 2) 2 true h
/-- LD_W (R247). -/
def execLdW (d a : BitVec 5) (h : BitVec 4) (imm : BitVec 9) (s : State) : Out := s.loadX d a (s.cur.addrM a imm 4) 4 true h
/-- LD_D (R247). -/
def execLdD (d a : BitVec 5) (h : BitVec 4) (imm : BitVec 9) (s : State) : Out := s.loadX d a (s.cur.addrM a imm 8) 8 true h
/-- LD_BU (R247). -/
def execLdBu (d a : BitVec 5) (h : BitVec 4) (imm : BitVec 9) (s : State) : Out := s.loadX d a (s.cur.addrM a imm 1) 1 false h
/-- LD_HU (R247). -/
def execLdHu (d a : BitVec 5) (h : BitVec 4) (imm : BitVec 9) (s : State) : Out := s.loadX d a (s.cur.addrM a imm 2) 2 false h
/-- LD_WU (R247). -/
def execLdWu (d a : BitVec 5) (h : BitVec 4) (imm : BitVec 9) (s : State) : Out := s.loadX d a (s.cur.addrM a imm 4) 4 false h
/-- ST_B (R247). -/
def execStB (d a : BitVec 5) (h : BitVec 4) (imm : BitVec 9) (s : State) : Out := s.storeX d a (s.cur.addrM a imm 1) 1 h
/-- ST_H (R247). -/
def execStH (d a : BitVec 5) (h : BitVec 4) (imm : BitVec 9) (s : State) : Out := s.storeX d a (s.cur.addrM a imm 2) 2 h
/-- ST_W (R247). -/
def execStW (d a : BitVec 5) (h : BitVec 4) (imm : BitVec 9) (s : State) : Out := s.storeX d a (s.cur.addrM a imm 4) 4 h
/-- ST_D (R247). -/
def execStD (d a : BitVec 5) (h : BitVec 4) (imm : BitVec 9) (s : State) : Out := s.storeX d a (s.cur.addrM a imm 8) 8 h
/-- LDACQ (R76, R248): at scope sys later far reads wait for it too. -/
def execLdacq (d a : BitVec 5) (h : BitVec 4) (sc : BitVec 3) (s : State) : Out := s.ldacqX d a sc h
/-- STREL (R76, R248). -/
def execStrel (d a : BitVec 5) (h : BitVec 4) (sc : BitVec 3) (s : State) : Out := s.strelX d a sc h
/-- AMO_ADD (R248). -/
def execAmoAdd (d a b : BitVec 5) (h : BitVec 4) (sc : BitVec 3) (s : State) : Out := s.amoX .add d a b sc h
/-- AMO_AND (R248). -/
def execAmoAnd (d a b : BitVec 5) (h : BitVec 4) (sc : BitVec 3) (s : State) : Out := s.amoX .and d a b sc h
/-- AMO_OR (R248). -/
def execAmoOr (d a b : BitVec 5) (h : BitVec 4) (sc : BitVec 3) (s : State) : Out := s.amoX .or d a b sc h
/-- AMO_XOR (R248). -/
def execAmoXor (d a b : BitVec 5) (h : BitVec 4) (sc : BitVec 3) (s : State) : Out := s.amoX .xor d a b sc h
/-- AMO_MIN (R248). -/
def execAmoMin (d a b : BitVec 5) (h : BitVec 4) (sc : BitVec 3) (s : State) : Out := s.amoX .min d a b sc h
/-- AMO_MAX (R248). -/
def execAmoMax (d a b : BitVec 5) (h : BitVec 4) (sc : BitVec 3) (s : State) : Out := s.amoX .max d a b sc h
/-- AMO_MINU (R248). -/
def execAmoMinu (d a b : BitVec 5) (h : BitVec 4) (sc : BitVec 3) (s : State) : Out := s.amoX .minu d a b sc h
/-- AMO_MAXU (R248). -/
def execAmoMaxu (d a b : BitVec 5) (h : BitVec 4) (sc : BitVec 3) (s : State) : Out := s.amoX .maxu d a b sc h
/-- AMO_SWAP (R248). -/
def execAmoSwap (d a b : BitVec 5) (h : BitVec 4) (sc : BitVec 3) (s : State) : Out := s.amoX .swap d a b sc h
/-- CAS (R248): compares with X[D], writes X[B]. -/
def execCas (d a b : BitVec 5) (h : BitVec 4) (sc : BitVec 3) (s : State) : Out := s.amoX .cas d a b sc h

end Sys2Proof.Machine
end

