-- ==== Sys2Proof/Machine/Dispatch.lean ====
section
/-! DEFINITION. The dispatch: one arm for each instruction, a direct call of its meaning. -/
namespace Sys2Proof.Machine

/-- What an instruction or a device event does. -/
def exec (i : Instr) (s : State) : Host.Outcome State Fault Refusal :=
  match i with
  | .add d a b => Sys2Proof.Machine.execAdd d a b s
  | .sub d a b => Sys2Proof.Machine.execSub d a b s
  | .and d a b => Sys2Proof.Machine.execAnd d a b s
  | .or d a b => Sys2Proof.Machine.execOr d a b s
  | .xor d a b => Sys2Proof.Machine.execXor d a b s
  | .shl d a b => Sys2Proof.Machine.execShl d a b s
  | .shr d a b => Sys2Proof.Machine.execShr d a b s
  | .sra d a b => Sys2Proof.Machine.execSra d a b s
  | .slt d a b => Sys2Proof.Machine.execSlt d a b s
  | .sltu d a b => Sys2Proof.Machine.execSltu d a b s
  | .min d a b => Sys2Proof.Machine.execMin d a b s
  | .max d a b => Sys2Proof.Machine.execMax d a b s
  | .minu d a b => Sys2Proof.Machine.execMinu d a b s
  | .maxu d a b => Sys2Proof.Machine.execMaxu d a b s
  | .mul d a b => Sys2Proof.Machine.execMul d a b s
  | .mulh d a b => Sys2Proof.Machine.execMulh d a b s
  | .mulhu d a b => Sys2Proof.Machine.execMulhu d a b s
  | .div d a b h => Sys2Proof.Machine.execDiv d a b h s
  | .divu d a b h => Sys2Proof.Machine.execDivu d a b h s
  | .rem d a b h => Sys2Proof.Machine.execRem d a b h s
  | .remu d a b h => Sys2Proof.Machine.execRemu d a b h s
  | .clz d a => Sys2Proof.Machine.execClz d a s
  | .ctz d a => Sys2Proof.Machine.execCtz d a s
  | .popc d a => Sys2Proof.Machine.execPopc d a s
  | .bswap d a => Sys2Proof.Machine.execBswap d a s
  | .addi d a imm => Sys2Proof.Machine.execAddi d a imm s
  | .andi d a imm => Sys2Proof.Machine.execAndi d a imm s
  | .ori d a imm => Sys2Proof.Machine.execOri d a imm s
  | .xori d a imm => Sys2Proof.Machine.execXori d a imm s
  | .shli d a n => Sys2Proof.Machine.execShli d a n s
  | .shri d a n => Sys2Proof.Machine.execShri d a n s
  | .srai d a n => Sys2Proof.Machine.execSrai d a n s
  | .slti d a imm => Sys2Proof.Machine.execSlti d a imm s
  | .sltiu d a imm => Sys2Proof.Machine.execSltiu d a imm s
  | .lhi d imm => Sys2Proof.Machine.execLhi d imm s
  | .lpc d imm => Sys2Proof.Machine.execLpc d imm s
  | .ldB d a h imm => Sys2Proof.Machine.execLdB d a h imm s
  | .ldH d a h imm => Sys2Proof.Machine.execLdH d a h imm s
  | .ldW d a h imm => Sys2Proof.Machine.execLdW d a h imm s
  | .ldD d a h imm => Sys2Proof.Machine.execLdD d a h imm s
  | .ldBu d a h imm => Sys2Proof.Machine.execLdBu d a h imm s
  | .ldHu d a h imm => Sys2Proof.Machine.execLdHu d a h imm s
  | .ldWu d a h imm => Sys2Proof.Machine.execLdWu d a h imm s
  | .stB d a h imm => Sys2Proof.Machine.execStB d a h imm s
  | .stH d a h imm => Sys2Proof.Machine.execStH d a h imm s
  | .stW d a h imm => Sys2Proof.Machine.execStW d a h imm s
  | .stD d a h imm => Sys2Proof.Machine.execStD d a h imm s
  | .ldacq d a h sc => Sys2Proof.Machine.execLdacq d a h sc s
  | .strel d a h sc => Sys2Proof.Machine.execStrel d a h sc s
  | .amoAdd d a b h sc => Sys2Proof.Machine.execAmoAdd d a b h sc s
  | .amoAnd d a b h sc => Sys2Proof.Machine.execAmoAnd d a b h sc s
  | .amoOr d a b h sc => Sys2Proof.Machine.execAmoOr d a b h sc s
  | .amoXor d a b h sc => Sys2Proof.Machine.execAmoXor d a b h sc s
  | .amoMin d a b h sc => Sys2Proof.Machine.execAmoMin d a b h sc s
  | .amoMax d a b h sc => Sys2Proof.Machine.execAmoMax d a b h sc s
  | .amoMinu d a b h sc => Sys2Proof.Machine.execAmoMinu d a b h sc s
  | .amoMaxu d a b h sc => Sys2Proof.Machine.execAmoMaxu d a b h sc s
  | .amoSwap d a b h sc => Sys2Proof.Machine.execAmoSwap d a b h sc s
  | .cas d a b h sc => Sys2Proof.Machine.execCas d a b h sc s
  | .beq a b off => Sys2Proof.Machine.execBeq a b off s
  | .bne a b off => Sys2Proof.Machine.execBne a b off s
  | .blt a b off => Sys2Proof.Machine.execBlt a b off s
  | .bge a b off => Sys2Proof.Machine.execBge a b off s
  | .bltu a b off => Sys2Proof.Machine.execBltu a b off s
  | .bgeu a b off => Sys2Proof.Machine.execBgeu a b off s
  | .jal d off => Sys2Proof.Machine.execJal d off s
  | .jalr d a imm => Sys2Proof.Machine.execJalr d a imm s
  | .loop lvl off => Sys2Proof.Machine.execLoop lvl off s
  | .loopr a off => Sys2Proof.Machine.execLoopr a off s
  | .dly n => Sys2Proof.Machine.execDly n s
  | .wait a h n => Sys2Proof.Machine.execWait a h n s
  | .post h n => Sys2Proof.Machine.execPost h n s
  | .hset a h => Sys2Proof.Machine.execHset a h s
  | .halt => Sys2Proof.Machine.execHalt s
  | .launch a h => Sys2Proof.Machine.execLaunch a h s
  | .fadd d a b fmt => Sys2Proof.Machine.execFadd d a b fmt s
  | .fsub d a b fmt => Sys2Proof.Machine.execFsub d a b fmt s
  | .fmul d a b fmt => Sys2Proof.Machine.execFmul d a b fmt s
  | .fma d a b fmt => Sys2Proof.Machine.execFma d a b fmt s
  | .fdiv d a b h fmt => Sys2Proof.Machine.execFdiv d a b h fmt s
  | .fsqrt d a h fmt => Sys2Proof.Machine.execFsqrt d a h fmt s
  | .fmin d a b fmt => Sys2Proof.Machine.execFmin d a b fmt s
  | .fmax d a b fmt => Sys2Proof.Machine.execFmax d a b fmt s
  | .fcmpEq d a b fmt => Sys2Proof.Machine.execFcmpEq d a b fmt s
  | .fcmpNe d a b fmt => Sys2Proof.Machine.execFcmpNe d a b fmt s
  | .fcmpLt d a b fmt => Sys2Proof.Machine.execFcmpLt d a b fmt s
  | .fcmpLe d a b fmt => Sys2Proof.Machine.execFcmpLe d a b fmt s
  | .fcmpGt d a b fmt => Sys2Proof.Machine.execFcmpGt d a b fmt s
  | .fcmpGe d a b fmt => Sys2Proof.Machine.execFcmpGe d a b fmt s
  | .fclass d a fmt => Sys2Proof.Machine.execFclass d a fmt s
  | .fcvt d a code fmt => Sys2Proof.Machine.execFcvt d a code fmt s
  | .fcvtInt d a code fmt => Sys2Proof.Machine.execFcvtInt d a code fmt s
  | .trap n => Sys2Proof.Machine.execTrap n s
  | .eret => Sys2Proof.Machine.execEret s
  | .csrr d csr => Sys2Proof.Machine.execCsrr d csr s
  | .csrw a csr => Sys2Proof.Machine.execCsrw a csr s
  | .csrs a csr => Sys2Proof.Machine.execCsrs a csr s
  | .csrc a csr => Sys2Proof.Machine.execCsrc a csr s
  | .fenceAcq sc => Sys2Proof.Machine.execFenceAcq sc s
  | .fenceRel sc => Sys2Proof.Machine.execFenceRel sc s
  | .fenceFull sc => Sys2Proof.Machine.execFenceFull sc s
  | .fenceSv => Sys2Proof.Machine.execFenceSv s
  | .fenceIo sc => Sys2Proof.Machine.execFenceIo sc s
  | .bkpt n => Sys2Proof.Machine.execBkpt n s
  | .icinv a h b sc => Sys2Proof.Machine.execIcinv a h b sc s
  | .idle => Sys2Proof.Machine.execIdle s
  | .ctxsave a h => Sys2Proof.Machine.execCtxsave a h s
  | .ctxrst a h => Sys2Proof.Machine.execCtxrst a h s
  | .poolHeader n => Sys2Proof.Machine.execPoolHeader n s
  | .setvli d a yb sew grp tl mk cfg => Sys2Proof.Machine.execSetvli d a yb sew grp tl mk cfg s
  | .setvl d a b yb => Sys2Proof.Machine.execSetvl d a b yb s
  | .settl d a b => Sys2Proof.Machine.execSettl d a b s
  | .vld d a mk dt ch h => Sys2Proof.Machine.execVld d a mk dt ch h s
  | .vst d a mk dt ch h => Sys2Proof.Machine.execVst d a mk dt ch h s
  | .mld d a h => Sys2Proof.Machine.execMld d a h s
  | .mst d a h => Sys2Proof.Machine.execMst d a h s
  | .vlds d a b mk dt ch h => Sys2Proof.Machine.execVlds d a b mk dt ch h s
  | .vsts d a b mk dt ch h => Sys2Proof.Machine.execVsts d a b mk dt ch h s
  | .vldx d a b mk dt ch h => Sys2Proof.Machine.execVldx d a b mk dt ch h s
  | .vstx d a b mk dt ch h => Sys2Proof.Machine.execVstx d a b mk dt ch h s
  | .vamo d a b code h => Sys2Proof.Machine.execVamo d a b code h s
  | .vaddVV d a b mk dt ca cb => Sys2Proof.Machine.execVaddVV d a b mk dt ca cb s
  | .vaddVX d a b mk dt ca => Sys2Proof.Machine.execVaddVX d a b mk dt ca s
  | .vaddVI d a imm mk dt ca => Sys2Proof.Machine.execVaddVI d a imm mk dt ca s
  | .vsubVV d a b mk dt ca cb => Sys2Proof.Machine.execVsubVV d a b mk dt ca cb s
  | .vsubVX d a b mk dt ca => Sys2Proof.Machine.execVsubVX d a b mk dt ca s
  | .vsubVI d a imm mk dt ca => Sys2Proof.Machine.execVsubVI d a imm mk dt ca s
  | .vrsubVV d a b mk dt ca cb => Sys2Proof.Machine.execVrsubVV d a b mk dt ca cb s
  | .vrsubVX d a b mk dt ca => Sys2Proof.Machine.execVrsubVX d a b mk dt ca s
  | .vrsubVI d a imm mk dt ca => Sys2Proof.Machine.execVrsubVI d a imm mk dt ca s
  | .vadcVV d a b mk ca cb => Sys2Proof.Machine.execVadcVV d a b mk ca cb s
  | .vadcVX d a b mk ca => Sys2Proof.Machine.execVadcVX d a b mk ca s
  | .vadcVI d a imm mk ca => Sys2Proof.Machine.execVadcVI d a imm mk ca s
  | .vsbcVV d a b mk ca cb => Sys2Proof.Machine.execVsbcVV d a b mk ca cb s
  | .vsbcVX d a b mk ca => Sys2Proof.Machine.execVsbcVX d a b mk ca s
  | .vsbcVI d a imm mk ca => Sys2Proof.Machine.execVsbcVI d a imm mk ca s
  | .vmadcVV d a b mk ca cb => Sys2Proof.Machine.execVmadcVV d a b mk ca cb s
  | .vmadcVX d a b mk ca => Sys2Proof.Machine.execVmadcVX d a b mk ca s
  | .vmadcVI d a imm mk ca => Sys2Proof.Machine.execVmadcVI d a imm mk ca s
  | .vmsbcVV d a b mk ca cb => Sys2Proof.Machine.execVmsbcVV d a b mk ca cb s
  | .vmsbcVX d a b mk ca => Sys2Proof.Machine.execVmsbcVX d a b mk ca s
  | .vmsbcVI d a imm mk ca => Sys2Proof.Machine.execVmsbcVI d a imm mk ca s
  | .vandVV d a b mk dt ca cb => Sys2Proof.Machine.execVandVV d a b mk dt ca cb s
  | .vandVX d a b mk dt ca => Sys2Proof.Machine.execVandVX d a b mk dt ca s
  | .vandVI d a imm mk dt ca => Sys2Proof.Machine.execVandVI d a imm mk dt ca s
  | .vorVV d a b mk dt ca cb => Sys2Proof.Machine.execVorVV d a b mk dt ca cb s
  | .vorVX d a b mk dt ca => Sys2Proof.Machine.execVorVX d a b mk dt ca s
  | .vorVI d a imm mk dt ca => Sys2Proof.Machine.execVorVI d a imm mk dt ca s
  | .vxorVV d a b mk dt ca cb => Sys2Proof.Machine.execVxorVV d a b mk dt ca cb s
  | .vxorVX d a b mk dt ca => Sys2Proof.Machine.execVxorVX d a b mk dt ca s
  | .vxorVI d a imm mk dt ca => Sys2Proof.Machine.execVxorVI d a imm mk dt ca s
  | .vshlVV d a b mk dt ca cb => Sys2Proof.Machine.execVshlVV d a b mk dt ca cb s
  | .vshlVX d a b mk dt ca => Sys2Proof.Machine.execVshlVX d a b mk dt ca s
  | .vshlVI d a imm mk dt ca => Sys2Proof.Machine.execVshlVI d a imm mk dt ca s
  | .vshrVV d a b mk dt ca cb => Sys2Proof.Machine.execVshrVV d a b mk dt ca cb s
  | .vshrVX d a b mk dt ca => Sys2Proof.Machine.execVshrVX d a b mk dt ca s
  | .vshrVI d a imm mk dt ca => Sys2Proof.Machine.execVshrVI d a imm mk dt ca s
  | .vsraVV d a b mk dt ca cb => Sys2Proof.Machine.execVsraVV d a b mk dt ca cb s
  | .vsraVX d a b mk dt ca => Sys2Proof.Machine.execVsraVX d a b mk dt ca s
  | .vsraVI d a imm mk dt ca => Sys2Proof.Machine.execVsraVI d a imm mk dt ca s
  | .vmulVV d a b mk dt ca cb => Sys2Proof.Machine.execVmulVV d a b mk dt ca cb s
  | .vmulVX d a b mk dt ca => Sys2Proof.Machine.execVmulVX d a b mk dt ca s
  | .vmulVI d a imm mk dt ca => Sys2Proof.Machine.execVmulVI d a imm mk dt ca s
  | .vmulhVV d a b mk dt ca cb => Sys2Proof.Machine.execVmulhVV d a b mk dt ca cb s
  | .vmulhVX d a b mk dt ca => Sys2Proof.Machine.execVmulhVX d a b mk dt ca s
  | .vmulhVI d a imm mk dt ca => Sys2Proof.Machine.execVmulhVI d a imm mk dt ca s
  | .vmulhuVV d a b mk dt ca cb => Sys2Proof.Machine.execVmulhuVV d a b mk dt ca cb s
  | .vmulhuVX d a b mk dt ca => Sys2Proof.Machine.execVmulhuVX d a b mk dt ca s
  | .vmulhuVI d a imm mk dt ca => Sys2Proof.Machine.execVmulhuVI d a imm mk dt ca s
  | .vminVV d a b mk dt ca cb => Sys2Proof.Machine.execVminVV d a b mk dt ca cb s
  | .vminVX d a b mk dt ca => Sys2Proof.Machine.execVminVX d a b mk dt ca s
  | .vminVI d a imm mk dt ca => Sys2Proof.Machine.execVminVI d a imm mk dt ca s
  | .vmaxVV d a b mk dt ca cb => Sys2Proof.Machine.execVmaxVV d a b mk dt ca cb s
  | .vmaxVX d a b mk dt ca => Sys2Proof.Machine.execVmaxVX d a b mk dt ca s
  | .vmaxVI d a imm mk dt ca => Sys2Proof.Machine.execVmaxVI d a imm mk dt ca s
  | .vminuVV d a b mk dt ca cb => Sys2Proof.Machine.execVminuVV d a b mk dt ca cb s
  | .vminuVX d a b mk dt ca => Sys2Proof.Machine.execVminuVX d a b mk dt ca s
  | .vminuVI d a imm mk dt ca => Sys2Proof.Machine.execVminuVI d a imm mk dt ca s
  | .vmaxuVV d a b mk dt ca cb => Sys2Proof.Machine.execVmaxuVV d a b mk dt ca cb s
  | .vmaxuVX d a b mk dt ca => Sys2Proof.Machine.execVmaxuVX d a b mk dt ca s
  | .vmaxuVI d a imm mk dt ca => Sys2Proof.Machine.execVmaxuVI d a imm mk dt ca s
  | .vmergeVV d a b mk ca cb => Sys2Proof.Machine.execVmergeVV d a b mk ca cb s
  | .vmergeVX d a b mk ca => Sys2Proof.Machine.execVmergeVX d a b mk ca s
  | .vmergeVI d a imm mk ca => Sys2Proof.Machine.execVmergeVI d a imm mk ca s
  | .vmvVV d b mk dt cb => Sys2Proof.Machine.execVmvVV d b mk dt cb s
  | .vmvVX d b mk dt => Sys2Proof.Machine.execVmvVX d b mk dt s
  | .vmvVI d imm mk dt => Sys2Proof.Machine.execVmvVI d imm mk dt s
  | .vcmpEqVV d a b mk dt ca cb => Sys2Proof.Machine.execVcmpEqVV d a b mk dt ca cb s
  | .vcmpEqVX d a b mk dt ca => Sys2Proof.Machine.execVcmpEqVX d a b mk dt ca s
  | .vcmpEqVI d a imm mk dt ca => Sys2Proof.Machine.execVcmpEqVI d a imm mk dt ca s
  | .vcmpNeVV d a b mk dt ca cb => Sys2Proof.Machine.execVcmpNeVV d a b mk dt ca cb s
  | .vcmpNeVX d a b mk dt ca => Sys2Proof.Machine.execVcmpNeVX d a b mk dt ca s
  | .vcmpNeVI d a imm mk dt ca => Sys2Proof.Machine.execVcmpNeVI d a imm mk dt ca s
  | .vcmpLtVV d a b mk dt ca cb => Sys2Proof.Machine.execVcmpLtVV d a b mk dt ca cb s
  | .vcmpLtVX d a b mk dt ca => Sys2Proof.Machine.execVcmpLtVX d a b mk dt ca s
  | .vcmpLtVI d a imm mk dt ca => Sys2Proof.Machine.execVcmpLtVI d a imm mk dt ca s
  | .vcmpLtuVV d a b mk dt ca cb => Sys2Proof.Machine.execVcmpLtuVV d a b mk dt ca cb s
  | .vcmpLtuVX d a b mk dt ca => Sys2Proof.Machine.execVcmpLtuVX d a b mk dt ca s
  | .vcmpLtuVI d a imm mk dt ca => Sys2Proof.Machine.execVcmpLtuVI d a imm mk dt ca s
  | .vcmpLeVV d a b mk dt ca cb => Sys2Proof.Machine.execVcmpLeVV d a b mk dt ca cb s
  | .vcmpLeVX d a b mk dt ca => Sys2Proof.Machine.execVcmpLeVX d a b mk dt ca s
  | .vcmpLeVI d a imm mk dt ca => Sys2Proof.Machine.execVcmpLeVI d a imm mk dt ca s
  | .vcmpLeuVV d a b mk dt ca cb => Sys2Proof.Machine.execVcmpLeuVV d a b mk dt ca cb s
  | .vcmpLeuVX d a b mk dt ca => Sys2Proof.Machine.execVcmpLeuVX d a b mk dt ca s
  | .vcmpLeuVI d a imm mk dt ca => Sys2Proof.Machine.execVcmpLeuVI d a imm mk dt ca s
  | .vcmpGtVV d a b mk dt ca cb => Sys2Proof.Machine.execVcmpGtVV d a b mk dt ca cb s
  | .vcmpGtVX d a b mk dt ca => Sys2Proof.Machine.execVcmpGtVX d a b mk dt ca s
  | .vcmpGtVI d a imm mk dt ca => Sys2Proof.Machine.execVcmpGtVI d a imm mk dt ca s
  | .vcmpGtuVV d a b mk dt ca cb => Sys2Proof.Machine.execVcmpGtuVV d a b mk dt ca cb s
  | .vcmpGtuVX d a b mk dt ca => Sys2Proof.Machine.execVcmpGtuVX d a b mk dt ca s
  | .vcmpGtuVI d a imm mk dt ca => Sys2Proof.Machine.execVcmpGtuVI d a imm mk dt ca s
  | .vslupVX d a b mk dt ca => Sys2Proof.Machine.execVslupVX d a b mk dt ca s
  | .vslupVI d a imm mk dt ca => Sys2Proof.Machine.execVslupVI d a imm mk dt ca s
  | .vsldnVX d a b mk dt ca => Sys2Proof.Machine.execVsldnVX d a b mk dt ca s
  | .vsldnVI d a imm mk dt ca => Sys2Proof.Machine.execVsldnVI d a imm mk dt ca s
  | .vsl1up d a b mk dt ca => Sys2Proof.Machine.execVsl1up d a b mk dt ca s
  | .vsl1dn d a b mk dt ca => Sys2Proof.Machine.execVsl1dn d a b mk dt ca s
  | .vperm d a b mk dt ca cb => Sys2Proof.Machine.execVperm d a b mk dt ca cb s
  | .vcompress d a mk ca => Sys2Proof.Machine.execVcompress d a mk ca s
  | .viota d mk => Sys2Proof.Machine.execViota d mk s
  | .vid d mk dt => Sys2Proof.Machine.execVid d mk dt s
  | .vwadd d a b mk dt ca cb => Sys2Proof.Machine.execVwadd d a b mk dt ca cb s
  | .vwaddu d a b mk dt ca cb => Sys2Proof.Machine.execVwaddu d a b mk dt ca cb s
  | .vwmul d a b mk dt ca cb => Sys2Proof.Machine.execVwmul d a b mk dt ca cb s
  | .vwmulu d a b mk dt ca cb => Sys2Proof.Machine.execVwmulu d a b mk dt ca cb s
  | .vnshrVX d a b mk dt ca => Sys2Proof.Machine.execVnshrVX d a b mk dt ca s
  | .vnshrVI d a imm mk dt ca => Sys2Proof.Machine.execVnshrVI d a imm mk dt ca s
  | .vnsraVX d a b mk dt ca => Sys2Proof.Machine.execVnsraVX d a b mk dt ca s
  | .vnsraVI d a imm mk dt ca => Sys2Proof.Machine.execVnsraVI d a imm mk dt ca s
  | .vextS2 d a mk dt ca => Sys2Proof.Machine.execVextS2 d a mk dt ca s
  | .vextS4 d a mk dt ca => Sys2Proof.Machine.execVextS4 d a mk dt ca s
  | .vextZ2 d a mk dt ca => Sys2Proof.Machine.execVextZ2 d a mk dt ca s
  | .vextZ4 d a mk dt ca => Sys2Proof.Machine.execVextZ4 d a mk dt ca s
  | .vlastx d a b h ca => Sys2Proof.Machine.execVlastx d a b h ca s
  | .mand d a b => Sys2Proof.Machine.execMand d a b s
  | .mor d a b => Sys2Proof.Machine.execMor d a b s
  | .mxor d a b => Sys2Proof.Machine.execMxor d a b s
  | .mandn d a b => Sys2Proof.Machine.execMandn d a b s
  | .mshl d a n => Sys2Proof.Machine.execMshl d a n s
  | .mpopc d a h => Sys2Proof.Machine.execMpopc d a h s
  | .mfirst d a h => Sys2Proof.Machine.execMfirst d a h s
  | .mlast d a h => Sys2Proof.Machine.execMlast d a h s
  | .vmvx d a b h ca => Sys2Proof.Machine.execVmvx d a b h ca s
  | .vmvsx d a => Sys2Proof.Machine.execVmvsx d a s
  | .vredSum d a b mk dt ca cb => Sys2Proof.Machine.execVredSum d a b mk dt ca cb s
  | .vredAnd d a b mk dt ca cb => Sys2Proof.Machine.execVredAnd d a b mk dt ca cb s
  | .vredOr d a b mk dt ca cb => Sys2Proof.Machine.execVredOr d a b mk dt ca cb s
  | .vredXor d a b mk dt ca cb => Sys2Proof.Machine.execVredXor d a b mk dt ca cb s
  | .vredMin d a b mk dt ca cb => Sys2Proof.Machine.execVredMin d a b mk dt ca cb s
  | .vredMax d a b mk dt ca cb => Sys2Proof.Machine.execVredMax d a b mk dt ca cb s
  | .vredMinu d a b mk dt ca cb => Sys2Proof.Machine.execVredMinu d a b mk dt ca cb s
  | .vredMaxu d a b mk dt ca cb => Sys2Proof.Machine.execVredMaxu d a b mk dt ca cb s
  | .vfaddVV d a b mk dt ca cb => Sys2Proof.Machine.execVfaddVV d a b mk dt ca cb s
  | .vfaddVX d a b mk dt ca => Sys2Proof.Machine.execVfaddVX d a b mk dt ca s
  | .vfsubVV d a b mk dt ca cb => Sys2Proof.Machine.execVfsubVV d a b mk dt ca cb s
  | .vfsubVX d a b mk dt ca => Sys2Proof.Machine.execVfsubVX d a b mk dt ca s
  | .vfmulVV d a b mk dt ca cb => Sys2Proof.Machine.execVfmulVV d a b mk dt ca cb s
  | .vfmulVX d a b mk dt ca => Sys2Proof.Machine.execVfmulVX d a b mk dt ca s
  | .vfmaVV d a b mk dt ca cb => Sys2Proof.Machine.execVfmaVV d a b mk dt ca cb s
  | .vfmaVX d a b mk dt ca => Sys2Proof.Machine.execVfmaVX d a b mk dt ca s
  | .vfdivVV d a b mk dt ca cb => Sys2Proof.Machine.execVfdivVV d a b mk dt ca cb s
  | .vfdivVX d a b mk dt ca => Sys2Proof.Machine.execVfdivVX d a b mk dt ca s
  | .vfsqrt d a mk dt ca => Sys2Proof.Machine.execVfsqrt d a mk dt ca s
  | .vfminVV d a b mk dt ca cb => Sys2Proof.Machine.execVfminVV d a b mk dt ca cb s
  | .vfminVX d a b mk dt ca => Sys2Proof.Machine.execVfminVX d a b mk dt ca s
  | .vfmaxVV d a b mk dt ca cb => Sys2Proof.Machine.execVfmaxVV d a b mk dt ca cb s
  | .vfmaxVX d a b mk dt ca => Sys2Proof.Machine.execVfmaxVX d a b mk dt ca s
  | .vfcmpEqVV d a b mk dt ca cb => Sys2Proof.Machine.execVfcmpEqVV d a b mk dt ca cb s
  | .vfcmpEqVX d a b mk dt ca => Sys2Proof.Machine.execVfcmpEqVX d a b mk dt ca s
  | .vfcmpNeVV d a b mk dt ca cb => Sys2Proof.Machine.execVfcmpNeVV d a b mk dt ca cb s
  | .vfcmpNeVX d a b mk dt ca => Sys2Proof.Machine.execVfcmpNeVX d a b mk dt ca s
  | .vfcmpLtVV d a b mk dt ca cb => Sys2Proof.Machine.execVfcmpLtVV d a b mk dt ca cb s
  | .vfcmpLtVX d a b mk dt ca => Sys2Proof.Machine.execVfcmpLtVX d a b mk dt ca s
  | .vfcmpLeVV d a b mk dt ca cb => Sys2Proof.Machine.execVfcmpLeVV d a b mk dt ca cb s
  | .vfcmpLeVX d a b mk dt ca => Sys2Proof.Machine.execVfcmpLeVX d a b mk dt ca s
  | .vfcmpGtVV d a b mk dt ca cb => Sys2Proof.Machine.execVfcmpGtVV d a b mk dt ca cb s
  | .vfcmpGtVX d a b mk dt ca => Sys2Proof.Machine.execVfcmpGtVX d a b mk dt ca s
  | .vfcmpGeVV d a b mk dt ca cb => Sys2Proof.Machine.execVfcmpGeVV d a b mk dt ca cb s
  | .vfcmpGeVX d a b mk dt ca => Sys2Proof.Machine.execVfcmpGeVX d a b mk dt ca s
  | .vfaddBfVV d a b mk dt ca cb => Sys2Proof.Machine.execVfaddBfVV d a b mk dt ca cb s
  | .vfaddBfVX d a b mk dt ca => Sys2Proof.Machine.execVfaddBfVX d a b mk dt ca s
  | .vfsubBfVV d a b mk dt ca cb => Sys2Proof.Machine.execVfsubBfVV d a b mk dt ca cb s
  | .vfsubBfVX d a b mk dt ca => Sys2Proof.Machine.execVfsubBfVX d a b mk dt ca s
  | .vfmulBfVV d a b mk dt ca cb => Sys2Proof.Machine.execVfmulBfVV d a b mk dt ca cb s
  | .vfmulBfVX d a b mk dt ca => Sys2Proof.Machine.execVfmulBfVX d a b mk dt ca s
  | .vfmaBfVV d a b mk dt ca cb => Sys2Proof.Machine.execVfmaBfVV d a b mk dt ca cb s
  | .vfmaBfVX d a b mk dt ca => Sys2Proof.Machine.execVfmaBfVX d a b mk dt ca s
  | .vfcvt d a alt frm mk dt ca => Sys2Proof.Machine.execVfcvt d a alt frm mk dt ca s
  | .vfredo d a b mk dt ca cb => Sys2Proof.Machine.execVfredo d a b mk dt ca cb s
  | .vfredSum d a b mk dt ca cb => Sys2Proof.Machine.execVfredSum d a b mk dt ca cb s
  | .vfredMin d a b mk dt ca cb => Sys2Proof.Machine.execVfredMin d a b mk dt ca cb s
  | .vfredMax d a b mk dt ca cb => Sys2Proof.Machine.execVfredMax d a b mk dt ca cb s
  | .vfpot d a b mk dt ca cb => Sys2Proof.Machine.execVfpot d a b mk dt ca cb s
  | .vmaddVV d a b mk dt ca cb => Sys2Proof.Machine.execVmaddVV d a b mk dt ca cb s
  | .vmsubVV d a b mk dt ca cb => Sys2Proof.Machine.execVmsubVV d a b mk dt ca cb s
  | .vmmulVV d a b mk dt ca cb => Sys2Proof.Machine.execVmmulVV d a b mk dt ca cb s
  | .vmmacVV d a b mk dt ca cb => Sys2Proof.Machine.execVmmacVV d a b mk dt ca cb s
  | .vmaddVX d a b mk dt ca => Sys2Proof.Machine.execVmaddVX d a b mk dt ca s
  | .vmsubVX d a b mk dt ca => Sys2Proof.Machine.execVmsubVX d a b mk dt ca s
  | .vmmulVX d a b mk dt ca => Sys2Proof.Machine.execVmmulVX d a b mk dt ca s
  | .vmmacVX d a b mk dt ca => Sys2Proof.Machine.execVmmacVX d a b mk dt ca s
  | .vbfly d a b mk dt ca cb => Sys2Proof.Machine.execVbfly d a b mk dt ca cb s
  | .vibfly d a b mk dt ca cb => Sys2Proof.Machine.execVibfly d a b mk dt ca cb s
  | .vntt d a b ca => Sys2Proof.Machine.execVntt d a b ca s
  | .vintt d a b ca => Sys2Proof.Machine.execVintt d a b ca s
  | .vauto d a b ca => Sys2Proof.Machine.execVauto d a b ca s
  | .vdigit d a b mk dt ca => Sys2Proof.Machine.execVdigit d a b mk dt ca s
  | .mtld a h => Sys2Proof.Machine.execMtld a h s
  | .tzero d => Sys2Proof.Machine.execTzero d s
  | .tld d a b h => Sys2Proof.Machine.execTld d a b h s
  | .tst d a b h => Sys2Proof.Machine.execTst d a b h s
  | .tmma d a b => Sys2Proof.Machine.execTmma d a b s
  | .tmvr d a b => Sys2Proof.Machine.execTmvr d a b s
  | .copy d a h => Sys2Proof.Machine.execCopy d a h s
  | .copyn a h => Sys2Proof.Machine.execCopyn a h s
  | .epop d b h => Sys2Proof.Machine.execEpop d b h s
  | .bar a sc h => Sys2Proof.Machine.execBar a sc h s
  | .slopen d h => Sys2Proof.Machine.execSlopen d h s
  | .slsend a b h => Sys2Proof.Machine.execSlsend a b h s
  | .slrecv d a h => Sys2Proof.Machine.execSlrecv d a h s
  | .slpass a b h => Sys2Proof.Machine.execSlpass a b h s
  | .slclose a h => Sys2Proof.Machine.execSlclose a h s
  | .slpoll d a h => Sys2Proof.Machine.execSlpoll d a h s
  | .rpkey d a b => Sys2Proof.Machine.execRpkey d a b s
  | .rprun a h => Sys2Proof.Machine.execRprun a h s
  | .rpdisp a h => Sys2Proof.Machine.execRpdisp a h s
  | .rpstat d a h => Sys2Proof.Machine.execRpstat d a h s
  | .ctBind d a b => Sys2Proof.Machine.execCtBind d a b s
  | .ctLd d a => Sys2Proof.Machine.execCtLd d a s
  | .ctSt d a h => Sys2Proof.Machine.execCtSt d a h s
  | .ctAdd d a b h => Sys2Proof.Machine.execCtAdd d a b h s
  | .ctSub d a b h => Sys2Proof.Machine.execCtSub d a b h s
  | .ctNeg d a h => Sys2Proof.Machine.execCtNeg d a h s
  | .ctMulk d a b h => Sys2Proof.Machine.execCtMulk d a b h s
  | .ctMulp d a b h => Sys2Proof.Machine.execCtMulp d a b h s
  | .ctRot d a b h => Sys2Proof.Machine.execCtRot d a b h s
  | .ctKsw d a b h => Sys2Proof.Machine.execCtKsw d a b h s
  | .ctModsw d a b h => Sys2Proof.Machine.execCtModsw d a b h s
  | .ctExtr d a b h => Sys2Proof.Machine.execCtExtr d a b h s
  | .ctPack d a b h cnt => Sys2Proof.Machine.execCtPack d a b h cnt s
  | .ctRefresh d a b h tb => Sys2Proof.Machine.execCtRefresh d a b h tb s
  | .ctBrinit d a h tb => Sys2Proof.Machine.execCtBrinit d a h tb s
  | .ctBrstep d a b h => Sys2Proof.Machine.execCtBrstep d a b h s
  | .ctBrfin d a h => Sys2Proof.Machine.execCtBrfin d a h s
  | .ctAlw d a => Sys2Proof.Machine.execCtAlw d a s
  | .ctWin a => Sys2Proof.Machine.execCtWin a s
  | .tbLd d a h => Sys2Proof.Machine.execTbLd d a h s
  | .kyBind d a h => Sys2Proof.Machine.execKyBind d a h s
  | .cNop a b => Sys2Proof.Machine.execCNop a b s
  | .cAdd a b => Sys2Proof.Machine.execCAdd a b s
  | .cSub a b => Sys2Proof.Machine.execCSub a b s
  | .cAnd a b => Sys2Proof.Machine.execCAnd a b s
  | .cOr a b => Sys2Proof.Machine.execCOr a b s
  | .cXor a b => Sys2Proof.Machine.execCXor a b s
  | .cShl a b => Sys2Proof.Machine.execCShl a b s
  | .cShr a b => Sys2Proof.Machine.execCShr a b s
  | .cSra a b => Sys2Proof.Machine.execCSra a b s
  | .cSlt a b => Sys2Proof.Machine.execCSlt a b s
  | .cSltu a b => Sys2Proof.Machine.execCSltu a b s
  | .cMin a b => Sys2Proof.Machine.execCMin a b s
  | .cMax a b => Sys2Proof.Machine.execCMax a b s
  | .cMinu a b => Sys2Proof.Machine.execCMinu a b s
  | .cMaxu a b => Sys2Proof.Machine.execCMaxu a b s
  | .cMul a b => Sys2Proof.Machine.execCMul a b s
  | .cAddi a b => Sys2Proof.Machine.execCAddi a b s
  | .cAndi a b => Sys2Proof.Machine.execCAndi a b s
  | .cShli a b => Sys2Proof.Machine.execCShli a b s
  | .cShri a b => Sys2Proof.Machine.execCShri a b s
  | .cSrai a b => Sys2Proof.Machine.execCSrai a b s
  | .cSlti a b => Sys2Proof.Machine.execCSlti a b s
  | .cLdD a b => Sys2Proof.Machine.execCLdD a b s
  | .cLdW a b => Sys2Proof.Machine.execCLdW a b s
  | .cStD a b => Sys2Proof.Machine.execCStD a b s
  | .cStW a b => Sys2Proof.Machine.execCStW a b s
  | .cFaddD a b => Sys2Proof.Machine.execCFaddD a b s
  | .cFsubD a b => Sys2Proof.Machine.execCFsubD a b s
  | .cFmulD a b => Sys2Proof.Machine.execCFmulD a b s
  | .cFmaD a b => Sys2Proof.Machine.execCFmaD a b s
  | .cMulhu a b => Sys2Proof.Machine.execCMulhu a b s
  | .trapTake hart => Sys2Proof.Machine.execTrapTake hart s
  | .timer hart => Sys2Proof.Machine.execTimer hart s
  | .idleTimeout hart => Sys2Proof.Machine.execIdleTimeout hart s
  | .loadDataArrival op => Sys2Proof.Machine.execLoadDataArrival op s
  | .storePerformed op => Sys2Proof.Machine.execStorePerformed op s
  | .divideComplete op => Sys2Proof.Machine.execDivideComplete op s
  | .fdivComplete op => Sys2Proof.Machine.execFdivComplete op s
  | .atomicComplete op => Sys2Proof.Machine.execAtomicComplete op s
  | .vectorComplete op => Sys2Proof.Machine.execVectorComplete op s
  | .copyComplete op => Sys2Proof.Machine.execCopyComplete op s
  | .engineFault op => Sys2Proof.Machine.execEngineFault op s
  | .ctChannelComplete op => Sys2Proof.Machine.execCtChannelComplete op s
  | .refreshWindowExpiry clus => Sys2Proof.Machine.execRefreshWindowExpiry clus s
  | .refreshBatchComplete clus => Sys2Proof.Machine.execRefreshBatchComplete clus s
  | .sleeveCommandComplete op => Sys2Proof.Machine.execSleeveCommandComplete op s
  | .tailoringComplete gid => Sys2Proof.Machine.execTailoringComplete gid s
  | .tailoringTimeout gid => Sys2Proof.Machine.execTailoringTimeout gid s
  | .peerLost peer => Sys2Proof.Machine.execPeerLost peer s
  | .icinvComplete op => Sys2Proof.Machine.execIcinvComplete op s
  | .ctxsaveComplete op => Sys2Proof.Machine.execCtxsaveComplete op s
  | .ctxrstComplete op => Sys2Proof.Machine.execCtxrstComplete op s
  | .launchEnqueue op => Sys2Proof.Machine.execLaunchEnqueue op s
  | .hostLaunchWrite queue off data => Sys2Proof.Machine.execHostLaunchWrite queue off data s
  | .dispatch disp place => Sys2Proof.Machine.execDispatch disp place s
  | .headPromotion queue => Sys2Proof.Machine.execHeadPromotion queue s
  | .yieldTimeout disp victims => Sys2Proof.Machine.execYieldTimeout disp victims s
  | .preemptTimeout hart => Sys2Proof.Machine.execPreemptTimeout hart s
  | .resumeParked disp place => Sys2Proof.Machine.execResumeParked disp place s
  | .receiptSign world => Sys2Proof.Machine.execReceiptSign world s
  | .powerWindow current => Sys2Proof.Machine.execPowerWindow current s
  | .thrinAssert => Sys2Proof.Machine.execThrinAssert s
  | .pkglim watts => Sys2Proof.Machine.execPkglim watts s
  | .stklim stack watts => Sys2Proof.Machine.execStklim stack watts s
  | .spres v => Sys2Proof.Machine.execSpres v s
  | .poolmap v => Sys2Proof.Machine.execPoolmap v s
  | .rgtab v => Sys2Proof.Machine.execRgtab v s
  | .rgkey v => Sys2Proof.Machine.execRgkey v s
  | .rgkeyComplete world => Sys2Proof.Machine.execRgkeyComplete world s
  | .tlbinv v => Sys2Proof.Machine.execTlbinv v s
  | .tlbinvComplete world => Sys2Proof.Machine.execTlbinvComplete world s
  | .ldest v => Sys2Proof.Machine.execLdest v s
  | .fcsr v => Sys2Proof.Machine.execFcsr v s
  | .alpol v => Sys2Proof.Machine.execAlpol v s
  | .registerWrite csr v => Sys2Proof.Machine.execRegisterWrite csr v s
  | .obctl world v => Sys2Proof.Machine.execObctl world v s
  | .obbuf world v => Sys2Proof.Machine.execObbuf world v s
  | .obtail world v => Sys2Proof.Machine.execObtail world v s
  | .rcreq world v => Sys2Proof.Machine.execRcreq world v s
  | .profileEntry world entry off v => Sys2Proof.Machine.execProfileEntry world entry off v s
  | .qstat queue v => Sys2Proof.Machine.execQstat queue v s
  | .bccfg chan v => Sys2Proof.Machine.execBccfg chan v s
  | .bcstg chan v => Sys2Proof.Machine.execBcstg chan v s
  | .bchc chan v => Sys2Proof.Machine.execBchc chan v s
  | .bcresync chan v => Sys2Proof.Machine.execBcresync chan v s
  | .bcKeyInstall chan key => Sys2Proof.Machine.execBcKeyInstall chan key s
  | .bcSlot chan slot => Sys2Proof.Machine.execBcSlot chan slot s
  | .flitReceive plane src words last => Sys2Proof.Machine.execFlitReceive plane src words last s
  | .laneLockLoss plane slice => Sys2Proof.Machine.execLaneLockLoss plane slice s
  | .planeControl plane msg => Sys2Proof.Machine.execPlaneControl plane msg s
  | .frameArbitration plane reqs => Sys2Proof.Machine.execFrameArbitration plane reqs s
  | .frameDigest plane digests parityFail => Sys2Proof.Machine.execFrameDigest plane digests parityFail s
  | .planeResume plane => Sys2Proof.Machine.execPlaneResume plane s
  | .wr src q => Sys2Proof.Machine.execWr src q s
  | .rd src q => Sys2Proof.Machine.execRd src q s
  | .rdr src q => Sys2Proof.Machine.execRdr src q s
  | .amo src q => Sys2Proof.Machine.execAmo src q s
  | .amor src q => Sys2Proof.Machine.execAmor src q s
  | .wack src q => Sys2Proof.Machine.execWack src q s
  | .sli src q => Sys2Proof.Machine.execSli src q s
  | .slc src q => Sys2Proof.Machine.execSlc src q s
  | .tlr src q => Sys2Proof.Machine.execTlr src q s
  | .tlc src q => Sys2Proof.Machine.execTlc src q s
  | .barMessage src q => Sys2Proof.Machine.execBarMessage src q s
  | .clm src q => Sys2Proof.Machine.execClm src q s
  | .clmr src q => Sys2Proof.Machine.execClmr src q s
  | .ack src seq => Sys2Proof.Machine.execAck src seq s
  | .nak src seq => Sys2Proof.Machine.execNak src seq s
  | .nakCtx src seq => Sys2Proof.Machine.execNakCtx src seq s
  | .ackTimer peer => Sys2Proof.Machine.execAckTimer peer s
  | .gapTimer peer => Sys2Proof.Machine.execGapTimer peer s
  | .resendTimer peer => Sys2Proof.Machine.execResendTimer peer s
  | .atomicRetry op => Sys2Proof.Machine.execAtomicRetry op s
  | .deliveryTimeout op => Sys2Proof.Machine.execDeliveryTimeout op s
  | .sessionReestablish offer => Sys2Proof.Machine.execSessionReestablish offer s
  | .contactLoss peer => Sys2Proof.Machine.execContactLoss peer s
  | .d2dKeyRenewal => Sys2Proof.Machine.execD2dKeyRenewal s
  | .ideIntegrityFailure world => Sys2Proof.Machine.execIdeIntegrityFailure world s
  | .hostRegisterRequest q => Sys2Proof.Machine.execHostRegisterRequest q s
  | .glitchDetect => Sys2Proof.Machine.execGlitchDetect s
  | .debugPortAccess => Sys2Proof.Machine.execDebugPortAccess s
  | .eccError t uncorrectable => Sys2Proof.Machine.execEccError t uncorrectable s
  | .reset step => Sys2Proof.Machine.execReset step s
  | .i3cAddressAssignment addr => Sys2Proof.Machine.execI3cAddressAssignment addr s
  | .thrinDeassert => Sys2Proof.Machine.execThrinDeassert s
  | .doeSpdmMessage m => Sys2Proof.Machine.execDoeSpdmMessage m s
  | .cxlMemRequest q => Sys2Proof.Machine.execCxlMemRequest q s
  | .sessionKeyUpdate peer => Sys2Proof.Machine.execSessionKeyUpdate peer s
  | .queueBind q => Sys2Proof.Machine.execQueueBind q s
  | .supervisorTaskEnd queue num => Sys2Proof.Machine.execSupervisorTaskEnd queue num s
  | .fixedResultLanding op => Sys2Proof.Machine.execFixedResultLanding op s
  | .rpstatComplete op => Sys2Proof.Machine.execRpstatComplete op s

end Sys2Proof.Machine
end

