-- ==== Sys2Proof/Machine/Turn.lean ====
section
/-! DEFINITION. One turn of the device: a message of the device to itself, the next turn of the agenda, or, where the agenda says
nothing, a hart that issues or an operation that ends. -/
namespace Sys2Proof.Machine

/-- Runs the word that the issuing hart has fetched. -/
noncomputable def runWord (s : State) (w : Half) : Out :=
  let t := s.modCur fun h => { h with ir := w }
  match decode w t.cur.secondHalf with
  | .ok i => exec i t
  | .error _ => .next t.undecoded

/-- The issuing hart's turn: its boundary, or one instruction. -/
noncomputable def runHart (s : State) : Out :=
  match s.turnStart with
  | some t => .next t
  | none =>
    match s.freed.fetch with
    | .word t w => runWord t w
    | .trap t => .next (s.freed.takeTrap t)
    | .hold t => .next t

/-- A core's turn (R116): a cycle passes where no hart of it is ready. -/
noncomputable def issueAt (s : State) (core : Nat) : Out :=
  match s.nextHart core with
  | none => .next (s.passCycle core)
  | some h => runHart ((s.passCycle core).prepare h)

/-- A turn that the agenda names; only device events come from it besides issues. -/
noncomputable def takeTurn (s : State) : Turn → Out
  | .issue core => issueAt s core
  | .event e => if isEvent e then exec e s else notEnabled "agenda"

/-- Where nothing is said: ready cores take turns; every eighth step, or when none is ready, something in flight goes on. -/
noncomputable def defaultTurn (s : State) : Out :=
  match s.idleTurn with
  | .inl t => .next t
  | .inr core => issueAt s core

/-- One turn, the state's clock already counted. -/
noncomputable def turn (s : State) : Out :=
  match s.inbox, s.agenda with
  | m :: _, _ => .next (s.selfMessage m)
  | [], t :: r => takeTurn { s with agenda := r } t
  | [], [] => defaultTurn s

/-- The state with an instruction word where the next step fetches: at the start of the TCM slice of an active hart at user
level, whose turn is next; nothing else is under way. -/
def State.placeNext (s : State) (nbits w : Nat) : State :=
  { s.placeWord (BitVec.ofNat 32 (w % 2 ^ nbits)) with agenda := [.issue 0], inbox := [], ops := [], farReqs := [], others := [] }

end Sys2Proof.Machine
end

