-- ==== Sys2Proof/Machine/Step.lean ====
section
/-! DEFINITION. One step of the device, and the state whose next step runs a given instruction word. -/
namespace Sys2Proof.Machine

/-- One step: the clock counts, then the turn that is due is taken. -/
noncomputable def step (s : State) : Host.Outcome State Fault Refusal := turn s.tick

/-- The state with an instruction word where the next step fetches. -/
def State.withFetchWord (s : State) (nbits w : Nat) : State := s.placeNext nbits w

end Sys2Proof.Machine
end

