-- ==== Sys2Proof/Safety.lean ====
section
/-! DEFINITION. What counts as a safe run: no step faults or is refused, and memory keeps its canonical form. -/
namespace Sys2Proof.Machine

/-- A step goes on. -/
def GoesOn (s : State) : Prop := ∃ t, step s = .next t

/-- The invariant of memory: its cells are in canonical form. -/
def MemInv (s : State) : Prop := s.mem.wf = true

/-- k steps from a state go on and keep the invariant. -/
def SafeRun : Nat → State → Prop
  | 0, s => MemInv s
  | k + 1, s => MemInv s ∧ ∃ t, step s = .next t ∧ SafeRun k t

end Sys2Proof.Machine
end

