-- ==== Sys2Proof/Claims.lean ====
section
/-! DEFINITION. The words in which the statements are made: what an instruction's next state holds, and what it leaves as it was. -/
namespace Sys2Proof.Claims
open Sys2Proof.Machine

/-- The instruction answers a next state, of which P holds. -/
def Completes (i : Instr) (s : State) (P : State → Prop) : Prop := ∃ t, exec i s = .next t ∧ P t

/-- STRICT lets the scalar sources pass (R119). -/
def Waited (s : State) (rs : List (BitVec 5)) : Prop := s.cur.strap.strict = true → ∀ r ∈ rs, s.awaitsX r = false

/-- The pc goes on in sequence, with the wrap of the hardware loops whose body ends there (R215, R255). -/
def Sequel (s t : State) : Prop :=
  (t.cur.bank.nest, t.cur.bank.lidx, t.cur.pc) = wrapNest s.cur.bank.nest s.cur.bank.lidx s.cur.seqPc
/-- The banks of the levels that do not run stay. -/
def OtherBanks (s t : State) : Prop := ∀ l, l ≠ s.cur.level → t.cur.bankOf l = s.cur.bankOf l
/-- Every x register reads as before, with its poison. -/
def XKept (s t : State) : Prop := ∀ r, t.cur.x r = s.cur.x r ∧ t.cur.px r = s.cur.px r
/-- One x register reads a value, 0 where it is poisoned (R211), and has its poison; x0 takes nothing (R217); the others stay. -/
def XSet (s t : State) (d : BitVec 5) (v : Word) (p : Bool) : Prop :=
  ∀ r, t.cur.x r = (if r = d ∧ d ≠ 0 then (if p then 0 else v) else s.cur.x r) ∧
       t.cur.px r = (if r = d ∧ d ≠ 0 then p else s.cur.px r)
/-- The hooks of the level in use stay. -/
def HooksKept (s t : State) : Prop := t.cur.bank.h = s.cur.bank.h ∧ t.cur.bank.ph = s.cur.bank.ph
/-- ldest names the destination, but for x0 (R235). -/
def LdestSet (s t : State) (d : BitVec 5) : Prop := t.cur.bank.ldest = if d = 0 then s.cur.bank.ldest else d
def LdestKept (s t : State) : Prop := t.cur.bank.ldest = s.cur.bank.ldest

/-- The issuing hart after one instruction of one slot that changes only its banks, its pc and its results in flight. -/
def hartAfter (s t : State) : Hart :=
  { s.cur with user := t.cur.user, sup := t.cur.sup, mach := t.cur.mach, pc := t.cur.pc, pend := t.cur.pend,
               slots := s.cur.slots + 1, csr := { s.cur.csr with instret := s.cur.csr.instret + 1 } }
/-- All that a scalar instruction leaves as it was: every other field of the hart, every byte of memory, every world, queue and
device register; one slot and one retired instruction are counted. -/
def ScalarFrame (s t : State) : Prop := t = { s with cur := hartAfter s t, ops := t.ops }

/-- Results in flight after register d has a younger value: those for other registers stay (R118). -/
def PendAfter (s t : State) (d : BitVec 5) : Prop :=
  (∀ q ∈ s.cur.pend, q.dest.isX s.cur.level d = false → q ∈ t.cur.pend) ∧
  (∀ q ∈ t.cur.pend, q ∈ s.cur.pend ∨ q.dest = .none) ∧
  ((∀ q ∈ s.cur.pend, q.seq < s.issues) → ∀ q ∈ t.cur.pend, q.dest.isX s.cur.level d = false)

/-- A scalar result of latency 1 (R118, R243, R244). -/
def AluDone (s : State) (d : BitVec 5) (v : Word) (p : Bool) (t : State) : Prop :=
  ScalarFrame s t ∧ OtherBanks s t ∧ XSet s t d v p ∧ HooksKept s t ∧ LdestSet s t d ∧ Sequel s t ∧ PendAfter s t d ∧
  t.ops = (s.supersede s.cur.core s.cur.ctx s.cur.level d s.issues).ops

/-- A fixed-latency result in flight. -/
def pendOf (s : State) (lat : Nat) (d : Dest) (hook : BitVec 4) : Pend :=
  { seq := s.issues, land := s.cur.slots + lat, dest := d, lvl := s.cur.level, hook }
/-- A scalar result of a latency above 1, with its flags (R51, R118, R243): it is in flight, and no register has changed yet. -/
def LateDone (s : State) (lat : Nat) (d : BitVec 5) (v : Word) (p : Bool) (f : BitVec 5) (t : State) : Prop :=
  ScalarFrame s t ∧ OtherBanks s t ∧ XKept s t ∧ HooksKept s t ∧ LdestSet s t d ∧ Sequel s t ∧ t.ops = s.ops ∧
  t.cur.pend = s.cur.pend ++ (if d = 0 then [] else [pendOf s lat (.x s.cur.level d (if p then 0 else v) p) 0]) ++
    (if f = 0 then [] else [pendOf s lat (.flags f) 0])

/-- An operation that the issuing hart puts in flight. -/
def opOf (s : State) (hook : BitVec 4) (k : OpKind) (acq : Bool) (va : Word) (sys : Bool := false) : Op :=
  { id := s.nextOp, core := s.cur.core, ctx := s.cur.ctx, seq := s.issues, lvl := s.cur.level, hook, kind := k, acq, va,
    pc := s.cur.pc, ret := s.cur.csr.instret, sys }
/-- A scalar instruction that puts one operation in flight on top of u, the state once local order has let earlier accesses of the
hart be performed (u = s where nothing is to be ordered). -/
def Started (u : State) (d : BitVec 5) (o : Op) (t : State) : Prop :=
  t = { u with cur := hartAfter u t, ops := u.ops ++ [o], nextOp := u.nextOp + 1 } ∧
  OtherBanks u t ∧ XKept u t ∧ HooksKept u t ∧ LdestSet u t d ∧ Sequel u t ∧ t.cur.pend = u.cur.pend

/-- An outcome with one poison use counted where a register of a list is poisoned (R212). -/
def Counting (s : State) (rs : List (BitVec 5)) (P : State → Prop) (t : State) : Prop :=
  ∃ t0, P t0 ∧ t = if rs.any s.cur.px then t0.countPoison s.cur 1 else t0

/-- A control instruction that writes no register and goes on at a place of its own. -/
def Quiet (u t : State) : Prop :=
  ScalarFrame u t ∧ OtherBanks u t ∧ XKept u t ∧ HooksKept u t ∧ LdestKept u t ∧ t.cur.pend = u.cur.pend ∧ t.ops = u.ops
/-- The nest and the loop indices stay. -/
def NestKept (u t : State) : Prop := t.cur.bank.nest = u.cur.bank.nest ∧ t.cur.bank.lidx = u.cur.bank.lidx
/-- The address of the word that the pc names (R215). -/
def wordOf (pc : Word) : Word := pc &&& 0xFFFFFFFFFFFFFFFC#64

/-- A value of n bytes, sign- or zero-extended to a register (R247). -/
def extended (n : Nat) (signed : Bool) (bs : List Byte) : Word :=
  let v := BitVec.ofNat (8 * n) (ofBytes bs)
  if signed then v.signExtend 64 else v.setWidth 64
/-- The bytes of a register that a store of n bytes writes (R247). -/
def storedBytes (n : Nat) (v : Word) : List Byte := (List.range n).map fun i => v.extractLsb' (8 * i) 8

/-- A load from the TCM: its result and its post land in the third slot (R243, R404). -/
def TcmLoaded (u : State) (d : BitVec 5) (v : Word) (p : Bool) (hook : BitVec 4) (t : State) : Prop :=
  ScalarFrame u t ∧ OtherBanks u t ∧ XKept u t ∧ HooksKept u t ∧ LdestSet u t d ∧ Sequel u t ∧ t.ops = u.ops ∧
  t.cur.pend = u.cur.pend ++
    (if d = 0 then (if hook = 0 then [] else [pendOf u 3 .none hook]) else [pendOf u 3 (.x u.cur.level d (if p then 0 else v) p) hook])

/-- A place of this device's memory other than its registers. -/
def Near (t : Target) : Prop := t.isFar = false ∧ t.home ≠ .regs

/-- One hook takes a value and its poison; h0 keeps reading 0; nothing else changes (R10, R212, R252). -/
def HookSet (s t : State) (h : BitVec 4) (v : Half) (p : Bool) : Prop :=
  ScalarFrame s t ∧ OtherBanks s t ∧ XKept s t ∧ LdestKept s t ∧ t.cur.pend = s.cur.pend ∧ t.ops = s.ops ∧
  ∀ r, t.cur.hook r = (if r = h ∧ h ≠ 0 then v else s.cur.hook r) ∧ t.cur.ph r = if r = h ∧ h ≠ 0 then p else s.cur.ph r

/-! The scalar instructions by shape. -/

/-- Register forms of latency 1 (R244), with their results. -/
def intTable : List ((BitVec 5 → BitVec 5 → BitVec 5 → Instr) × (Word → Word → Word)) :=
  [(.add, fun a b => a + b), (.sub, fun a b => a - b), (.and, fun a b => a &&& b), (.or, fun a b => a ||| b),
   (.xor, fun a b => a ^^^ b), (.shl, fun a b => a <<< (b.toNat % 64)), (.shr, fun a b => a >>> (b.toNat % 64)),
   (.sra, fun a b => a.sshiftRight (b.toNat % 64)), (.slt, fun a b => if a.toInt < b.toInt then 1 else 0),
   (.sltu, fun a b => if a.toNat < b.toNat then 1 else 0), (.min, fun a b => if a.toInt < b.toInt then a else b),
   (.max, fun a b => if a.toInt < b.toInt then b else a), (.minu, fun a b => if a.toNat < b.toNat then a else b),
   (.maxu, fun a b => if a.toNat < b.toNat then b else a)]
/-- Products, with their results (R41, R244). -/
def mulTable : List ((BitVec 5 → BitVec 5 → BitVec 5 → Instr) × (Word → Word → Word)) :=
  [(.mul, fun a b => BitVec.ofNat 64 (a.toNat * b.toNat)), (.mulh, fun a b => BitVec.ofInt 64 (a.toInt * b.toInt / 2 ^ 64)),
   (.mulhu, fun a b => BitVec.ofNat 64 (a.toNat * b.toNat / 2 ^ 64))]
/-- Divisions, with their results: a zero divisor and the most negative dividend by -1 as R41 says. -/
def divTable : List ((BitVec 5 → BitVec 5 → BitVec 5 → BitVec 4 → Instr) × (Word → Word → Word)) :=
  [(.div, fun a b => if b = 0 then BitVec.allOnes 64 else if a.toInt = -(2 ^ 63) ∧ b.toInt = -1 then a
      else BitVec.ofInt 64 (a.toInt.tdiv b.toInt)),
   (.divu, fun a b => if b = 0 then BitVec.allOnes 64 else BitVec.ofNat 64 (a.toNat / b.toNat)),
   (.rem, fun a b => if b = 0 then a else if a.toInt = -(2 ^ 63) ∧ b.toInt = -1 then 0 else BitVec.ofInt 64 (a.toInt.tmod b.toInt)),
   (.remu, fun a b => if b = 0 then a else BitVec.ofNat 64 (a.toNat % b.toNat))]
/-- One-source forms (R244): counts of bits and the bytes in reverse order. -/
def bitTable : List ((BitVec 5 → BitVec 5 → Instr) × (Word → Word)) :=
  [(.clz, fun a => BitVec.ofNat 64 ((List.range 64).takeWhile fun i => !a.getLsbD (63 - i)).length),
   (.ctz, fun a => BitVec.ofNat 64 ((List.range 64).takeWhile fun i => !a.getLsbD i).length),
   (.popc, fun a => BitVec.ofNat 64 ((List.range 64).countP a.getLsbD)),
   (.bswap, fun a => a.extractLsb' 0 8 ++ a.extractLsb' 8 8 ++ a.extractLsb' 16 8 ++ a.extractLsb' 24 8 ++
      a.extractLsb' 32 8 ++ a.extractLsb' 40 8 ++ a.extractLsb' 48 8 ++ a.extractLsb' 56 8)]
/-- Immediate forms with a 16-bit immediate (R221, R246). -/
def immTable : List ((BitVec 5 → BitVec 5 → BitVec 16 → Instr) × (Word → BitVec 16 → Word)) :=
  [(.addi, fun a i => a + i.signExtend 64), (.andi, fun a i => a &&& i.signExtend 64), (.ori, fun a i => a ||| i.setWidth 64),
   (.xori, fun a i => a ^^^ i.setWidth 64), (.slti, fun a i => if a.toInt < (i.signExtend 64).toInt then 1 else 0),
   (.sltiu, fun a i => if a.toNat < (i.signExtend 64).toNat then 1 else 0)]
/-- Shifts by an immediate (R246). -/
def shiftTable : List ((BitVec 5 → BitVec 5 → BitVec 6 → Instr) × (Word → Nat → Word)) :=
  [(.shli, fun a n => a <<< n), (.shri, fun a n => a >>> n), (.srai, fun a n => a.sshiftRight n)]

/-- Compact forms with a register, X[L] first (R237). -/
noncomputable def compactTable : List ((BitVec 5 → BitVec 5 → Instr) × (Word → Word → Word)) :=
  [(.cAdd, fun a b => a + b), (.cSub, fun a b => a - b), (.cAnd, fun a b => a &&& b), (.cOr, fun a b => a ||| b),
   (.cXor, fun a b => a ^^^ b), (.cShl, fun a b => a <<< (b.toNat % 64)), (.cShr, fun a b => a >>> (b.toNat % 64)),
   (.cSra, fun a b => a.sshiftRight (b.toNat % 64)), (.cSlt, fun a b => if a.toInt < b.toInt then 1 else 0),
   (.cSltu, fun a b => if a.toNat < b.toNat then 1 else 0), (.cMin, fun a b => if a.toInt < b.toInt then a else b),
   (.cMax, fun a b => if a.toInt < b.toInt then b else a), (.cMinu, fun a b => if a.toNat < b.toNat then a else b),
   (.cMaxu, fun a b => if a.toNat < b.toNat then b else a)]
/-- Compact forms with a 5-bit immediate (R237). -/
noncomputable def compactImmTable : List ((BitVec 5 → BitVec 5 → Instr) × (Word → BitVec 5 → Word)) :=
  [(.cAddi, fun a i => a + i.signExtend 64), (.cAndi, fun a i => a &&& i.signExtend 64), (.cShli, fun a i => a <<< i.toNat),
   (.cShri, fun a i => a >>> i.toNat), (.cSrai, fun a i => a.sshiftRight i.toNat),
   (.cSlti, fun a i => if a.toInt < (i.signExtend 64).toInt then 1 else 0)]
/-- Compact products (R237). -/
noncomputable def compactMulTable : List ((BitVec 5 → BitVec 5 → Instr) × (Word → Word → Word)) :=
  [(.cMul, fun a b => BitVec.ofNat 64 (a.toNat * b.toNat)), (.cMulhu, fun a b => BitVec.ofNat 64 (a.toNat * b.toNat / 2 ^ 64))]

/-- Loads by their size and extension (R247). -/
def loadTable : List ((BitVec 5 → BitVec 5 → BitVec 4 → BitVec 9 → Instr) × Nat × Bool) :=
  [(.ldB, 1, true), (.ldH, 2, true), (.ldW, 4, true), (.ldD, 8, true), (.ldBu, 1, false), (.ldHu, 2, false), (.ldWu, 4, false)]
/-- Stores by their size (R247). -/
def storeTable : List ((BitVec 5 → BitVec 5 → BitVec 4 → BitVec 9 → Instr) × Nat) := [(.stB, 1), (.stH, 2), (.stW, 4), (.stD, 8)]
/-- Read-modify-writes by their operation (R248). -/
def amoTable : List ((BitVec 5 → BitVec 5 → BitVec 5 → BitVec 4 → BitVec 3 → Instr) × AmoOp) :=
  [(.amoAdd, .add), (.amoAnd, .and), (.amoOr, .or), (.amoXor, .xor), (.amoMin, .min), (.amoMax, .max), (.amoMinu, .minu),
   (.amoMaxu, .maxu), (.amoSwap, .swap), (.cas, .cas)]
/-- What a read-modify-write leaves in memory (R248). -/
def amoResult : AmoOp → Word → Word → Word → Word
  | .add, old, b, _ => old + b
  | .and, old, b, _ => old &&& b
  | .or, old, b, _ => old ||| b
  | .xor, old, b, _ => old ^^^ b
  | .min, old, b, _ => if old.toInt < b.toInt then old else b
  | .max, old, b, _ => if old.toInt < b.toInt then b else old
  | .minu, old, b, _ => if old.toNat < b.toNat then old else b
  | .maxu, old, b, _ => if old.toNat < b.toNat then b else old
  | .swap, _, b, _ => b
  | .cas, old, b, c => if old = c then b else old
/-- Branches by their condition (R249). -/
def branchTable : List ((BitVec 5 → BitVec 5 → BitVec 16 → Instr) × (Word → Word → Prop)) :=
  [(.beq, fun a b => a = b), (.bne, fun a b => a ≠ b), (.blt, fun a b => a.toInt < b.toInt), (.bge, fun a b => b.toInt ≤ a.toInt),
   (.bltu, fun a b => a.toNat < b.toNat), (.bgeu, fun a b => b.toNat ≤ a.toNat)]

/-- Rounding forms with three register fields (R260): the operation on the values of X[D], X[A], X[B], the instruction, and whether
X[D] is a source. -/
noncomputable def fpTable : List ((Fmt → Rm → Fp → Fp → Fp → Nat × Flags) × (BitVec 5 → BitVec 5 → BitVec 5 → BitVec 2 → Instr) × Bool) :=
  [(fun f m _ a b => f.add m false a b, .fadd, false), (fun f m _ a b => f.add m false a b.negate, .fsub, false),
   (fun f m _ a b => f.mul m false a b, .fmul, false), (fun f m d a b => f.fma m false d a b, .fma, true)]
/-- Compact forms that round, in FP64 and with X[L] as the source A (R237): the operation on the values of X[a], X[L], X[b], and whether X[a]
is a source. -/
noncomputable def compactFpTable : List ((Fmt → Rm → Fp → Fp → Fp → Nat × Flags) × (BitVec 5 → BitVec 5 → Instr) × Bool) :=
  [(fun f m _ a b => f.add m false a b, .cFaddD, false), (fun f m _ a b => f.add m false a b.negate, .cFsubD, false),
   (fun f m _ a b => f.mul m false a b, .cFmulD, false), (fun f m d a b => f.fma m false d a b, .cFmaD, true)]
/-- Comparisons (R53, R260). -/
noncomputable def fpCmpTable : List ((BitVec 5 → BitVec 5 → BitVec 5 → BitVec 2 → Instr) × Cond) :=
  [(.fcmpEq, .eq), (.fcmpNe, .ne), (.fcmpLt, .lt), (.fcmpLe, .le), (.fcmpGt, .gt), (.fcmpGe, .ge)]
/-- The result of a conversion to a format from the source that a code of R260 names. -/
def cvtResult (g : Fmt) (m : Rm) (code : BitVec 5) (v : Word) : Nat × Flags :=
  if code = 4 then g.ofInt m false (v.setWidth 32).toInt
  else if code = 5 then g.ofInt m false v.toInt
  else let f := fmtOf (code.setWidth 2); g.convert m false (f.read (v.toNat % 2 ^ f.width))
/-- Conversions whose every source value is a value of the destination: to FP64 from FP32, FP16, BF16 and i32, to FP32 from FP16 and
BF16 (R42, R46). -/
def cvtAlwaysExact (fmt : BitVec 2) (code : BitVec 5) : Prop :=
  (fmt = 0 ∧ (code = 1 ∨ code = 2 ∨ code = 3 ∨ code = 4)) ∨ (fmt = 1 ∧ (code = 2 ∨ code = 3))

/-! Scalar accesses. -/

/-- A load from the hart's TCM slice, aligned and wholly inside it, completes with its result in flight (R20, R243, R247). -/
def TcmLoadRuns (i : Instr) (s : State) (d a : BitVec 5) (va : Word) (n : Nat) (signed : Bool) (hook : BitVec 4) : Prop :=
  Waited s [a] → va.toNat % n = 0 → s.cur.tcmSize ≤ 0x40000 → 0x100000 ≤ va.toNat → va.toNat + n ≤ 0x100000 + s.cur.tcmSize →
  let key := 2 ^ 48 + s.cur.core * 2 ^ 18 + (s.cur.tcmOff + (va.toNat - 0x100000))
  let u := s.drainFor key n
  Completes i s (Counting s [a] (TcmLoaded u d (extended n signed (u.mem.readBytes key n)) (u.mem.anyPoison key n) hook))
/-- A hooked load from another place of this device is an operation in flight (R247); one of a world's obhead is an acquire (R372). -/
def LoadStarts (i : Instr) (s : State) (d a : BitVec 5) (va : Word) (n : Nat) (signed : Bool) (hook : BitVec 4) : Prop :=
  ∀ t, Waited s [a] → va.toNat % n = 0 → hook ≠ 0 → translate s s.cur s.cur.level va n .load true = .ok t → t.isFar = false →
  t.home ≠ .tcm → s.rekeying t = false →
  let u := (s.touch s.cur.world va.toNat).drainFor t.key n (t.home == .host)
  Completes i s (Counting s [a] (Started u d
    (opOf u hook (.load t n signed { lvl := s.cur.level, r := d, live := d != 0 }) t.obhead va t.obhead)))
/-- A read of another device asks for its units' states in element mode, then for its data, and holds the hart until the answers have
come (log 70); then it retires, its result in flight, or traps on what the answers say (R143, R147, R178, R198). -/
def FarReadRuns (i : Instr) (s : State) (d a : BitVec 5) (va : Word) (n : Nat) (signed : Bool) (hook : BitVec 4) : Prop :=
  ∀ t, Waited s [a] → va.toNat % n = 0 → translate s s.cur s.cur.level va n .load true = .ok t → t.isFar = true →
  let u := (s.touch s.cur.world va.toNat).drainSys
  (∀ q m, u.farNeed s.cur t n true false = some (q, m) → exec i s = .next ((u.ask s.cur t q m).holdOn .far)) ∧
  (u.farNeed s.cur t n true false = none → u.asking s.cur = true → exec i s = .next (u.holdOn .far)) ∧
  (∀ e, u.farNeed s.cur t n true false = none → u.asking s.cur = false → u.farRead s.cur t n .load va = .error e →
    exec i s = .next (s.takeTrap e)) ∧
  (∀ bs, u.farNeed s.cur t n true false = none → u.asking s.cur = false → u.farRead s.cur t n .load va = .ok bs →
    let v := u.dropAsks s.cur
    Completes i s (Counting s [a] (Started v d
      (opOf v hook (.arrived (loadValue n signed bs) { lvl := s.cur.level, r := d, live := d != 0 }) false va))))
/-- A hooked load from another device is such a read. -/
def FarLoadRuns (i : Instr) (s : State) (d a : BitVec 5) (va : Word) (n : Nat) (signed : Bool) (hook : BitVec 4) : Prop :=
  hook ≠ 0 → FarReadRuns i s d a va n signed hook
/-- The checks of a load in their order (R193, R197, R247): UNHOOKED, ALIGN, translation. -/
def LoadChecks (i : Instr) (s : State) (a : BitVec 5) (va : Word) (n : Nat) (hook : BitVec 4) : Prop :=
  Waited s [a] →
  let outside := ¬ (0x100000 ≤ va.toNat ∧ va.toNat < 0x100000 + s.cur.tcmSize)
  (hook = 0 → outside → exec i s = .next (s.takeTrap { code := 0x07, detail := va })) ∧
  (hook ≠ 0 ∨ ¬ outside → va.toNat % n ≠ 0 → exec i s = .next (s.takeTrap { code := 0x03, detail := va })) ∧
  (∀ e, hook ≠ 0 ∨ ¬ outside → va.toNat % n = 0 → translate s s.cur s.cur.level va n .load true = .error e →
    exec i s = .next (s.takeTrap e))
/-- A store to a place of this device is an operation in flight (R176, R247). -/
def StoreStarts (i : Instr) (s : State) (d a : BitVec 5) (va : Word) (n : Nat) (hook : BitVec 4) : Prop :=
  ∀ t v, Waited s [a, d] → va.toNat % n = 0 → translate s s.cur s.cur.level va n .store true = .ok t → t.isFar = false →
  s.rekeying t = false → claimTarget (s.touch s.cur.world va.toNat) t n = .ok v →
  let u := v.drainFor t.key n
  Completes i s (Counting s [a] (Started u 0
    (opOf u hook (.store { target := t, data := storedBytes n (s.cur.x d), poison := s.cur.px d }) false va)))
/-- A store of n bytes of register d to another device, on top of u, the state once earlier accesses that it must follow have been
performed. In element mode it first claims its units (R178) and holds the hart until the answer has come (log 70). Then its bytes, encrypted
in element mode, go out as one write, and it is in flight until its acknowledgement (R88, R143, R145); a poisoned value is dropped and
counted, and the hook is posted at once (R212). -/
def FarStoreRuns (i : Instr) (s u : State) (d a : BitVec 5) (va : Word) (n : Nat) (hook : BitVec 4) : Prop :=
  ∀ t, Waited s [a, d] → va.toNat % n = 0 → translate s s.cur s.cur.level va n .store true = .ok t → t.isFar = true →
  let v := u.touch u.cur.world va.toNat
  (∀ q m, u.farNeed u.cur t n false true = some (q, m) → exec i s = .next ((v.ask u.cur t q m).holdOn .far)) ∧
  (u.farNeed u.cur t n false true = none → u.asking u.cur = true → exec i s = .next (v.holdOn .far)) ∧
  (∀ e, u.farNeed u.cur t n false true = none → u.asking u.cur = false → u.farClaims u.cur t n true .store va = .error e →
    exec i s = .next (s.takeTrap e)) ∧
  (∀ us, u.farNeed u.cur t n false true = none → u.asking u.cur = false → u.farClaims u.cur t n true .store va = .ok us →
    let x := (v.dropAsks u.cur).drainAcq
    let sent := if t.enc = 2 then (storedBytes n (s.cur.x d)).zipIdx.map (fun (b, i) => b ^^^ farStream u.cur.world t us i)
      else storedBytes n (s.cur.x d)
    let y := x.send t.dev (.wr { seq := 0, tag := { world := u.cur.world.toNat, lworld := t.lworld, enc := t.enc }, addr := t.key, data := sent })
    let z := x.modWorld u.cur.world.toNat fun w => { w with elink := w.elink + 1, eunc := w.eunc + 1 }
    (s.cur.px d = false →
      Completes i s (Counting s [a] (Started y 0 (opOf y hook (.farStore [(t.dev, (x.peer t.dev).sendSeq)] va) false va)))) ∧
    (s.cur.px d = true → Completes i s (Counting s [a] fun r =>
      HookSet z r hook (if z.cur.ph hook then 0 else z.cur.hook hook + 1) (z.cur.ph hook) ∧ Sequel z r)))
/-- The checks of a store in their order (R193, R197, R247): ALIGN, translation, a unit that is already written. -/
def StoreChecks (i : Instr) (s : State) (d a : BitVec 5) (va : Word) (n : Nat) : Prop :=
  Waited s [a, d] →
  (va.toNat % n ≠ 0 → exec i s = .next (s.takeTrap { code := 0x03, store := true, detail := va })) ∧
  (∀ e, va.toNat % n = 0 → translate s s.cur s.cur.level va n .store true = .error e → exec i s = .next (s.takeTrap e)) ∧
  (∀ t k, va.toNat % n = 0 → translate s s.cur s.cur.level va n .store true = .ok t → t.isFar = false → s.rekeying t = false →
    claimTarget (s.touch s.cur.world va.toNat) t n = .error k →
    exec i s = .next (s.takeTrap { code := 0x09, store := true, detail := va + BitVec.ofNat 64 k }))
/-- Nothing that an access at scope sys must wait for is outstanding (R74, R147). -/
def SysClear (s : State) (sc : BitVec 3) : Prop := sc = 5 → s.cur.lateAck = [] ∧ s.unacked = false

/-! Operations that end. -/

/-- A delivered scalar result: it lands as the result of its instruction, unless a younger one stands there (R118). -/
def landed (o : Op) (x : Option (XDest × Word × Bool)) (h : Hart) : Hart :=
  match x with
  | some (d, v, p) =>
    if d.live then h.landPend { seq := o.seq, land := 0, dest := .x d.lvl d.r (if p then 0 else v) p, lvl := d.lvl, hook := 0 } else h
  | none => h
/-- The operations in flight that are left when one ends with a result: older results for its register are superseded (R118). -/
def opsAfter (s : State) (o : Op) (x : Option (XDest × Word × Bool)) : List Op :=
  (match x with
    | some (d, _, _) => if d.live then (s.supersede o.core o.ctx d.lvl d.r o.seq).ops else s.ops
    | none => s.ops).filter fun q => q.id != o.id
/-- An operation ends on top of u: its hart takes a change g, the result and the post of its hook; the other harts stay (R199). -/
def Ended (u : State) (o : Op) (x : Option (XDest × Word × Bool)) (g : Hart → Hart) (r : State) : Prop :=
  (∀ h, u.hartAt o.core o.ctx = some h → r.hartAt o.core o.ctx = some ((landed o x (g h)).post o.lvl o.hook)) ∧
  (∀ c k, ¬(c = o.core ∧ k = o.ctx) → r.hartAt c k = u.hartAt c k) ∧
  r.ops = opsAfter u o x ∧ r = { u with cur := r.cur, others := r.others, ops := r.ops }

/-- The word of memory at k is touched by n bytes at key. -/
def Touches (key n k : Nat) : Prop := ∃ j, j < n ∧ (key + j) / 8 = k / 8
/-- What a write of bytes at a place leaves in memory: the bytes at the place, encrypted in element mode, and every other byte as it
was; a poisoned write leaves its words poisoned, reading 0; a clean one cleans them (R175, R211, R212). Of the instruction words it
replaces, caches may keep the old ones (R216). -/
def StoredAt (s : State) (w : BitVec 6) (t : Target) (data : List Byte) (poison : Bool) (m : Memory) : Prop :=
  let byte (j : Nat) : Byte := if t.enc = 2 then data.getD j 0 ^^^ elemStream w.toNat t.nonce t.gen (s.device * 2 ^ 47 + t.key + j)
    else data.getD j 0
  (poison = false → ∀ k, m.read k = if t.key ≤ k ∧ k < t.key + data.length then byte (k - t.key) else s.mem.read k) ∧
  (poison = true → ∀ k, (Touches t.key data.length k → m.read k = 0 ∧ m.poisoned k = true) ∧
    (¬Touches t.key data.length k → m.read k = s.mem.read k)) ∧
  (∀ k, (¬Touches t.key data.length k → m.poisoned k = s.mem.poisoned k) ∧
    (poison = false → Touches t.key data.length k → m.poisoned k = false)) ∧
  m = { s.mem with bytes := m.bytes, poison := m.poison, granules := m.granules, olds := m.olds } ∧
  m.granules = (if t.home matches .stack _ then (s.mem.setMeas t.key false).granules else s.mem.granules) ∧
  ∃ l, m.olds = l ++ s.mem.olds ∧ ∀ e ∈ l, e.stamp = s.clock ∧ t.key ≤ e.key + 3 ∧ e.key < t.key + data.length
/-- Fences with a scope, with the accesses that each performs (R74). -/
def fenceTable : List ((BitVec 3 → Instr) × (OpKind → Bool)) :=
  [(.fenceAcq, OpKind.isRead), (.fenceRel, OpKind.isAccess), (.fenceFull, OpKind.isAccess), (.fenceIo, OpKind.isAccess)]

/-! Control. -/

/-- The nest once a taken branch from one place to another has left the bodies that hold the first and not the second, innermost
first (R256). -/
def leftNest (src dst : Word) (nest : List LoopEntry) : List LoopEntry :=
  nest.dropWhile fun e => decide (e.start.toNat ≤ (wordOf src).toNat ∧ (wordOf src).toNat < e.stop.toNat ∧
    ¬(e.start.toNat ≤ dst.toNat ∧ dst.toNat < e.stop.toNat))
/-- A jump with a link register: the register takes the address of the next word; x0 makes it a branch (R249, R256). -/
def JumpDone (s : State) (d : BitVec 5) (target : Word) (t : State) : Prop :=
  ScalarFrame s t ∧ OtherBanks s t ∧ XSet s t d (wordOf s.cur.pc + 4) false ∧ HooksKept s t ∧ LdestSet s t d ∧ PendAfter s t d ∧
  t.ops = (s.supersede s.cur.core s.cur.ctx s.cur.level d s.issues).ops ∧ t.cur.pc = target ∧ t.cur.bank.lidx = s.cur.bank.lidx ∧
  t.cur.bank.nest = if d = 0 then leftNest s.cur.pc target s.cur.bank.nest else s.cur.bank.nest
/-- The bits of vtype that are no res bits: all but 25 to 27 of the low 32 (R5, R275). -/
def vtypeBits : Word := 0xF1FFFFFF
/-- CSRs that are whole fields of the hart, with their value and the write of a new one (R269, R271). -/
def csrFieldTable : List (Nat × (Csrs → Word) × (Csrs → Word → Csrs)) :=
  [(0x000, (·.fcsr), fun c v => { c with fcsr := v &&& 0xFF }), (0x003, (·.vstart), fun c v => { c with vstart := v }),
   (0x006, (·.srseed), fun c v => { c with srseed := v }), (0x007, (·.srdraw), fun c v => { c with srdraw := v }),
   (0x008, (·.ctfloor), fun c v => { c with ctfloor := v &&& 0xFFFF }), (0x00A, (·.brstep), fun c v => { c with brstep := v }),
   (0x105, (·.hvl), fun c v => { c with hvl := v }), (0x106, (·.hvtype), fun c v => { c with hvtype := v &&& vtypeBits }),
   (0x107, (·.hvstart), fun c v => { c with hvstart := v }), (0x108, (·.srvec), fun c v => { c with srvec := v &&& ~~~3 }),
   (0x109, (·.sresume), fun c v => { c with sresume := v }), (0x10A, (·.stimecmp), fun c v => { c with stimecmp := v })]
/-- The three forms of a CSR write: the new value from the old one and the source, and whether the old one counts (R264). -/
def csrFormTable : List (((BitVec 5 → BitVec 12 → Instr) × (Word → Word → Word)) × Bool) :=
  [((.csrw, fun _ v => v), false), ((.csrs, fun o v => o ||| v), true), ((.csrc, fun o v => o &&& ~~~v), true)]
/-- A status register's bits (R195): pie 3, ie 4, pl 5 and 6, inh 7, strict 8, vlost 9, held 10, nest 11. -/
def statusWord (c : TrapCsrs) (x : Csrs) (strict : Bool) : Word :=
  BitVec.ofNat 64 (8 * c.pie.toNat + 16 * c.ie.toNat + 32 * (match c.pl with | .user => 0 | .supervisor => 1 | .machine => 3) +
    128 * c.inh.toNat + 256 * strict.toNat + 512 * x.vlost.toNat + 1024 * x.held.toNat + 2048 * c.nest.toNat)

end Sys2Proof.Claims
end

