-- ==== Sys2Proof/ClaimsUnits.lean ====
section
/-! DEFINITION. The words in which the statements about engines, sleeves, tailoring, ciphertexts and device events are made. -/
namespace Sys2Proof.Claims
open Sys2Proof.Machine

/-- No fault of a channel waits to be reported (R199). -/
def Clear (s : State) (c : Chan) : Prop := ∀ f ∈ s.cur.faults, f.chan ≠ c
/-- A channel has room for one more command (R12). -/
def Room (s : State) (c : Chan) : Prop := (s.chanOps s.cur.core s.cur.ctx c).length < 16
/-- n bytes lie in the hart's TCM slice (R20). -/
def InSlice (s : State) (a : Word) (n : Nat) : Prop := 0x100000 ≤ a.toNat ∧ a.toNat + n ≤ 0x100000 + s.cur.tcmSize
/-- A command is in flight at the end of its channel, on top of the state in which the hart's earlier accesses have been performed
(R78). -/
def Pushed (s : State) (hook : BitVec 4) (k : OpKind) (t : State) (va : Word := 0) (sys : Bool := false) : Prop :=
  Started (s.drainAll sys) 0 (opOf (s.drainAll sys) hook k false va) t

/-- What a ciphertext operation needs besides its operand checks (R347): capacity, allowance, regions that translate, no rekey,
units to write. -/
def CtReady (s : State) (d : BitVec 5) (p : CtPlan) (srcs : List Region) (dst : Region) (table key : Option Region) (v : State) : Prop :=
  let words := (s.prof p.prof).words p.kind p.limbs
  8 * words ≤ 64 * dCap (s.cReg d) ∧ p.low = false ∧ ((s.cur.csr.ctfloor.toNat % 2 ^ 16 : Nat) : Int) ≤ p.allow ∧
  (p.srcs.map fun r => s.ctRegion (dBase (s.cReg r)) (8 * p.len) .load) = srcs.map .ok ∧
  s.ctRegion (dBase (s.cReg d)) (8 * words) .store = .ok dst ∧
  (match p.table, table with | none, none => True | some x, some r => s.ctRegion x.1 x.2 .load = .ok r | _, _ => False) ∧
  (match p.key, key with | none, none => True | some x, some r => s.ctRegion x.1 x.2 .load = .ok r | _, _ => False) ∧
  (∀ r ∈ srcs ++ [dst] ++ table.toList ++ key.toList, s.ctRekeying r = false) ∧ s.ctClaims dst = .ok v
/-- A ciphertext operation is in flight on top of the state v in which its units are claimed (R66, R347): its destination's new
descriptor stands in the register; its work holds its regions, its poison, and among the operations it follows every earlier one of the
hart that writes its source registers or their regions. -/
def CtIssued (s : State) (d : BitVec 5) (h : BitVec 4) (p : CtPlan) (srcs : List Region) (dst : Region) (table key : Option Region) (v t : State) : Prop :=
  let old := s.cReg d
  let u := ((srcs ++ [dst] ++ table.toList ++ key.toList).foldl State.ctTouch v).useProfiles p.used
  let u := { u with cur := { u.cur with csr := { u.cur.csr with brstep := p.step.getD u.cur.csr.brstep } } }
  let w := u.drainAll false
  ∃ k : CtWork, k.op = p.op ∧ k.src.map (·.1) = srcs ∧ k.dst = dst ∧ k.table = table ∧ k.key = key ∧ k.cd = d ∧
    k.desc = mkDesc (dBase old) (dGen old + 1) (BitVec.ofInt 16 p.allow) (BitVec.ofInt 16 p.scale) p.limbs p.prof p.kind false
      (BitVec.ofNat 26 (dCap old)) ∧
    k.poison = (p.pois || p.srcs.any fun r => dPois (s.cReg r)) ∧
    (∀ o ∈ s.ops, ∀ q, o.core = s.cur.core → o.ctx = s.cur.ctx → o.kind = .ct q →
      (q.cd ∈ p.srcs ∨ ∃ r ∈ srcs ++ table.toList ++ key.toList, r.meets q.dst = true) → o.id ∈ k.after) ∧
    t = { w.writeC d k.desc with
      ops := (w.writeC d k.desc).ops ++ [opOf (w.writeC d k.desc) h (.ct k) false (dBase old)],
      nextOp := (w.writeC d k.desc).nextOp + 1 }
/-- The plan of an operation that reads no key and no table. -/
def plainPlan (op : CtOp) (srcs : List (BitVec 5)) (len kind limbs prof : Nat) (scale allow : Int) : CtPlan :=
  { op, srcs, len, kind, limbs, prof, scale, allow, key := none, table := none, pois := false, low := false, step := none, acc := none,
    used := [prof] }
/-- The operand is a ciphertext of an installed profile (R345, R347). -/
def CtSource (s : State) (a : BitVec 5) : Prop := dKind (s.cReg a) ≠ 0 ∧ (s.prof (dProf (s.cReg a))).installed = true
/-- STRICT lets the ciphertext, key and table operands pass (R119). -/
def CtWaited (s : State) (l : List (Dest × Nat)) : Prop :=
  s.cur.strap.strict = true → ∀ d ∈ l, ∀ p ∈ s.cur.pend, p.dest.same d.1 = false
/-- An instruction is issued as its plan says, into the ciphertext channel. -/
def CtRuns (i : Instr) (s : State) (xs : List (BitVec 5)) (d : BitVec 5) (h : BitVec 4) (p : CtPlan) : Prop :=
  ∀ srcs dst table key v, CtReady s d p srcs dst table key v → Room s .cipher →
    Completes i s fun t => ∃ u, CtIssued s d h p srcs dst table key v u ∧
      t = if xs.any s.cur.px then u.retire.countPoison s.cur 1 else u.retire

end Sys2Proof.Claims
end

