-- ==== Sys2Proof/ClaimsCipher.lean ====
section
/-! DEFINITION. The words in which the statements say what ciphertext operations write (R354 to R367): exact integers, residues of them. -/
namespace Sys2Proof.Claims
open Sys2Proof.Machine

/-- The sum of f below n. -/
def sumTo (n : Nat) (f : Nat → Int) : Int := ((List.range n).map f).sum
/-- A word of data; 0 past its end. -/
def wordAt (l : List Nat) (i : Nat) : Int := (l.getD i 0 : Nat)
/-- A list holds n residues: word i that of v i modulo q i. -/
def Residues (l : List Nat) (n : Nat) (q : Nat → Nat) (v : Nat → Int) : Prop := l.length = n ∧ ∀ i < n, wordAt l i = v i % (q i : Int)
/-- Coefficient i of P·R modulo X^n + 1. -/
def negacyclic (n : Nat) (p r : Nat → Int) (i : Nat) : Int :=
  sumTo n fun k => if k ≤ i then p k * r (i - k) else -(p k * r (n + i - k))
/-- Coefficient i of X^c·P modulo X^n + 1. -/
def rotated (n c : Nat) (p : Nat → Int) (i : Nat) : Int :=
  let j := (i + 2 * n - c % (2 * n)) % (2 * n)
  if j < n then p j else -p (j - n)
/-- The representative of x modulo q in (-q/2, q/2]. -/
def centredIn (q : Nat) (x : Int) : Int := if 2 * (x % q) ≤ q then x % q else x % q - q
/-- floor(w·d/s + 1/2) modulo d. -/
def rescaled (s d : Nat) (w : Int) : Int := (2 * w * d + s) / (2 * s) % d
/-- Digits 1 to ell of the residues modulo q are the signed digits of R62. -/
def Splits (q beta ell : Nat) (dig : Int → Nat → Int) : Prop :=
  ∀ x : Nat, x < q →
    (∀ u, 1 ≤ u → u ≤ ell → -(2 ^ beta / 2) ≤ dig x u ∧ dig x u < 2 ^ beta / 2) ∧
    ((List.range ell).foldl (fun (acc : Int) u => acc * 2 ^ beta + dig x (u + 1)) 0) % (2 ^ (beta * ell) : Nat) =
      (x * 2 ^ (beta * ell) + q / 2) / q % 2 ^ (beta * ell)
/-- Digit u of a value modulo q: the signed digit, or, where beta is 0, the centred residue (R356). -/
def digitOf (q beta : Nat) (dig : Int → Nat → Int) (x : Int) (u : Nat) : Int := if beta = 0 then centredIn q x else dig (x % q) (u + 1)
/-- Coefficient i of limb j of the A half (R361: regenerated where the key is a pattern, its numbering log 19) and of the B half of row `row` of
a key over the moduli qs. -/
def rowA (qs : List Nat) (n keyid : Nat) (pat : Bool) (key : List Nat) (row pos j i : Nat) : Int :=
  if pat then wordAt (expandPoly keyid pos j (qs.getD j 1) n) i else wordAt key ((row * qs.length + j) * (2 * n) + i)
def rowB (qs : List Nat) (n : Nat) (pat : Bool) (key : List Nat) (row j i : Nat) : Int :=
  if pat then wordAt key ((row * qs.length + j) * n + i) else wordAt key ((row * qs.length + j) * (2 * n) + n + i)

/-- `ct.mulp`: each half times the plaintext; one whose centred coefficients sum to more than the stated bound breaks it (R355). -/
def MulpWrites (qs : List Nat) (n bound : Nat) : Prop := ∀ x key table : List Nat, (∀ q ∈ qs, 0 < q) →
  let r := (CtOp.mulp qs n bound).run [x] key table
  Residues r.1 (2 * n * qs.length) (fun i => qs.getD (i / (2 * n)) 1) (fun i =>
    negacyclic n (fun k => wordAt x (i / n * n + k)) (fun k => wordAt table (n * (i / (2 * n)) + k)) (i % n)) ∧
  (r.2 = true ↔ (bound : Int) < sumTo n fun k => (centredIn (qs.getD 0 1) (wordAt table k)).natAbs)

/-- `ct.ksw` on LWE (R356, R357): b and 0 less the rows times the digits, at the source's modulus, then every word rescaled. -/
def KswLweWrites (qs qd ns nd beta ell keyid : Nat) (pat : Bool) : Prop := ∀ x key table : List Nat,
  0 < qs → (beta = 0 → ell = 1) → (pat = false → ns * ell * (nd + 1) ≤ key.length) →
  (pat = true → ∀ r < ns * ell, (expandRow keyid r 0 qs nd).length = nd) → ∃ dig, (beta ≠ 0 → Splits qs beta ell dig) ∧
  let row (r i : Nat) : Int := if pat then (if i = nd then wordAt key r else wordAt (expandRow keyid r 0 qs nd) i) else wordAt key (r * (nd + 1) + i)
  let v (i : Nat) : Int := (if i = nd then wordAt x ns else 0) -
    sumTo ns fun t => sumTo ell fun u => digitOf qs beta dig (wordAt x t) u * row (t * ell + u) i
  let r := ((CtOp.kswLwe qs qd ns nd beta ell keyid pat).run [x] key table).1
  r.length = nd + 1 ∧ ∀ i, i ≤ nd → wordAt r i = rescaled qs qd (v i % qs)

/-- `ct.ksw` on RLWE, with γ = 1, and `ct.rot` (R309, R356, R357): (0, B) less the rows times the digits of A, of the images under X ↦ X^γ. -/
def KswRlweWrites (qs : List Nat) (n beta ell keyid gamma : Nat) (pat : Bool) : Prop := ∀ x key table : List Nat,
  gamma % 2 = 1 → n = 2 ^ n.log2 → (∀ q ∈ qs, 0 < q) → (beta = 0 → ell = qs.length) →
  ∃ (dig : Nat → Int → Nat → Int) (a b : Nat → Nat → Int),
    (∀ j < qs.length, (beta ≠ 0 → Splits (qs.getD j 1) beta ell (dig j)) ∧ ∀ i < n, let dst := i * gamma % (2 * n)
      let sign : Int := if dst < n then 1 else -1
      a j (dst % n) = sign * wordAt x (2 * n * j + i) ∧ b j (dst % n) = sign * wordAt x (2 * n * j + n + i)) ∧
    let d (u j k : Nat) : Int := if beta = 0 then digitOf (qs.getD u 1) 0 (dig u) (a u k) u else digitOf (qs.getD j 1) beta (dig j) (a j k) u
    Residues ((CtOp.kswRlwe qs n beta ell keyid gamma pat).run [x] key table).1 (2 * n * qs.length) (fun i => qs.getD (i / (2 * n)) 1) fun i =>
      let j := i / (2 * n)
      let row (u k : Nat) : Int := if i % (2 * n) < n then rowA qs n keyid pat key u u j k else rowB qs n pat key u j k
      (if i % (2 * n) < n then 0 else b j (i % n)) - sumTo ell fun u => negacyclic n (d u j) (row u) (i % n)

/-- `ct.pack` (R356, R357): every input's key switch to degree nd, rotated to its place, in sum. Digits stay signed at the new modulus (log 88). -/
def PackWrites (qs qd ns nd big beta ell keyid m : Nat) (pat : Bool) : Prop := ∀ srcs : List (List Nat), ∀ key table : List Nat,
  0 < qs → 0 < qd → nd = 2 ^ nd.log2 → 1 < nd → 0 < big → (beta = 0 → ell = 1) → ns * ell * (if pat then nd else 2 * nd) ≤ key.length →
  ∃ dig, (beta ≠ 0 → Splits qs beta ell dig) ∧
  let v (x : List Nat) (half i : Nat) : Int := (if half = 1 ∧ i = 0 then rescaled qs qd (wordAt x ns % qs) else 0) - sumTo ns fun t => sumTo ell fun u =>
    digitOf qs beta dig (wordAt x t) u *
      if half = 0 then rowA [qd] nd keyid pat key (t * ell + u) (t * ell + u) 0 i else rowB [qd] nd pat key (t * ell + u) 0 i
  Residues ((CtOp.pack qs qd ns nd big beta ell keyid m pat).run srcs key table).1 (2 * nd) (fun _ => qd) fun i =>
    sumTo srcs.length fun j => rotated nd (j * nd / big) (v (srcs.getD j []) (i / nd)) (i % nd)

/-- `ct.modsw` (R358): every coefficient's value modulo Q, divided by the product of the dropped limbs and rounded. -/
def ModswWrites (qs : List Nat) (n keep : Nat) : Prop := ∀ x key table : List Nat,
  qs.Pairwise Nat.Coprime → (∀ q ∈ qs, 1 < q) → keep ≤ qs.length →
  let drop := (qs.drop keep).foldl (· * ·) 1
  let r := ((CtOp.modsw qs n keep).run [x] key table).1
  r.length = 2 * n * keep ∧ ∀ i < 2 * n, ∀ z, z < qs.foldl (· * ·) 1 →
    (∀ j < qs.length, z % qs.getD j 1 = x.getD (2 * n * j + i) 0 % qs.getD j 1) →
    ∀ j < keep, r.getD (2 * n * j + i) 0 = (z + drop / 2) / drop % qs.getD j 1

/-- `ct.extr` (R359). -/
def ExtrWrites (q n c : Nat) : Prop := ∀ x key table : List Nat, 0 < q → c < n →
  Residues ((CtOp.extr q n c).run [x] key table).1 (n + 1) (fun _ => q) fun t =>
    if t = n then wordAt x (n + c) else if t ≤ c then wordAt x (c - t) else -wordAt x (n + c - t)

/-- `ct.brinit` (R343, R363, R364): 0, the rotated test polynomial, the indices. -/
def BrinitWrites (q n dim p : Nat) : Prop := ∀ x key table : List Nat, 0 < q → 0 < p → p ≤ 2 * n →
  let w := 2 * n / p
  let enc (m : Int) : Int := rescaled p q (m % p)
  let v (j : Nat) : Int := let k := (j + w / 2) / w; if k < p / 2 then enc (wordAt table k) else -enc (wordAt table 0)
  let r := ((CtOp.brinit q n dim p).run [x] key table).1
  let turned (t : Nat) : Int := rescaled q (2 * n) (wordAt x t % q)
  r.length = 2 * n + dim ∧ (∀ i < n, wordAt r i = 0 ∧ wordAt r (n + i) = rotated n (2 * n - (turned dim).toNat) v i % (q : Int)) ∧
  ∀ t < dim, wordAt r (2 * n + t) = turned t

/-- `ct.brstep` (R365): the accumulator, with the digits of the difference that a rotation by the step's index makes, times the step's rows. -/
def BrstepWrites (q n dim beta ell keyid i : Nat) (pat : Bool) : Prop := ∀ x key table : List Nat, 0 < q → 0 < beta → x.length = 2 * n + dim →
  ∃ dig, Splits q beta ell dig ∧
  let at' (half k : Nat) : Int := wordAt x (half * n + k)
  let diff (half k : Nat) : Int := rotated n (x.getD (2 * n + i) 0 % (2 * n)) (at' half) k - at' half k
  let row (half r k : Nat) : Int := if half = 0 then rowA [q] n keyid pat key r (i * 2 * ell + r) 0 k else rowB [q] n pat key r 0 k
  let r := ((CtOp.brstep q n dim beta ell keyid i pat).run [x] key table).1
  r.length = 2 * n + dim ∧
  (∀ k < 2 * n, let half := k / n
    wordAt r k = (at' half (k % n) + sumTo (2 * ell) fun u =>
      negacyclic n (fun m => digitOf q beta dig (diff (u / ell) m) (u % ell)) (row half u) (k % n)) % (q : Int)) ∧
  ∀ t < dim, wordAt r (2 * n + t) = wordAt x (2 * n + t)

end Sys2Proof.Claims
end

