-- ==== Sys2Proof/ClaimsSystem.lean ====
section
/-! DEFINITION. The words of the statements about CSRs, launch packets, dispatch and context images: the conditions of the spec's ordered
checks, the round-robin of R112, and what stands where in an image. -/
namespace Sys2Proof.Claims
open Sys2Proof.Machine

/-- Ordered checks answer the number of the first that fails, and 0 where none does. -/
def FirstFailing (fails : Nat → Prop) (last answer : Nat) : Prop :=
  (answer = 0 ∧ ∀ k, k < last → ¬fails (k + 1)) ∨ (1 ≤ answer ∧ answer ≤ last ∧ fails answer ∧ ∀ k, k + 1 < answer → ¬fails (k + 1))

/-! CSRs. -/

/-- A result on its way brings this vsb where it brings one. -/
def withVsb (p : Pend) (v : Word) : Pend :=
  match p.dest with
  | .cfg vl vt _ m => { p with dest := .cfg vl vt v m }
  | _ => p
/-- CSRs of the hart that are no plain field of its own CSR block: vsb, lcnt0 to lcnt5, and the trap registers of both levels but for status
(R194, R254, R269, R271), with their value and the write of a new one. A write of vsb overtakes a `setvl` whose values are on their way
(R118); the low two bits of a handler address are no part of it (log 71); bits 20 to 23 of a cause register are reserved (R5). -/
def csrHomeTable : List (Nat × (Hart → Word) × (Hart → Word → Hart)) :=
  [(0x005, (·.csr.vsb), fun h v =>
      { h with csr := { h.csr with vsb := v, vsbSeen := v }, pend := h.pend.map fun p => withVsb p v }),
   (0x181, (·.strap.tvec), fun h v => { h with strap := { h.strap with tvec := v &&& ~~~3 } }),
   (0x182, (·.strap.epc), fun h v => { h with strap := { h.strap with epc := v } }),
   (0x183, (·.strap.cause), fun h v => { h with strap := { h.strap with cause := v &&& ~~~0xF00000 } }),
   (0x184, (·.strap.detail), fun h v => { h with strap := { h.strap with detail := v } }),
   (0x381, (·.mtrap.tvec), fun h v => { h with mtrap := { h.mtrap with tvec := v &&& ~~~3 } }),
   (0x382, (·.mtrap.epc), fun h v => { h with mtrap := { h.mtrap with epc := v } }),
   (0x383, (·.mtrap.cause), fun h v => { h with mtrap := { h.mtrap with cause := v &&& ~~~0xF00000 } }),
   (0x384, (·.mtrap.detail), fun h v => { h with mtrap := { h.mtrap with detail := v } })] ++
  (List.range 6).map fun i => (0x020 + i, (·.csr.lcnt.getD i 0), fun h v =>
    { h with csr := { h.csr with lcnt := h.csr.lcnt.setIfInBounds i v } })
/-- The forms of a CSR write with what each makes of the RW fields and which W1C bits it clears (R264). -/
def csrClearTable : List ((BitVec 5 → BitVec 12 → Instr) × (Word → Word → Word) × (Word → Word)) :=
  [(.csrw, fun _ v => v, fun v => v), (.csrs, fun o v => o ||| v, fun v => v), (.csrc, fun o v => o &&& ~~~v, fun _ => 0)]
/-- The trap CSRs of a level after a write of its status register (R195): nest is W1C, pl 0b10 is written as 0b00, strict is the
supervisor's alone. -/
def statusFields (sup : Bool) (c : TrapCsrs) (n clr : Word) : TrapCsrs :=
  { c with nest := c.nest && !clr.getLsbD 11, strict := if sup then n.getLsbD 8 else c.strict, inh := n.getLsbD 7,
           pl := if n.extractLsb' 5 2 = 1 then .supervisor else if n.extractLsb' 5 2 = 3 then .machine else .user,
           ie := n.getLsbD 4, pie := n.getLsbD 3 }
/-- A CSR takes a value: its poison is that of the value, or of the old value where that counts (R212). -/
def Marked (s : State) (c : Nat) (p old : Bool) (l : List Nat) : Prop :=
  ∀ k, k ∈ l ↔ if k = c then p = true ∨ (old = true ∧ c ∈ s.cur.pcsr) else k ∈ s.cur.pcsr

/-- The conditions of R22 on a value of a world's spres. -/
def SpresFails (s : State) (w : BitVec 6) (v : Word) : Nat → Prop :=
  let ivs (x : Word) : List (Nat × Nat) := [((x.extractLsb' 38 8).toNat, (x.extractLsb' 46 9).toNat), ((x.extractLsb' 21 8).toNat, (x.extractLsb' 29 9).toNat)]
  fun
  | 1 => (∃ a ∈ ivs v, 256 < a.1 + a.2) ∨ (ivs v).Pairwise (fun a b => overlap a.1 a.2 b.1 b.2 = true)
  | 2 => (v.extractLsb' 55 9).toNat < (v.extractLsb' 46 9).toNat + (v.extractLsb' 29 9).toNat
  | 3 => ∃ a ∈ ivs v,
      (∃ u, u < 64 ∧ u ≠ w.toNat ∧ ∃ b ∈ ivs (s.worlds.getD u .reset).spres, overlap a.1 a.2 b.1 b.2 = true) ∨
      ∃ x ∈ s.sched.allocs, overlap (a.1 * 65536) (a.2 * 65536) x.off x.size = true
  | 4 => ∃ o ∈ s.ops, (∃ h, s.hartAt o.core o.ctx = some h ∧ h.world = w) ∧
      ((∃ k, o.kind = .ct k ∧ (k.op matches .refresh ..)) ∨ o.kind matches .tailor .. ∨ o.kind matches .tailorBusy ..)
  | _ => False

/-! Launch packets. -/

/-- A word of an event that has a res bit set, or is off with other bits set (R103). -/
def EventBad (e : Word) (done : Bool) : Prop :=
  e.extractLsb' 0 3 ≠ 0 ∨ (e.getLsbD 63 = false ∧ e ≠ 0) ∨ (done = true ∧ e.extractLsb' 48 15 ≠ 0)
/-- An event that is on and that an access of the task's world at user level does not reach (R405). -/
def EventLost (s : State) (w : BitVec 6) (e : Word) (acc : Acc) : Prop :=
  e.getLsbD 63 = true ∧ ∃ t, s.dispatchReach w (e &&& 0xFFFFFFFFFFF8) acc = .error t
/-- A loop table's eight dwords are valid for E elements and so many harts per core (R105). -/
def LoopValid (d : List Word) (e hpc : Nat) : Prop :=
  let w (i : Nat) : Word := d.getD i 0
  let n := (w 1).toNat
  let kind (j : Nat) : Nat := ((w (2 + j)).extractLsb' 62 2).toNat
  let ext (j : Nat) : Nat := ((w (2 + j)).extractLsb' 0 48).toNat
  let all (k : Nat) : Nat := (((List.range n).filter fun j => kind j == k).map ext).foldl (· * ·) 1
  1 ≤ n ∧ n ≤ 6 ∧
  (∀ j, j < 6 → if j < n then (w (2 + j)).extractLsb' 48 14 = 0 ∧ kind j ≠ 3 ∧ 1 ≤ ext j else w (2 + j) = 0) ∧
  (∀ i j, i < j → j < n → kind i = 0 → kind j = 0) ∧ all 2 * all 1 * all 0 = e ∧ all 2 ≤ 8 ∧ all 1 ≤ 96 * hpc
/-- The packet's loop table can be read and is valid; ltab 0 needs none (R101, R405). -/
def LoopReadable (s : State) (p : BitVec 512) : Prop :=
  let ltab : Word := p.extractLsb' 128 64
  ltab = 0 ∨ (ltab.toNat % 64 = 0 ∧ ∃ d : List Word, d.length = 8 ∧
    (∀ i, i < 8 → s.dispatchRead (pkWorld p) (ltab + BitVec.ofNat 64 (8 * i)) = .ok (d.getD i 0)) ∧
    LoopValid d (p.extractLsb' 64 64).toNat (p.extractLsb' 208 4).toNat)
/-- What each check of R104 refuses, from the packet's fields (R101 to R103). `launcher` is the world of a hart that launches. -/
def PacketFails (s : State) (p : BitVec 512) (launcher : Option (BitVec 6)) : Nat → Prop :=
  let world : BitVec 6 := p.extractLsb' 242 6
  let q := s.queue (p.extractLsb' 248 8).toNat
  let w := s.worlds.getD world.toNat .reset
  let lanes := 4 * 2 ^ (p.extractLsb' 212 2).toNat
  let hpc := (p.extractLsb' 208 4).toNat
  let tcm := (p.extractLsb' 216 7).toNat
  let spad := (p.extractLsb' 224 15).toNat
  fun
  | 1 => p.getLsbD 223 = true ∨ p.extractLsb' 214 2 ≠ 0 ∨ p.extractLsb' 192 16 ≠ 0 ∨
      EventBad (p.extractLsb' 256 64) false ∨ EventBad (p.extractLsb' 320 64) true
  | 2 => q.bound = false ∨ q.world ≠ world ∨ q.cls ≠ (p.extractLsb' 240 2).toNat ∨ w.quarantined = true ∨ ∃ x, launcher = some x ∧ x ≠ world
  | 3 => 32 < hpc * lanes ∨ 256 < hpc * tcm * 4 ∨ hpc = 0 ∨ tcm = 0
  | 4 =>
      let units (lo : Nat) : Nat := (w.spres.extractLsb' lo 9).toNat
      64 * units 55 < spad + 64 * (units 46 + units 29) ∨ (units 46 ≠ 0 ∧ 64 * (w.spres.extractLsb' 38 8).toNat < spad)
  | 5 => (p.extractLsb' 0 64).toNat % 4 ≠ 0 ∨ p.extractLsb' 64 64 = 0
  | 6 => ¬LoopReadable s p
  | 7 => EventLost s world (p.extractLsb' 256 64) .load ∨ EventLost s world (p.extractLsb' 320 64) .atomic
  | _ => False

/-! Dispatch. -/

/-- A queue that a dispatcher visits has a dispatchable head of a demand (R111, R112): it may start by R108, it is the dispatcher's to start,
and its resources are free there. -/
def Dispatchable (s : State) (disp q m : Nat) : Prop :=
  ∃ slot t, s.headReady q = some (slot, t, true) ∧ disp = (if t.dies ≤ 1 then (s.queue q).home else 8) ∧
    s.resourcesFree disp q slot.packet t = true ∧ m = t.dies * t.cores * pkLanes slot.packet
/-- Queues that a dispatcher visits in a class: bound ones, of its stack for a stack's dispatcher (log 74), with a promoted head of class 3
in class 2 (R113). -/
def InClass (s : State) (disp c q : Nat) : Prop :=
  q < 256 ∧ (s.queue q).bound = true ∧ (disp = (s.queue q).home ∨ disp = 8) ∧
    c = if (s.queue q).cls = 3 ∧ (s.queue q).promoted = true then 2 else (s.queue q).cls
/-- The deficit round-robin of R112 over the queues of a class, from those still to come in this round: the queue that starts, and the
deficits it leaves. -/
inductive RoundRobin (dem : Nat → Option Nat) (all : List Nat) : List Nat → (Nat → Nat) → Nat → (Nat → Nat) → Prop where
  | start {q r d m} : dem q = some m → m ≤ d q + 256 → RoundRobin dem all (q :: r) d q (fun x => if x = q then d q + 256 - m else d x)
  | pass {q r d m p e} : dem q = some m → d q + 256 < m → RoundRobin dem all r (fun x => if x = q then d q + 256 else d x) p e →
      RoundRobin dem all (q :: r) d p e
  | none {q r d p e} : dem q = .none → RoundRobin dem all r (fun x => if x = q then 0 else d x) p e → RoundRobin dem all (q :: r) d p e
  | wrap {d p e} : RoundRobin dem all all d p e → RoundRobin dem all [] d p e

/-! Context images. -/

/-- A field of an image: n bytes at an offset, little-endian. -/
def le (img : List Byte) (off n : Nat) : Nat := ofBytes ((img.drop off).take n)
/-- The header's fields: offset, bytes, value (R208). -/
def headerFields (prot tile tcm spad : Bool) (h : Hart) (ctr len : Nat) : List (Nat × Nat × Nat) :=
  [(0, 8, 0x5158435400000001), (8, 8, jobWord h.queue h.num), (16, 2, h.ord), (18, 1, h.world.toNat),
   (19, 1, prot.toNat + 2 * tile.toNat + 4 * spad.toNat + 8 * h.csr.vlost.toNat + 16 * tcm.toNat), (20, 2, h.lanes), (22, 2, 0), (24, 8, ctr),
   (32, 8, if spad then h.spadSize else 0), (40, 8, len), (48, 8, if tcm then h.tcmSize else 0), (56, 200, 0)]
/-- A nest entry's three dwords (R257); zeros where there is none. -/
def nestDwords : Option LoopEntry → List Nat
  | some e => [2 ^ 63 + e.fixed.toNat * 2 ^ 62 + e.lvl.toNat * 2 ^ 59 + e.start.toNat % 2 ^ 55, e.stop.toNat, e.count.toNat]
  | none => [0, 0, 0]
/-- The fields of an image's body that hold registers: offset, bytes, value (R207, R209). Entry 0 of the nest is the outermost. -/
def bodyFields (h : Hart) (tile : Bool) : List (Nat × Nat × Nat) :=
  let c := h.csr
  let u := h.user
  let b := 256 * h.lanes
  [(0x100, 8, 0), (0x200, 8, h.strap.epc.toNat), (0x208, 8, u.ldest.toNat), (0x210, 8, c.fcsr.toNat), (0x218, 8, c.hvl.toNat),
   (0x220, 8, c.hvtype.toNat), (0x228, 8, c.hvstart.toNat), (0x230, 8, c.vsb.toNat), (0x238, 8, c.srseed.toNat), (0x240, 8, c.srdraw.toNat),
   (0x248, 8, c.ctfloor.toNat), (0x250, 8, c.brstep.toNat), (0x258, 8, c.slstat.toNat), (0x260, 8, c.instret.toNat), (0x268, 8, c.poolmap.toNat),
   (0x270, 16, u.px.toNat + h.vec.pv.toNat * 2 ^ 32 + h.vec.pm.toNat / 2 * 2 ^ 64 + if tile then h.vec.pz.toNat * 2 ^ 72 else 0),
   (0x31C, 4, 0), (0x3B0, 8, c.winN.toNat * 2 ^ 32 + c.winW.toNat), (0x3B8, 72, 0), (0xA00, 1536, 0), (0x2000, b, 0)] ++
  (List.range 31).map (fun i => (0x108 + 8 * i, 8, (u.x.getD (i + 1) 0).toNat)) ++
  (List.range 6).map (fun i => (0x280 + 8 * i, 8, (c.lcnt.getD i 0).toNat)) ++
  (List.range 6).map (fun i => (0x2B0 + 8 * i, 8, (u.lidx.getD i 0).toNat)) ++
  (List.range 15).map (fun i => (0x2E0 + 4 * i, 4, (u.h.getD (i + 1) 0).toNat)) ++
  (List.range 18).map (fun i => (0x320 + 8 * i, 8, (nestDwords u.nest.reverse[i / 3]?).getD (i % 3) 0)) ++
  (List.range 32).map (fun i => (0x400 + 32 * i, 32, (h.ct.c.getD i 0).toNat)) ++
  (List.range 8).map (fun i => (0x800 + 32 * i, 32, (h.ct.tb.getD i 0).toNat)) ++
  (List.range 8).map (fun i => (0x900 + 32 * i, 32, (h.ct.k.getD i 0).toNat)) ++
  (List.range 64).map (fun i => (0x1000 + 64 * i, 64, (h.ct.mtab.getD i 0).toNat)) ++
  (List.range 32).map (fun i => (0x2000 + 8 * b + b * i, b, (h.vec.v.getD i 0).toNat)) ++
  (if tile then (List.range 4).map (fun i => (0x2000 + 40 * b + 4096 * i, 4096, (h.vec.z.getD i 0).toNat)) else [])
/-- A memory section of an image: its bytes, those of poisoned words 0, then one poison bit per 8-byte word (R207). -/
def SectionHolds (s : State) (img : List Byte) (off key n : Nat) : Prop :=
  (∀ j, j < n → img.getD (off + j) 0 = if s.mem.poisoned (key + j) then 0 else s.mem.read (key + j)) ∧
  ∀ j, j < n / 64 * 8 → (img.getD (off + n + j / 8) 0).getLsbD (j % 8) = s.mem.poisoned (key + 8 * j)

/-- What each reason of R210 refuses in a header, for the issuing hart. -/
def HeaderFails (s : State) (hd : Array Byte) : Nat → Prop :=
  let h := s.cur
  let f (off n : Nat) : Nat := imgN hd off n
  let flag (i : Nat) : Bool := (f 19 1).testBit i
  let prot := (s.worlds[h.world.toNat]).prot
  let b := 256 * f 20 2
  let t := if flag 4 then f 48 8 else 0
  let p := if flag 2 then f 32 8 else 0
  let entry := s.thatum.saves.find? fun c => c.owner == h.identity
  fun
  | 1 => f 0 8 ≠ 0x5158435400000001 ∨ f 22 2 ≠ 0 ∨ (∃ i, i < 200 ∧ hd.getD (56 + i) 0 ≠ 0) ∨ 32 ≤ f 19 1 ∨
      f 40 8 ≠ 0x2000 + 40 * b + (if flag 1 then 16384 else 0) + (t + t / 64) + (p + p / 64) + 16
  | 2 => f 18 1 ≠ h.world.toNat ∨ f 8 8 ≠ jobWord h.queue h.num ∨ f 16 2 ≠ h.ord ∨ flag 0 ≠ prot
  | 3 => f 20 2 ≠ h.lanes
  | 4 => (flag 1 = true ↔ h.lane0 ≠ 0) ∨ (flag 2 = true ∧ f 32 8 ≠ h.spadSize) ∨ (flag 4 = true ∧ f 48 8 ≠ h.tcmSize)
  | 5 => prot = true ∧ entry = none
  | 6 => prot = true ∧ ∃ c, entry = some c ∧ f 24 8 ≠ c.c
  | 7 => prot = true ∧ ∃ c, entry = some c ∧ c.live = false
  | _ => False
/-- The hardware-loop nest of an image keeps R257 and the limits of R254. -/
def ImageNest (img : Array Byte) : Prop :=
  let w (i j : Nat) : Nat := imgN img (0x320 + 24 * i + 8 * j) 8
  let start (i : Nat) : Nat := w i 0 % 2 ^ 55
  ∃ k, k ≤ 6 ∧
    (∀ i j, k ≤ i → i < 6 → j < 24 → img.getD (0x320 + 24 * i + j) 0 = 0) ∧
    (∀ i, i < k → (w i 0).testBit 63 = true ∧ w i 0 / 2 ^ 55 % 16 = 0 ∧ start i % 4 = 0 ∧ w i 1 % 4 = 0 ∧ start i < w i 1 ∧
      w i 1 - start i ≤ 1024 ∧ w i 2 ≠ 0 ∧ w i 0 / 2 ^ 59 % 8 ≤ 5 ∧ ((w i 0).testBit 62 = true → w i 0 / 2 ^ 59 % 8 = 0) ∧
      (0 < i → w i 1 ≤ w (i - 1) 1))
/-- The decrypted contents of an image pass phase 4 of R210, for a panel of p lanes. -/
def ContentsKeep (img : Array Byte) (p : Nat) : Prop :=
  let pm := imgN img 0x270 16
  let win := imgN img 0x3B0 8
  (∀ r ∈ [(0x100, 8), (0x31C, 4), (0x3B8, 72), (0xA00, 1536), (0x2000, 256 * p)], ∀ i, i < r.2 → img.getD (r.1 + i) 0 = 0) ∧
  imgN img 0x208 8 < 32 ∧ pm.testBit 0 = false ∧ pm.testBit 71 = false ∧ pm < 2 ^ 76 ∧ ImageNest img ∧
  win < 2 ^ 39 ∧ 1 ≤ win / 2 ^ 32 ∧ win / 2 ^ 32 ≤ 64 ∧
  ∀ i, i < 64 → (imgN img (0x1000 + 64 * i) 64).testBit 511 = true → modEntryOk (BitVec.ofNat 512 (imgN img (0x1000 + 64 * i) 64)) = true

/-! Register space (R379). -/

/-- Memory with the registers at these offsets of register space marked clean. -/
def cleanRegs (m : Memory) (offs : List Nat) : Memory :=
  { m with poison := m.poison.filter fun k => !offs.any fun o => k == (0x20000000000 + o) / 8 }
/-- Where the pages of a world, a queue and a bounce channel begin. -/
def worldBase (w : Nat) : Nat := 0x100000 + 0x10000 * w
def queueBase (q : Nat) : Nat := 0x1000000 + 0x10000 * q
def bounceBase (c : Nat) : Nat := 0x2000000 + 0x10000 * c
/-- What the registers of a page read as, by offset in the page (R370, R371, R380 to R382, R384, R386). -/
def deviceTable (s : State) : List (Nat × Word) :=
  (0, s.board.bootst.setWidth 64) :: (List.range 8).flatMap fun i =>
    [(0x40 + 8 * i, BitVec.ofNat 64 (ofBytes ((s.fwm.drop (8 * i)).take 8))), (0x80 + 8 * i, Config.identityDigest.extractLsb' (64 * i) 64)]
def worldTable (x : World) : List (Nat × Word) :=
  [(0, x.obs.ctl), (8, x.obs.buf), (0x10, x.obs.head), (0x18, x.obs.tail), (0x20, x.obs.drop), (0x100, x.ecorr), (0x108, x.eunc), (0x110, x.epois),
   (0x118, x.elink), (0x120, x.eviol), (0x1000, if x.receipt.req then 1 else 0), (0x1008, BitVec.ofNat 64 x.receipt.sigSeq)] ++
  ((List.range 8).map fun i => (0x1040 + 8 * i, BitVec.ofNat 64 (ofBytes ((x.receipt.sigHead.drop (8 * i)).take 8)))) ++
  ((List.range 160).map fun i => (0x1100 + 8 * i, BitVec.ofNat 64 (ofBytes ((x.receipt.sig.drop (8 * i)).take 8)))) ++
  (List.range 16).flatMap fun n => (List.range 64).map fun k => (0x2000 + 512 * n + 8 * k, (x.profiles.getD n 0).extractLsb' (64 * k) 64)
def queueTable (q : Queue) : List (Nat × Word) :=
  [(0x40, BitVec.ofNat 64 ((if q.sref then 2 ^ 63 else 0) + (if q.ovf then 2 ^ 62 else 0) + (if q.drop then 2 ^ 61 else 0) +
    q.slots.length % 128 * 2 ^ 48 + q.dcnt.toNat * 2 ^ 40 + q.rcnt.toNat * 2 ^ 32 + q.through % 2 ^ 32))]
def bounceTable (b : Bounce) : List (Nat × Word) := [(0, b.cfg), (8, b.stg), (0x10, b.st.setWidth 64), (0x18, b.dc)]
/-- The events that a write of the registers of a page is, by offset; a write elsewhere in a world's or a channel's page changes nothing. -/
noncomputable def worldWrites (w : Nat) (v : Word) : List (Nat × Instr) :=
  [(0, .obctl w v), (8, .obbuf w v), (0x18, .obtail w v), (0x1000, .rcreq w v)] ++
  (List.range 16).flatMap fun n => (List.range 64).map fun k => (0x2000 + 512 * n + 8 * k, .profileEntry w n (8 * k) v)
noncomputable def bounceWrites (c : Nat) (v : Word) : List (Nat × Instr) := [(0, .bccfg c v), (8, .bcstg c v), (0x20, .bchc c v), (0x28, .bcresync c v)]

/-! Tailoring. -/

/-- Why the descriptor of a tailoring command is refused (R337, R338), by check; its fields by their byte offsets. -/
def TailorFails (s : State) (disp : Bool) (d : BitVec 1024) (m : BitVec 512) : Nat → Prop :=
  let at' (lo n : Nat) : Nat := d.toNat / 2 ^ (8 * lo) % 2 ^ (8 * n)
  let policy := at' 30 1 / 2 % 4
  let ksrc := at' 30 1 / 8 % 2
  let koff := at' 31 1
  let rlen := at' 28 2
  let buf (j : Nat) : Nat := at' (64 + 8 * j) 8
  let cap (j : Nat) : Nat := buf j / 2 ^ 40 % 2 ^ 17
  let off (j : Nat) : Nat := buf j % 2 ^ 25
  let res : Nat := ((s.worlds[s.cur.world.toNat]).spres).toNat
  let base := res / 2 ^ 38 % 2 ^ 8 * 65536
  let size := res / 2 ^ 46 % 2 ^ 9 * 65536
  fun
  | 1 => at' 2 2 ≠ 0 ∨ at' 27 1 ≠ 0 ∨ at' 30 1 / 16 ≠ 0 ∨ (∃ j < 8, buf j / 2 ^ 57 ≠ 0 ∨ buf j / 2 ^ 25 % 2 ^ 15 ≠ 0) ∨
      (if disp then koff ≠ 0 ∨ at' 40 8 ≠ 0 ∨ at' 48 8 ≠ 0
       else (ksrc = 1 ∧ koff ≠ 0) ∨ (ksrc = 0 ∧ at' 32 8 ≠ 0) ∨ (policy ≠ 1 ∧ at' 48 8 ≠ 0))
  | 2 => (at' 30 1 % 2 = 1 ∧ disp = false) ∨ (at' 30 1 % 2 = 0 ∧ disp = true) ∨ policy = 3 ∨ (disp = true ∧ (policy = 1 ∨ ksrc = 1))
  | 3 => rlen = 0 ∨ 256 < rlen ∨ (ksrc = 0 ∧ (rlen < koff + 8 ∨ koff % 8 ≠ 0)) ∨ 2 ^ 64 < at' 16 8 + at' 24 3 * rlen
  | 4 => m.getLsbD s.device = false ∨ ∃ v < 512, m.getLsbD v = true ∧ v ∉ s.members
  | 5 => disp = false ∧ (cap 0 = 0 ∨ ∃ j < 7, buf (j + 1) ≠ 0)
  | 6 => ∃ j < 8, cap j ≠ 0 ∧ ¬(off j % 8 = 0 ∧ base ≤ off j ∧ off j + cap j * (8 + 8 * ((rlen + 7) / 8)) ≤ base + size)
  | _ => False

end Sys2Proof.Claims
end

