-- ==== Sys2Proof/ClaimsVector.lean ====
section
/-! DEFINITION. The words in which the statements about vector, mask and tile instructions are made. -/
namespace Sys2Proof.Claims
open Sys2Proof.Machine

/-- All that a vector instruction leaves as it was: every field of the hart but its banks, its pc, its vector state and its open and
closed convoys, and every byte of memory but records of the observation unit, written where obctl asks for convoy records (R121,
R369, R370, R374). One slot and one retired instruction are counted, and vstart is 0 (R276). -/
def VecFrame (s t : State) : Prop :=
  t = { s with
    cur := { s.cur with user := t.cur.user, sup := t.cur.sup, mach := t.cur.mach, pc := t.cur.pc, slots := s.cur.slots + 1,
                        vec := t.cur.vec, convoy := t.cur.convoy, closed := t.cur.closed,
                        csr := { s.cur.csr with vstart := 0, instret := s.cur.csr.instret + 1 } },
    ops := t.ops, nextOp := s.nextOp + 1, mem := t.mem, worlds := t.worlds } ∧
  OtherBanks s t ∧ XKept s t ∧ HooksKept s t ∧ Sequel s t ∧
  (s.cur.convoy = none ∧ s.cur.closed = [] ∨ (s.worlds[s.cur.world.toNat]).obs.ctl.getLsbD 0 = false → t.mem = s.mem ∧ t.worlds = s.worlds)

/-- What a vector instruction leaves behind: its registers in program order, an entry of the VIQ that holds its flags, its scalar
result, its memory writes and the values it replaced (R120, R279), and ldest at its scalar destination (R235). Where a destination counts
as written only at its end (`atEnd`), no reader sees the values that it replaced (R279). -/
def VecDone (s : State) (hook : BitVec 4) (e : VEffect) (t : State) (atEnd : Bool := false) : Prop :=
  VecFrame s t ∧ t.cur.vec = e.regs ∧
  t.cur.bank.ldest = (match e.x with | some (d, _, _) => if d = 0 then s.cur.bank.ldest else d | none => s.cur.bank.ldest) ∧
  ∃ ov om, t.ops = s.ops ++ [opOf s hook (.vector e.flags
      (e.x.map fun (x : BitVec 5 × Word × Bool) => ({ lvl := s.cur.level, r := x.1, live := x.1 != 0 }, x.2.1, x.2.2))
      e.writes ov om e.mtab e.waits e.sample) false e.va] ∧
    (∀ q ∈ ov, (if atEnd then e.regs else s.cur.vec).v.getD q.1.toNat 0 = q.2) ∧ (∀ q ∈ om, s.cur.vec.m.getD q.1.toNat 0 = q.2)

/-- Registers and flags alone. -/
def effectOf (r : VecRegs) (f : Flags) : VEffect :=
  { regs := r, vd := [], md := [], flags := f, x := none, writes := [], mtab := none, waits := [], sample := [], va := 0 }
/-- A vector instruction that changes vector registers alone. -/
def VecWrote (s : State) (r : VecRegs) (f : Flags) (t : State) : Prop := VecDone s 0 (effectOf r f) t
/-- The same for a destination that counts as written only at its end (R279, R292, R295). -/
def VecWroteAtEnd (s : State) (r : VecRegs) (f : Flags) (t : State) : Prop := VecDone s 0 (effectOf r f) t true
/-- A vector instruction whose result goes to an x register when it completes. -/
def VecMoved (s : State) (hook : BitVec 4) (d : BitVec 5) (v : Word) (p : Bool) (t : State) : Prop :=
  VecDone s hook { (effectOf s.cur.vec 0) with x := some (d, v, p) } t
/-- The same with a draw taken where the rounding is stochastic (R49). -/
def Drawn (rounds : Bool) (s : State) (P : State → Prop) (t : State) : Prop :=
  ∃ u, P u ∧ t = if rounds ∧ s.cur.vcfg.rnd = 5 then { u with cur := { u.cur with csr := { u.cur.csr with srdraw := u.cur.csr.srdraw + 1 } } } else u

/-- The conditions under which a vector instruction runs (R119, R120, R201, R276, R277): STRICT passes, vtype is legal, vstart is 0,
the VIQ has room, every group starts at a multiple of its size; the hart is not held. -/
def VecReadyAt (s : State) (xs : List (BitVec 5)) (groups : List (BitVec 5 × Nat)) : Prop :=
  Waited s xs ∧ s.cur.csr.vtype.getLsbD 31 = false ∧ s.viqLength < 32 ∧ s.cur.hold = none ∧ ∀ g ∈ groups, g.1.toNat % g.2 = 0
def VecReady (s : State) (xs : List (BitVec 5)) (groups : List (BitVec 5 × Nat)) : Prop :=
  VecReadyAt s xs groups ∧ s.cur.csr.vstart = 0
/-- A group shares no register with others (R202). -/
def Apart (d : BitVec 5 × Nat) (groups : List (BitVec 5 × Nat)) : Prop :=
  ∀ g ∈ groups, d.1.toNat + d.2 ≤ g.1.toNat ∨ g.1.toNat + g.2 ≤ d.1.toNat ∨ d.2 = 0 ∨ g.2 = 0

/-- The registers after a group of n registers has been written at width w by R278, with its poison (R212). -/
def groupRegsAfter (s : State) (d : BitVec 5) (w n : Nat) (active : Nat → Bool) (res : Nat → Nat) (p : Bool) : VecRegs :=
  let c := s.cur.vcfg
  (s.cur.vec.writeGroup c d.toNat w (n * (2048 * c.p / w)) active res).settleV c active d.toNat n w p
/-- The registers after a mask register has been written by R278. -/
def maskRegsAfter (s : State) (d : BitVec 5) (active : Nat → Bool) (res : Nat → Bool) (p : Bool) : VecRegs :=
  let c := s.cur.vcfg
  (s.cur.vec.setMask d.toNat (maskResult c (s.cur.vec.m.getD d.toNat 0) active res)).settleM c active d.toNat p
/-- The registers after element 0 of a group has taken a value (none where no element is active), the others being tail elements
(R294, R295, R302). -/
def elemRegsAfter (s : State) (d : BitVec 5) (v : Option Nat) (p : Bool) : VecRegs :=
  let c := { s.cur.vcfg with vl := if v.isSome then 1 else 0, vstart := 0 }
  (s.cur.vec.writeGroup c d.toNat c.sew (c.g * (2048 * c.p / c.sew)) (fun _ => v.isSome) fun _ => v.getD 0).settleV c (fun _ => v.isSome)
    d.toNat c.g c.sew p

/-- Element-wise arithmetic in .vv, .vx and .vi form (R289): the instructions and the result at width w. -/
structure ArithRow where
  vv : BitVec 5 → BitVec 5 → BitVec 5 → BitVec 3 → BitVec 1 → BitVec 1 → BitVec 1 → Instr
  vx : BitVec 5 → BitVec 5 → BitVec 5 → BitVec 3 → BitVec 1 → BitVec 1 → Instr
  vi : BitVec 5 → BitVec 5 → BitVec 5 → BitVec 3 → BitVec 1 → BitVec 1 → Instr
  f : Nat → Nat → Nat → Nat
def arithTable : List ArithRow :=
  [⟨.vaddVV, .vaddVX, .vaddVI, fun _ a b => a + b⟩, ⟨.vsubVV, .vsubVX, .vsubVI, fun w a b => 2 ^ w + a - b⟩,
   ⟨.vrsubVV, .vrsubVX, .vrsubVI, fun w a b => 2 ^ w + b - a⟩, ⟨.vandVV, .vandVX, .vandVI, fun _ a b => a &&& b⟩,
   ⟨.vorVV, .vorVX, .vorVI, fun _ a b => a ||| b⟩, ⟨.vxorVV, .vxorVX, .vxorVI, fun _ a b => a ^^^ b⟩,
   ⟨.vmulVV, .vmulVX, .vmulVI, fun _ a b => a * b⟩,
   ⟨.vmulhVV, .vmulhVX, .vmulhVI, fun w a b => wrapInt w (sextInt w a * sextInt w b / (2 ^ w : Nat))⟩,
   ⟨.vmulhuVV, .vmulhuVX, .vmulhuVI, fun w a b => a * b / 2 ^ w⟩,
   ⟨.vminVV, .vminVX, .vminVI, fun w a b => if sextInt w b < sextInt w a then b else a⟩,
   ⟨.vmaxVV, .vmaxVX, .vmaxVI, fun w a b => if sextInt w a < sextInt w b then b else a⟩,
   ⟨.vminuVV, .vminuVX, .vminuVI, fun _ a b => min a b⟩, ⟨.vmaxuVV, .vmaxuVX, .vmaxuVI, fun _ a b => max a b⟩]
/-- Shifts: the immediate is unsigned, and the amount is taken modulo the width (R289). -/
def vshiftTable : List ArithRow :=
  [⟨.vshlVV, .vshlVX, .vshlVI, fun w a b => a * 2 ^ (b % w)⟩, ⟨.vshrVV, .vshrVX, .vshrVI, fun w a b => a / 2 ^ (b % w)⟩,
   ⟨.vsraVV, .vsraVX, .vsraVI, fun w a b => wrapInt w (sextInt w a / (2 ^ (b % w) : Nat))⟩]
/-- Arithmetic whose mask field is an operand, the last argument of the result (R289). -/
structure CarryRow (α : Type) where
  vv : BitVec 5 → BitVec 5 → BitVec 5 → BitVec 3 → BitVec 1 → BitVec 1 → Instr
  vx : BitVec 5 → BitVec 5 → BitVec 5 → BitVec 3 → BitVec 1 → Instr
  vi : BitVec 5 → BitVec 5 → BitVec 5 → BitVec 3 → BitVec 1 → Instr
  f : Nat → Nat → Nat → Nat → α
def carryTable : List (CarryRow Nat) :=
  [⟨.vadcVV, .vadcVX, .vadcVI, fun _ a b k => a + b + k⟩, ⟨.vsbcVV, .vsbcVX, .vsbcVI, fun w a b k => 2 ^ w + a + 2 ^ w - b - k⟩,
   ⟨.vmergeVV, .vmergeVX, .vmergeVI, fun _ a b k => if k = 1 then b else a⟩]
def carryOutTable : List (CarryRow Bool) :=
  [⟨.vmadcVV, .vmadcVX, .vmadcVI, fun w a b k => 2 ^ w ≤ a + b + k⟩, ⟨.vmsbcVV, .vmsbcVX, .vmsbcVI, fun _ a b k => a < b + k⟩]
/-- Comparisons (R289). -/
structure CmpRow where
  vv : BitVec 5 → BitVec 5 → BitVec 5 → BitVec 3 → BitVec 1 → BitVec 1 → BitVec 1 → Instr
  vx : BitVec 5 → BitVec 5 → BitVec 5 → BitVec 3 → BitVec 1 → BitVec 1 → Instr
  vi : BitVec 5 → BitVec 5 → BitVec 5 → BitVec 3 → BitVec 1 → BitVec 1 → Instr
  f : Nat → Nat → Nat → Bool
def cmpTable : List CmpRow :=
  [⟨.vcmpEqVV, .vcmpEqVX, .vcmpEqVI, fun _ a b => a = b⟩, ⟨.vcmpNeVV, .vcmpNeVX, .vcmpNeVI, fun _ a b => a ≠ b⟩,
   ⟨.vcmpLtVV, .vcmpLtVX, .vcmpLtVI, fun w a b => sextInt w a < sextInt w b⟩,
   ⟨.vcmpLtuVV, .vcmpLtuVX, .vcmpLtuVI, fun _ a b => a < b⟩,
   ⟨.vcmpLeVV, .vcmpLeVX, .vcmpLeVI, fun w a b => sextInt w a ≤ sextInt w b⟩,
   ⟨.vcmpLeuVV, .vcmpLeuVX, .vcmpLeuVI, fun _ a b => a ≤ b⟩,
   ⟨.vcmpGtVV, .vcmpGtVX, .vcmpGtVI, fun w a b => sextInt w b < sextInt w a⟩,
   ⟨.vcmpGtuVV, .vcmpGtuVX, .vcmpGtuVI, fun _ a b => b < a⟩]

/-- The value of operand b for every element: a vector element, the low bits of an x register, or a 5-bit immediate (R288). -/
def scalarOperand (s : State) (b : BitVec 5) : Nat := (s.cur.x b).toNat % 2 ^ s.cur.vcfg.sew
def immOperand (s : State) (b : BitVec 5) : Nat := (b.toInt % (2 ^ s.cur.vcfg.sew : Nat)).toNat

/-- Integer reductions (R295): the combination at width w. -/
noncomputable def redTable : List ((BitVec 5 → BitVec 5 → BitVec 5 → BitVec 3 → BitVec 1 → BitVec 1 → BitVec 1 → Instr) × (Nat → Nat → Nat → Nat)) :=
  [(.vredSum, fun _ a b => a + b), (.vredAnd, fun _ a b => a &&& b), (.vredOr, fun _ a b => a ||| b), (.vredXor, fun _ a b => a ^^^ b),
   (.vredMin, fun w a b => if sextInt w b < sextInt w a then b else a), (.vredMax, fun w a b => if sextInt w a < sextInt w b then b else a),
   (.vredMinu, fun _ a b => min a b), (.vredMaxu, fun _ a b => max a b)]

/-- Vector floating point with operand b (R298, R299): its instructions, whether it is a bfloat16 function, whether it rounds, whether it
reads the old destination, its element operation. -/
structure FpRow where
  vv : BitVec 5 → BitVec 5 → BitVec 5 → BitVec 3 → BitVec 1 → BitVec 1 → BitVec 1 → Instr
  vx : BitVec 5 → BitVec 5 → BitVec 5 → BitVec 3 → BitVec 1 → BitVec 1 → Instr
  bf : Bool
  rounds : Bool
  useD : Bool
  op : Fmt → Rm → Bool → (Fp × Nat) → (Fp × Nat) → (Fp × Nat) → Bool → Nat × Flags
/-- Each operation on the old destination, a and b, as values with inputs flushed and as they are encoded. -/
noncomputable def vfpTable : List FpRow :=
  let add : Fmt → Rm → Bool → (Fp × Nat) → (Fp × Nat) → (Fp × Nat) → Bool → Nat × Flags := fun f m fo _ a b _ => f.add m fo a.1 b.1
  let sub : Fmt → Rm → Bool → (Fp × Nat) → (Fp × Nat) → (Fp × Nat) → Bool → Nat × Flags := fun f m fo _ a b _ => f.add m fo a.1 b.1.negate
  let mul : Fmt → Rm → Bool → (Fp × Nat) → (Fp × Nat) → (Fp × Nat) → Bool → Nat × Flags := fun f m fo _ a b _ => f.mul m fo a.1 b.1
  let fma : Fmt → Rm → Bool → (Fp × Nat) → (Fp × Nat) → (Fp × Nat) → Bool → Nat × Flags := fun f m fo d a b _ => f.fma m fo d.1 a.1 b.1
  let div : Fmt → Rm → Bool → (Fp × Nat) → (Fp × Nat) → (Fp × Nat) → Bool → Nat × Flags := fun f m fo _ a b _ => f.div m fo a.1 b.1
  let mm (up : Bool) : Fmt → Rm → Bool → (Fp × Nat) → (Fp × Nat) → (Fp × Nat) → Bool → Nat × Flags :=
    fun f _ _ _ a b fi => f.minmax up fi a.2 b.2
  [⟨.vfaddVV, .vfaddVX, false, true, false, add⟩, ⟨.vfsubVV, .vfsubVX, false, true, false, sub⟩,
   ⟨.vfmulVV, .vfmulVX, false, true, false, mul⟩, ⟨.vfmaVV, .vfmaVX, false, true, true, fma⟩,
   ⟨.vfdivVV, .vfdivVX, false, true, false, div⟩, ⟨.vfminVV, .vfminVX, false, false, false, mm false⟩,
   ⟨.vfmaxVV, .vfmaxVX, false, false, false, mm true⟩, ⟨.vfaddBfVV, .vfaddBfVX, true, true, false, add⟩,
   ⟨.vfsubBfVV, .vfsubBfVX, true, true, false, sub⟩, ⟨.vfmulBfVV, .vfmulBfVX, true, true, false, mul⟩,
   ⟨.vfmaBfVV, .vfmaBfVX, true, true, true, fma⟩]
/-- Vector floating-point comparisons (R300). -/
noncomputable def vfcmpTable : List ((BitVec 5 → BitVec 5 → BitVec 5 → BitVec 3 → BitVec 1 → BitVec 1 → BitVec 1 → Instr) ×
    (BitVec 5 → BitVec 5 → BitVec 5 → BitVec 3 → BitVec 1 → BitVec 1 → Instr) × Cond) :=
  [(.vfcmpEqVV, .vfcmpEqVX, .eq), (.vfcmpNeVV, .vfcmpNeVX, .ne), (.vfcmpLtVV, .vfcmpLtVX, .lt), (.vfcmpLeVV, .vfcmpLeVX, .le),
   (.vfcmpGtVV, .vfcmpGtVX, .gt), (.vfcmpGeVV, .vfcmpGeVX, .ge)]
/-- The format of a vector function at a width (R297): 64 FP64, 32 FP32, 16 FP16, or bfloat16 at 16. -/
def formatAt (bf : Bool) (sew : Nat) : Option Fmt :=
  if bf then (if sew = 16 then some fmtB else none)
  else if sew = 64 then some fmtD else if sew = 32 then some fmtS else if sew = 16 then some fmtH else none
/-- The flags of the active elements together (R51). -/
def flagsBelow (n : Nat) (active : Nat → Bool) (f : Nat → Flags) : Flags :=
  (List.range n).foldl (fun acc i => if active i then acc ||| f i else acc) 0

/-- Modular arithmetic (R305): the instructions, whether the old destination is a source, the result modulo q of d, a and b. -/
structure ModRow where
  vv : BitVec 5 → BitVec 5 → BitVec 5 → BitVec 3 → BitVec 1 → BitVec 1 → BitVec 1 → Instr
  vx : BitVec 5 → BitVec 5 → BitVec 5 → BitVec 3 → BitVec 1 → BitVec 1 → Instr
  useD : Bool
  f : Nat → Nat → Nat → Nat → Nat
noncomputable def modTable : List ModRow :=
  [⟨.vmaddVV, .vmaddVX, false, fun q _ a b => (a + b) % q⟩,
   ⟨.vmsubVV, .vmsubVX, false, fun q _ a b => (((a : Int) - b) % (q : Int)).toNat⟩,
   ⟨.vmmulVV, .vmmulVX, false, fun q _ a b => a * b % q⟩, ⟨.vmmacVV, .vmmacVX, true, fun q d a b => (d + a * b) % q⟩]

/-- Vector configuration on top of u (R243, R281): vtype, vl and vstart at once, the strip closed, X[D] and the values that `csrr`
reads in the second slot; the panel, its registers and all else as in u. -/
def ConfigDone (u : State) (d : BitVec 5) (y : Bool) (vt : Half) (vl : Word) (t : State) : Prop :=
  let vsb := u.cur.csr.vsb + u.cur.csr.vl
  t = { u with cur := { u.cur with
    user := t.cur.user, sup := t.cur.sup, mach := t.cur.mach, pc := t.cur.pc, pend := t.cur.pend, slots := u.cur.slots + 1, yMark := y,
    pcsr := u.cur.pcsr.filter fun c => c = 0 ∨ 4 < c,
    csr := { u.cur.csr with vtype := vt, vl := vl, vstart := 0, vsb := vsb, instret := u.cur.csr.instret + 1 } } } ∧
  OtherBanks u t ∧ XKept u t ∧ HooksKept u t ∧ LdestSet u t d ∧ Sequel u t ∧
  t.cur.pend = u.cur.pend ++ [pendOf u 2 (.cfg vl vt vsb (BitVec.ofNat 64 (vlmaxOf u.cur.lanes vt))) 0] ++ if d = 0 then [] else [pendOf u 2 (.x u.cur.level d vl false) 0]

/-- Why a value is no legal vtype (R275, R276), by number. -/
def VtypeFails (v : Word) : Nat → Prop
  | 1 => v.getLsbD 31 = true ∨ v.toNat / 2 ^ 32 ≠ 0 ∨ v.toNat / 2 ^ 25 % 2 ^ 6 ≠ 0
  | 2 => 4 ≤ v.toNat % 2 ^ 3
  | 3 => 6 ≤ v.toNat / 2 ^ 9 % 2 ^ 3
  | 4 => v.toNat / 2 ^ 12 % 2 ^ 3 = 1 ∨ v.toNat / 2 ^ 12 % 2 ^ 3 = 2
  | 5 => 10 ≤ v.toNat / 2 ^ 21 % 2 ^ 4
  | _ => False

/-- No other active hart of the core has a lane of this panel and none is held for a starved head (R115). -/
def PanelFree (s : State) (f : Nat × Nat) : Prop :=
  ∀ l, f.1 ≤ l → l < f.1 + f.2 →
    (∀ h ∈ s.activeHarts, h.core = s.cur.core → h.ctx ≠ s.cur.ctx → ¬(h.lane0 ≤ l ∧ l < h.lane0 + h.lanes)) ∧
    ∀ x ∈ s.sched.heldFor, x.core = s.cur.core → ¬(x.lane0 ≤ l ∧ l < x.lane0 + x.lanes)

/-- Nothing is outstanding and nothing far is to be asked or answered: an access to places of this device alone completes. -/
def Local (s : State) (els : List VElem) : Prop :=
  s.asking s.cur = false ∧ s.cur.asyncTrap = none ∧ ∀ e ∈ els, e.t.isFar = false ∧ s.rekeying e.t = false
/-- No memory samples are asked for (R370). -/
def Unsampled (s : State) : Prop := (s.worlds[s.cur.world.toNat]).obs.ctl.getLsbD 1 = false
/-- Every element of a list is aligned and translates, with its place (R284). -/
def Places (s : State) (n : Nat) (acc : Acc) (addr : Nat → Word) (idx : List Nat) (els : List VElem) : Prop :=
  els.map (·.idx) = idx ∧ ∀ e ∈ els, e.va = addr e.idx ∧ e.va.toNat % n = 0 ∧ translate s s.cur s.cur.level e.va n acc true = .ok e.t
/-- The lowest element that fails and its trap; those below it have their places (R198, R200). -/
def FailsAt (s : State) (n : Nat) (acc : Acc) (addr : Nat → Word) (idx : List Nat) (els : List VElem) (k : Nat) (t : Trap) : Prop :=
  ∃ rest, idx = els.map (·.idx) ++ k :: rest ∧ Places s n acc addr (els.map (·.idx)) els ∧
    if (addr k).toNat % n = 0 then translate s s.cur s.cur.level (addr k) n acc true = .error t
    else t = { code := 0x03, store := acc.writes, detail := addr k }
/-- The next state of a vector memory instruction on top of u, with one poison use where a source says so (R212). -/
def Once (poisoned : Bool) (s : State) (P : State → Prop) (t : State) : Prop :=
  ∃ t0, P t0 ∧ t = if poisoned then t0.countPoison s.cur 1 else t0

/-- The state once earlier work that must come first has ended: the hart runs, the VIQ has room, no samples are asked for. -/
def Settled (v : State) : Prop := v.cur.hold = none ∧ v.viqLength < 32 ∧ Unsampled v
/-- The state in which a vector memory instruction moves its elements. -/
def movingAt (v : State) : State := v.dropAsks v.cur
/-- The value and the poison that each element of a load reads (R284). -/
def gotAt (u : State) (n : Nat) (els : List VElem) (i : Nat) : Nat :=
  match els.find? fun e => e.idx == i with
  | some e => ofBytes (u.readAt u.cur.world e.t n).1
  | none => 0
def gotPoison (u : State) (n : Nat) (els : List VElem) : Bool := els.any fun e => (u.readAt u.cur.world e.t n).2
/-- Whether the register of a group from d that holds an element is poisoned (R17, R212). -/
def holderPoison (s : State) (d : BitVec 5) (i : Nat) : Bool :=
  s.cur.vec.pv.getLsbD ((d.toNat + i / s.cur.lanes * (s.cur.vcfg.sew / 8) / 256) % 32)
/-- The memory writes of a store's elements, each poisoned where the register of its data is. -/
def elemWrites (els : List VElem) (data : Nat → List Byte) (p : Nat → Bool) : List WriteBack :=
  els.map fun e => { target := e.t, data := data e.idx, poison := p e.idx }
/-- The hart stops at an element: what stands below it is done and in flight, vstart names it, and the hart holds for its trap
(R198, R200). The instruction stands last in the open convoy, as a member where it is the only one (R369, log 98). -/
def StoppedAt (u : State) (vstart : Nat) (tr : Trap) (r : VecRegs) (w : List WriteBack) (t : State) : Prop :=
  ∃ (mem : Memory) (worlds : Vector World 64) (closed : List Convoy) (c : Convoy),
    t = { u with
      cur := { u.cur with
        vec := r, csr := { u.cur.csr with vstart := BitVec.ofNat 64 vstart }, hold := some (.trap { tr with elem := true }), closed,
        convoy := some c },
      ops := u.ops ++ [opOf u 0 (.vector 0 none w [] [] none [] []) false 0], nextOp := u.nextOp + 1, mem,
      worlds := (({ u with worlds }).countDenied u.cur.world tr).worlds } ∧
    u.nextOp ∈ c.ops ∧ (c.head = u.cur.pc ∧ c.count = 1 ∨ ∃ o, u.cur.convoy = some o ∧ c.head = o.head ∧ c.count = o.count) ∧
    (u.cur.convoy = none ∧ u.cur.closed = [] ∨ (u.worlds[u.cur.world.toNat]).obs.ctl.getLsbD 0 = false → mem = u.mem ∧ worlds = u.worlds)

/-- A vector load or store: its instruction, the address of each element, scalar sources, index groups (R283, R284). -/
structure VMemRow where
  ld : Instr
  st : Instr
  addr : Nat → Word
  xs : List (BitVec 5)
  index : List (BitVec 5 × Nat)
def vmemTable (s : State) (d a b : BitVec 5) (mk : BitVec 3) (dt ch : BitVec 1) (h : BitVec 4) : List VMemRow :=
  let n := s.cur.vcfg.sew / 8
  [⟨.vld d a mk dt ch h, .vst d a mk dt ch h, fun i => s.cur.x a + BitVec.ofNat 64 (i * n), [a], []⟩,
   ⟨.vlds d a b mk dt ch h, .vsts d a b mk dt ch h, fun i => s.cur.x a + BitVec.ofNat 64 i * s.cur.x b, [a, b], []⟩,
   ⟨.vldx d a b mk dt ch h, .vstx d a b mk dt ch h, fun i => s.cur.x a + BitVec.ofNat 64 (s.vE b i), [a], [(b, s.cur.vcfg.g)]⟩]
/-- The active elements in rising order (R278). -/
def actives (s : State) (mk : BitVec 3) : List Nat := (List.range s.cur.vcfg.vl).filter fun i => s.cur.vec.active s.cur.vcfg mk.toNat i
/-- The bytes of a mask from vstart (R287). -/
def maskBytes (s : State) : List Nat := (List.range ((s.cur.vcfg.vl + 7) / 8)).filter fun j => decide (s.cur.vcfg.vstart ≤ 8 * j)

/-- A tile instruction runs (R276, R314 to R316, R321): the tile owner, vtype legal, sew as the mode needs, an even accumulator and
slices in split mode. -/
def TileReady (s : State) (xs : List (BitVec 5)) (groups : List (BitVec 5 × Nat)) (sew : Nat) (z : BitVec 5) : Prop :=
  VecReady s xs groups ∧ s.cur.tileOwner = true ∧ s.cur.vcfg.sew = sew ∧
  (s.cur.vcfg.tmode = 9 → z.getLsbD 0 = false ∧ s.cur.vcfg.slices ≠ 0)
/-- The places of the 1,024 cells of an accumulator in memory (R318). -/
def CellPlaces (s : State) (acc : Acc) (a b : BitVec 5) (els : List VElem) : Prop :=
  let n := if s.cur.vcfg.tmode = 9 then 8 else 4
  els.map (·.idx) = List.range 1024 ∧ (s.cur.x a).toNat % n = 0 ∧ (s.cur.x b).toNat % n = 0 ∧
  ∀ e ∈ els, e.va = s.cur.x a + BitVec.ofNat 64 (e.idx / 32) * s.cur.x b + BitVec.ofNat 64 (n * (e.idx % 32)) ∧
    translate s s.cur s.cur.level e.va n acc false = .ok e.t

/-! Rounding. -/

/-- The formats of R42. -/
def formats : List Fmt := [fmtD, fmtS, fmtH, fmtB, fmtE4, fmtE5]
/-- Whether a magnitude t + rem/full, rem below full, rounds up (R46, R48). -/
def roundsUp (rm : Rm) (neg : Bool) (t rem full : Nat) : Bool :=
  decide (rem ≠ 0) && match rm with
  | .rne => decide (full < 2 * rem ∨ (2 * rem = full ∧ t % 2 = 1))
  | .rtz => false
  | .rdn => neg
  | .rup => !neg
  | .rmm => decide (full ≤ 2 * rem)
  | .sr w => decide (2 ^ 32 ≤ rem * 2 ^ 32 / full + w)
/-- m·2^e in units of 2^q: the whole units, what is left, and what would make a unit of it. -/
def inUnits (m : Nat) (e q : Int) : Nat × Nat × Nat :=
  if q ≤ e then (m * 2 ^ (e - q).toNat, 0, 1) else (m / 2 ^ (q - e).toNat, m % 2 ^ (q - e).toNat, 2 ^ (q - e).toNat)
/-- t·2^q lies beyond the largest finite value of a format. -/
def Beyond (f : Fmt) (t : Nat) (q : Int) : Prop :=
  f.maxSig * 2 ^ (f.emax - f.fb - q).toNat < t * 2 ^ (q - (f.emax - f.fb)).toNat
/-- What ±m·2^e, m not 0, rounds to (R46 to R48, R50, R51). Of a value that rounds beyond the largest finite number the result is that of
R47; a stochastic one is beyond it only where R48 says ovf. Else the result is the rounded value, or zero of its sign where results are
flushed and it is subnormal; NX says that it is inexact, UF that it is so and tiny after rounding. -/
def RoundsTo (f : Fmt) (rm : Rm) (fo neg : Bool) (m : Nat) (e : Int) (r : Nat × Flags) : Prop :=
  let emin : Int := 1 - f.bias
  let lead : Int := e + m.log2
  let q := max lead emin - f.fb
  let (t, rem, full) := inUnits m e q
  let t' := if roundsUp rm neg t rem full then t + 1 else t
  let (u, urem, ufull) := inUnits m e (lead - f.fb)
  let u' := if roundsUp rm neg u urem ufull then u + 1 else u
  let tiny : Prop := match rm with
    | .sr _ => t' < 2 ^ f.fb
    | _ => lead < emin ∧ ¬(lead = emin - 1 ∧ u' = 2 ^ (f.fb + 1))
  let past : Prop := Beyond f t' q ∨ ((∃ w, rm = .sr w) ∧ rem ≠ 0 ∧ (f.emax < lead ∨ Beyond f t q))
  (past → r = (f.overflow rm neg, fOF ||| fNX)) ∧
  (¬past → fo = true → t' ≠ 0 → t' < 2 ^ f.fb → f.read r.1 = .fin neg 0 (emin - f.fb) ∧ r.2 = fUF ||| fNX) ∧
  (¬past → (fo = true → t' = 0 ∨ 2 ^ f.fb ≤ t') →
    (∃ k g, f.read r.1 = .fin neg k g ∧ k * 2 ^ (g - q).toNat = t' * 2 ^ (q - g).toNat) ∧
    (rem = 0 → r.2 = 0) ∧ (rem ≠ 0 → tiny → r.2 = fUF ||| fNX) ∧ (rem ≠ 0 → ¬tiny → r.2 = fNX))
/-- A finite term in units of 2^e, e at most its exponent; 0 for others. -/
def termIn (e : Int) : Fp → Int
  | .fin n m k => (if n then -1 else 1) * ((m * 2 ^ (k - e).toNat : Nat) : Int)
  | _ => 0
/-- A sum of terms none of which is NaN, rounded once (R44, R56): infinities of both signs are invalid; a sum of zero is −0 where every term is,
or in rdn, there but for a sum of +0 alone where `ieee` says so. -/
def SumsTo (f : Fmt) (rm : Rm) (fo ieee : Bool) (l : List Fp) (r : Nat × Flags) : Prop :=
  (.inf false ∈ l → .inf true ∈ l → r = (f.nan, fNV)) ∧
  (∀ neg, .inf neg ∈ l → .inf (!neg) ∉ l → r = (f.inf neg, 0)) ∧
  ((∀ neg, .inf neg ∉ l) → ∃ e : Int, (∀ n m k, .fin n m k ∈ l → e ≤ k) ∧
    let v := (l.map (termIn e)).sum
    let zeros (neg : Bool) : Prop := ∀ x ∈ l, ∃ k, x = .fin neg 0 k
    (v = 0 → (zeros true ∨ (rm = .rdn ∧ ¬(ieee = true ∧ zeros false)) → r = (f.signBit true, 0)) ∧
      (¬zeros true → rm ≠ .rdn ∨ (ieee = true ∧ zeros false) → r = (0, 0))) ∧
    (v ≠ 0 → RoundsTo f rm fo (decide (v < 0)) v.natAbs e r))
/-- A cell of the tile array (R56, R57): the old value and the products, cut as `cut` says where they are finite; a NaN, 0 × ∞ or `bad` gives
the canonical NaN. -/
def CellSums (f : Fmt) (cut : Fp → Fp) (rm : Rm) (fo ieee bad : Bool) (old : Fp) (l : List (Fp × Fp)) (r : Nat × Flags) : Prop :=
  let wrong : Prop := bad = true ∨ ∃ x ∈ l, x.1.isNan = false ∧ x.2.isNan = false ∧ x.1.mul x.2 = none
  let nan : Prop := old.isNan = true ∨ ∃ x ∈ l, x.1.isNan = true ∨ x.2.isNan = true
  let snan : Prop := old.isSnan = true ∨ ∃ x ∈ l, x.1.isSnan = true ∨ x.2.isSnan = true
  (snan ∨ wrong → r = (f.nan, fNV)) ∧ (nan → ¬snan → ¬wrong → r = (f.nan, 0)) ∧
  (¬nan → ¬wrong → ∃ ps : List Fp,
    ps.map some = (l.map fun x => if x.1.isInf = true ∨ x.2.isInf = true then x.1.mul x.2 else (cut x.1).mul (cut x.2)) ∧
    SumsTo f rm fo ieee (old :: ps) r)
/-- A weight of two signed powers of two with its scale (R45). -/
def weightOf (w scale : Nat) : Fp :=
  let term (sign code : Nat) : Int := if code = 7 then 0 else (if sign = 1 then -1 else 1) * 2 ^ (6 - code)
  let v := term (w / 128) (w / 16 % 8) + term (w / 8 % 2) (w % 8)
  .fin (decide (v < 0)) v.natAbs ((scale : Int) - 127 - 6)
/-- A value of a format as a signed integer of w bits (R52). -/
def IntegerOf (rm : Rm) (w : Nat) (x : Fp) (r : Nat × Flags) : Prop :=
  match x with
  | .nan _ => r = (0, fNV)
  | .inf n => r = (if n then 2 ^ (w - 1) else 2 ^ (w - 1) - 1, fNV)
  | .fin n m e =>
    let (t, rem, full) := inUnits m e 0
    let v : Int := (if n then -1 else 1) * ((if roundsUp rm n t rem full then t + 1 else t : Nat) : Int)
    (2 ^ (w - 1) ≤ v → r = (2 ^ (w - 1) - 1, fNV)) ∧ (v < -2 ^ (w - 1) → r = (2 ^ (w - 1), fNV)) ∧
    (-2 ^ (w - 1) ≤ v → v < 2 ^ (w - 1) → r = ((v % 2 ^ w).toNat, if rem = 0 then 0 else fNX))
/-- A value in a format: a NaN gives the canonical one, an infinity itself or, in E4M3, the largest number; zeros keep their sign (R44,
R47, R52). -/
def ConvertsTo (f : Fmt) (rm : Rm) (fo : Bool) (x : Fp) (r : Nat × Flags) : Prop :=
  match x with
  | .nan sg => r = (f.nan, if sg then fNV else 0)
  | .inf n => if f.e4m3 then r = (f.largest n, fOF ||| fNX) else r = (f.inf n, 0)
  | .fin n m e => if m = 0 then f.read r.1 = .fin n 0 (1 - f.bias - f.fb) ∧ r.2 = 0 else RoundsTo f rm fo n m e r
/-- The tree of R55 over leaves lo to lo + n - 1: a node takes the largest power of two below its count on its left, and its index is the
left end of its right part; an absent child leaves the other. -/
inductive TreeAdds (leaf : Nat → Option Nat) (add : Nat → Nat → Nat → Nat × Flags) : Nat → Nat → Option Nat × Flags → Prop where
  | leaf {lo} : TreeAdds leaf add lo 1 (leaf lo, 0)
  | node {lo n k x y} : 2 ^ k < n → n ≤ 2 ^ (k + 1) → TreeAdds leaf add lo (2 ^ k) x → TreeAdds leaf add (lo + 2 ^ k) (n - 2 ^ k) y →
      TreeAdds leaf add lo n (match x.1, y.1 with
        | some u, some v => (some (add (lo + 2 ^ k) u v).1, x.2 ||| y.2 ||| (add (lo + 2 ^ k) u v).2)
        | some u, none => (some u, x.2 ||| y.2)
        | none, z => (z, x.2 ||| y.2))

end Sys2Proof.Claims
end

