-- ==== Sys2Proof/Certificates/Slice0/Obligations.lean ====
section
/-! DEFINITION. The statements for the provers. -/
open Sys2Proof Sys2Proof.Machine Sys2Proof.Claims

/-! The machine as a whole. -/

/-- R6, R25, R107, R189, R190, R269, R271, R341, R381, R386, R388: the state right after reset, in the values the spec gives: no
hart runs, every unit's registers hold their reset values. That a byte of memory reads 0 is the model's reading of R386 (log 6).
R10, R25, R217: x0, h0 and m0 read as constants and take no write. -/
def Obligations.ResetState : Prop :=
  (let s := State.reset
  s.activeHarts = [] ∧ s.ops = [] ∧ s.sched.tasks = [] ∧ (∀ k, s.mem.read k = 0 ∧ s.mem.poisoned k = false ∧ s.mem.unitWritten k = false) ∧
  (∀ q, (s.queue q).bound = false ∧ (s.queue q).slots = [] ∧ (s.queue q).through = 0) ∧
  s.cur.csr.vtype = 0x80000000 ∧ s.cur.csr.vl = 0 ∧ s.cur.csr.fcsr = 0 ∧ s.cur.csr.vstart = 0 ∧ (∀ i : Fin 6, s.cur.csr.lcnt[i] = 1) ∧
  s.cur.csr.stimecmp = BitVec.allOnes 64 ∧ s.cur.csr.held = false ∧ s.cur.csr.vlost = false ∧ s.cur.strap.ie = false ∧
  s.cur.strap.strict = false ∧ s.cur.strap.pl = .user ∧
  (List.range 7).map s.alarmLevel = [1, 1, 2, 2, 1, 3, 3] ∧ s.thatum.alpol.getLsbD 63 = false ∧
  s.board.pkglim = 2400 ∧ (∀ i : Fin 8, s.board.stklim[i] = 250) ∧
  (∀ w, let x := s.worlds.getD w .reset; x.ecorr = 0 ∧ x.eunc = 0 ∧ x.epois = 0 ∧ x.elink = 0 ∧ x.eviol = 0 ∧ x.spres = 0 ∧
    x.obs.ctl = 0 ∧ x.obs.buf = 0 ∧ x.obs.head = 0 ∧ x.obs.tail = 0 ∧ x.obs.drop = 0 ∧ x.tdi = .unlocked ∧ ∀ i, x.profiles.getD i 0 = 0) ∧
  (∀ c, (s.bounceCh c).st = 0 ∧ (s.bounceCh c).key = none) ∧ MemInv s) ∧
  ((∀ h : Hart, h.x 0 = 0 ∧ h.px 0 = false ∧ h.hook 0 = 0) ∧
  (∀ (b : Bank) (v : Word) (p : Bool) (n : Half), b.writeX 0 v p = b ∧ b.writeH 0 n = b) ∧
  (∀ (b : Bank) (r q : BitVec 5) (v : Word) (p : Bool), (b.writeX r v p).readX q = (if q = r ∧ r ≠ 0 then (if p then 0 else v) else b.readX q) ∧
    (b.writeX r v p).poisonX q = (if q = r ∧ r ≠ 0 then p else b.poisonX q)) ∧
  (∀ (m : VecRegs) (i : Nat) (v : BitVec 65536), m.mask 0 i = true ∧ m.setMask 0 v = m))

/-- Memory keeps its canonical form (log 6) through every step of the machine: an instruction, a trap, any event of the device. -/
def Obligations.StepKeepsMemory : Prop := ∀ s t : State, MemInv s → step s = .next t → MemInv t

/-- R214 to R216, R220 to R233, R238: the decoder reads back what the encoder writes, for every well-formed instruction, as a word
of its own or as either half of a pair word. -/
def Obligations.EncodeDecode : Prop :=
  ∀ i : Instr, i.WellFormed →
    (∀ w, encode i = some w → decode w false = .ok i) ∧
    (∀ h, encodeCompact i = some h → ∀ g, decode (pairWord h g) false = .ok i ∧ decode (pairWord g h) true = .ok i)

/-- R214, R220, R238, R239: each word has one meaning: a word that decodes is the encoding of what it decodes to, which is well
formed, so that no two words stand for one instruction and no res bit is ignored. -/
def Obligations.DecodeEncode : Prop :=
  (∀ (w : Half) (i : Instr), isPair w = false → decode w false = .ok i → encode i = some w ∧ i.WellFormed) ∧
  (∀ (a b : BitVec 15) (i : Instr), (decode (pairWord a b) false = .ok i → encodeCompact i = some a ∧ i.WellFormed) ∧
    (decode (pairWord a b) true = .ok i → encodeCompact i = some b ∧ i.WellFormed)) ∧
  (∀ (w : Half) (i : Instr), isPair w = false → decode w true ≠ .ok i)

/-- R238, R250 to R258, R281, R319 and their worked examples: words that the spec writes out decode to the instructions it says. -/
def Obligations.WorkedWords : Prop :=
  decode 0x27200010 false = .ok (.lhi 25 0x10) ∧ decode 0x0AA4FFFD false = .ok (.addi 21 4 0xFFFD) ∧
  decode 0x32B90601 false = .ok (.stD 21 25 0 1) ∧ decode 0x2ED90601 false = .ok (.ldD 22 25 0 1) ∧
  decode 0x6685F000 false = .ok (.setvli 20 5 1 3 0 0 0 0) ∧ decode 0xC37ACB03 false = .ok (.cAdd 23 21) ∧
  decode 0xC37ACB03 true = .ok (.cShli 24 3) ∧ decode 0x3F000002 false = .ok (.bne 24 0 2) ∧ decode 0x58000005 false = .ok (.loop 0 5) ∧
  decode 0x60560026 false = .ok (.csrr 22 0x026) ∧ decode 0x06F6B00E false = .ok (.mul 23 22 22) ∧ decode 0x58400002 false = .ok (.dly 2) ∧
  decode 0x58C00000 false = .ok .halt ∧ decode 0x58801FFF false = .ok (.post 1 0xFFF) ∧ decode 0x58601000 false = .ok (.wait 0 1 0) ∧
  decode 0x66856400 false = .ok (.setvl 20 5 25 0) ∧ decode 0x94000000 false = .ok (.tzero 0) ∧ decode 0x94011003 false = .ok (.tmma 0 1 2) ∧
  decode 0x9015008E false = .ok (.mtld 21 1) ∧ decode 0x9041C04A false = .ok (.vntt 2 1 24 1)

/-- R116, R117, R193, R197, R214 to R216, R239: a step takes the turn that is next: a core's turn counts a cycle for what `dly`
holds and runs the word that its longest waiting ready hart fetches, decoded, or takes the trap of the fetch or ILLEGAL for a word
that is no instruction; an event comes about. The order of turns is the model's choice (log 2). The last clause is about
withFetchWord, the model's own device for placing one word (log 1). -/
def Obligations.StepRunsDecoded : Prop :=
  (∀ (core : Nat) (r : List Turn) (s : State), s.inbox = [] → s.agenda = .issue core :: r →
    let v : State := { s with clock := s.clock + 1, free := s.free + 1, agenda := r }
    (v.nextHart core = none → step s = .next (v.passCycle core)) ∧
    (∀ h, v.nextHart core = some h →
      (h ∈ v.harts ∧ h.core = core ∧ v.ready h = true ∧ ∀ g ∈ v.harts, g.core = core → v.ready g = true →
        h.lastIssue < g.lastIssue ∨ (h.lastIssue = g.lastIssue ∧ h.ctx ≤ g.ctx)) ∧
      let p := (v.passCycle core).prepare h
      (∀ t, p.turnStart = some t → step s = .next t) ∧
      (p.turnStart = none →
        let f : State := { p with cur := { p.cur with hold := none } }
        (∀ t w, f.fetch = .word t w → let u : State := { t with cur := { t.cur with ir := w } }
          (∀ i, decode w (t.cur.pc.getLsbD 1) = .ok i → step s = exec i u) ∧
          (∀ e, decode w (t.cur.pc.getLsbD 1) = .error e → step s = .next (u.takeTrap { code := 0x01, detail := w.setWidth 64 }))) ∧
        (∀ tr, f.fetch = .trap tr → step s = .next (f.takeTrap tr)) ∧
        (∀ t, f.fetch = .hold t → step s = .next t)))) ∧
  (∀ (e : Instr) (r : List Turn) (s : State), s.inbox = [] → s.agenda = .event e :: r → encode e = none → encodeCompact e = none →
    step s = exec e { s with clock := s.clock + 1, free := s.free + 1, agenda := r }) ∧
  (∀ (s : State) (nbits w : Nat) (i : Instr), MemInv s → decode (BitVec.ofNat 32 (w % 2 ^ nbits)) false = .ok i →
    ∃ u, step (s.withFetchWord nbits w) = exec i u ∧ u.cur.pc = 0x100000 ∧ u.cur.ir = BitVec.ofNat 32 (w % 2 ^ nbits) ∧
      u.cur.level = .user ∧ u.cur.bank.x = s.cur.user.x)

/-- R161, R163, R171, R185, R197, R214, R216, R266: the checks of a fetch in their order, and the word that it takes: the one in
memory or one that it has replaced (log 8), that the owner's world had and that no invalidation has taken from the hart's
instruction cache; the second half of a pair word that has just run its first half comes from the same word. -/
def Obligations.FetchReadsMemory : Prop :=
  ∀ s : State,
    let pc := s.cur.pc
    let at' := wordOf pc
    let pooled : Prop := ∃ p ∈ s.cur.ct.pools, p.1 ≤ at'.toNat / 32 ∧ at'.toNat / 32 < p.1 + p.2
    let paired : Prop := pc.getLsbD 1 = true ∧ isPair s.cur.ir = true
    (pc.getLsbD 0 = true → s.fetch = .trap { code := 0x03, detail := pc }) ∧
    (pc.getLsbD 0 = false →
      (paired → s.fetch = .word s s.cur.ir) ∧
      (¬paired → pooled → s.fetch = .trap { code := 0x02, detail := at' }) ∧
      (¬paired → ¬pooled →
        (∀ t, translate s s.cur s.cur.level at' 4 .fetch true = .error t → s.fetch = .trap t) ∧
        (∀ t, translate s s.cur s.cur.level at' 4 .fetch true = .ok t → t.isFar = false →
          ∃ u w, s.fetch = .word u w ∧
            (w = BitVec.ofNat 32 (ofBytes (s.readAt s.cur.world t 4).1) ∨
              ∃ e ∈ s.mem.olds, e.key = t.key ∧ e.word = w ∧ e.world = t.lworld ∧ ∀ i ∈ s.mem.icinvs, e.stamp ≤ i.stamp → i.covers s.device s.cur = false) ∧
            u = { s with mem := u.mem, sched := { s.sched with tasks := u.sched.tasks } } ∧ u.mem.bytes = s.mem.bytes)))

/-! Scalar arithmetic. -/

/-- R244: every register form of latency 1 writes its result, with the poison of its sources, and changes nothing else. R244: counts
of bits and the byte swap. R246: immediate forms, their immediates read as R221 says; `lpc` adds to the address of its own word; of
major 0x06, kind 0b11 and a non-zero bit in [15:8] trap ILLEGAL: the word is no instruction. -/
def Obligations.IntegerForms : Prop :=
  (∀ e ∈ intTable, ∀ (d a b : BitVec 5) (s : State), Waited s [a, b] →
    Completes (e.1 d a b) s (AluDone s d (e.2 (s.cur.x a) (s.cur.x b)) (s.cur.px a || s.cur.px b))) ∧
  (∀ e ∈ bitTable, ∀ (d a : BitVec 5) (s : State), Waited s [a] →
    Completes (e.1 d a) s (AluDone s d (e.2 (s.cur.x a)) (s.cur.px a))) ∧
  ((∀ w : Half, w.extractLsb' 26 6 = 0x06 → w.extractLsb' 6 2 = 3 ∨ w.extractLsb' 8 8 ≠ 0 → ∃ e, decode w false = .error e) ∧
  (∀ e ∈ immTable, ∀ (d a : BitVec 5) (i : BitVec 16) (s : State), Waited s [a] →
    Completes (e.1 d a i) s (AluDone s d (e.2 (s.cur.x a) i) (s.cur.px a))) ∧
  (∀ e ∈ shiftTable, ∀ (d a : BitVec 5) (n : BitVec 6) (s : State), Waited s [a] →
    Completes (e.1 d a n) s (AluDone s d (e.2 (s.cur.x a) n.toNat) (s.cur.px a))) ∧
  (∀ (d : BitVec 5) (i : BitVec 16) (s : State),
    Completes (.lhi d i) s (AluDone s d ((i ++ 0#16).signExtend 64) false) ∧
    Completes (.lpc d i) s (AluDone s d (wordOf s.cur.pc + (i ++ 0#16).signExtend 64) false)))

/-- R41, R243, R244: a product is in flight from its issue and lands in the third slot. R41, R245: a division is an operation in
flight, with its hook, its result and its destination. -/
def Obligations.ProductsAndDivisions : Prop :=
  (∀ e ∈ mulTable, ∀ (d a b : BitVec 5) (s : State), Waited s [a, b] →
    Completes (e.1 d a b) s (LateDone s 3 d (e.2 (s.cur.x a) (s.cur.x b)) (s.cur.px a || s.cur.px b) 0)) ∧
  (∀ e ∈ divTable, ∀ (d a b : BitVec 5) (h : BitVec 4) (s : State), Waited s [a, b] →
    Completes (e.1 d a b h) s (Started s d (opOf s h (.divide false (e.2 (s.cur.x a) (s.cur.x b)) 0 (s.cur.px a || s.cur.px b)
      { lvl := s.cur.level, r := d, live := d != 0 }) false 0)))

/-- R237: the compact instructions, with the register that ldest names as their first source. R237: a compact instruction has
exactly the effect of its expansion; op 31, and op 0 with a or b non-zero, are no instruction. -/
def Obligations.CompactForms : Prop :=
  ((∀ e ∈ compactTable, ∀ (a b : BitVec 5) (s : State), Waited s [s.cur.bank.ldest, b] →
    Completes (e.1 a b) s (AluDone s a (e.2 (s.cur.x s.cur.bank.ldest) (s.cur.x b)) (s.cur.px s.cur.bank.ldest || s.cur.px b))) ∧
  (∀ e ∈ compactImmTable, ∀ (a b : BitVec 5) (s : State), Waited s [s.cur.bank.ldest] →
    Completes (e.1 a b) s (AluDone s a (e.2 (s.cur.x s.cur.bank.ldest) b) (s.cur.px s.cur.bank.ldest))) ∧
  (∀ e ∈ compactMulTable, ∀ (a b : BitVec 5) (s : State), Waited s [s.cur.bank.ldest, b] →
    Completes (e.1 a b) s (LateDone s 3 a (e.2 (s.cur.x s.cur.bank.ldest) (s.cur.x b)) (s.cur.px s.cur.bank.ldest || s.cur.px b) 0)) ∧
  (∀ (a b : BitVec 5) (s : State), Completes (.cNop a b) s fun t =>
    Quiet s t ∧ Sequel s t)) ∧
  ((∀ h g : BitVec 15, h.extractLsb' 10 5 = 31 ∨ (h.extractLsb' 10 5 = 0 ∧ h.extractLsb' 0 10 ≠ 0) →
    (∃ e, decode (pairWord h g) false = .error e) ∧ ∃ e, decode (pairWord g h) true = .error e) ∧
  ∀ (a b : BitVec 5) (s : State), let l := s.cur.bank.ldest
    exec (.cAdd a b) s = exec (.add a l b) s ∧ exec (.cSub a b) s = exec (.sub a l b) s ∧
    exec (.cAnd a b) s = exec (.and a l b) s ∧ exec (.cOr a b) s = exec (.or a l b) s ∧ exec (.cXor a b) s = exec (.xor a l b) s ∧
    exec (.cShl a b) s = exec (.shl a l b) s ∧ exec (.cShr a b) s = exec (.shr a l b) s ∧ exec (.cSra a b) s = exec (.sra a l b) s ∧
    exec (.cSlt a b) s = exec (.slt a l b) s ∧ exec (.cSltu a b) s = exec (.sltu a l b) s ∧
    exec (.cMin a b) s = exec (.min a l b) s ∧ exec (.cMax a b) s = exec (.max a l b) s ∧
    exec (.cMinu a b) s = exec (.minu a l b) s ∧ exec (.cMaxu a b) s = exec (.maxu a l b) s ∧
    exec (.cMul a b) s = exec (.mul a l b) s ∧ exec (.cMulhu a b) s = exec (.mulhu a l b) s ∧
    exec (.cAddi a b) s = exec (.addi a l (b.signExtend 16)) s ∧ exec (.cAndi a b) s = exec (.andi a l (b.signExtend 16)) s ∧
    exec (.cSlti a b) s = exec (.slti a l (b.signExtend 16)) s ∧ exec (.cShli a b) s = exec (.shli a l (b.setWidth 6)) s ∧
    exec (.cShri a b) s = exec (.shri a l (b.setWidth 6)) s ∧ exec (.cSrai a b) s = exec (.srai a l (b.setWidth 6)) s ∧
    exec (.cLdD a b) s = exec (.ldD a l 0 (b.setWidth 9)) s ∧ exec (.cLdW a b) s = exec (.ldW a l 0 (b.setWidth 9)) s ∧
    exec (.cStD a b) s = exec (.stD a l 0 (b.setWidth 9)) s ∧ exec (.cStW a b) s = exec (.stW a l 0 (b.setWidth 9)) s ∧
    exec (.cFaddD a b) s = exec (.fadd a l b 0) s ∧ exec (.cFsubD a b) s = exec (.fsub a l b 0) s ∧
    exec (.cFmulD a b) s = exec (.fmul a l b 0) s ∧ exec (.cFmaD a b) s = exec (.fma a l b 0) s)

/-- R46, R237, R243, R260, R261: an instruction that rounds, in its full and its compact form, lands its result and its flags in the
fourth slot. R53, R243, R260, R261: comparisons, minima, maxima and classes land in the second slot and need no rounding mode. R46,
R261: with a mode in fcsr that scalar instructions may not round in, a rounding instruction traps ILLEGAL, with the word as its
detail; `fdiv` and `fsqrt` otherwise put an operation in flight. -/
def Obligations.ScalarFloats : Prop :=
  ((∀ e ∈ fpTable, ∀ (d a b : BitVec 5) (fmt : BitVec 2) (s : State), Waited s (if e.2.2 then [d, a, b] else [a, b]) →
    s.cur.rmCode < 5 →
    let f := fmtOf fmt
    let x (r : BitVec 5) := f.read ((s.cur.x r).toNat % 2 ^ f.width)
    let r := e.1 f s.cur.rm (x d) (x a) (x b)
    Completes (e.2.1 d a b fmt) s (LateDone s 4 d (BitVec.ofNat 64 r.1) ((e.2.2 && s.cur.px d) || (s.cur.px a || s.cur.px b)) r.2)) ∧
  (∀ e ∈ compactFpTable, ∀ (a b : BitVec 5) (s : State), let l := s.cur.bank.ldest
    Waited s (if e.2.2 then [a, l, b] else [l, b]) → s.cur.rmCode < 5 →
    let f := fmtOf 0
    let x (r : BitVec 5) := f.read ((s.cur.x r).toNat % 2 ^ f.width)
    let r := e.1 f s.cur.rm (x a) (x l) (x b)
    Completes (e.2.1 a b) s (LateDone s 4 a (BitVec.ofNat 64 r.1) ((e.2.2 && s.cur.px a) || (s.cur.px l || s.cur.px b)) r.2)) ∧
  (∀ (d a code : BitVec 5) (fmt : BitVec 2) (s : State), Waited s [a] → s.cur.rmCode < 5 ∨ cvtAlwaysExact fmt code →
    let r := cvtResult (fmtOf fmt) s.cur.rm code (s.cur.x a)
    Completes (.fcvt d a code fmt) s (LateDone s 4 d (BitVec.ofNat 64 r.1) (s.cur.px a) r.2)) ∧
  (∀ (d a code : BitVec 5) (fmt : BitVec 2) (s : State), Waited s [a] → s.cur.rmCode < 5 → code = 4 ∨ code = 5 →
    let w := if code = 4 then 32 else 64
    let r := ((fmtOf fmt).read ((s.cur.x a).toNat % 2 ^ (fmtOf fmt).width)).toInt s.cur.rm w
    Completes (.fcvtInt d a code fmt) s
      (LateDone s 4 d (if code = 4 then (BitVec.ofNat 32 r.1).signExtend 64 else BitVec.ofNat 64 r.1) (s.cur.px a) r.2))) ∧
  ((∀ e ∈ fpCmpTable, ∀ (d a b : BitVec 5) (fmt : BitVec 2) (s : State), Waited s [a, b] →
    let f := fmtOf fmt
    let r := e.2.holds (f.read ((s.cur.x a).toNat % 2 ^ f.width)) (f.read ((s.cur.x b).toNat % 2 ^ f.width))
    Completes (e.1 d a b fmt) s (LateDone s 2 d (if r.1 then 1 else 0) (s.cur.px a || s.cur.px b) r.2)) ∧
  (∀ (d a b : BitVec 5) (fmt : BitVec 2) (s : State), Waited s [a, b] →
    let f := fmtOf fmt
    let r (up : Bool) := f.minmax up false ((s.cur.x a).toNat % 2 ^ f.width) ((s.cur.x b).toNat % 2 ^ f.width)
    Completes (.fmin d a b fmt) s (LateDone s 2 d (BitVec.ofNat 64 (r false).1) (s.cur.px a || s.cur.px b) (r false).2) ∧
    Completes (.fmax d a b fmt) s (LateDone s 2 d (BitVec.ofNat 64 (r true).1) (s.cur.px a || s.cur.px b) (r true).2)) ∧
  (∀ (d a : BitVec 5) (fmt : BitVec 2) (s : State), Waited s [a] →
    let f := fmtOf fmt
    Completes (.fclass d a fmt) s (LateDone s 2 d (BitVec.ofNat 64 (f.classify ((s.cur.x a).toNat % 2 ^ f.width))) (s.cur.px a) 0))) ∧
  ((∀ (d a b : BitVec 5) (h : BitVec 4) (fmt : BitVec 2) (s : State), Waited s [a, b] → s.cur.rmCode < 5 →
    let f := fmtOf fmt
    let x (r : BitVec 5) := f.read ((s.cur.x r).toNat % 2 ^ f.width)
    let dest : XDest := { lvl := s.cur.level, r := d, live := d != 0 }
    Completes (.fdiv d a b h fmt) s (Started s d (opOf s h (.divide true (BitVec.ofNat 64 (f.div s.cur.rm false (x a) (x b)).1)
      (f.div s.cur.rm false (x a) (x b)).2 (s.cur.px a || s.cur.px b) dest) false 0)) ∧
    Completes (.fsqrt d a h fmt) s (Started s d (opOf s h (.divide true (BitVec.ofNat 64 (f.sqrt s.cur.rm false (x a)).1)
      (f.sqrt s.cur.rm false (x a)).2 (s.cur.px a) dest) false 0))) ∧
  (∀ (d a b : BitVec 5) (h : BitVec 4) (fmt : BitVec 2) (s : State), 5 ≤ s.cur.rmCode →
    ∀ i ∈ [Instr.fadd d a b fmt, .fsub d a b fmt, .fmul d a b fmt, .fma d a b fmt, .fdiv d a b h fmt, .fsqrt d a h fmt,
           .cFaddD a b, .cFsubD a b, .cFmulD a b, .cFmaD a b],
      exec i s = .next (s.takeTrap { code := 0x01, detail := s.cur.ir.setWidth 64 })) ∧
  (∀ (d a code : BitVec 5) (fmt : BitVec 2) (s : State), 5 ≤ s.cur.rmCode →
    (¬ cvtAlwaysExact fmt code → exec (.fcvt d a code fmt) s = .next (s.takeTrap { code := 0x01, detail := s.cur.ir.setWidth 64 })) ∧
    exec (.fcvtInt d a code fmt) s = .next (s.takeTrap { code := 0x01, detail := s.cur.ir.setWidth 64 })))

/-! Scalar memory. -/

/-- R247: loads. From the TCM the result lands in the third slot; from elsewhere in the device the load is in flight. R143, R147,
R178, R198: loads from another device; that such a load holds its hart until the answer has come is the model's choice (log 70).
R175, R211, R212: what a place of this device reads as. -/
def Obligations.Loads : Prop :=
  ((∀ e ∈ loadTable, ∀ (d a : BitVec 5) (h : BitVec 4) (imm : BitVec 9) (s : State),
    let va := s.cur.x a + imm.signExtend 64 * BitVec.ofNat 64 e.2.1
    TcmLoadRuns (e.1 d a h imm) s d a va e.2.1 e.2.2 h ∧ LoadStarts (e.1 d a h imm) s d a va e.2.1 e.2.2 h) ∧
  (∀ (a b : BitVec 5) (s : State), let l := s.cur.bank.ldest
    TcmLoadRuns (.cLdD a b) s a l (s.cur.x l + BitVec.ofNat 64 (8 * b.toNat)) 8 true 0 ∧
    TcmLoadRuns (.cLdW a b) s a l (s.cur.x l + BitVec.ofNat 64 (4 * b.toNat)) 4 true 0)) ∧
  (∀ e ∈ loadTable, ∀ (d a : BitVec 5) (h : BitVec 4) (imm : BitVec 9) (s : State),
    FarLoadRuns (e.1 d a h imm) s d a (s.cur.x a + imm.signExtend 64 * BitVec.ofNat 64 e.2.1) e.2.1 e.2.2 h) ∧
  (∀ (s : State) (w : BitVec 6) (t : Target) (n : Nat), t.erased s w = false →
    ((∃ k, Touches t.key n k ∧ s.mem.poisoned k = true) → readTarget s w t n = (List.replicate n 0, true)) ∧
    ((∀ k, Touches t.key n k → s.mem.poisoned k = false) →
      (readTarget s w t n).2 = false ∧ (readTarget s w t n).1.length = n ∧
      ∀ i, i < n → (readTarget s w t n).1[i]? = some (
        if t.enc = 2 then
          (if s.mem.unitWritten (t.key + i) then
            s.mem.read (t.key + i) ^^^ elemStream w.toNat t.nonce t.gen (s.device * 2 ^ 47 + t.key + i) else 0)
        else s.mem.read (t.key + i))))

/-- R88, R143, R145, R178, R212, R247: stores to this device and to others; one that must claim elsewhere holds its hart (log 70).
R193, R197, R247: what loads and stores trap on, the first failed check first. -/
def Obligations.Stores : Prop :=
  ((∀ e ∈ storeTable, ∀ (d a : BitVec 5) (h : BitVec 4) (imm : BitVec 9) (s : State),
    FarStoreRuns (e.1 d a h imm) s s d a (s.cur.x a + imm.signExtend 64 * BitVec.ofNat 64 e.2) e.2 h) ∧
  (∀ (a b : BitVec 5) (s : State), let l := s.cur.bank.ldest
    FarStoreRuns (.cStD a b) s s a l (s.cur.x l + BitVec.ofNat 64 (8 * b.toNat)) 8 0 ∧
    FarStoreRuns (.cStW a b) s s a l (s.cur.x l + BitVec.ofNat 64 (4 * b.toNat)) 4 0) ∧
  (∀ e ∈ storeTable, ∀ (d a : BitVec 5) (h : BitVec 4) (imm : BitVec 9) (s : State),
    StoreStarts (e.1 d a h imm) s d a (s.cur.x a + imm.signExtend 64 * BitVec.ofNat 64 e.2) e.2 h) ∧
  (∀ (a b : BitVec 5) (s : State), let l := s.cur.bank.ldest
    StoreStarts (.cStD a b) s a l (s.cur.x l + BitVec.ofNat 64 (8 * b.toNat)) 8 0 ∧
    StoreStarts (.cStW a b) s a l (s.cur.x l + BitVec.ofNat 64 (4 * b.toNat)) 4 0)) ∧
  ((∀ e ∈ loadTable, ∀ (d a : BitVec 5) (h : BitVec 4) (imm : BitVec 9) (s : State),
    LoadChecks (e.1 d a h imm) s a (s.cur.x a + imm.signExtend 64 * BitVec.ofNat 64 e.2.1) e.2.1 h) ∧
  (∀ e ∈ storeTable, ∀ (d a : BitVec 5) (h : BitVec 4) (imm : BitVec 9) (s : State),
    StoreChecks (e.1 d a h imm) s d a (s.cur.x a + imm.signExtend 64 * BitVec.ofNat 64 e.2) e.2))

/-- R76, R81, R88, R143, R144, R147, R248, R372: acquires, releases and read-modify-writes of a word of this device or of another.
That a release or a read-modify-write has earlier accesses performed at its issue is the model's choice (log 3), and that a far
acquire or read-modify-write holds its hart is another (log 70). -/
def Obligations.Atomics : Prop :=
  (∀ (d a : BitVec 5) (h : BitVec 4) (sc : BitVec 3) (s : State), FarReadRuns (.ldacq d a h sc) s d a (s.cur.x a) 8 false h) ∧
  (∀ (d a : BitVec 5) (h : BitVec 4) (sc : BitVec 3) (s : State), SysClear s sc →
    FarStoreRuns (.strel d a h sc) s (s.drainAll (sc == 5)) d a (s.cur.x a) 8 h) ∧
  (∀ e ∈ amoTable, ∀ (d a b : BitVec 5) (h : BitVec 4) (sc : BitVec 3) (s : State) (t : Target),
    Waited s (if e.2 = .cas then [a, b, d] else [a, b]) → (s.cur.x a).toNat % 8 = 0 →
    translate s s.cur s.cur.level (s.cur.x a) 8 .atomic true = .ok t → t.isFar = true → SysClear s sc →
    let u := (s.drainAll (sc == 5)).touch s.cur.world (s.cur.x a).toNat
    let rid := (u.peer t.dev).rid
    let m : Msg := .amo { rid, tag := { world := s.cur.world.toNat, lworld := t.lworld, enc := t.enc }, addr := t.key, op := e.2,
                          arg := s.cur.x b, cmp := s.cur.x d }
    let q : FarReq := { id := u.nextOp, core := s.cur.core, ctx := s.cur.ctx, dev := t.dev, rid := rid.toNat, ask := .amo t.key 0, msg := m,
                        answer := none }
    (u.answer s.cur t.dev (.amo t.key 0) = none → exec (e.1 d a b h sc) s = .next (State.holdOn
      (if u.amoFull t.dev then u else
        ({ u with farReqs := u.farReqs ++ [q], nextOp := u.nextOp + 1 }.modPeer t.dev fun p => { p with rid := p.rid + 1 }).send t.dev m) .far)) ∧
    (u.answer s.cur t.dev (.amo t.key 0) = some none → exec (e.1 d a b h sc) s = .next (u.holdOn .far)) ∧
    (∀ c k, u.answer s.cur t.dev (.amo t.key 0) = some (some (.fail c k)) →
      exec (e.1 d a b h sc) s = .next (s.takeTrap (memTrap k c 3 true .atomic (s.cur.x a)))) ∧
    (∀ v, u.answer s.cur t.dev (.amo t.key 0) = some (some (.old v)) → let w := u.dropAsks s.cur
      Completes (e.1 d a b h sc) s (Counting s [a] (Started w d
        (opOf w h (.arrived v { lvl := s.cur.level, r := d, live := d != 0 }) false (s.cur.x a)))))) ∧
  (∀ (d a : BitVec 5) (h : BitVec 4) (sc : BitVec 3) (s : State) (t : Target), Waited s [a] → (s.cur.x a).toNat % 8 = 0 →
    translate s s.cur s.cur.level (s.cur.x a) 8 .load true = .ok t → t.isFar = false → s.rekeying t = false →
    let u := (s.touch s.cur.world (s.cur.x a).toNat).drainFor t.key 8 (t.home == .host)
    Completes (.ldacq d a h sc) s (Counting s [a] (Started u d
      (opOf u h (.atomic none t 0 0 false { lvl := s.cur.level, r := d, live := d != 0 }) true (s.cur.x a) (sc == 5 || t.obhead))))) ∧
  (∀ (d a : BitVec 5) (h : BitVec 4) (sc : BitVec 3) (s v : State) (t : Target), Waited s [a, d] → (s.cur.x a).toNat % 8 = 0 →
    translate s s.cur s.cur.level (s.cur.x a) 8 .store true = .ok t → t.isFar = false → (s.drainAll (sc == 5)).rekeying t = false → SysClear s sc →
    claimTarget ((s.drainAll (sc == 5)).touch (s.drainAll (sc == 5)).cur.world (s.cur.x a).toNat) t 8 = .ok v →
    let u := v.drainFor t.key 8
    Completes (.strel d a h sc) s (Counting s [a] (Started u 0
      (opOf u h (.store { target := t, data := storedBytes 8 (s.cur.x d), poison := s.cur.px d }) false (s.cur.x a))))) ∧
  (∀ e ∈ amoTable, ∀ (d a b : BitVec 5) (h : BitVec 4) (sc : BitVec 3) (s v : State) (t : Target),
    let srcs := if e.2 = .cas then [a, b, d] else [a, b]
    Waited s srcs → (s.cur.x a).toNat % 8 = 0 →
    translate s s.cur s.cur.level (s.cur.x a) 8 .atomic true = .ok t → t.isFar = false → s.rekeying t = false → SysClear s sc →
    claimTarget ((s.drainAll (sc == 5)).touch s.cur.world (s.cur.x a).toNat) t 8 = .ok v →
    let u := v.drainFor t.key 8
    Completes (e.1 d a b h sc) s (Counting s [a] (Started u d
      (opOf u h (.atomic (some e.2) t (s.cur.x b) (s.cur.x d) (s.cur.px b) { lvl := s.cur.level, r := d, live := d != 0 })
        true (s.cur.x a) (sc == 5)))))

/-- R74, R147: at scope sys a release, a read-modify-write and a fence wait while far writes of the hart are not acknowledged, and
trap where one has timed out. R73, R74, R265, R266: a fence has the accesses that it orders performed and goes on, which is how the
model keeps their order (log 3); `icinv` is an operation in flight. -/
def Obligations.FencesAndSysScope : Prop :=
  ((∀ (d a : BitVec 5) (h : BitVec 4) (s : State) (t : Target), Waited s [a, d] → (s.cur.x a).toNat % 8 = 0 →
    translate s s.cur s.cur.level (s.cur.x a) 8 .store true = .ok t →
    (∀ f r, s.cur.lateAck = f :: r → exec (.strel d a h 5) s = .next (s.takeTrap f.trap)) ∧
    (s.cur.lateAck = [] → s.unacked = true → exec (.strel d a h 5) s = .next ((s.drainAll true).holdOn .ack))) ∧
  (∀ e ∈ amoTable, ∀ (d a b : BitVec 5) (h : BitVec 4) (s : State) (t : Target),
    Waited s (if e.2 = .cas then [a, b, d] else [a, b]) → (s.cur.x a).toNat % 8 = 0 →
    translate s s.cur s.cur.level (s.cur.x a) 8 .atomic true = .ok t →
    (∀ f r, s.cur.lateAck = f :: r → exec (e.1 d a b h 5) s = .next (s.takeTrap f.trap)) ∧
    (s.cur.lateAck = [] → s.unacked = true → exec (e.1 d a b h 5) s = .next ((s.drainAll true).holdOn .ack))) ∧
  (∀ e ∈ fenceTable, ∀ s : State,
    (∀ f r, s.cur.lateAck = f :: r → exec (e.1 5) s = .next (s.takeTrap f.trap)) ∧
    (s.cur.lateAck = [] → s.unacked = true → exec (e.1 5) s = .next ((s.drain e.2 true).holdOn .ack)))) ∧
  ((∀ e ∈ fenceTable, ∀ (sc : BitVec 3) (s : State), SysClear s sc →
    Completes (e.1 sc) s fun t => Quiet (s.drain e.2 (sc == 5)) t ∧ Sequel (s.drain e.2 (sc == 5)) t) ∧
  (∀ s : State, Completes .fenceSv s fun t => Quiet (s.drain OpKind.isScalarAccess false) t ∧ Sequel (s.drain OpKind.isScalarAccess false) t) ∧
  (∀ (a b : BitVec 5) (h : BitVec 4) (sc : BitVec 3) (s : State),
    (5 ≤ sc.toNat → exec (.icinv a h b sc) s = .next (s.takeTrap { code := 0x01, detail := s.cur.ir.setWidth 64 })) ∧
    (sc.toNat < 5 → Waited s [a, b] →
      Completes (.icinv a h b sc) s (Started (s.useX [a]) 0
        (opOf (s.useX [a]) h (.icinv (s.cur.x a).toNat (s.cur.x b).toNat sc) false (s.cur.x a))))))

/-- R118, R175, R212, R245, R247, R248, R261: loads, stores, read-modify-writes and divisions in flight come to their end. A store
changes the bytes at its place and no other byte of memory; a load and a division change none. R10, R118, R119, R252, R404: a hooked
fixed-latency result lands ahead of its slot: its destination takes its value, its hook is posted, older results for the same
register are discarded but for their posts, and a read before the slot stays under-waited. R120, R163, R216, R266, R285, R374: a
vector instruction that is the oldest of its hart completes: its writes, its flags, its table, its scalar result, its post, the
records of convoys that are done; an `icinv` completes: no later fetch of the harts of its scope returns a version of a word of its
range that was replaced before. -/
def Obligations.OperationsEnd : Prop :=
  (∀ (n0 : Nat) (o : Op) (s : State) (h : Hart), s.opById n0 = some o → s.hartAt o.core o.ctx = some h →
    (∀ t n sg d, o.kind = .load t n sg d → Near t →
      let r := readTarget s h.world t n
      Completes (.loadDataArrival n0) s (Ended s o (some (d, loadValue n sg r.1, r.2)) id)) ∧
    (∀ v d, o.kind = .arrived v d → Completes (.loadDataArrival n0) s (Ended s o (some (d, v, false)) id)) ∧
    (∀ w, o.kind = .store w → Near w.target → s.mem.wf = true → w.target.erased s h.world = false →
      ∃ m, StoredAt s h.world w.target w.data w.poison m ∧
        let u : State := { s with mem := m }
        Completes (.storePerformed n0) s (Ended (if w.poison && w.target.translated then u.countPoison h 1 else u) o none id)) ∧
    (∀ fp v f p d, o.kind = .divide fp v f p d →
      Completes (if fp then .fdivComplete n0 else .divideComplete n0) s
        (Ended s o (some (d, v, p)) fun h => if fp then h.raiseFlags f else h)) ∧
    (∀ op t arg cmp p d, o.kind = .atomic op t arg cmp p d → Near t → s.mem.wf = true →
      t.erased s h.world = false →
      let r := readTarget s h.world t 8
      let old : Word := if op.isSome && t.enc = 2 then 0 else BitVec.ofNat 64 (ofBytes r.1)
      ∃ v, Completes (.atomicComplete n0) s (Ended v o (some (d, old, r.2)) id) ∧
        (∀ x, op = some x → (x = .cas → old = cmp) →
          let q := p || (r.2 && !(x matches .swap | .cas))
          StoredAt s h.world t (storedBytes 8 (amoResult x old arg cmp)) q v.mem ∧
          v = if q && t.translated then ({ s with mem := v.mem }).countPoison h 1 else { s with mem := v.mem }) ∧
        (op = none ∨ (op = some .cas ∧ old ≠ cmp) → v = s))) ∧
  (∀ (n : Nat) (h : Hart) (p : Pend) (s : State),
    (s.harts.find? fun g => g.pend.any fun q => q.seq == n && q.hook != 0 && !q.done) = some h →
    s.hartAt h.core h.ctx = some h → (h.pend.find? fun q => q.seq == n && q.hook != 0 && !q.done) = some p →
    Completes (.fixedResultLanding n) s fun t =>
      t = { s with cur := t.cur, others := t.others, ops := t.ops } ∧
      (∀ c k, ¬(c = h.core ∧ k = h.ctx) → t.hartAt c k = s.hartAt c k) ∧
      (∀ o ∈ t.ops, ∃ q ∈ s.ops, o = { q with kind := o.kind } ∧ (¬(q.core = h.core ∧ q.ctx = h.ctx ∧ q.seq < n) → o = q)) ∧
      ∃ g, t.hartAt h.core h.ctx = some g ∧
        (g.bankOf p.lvl).readH p.hook = (if (h.bankOf p.lvl).poisonH p.hook then 0 else (h.bankOf p.lvl).readH p.hook + 1) ∧
        (∀ r, r ≠ p.hook → (g.bankOf p.lvl).readH r = (h.bankOf p.lvl).readH r) ∧
        (∀ l r v e, p.dest = .x l r v e → r ≠ 0 → (g.bankOf l).readX r = (if e then 0 else v) ∧ (g.bankOf l).poisonX r = e) ∧
        { p with done := true } ∈ g.pend ∧ ∀ q ∈ g.pend, q ∈ h.pend ∨ q.dest = .none ∨ (q.seq = n ∧ q.dest = p.dest ∧ q.done = true)) ∧
  ((∀ (s : State) (o : Op) (h : Hart), s.opById o.id = some o → s.hartAt o.core o.ctx = some h →
    (∀ f x ws ov om mt smp, o.kind = .vector f x ws ov om mt [] smp → s.viqHead o = true →
      let u := ws.foldl (fun v w => v.performStore h w) s
      let v := if smp = [] then u else u.record h.world smp
      Completes (.vectorComplete o.id) s fun t => ∃ r, t = r.settleConvoys o.core o.ctx ∧ Ended v o x (fun g =>
        { g.raiseFlags f with ct := { g.ct with mtab := mt.getD g.ct.mtab } }) r) ∧
    (∀ base len sc, o.kind = .icinv base len sc →
      Completes (.icinvComplete o.id) s (Ended { s with mem := { s.mem with icinvs :=
        { world := h.world, sc, core := o.core, ctx := o.ctx, base, len, stamp := s.clock } :: s.mem.icinvs } } o none id))) ∧
  (∀ (s : State) (t : Target) (w : Half), s.cachedWord t w = w ∨ s.cachedWord t w ∈ s.oldWords t) ∧
  (∀ (s : State) (t : Target) (e : Icinv), e ∈ s.mem.icinvs → e.world = s.cur.world →
    scopeInstance e.sc s.device s.cur.core e.ctx = scopeInstance e.sc s.device e.core e.ctx →
    (∃ j, j < 4 ∧ ((wordOf s.cur.pc).toNat + j + 2 ^ 55 - e.base % 2 ^ 55) % 2 ^ 55 < e.len) →
    ∀ w ∈ s.oldWords t, ∃ x ∈ s.mem.olds, x.key = t.fetchKey ∧ x.word = w ∧ e.stamp < x.stamp))

/-! Control. -/

/-- R212, R224, R249, R255, R256: a branch goes to its target where its condition holds, else on in sequence; it writes no register.
A taken branch leaves the loops whose bodies it leaves. Poisoned sources count one use together, as the model counts them (log 17).
R224, R249, R256: `jal` and `jalr` write the address of the next word to their link register and go to their target; with x0 as link
register they write nothing and leave loops as a branch does; `jalr` to a target that is no word traps ALIGN. R250, R254: a loop
with a count pushes an entry and goes on with its body, the loop index at 0 (of `loop`); with count 0 it goes past its body; a
seventh entry, or a body that ends beyond the innermost one's, traps ILLEGAL. The index that starts at 0 is no longer poisoned.
R255: at the end of the innermost body, an entry with a count above 1 counts down and goes back to its start; one with count 1 is
popped, and the next entry is looked at; anywhere else nothing happens. -/
def Obligations.BranchesJumpsLoops : Prop :=
  (∀ e ∈ branchTable, ∀ (a b : BitVec 5) (off : BitVec 16) (s : State), Waited s [a, b] →
    let u := s.useX [a, b]
    let target := wordOf s.cur.pc + (off ++ 0#2).signExtend 64
    (e.2 (s.cur.x a) (s.cur.x b) → Completes (e.1 a b off) s fun t => Quiet u t ∧ t.cur.pc = target ∧
      t.cur.bank.lidx = s.cur.bank.lidx ∧ t.cur.bank.nest = leftNest s.cur.pc target s.cur.bank.nest) ∧
    (¬ e.2 (s.cur.x a) (s.cur.x b) → Completes (e.1 a b off) s fun t => Quiet u t ∧ Sequel u t)) ∧
  ((∀ (d : BitVec 5) (off : BitVec 21) (s : State),
    Completes (.jal d off) s (JumpDone s d (wordOf s.cur.pc + (off ++ 0#2).signExtend 64))) ∧
  (∀ (d a : BitVec 5) (i : BitVec 16) (s : State), Waited s [a] →
    let target := s.cur.x a + i.signExtend 64
    (target.toNat % 4 = 0 → Completes (.jalr d a i) s (JumpDone (s.useX [a]) d target)) ∧
    (target.toNat % 4 ≠ 0 → exec (.jalr d a i) s = .next (s.takeTrap { code := 0x03, detail := target })))) ∧
  (∀ (s : State) (off : BitVec 9) (count : Word) (fixed : Bool) (lvl : BitVec 3) (i : Instr),
    ((∃ l, i = .loop l off ∧ count = s.cur.csr.lcnt.getD l.toNat 0 ∧ fixed = false ∧ lvl = l) ∨
     (∃ a, i = .loopr a off ∧ count = s.cur.x a ∧ fixed = true ∧ lvl = 0 ∧ Waited s [a])) →
    let stop := wordOf s.cur.pc + BitVec.ofNat 64 (4 * off.toNat)
    let full := 6 ≤ s.cur.bank.nest.length ∨ ∃ e r, s.cur.bank.nest = e :: r ∧ e.stop.toNat < stop.toNat
    (full → exec i s = .next (s.takeTrap { code := 0x01, detail := s.cur.ir.setWidth 64 })) ∧
    (¬full → count = 0 → Completes i s fun t => Quiet s t ∧ NestKept s t ∧ t.cur.pc = stop) ∧
    (¬full → count ≠ 0 → Completes i s fun t =>
      let key := s.cur.level.csrKey (0x026 + lvl.toNat)
      Quiet { s with cur := { s.cur with pcsr := if fixed then s.cur.pcsr else s.cur.pcsr.filter (· != key) } } t ∧
      t.cur.pc = wordOf s.cur.pc + 4 ∧
      t.cur.bank.nest = { count, stop, start := wordOf s.cur.pc + 4, fixed, lvl } :: s.cur.bank.nest ∧
      t.cur.bank.lidx = if fixed then s.cur.bank.lidx else s.cur.bank.lidx.setIfInBounds lvl.toNat 0)) ∧
  (∀ (e : LoopEntry) (r : List LoopEntry) (lidx : Vector Word 6) (npc : Word),
    (npc ≠ e.stop → wrapNest (e :: r) lidx npc = (e :: r, lidx, npc)) ∧
    (npc = e.stop → 1 < e.count.toNat → wrapNest (e :: r) lidx npc = ({ e with count := e.count - 1 } :: r,
      if e.fixed then lidx else lidx.setIfInBounds e.lvl.toNat (lidx.getD e.lvl.toNat 0 + 1), e.start)) ∧
    (npc = e.stop → e.count.toNat ≤ 1 → wrapNest (e :: r) lidx npc = wrapNest r lidx npc))

/-- R116, R117, R253: `dly` counts one instruction, takes a slot in its own cycle and holds its hart for the cycles that are left;
in each of them the hart, which cannot issue, counts one slot, and after the last it goes on. It has no other effect. R10, R251,
R252: `post` adds to a hook, `hset` sets one, to which the posts of results that land in its slot are added; h0 keeps reading 0;
`wait` passes in its slot where the hook has reached the threshold, else holds its hart with the threshold read at issue; a fault of
an operation with that hook traps instead. Once passed, a result that landed with a post it has seen is no longer under-waited
(R404); poison goes with the hooks (R212): how hooks carry it and that a `wait` on a poisoned hook goes by the count 0 are the
model's choices (logs 57, 84), as is one use for each poisoned source (log 17). -/
def Obligations.HooksAndDelay : Prop :=
  ((∀ (n : BitVec 16) (s : State), Completes (.dly n) s fun t =>
    t = { s with cur := { hartAfter s t with hold := if n.toNat ≤ 1 then s.cur.hold else some (.dly (n.toNat - 1)) } } ∧
    OtherBanks s t ∧ XKept s t ∧ HooksKept s t ∧ LdestKept s t ∧ Sequel s t ∧ t.cur.pend = s.cur.pend) ∧
  ∀ (s : State) (h : Hart) (n : Nat), h.hold = some (.dly n) → s.ready h = false ∧
    h.delayed = { h with slots := h.slots + 1, hold := if n ≤ 1 then none else some (.dly (n - 1)) } ∧
    (h ∈ s.others → h.delayed ∈ (s.passCycle h.core).others)) ∧
  ((∀ (h : BitVec 4) (n : BitVec 12) (s : State), Completes (.post h n) s fun t =>
    HookSet s t h (if s.cur.ph h then 0 else s.cur.hook h + n.signExtend 32) (s.cur.ph h) ∧ Sequel s t) ∧
  (∀ (a : BitVec 5) (h : BitVec 4) (s : State), Waited s [a] → Completes (.hset a h) s fun t =>
    let landed := s.cur.pend.filter fun p => p.done && p.land ≤ s.cur.slots && p.lvl == s.cur.level && p.hook == h
    HookSet s t h (if s.cur.px a then 0 else (s.cur.x a).setWidth 32 + BitVec.ofNat 32 landed.length) (s.cur.px a) ∧ Sequel s t) ∧
  (∀ (a : BitVec 5) (h : BitVec 4) (n : BitVec 12) (s : State), Waited s [a] →
    let thr := (s.cur.x a).setWidth 32 + n.signExtend 32
    (s.cur.waitTrap h = none → 0 ≤ (s.cur.hook h - thr).toInt →
      let u := if s.cur.ph h then (s.useX [a]).countPoison (s.useX [a]).cur 1 else s.useX [a]
      Completes (.wait a h n) s fun t => ScalarFrame u t ∧ OtherBanks u t ∧ XKept u t ∧ HooksKept u t ∧ LdestKept u t ∧ t.ops = u.ops ∧
        (∀ p, p ∈ t.cur.pend ↔ p ∈ s.cur.pend ∧ ¬(p.done = true ∧ p.lvl = s.cur.level ∧ p.hook = h)) ∧ Sequel u t) ∧
    (s.cur.waitTrap h = none → (s.cur.hook h - thr).toInt < 0 →
      exec (.wait a h n) s = .next ((s.useX [a]).holdClosing (.wait h thr))) ∧
    (∀ e, s.cur.waitTrap h = some e → exec (.wait a h n) s = .next (s.takeTrap e))))

/-- R193, R241, R263: `trap`, `bkpt` and a pool header take their traps. R196, R213: a trap is entered at once where nothing of the
hart is outstanding; else the hart holds until then. A refusal of the granule table counts one violation. -/
def Obligations.SoftwareTraps : Prop :=
  (∀ s : State,
    (∀ n, exec (.trap n) s = .next (s.takeTrap { code := 0x0D, detail := n.setWidth 64 })) ∧
    (∀ n, exec (.bkpt n) s = .next (s.takeTrap { code := 0x0C, detail := n.setWidth 64 })) ∧
    (∀ n, exec (.poolHeader n) s = .next (s.takeTrap { code := 0x02, detail := wordOf s.cur.pc }))) ∧
  (∀ (s : State) (t : Trap),
    let x := s.worlds[s.cur.world.toNat]
    let u : State := if t.viol then { s with worlds := s.worlds.set s.cur.world.toNat { x with eviol := x.eviol + 1 } } else s
    ((∀ o ∈ s.ops, ¬(o.core = s.cur.core ∧ o.ctx = s.cur.ctx)) →
     (∀ r ∈ s.farReqs, r.core = s.cur.core → r.ctx = s.cur.ctx → r.answer ≠ none) → s.takeTrap t = u.enterTrap t) ∧
    ((∃ o ∈ s.ops, o.core = s.cur.core ∧ o.ctx = s.cur.ctx) →
      s.takeTrap t = { u with cur := { s.cur with hold := some (.trap t) } }))

/-- R193 to R198: what entry of a trap saves and where it goes. The level that takes it is machine for ALARM, for TRAPCALL at
supervisor level and at machine level, else supervisor; its registers hold the pc, the level and the enable before it, the cause
word and the detail; the vector state is held, with vstart 0 for any fault that is no element fault; the banks of every level stay
as the landed results left them. -/
def Obligations.TrapEntry : Prop :=
  ∀ (s : State) (t : Trap), s.cur.lateAck = [] →
    let l : Level := if s.cur.level = .machine ∨ t.code = 0x11 ∨ (s.cur.level = .supervisor ∧ t.code = 0x0D) then .machine else .supervisor
    let r := (s.enterTrap t).cur
    let vstart := if t.elem = true ∨ t.code ∈ [0x10, 0x11, 0x12] then s.cur.csr.vstart else 0
    let c := s.cur.trapCsrs l
    let c' := r.trapCsrs l
    r.level = l ∧ r.pc = c.tvec ∧ r.hold = none ∧
    c'.epc = s.cur.pc ∧ c'.pl = s.cur.level ∧ c'.pie = c.ie ∧ c'.ie = false ∧ c'.inh = true ∧ c'.nest = c.inh ∧
    c'.tvec = c.tvec ∧ c'.strict = c.strict ∧ c'.detail = t.detail ∧
    c'.cause.extractLsb' 0 8 = t.code ∧ c'.cause.extractLsb' 8 8 = t.cause ∧ c'.cause.extractLsb' 16 2 = t.walk ∧
    c'.cause.getLsbD 18 = t.far ∧ c'.cause.getLsbD 19 = t.store ∧ c'.cause.extractLsb' 20 4 = 0 ∧ c'.cause.extractLsb' 24 40 = t.idx ∧
    r.csr.held = true ∧ r.csr.vlost = (s.cur.csr.vlost || s.cur.csr.held) ∧ r.csr.hvl = s.cur.csr.vl ∧
    r.csr.hvtype = s.cur.csr.vtype.setWidth 64 ∧ r.csr.hvstart = vstart ∧ r.csr.vstart = vstart ∧ r.csr.instret = s.cur.csr.instret ∧
    r.user = s.cur.landAll.user ∧ r.sup = s.cur.landAll.sup ∧ r.mach = s.cur.landAll.mach ∧ r.vec = s.cur.vec ∧
    (s.enterTrap t).ops = s.ops

/-- R153, R196, R369: `eret` at a level above user returns: the level and the pc saved there, the enable and the held vector state
come back, and no convoy is open, so that the next vector instruction starts one; sends that PREEMPT withdrew at the level it goes
back to are issued again (log 78); at user level it traps ILLEGAL. R197, R204: at a boundary of a hart that is not held, ALARM goes
first where it is enabled, then PREEMPT, then TIMER, which the model never takes at machine level (log 91); with none enabled the
next instruction issues. -/
def Obligations.TrapReturn : Prop :=
  (∀ s : State,
    (s.cur.level = .user → exec .eret s = .next (s.takeTrap { code := 0x01, detail := s.cur.ir.setWidth 64 })) ∧
    (s.cur.level ≠ .user → Completes .eret s fun t =>
      let c := s.cur.trapCsrs s.cur.level
      let x := s.cur.csr
      t = { s with
        cur := { s.cur with level := c.pl, pc := c.epc, strap := t.cur.strap, mtrap := t.cur.mtrap, csr := t.cur.csr, pend := t.cur.pend,
                            slots := s.cur.slots + 1, convoy := none, closed := t.cur.closed },
        mem := t.mem, worlds := t.worlds, ops := t.ops, nextOp := t.nextOp, sleeves := { s.sleeves with resend := t.sleeves.resend } } ∧
      (let back := s.sleeves.resend.filter fun e => e.1 == s.cur.identity && e.2.lvl == c.pl
       t.ops = s.ops ++ back.zipIdx.map (fun (e, i) => ({ e.2 with id := s.nextOp + i, core := s.cur.core, ctx := s.cur.ctx } : Op)) ∧
       t.nextOp = s.nextOp + back.length ∧ ∀ e, e ∈ t.sleeves.resend ↔ e ∈ s.sleeves.resend ∧ e ∉ back) ∧
      (s.cur.convoy = none → t.cur.closed = s.cur.closed) ∧
      (s.cur.convoy = none ∨ (s.worlds[s.cur.world.toNat]).obs.ctl.getLsbD 0 = false → t.mem = s.mem ∧ t.worlds = s.worlds) ∧
      t.cur.pend = (if x.held then s.cur.pend.filter fun p => !(p.dest matches .cfg ..) else s.cur.pend) ∧
      (∀ l, t.cur.trapCsrs l = if (l = .machine ↔ s.cur.level = .machine) then { c with ie := c.pie, inh := false } else s.cur.trapCsrs l) ∧
      t.cur.csr = if x.held then { x with instret := x.instret + 1, held := false, vl := x.hvl, vtype := x.hvtype.setWidth 32,
                                          vstart := x.hvstart, vlSeen := x.hvl, vtypeSeen := x.hvtype.setWidth 32, vsbSeen := x.vsb,
                                          vlmaxSeen := BitVec.ofNat 64 (vlmaxOf s.cur.lanes (x.hvtype.setWidth 32)) }
        else { x with instret := x.instret + 1 })) ∧
  (∀ s : State, s.cur.hold = none →
    let asyncOn := s.cur.level = .user ∨ (s.cur.level = .supervisor ∧ s.cur.strap.ie = true)
    let alarmOn := s.cur.level ≠ .machine ∨ s.cur.mtrap.ie = true
    (∀ src, s.cur.alarm = some src → alarmOn → s.boundary = some (s.takeTrap { code := 0x11, detail := src })) ∧
    (¬(s.cur.alarm.isSome ∧ alarmOn) → s.cur.preempt = true → asyncOn → s.boundary = some (s.takeAsync { code := 0x10 })) ∧
    (¬(s.cur.alarm.isSome ∧ alarmOn) → s.cur.preempt = false → s.cur.timer = true → asyncOn →
      s.boundary = some (s.takeTrap { code := 0x12 })) ∧
    (¬(s.cur.alarm.isSome ∧ alarmOn) → (s.cur.preempt = false ∧ s.cur.timer = false) ∨ ¬asyncOn → s.boundary = none))

/-- R212, R264, R269 to R271: a CSR read returns the register with its poison; a number that the level does not reach or the map
does not list traps ILLEGAL. R22, R167, R194, R195, R264: a CSR write replaces the RW fields, sets or clears their bits, and clears
W1C bits: of the CSR block, the trap registers, the status registers, vsb, lcnt0 to lcnt5, ptroot and the windows onto the
interrupted bank; read-only registers, numbers that the map does not list and numbers beyond the level trap ILLEGAL. That srvec and
tvec drop bits [1:0] is the model's choice (log 71), as is how CSRs and windows carry poison (logs 57, 84). -/
def Obligations.CsrAccess : Prop :=
  ((∀ (d : BitVec 5) (c : BitVec 12) (v : Word) (s : State), csrReach s.cur.level c.toNat = true → s.csrValue c.toNat = some v →
    (s.cur.strap.strict = true → s.awaitsCsr c.toNat = false) → Completes (.csrr d c) s (AluDone s d v (s.cur.csrPoison c.toNat))) ∧
  (∀ (d : BitVec 5) (c : BitVec 12) (s : State), csrReach s.cur.level c.toNat = false ∨ s.csrValue c.toNat = none →
    exec (.csrr d c) s = .next (s.takeTrap { code := 0x01, detail := s.cur.ir.setWidth 64 })) ∧
  (∀ s : State,
    (∀ e ∈ csrFieldTable, e.1 ≠ 0 → s.csrValue e.1 = some (e.2.1 s.cur.csr)) ∧
    (∀ r : BitVec 4, s.csrValue (0x010 + r.toNat) = some ((s.cur.hook r).setWidth 64)) ∧
    (∀ r : BitVec 5, s.csrValue (0x140 + r.toNat) = some ((s.cur.bankOf s.cur.strap.pl).readX r)) ∧
    s.csrValue 0x009 = some (s.cur.bank.ldest.setWidth 64) ∧ s.csrValue 0x041 = some s.cur.csr.instret ∧
    s.csrValue 0x050 = some (BitVec.ofNat 64 (s.cur.core % 2 ^ 10 + 2 ^ 10 * (s.cur.ctx % 8) + 2 ^ 13 * (s.cur.lane0 % 32) +
      2 ^ 18 * ((s.cur.lanes.log2 - 2) % 4) + 2 ^ 20 * s.cur.world.toNat +
      2 ^ 26 * (match s.cur.level with | .user => 0 | .supervisor => 1 | .machine => 3) + 2 ^ 28 * (s.device % 512))) ∧
    s.csrValue 0x180 = some (statusWord s.cur.strap s.cur.csr s.cur.strap.strict) ∧
    s.csrValue 0x380 = some (statusWord s.cur.mtrap s.cur.csr false) ∧
    (∀ e ∈ csrHomeTable, e.1 ≠ 0x005 → s.csrValue e.1 = some (e.2.1 s.cur)) ∧ s.csrValue 0x005 = some s.cur.csr.vsbSeen ∧
    (∀ i, i < 6 → s.csrValue (0x026 + i) = some (s.cur.bank.lidx.getD i 0)) ∧
    (∀ r : BitVec 4, s.csrValue (0x160 + r.toNat) = some (((s.cur.bankOf s.cur.strap.pl).readH r).setWidth 64)) ∧
    s.csrValue 0x118 = some (s.worlds[s.cur.world.toNat]).ptroot) ∧
  (∀ (l : Level) (c : Nat), csrReach l c = true ↔ c = 0x3C0 ∨ c < 0x100 ∨ (l ≠ .user ∧ c < 0x200) ∨ (l = .machine ∧ 0x300 ≤ c))) ∧
  ((∀ e ∈ csrFormTable, ∀ f ∈ csrFieldTable, ∀ (a : BitVec 5) (s : State), Waited s [a] →
    csrReach s.cur.level f.1 = true →
    Completes (e.1.1 a (BitVec.ofNat 12 f.1)) s fun t =>
      t = ({ s with cur := { s.cur with csr := f.2.2 s.cur.csr (e.1.2 (f.2.1 s.cur.csr) (s.cur.x a)), pcsr := t.cur.pcsr } }).retire ∧
      ∀ c, c ∈ t.cur.pcsr ↔ if c = f.1 then s.cur.px a = true ∨ (e.2 = true ∧ f.1 ∈ s.cur.pcsr) else c ∈ s.cur.pcsr) ∧
  (∀ e ∈ csrFormTable, ∀ (a : BitVec 5) (c : BitVec 12) (s : State),
    csrReach s.cur.level c.toNat = false ∨ s.csrValue c.toNat = none ∨
      c.toNat ∈ [0x001, 0x002, 0x004, 0x031, 0x040, 0x041, 0x042, 0x050, 0x3C0] ∨ (0x010 ≤ c.toNat ∧ c.toNat < 0x020) ∨
      (0x026 ≤ c.toNat ∧ c.toNat < 0x02C) ∨ (0x110 ≤ c.toNat ∧ c.toNat < 0x115) →
    exec (e.1.1 a c) s = .next (s.takeTrap { code := 0x01, detail := s.cur.ir.setWidth 64 })) ∧
  (∀ e ∈ csrFormTable, ∀ (a : BitVec 5) (s : State), Waited s [a] → s.cur.level ≠ .user →
    Completes (e.1.1 a 0x140) s (fun t => t = s.retire) ∧
    ∀ r : BitVec 5, r ≠ 0 → Completes (e.1.1 a (0x140 + r.setWidth 12)) s fun t =>
      let win := s.cur.bankOf s.cur.strap.pl
      let p := s.cur.px a || (e.2 && win.poisonX r)
      ∃ b : Bank, t = ({ s with cur := s.cur.setBank s.cur.strap.pl b }).retire ∧ b = { win with x := b.x, px := b.px } ∧
        ∀ q, b.readX q = (if q = r then (if p then 0 else e.1.2 (win.readX r) (s.cur.x a)) else win.readX q) ∧
          b.poisonX q = if q = r then p else win.poisonX q) ∧
  (∀ e ∈ csrFormTable, ∀ (a : BitVec 5) (s : State), Waited s [a] → s.cur.level ≠ .user →
    Completes (e.1.1 a 0x160) s (fun t => t = s.retire) ∧
    ∀ r : BitVec 4, r ≠ 0 → Completes (e.1.1 a (0x160 + r.setWidth 12)) s fun t =>
      let win := s.cur.bankOf s.cur.strap.pl
      let p := s.cur.px a || (e.2 && win.poisonH r)
      ∃ b : Bank, t = ({ s with cur := s.cur.setBank s.cur.strap.pl b }).retire ∧ b = { win with h := b.h, ph := b.ph } ∧
        ∀ q, b.readH q = (if q = r then (if p then 0 else (e.1.2 ((win.readH r).setWidth 64) (s.cur.x a)).setWidth 32) else win.readH q) ∧
          b.poisonH q = if q = r then p else win.poisonH q) ∧
  (∀ e ∈ csrFormTable, ∀ f ∈ csrHomeTable, ∀ (a : BitVec 5) (s : State), Waited s [a] → csrReach s.cur.level f.1 = true →
    Completes (e.1.1 a (BitVec.ofNat 12 f.1)) s fun t =>
      t = ({ s with cur := { f.2.2 s.cur (e.1.2 (f.2.1 s.cur) (s.cur.x a)) with pcsr := t.cur.pcsr } }).retire ∧
      Marked s f.1 (s.cur.px a) e.2 t.cur.pcsr) ∧
  (∀ e ∈ csrFormTable, ∀ (a : BitVec 5) (s : State), Waited s [a] → s.cur.level ≠ .user →
    let x := s.worlds[s.cur.world.toNat]
    Completes (e.1.1 a 0x118) s fun t => Marked s 0x118 (s.cur.px a) e.2 t.cur.pcsr ∧
      t = ({ s with cur := { s.cur with pcsr := t.cur.pcsr },
                    worlds := s.worlds.set s.cur.world.toNat { x with ptroot := e.1.2 x.ptroot (s.cur.x a) &&& 0x7FFFFFFF0000 } }).retire) ∧
  (∀ e ∈ csrClearTable, ∀ (old : Bool) (a : BitVec 5) (s : State), (old = true ↔ ∃ b c, e.1 b c ≠ .csrw b c) → Waited s [a] →
    let fields (sup : Bool) (w : Word) (c : TrapCsrs) : TrapCsrs := statusFields sup c (e.2.1 w (s.cur.x a)) (e.2.2 (s.cur.x a))
    let shared (w : Word) : Csrs := { s.cur.csr with held := (e.2.1 w (s.cur.x a)).getLsbD 10,
                                                     vlost := s.cur.csr.vlost && !(e.2.2 (s.cur.x a)).getLsbD 9 }
    (s.cur.level ≠ .user → Completes (e.1 a 0x180) s fun t =>
      let w := statusWord s.cur.strap s.cur.csr s.cur.strap.strict
      Marked s 0x180 (s.cur.px a) old t.cur.pcsr ∧
      t = ({ s with cur := { s.cur with strap := fields true w s.cur.strap, csr := shared w, pcsr := t.cur.pcsr } }).retire) ∧
    (s.cur.level = .machine → Completes (e.1 a 0x380) s fun t =>
      let w := statusWord s.cur.mtrap s.cur.csr false
      Marked s 0x380 (s.cur.px a) old t.cur.pcsr ∧
      t = ({ s with cur := { s.cur with mtrap := fields false w s.cur.mtrap, csr := shared w, pcsr := t.cur.pcsr } }).retire)))

/-- R22, R51, R143, R168, R171, R174, R177, R178, R190, R212, R236, R264: writes of the CSRs that do more than take a value: which
level may write them, their checks in order, and what each changes; and the ends of a rekey and of a TLB invalidation. A write of
poolmap or rgtab first requests the parts of its table that lie on other devices and holds its hart (log 16). The fields of srvec
are those of log 71; a second write of rgkey or tlbinv that finds the first in progress is as log 46 says; the quota is firmware's
(log 14). -/
def Obligations.CsrEffects : Prop :=
  (∀ (v : Word) (s : State),
    let w := s.cur.world
    let x := s.worlds.getD w.toNat .reset
    let illegal : Out := .next (s.takeTrap { code := 0x01, detail := s.cur.ir.setWidth 64 })
    let clean (c : Nat) (u : State) : State := { u with cur := { u.cur with pcsr := u.cur.pcsr.filter (· != c) } }
    let bad (n : Word) : Out := .next (s.takeTrap { code := 0x01, detail := n })
    let onWorld (u : State) (f : World → World) (t : State) : Prop :=
      t = { u with worlds := t.worlds } ∧ t.worlds.getD w.toNat .reset = f (u.worlds.getD w.toNat .reset) ∧
      ∀ n, n ≠ w.toNat → t.worlds.getD n .reset = u.worlds.getD n .reset
    (s.cur.level = .user → ∀ i ∈ [Instr.spres v, .poolmap v, .rgtab v, .rgkey v, .tlbinv v], exec i s = illegal) ∧
    (s.cur.level ≠ .machine → exec (.alpol v) s = illegal) ∧
    (s.cur.level = .machine → s.csrValue 0x3A0 = some s.thatum.alpol ∧
      (let locked (n : Word) : State := { s with thatum := { s.thatum with
        alpol := if s.thatum.alpol.getLsbD 63 then s.thatum.alpol else n &&& 0x8000000000003FFF#64 } }
       Completes (.alpol v) s (fun t => t = clean 0x3A0 (locked v)) ∧ ∀ e ∈ csrFormTable, ∀ a, Waited s [a] →
        Completes (e.1.1 a 0x3A0) s fun t => ∃ l, t = (let u := locked (e.1.2 s.thatum.alpol (s.cur.x a))
          { u with cur := { u.cur with pcsr := l } }).retire ∧
          ∀ c, c ∈ l ↔ if c = 0x3A0 then s.cur.px a = true ∨ (e.2 = true ∧ 0x3A0 ∈ s.cur.pcsr) else c ∈ s.cur.pcsr)) ∧
    (∀ k, k < 7 → s.alarmLevel k = max 1 (s.thatum.alpol.extractLsb' (2 * k) 2).toNat) ∧
    Completes (.ldest v) s (fun t =>
      t = clean (s.cur.level.csrKey 0x009) { s with cur := s.cur.setBank s.cur.level { s.cur.bank with ldest := v.setWidth 5 } }) ∧
    Completes (.fcsr v) s (fun t => t = clean 0x000 { s with cur := { s.cur with csr := { s.cur.csr with fcsr := v &&& 0xFF } } }) ∧
    (∀ f ∈ csrFieldTable, csrReach s.cur.level f.1 = true → Completes (.registerWrite (BitVec.ofNat 12 f.1) v) s fun t =>
      t = clean f.1 { s with cur := { s.cur with csr := f.2.2 s.cur.csr v } }) ∧
    (∀ c : BitVec 12, csrReach s.cur.level c.toNat = false ∨ s.csrValue c.toNat = none ∨ csrReadOnly c.toNat = true →
      exec (.registerWrite c v) s = illegal) ∧
    (s.cur.level ≠ .user →
      (let new := ((if s.cur.level = .machine then v else x.spres) &&& 0xFF80000000000000#64) ||| (v &&& 0x7FFFFFFFE00000#64)
       FirstFailing (SpresFails s w new) 4 (s.spresCheck w new) ∧
       (∀ n, s.spresCheck w new = n → n ≠ 0 → exec (.spres v) s = bad (BitVec.ofNat 64 n)) ∧
       (s.spresCheck w new = 0 → Completes (.spres v) s (onWorld (clean 0x11D s) fun x => { x with spres := new }))) ∧
      Completes (.tlbinv v) s (onWorld { clean 0x119 s with mem := { s.mem with tlb := match x.tlbinv with
          | none => s.mem.tlb
          | some o => s.mem.tlb.filter fun e => !(e.world == w && (o.getLsbD 0 || e.page == (o.extractLsb' 16 39).toNat)) } }
        fun x => { x with tlbinv := some v }) ∧
      (let i := (v.extractLsb' 0 6).toNat
       (∀ j n r, x.rgkey = some (j, n) → x.regions[j]? = some r → s.regionBusy r n = true → exec (.rgkey v) s = .next (s.holdOn .rekey)) ∧
       (x.rgkey = none →
       (x.regions[i]? = none → exec (.rgkey v) s = bad v) ∧
       (∀ r, x.regions[i]? = some r →
        (r.valid = false → exec (.rgkey v) s = bad v) ∧
        (r.valid = true → r.gen = 0xFFFFFFFF#32 → 2 ^ 55 ≤ x.nonceCtr → exec (.rgkey v) s = illegal) ∧
        (r.valid = true → r.gen ≠ 0xFFFFFFFF#32 ∨ x.nonceCtr < 2 ^ 55 →
          Completes (.rgkey v) s (onWorld (clean 0x11C s) fun x => { x with rgkey := some (i, s.nextOp) }))))) ∧
      (let n := (v.extractLsb' 0 12).toNat
       (1024 < n → exec (.poolmap v) s = bad 1024) ∧
       (n ≤ 1024 → let needs := s.spanNeeds s.cur s.cur s.cur.level [((v &&& ~~~(0xFFF#64)).toNat, 8 * n)]
        needs ≠ [] ∨ s.asking s.cur = true → exec (.poolmap v) s = .next ((s.askAll s.cur needs).holdOn .far)) ∧
       (∀ ws, n ≤ 1024 → s.spanNeeds s.cur s.cur s.cur.level [((v &&& ~~~(0xFFF#64)).toNat, 8 * n)] = [] → s.asking s.cur = false →
        s.readDwords (v &&& ~~~(0xFFF#64)) n = .ok ws →
        let es := ws.map fun d => ((d.extractLsb' 14 50).toNat, (d.extractLsb' 0 14).toNat)
        let fits (k : Nat) : Prop := 1 ≤ (es.getD k (0, 0)).2 ∧ (0 < k → (es.getD (k - 1) (0, 0)).1 + (es.getD (k - 1) (0, 0)).2 ≤ (es.getD k (0, 0)).1)
        (∀ k, k < es.length → (∀ j, j < k → fits j) → ¬fits k → exec (.poolmap v) s = bad (BitVec.ofNat 64 k)) ∧
        ((∀ j, j < es.length → fits j) → Completes (.poolmap v) s
          (onWorld { s with cur := { (clean 0x11A s).cur with csr := { s.cur.csr with poolmap := v }, ct := { s.cur.ct with pools := es } },
                            farReqs := (s.dropAsks s.cur).farReqs }
            fun x => { x with poolmap := v, pools := es })))) ∧
      (let n := (v.extractLsb' 0 7).toNat
       let va := v &&& ~~~(0xFFF#64)
       (s.regionsBusy w.toNat = true → exec (.rgtab v) s = .next (s.holdOn .regions)) ∧
       (s.regionsBusy w.toNat = false → 64 < n → exec (.rgtab v) s = illegal) ∧
       (s.regionsBusy w.toNat = false → n ≤ 64 → let needs := s.spanNeeds s.cur s.cur s.cur.level [(va.toNat, 32 * n)]
        needs ≠ [] ∨ s.asking s.cur = true → exec (.rgtab v) s = .next ((s.askAll s.cur needs).holdOn .far)) ∧
       (∀ ds, s.regionsBusy w.toNat = false → n ≤ 64 → s.spanNeeds s.cur s.cur s.cur.level [(va.toNat, 32 * n)] = [] →
        s.asking s.cur = false → s.readDwords va (4 * n) = .ok ds →
        let es := entries4 ds
        let live := es.filter fun d => (d.getD 0 0).getLsbD 0
        let spans : List (Nat × Nat) := live.map fun d => (((d.getD 0 0).extractLsb' 16 31).toNat, ((d.getD 1 0).extractLsb' 0 32).toNat)
        let ok : Prop := (∀ d ∈ live, rgResOk d = true) ∧ (∀ e ∈ spans, rgInside e.1 e.2 = true ∧ s.rgOwned w e.1 e.2 = true) ∧
          spans.Pairwise (fun a b => overlap a.1 a.2 b.1 b.2 = false) ∧ x.nonceCtr + live.length ≤ 2 ^ 55
        (¬ok → exec (.rgtab v) s = illegal) ∧
        (ok → ∀ u, s.rgStore va ((rgAssign s.device x.nonceCtr es).1.map (·.2)) = .ok u → Completes (.rgtab v) s
          (onWorld { clean 0x11B (u.dropAsks s.cur) with mem := spans.foldl (fun (m : Memory) (e : Nat × Nat) => m.clearWritten e.1 e.2) u.mem }
            fun x => { x with rgtab := v &&& 0xFFFFFFFFFFFFF07F#64, regions := (rgAssign s.device x.nonceCtr es).1.map (·.1),
                              nonceCtr := x.nonceCtr + live.length })))))) ∧
  (∀ (dev ctr : Nat) (es : List (List Word)), dev < 512 → ctr + es.length ≤ 2 ^ 55 →
    let rs := (rgAssign dev ctr es).1.map (·.1)
    (∀ r ∈ rs, r.valid = true → r.gen = 0 ∧ r.nonce.extractLsb' 55 9 = BitVec.ofNat 9 dev ∧
      ctr ≤ (r.nonce.extractLsb' 0 55).toNat ∧ (r.nonce.extractLsb' 0 55).toNat < ctr + (rs.filter (·.valid)).length) ∧
    rs.Pairwise fun a b => a.valid = true → b.valid = true → a.nonce ≠ b.nonce) ∧
  (∀ (n : Nat) (s : State), n < 64 →
    let x := s.worlds.getD n .reset
    let onWorld (m : Memory) (f : World → World) (t : State) : Prop :=
      t = { s with mem := m, worlds := t.worlds } ∧ t.worlds.getD n .reset = f x ∧
      ∀ k, k ≠ n → t.worlds.getD k .reset = s.worlds.getD k .reset
    (∀ i q r, x.rgkey = some (i, q) → x.regions[i]? = some r → s.regionBusy r q = false →
      let wraps := r.gen = 0xFFFFFFFF#32
      Completes (.rgkeyComplete n) s (onWorld { s.mem with written := s.mem.written.filter fun u =>
          !(decide (r.base * 16384 ≤ u) && decide (u < (r.base + r.size) * 16384)) }
        fun x => { x with
          rgkey := none, nonceCtr := if wraps then x.nonceCtr + 1 else x.nonceCtr,
          regions := x.regions.set i (if wraps then { r with nonce := BitVec.ofNat 9 s.device ++ BitVec.ofNat 55 x.nonceCtr, gen := 0 }
                                      else { r with gen := r.gen + 1 }) })) ∧
    (∀ o, x.tlbinv = some o → Completes (.tlbinvComplete n) s (onWorld { s.mem with tlb := s.mem.tlb.filter fun e =>
        !(e.world == BitVec.ofNat 6 n && (o.getLsbD 0 || e.page == (o.extractLsb' 16 39).toNat)) }
      fun x => { x with tlbinv := none })))

/-! Tasks and dispatchers. -/

/-- R107, R204, R258, R259, R267: `halt`, `launch` and `idle`. `halt` waits for outstanding work, reports an unreported fault or
timeout, and else ends its hart: it parks it at supervisor level with sresume set, and otherwise counts it off its task, which
retires with its last hart; with the last active hart of a task go its scratchpad allocations (R399, log 99). `launch` checks its
packet as R104 says, enqueues it and posts, or holds while the queue is full. `idle` holds its hart (R267; one with a trap pending:
log 94). -/
def Obligations.HaltLaunchIdle : Prop :=
  (∀ s : State,
    (s.drained s.cur = false → exec .halt s = .next (s.holdOn .halt)) ∧
    (∀ f r, s.drained s.cur = true → s.cur.landAll.faults = f :: r → exec .halt s = .next (s.takeTrap f.trap)) ∧
    (∀ f r, s.drained s.cur = true → s.cur.landAll.faults = [] → s.cur.landAll.lateAck = f :: r →
      exec .halt s = .next (s.takeTrap f.trap)) ∧
    (s.drained s.cur = true → s.cur.landAll.faults = [] → s.cur.landAll.lateAck = [] →
      let park := s.cur.level = .supervisor ∧ s.cur.csr.sresume ≠ 0
      (park → Completes .halt s fun t => t.cur.active = false ∧ t.sched.tasks = s.sched.tasks ∧
        ∃ p : Parked, t.sched.parked = s.sched.parked ++ [p] ∧ p.queue = s.cur.queue ∧ p.num = s.cur.num ∧ p.ord = s.cur.ord ∧
          p.world = s.cur.world ∧ p.lanes = s.cur.lanes ∧ p.tcmSize = s.cur.tcmSize ∧ p.spadSize = s.cur.spadSize ∧
          p.sresume = s.cur.csr.sresume ∧ p.samples = s.cur.samples ∧ p.clus = clusOf s.cur.core ∧ (p.tile = true ↔ s.cur.lane0 = 0) ∧
          (∀ k, s.taskOf s.cur = some k → p.cls = k.cls ∧ p.disp = k.disp)) ∧
      (park ∨ (∃ k, s.taskOf s.cur = some k ∧ 1 < k.left) → Completes .halt s fun t =>
        let last : Prop := ∀ h ∈ s.others, h.active = true → ¬(h.queue = s.cur.queue ∧ h.num = s.cur.num)
        ∀ a, a ∈ t.sched.allocs ↔ a ∈ s.sched.allocs ∧ ¬(last ∧ a.queue = s.cur.queue ∧ a.num = s.cur.num)) ∧
      (¬park → ∀ k, s.taskOf s.cur = some k → 1 < k.left → Completes .halt s fun t => t.cur.active = false ∧
        t.sched.parked = s.sched.parked ∧ t.sched.tasks = s.sched.tasks.map fun x =>
          if x.queue == k.queue && x.num == k.num then { x with left := x.left - 1 } else x) ∧
      (¬park → ∀ k, s.taskOf s.cur = some k → k.left ≤ 1 → Completes .halt s fun t =>
        let u := ((s.modCur Hart.landAll).closeConvoy false).releaseHart s.cur.core s.cur.ctx
        u.cur.active = false ∧ t = u.retireTask k k.code))) ∧
  (∀ (a : BitVec 5) (h : BitVec 4) (s : State), Waited s [a] →
    let va := s.cur.x a
    let inside := 0x100000 ≤ va.toNat ∧ va.toNat + 64 ≤ 0x100000 + s.cur.tcmSize
    let s1 := s.drainAll false
    let p := BitVec.ofNat 512 (ofBytes (s1.tcmBytes va 64))
    (¬inside → exec (.launch a h) s = .next (s.takeTrap { code := 0x05, cause := 11, detail := va })) ∧
    (inside → va.toNat % 64 ≠ 0 → exec (.launch a h) s = .next (s.takeTrap { code := 0x03, detail := va })) ∧
    (inside → va.toNat % 64 = 0 →
      (∀ n, s1.packetCheck p (some s.cur.world) = n → n ≠ 0 →
        exec (.launch a h) s = .next (s.takeTrap { code := 0x01, detail := BitVec.ofNat 64 n })) ∧
      FirstFailing (PacketFails s1 p (some s.cur.world)) 7 (s1.packetCheck p (some s.cur.world)) ∧
      (s1.packetCheck p (some s.cur.world) = 0 →
        (64 ≤ (s1.queue (pkQueue p)).slots.length → exec (.launch a h) s = .next (s1.holdOn (.launch p h))) ∧
        ((s1.queue (pkQueue p)).slots.length < 64 →
          Completes (.launch a h) s (Counting s [a] fun t =>
            t = ((s1.enqueue p (pkQueue p)).postNow h).retire ∧
            let q := s1.queue (pkQueue p)
            (s1.enqueue p (pkQueue p)).queue (pkQueue p) =
              { q with slots := q.slots ++ [{ packet := p, tenq := s1.time, num := q.count }], count := q.count + 1 }))))) ∧
  (∀ s : State, exec .idle s = .next { s with cur := { s.cur with hold := some (.idle s.cur.posts) } })

/-- R206 to R210, R254, R257, R262, R268: `ctxsave` and `ctxrst`, up to their operations in flight: what they wait for, their checks
in order, a save's counter, what its image holds and its pieces, an image that is refused and with which of the reasons 1 to 8.
R207, R209, R210: a save that ends writes its image; a restore that ends writes the registers of the context from its image, and
both post their hook; the rest of the hart's registers stay, vlost among them (log 90). -/
def Obligations.ContextImages : Prop :=
  ((∀ (s : State) (hd : Array Byte), FirstFailing (HeaderFails s hd) 7 (s.headerReason hd)) ∧
  (∀ (img : Array Byte) (p : Nat), contentsBad img p = false ↔ ContentsKeep img p) ∧
  (∀ (s : State) (h : Hart) (tcm spad : Bool) (ctr : Nat), 1 ≤ h.lanes → h.lanes ≤ 32 → h.tcmSize % 64 = 0 → h.spadSize % 64 = 0 →
    let b := 256 * h.lanes
    let tile : Bool := h.lane0 == 0
    let z := 0x2000 + 40 * b
    let t := z + if tile then 16384 else 0
    let p := t + if tcm then h.tcmSize + h.tcmSize / 64 else 0
    let len := p + (if spad then h.spadSize + h.spadSize / 64 else 0) + 16
    let l := imgLay h.lanes tile (if tcm then h.tcmSize else 0) (if spad then h.spadSize else 0)
    let img := ctxHeader s h tcm spad ctr l ++ ctxBody s h tcm spad
    l.len = len ∧ img.length = len - 16 ∧ (ctxHeader s h tcm spad ctr l).length = 256 ∧
    (∀ f ∈ headerFields (s.worlds[h.world.toNat]).prot tile tcm spad h ctr len ++ bodyFields h tile, le img f.1 f.2.1 = f.2.2 % 2 ^ (8 * f.2.1)) ∧
    (∀ i e, 1 ≤ i → i < 8 → e < 2048 * h.lanes →
      (img.getD (0x2000 + b * i + 256 * (e % h.lanes) + e / h.lanes / 8) 0).getLsbD (e / h.lanes % 8) = (h.vec.m.getD i 0).getLsbD e) ∧
    (tcm = true → SectionHolds s img t (tcmKey h.core h.tcmOff) h.tcmSize) ∧
    (spad = true → SectionHolds s img p (spadKey (clusOf h.core) h.spadOff) h.spadSize)) ∧
  (∀ (a : BitVec 5) (h : BitVec 4) (s : State), ∀ i ∈ [Instr.ctxsave a h, .ctxrst a h],
    (s.cur.level ≠ .supervisor ∨ s.cur.strap.pl ≠ .user ∨ s.cur.csr.held = false →
      exec i s = .next (s.takeTrap { code := 0x01, detail := s.cur.ir.setWidth 64 })) ∧
    (s.cur.level = .supervisor → s.cur.strap.pl = .user → s.cur.csr.held = true → Waited s [a] →
      (s.cur.x a).extractLsb' 2 4 ≠ 0 → exec i s = .next (s.takeTrap { code := 0x01, detail := s.cur.x a }))) ∧
  (∀ (a : BitVec 5) (h : BitVec 4) (s : State), s.cur.level = .supervisor → s.cur.strap.pl = .user → s.cur.csr.held = true →
    Waited s [a] → (s.cur.x a).extractLsb' 2 4 = 0 →
    let v' := s.cur.x a
    let base := (v' &&& ~~~63#64).toNat
    let tcm := v'.getLsbD 1
    let spad := v'.getLsbD 0
    let l := imgLay s.cur.lanes s.cur.tileOwner (if tcm then s.cur.tcmSize else 0) (if spad then s.cur.spadSize else 0)
    let w := s.worlds[s.cur.world.toNat]
    let entry := s.thatum.saves.find? fun c => c.owner == s.cur.identity
    let u := { s with cur := s.cur.landHooks }
    (s.drained s.cur = false → exec (.ctxsave a h) s = .next (s.holdOn .drain)) ∧
    (∀ ts, s.drained s.cur = true → u.ctxTargets .store (blockPieces base l.len) = .ok ts →
      (w.prot = true → entry = none → 4096 ≤ s.thatum.saves.length → exec (.ctxsave a h) s = .next (u.ctxRefuse 9)) ∧
      (w.prot = false ∨ entry ≠ none ∨ s.thatum.saves.length < 4096 →
        let ctr := if w.prot then (match entry with | some c => c.c + 1 | none => 1) else w.imageCtr
        let hd := ctxHeader u u.cur tcm spad ctr l
        let img := hd ++ sealText s.cur.identity.keyName (imgIv ctr) hd (ctxBody u u.cur tcm spad)
        let ws : List WriteBack := (List.zip (blockPieces base l.len) ts).map fun (p, t) =>
          { target := t, data := (List.range p.2).map fun i => img.getD (p.1 - base + i) 0, poison := false }
        Completes (.ctxsave a h) s fun t => ∃ v : State, v = { u with thatum := { s.thatum with saves := v.thatum.saves }, worlds := v.worlds } ∧
          (w.prot = true → v.worlds = s.worlds ∧ (∃ c ∈ v.thatum.saves, c.owner = s.cur.identity ∧ c.c = ctr ∧ c.live = true) ∧
            ∀ c, c.owner ≠ s.cur.identity → (c ∈ v.thatum.saves ↔ c ∈ s.thatum.saves)) ∧
          (w.prot = false → v.thatum.saves = s.thatum.saves ∧ v.worlds = s.worlds.set s.cur.world.toNat { w with imageCtr := w.imageCtr + 1 }) ∧
          Started (v.useX [a]) 0 (opOf (v.useX [a]) h (.ctxsave ws) false (v' &&& ~~~63#64)) t)) ∧
    (s.opsOf s.cur ≠ [] → exec (.ctxrst a h) s = .next (s.holdOn .drain)) ∧
    (∀ ts hd ts2 raw, s.opsOf s.cur = [] → s.asking s.cur = false → u.ctxTargets .load (blockPieces base 256) = .ok ts →
      (∀ t ∈ ts, t.isFar = false) → u.ctxRead (blockPieces base 256) ts = .ok hd →
      let l2 := headerLay hd.toArray
      (∀ r, u.headerReason hd.toArray = r → r ≠ 0 → exec (.ctxrst a h) s = .next ((u.dropAsks u.cur).ctxRefuse r)) ∧
      (u.headerReason hd.toArray = 0 → u.ctxTargets .load (blockPieces base l2.len) = .ok ts2 →
        (∀ t ∈ ts2, t.isFar = false) → u.ctxRead (blockPieces base l2.len) ts2 = .ok raw →
        let id := s.cur.identity
        let cipher := (raw.take (l2.len - 16)).drop 256
        let iv := imgIv (imgN hd.toArray 24 8)
        let tag := gcmTag (keyOctets id.keyName) iv hd cipher
        let img := hd ++ gcmCrypt (keyOctets id.keyName) iv cipher
        (raw.drop (l2.len - 16) ≠ tag → exec (.ctxrst a h) s = .next ((u.dropAsks u.cur).ctxRefuse 8)) ∧
        (raw.drop (l2.len - 16) = tag → contentsBad img.toArray s.cur.lanes = true →
          exec (.ctxrst a h) s = .next ((u.dropAsks u.cur).ctxRefuse 1)) ∧
        (raw.drop (l2.len - 16) = tag → contentsBad img.toArray s.cur.lanes = false →
          Completes (.ctxrst a h) s fun t => ∃ v, v = { u.dropAsks u.cur with thatum := { s.thatum with
              saves := s.thatum.saves.map fun (c : SaveCtr) => if c.owner == id then ({ c with live := false } : SaveCtr) else c } } ∧
            Started (v.useX [a]) 0 (opOf (v.useX [a]) h (.ctxrst img) false (v' &&& ~~~63#64)) t))))) ∧
  (∀ (n : Nat) (o : Op) (s : State) (h : Hart), s.opById n = some o → s.hartAt o.core o.ctx = some h →
    (∀ ws, o.kind = .ctxsave ws → (∀ w ∈ ws, w.target.isFar = false) →
      Completes (.ctxsaveComplete n) s (Ended (ws.foldl (fun u w => u.performStore h w) s) o none id)) ∧
    (∀ img l, o.kind = .ctxrst img → headerLay img.toArray = l → Completes (.ctxrstComplete n) s fun t =>
      (∀ q ∈ t.ops, q.id ≠ n) ∧ ∃ g, t.hartAt o.core o.ctx = some g ∧
        (∀ r : Fin 32, g.user.x[r] = BitVec.ofNat 64 (imgN img.toArray (0x100 + 8 * r.val) 8)) ∧
        g.user.ldest = BitVec.ofNat 5 (imgN img.toArray 0x208 8) ∧
        g.strap.epc = BitVec.ofNat 64 (imgN img.toArray 0x200 8) ∧ g.csr.fcsr = BitVec.ofNat 64 (imgN img.toArray 0x210 8) ∧
        g.csr.hvl = BitVec.ofNat 64 (imgN img.toArray 0x218 8) ∧ g.csr.instret = BitVec.ofNat 64 (imgN img.toArray 0x260 8) ∧
        g.csr.held = true ∧ g.csr.vlost = h.csr.vlost ∧
        (let f (off k : Nat) : Nat := imgN img.toArray off k
         let pm := f 0x270 16
         let b := 256 * h.lanes
         let tile := (f 19 1).testBit 1
         g.csr.hvtype = BitVec.ofNat 64 (f 0x220 8) &&& vtypeBits ∧ g.csr.hvstart = BitVec.ofNat 64 (f 0x228 8) ∧
         g.csr.vsb = BitVec.ofNat 64 (f 0x230 8) ∧ g.csr.srseed = BitVec.ofNat 64 (f 0x238 8) ∧ g.csr.srdraw = BitVec.ofNat 64 (f 0x240 8) ∧
         g.csr.ctfloor = BitVec.ofNat 64 (f 0x248 8) &&& 0xFFFF ∧ g.csr.brstep = BitVec.ofNat 64 (f 0x250 8) ∧
         g.csr.slstat = BitVec.ofNat 64 (f 0x258 8) ∧ g.csr.winW.toNat = f 0x3B0 4 % 2 ^ 32 ∧ g.csr.winN.toNat = f 0x3B4 4 % 2 ^ 7 ∧
         (∀ i, i < 6 → g.csr.lcnt.getD i 0 = BitVec.ofNat 64 (f (0x280 + 8 * i) 8) ∧ g.user.lidx.getD i 0 = BitVec.ofNat 64 (f (0x2B0 + 8 * i) 8)) ∧
         (o.lvl ≠ .user → ∀ i, i < 15 → g.user.h.getD (i + 1) 0 = BitVec.ofNat 32 (f (0x2E0 + 4 * i) 4)) ∧
         (∀ r : BitVec 5, g.user.px.getLsbD r.toNat = pm.testBit r.toNat ∧ g.vec.pv.getLsbD r.toNat = pm.testBit (32 + r.toNat)) ∧
         (∀ i, 1 ≤ i → i < 8 → g.vec.pm.getLsbD i = pm.testBit (63 + i)) ∧
         (∀ i, i < 4 → g.vec.pz.getLsbD i = if tile then pm.testBit (72 + i) else h.vec.pz.getLsbD i) ∧
         (∀ i, i < 32 → g.ct.c.getD i 0 = BitVec.ofNat 256 (f (0x400 + 32 * i) 32)) ∧
         (∀ i, i < 8 → g.ct.tb.getD i 0 = BitVec.ofNat 256 (f (0x800 + 32 * i) 32) ∧ g.ct.k.getD i 0 = BitVec.ofNat 256 (f (0x900 + 32 * i) 32)) ∧
         (∀ i, i < 64 → g.ct.mtab.getD i 0 = BitVec.ofNat 512 (f (0x1000 + 64 * i) 64)) ∧
         (∀ i, i < 32 → g.vec.v.getD i 0 = BitVec.ofNat 65536 (f (0x2000 + 8 * b + b * i) b)) ∧
         (∀ i, i < 4 → g.vec.z.getD i 0 = if tile then BitVec.ofNat 32768 (f (0x2000 + 40 * (256 * f 20 2) + 4096 * i) 4096) else h.vec.z.getD i 0) ∧
         (∀ i e, 1 ≤ i → i < 8 → e < 2048 * h.lanes → (g.vec.m.getD i 0).getLsbD e =
           (img.getD (0x2000 + b * i + 256 * (e % h.lanes) + e / h.lanes / 8) 0).getLsbD (e / h.lanes % 8)) ∧
         (ImageNest img.toArray → ∀ i, i < 6 → ∀ j, j < 3 → (nestDwords g.user.nest.reverse[i]?).getD j 0 = f (0x320 + 24 * i + 8 * j) 8))))

/-- R101 to R105, R107, R382, R405: the checks of a launch packet, in their order; a host's write to a launch window: a write of
another size or place, or to an unbound or full queue, is dropped and counted; a packet that fails its checks is refused, and one
that passes is enqueued. -/
def Obligations.HostLaunches : Prop :=
  (∀ (p : BitVec 512) (launcher : Option (BitVec 6)) (s : State), FirstFailing (PacketFails s p launcher) 7 (s.packetCheck p launcher)) ∧
  ∀ (queue off : Nat) (data : List Byte) (s : State), queue < 256 →
    let x := s.queue queue
    let p := BitVec.ofNat 512 (ofBytes data)
    let drop (q : Nat) (full : Bool) (t : State) : Prop := let y := s.queue q; t = { s with sched := { s.sched with queues := (
      s.sched.queues.setIfInBounds q { y with drop := true, ovf := y.ovf || full, dcnt := y.dcnt + 1 }) } }
    (off ≠ 0 ∨ data.length ≠ 64 ∨ x.bound = false → Completes (.hostLaunchWrite queue off data) s (drop queue false)) ∧
    (off = 0 → data.length = 64 → x.bound = true →
      (64 ≤ x.slots.length → Completes (.hostLaunchWrite queue off data) s (drop queue true)) ∧
      (x.slots.length < 64 → s.packetCheck p none = 0 →
        let y := s.queue (pkQueue p)
        (y.slots.length < 64 → Completes (.hostLaunchWrite queue off data) s fun t => t = { s with sched := { s.sched with queues := (
          s.sched.queues.setIfInBounds (pkQueue p) { y with
            slots := y.slots ++ [{ packet := p, tenq := s.time, num := y.count }], count := y.count + 1 }) } }) ∧
        (64 ≤ y.slots.length → Completes (.hostLaunchWrite queue off data) s (drop (pkQueue p) true))) ∧
      (x.slots.length < 64 → s.packetCheck p none ≠ 0 → Completes (.hostLaunchWrite queue off data) s fun t =>
        (t.queue queue).sref = true ∧ (t.queue queue).rcnt = x.rcnt + 1 ∧ (t.queue queue).slots = x.slots ∧
        (t.queue queue).count = x.count + 1 ∧ ∃ r, r = jobRecord s.fwm ((s.worlds.getD x.world.toNat .reset).receipt.seq + 1) queue x.count
          x.world.toNat 2 0 false false s.time 0 (Config.timeAt s.free) x.code 0 0 0 0 ∧
        (t.worlds.getD x.world.toNat .reset).receipt.records = (s.worlds.getD x.world.toNat .reset).receipt.records ++ [r]))

/-- R103 to R106, R111, R112, R185, R405: a binding starts a queue afresh; a dispatcher retires a head that it can no longer read,
else starts the head that deficit round-robin chooses, of the highest class with a dispatchable head; a starved class-0 head claims
panels first; a started hart holds the registers of R106, and its task has its allocation in each of its clusters. Which queues a
dispatcher visits is log 74, what is left in the trap CSRs and srvec log 15. R16, R20 to R22, R114, R162: where a hart may be put:
an aligned panel of free lanes, a free context, a free TCM slice, a scratchpad allocation clear of others and of every reservation
and within what its world's quota leaves, on nothing that is held for another queue's class-0 head; and the orders in which heads
and harts are taken for class-0 heads (log 43). -/
def Obligations.Dispatching : Prop :=
  ((∀ (q : BindReq) (s : State), s.bindOk q = true → Completes (.queueBind q) s fun t =>
    t.queue q.queue = { Queue.reset with
      bound := true, world := BitVec.ofNat 6 q.world, cls := q.cls, serial := q.serial, home := q.home,
      code := shake256 (s.mem.readBytes q.base q.len) 64, image := (q.base, q.len) } ∧
    (∀ n, n ≠ q.queue → t.queue n = s.queue n) ∧
    (∀ a, t.mem.granule a = if a / 65536 * 65536 ∈ granulesOf q.base q.len ∧ (s.mem.granules.any fun e => e.1 == a / 65536) = true
      then s.mem.granule a ||| 0x40 else s.mem.granule a) ∧
    t = { s with sched := { s.sched with queues := t.sched.queues }, mem := { s.mem with granules := t.mem.granules } }) ∧
  (∀ (disp : Nat) (place : List Place) (s : State), onDispatcher disp place = true → disp ≤ 8 →
    (∀ q slot, s.refusedHead disp = some (q, slot) → Completes (.dispatch disp place) s fun t => t = s.refuseHead q slot) ∧
    (s.refusedHead disp = none →
      (∀ c q d slot lt u, s.chooseHead disp = some (c, q, d) → s.headReady q = some (slot, lt, true) →
        c = 0 ∨ s.reclaimHead disp = none →
        (∀ p, s.nextParked disp = some p → c < p.cls) → s.startTask q slot lt place = some u → Completes (.dispatch disp place) s fun t =>
        (∀ n, n < 256 → (InClass s disp c n → t.queue n = { u.queue n with deficit := d n }) ∧ (¬InClass s disp c n → t.queue n = u.queue n)) ∧
        t = { u with sched := { u.sched with queues := t.sched.queues, ptr := u.sched.ptr.setIfInBounds (4 * disp + c) q } }) ∧
      (∀ u, (∀ c q d, s.chooseHead disp = some (c, q, d) → 0 < c) → s.reclaim disp place = some u → Completes (.dispatch disp place) s fun t => t = u))) ∧
  (∀ (disp : Nat) (s : State),
    (∀ c q d, s.chooseHead disp = some (c, q, d) → InClass s disp c q ∧ (∃ m, Dispatchable s disp q m) ∧
      (∀ k p m, k < c → InClass s disp k p → ¬Dispatchable s disp p m) ∧
      ∃ (dem : Nat → Option Nat) (all : List Nat), (∀ p m, dem p = some m ↔ Dispatchable s disp p m) ∧ (∀ p, p ∈ all ↔ InClass s disp c p) ∧
        (let ptr := s.sched.ptr.getD (4 * disp + c) 0
         all.Pairwise fun a b => (ptr ≤ a ∧ b < ptr) ∨ (a < b ∧ (ptr ≤ a ↔ ptr ≤ b))) ∧
        RoundRobin dem all all (fun p => (s.queue p).deficit) q d) ∧
    ((∀ c q m, c < 4 → InClass s disp c q → ¬Dispatchable s disp q m) → s.chooseHead disp = none) ∧
    (∀ place u, s.reclaim disp place = some u → ∃ q slot lt victims, s.reclaimHead disp = some ((q, slot, lt), victims) ∧
      (q, slot, lt) ∈ s.starvedHeads disp ∧ (∀ x ∈ s.sched.heldFor, x.queue ≠ q) ∧ s.yieldVictims disp q slot.packet lt = some victims ∧
      place.length = lt.dies * lt.cores ∧ u.sched.heldFor = s.sched.heldFor ++ place.map fun e =>
        { queue := q, core := e.core, lane0 := e.lane0, lanes := pkLanes slot.packet, ctx := e.ctx, tcm := e.tcm, tcmSize := 4096 * pkTcm slot.packet })) ∧
  (∀ (q : Nat) (slot : Slot) (lt : LoopTab) (place : List Place) (s u : State), s.startTask q slot lt place = some u →
    let p := slot.packet
    let n := lt.dies * lt.cores
    let per := prodOf lt.temps
    place.length = n ∧ (∃ k, u.sched.tasks = s.sched.tasks ++ [k] ∧ k.queue = q ∧ k.num = slot.num ∧ k.world = pkWorld p ∧ k.left = n) ∧
    u.sched.heldFor = s.sched.heldFor.filter (fun x => x.queue != q) ∧ (∀ a ∈ s.sched.allocs, a ∈ u.sched.allocs) ∧
    (∀ e ∈ place, { queue := q, num := slot.num, world := pkWorld p, clus := clusOf e.core, off := e.spad, size := pkSpad p * 1024 : Alloc } ∈
      u.sched.allocs ∨ ∃ a ∈ s.sched.allocs, a.clus = clusOf e.core ∧ a.queue = q ∧ a.num = slot.num) ∧
    ∀ i e, place[i]? = some e → ∃ h, u.hartAt e.core e.ctx = some h ∧ h.active = true ∧ h.level = .user ∧ h.pc = pkEntry p ∧
      h.world = pkWorld p ∧ h.lane0 = e.lane0 ∧ h.lanes = pkLanes p ∧ h.ord = i ∧ h.hold = none ∧ h.px 4 = false ∧
      h.x 4 = BitVec.ofNat 64 (i * per) ∧ h.x 5 = BitVec.ofNat 64 per ∧ h.x 6 = lt.args ∧ h.x 7 = pkArg0 p ∧ h.x 8 = pkArg1 p ∧
      h.x 9 = BitVec.ofNat 64 i ∧ h.x 10 = BitVec.ofNat 64 n ∧ h.x 11 = pkLtab p ∧ h.x 12 = 0 ∧
      (∀ j : Fin 6, h.csr.lcnt[j] = BitVec.ofNat 64 (lt.temps.getD j 1)) ∧
      ∀ o, s.hartAt e.core e.ctx = some o → o.world ≠ pkWorld p →
        h.strap.tvec = 0 ∧ h.strap.epc = 0 ∧ h.strap.cause = 0 ∧ h.strap.detail = 0 ∧ h.csr.srvec = 0)) ∧
  ((∀ (q num : Nat) (w : BitVec 6) (lanes tcm spad : Nat) (e : Place) (s : State), s.placeOk q num w lanes tcm spad e = true →
    spad ≤ s.quotaLeft w (clusOf e.core) (fun a => a.queue == q && a.num == num) ∧
    (∀ a ∈ s.sched.allocs, a.clus = clusOf e.core →
      (a.queue = q ∧ a.num = num → a.off = e.spad ∧ a.size = spad) ∧ (¬(a.queue = q ∧ a.num = num) → overlap a.off a.size e.spad spad = false)) ∧
    (∀ v, v < 64 → overlap (tailorRes s (BitVec.ofNat 6 v)).1 (tailorRes s (BitVec.ofNat 6 v)).2 e.spad spad = false ∧
      overlap (refreshRes s (BitVec.ofNat 6 v)).1 (refreshRes s (BitVec.ofNat 6 v)).2 e.spad spad = false) ∧
    (∀ x ∈ s.sched.heldFor, x.core = e.core → x.queue ≠ q →
      laneBits x.lane0 x.lanes &&& laneBits e.lane0 lanes = 0 ∧ x.ctx ≠ e.ctx ∧ overlap x.tcm x.tcmSize e.tcm tcm = false) ∧
    e.core < 768 ∧ e.ctx < 8 ∧ e.lane0 % lanes = 0 ∧ e.lane0 + lanes ≤ 32 ∧ e.tcm % 4096 = 0 ∧ e.tcm + tcm ≤ 2 ^ 18 ∧ e.spad + spad ≤ 2 ^ 24 ∧
    ∀ h ∈ s.activeHarts,
      (h.core = e.core → h.ctx ≠ e.ctx ∧ laneBits h.lane0 h.lanes &&& laneBits e.lane0 lanes = 0 ∧ overlap h.tcmOff h.tcmSize e.tcm tcm = false) ∧
      (clusOf h.core = clusOf e.core → h.world ≠ w → s.exclusive w = false ∧ s.exclusive h.world = false)) ∧
  (∀ (disp : Nat) (s : State), (s.starvedHeads disp).Pairwise (fun a b => a.1 < b.1) ∧ ∀ e ∈ s.starvedHeads disp,
    InClass s disp 0 e.1 ∧ s.headReady e.1 = some (e.2.1, e.2.2, true) ∧ s.resourcesFree disp e.1 e.2.1.packet e.2.2 = false) ∧
  (∀ (disp : Nat) (s : State), (s.victimOrder disp).Pairwise fun a b =>
    s.classOf b < s.classOf a ∨ (s.classOf a = s.classOf b ∧ b.launched ≤ a.launched)))

/-- R107, R193, R196, R267: events of one hart: a trap in progress is entered once the hart is drained; time that has reached
stimecmp makes TIMER pending; an `idle` times out; a held `launch` is enqueued. R109, R113, R114, R204, R205: promotion of a class-3
head, whole harts taken for a class-0 head, a task that does not park in time or that its supervisor ends, and a parked hart that
resumes, where it may stand (R399, log 29), at supervisor level at srvec with its sresume in a0. -/
def Obligations.HartAndTaskEvents : Prop :=
  (∀ (n : Nat) (h : Hart) (s : State), s.hartAt (n / 8) (n % 8) = some h → h.active = true →
    let u := s.select h.core h.ctx
    let back (t : State) := t.select s.cur.core s.cur.ctx
    (∀ t, u.cur.hold = some (.trap t) → u.released u.cur (.trap t) = true → exec (.trapTake n) s = .next (back (u.enterTrap t))) ∧
    (∀ t, u.cur.hold = none → u.cur.asyncTrap = some t → exec (.trapTake n) s = .next (back (u.takeAsync t))) ∧
    (u.cur.csr.stimecmp.toNat ≤ u.time.toNat → exec (.timer n) s = .next (back { u with cur := { u.cur with timer := true } })) ∧
    (∀ p, u.cur.hold = some (.idle p) → exec (.idleTimeout n) s = .next (back ({ u with cur := { u.cur with hold := none } }).retire)) ∧
    (∀ p k, u.cur.hold = some (.launch p k) → (u.queue (pkQueue p)).slots.length < 64 →
      exec (.launchEnqueue n) s =
        .next (back ((({ u with cur := { u.cur with hold := none } }).enqueue p (pkQueue p)).postNow k).retire))) ∧
  ((∀ (queue : Nat) (s : State), queue < 256 → (s.queue queue).bound = true → (s.queue queue).cls = 3 → (s.queue queue).slots ≠ [] →
    (s.queue queue).promoted = false → Completes (.headPromotion queue) s fun t => t = { s with sched := { s.sched with queues := (
      s.sched.queues.setIfInBounds queue { s.queue queue with promoted := true }) } }) ∧
  (∀ (disp : Nat) (victims : List Nat) (hs : List Hart) (s : State) (q : Nat) (slot : Slot) (lt : LoopTab),
    (s.starvedHeads disp).find? (s.savesFor disp hs) = some (q, slot, lt) → victims.map s.hartNo = hs.map some → hs ≠ [] →
    Completes (.yieldTimeout disp victims) s fun t =>
      t = { s with cur := t.cur, others := t.others, sched := { s.sched with heldFor := t.sched.heldFor } } ∧
      (∀ h ∈ hs, t.hartAt h.core h.ctx = some { h with preempt := true, claimed := 0 }) ∧
      (∀ c k, (∀ h ∈ hs, ¬(h.core = c ∧ h.ctx = k)) → t.hartAt c k = s.hartAt c k) ∧
      t.sched.heldFor = s.sched.heldFor ++ hs.map fun h =>
        { queue := q, core := h.core, lane0 := h.lane0, lanes := h.lanes, ctx := h.ctx, tcm := h.tcmOff, tcmSize := h.tcmSize }) ∧
  (∀ (disp : Nat) (hs : List Hart) (q : Nat) (slot : Slot) (lt : LoopTab) (s : State), s.savesFor disp hs (q, slot, lt) = true ↔
    ((∃ x ∈ s.sched.heldFor, x.queue = q) ∨ s.yieldVictims disp q slot.packet lt = none) ∧
    ∃ l, s.saveVictims disp q slot.packet lt = some l ∧ (∀ h ∈ hs, h.among l = true) ∧ (∀ h, l.getLast? = some h → h.among hs = true) ∧
      s.resourcesFreeIf (fun h => if h.among hs || h.preempt || h.preempted then 0 else h.lanes) disp q slot.packet lt = true) ∧
  (∀ (n : Nat) (h : Hart) (k : Task) (s : State), s.hartNo n = some h → s.taskOf h = some k → h.active = true → h.preempted = true → k.code = 0 →
    Completes (.preemptTimeout n) s fun t => t = s.endTask k 1) ∧
  (∀ (q n : Nat) (k : Task) (s : State), s.sched.tasks.find? (fun t => t.queue == q && t.num == n) = some k → k.code = 0 →
    Completes (.supervisorTaskEnd q n) s fun t => t = s.endTask k 1) ∧
  (∀ (k : Task) (code : Nat) (s : State), k.code = 0 → (s.harts.map fun h => (h.core, h.ctx)).Nodup → let t := s.endTask k code
    (∀ h ∈ t.hartsOf k, h.hold = some .ending ∧ ∀ o ∈ t.opsOf h, o.kind.awaitsAcks = true) ∧
    (∀ x ∈ t.sched.tasks, x.queue = k.queue → x.num = k.num → t.hartsOf k ≠ [] ∧ x.code = code ∧ x.left = (t.hartsOf k).length) ∧
    (∀ x ∈ t.sched.parked, ¬(x.queue = k.queue ∧ x.num = k.num))) ∧
  (∀ (disp : Nat) (place : List Place) (before after : List Parked) (p : Parked) (s u : State),
    ((List.range 4).flatMap fun c => s.sched.parked.filter fun p => p.disp == disp && p.cls == c) = before ++ p :: after →
    let group (x : Parked) : List Parked := if (s.activeHarts.any fun h => h.queue == x.queue && h.num == x.num) then [x]
      else s.sched.parked.filter fun y => y.queue == x.queue && y.num == x.num
    (∀ b ∈ before, s.parkedFit (s.stillHeld b) [] (group b) = false) → s.parkedFit (s.stillHeld p) [] (group p) = true →
    (∀ c q d, s.chooseHead disp = some (c, q, d) → p.cls ≤ c) → (group p).length = place.length → onDispatcher disp place = true →
    s.resumeAt (s.stillHeld p) [] ((group p).zip place) = some u →
    Completes (.resumeParked disp place) s fun t => t = u) ∧
  (∀ (p : Parked) (e : Place) (held : Bool) (done : List (Parked × Place)) (s u : State), s.resumeAt held done [(p, e)] = some u →
    (e.lane0 = 0 ↔ p.tile = true) ∧ (held = true → clusOf e.core = p.clus) ∧
    (held = false → ∀ x ∈ done, x.1.clus = p.clus ↔ clusOf x.2.core = clusOf e.core) ∧
    s.placeOk p.queue p.num p.world p.lanes p.tcmSize p.spadSize e = true ∧
    (∀ x ∈ s.sched.heldFor, x.core = e.core → laneBits x.lane0 x.lanes &&& laneBits e.lane0 p.lanes = 0 ∧ x.ctx ≠ e.ctx ∧
      overlap x.tcm x.tcmSize e.tcm p.tcmSize = false) ∧
    ∃ h, u.hartAt e.core e.ctx = some h ∧ h.active = true ∧
    h.level = .supervisor ∧ h.pc = h.csr.srvec ∧ h.x 4 = p.sresume ∧ h.world = p.world ∧ h.queue = p.queue ∧ h.num = p.num ∧ h.ord = p.ord ∧
    h.lanes = p.lanes ∧ h.samples = p.samples ∧ u.sched.parked = s.sched.parked.filter (· != p)))

/-! Vectors. -/

/-- R17, R115, R275, R276, R281, R282: `setvli`, `setvl` and `settl`, with the cause of an illegal value, the lane reclaim and the
return of the lanes of a former panel that is free again. -/
def Obligations.VectorSettings : Prop :=
  ∀ (d a b : BitVec 5) (s : State),
    (∀ new : Word, FirstFailing (VtypeFails new) 5 (vtypeCause new)) ∧
    (∀ (i : Instr) (srcs : List (BitVec 5)) (yb : BitVec 1) (new : Word),
      ((i = .setvl d a b yb ∧ srcs = [a, b] ∧ new = s.cur.x b) ∨
       (∃ sew grp tl mk cfg, i = .setvli d a yb sew grp tl mk cfg ∧ srcs = [a] ∧ new = cfgVtype sew grp tl mk cfg)) →
      Waited s srcs →
      let v := (s.useX [a]).drainAll false
      let cause := vtypeCause new
      let vt : Half := if cause = 0 then new.setWidth 32 else BitVec.ofNat 32 (2 ^ 31 + 2 ^ 28 * cause)
      let vl (panel : Nat) : Word :=
        if cause = 0 then BitVec.ofNat 64 (min (s.cur.x a).toNat (2048 * panel * 2 ^ (new.extractLsb' 3 2).toNat / (8 * 2 ^ (new.extractLsb' 0 2).toNat)))
        else 0
      (yb = 0 ∨ ((v.cur.claimed = 0 ∨ v.refreshing v.cur = true) ∧ ∀ f, v.cur.former = some f → ¬PanelFree v f) →
        Completes i s (ConfigDone v d (yb == 1) vt (vl v.cur.lanes))) ∧
      (∀ f, yb = 1 → v.cur.claimed = 0 ∨ v.refreshing v.cur = true → v.cur.former = some f → PanelFree v f →
        Completes i s (ConfigDone { v with cur := { v.cur with
          lane0 := f.1, lanes := f.2, former := none,
          vec := { v.cur.vec with v := Vector.replicate 32 0, m := Vector.replicate 8 0, pv := 0, pm := 0 } } } d true vt (vl f.2))) ∧
      (yb = 1 → v.cur.claimed ≠ 0 → v.refreshing v.cur = false → v.cur.lanes ∈ [4, 8, 16, 32] → ∃ p, 4 ≤ p ∧ p ∣ v.cur.lanes ∧
        (p + v.cur.claimed ≤ v.cur.lanes ∨ p = 4) ∧ (∀ q, 4 ≤ q → q ∣ v.cur.lanes → q + v.cur.claimed ≤ v.cur.lanes → q ≤ p) ∧
        Completes i s (ConfigDone { v with cur := { v.cur with
          lanes := p, former := some (v.cur.former.getD (v.cur.lane0, v.cur.lanes)), claimed := 0,
          vec := { v.cur.vec with v := Vector.replicate 32 0, m := Vector.replicate 8 0, pv := 0, pm := 0 } } } d true vt (vl p)))) ∧
    (∀ sew grp tl mk cfg, cfg.toNat < 208 → vtypeCause (cfgVtype sew grp tl mk cfg) = 0) ∧
    (Waited s [d, a, b] → s.cur.csr.vtype.getLsbD 31 = false → Completes (.settl d a b) s fun t =>
      let late (r : BitVec 5) (n : Nat) (p : Bool) : List Pend :=
        if r = 0 then [] else [pendOf s 2 (.x s.cur.level r (if p then 0 else BitVec.ofNat 64 (min (s.cur.x r).toNat n)) p) 0]
      ScalarFrame s t ∧ OtherBanks s t ∧ XKept s t ∧ HooksKept s t ∧ LdestSet s t d ∧ Sequel s t ∧ t.ops = s.ops ∧
      t.cur.pend = s.cur.pend ++ late d 32 (s.cur.px d) ++ late a 32 (s.cur.px a) ++ late b (s.cur.vcfg.vlmax / 32) (s.cur.px b))

/-- R288, R289: element-wise arithmetic in .vv, .vx and .vi form; `vmv` copies its operand. -/
def Obligations.VectorArithmetic : Prop :=
  ∀ (d a b : BitVec 5) (mk : BitVec 3) (dt ca cb : BitVec 1) (s : State),
    let c := s.cur.vcfg
    let wrote (f : Nat → Nat → Nat → Nat) (val : Nat → Nat) (p : Bool) : State → Prop :=
      VecWrote s (groupRegsAfter s d c.sew c.g (s.cur.vec.active c mk.toNat) (fun i => f c.sew (s.vE a i) (val i)) p) 0
    (∀ e ∈ arithTable ++ vshiftTable,
      (VecReady s [] [(d, c.g), (a, c.g), (b, c.g)] →
        Completes (e.vv d a b mk dt ca cb) s (wrote e.f (s.vE b) (s.anyPV [(a, c.g), (b, c.g)] [mk.toNat]))) ∧
      (VecReady s [b] [(d, c.g), (a, c.g)] →
        Completes (e.vx d a b mk dt ca) s (wrote e.f (fun _ => scalarOperand s b) (s.cur.px b || s.anyPV [(a, c.g)] [mk.toNat])))) ∧
    (∀ e ∈ arithTable, VecReady s [] [(d, c.g), (a, c.g)] →
      Completes (e.vi d a b mk dt ca) s (wrote e.f (fun _ => immOperand s b) (s.anyPV [(a, c.g)] [mk.toNat]))) ∧
    (∀ e ∈ vshiftTable, VecReady s [] [(d, c.g), (a, c.g)] →
      Completes (e.vi d a b mk dt ca) s (wrote e.f (fun _ => b.toNat) (s.anyPV [(a, c.g)] [mk.toNat]))) ∧
    (let moved (val : Nat → Nat) (p : Bool) : State → Prop :=
        VecWrote s (groupRegsAfter s d c.sew c.g (s.cur.vec.active c mk.toNat) val p) 0;
      (VecReady s [] [(d, c.g), (b, c.g)] → Completes (.vmvVV d b mk dt cb) s (moved (s.vE b) (s.anyPV [(b, c.g)] [mk.toNat]))) ∧
      (VecReady s [b] [(d, c.g)] →
        Completes (.vmvVX d b mk dt) s (moved (fun _ => scalarOperand s b) (s.cur.px b || s.anyPV [] [mk.toNat]))) ∧
      (VecReady s [] [(d, c.g)] → Completes (.vmvVI d b mk dt) s (moved (fun _ => immOperand s b) (s.anyPV [] [mk.toNat]))))

/-- R289: arithmetic with the mask field as an operand; every element below vl is active; carries and borrows out go to a mask.
R289: comparisons write a mask register under the mask. -/
def Obligations.VectorCarriesAndCompares : Prop :=
  (∀ (d a b : BitVec 5) (mk : BitVec 3) (ca cb : BitVec 1) (s : State),
    let c := s.cur.vcfg
    let k (i : Nat) : Nat := if s.cur.vec.mask mk.toNat i then 1 else 0
    let act := s.cur.vec.active c 0
    let pv := s.anyPV [(a, c.g), (b, c.g)] [mk.toNat]
    let px := s.cur.px b || s.anyPV [(a, c.g)] [mk.toNat]
    let pi := s.anyPV [(a, c.g)] [mk.toNat]
    (∀ e ∈ carryTable,
      let wrote (val : Nat → Nat) (p : Bool) : State → Prop :=
        VecWrote s (groupRegsAfter s d c.sew c.g act (fun i => e.f c.sew (s.vE a i) (val i) (k i)) p) 0
      (VecReady s [] [(d, c.g), (a, c.g), (b, c.g)] → Completes (e.vv d a b mk ca cb) s (wrote (s.vE b) pv)) ∧
      (VecReady s [b] [(d, c.g), (a, c.g)] → Completes (e.vx d a b mk ca) s (wrote (fun _ => scalarOperand s b) px)) ∧
      (VecReady s [] [(d, c.g), (a, c.g)] → Completes (e.vi d a b mk ca) s (wrote (fun _ => immOperand s b) pi))) ∧
    (∀ e ∈ carryOutTable,
      let wrote (val : Nat → Nat) (p : Bool) : State → Prop :=
        VecWrote s (maskRegsAfter s d act (fun i => e.f c.sew (s.vE a i) (val i) (k i)) p) 0
      (VecReady s [] [(a, c.g), (b, c.g)] → Completes (e.vv d a b mk ca cb) s (wrote (s.vE b) pv)) ∧
      (VecReady s [b] [(a, c.g)] → Completes (e.vx d a b mk ca) s (wrote (fun _ => scalarOperand s b) px)) ∧
      (VecReady s [] [(a, c.g)] → Completes (e.vi d a b mk ca) s (wrote (fun _ => immOperand s b) pi)))) ∧
  (∀ e ∈ cmpTable, ∀ (d a b : BitVec 5) (mk : BitVec 3) (dt ca cb : BitVec 1) (s : State),
    let c := s.cur.vcfg
    let wrote (val : Nat → Nat) (p : Bool) : State → Prop :=
      VecWrote s (maskRegsAfter s d (s.cur.vec.active c mk.toNat) (fun i => e.f c.sew (s.vE a i) (val i)) p) 0
    (VecReady s [] [(a, c.g), (b, c.g)] →
      Completes (e.vv d a b mk dt ca cb) s (wrote (s.vE b) (s.anyPV [(a, c.g), (b, c.g)] [mk.toNat]))) ∧
    (VecReady s [b] [(a, c.g)] →
      Completes (e.vx d a b mk dt ca) s (wrote (fun _ => scalarOperand s b) (s.cur.px b || s.anyPV [(a, c.g)] [mk.toNat]))) ∧
    (VecReady s [] [(a, c.g)] →
      Completes (e.vi d a b mk dt ca) s (wrote (fun _ => immOperand s b) (s.anyPV [(a, c.g)] [mk.toNat]))))

/-- R116, R197, R201, R276, R277: what a vector instruction meets before it has an effect: vtype that is illegal, a non-zero vstart,
a group at no multiple of its size trap ILLEGAL; a full VIQ holds the hart. R17, R212, R272, R273, R278: how a group takes its
results. Element i is bits of one register at the place of R273; below vl an active element takes its result, an inactive one 0 or
its old value by the mask policy; from vl on it takes 0 or its old value by the tail policy; below vstart and in every other
register nothing changes. R278: how a mask register takes its results, every element of it being one bit. R211, R212: a poisoned
source poisons every register of the destination group, whose data then read 0; a clean result cleans a register that it fills, and
a poisoned register that keeps an old element stays poisoned. -/
def Obligations.VectorRules : Prop :=
  (∀ e ∈ arithTable ++ vshiftTable, ∀ (d a b : BitVec 5) (mk : BitVec 3) (dt ca cb : BitVec 1) (s : State),
    let g := s.cur.vcfg.g
    let illegal : Trap := { code := 0x01, detail := s.cur.ir.setWidth 64 }
    let fits := d.toNat % g = 0 ∧ a.toNat % g = 0
    (s.cur.csr.vtype.getLsbD 31 = true ∨ s.cur.csr.vstart ≠ 0 ∨ ¬(fits ∧ b.toNat % g = 0) →
      exec (e.vv d a b mk dt ca cb) s = .next (s.takeTrap illegal)) ∧
    (s.cur.csr.vtype.getLsbD 31 = true ∨ s.cur.csr.vstart ≠ 0 ∨ ¬fits →
      exec (e.vx d a b mk dt ca) s = .next (s.takeTrap illegal)) ∧
    (s.cur.csr.vtype.getLsbD 31 = false → s.cur.csr.vstart = 0 → fits → b.toNat % g = 0 → 32 ≤ s.viqLength →
      exec (e.vv d a b mk dt ca cb) s = .next (s.holdClosing .viq))) ∧
  (∀ (r : VecRegs) (c : VCfg) (d w n : Nat) (active : Nat → Bool) (res : Nat → Nat), c.p ∈ [4, 8, 16, 32] → w ∈ [8, 16, 32, 64] → 1 ≤ n →
    d + n ≤ 32 →
    let top := n * (2048 * c.p / w)
    let r' := r.writeGroup c d w top active res
    (∀ i, i < top → r'.elem c.p d w i =
      if i < c.vstart then r.elem c.p d w i
      else if i < c.vl then (if active i then res i % 2 ^ w else if c.mz then 0 else r.elem c.p d w i)
      else if c.tz then 0 else r.elem c.p d w i) ∧
    (∀ k, k < 32 → k < d ∨ d + n ≤ k → r'.v[k]? = r.v[k]?) ∧ r'.m = r.m ∧ r'.z = r.z ∧ r'.pv = r.pv ∧ r'.pm = r.pm ∧ r'.pz = r.pz) ∧
  (∀ (c : VCfg) (old : BitVec 65536) (active res : Nat → Bool) (i : Nat), i < 65536 → c.vl ≤ 65536 → c.vstart ≤ c.vl →
    (maskResult c old active res).getLsbD i =
      if i < c.vstart then old.getLsbD i
      else if i < c.vl then (if active i then res i else if c.mz then false else old.getLsbD i)
      else if c.tz then false else old.getLsbD i) ∧
  (∀ (r : VecRegs) (c : VCfg) (active : Nat → Bool) (d n w : Nat) (p : Bool), d + n ≤ 32 →
    let r' := r.settleV c active d n w p
    (∀ k, k < n → r'.pv.getLsbD (d + k) = (p || (r.pv.getLsbD (d + k) && c.keepsIn active w k)) ∧
      (r'.pv.getLsbD (d + k) = true → r'.v[d + k]? = some 0) ∧ (r'.pv.getLsbD (d + k) = false → r'.v[d + k]? = r.v[d + k]?)) ∧
    (∀ k, k < 32 → k < d ∨ d + n ≤ k → r'.pv.getLsbD k = r.pv.getLsbD k ∧ r'.v[k]? = r.v[k]?) ∧ r'.m = r.m ∧ r'.z = r.z)

/-- R279, R290, R292: slides, permutes, compression, iota and indices. An element that the result reads ahead comes by `ahead`. -/
def Obligations.VectorPermutes : Prop :=
  ∀ (d a b : BitVec 5) (mk : BitVec 3) (dt ca cb : BitVec 1) (s : State),
    let c := s.cur.vcfg
    let act := s.cur.vec.active c mk.toNat
    let gd := (d, c.g)
    let ga := (a, c.g)
    let wrote (res : Nat → Nat) (p : Bool) : State → Prop := VecWrote s (groupRegsAfter s d c.sew c.g act res p) 0
    let pa := s.anyPV [ga] [mk.toNat]
    let up (n : Nat) (i : Nat) : Nat := if n ≤ i then s.vE a (i - n) else 0
    let down (n : Nat) (i : Nat) : Nat := if i + n < c.vl then s.ahead a ca c.sew (i + n) i else 0
    (Apart gd [ga] → VecReady s [b] [gd, ga] →
      Completes (.vslupVX d a b mk dt ca) s (wrote (up (s.cur.x b).toNat) (s.cur.px b || pa)) ∧
      Completes (.vsldnVX d a b mk dt ca) s (wrote (down (s.cur.x b).toNat) (s.cur.px b || pa)) ∧
      Completes (.vsl1up d a b mk dt ca) s (wrote (fun i => if i = 0 then (s.cur.x b).toNat else s.vE a (i - 1)) (s.cur.px b || pa)) ∧
      Completes (.vsl1dn d a b mk dt ca) s
        (wrote (fun i => if i + 1 = c.vl then (s.cur.x b).toNat else s.ahead a ca c.sew (i + 1) i) (s.cur.px b || pa))) ∧
    (Apart gd [ga] → VecReady s [] [gd, ga] →
      Completes (.vslupVI d a b mk dt ca) s (wrote (up b.toNat) pa) ∧ Completes (.vsldnVI d a b mk dt ca) s (wrote (down b.toNat) pa)) ∧
    (Apart gd [ga, (b, c.g)] → VecReady s [] [gd, ga, (b, c.g)] → Completes (.vperm d a b mk dt ca cb) s
      (wrote (fun i => if s.vE b i < c.vl then s.ahead a ca c.sew (s.vE b i) i else 0) (s.anyPV [ga, (b, c.g)] [mk.toNat]))) ∧
    (Apart gd [ga] → VecReady s [] [gd, ga] → Completes (.vcompress d a mk ca) s
      (let sel := (List.range c.vl).filter fun i => s.cur.vec.mask mk.toNat i
       let c' := { c with vl := sel.length }
       VecWroteAtEnd s ((s.cur.vec.writeGroup c' d.toNat c.sew c.vlmax (fun _ => true) fun j => s.ahead a ca c.sew (sel.getD j 0) j).settleV c'
         (fun _ => true) d.toNat c.g c.sew pa) 0)) ∧
    (VecReady s [] [gd] → Completes (.viota d mk) s
        (VecWrote s (groupRegsAfter s d c.sew c.g (s.cur.vec.active c 0)
          (fun i => ((List.range i).filter fun j => s.cur.vec.mask mk.toNat j).length) (s.anyPV [] [mk.toNat])) 0) ∧
      Completes (.vid d mk dt) s (wrote id (s.anyPV [] [mk.toNat]))) ∧
    (∀ i j, ca = 1 ∨ i ≤ j → s.ahead a ca c.sew i j = s.vE a i) ∧
    (∀ i j, s.ahead a ca c.sew i j = s.vE a i ∨ s.ahead a ca c.sew i j = s.stale.elem c.p a.toNat c.sew i)

/-- R202, R290, R291: widening, narrowing and extension; a width or a group that they cannot have traps ILLEGAL. The narrowing
shifts read their source as the model reads ahead (log 24). -/
def Obligations.VectorWidths : Prop :=
  ∀ (d a b : BitVec 5) (mk : BitVec 3) (dt ca cb : BitVec 1) (s : State),
    let c := s.cur.vcfg
    let act := s.cur.vec.active c mk.toNat
    let w := c.sew
    let g := c.g
    let illegal : Trap := { code := 0x01, detail := s.cur.ir.setWidth 64 }
    let wide (res : Nat → Nat → Nat) : State → Prop :=
      VecWrote s (groupRegsAfter s d (2 * w) (2 * g) act (fun i => res (s.vE a i) (s.vE b i)) (s.anyPV [(a, g), (b, g)] [mk.toNat])) 0
    let slim (n : Nat) (sign p : Bool) : State → Prop := VecWrote s (groupRegsAfter s d w g act (fun i =>
      let v := s.aheadElem s.stale ca c.p a.toNat (2 * w) i i
      if sign then wrapInt w (sextInt (2 * w) v / (2 ^ (n % (2 * w)) : Nat)) else v / 2 ^ (n % (2 * w))) p) 0
    let ext (f : Nat) (sign : Bool) : State → Prop := VecWrote s (groupRegsAfter s d w g act (fun i =>
      let v := s.cur.vec.elem c.p a.toNat (w / f) i
      if sign then wrapInt w (sextInt (w / f) v) else v) (s.anyPV [(a, max 1 (g / f))] [mk.toNat])) 0
    (w ≤ 32 → g ≤ 4 → Apart (d, 2 * g) [(a, g), (b, g)] → VecReady s [] [(d, 2 * g), (a, g), (b, g)] →
      Completes (.vwadd d a b mk dt ca cb) s (wide fun x y => wrapInt (2 * w) (sextInt w x + sextInt w y)) ∧
      Completes (.vwaddu d a b mk dt ca cb) s (wide fun x y => x + y) ∧
      Completes (.vwmul d a b mk dt ca cb) s (wide fun x y => wrapInt (2 * w) (sextInt w x * sextInt w y)) ∧
      Completes (.vwmulu d a b mk dt ca cb) s (wide fun x y => x * y)) ∧
    (w ≤ 32 → g ≤ 4 → Apart (d, g) [(a, 2 * g)] →
      (VecReady s [b] [(d, g), (a, 2 * g)] →
        let p := s.cur.px b || s.anyPV [(a, 2 * g)] [mk.toNat]
        Completes (.vnshrVX d a b mk dt ca) s (slim (s.cur.x b).toNat false p) ∧
        Completes (.vnsraVX d a b mk dt ca) s (slim (s.cur.x b).toNat true p)) ∧
      (VecReady s [] [(d, g), (a, 2 * g)] →
        let p := s.anyPV [(a, 2 * g)] [mk.toNat]
        Completes (.vnshrVI d a b mk dt ca) s (slim b.toNat false p) ∧ Completes (.vnsraVI d a b mk dt ca) s (slim b.toNat true p))) ∧
    (∀ f, f = 2 ∨ f = 4 → 8 * f ≤ w → Apart (d, g) [(a, max 1 (g / f))] → VecReady s [] [(d, g), (a, max 1 (g / f))] →
      (f = 2 → Completes (.vextS2 d a mk dt ca) s (ext 2 true) ∧ Completes (.vextZ2 d a mk dt ca) s (ext 2 false)) ∧
      (f = 4 → Completes (.vextS4 d a mk dt ca) s (ext 4 true) ∧ Completes (.vextZ4 d a mk dt ca) s (ext 4 false))) ∧
    (VecReady s [] [] → 32 < w ∨ 4 < g → ∀ i ∈ [Instr.vwadd d a b mk dt ca cb, .vwaddu d a b mk dt ca cb, .vwmul d a b mk dt ca cb,
      .vwmulu d a b mk dt ca cb, .vnshrVI d a b mk dt ca, .vnsraVI d a b mk dt ca], exec i s = .next (s.takeTrap illegal))

/-- R294 to R296: mask logic, counts and positions in a mask, element moves, integer reductions. -/
def Obligations.MasksAndMoves : Prop :=
  ∀ (d a b : BitVec 5) (mk : BitVec 3) (dt ca cb : BitVec 1) (h : BitVec 4) (s : State),
    let c := s.cur.vcfg
    let bit (m : BitVec 5) (i : Nat) : Bool := s.cur.vec.mask m.toNat i
    let logic (f : Nat → Bool) (l : List Nat) : State → Prop :=
      VecWrote s (maskRegsAfter s d (s.cur.vec.active c 0) f (s.anyPV [] l)) 0
    (VecReady s [] [] →
      Completes (.mand d a b) s (logic (fun i => bit a i && bit b i) [a.toNat, b.toNat]) ∧
      Completes (.mor d a b) s (logic (fun i => bit a i || bit b i) [a.toNat, b.toNat]) ∧
      Completes (.mxor d a b) s (logic (fun i => bit a i ^^ bit b i) [a.toNat, b.toNat]) ∧
      Completes (.mandn d a b) s (logic (fun i => bit a i && !bit b i) [a.toNat, b.toNat]) ∧
      Completes (.mshl d a b) s (logic (fun i => b.toNat ≤ i && bit a (i - b.toNat)) [a.toNat]) ∧
      (let p := s.anyPV [] [a.toNat]
       Completes (.mpopc d a h) s (VecMoved s h d (BitVec.ofNat 64 ((List.range c.vl).countP (bit a))) p) ∧
       Completes (.mfirst d a h) s (VecMoved s h d
         (match (List.range c.vl).find? (bit a) with | some i => BitVec.ofNat 64 i | none => BitVec.allOnes 64) p) ∧
       Completes (.mlast d a h) s (VecMoved s h d
         (match (List.range c.vl).reverse.find? (bit a) with | some i => BitVec.ofNat 64 i | none => BitVec.allOnes 64) p))) ∧
    (VecReady s [b] [(a, c.g)] → Completes (.vmvx d a b h ca) s (VecMoved s h d
      (if (s.cur.x b).toNat < c.vl then sextWord c.sew (BitVec.ofNat 64 (s.vE a (s.cur.x b).toNat)) else 0)
      (s.cur.px b || s.anyPV [(a, c.g)] []))) ∧
    (VecReady s [] [(a, c.g)] → Completes (.vlastx d a b h ca) s (VecMoved s h d
      (match (List.range c.vl).reverse.find? (bit b) with
        | some i => sextWord c.sew (BitVec.ofNat 64 (s.vE a i))
        | none => 0) (s.anyPV [(a, c.g)] [b.toNat]))) ∧
    (VecReady s [a] [(d, c.g)] → Completes (.vmvsx d a) s
      (VecWrote s (elemRegsAfter s d (if c.vl = 0 then none else some (s.cur.x a).toNat) (s.cur.px a)) 0)) ∧
    (∀ e ∈ redTable, VecReady s [] [(d, c.g), (a, c.g)] → Completes (e.1 d a b mk dt ca cb) s
      (VecWroteAtEnd s (elemRegsAfter s d (some ((List.range c.vl).foldl (fun acc i =>
        if s.cur.vec.active c mk.toNat i then e.2 c.sew acc (s.vE a i) % 2 ^ c.sew else acc) (s.vE b 0)))
        (s.anyPV [(a, c.g), (b, 1)] [mk.toNat])) 0))

/-- R48 to R51, R297 to R300: vector floating-point arithmetic and comparisons; a width without a format traps ILLEGAL. R42 to R48,
R50 to R52: what rounding comes to, what stands beyond the largest finite value, and what the encodings are; a value that rounds
back to the largest number raises NX alone (log 68). Conversions round once. R45, R46, R52, R54, R55, R301 to R303: conversions,
sums in element order and by the tree, minima and maxima, powers of two. What is flushed between additions is log 65, that exact
conversions flush no result log 26, the sign of a weight of zero log 67. -/
def Obligations.VectorFloats : Prop :=
  (∀ (d a b : BitVec 5) (mk : BitVec 3) (dt ca cb : BitVec 1) (s : State),
    let c := s.cur.vcfg
    let act := s.cur.vec.active c mk.toNat
    let rm (i : Nat) : Rm := rmOf c.rnd c.seed c.draw (c.vsb + BitVec.ofNat 64 i)
    let illegal : Trap := { code := 0x01, detail := s.cur.ir.setWidth 64 }
    (∀ e ∈ vfpTable,
      let pd : List (BitVec 5 × Nat) := if e.useD then [(d, c.g)] else []
      let runs (f : Fmt) (val : Nat → Nat) (p : Bool) : State → Prop :=
        let x (v : Nat) : Fp × Nat := (f.readIn c.flushIn v, v)
        let r (i : Nat) : Nat × Flags := e.op f (rm i) c.flushOut (x (s.vE d i)) (x (s.vE a i)) (x (val i)) c.flushIn
        Drawn e.rounds s (VecWrote s (groupRegsAfter s d c.sew c.g act (fun i => (r i).1) p) (flagsBelow c.vl act fun i => (r i).2))
      (∀ f, formatAt e.bf c.sew = some f →
        (VecReady s [] [(d, c.g), (a, c.g), (b, c.g)] → Completes (e.vv d a b mk dt ca cb) s
          (runs f (s.vE b) (s.anyPV ((a, c.g) :: (b, c.g) :: pd) [mk.toNat]))) ∧
        (VecReady s [b] [(d, c.g), (a, c.g)] → Completes (e.vx d a b mk dt ca) s
          (runs f (fun _ => scalarOperand s b) (s.cur.px b || s.anyPV ((a, c.g) :: pd) [mk.toNat])))) ∧
      (formatAt e.bf c.sew = none → VecReadyAt s [b] [] →
        exec (e.vv d a b mk dt ca cb) s = .next (s.takeTrap illegal) ∧ exec (e.vx d a b mk dt ca) s = .next (s.takeTrap illegal))) ∧
    (∀ f, formatAt false c.sew = some f → VecReady s [] [(d, c.g), (a, c.g)] → Completes (.vfsqrt d a mk dt ca) s
      (let r (i : Nat) := f.sqrt (rm i) c.flushOut (f.readIn c.flushIn (s.vE a i))
       Drawn true s (VecWrote s (groupRegsAfter s d c.sew c.g act (fun i => (r i).1) (s.anyPV [(a, c.g)] [mk.toNat]))
        (flagsBelow c.vl act fun i => (r i).2)))) ∧
    (∀ e ∈ vfcmpTable, ∀ f, formatAt false c.sew = some f →
      let runs (val : Nat → Nat) (p : Bool) : State → Prop :=
        let r (i : Nat) := e.2.2.holds (f.readIn c.flushIn (s.vE a i)) (f.readIn c.flushIn (val i))
        VecWrote s (maskRegsAfter s d act (fun i => (r i).1) p) (flagsBelow c.vl act fun i => (r i).2)
      (VecReady s [] [(a, c.g), (b, c.g)] → Completes (e.1 d a b mk dt ca cb) s
        (runs (s.vE b) (s.anyPV [(a, c.g), (b, c.g)] [mk.toNat]))) ∧
      (VecReady s [b] [(a, c.g)] → Completes (e.2.1 d a b mk dt ca) s
        (runs (fun _ => scalarOperand s b) (s.cur.px b || s.anyPV [(a, c.g)] [mk.toNat]))))) ∧
  ((∀ f ∈ formats,
    (∀ (rm : Rm) (fo neg : Bool) (m : Nat) (e : Int), m ≠ 0 → RoundsTo f rm fo neg m e (f.round rm fo neg m e)) ∧
    (∀ neg, f.read (f.largest neg) = .fin neg f.maxSig (f.emax - f.fb) ∧ (f.e4m3 = false → f.read (f.inf neg) = .inf neg)) ∧
    f.read f.nan = .nan false ∧
    (∀ v, v < 2 ^ f.width → let neg := v.testBit (f.width - 1); let x : Nat := v / 2 ^ f.fb % 2 ^ f.eb; let m : Nat := v % 2 ^ f.fb
      f.read v =
        if f.e4m3 ∧ x = 15 ∧ m = 7 then .nan false
        else if f.e4m3 = false ∧ x = 2 ^ f.eb - 1 then (if m = 0 then .inf neg else .nan (!m.testBit (f.fb - 1)))
        else if x = 0 then .fin neg m (1 - f.bias - f.fb) else .fin neg (2 ^ f.fb + m) (x - f.bias - f.fb)) ∧
    (∀ v, f.readIn true v = if v / 2 ^ f.fb % 2 ^ f.eb = 0 ∧ v % 2 ^ f.fb ≠ 0 then .fin (v.testBit (f.width - 1)) 0 0 else f.read v)) ∧
  (∀ f ∈ [fmtD, fmtS, fmtH, fmtB], ∀ neg w,
    (∀ rm ∈ [Rm.rne, .rmm, .sr w], f.overflow rm neg = f.inf neg) ∧ f.overflow .rtz neg = f.largest neg ∧
    f.overflow .rdn neg = (if neg then f.inf true else f.largest false) ∧ f.overflow .rup neg = if neg then f.largest true else f.inf false) ∧
  (∀ neg w, (∀ rm ∈ [Rm.rne, .rtz, .rmm, .sr w], fmtE5.overflow rm neg = fmtE5.largest neg) ∧
    fmtE5.overflow .rdn neg = (if neg then fmtE5.inf true else fmtE5.largest false) ∧
    fmtE5.overflow .rup neg = (if neg then fmtE5.largest true else fmtE5.inf false) ∧
    ∀ rm ∈ [Rm.rne, .rtz, .rdn, .rup, .rmm, .sr w], fmtE4.overflow rm neg = fmtE4.largest neg) ∧
  (∀ f ∈ [fmtD, fmtS, fmtH, fmtB], ∀ (rm : Rm) (fo : Bool) (d a b : Fp),
    let nanOf (l : List Fp) : Nat × Flags := (f.nan, if l.any Fp.isSnan then fNV else 0)
    (a.isNan = true ∨ b.isNan = true → f.add rm fo a b = nanOf [a, b] ∧ f.mul rm fo a b = nanOf [a, b]) ∧
    (a.isNan = false → b.isNan = false →
      SumsTo f rm fo true [a, b] (f.add rm fo a b) ∧
      (a.mul b = none → f.mul rm fo a b = (f.nan, fNV) ∧ f.fma rm fo d a b = (f.nan, fNV)) ∧
      (∀ neg, a.mul b = some (.inf neg) → f.mul rm fo a b = (f.inf neg, 0)) ∧
      (∀ neg m e, a.mul b = some (.fin neg m e) → m = 0 → f.mul rm fo a b = (f.signBit neg, 0)) ∧
      (∀ neg m e, a.mul b = some (.fin neg m e) → m ≠ 0 → RoundsTo f rm fo neg m e (f.mul rm fo a b)) ∧
      (∀ p, a.mul b = some p → d.isNan = false → SumsTo f rm fo true [d, p] (f.fma rm fo d a b))) ∧
    (a.isNan = true ∨ b.isNan = true ∨ (d.isNan = true ∧ a.mul b ≠ none) → f.fma rm fo d a b = nanOf [d, a, b])) ∧
  (∀ m n e g (s t : Bool), Fp.mul (.fin s m e) (.fin t n g) = some (.fin (s != t) (m * n) (e + g)) ∧
    Fp.mul (.inf s) (.inf t) = some (.inf (s != t)) ∧ (m = 0 → Fp.mul (.fin s m e) (.inf t) = none ∧ Fp.mul (.inf t) (.fin s m e) = none) ∧
    (m ≠ 0 → Fp.mul (.fin s m e) (.inf t) = some (.inf (s != t)) ∧ Fp.mul (.inf t) (.fin s m e) = some (.inf (s != t)))) ∧
  [fmtD, fmtS, fmtH, fmtB, fmtE4, fmtE5].map Fmt.nan = [0x7FF8000000000000, 0x7FC00000, 0x7E00, 0x7FC0, 0x7F, 0x7E]) ∧
  (∀ (d a b : BitVec 5) (mk frm : BitVec 3) (alt dt ca cb : BitVec 1) (s : State),
    let c := s.cur.vcfg
    let act := s.cur.vec.active c mk.toNat
    let pr := s.anyPV [(a, c.g), (b, 1)] [mk.toNat]
    (let src := cvtFrom frm
     let dst := cvtTo c.sew (alt == 1)
     let n := max 1 (c.g * src.width / c.sew)
     src ≠ dst → ¬(src.isInt = true ∧ dst.isInt = true) → c.sew ≤ 4 * src.width → src.width ≤ 4 * c.sew → c.g * src.width ≤ 8 * c.sew →
     (src.width ≠ c.sew → Apart (d, c.g) [(a, n)]) → VecReady s [] [(d, c.g), (a, n)] →
     let mode (i : Nat) : Rm := rmOf c.rnd c.seed c.draw (c.vsb + BitVec.ofNat 64 i)
     let r (i : Nat) := convertOne src dst (mode i) c.flushIn c.flushOut (s.cur.vec.elem c.p a.toNat src.width i)
     (∀ i, let v := s.cur.vec.elem c.p a.toNat src.width i
      (∀ x y, src = .fp x → dst = .fp y → x ∈ formats ∧ y ∈ formats ∧
        ConvertsTo y (mode i) (c.flushOut && !vcvtExact src dst) (x.readIn c.flushIn v) (r i)) ∧
      (∀ n y, src = .int n → dst = .fp y → let z : Int := if v < 2 ^ (n - 1) then v else v - 2 ^ n
        ConvertsTo y (mode i) c.flushOut (.fin (decide (z < 0)) z.natAbs 0) (r i)) ∧
      (∀ x n, src = .fp x → dst = .int n → IntegerOf (mode i) n (x.readIn c.flushIn v) (r i))) ∧
     Completes (.vfcvt d a alt frm mk dt ca) s (Drawn (!vcvtExact src dst) s
       (VecWrote s (groupRegsAfter s d c.sew c.g act (fun i => (r i).1) (s.anyPV [(a, n)] [mk.toNat])) (flagsBelow c.vl act fun i => (r i).2)))) ∧
    (∀ f, formatAt false c.sew = some f → VecReadyAt s [] [(d, c.g), (a, c.g)] → s.cur.asyncTrap = none →
      let again := c.vstart ≠ 0
      let c' := { c with draw := if again then c.draw - 1 else c.draw }
      let r : Nat × Flags := (List.range (c.vl - c.vstart)).foldl (fun acc k =>
        let i := c.vstart + k
        if act i then
          let q := f.add (rmOf c.rnd c.seed c'.draw (c.vsb + BitVec.ofNat 64 i)) c.flushOut (f.readIn c.flushIn acc.1) (f.readIn c.flushIn (s.vE a i))
          (q.1, acc.2 ||| q.2)
        else acc) (if again then s.vE d 0 else s.vE b 0, 0)
      Completes (.vfredo d a b mk dt ca cb) s (Drawn (decide (c.vstart = 0)) s (VecWroteAtEnd s (elemRegsAfter s d (some r.1)
        (if again then s.anyPV [(a, c.g), (d, 1)] [mk.toNat] else pr)) r.2))) ∧
    (∀ f, formatAt false c.sew = some f → VecReady s [] [(d, c.g), (a, c.g)] →
      (let add (i u v : Nat) : Nat × Flags := f.add (rmOf c.rnd c.seed c.draw (c.vsb + BitVec.ofNat 64 i)) c.flushOut (f.readIn c.flushIn u) (f.readIn c.flushIn v)
       let t := s.treeSum f c act a 20 0 c.vl
       (c.vl = 0 → t = (none, 0)) ∧
       (1 ≤ c.vl → c.vl ≤ 65536 → TreeAdds (fun i => if act i then some (s.vE a i) else none) add 0 c.vl t) ∧
       let r : Nat × Flags := match t.1 with
        | none => (s.vE b 0, 0)
        | some v => let q := add 0 (s.vE b 0) v; (q.1, t.2 ||| q.2)
       Completes (.vfredSum d a b mk dt ca cb) s (Drawn true s (VecWroteAtEnd s (elemRegsAfter s d (some r.1) pr) r.2))) ∧
      (let r (up : Bool) : Nat × Flags := (List.range c.vl).foldl (fun acc i =>
         if act i then let q := f.minmax up c.flushIn acc.1 (s.vE a i); (q.1, acc.2 ||| q.2) else acc) (s.vE b 0, 0)
       Completes (.vfredMin d a b mk dt ca cb) s (VecWroteAtEnd s (elemRegsAfter s d (some (r false).1) pr) (r false).2) ∧
       Completes (.vfredMax d a b mk dt ca cb) s (VecWroteAtEnd s (elemRegsAfter s d (some (r true).1) pr) (r true).2))) ∧
    (let ga := max 1 (c.g / 2)
     let gw := max 1 (c.g / 4)
     c.sew = 32 → c.g ≤ 4 → b.toNat + gw ≤ 31 → Apart (d, c.g) [(a, ga), (b, gw + 1)] → VecReady s [] [(d, c.g), (a, ga), (b, gw)] →
     let e (r : Nat) (w i : Nat) : Nat := s.cur.vec.elem c.p r w i
     let r (i : Nat) : Nat × Flags :=
       let scale := e (b.toNat + gw) 8 (i / 32)
       if scale = 255 then fmtS.nanOut true
       else fmtS.fma (c.rm i) c.flushOut (fmtS.readIn c.flushIn (s.vE d i)) (fmtB.readIn c.flushIn (e a.toNat 16 i))
         (weightOf (e b.toNat 8 i) scale)
     Completes (.vfpot d a b mk dt ca cb) s (Drawn true s (VecWrote s
       (groupRegsAfter s d 32 c.g act (fun i => (r i).1) (s.anyPV [(d, c.g), (a, ga), (b, gw + 1)] [mk.toNat]))
       (flagsBelow c.vl act fun i => (r i).2)))))

/-- R60: the entry that an instruction captures is that of the table, or of a table that an `mtld` in flight installs. R58, R60,
R305 to R307: modular arithmetic and butterflies; an invalid entry or one wider than the elements traps ILLEGAL. R59, R198, R311:
`mtld` installs 64 entries of 64 bytes when it completes; a bad entry traps ILLEGAL with its number; an entry with a poisoned word
is invalid. -/
def Obligations.ModularArithmetic : Prop :=
  (∀ s : State,
    (∃ t, (t = s.cur.ct.mtab ∨ ∃ o ∈ s.opsOf s.cur, ∃ f x w ov om wt sm, o.kind = .vector f x w ov om (some t) wt sm) ∧
      s.captured = modEntry (t.getD s.cur.vcfg.q 0)) ∧
    ((∀ o ∈ s.opsOf s.cur, ∀ f x w ov om t wt sm, o.kind ≠ .vector f x w ov om (some t) wt sm) →
      s.captured = modEntry (s.cur.ct.mtab.getD s.cur.vcfg.q 0))) ∧
  (∀ (d a b : BitVec 5) (mk : BitVec 3) (dt ca cb : BitVec 1) (s : State),
    let c := s.cur.vcfg
    let act := s.cur.vec.active c mk.toNat
    let illegal : Trap := { code := 0x01, detail := s.cur.ir.setWidth 64 }
    (∀ m, s.captured = some m → m.a ≤ c.sew →
      (∀ e ∈ modTable,
        let pd : List (BitVec 5 × Nat) := if e.useD then [(d, c.g)] else []
        let wrote (val : Nat → Nat) (p : Bool) : State → Prop :=
          VecWrote s (groupRegsAfter s d c.sew c.g act (fun i => e.f m.q (s.vE d i) (s.vE a i) (val i)) p) 0
        (VecReady s [] [(d, c.g), (a, c.g), (b, c.g)] → Completes (e.vv d a b mk dt ca cb) s
          (wrote (s.vE b) (s.anyPV ((a, c.g) :: (b, c.g) :: pd) [mk.toNat]))) ∧
        (VecReady s [b] [(d, c.g), (a, c.g)] → Completes (e.vx d a b mk dt ca) s
          (wrote (fun _ => scalarOperand s b) (s.cur.px b || s.anyPV ((a, c.g) :: pd) [mk.toNat])))) ∧
      (c.g = 1 → d.getLsbD 0 = false → a.getLsbD 0 = false → VecReady s [] [] →
        let n := 2048 * c.p / c.sew
        let both (f g : Int → Int → Int → Int) : State → Prop :=
          let at' (f : Int → Int → Int → Int) (i : Nat) : Nat := (f (s.vE a i) (s.vE (a + 1) i) (s.vE b i) % (m.q : Int)).toNat
          let p := s.anyPV [(a, 2), (b, 1)] [mk.toNat]
          VecWrote s ((((s.cur.vec.writeGroup c d.toNat c.sew n act (at' f)).writeGroup c (d.toNat + 1) c.sew n act (at' g)).settleV c act
            d.toNat 1 c.sew p).settleV c act (d.toNat + 1) 1 c.sew p) 0
        Completes (.vbfly d a b mk dt ca cb) s (both (fun x y w => x + w * y) fun x y w => x - w * y) ∧
        Completes (.vibfly d a b mk dt ca cb) s (both (fun x y _ => x + y) fun x y w => (x - y) * w))) ∧
    (VecReady s [] [] → (∀ m, s.captured = some m → c.sew < m.a) →
      (∀ e ∈ modTable, d.toNat % c.g = 0 → a.toNat % c.g = 0 → b.toNat % c.g = 0 →
        exec (e.vv d a b mk dt ca cb) s = .next (s.takeTrap illegal))) ∧
    (VecReady s [] [] → c.g ≠ 1 ∨ d.getLsbD 0 = true ∨ a.getLsbD 0 = true →
      exec (.vbfly d a b mk dt ca cb) s = .next (s.takeTrap illegal) ∧ exec (.vibfly d a b mk dt ca cb) s = .next (s.takeTrap illegal))) ∧
  (∀ (a : BitVec 5) (h : BitVec 4) (s : State) (els : List VElem),
    let addr := s.cur.x a
    let u := movingAt ((s.touchAll els).beforeVector true)
    let raw (i : Nat) : Option (BitVec 512 × Bool) := (els[i]?).map fun e =>
      (BitVec.ofNat 512 (ofBytes (u.readAt u.cur.world e.t 64).1), (u.readAt u.cur.world e.t 64).2)
    let entry (i : Nat) : BitVec 512 := match raw i with | some (v, false) => v | _ => 0
    let bad (i : Nat) : Prop := (entry i).getLsbD 511 = true ∧ modEntryOk (entry i) = false
    (VecReady s [a] [] → Local s els → u.cur.hold = none → u.viqLength < 32 → addr.toNat % 64 = 0 →
      Places s 64 .load (fun i => addr + BitVec.ofNat 64 (64 * i)) (List.range 64) els →
      ((∀ i < 64, ¬bad i) → Completes (.mtld a h) s fun t => ∃ (t0 : State) (tab : Vector (BitVec 512) 64),
        (∀ i (hi : i < 64), tab[i] = entry i) ∧ VecDone u h { (effectOf u.cur.vec 0) with mtab := some tab } t0 ∧
        t = t0.countPoison s.cur ((els.filter fun e => (u.readAt u.cur.world e.t 64).2).length + (s.cur.px a).toNat)) ∧
      (∀ i < 64, bad i → (∀ j < i, ¬bad j) →
        exec (.mtld a h) s = .next (s.takeTrap { code := 0x01, detail := BitVec.ofNat 64 i }))) ∧
    (VecReady s [a] [] → addr.toNat % 64 ≠ 0 → exec (.mtld a h) s = .next (s.takeTrap { code := 0x03, detail := addr })))

/-- R61, R62, R308 to R310, R336: transform stages, automorphisms, gadget digits and spatial keys. -/
def Obligations.ModularTransforms : Prop :=
  ∀ (d a b : BitVec 5) (mk : BitVec 3) (dt ca : BitVec 1) (s : State),
    let c := s.cur.vcfg
    let w := s.cur.x b
    let field (lo n : Nat) : Nat := w.toNat / 2 ^ lo % 2 ^ n
    let src (k i : Nat) : Nat := s.ahead a ca c.sew k i
    let p := s.cur.px b || s.anyPV [(a, c.g)] []
    let wrote (act : Nat → Bool) (res : Nat → Nat) (p : Bool) : State → Prop := VecWrote s (groupRegsAfter s d c.sew c.g act res p) 0
    (∀ m, s.captured = some m → m.a ≤ c.sew → VecReady s [b] [(d, c.g), (a, c.g)] →
      (let l := field 8 5
       let st := field 0 5
       let n := 2 ^ l
       let t := n / 2 ^ (st + 1)
       let root (psi : Nat) : Nat := psi ^ (2 ^ (m.lgn - l)) % m.q
       let mth (j : Nat) : Nat := j / (2 * t)
       let x (i : Nat) : Nat := src (i / n * n + 2 * mth (i % n) * t + i % n % (2 * t) % t) i
       let y (i : Nat) : Nat := src (i / n * n + 2 * mth (i % n) * t + i % n % (2 * t) % t + t) i
       let tw (psi i : Nat) : Nat := root psi ^ bitReverse l (2 ^ st + mth (i % n)) % m.q
       Apart (d, c.g) [(a, c.g)] → field 13 51 = 0 → field 5 3 = 0 → st < l → l ≤ m.lgn → c.vl % n = 0 → 0 < m.q →
       Completes (.vntt d a b ca) s (wrote (s.cur.vec.active c 0) (fun i =>
         ((if i % n % (2 * t) < t then (x i : Int) + tw m.psi i * y i else (x i : Int) - tw m.psi i * y i) % (m.q : Int)).toNat) p) ∧
       Completes (.vintt d a b ca) s (wrote (s.cur.vec.active c 0) (fun i =>
         let r : Int := if i % n % (2 * t) < t then (x i : Int) + y i else ((x i : Int) - y i) * tw m.psiinv i
         ((if st = 0 then r * m.ninv * 2 ^ (m.lgn - l) else r) % (m.q : Int)).toNat) p)) ∧
      (let g := field 0 32
       let n := 2 ^ field 32 5
       Apart (d, c.g) [(a, c.g)] → field 37 27 = 0 → 1 ≤ field 32 5 → g % 2 = 1 → g < 2 * n → c.vl % n = 0 → 0 < m.q →
       ∃ res : Nat → Nat, Completes (.vauto d a b ca) s (wrote (s.cur.vec.active c 0) res p) ∧
         ∀ k j, j < n → let dst := j * g % (2 * n)
           res (k * n + dst % n) = (if dst < n then src (k * n + j) (k * n + dst % n) % m.q
             else ((-(src (k * n + j) (k * n + dst % n) : Int)) % (m.q : Int)).toNat)) ∧
      (let j := field 12 4
       let ell := field 8 4
       let beta := field 0 6
       field 16 48 = 0 → field 6 2 = 0 → 1 ≤ j → j ≤ ell → 1 ≤ beta → beta * ell ≤ 64 → 0 < m.q →
       ∃ dig : Nat → Nat → Int,
         (∀ x, (∀ k, 1 ≤ k → k ≤ ell → -(2 ^ beta / 2) ≤ dig x k ∧ dig x k < 2 ^ beta / 2) ∧
           ((List.range ell).foldl (fun (acc : Int) k => acc * 2 ^ beta + dig x (k + 1)) 0) % (2 ^ (beta * ell) : Nat) =
             (x * 2 ^ (beta * ell) + m.q / 2) / m.q % 2 ^ (beta * ell)) ∧
         Completes (.vdigit d a b mk dt ca) s (wrote (s.cur.vec.active c mk.toNat)
           (fun i => (dig (s.vE a i % m.q) j % (m.q : Int)).toNat) (s.cur.px b || s.anyPV [(a, c.g)] [mk.toNat])))) ∧
    (let n := field 2 5
     let dim := if w.getLsbD 1 then 3 else 2
     c.sew = 64 → field 7 57 = 0 → 1 ≤ n → n ≤ 21 → VecReady s [b] [(d, c.g), (a, c.g)] →
     ∃ key : Nat → Nat, Completes (.rpkey d a b) s (wrote (s.cur.vec.active c 0) key p) ∧
       ∀ i, let x : List Nat := (List.range dim).map fun k => s.vE a i / 2 ^ (21 * k) % 2 ^ n
         let y := if w.getLsbD 0 then hilbert n dim x else x
         key i < 2 ^ (dim * n) ∧ ∀ k j, k < dim → j < n → (key i).testBit (dim * j + (dim - 1 - k)) = (y.getD k 0).testBit j)

/-- R198, R212, R278, R283 to R285: vector loads from this device. Every active element takes its value; where one fails, the lowest
stops the instruction and only the elements below it are done. R176, R198, R211, R284, R285: vector stores to this device. The
writes of every active element are in flight; the lowest that fails, by its alignment, its translation or an element-mode unit that
is already written, stops the instruction. A written word is poisoned where the register that held it is. The store bit of a
misaligned store and of KEYSTREAM is log 30, one use for several poisoned sources log 17. R287: masks as bytes in memory; m0 reads
ones and takes nothing; a vstart that names no byte traps ILLEGAL. -/
def Obligations.VectorMemory : Prop :=
  (∀ (d a b : BitVec 5) (mk : BitVec 3) (dt ch : BitVec 1) (h : BitVec 4) (s : State), ∀ e ∈ vmemTable s d a b mk dt ch h, ∀ els,
    let c := s.cur.vcfg
    let n := c.sew / 8
    let u := movingAt ((s.touchAll els).beforeVector true)
    let p := gotPoison u n els
    VecReadyAt s e.xs ((d, c.g) :: e.index) → Apart (d, c.g) e.index → Local s els → Settled u →
    (Places s n .load e.addr (actives s mk) els → Completes e.ld s (Once (e.xs.any s.cur.px || s.anyPV e.index []) s
      (VecDone u h (effectOf (groupRegsAfter u d u.cur.vcfg.sew u.cur.vcfg.g (u.cur.vec.active u.cur.vcfg mk.toNat) (gotAt u n els) p) 0)))) ∧
    (∀ k tr, FailsAt s n .load e.addr (actives s mk) els k tr → Completes e.ld s (StoppedAt u k tr
      (let c' := { u.cur.vcfg with vl := min k u.cur.vcfg.vl, tz := false }
       let act := u.cur.vec.active c' mk.toNat
       (u.cur.vec.writeGroup c' d.toNat c'.sew (c'.g * (2048 * c'.p / c'.sew)) act (gotAt u n els)).settleV c' act d.toNat c'.g c'.sew p)
      []))) ∧
  (∀ (d a b : BitVec 5) (mk : BitVec 3) (dt ch : BitVec 1) (h : BitVec 4) (s : State), ∀ e ∈ vmemTable s d a b mk dt ch h, ∀ els,
    let c := s.cur.vcfg
    let n := c.sew / 8
    let data (i : Nat) : List Byte := toBytes n (s.vE d i)
    let s1 := s.touchAll els
    let at' (l : List VElem) : State := movingAt ((s1.beforeVector false).claimAll n none l).1
    let poison : Nat → Bool := holderPoison s d
    VecReadyAt s e.xs ((d, c.g) :: e.index) → Local s els →
    ((s1.claimAll n none els).2.2 = none → Settled (at' els) → Places s n .store e.addr (actives s mk) els →
      Completes e.st s (Once (e.xs.any s.cur.px || s.anyPV e.index []) s
        (VecDone (at' els) h { (effectOf (at' els).cur.vec 0) with writes := elemWrites els data poison }))) ∧
    (∀ k tr, (s1.claimAll n none els).2.2 = none → Settled (at' els) → FailsAt s n .store e.addr (actives s mk) els k tr →
      Completes e.st s (StoppedAt (at' els) k tr (at' els).cur.vec (elemWrites els data poison))) ∧
    (∀ pre x post v i, els = pre ++ x :: post → s1.claimAll n none pre = (v, pre, none) → claimTarget v x.t n = .error i →
      Settled (at' pre) → Places s n .store e.addr (actives s mk) els →
      Completes e.st s (StoppedAt (at' pre) x.idx { code := 0x09, store := true, detail := x.va + BitVec.ofNat 64 i } (at' pre).cur.vec
        (elemWrites pre data poison)))) ∧
  (∀ (d a : BitVec 5) (h : BitVec 4) (s : State), d.toNat < 8 →
    let c := s.cur.vcfg
    let addr (j : Nat) : Word := s.cur.x a + BitVec.ofNat 64 j
    (VecReadyAt s [a] [] → c.vstart % 8 = 0 → ∀ els, Local s els →
      (let u := movingAt ((s.touchAll els).beforeVector true)
       Settled u → Places s 1 .load addr (maskBytes s) els → Completes (.mld d a h) s (Counting s [a] (VecDone u h (effectOf
         (maskRegsAfter u d (u.cur.vec.active u.cur.vcfg 0) (fun i => (gotAt u 1 els (i / 8)).testBit (i % 8)) (gotPoison u 1 els)) 0)))) ∧
      (let s1 := s.touchAll els
       let u := movingAt ((s1.beforeVector false).claimAll 1 none els).1
       let data (j : Nat) : List Byte := [BitVec.ofNat 8 ((List.range 8).foldl (fun acc k =>
         if 8 * j + k < c.vl ∧ s.cur.vec.mask d.toNat (8 * j + k) = true then acc + 2 ^ k else acc) 0)]
       (s1.claimAll 1 none els).2.2 = none → Settled u → Places s 1 .store addr (maskBytes s) els →
       Completes (.mst d a h) s (Counting s [a] (VecDone u h
         { (effectOf u.cur.vec 0) with writes := elemWrites els data fun _ => s.anyPV [] [d.toNat] })))) ∧
    (VecReadyAt s [a] [] → c.vstart % 8 ≠ 0 →
      let illegal : Trap := { code := 0x01, detail := s.cur.ir.setWidth 64 }
      exec (.mld d a h) s = .next (s.takeTrap illegal) ∧ exec (.mst d a h) s = .next (s.takeTrap illegal)) ∧
    (∀ i, s.cur.vec.mask 0 i = true) ∧ ∀ v, s.cur.vec.setMask 0 v = s.cur.vec)

/-- R85, R198, R231, R248, R286: `vamo` on this device: each element within the scope is a read-modify-write in rising order and
takes the old value, with its bit of m7 clear; one outside the scope does nothing but set its bit; one whose units may not be
claimed stops the instruction with nothing done at or above it. The store bit of that KEYSTREAM is log 30, one use for several
poisoned sources log 17; readers in flight keep the old values until the end (log 38). -/
def Obligations.VectorAtomics : Prop :=
  ∀ (d a b : BitVec 5) (code : BitVec 6) (h : BitVec 4) (s : State),
    let c := s.cur.vcfg
    let op := [AmoOp.add, .and, .or, .xor, .min, .max, .minu, .maxu, .swap].getD (code.toNat / 6) .add
    let sc := code.toNat % 6
    let arg (i : Nat) : Word := BitVec.ofNat 64 (s.vE d i)
    (∀ els s2 res q, VecReadyAt s [a] [(d, c.g), (b, c.g)] → c.sew = 64 → Apart (d, c.g) [(b, c.g)] → Local s els →
      Places s 8 .atomic (fun i => s.cur.x a + BitVec.ofNat 64 (s.vE b i)) (actives s 0) els →
      let v := (s.touchAll els).beforeVector true
      v.amoElems op sc arg (holderPoison v d) els = .done s2 res q none →
      let u := movingAt s2
      Settled u →
      let old (i : Nat) : Option (Option Word) := (res.find? fun q => q.1 == i).map (·.2)
      let act := u.cur.vec.active u.cur.vcfg 0
      ∃ m7 : BitVec 65536, (∀ i, i < 65536 → m7.getLsbD i = match old i with
          | some o => o.isNone
          | none => (u.cur.vec.m.getD 7 0).getLsbD i) ∧
        Completes (.vamo d a b code h) s (Once (s.cur.px a || s.anyPV [(b, c.g)] []) s (VecDone u h (effectOf
          (let g := u.cur.vcfg.g
           let w := (u.cur.vec.writeGroup u.cur.vcfg d.toNat 64 (g * (2048 * u.cur.vcfg.p / 64)) act fun i =>
             match old i with | some (some o) => o.toNat | _ => u.vE d i).settleV u.cur.vcfg
               (fun i => act i && match old i with | some (some _) => true | _ => false) d.toNat g 64 q
           { w with m := w.m.setIfInBounds 7 m7 }) 0)))) ∧
    (∀ (u : State) (p : Nat → Bool) (e : VElem) (l : List VElem) (s2 : State) (res : List (Nat × Option Word)) (q : Bool) (x : Stop),
      e.t.isFar = false → (∀ y ∈ l, y.t.isFar = false) →
      (u.inScope sc e.t = false → u.amoElems op sc arg p l = .done s2 res q x →
        u.amoElems op sc arg p (e :: l) = .done s2 ((e.idx, none) :: res) q x) ∧
      (u.inScope sc e.t = true → u.answer u.cur u.device (.amo e.t.key e.idx) = none →
        (∀ v, claimTarget u e.t 8 = .ok v →
          let y := v.performAtomic v.cur (some op) e.t (arg e.idx) 0 (p e.idx)
          y.1.amoElems op sc arg p l = .done s2 res q x →
          u.amoElems op sc arg p (e :: l) = .done s2 ((e.idx, some y.2.1) :: res) (y.2.2 || q) x) ∧
        (∀ i, claimTarget u e.t 8 = .error i → u.amoElems op sc arg p (e :: l) =
          .done u [] false (some (e.idx, { code := 0x09, store := true, detail := e.va + BitVec.ofNat 64 i }))))) ∧
    (VecReadyAt s [a] [] → c.sew ≠ 64 →
      exec (.vamo d a b code h) s = .next (s.takeTrap { code := 0x01, detail := s.cur.ir.setWidth 64 }))

/-- R45, R56, R57, R314 to R317, R319, R321: the tile array. The exact sum of a cell is rounded once; infinities that meet beside a
quiet NaN raise no NV (log 69), the sign of a zero sum of one product is that of IEEE 754 (log 28). `tmvr` counts as written at its
end. R198, R316, R318, R321, R403: accumulators in memory: 32 rows of 32 cells; a fault leaves everything unchanged, and one of X[B]
names row 1. The store bit of a misaligned `tst` is log 30, one use for two poisoned address registers log 17. -/
def Obligations.Tiles : Prop :=
  (∀ (d a b : BitVec 5) (s : State),
    let c := s.cur.vcfg
    let r := s.cur.vec
    let illegal : Trap := { code := 0x01, detail := s.cur.ir.setWidth 64 }
    let k := c.vl / 32
    let gw := max 1 (c.g / 2)
    let gb := if c.tmode = 8 then gw else c.g
    let used (w : Nat) : Nat := (32 * k * w + 2048 * c.p - 1) / (2048 * c.p)
    let srcs : List (BitVec 5 × Nat) :=
      (a, used c.sew) :: if c.tmode = 8 then [(b, used 8), (b + BitVec.ofNat 5 gw, 1)] else [(b, used c.sew)]
    let need := if c.tmode ≤ 6 then 8 else if c.tmode ≤ 8 then 16 else 64
    let e (v w i : Nat) : Nat := r.elem c.p v w i
    let written (f : Nat → Nat) : VecRegs := (r.zWrite c d f).zMark c d (r.zPoison c d || s.anyPV srcs [])
    (VecReady s [] [] → s.cur.tileOwner = true →
      Completes (.tzero d) s (VecWrote s ((r.setCells d.toNat fun _ => 0).markZ d.toNat false) 0)) ∧
    (s.cur.tileOwner = false → exec (.tzero d) s = .next (s.takeTrap illegal) ∧ exec (.tmma d a b) s = .next (s.takeTrap illegal)) ∧
    (TileReady s [] [(a, c.g), (b, gb)] need d → (c.tmode = 8 → b.toNat + gw ≤ 31) → c.vl % 32 = 0 → 0 < c.vl → c.vl ≤ c.vlmax →
      (c.tmode ≤ 2 →
        let A (m j : Nat) : Int := if c.tmode = 1 then e a.toNat 8 (32 * j + m) else sextInt 8 (e a.toNat 8 (32 * j + m))
        let B (j n : Nat) : Int := if c.tmode = 0 then sextInt 8 (e b.toNat 8 (32 * j + n)) else e b.toNat 8 (32 * j + n)
        Completes (.tmma d a b) s (VecWrote s (written fun i =>
          (((r.cell d.toNat i : Int) + ((List.range k).map fun j => A (i / 32) j * B j (i % 32)).sum) % (2 ^ 32 : Nat)).toNat) 0)) ∧
      (3 ≤ c.tmode → c.tmode ≤ 9 →
        let fa := match c.tmode with | 3 => fmtE4 | 4 => fmtE4 | 5 => fmtE5 | 6 => fmtE5 | 9 => fmtD | _ => fmtB
        let fb := match c.tmode with | 3 => fmtE4 | 4 => fmtE5 | 5 => fmtE4 | 6 => fmtE5 | 9 => fmtD | _ => fmtB
        let acc := if c.tmode = 9 then fmtD else fmtS
        let A (m j : Nat) : Fp := fa.readIn c.flushIn (e a.toNat c.sew (32 * j + m))
        let B (j n : Nat) : Fp := if c.tmode = 8 then weightOf (e b.toNat 8 (32 * j + n)) (e (b.toNat + gw) 8 j)
          else fb.readIn c.flushIn (e b.toNat c.sew (32 * j + n))
        let bad := c.tmode == 8 && (List.range k).any fun j => e (b.toNat + gw) 8 j == 255
        let cut (x : Fp) : Fp := if c.tmode = 9 then sliced c.slices x else x
        ∃ cell : Nat → Nat × Flags,
        (∀ i < 1024, CellSums acc cut (rmOf c.rnd c.seed c.draw (BitVec.ofNat 64 i)) c.flushOut (c.tmode == 9 && c.slices == 7 && k == 1) bad
          (acc.readIn c.flushIn (r.zRead c d i)) ((List.range k).map fun j => (A (i / 32) j, B j (i % 32))) (cell i)) ∧
        (∀ n ∈ [3, 4, 5, 6, 7], ∀ neg m e, m < 2 ^ 53 → ∃ m', sliced n (.fin neg m e) = .fin neg m' e ∧
          8 * m' = 8 * m / 2 ^ (56 - 8 * n) * 2 ^ (56 - 8 * n)) ∧
        Completes (.tmma d a b) s (Drawn true s (VecWrote s (written fun i => (cell i).1) (flagsBelow 1024 (fun _ => true) fun i => (cell i).2))))) ∧
    (TileReady s [] [(a, c.g), (b, gb)] need d → (c.tmode = 8 → b.toNat + gw ≤ 31) → (c.vl % 32 ≠ 0 ∨ c.vl = 0 ∨ c.vlmax < c.vl) →
      exec (.tmma d a b) s = .next (s.takeTrap illegal)) ∧
    (let w := s.cur.x b
     let row := w.toNat % 32
     let c' := { c with vl := 32 }
     let r1 := (r.writeGroup c' d.toNat c.sew (c.g * (2048 * c.p / c.sew)) (fun _ => true) fun n => r.zRead c a (32 * row + n)).settleV c'
       (fun _ => true) d.toNat c.g c.sew (s.cur.px b || r.zPoison c a)
     TileReady s [b] [(d, c.g)] (if c.tmode = 9 then 64 else 32) a →
     (w.toNat < 64 → Completes (.tmvr d a b) s (VecWroteAtEnd s (if w.getLsbD 5 then
       (c.zs a).foldl (fun (x : VecRegs) z => x.setCells z fun i => if i / 32 = row then 0 else r.cell z i) r1 else r1) 0)) ∧
     (64 ≤ w.toNat → exec (.tmvr d a b) s = .next (s.takeTrap { code := 0x01, detail := w })))) ∧
  (∀ (d a b : BitVec 5) (h : BitVec 4) (s : State),
    let c := s.cur.vcfg
    let n := if c.tmode = 9 then 8 else 4
    TileReady s [a, b] [] (8 * n) d →
    (∀ els, Local s els → CellPlaces s .load a b els →
      let u := movingAt ((s.touchAll els).beforeVector true)
      Settled u → Completes (.tld d a b h) s (Counting s [a, b] (VecDone u h (effectOf
        ((u.cur.vec.zWrite c d (gotAt u n els)).zMark c d (gotPoison u n els)) 0)))) ∧
    (∀ els, Local s els → CellPlaces s .store a b els →
      let u := (s.touchAll els).beforeVector false
      Settled u → Completes (.tst d a b h) s (Counting s [a, b] (VecDone u h
        { (effectOf u.cur.vec 0) with writes := elemWrites els (fun i => toBytes n (s.cur.vec.zRead c d i)) fun _ => s.cur.vec.zPoison c d }))) ∧
    (Unsampled s → (s.cur.x a).toNat % n ≠ 0 ∨ (s.cur.x b).toNat % n ≠ 0 →
      let at' : Word := if (s.cur.x a).toNat % n ≠ 0 then s.cur.x a else s.cur.x a + s.cur.x b
      Completes (.tld d a b h) s (StoppedAt s 0 { code := 0x03, detail := at' } s.cur.vec []) ∧
      Completes (.tst d a b h) s (StoppedAt s 0 { code := 0x03, store := true, detail := at' } s.cur.vec [])) ∧
    ((s.cur.x a).toNat % n = 0 → (s.cur.x b).toNat % n = 0 → ∀ acc i, acc ∈ [Acc.load, .store] →
      (∀ j < i, ∃ t, translate s s.cur s.cur.level (s.cellAddr a b j) n acc false = .ok t) → i < 1024 → Unsampled s →
      ∀ tr, translate s s.cur s.cur.level (s.cellAddr a b i) n acc false = .error tr →
      Completes (if acc = .load then .tld d a b h else .tst d a b h) s (StoppedAt s 0 tr s.cur.vec [])))

/-! Engine channels. -/

/-- R12, R199, R322 to R324, R326: commands of the copy engine and of barriers are pushed; a fault that waits for its report goes
first; a full channel holds the hart; an address that is not aligned, a descriptor or a barrier word that breaks its rules traps.
That a pushed copy's ALIGN leaves the store bit 0 is log 30, one use for two poisoned address registers log 17. -/
def Obligations.EngineCommands : Prop :=
  ∀ (d a : BitVec 5) (sc : BitVec 3) (h : BitVec 4) (s : State),
    (let w := 2 ^ (s.cur.csr.vtype.extractLsb' 0 2).toNat
     let cmd : CopyCmd := .copy s.cur.csr.vl.toNat w (s.cur.x a) (s.cur.x d)
     Waited s [a, d] → s.cur.csr.vtype.getLsbD 31 = false →
     (Clear s .copy → (s.cur.x a).toNat % w = 0 → (s.cur.x d).toNat % w = 0 →
       (Room s .copy → Completes (.copy d a h) s (Counting s [a, d] fun t => Pushed s h (.copy cmd) t (s.cur.x d))) ∧
       (¬Room s .copy → exec (.copy d a h) s = .next (s.holdOn (.channel .copy)))) ∧
     (Clear s .copy → ∀ r, (r = a ∨ (r = d ∧ (s.cur.x a).toNat % w = 0)) → (s.cur.x r).toNat % w ≠ 0 →
       exec (.copy d a h) s = .next (s.takeTrap { code := 0x03, detail := s.cur.x r })) ∧
     (∀ f, s.cur.faults.find? (fun f => f.chan == .copy) = some f → exec (.copy d a h) s = .next (s.takeTrap f.trap))) ∧
    (let addr := s.cur.x a
     Waited s [a] → Clear s .copy → InSlice s addr 192 →
     let desc := (s.drainAll false).tcmBytes addr 192
     (addr.toNat % 64 = 0 → Room s .copy → ∀ cmd, parseCopyn desc = .ok cmd →
       Completes (.copyn a h) s (Counting s [a] fun t => Pushed s h (.copy cmd) t (dwordOf desc 8))) ∧
     (addr.toNat % 64 = 0 → ∀ n, parseCopyn desc = .error n →
       exec (.copyn a h) s = .next (s.takeTrap { code := 0x01, detail := BitVec.ofNat 64 n })) ∧
     (addr.toNat % 64 ≠ 0 → exec (.copyn a h) s = .next (s.takeTrap { code := 0x03, detail := addr }))) ∧
    (let w := s.cur.x a
     let coord := w.toNat / 2 ^ 32 % 512
     let good := w.toNat < 2 ^ 41 ∧ w.toNat / 2 ^ 16 % 2 ^ 16 ≠ 0 ∧ if sc = 5 then s.members.contains coord = true else coord = 0
     Waited s [a] → Clear s .bar →
     (good → SysClear s sc → Room s .bar → Completes (.bar a sc h) s fun t => ∃ v, Pushed s h (.bar w sc false false) v 0 (sc == 5) ∧
       t = v.barProgress) ∧
     (¬good → exec (.bar a sc h) s = .next (s.takeTrap { code := 0x01, detail := w })))

/-- R172, R323, R324: the order and the addresses of a copy command's elements, what one element moves (element-mode data goes to
the TCM or the scratchpad as ciphertext, log 97), and the check of a `copyn` descriptor. R12, R199, R323 to R325: what the head
command of a copy channel comes to, once it has its turn: it waits for what lies elsewhere; its data has moved, and it pushes its
result, posts and leaves, or waits for acknowledgements and for room; one that faults is held for report as ENGINE with the element,
and the channel's later commands are cancelled. -/
def Obligations.CopyCommands : Prop :=
  ((∀ n w (src dst : Word),
    let at' (i : Nat) : Nat × Word × Word := (i, src + BitVec.ofNat 64 (i * w), dst + BitVec.ofNat 64 (i * w))
    let apart := dst ≤ src ∨ src.toNat + n * w ≤ dst.toNat
    (CopyCmd.copy n w src dst).elems = (w, if apart then (List.range n).map at' else (List.range n).reverse.map at')) ∧
  (∀ src dst w res n0 (s0 d0 : Word) n1 (s1 d1 : Word), 0 < n0 → 0 < n1 →
    (CopyCmd.copyn src dst w [(n0, s0, d0), (n1, s1, d1)] res).elems = (w, (List.range (n0 * n1)).map fun p =>
      (p, src + (s0 * BitVec.ofNat 64 (p % n0) + s1 * BitVec.ofNat 64 (p / n0)), dst + (d0 * BitVec.ofNat 64 (p % n0) + d1 * BitVec.ofNat 64 (p / n0))))) ∧
  (∀ (s : State) (h : Hart) (l : Level) (w k : Nat) (r : CopyRun) (a b : Word) (src dst : Target) (v : State),
    translate s h l a w .load true = .ok src → src.isFar = false → translate s h l b w .store true = .ok dst → dst.isFar = false →
    claimTarget s dst w = .ok v →
    let now := if src.enc = 2 ∧ (dst.home = .tcm ∨ dst.home = .spad) then s.readCipher h.world src w else s.readAt h.world src w
    ∃ bs p, s.copyElem h l w r (k, a, b) = .ok (v.performStore h { target := dst, data := bs, poison := p }, []) ∧
      bs.length = now.1.length ∧
      (∀ j < now.1.length, bs[j]? = now.1[j]? ∨ ∃ e ∈ r.prior, e.1 = src.key + j ∧ bs[j]? = some e.2.1) ∧
      (0 < w → (∀ e ∈ r.prior, e.1 < src.key ∨ src.key + max w now.1.length ≤ e.1) → (bs, p) = now)) ∧
  (∀ (s : State) (v : BitVec 6) (t : Target) (n : Nat), t.erased s v = false → s.mem.anyPoison t.key n = false →
    s.readCipher v t n = ((List.range n).map fun i => if s.mem.unitWritten (t.key + i) then s.mem.read (t.key + i) else 0, false)) ∧
  (∀ bs cmd, parseCopyn bs = .ok cmd → bs.length = 192 → ∃ src dst w dims res, cmd = .copyn src dst w dims res ∧ w ∈ [1, 2, 4, 8] ∧
    1 ≤ dims.length ∧ dims.length ≤ 6 ∧ src.toNat % w = 0 ∧ dst.toNat % w = 0 ∧
    (∀ d ∈ dims, 1 ≤ d.1 ∧ d.2.1.toNat % w = 0 ∧ d.2.2.toNat % w = 0) ∧ (dims.map (·.1)).foldl (· * ·) 1 ≤ 2 ^ 40)) ∧
  (∀ (s : State) (o : Op), s.opById o.id = some o → s.isHead o = true →
    let ended (u : State) (res : Option Word) (h : Hart) (t : State) : Prop :=
      (res = none → t = u.finish o) ∧
      (∀ v, res = some v → h.cpFifo.length < 32 →
        t = (u.modHart o.core o.ctx fun h => { h with cpFifo := h.cpFifo ++ [(v, false)] }).finish o)
    (∀ cmd r, o.kind = .copy cmd r →
      (r.started = false → s.itsTurn .copy o = false →
        ∃ e, exec (.copyComplete o.id) s = .fault (.notEnabled e)) ∧
      (r.started = true ∨ s.itsTurn .copy o = true →
        let v := if r.started then s else s.served .copy o
        (s.copyFaults o = false →
          (∀ u r', v.runCopy o cmd r = (u, r', .moved) → ∀ h, u.hartAt o.core o.ctx = some h →
            (r'.waits = [] → (cmd.result = none ∨ h.cpFifo.length < 32) → Completes (.copyComplete o.id) s (ended u cmd.result h)) ∧
            (r'.waits ≠ [] ∨ (cmd.result ≠ none ∧ 32 ≤ h.cpFifo.length) →
              Completes (.copyComplete o.id) s fun t => t = u.setKind o.id (.copied r'.waits cmd.result))) ∧
          (∀ u r', v.runCopy o cmd r = (u, r', .waits) → r' ≠ r →
            Completes (.copyComplete o.id) s fun t => t = u.setKind o.id (.copy cmd r'))) ∧
        (s.copyFaults o = true → ∀ u r' k tr, v.runCopy o cmd r = (u, r', .fault k tr) →
          (Completes (.engineFault o.id) s fun t =>
            (∀ q, q ∈ t.ops ↔ q ∈ u.ops ∧ ¬(q.core = o.core ∧ q.ctx = o.ctx ∧ q.kind.chan = some .copy ∧ o.id ≤ q.id)) ∧
            t = { u with ops := t.ops, cur := t.cur, others := t.others, worlds := (u.countFault o tr).worlds } ∧
            ∀ h, u.hartAt o.core o.ctx = some h → t.hartAt o.core o.ctx = some { h with faults := h.faults ++
              [{ chan := .copy, lvl := o.lvl, hook := o.hook,
                 trap := { tr with code := 0x0B, cause := tr.code, store := tr.store || cmd.storeBit, idx := BitVec.ofNat 40 k,
                                   viol := false } }] }) ∧
          ∃ e, exec (.copyComplete o.id) s = .fault (.notEnabled e)))) ∧
    (∀ res h, o.kind = .copied [] res → s.hartAt o.core o.ctx = some h → (res = none ∨ h.cpFifo.length < 32) →
      Completes (.copyComplete o.id) s (ended s res h)))

/-- R199, R325: `epop` takes the oldest result of its FIFO; -1 where none will come; else it holds the hart. R326: an arrival opens
an episode of its instance and id or joins it; the n-th closes it, and every participant's command may post; a unit holds 64
episodes, and the package dispatcher holds those of scope dev and of scope sys together. An arrival from another device waits for
room, and behind an earlier one of its channel. -/
def Obligations.ResultsAndBarriers : Prop :=
  (∀ (d b : BitVec 5) (h : BitVec 4) (s : State),
    let rp := decide (b ≠ 0)
    let c : Chan := if b ≠ 0 then .tailor else .copy
    let fifo := if b ≠ 0 then s.cur.rpFifo else s.cur.cpFifo
    let coming := (s.chanOps s.cur.core s.cur.ctx c).any fun o => match o.kind with
      | .copy (.copyn _ _ _ _ r) _ => r
      | .copied _ (some _) | .tailor .. | .tailorBusy => true
      | _ => false
    let took (l : List (Word × Bool)) (e : Word × Bool) (t : State) : Prop :=
      let u : State := if b ≠ 0 then { s with cur := { s.cur with rpFifo := l, rpOf := s.cur.rpOf.drop 1 } } else { s with cur := { s.cur with cpFifo := l } }
      t = (((u.writeX d e.1 e.2).setLdest d).postNow h).retire
    (∀ f, s.cur.faults.find? (fun f => f.chan == c) = some f → exec (.epop d b h) s = .next (s.takeTrap f.trap)) ∧
    (Clear s c →
      (∀ e l, fifo = e :: l → Completes (.epop d b h) s (took l e)) ∧
      (fifo = [] → coming = false → Completes (.epop d b h) s (took [] (-1, false))) ∧
      (fifo = [] → coming = true → exec (.epop d b h) s = .next (s.holdClosing (.epop rp d h))))) ∧
  (∀ (s : State) (sc : BitVec 3) (unit id n w : Nat) (who : Nat × Nat),
    let at' (e : Episode) : Bool := e.sc == sc && e.unit == unit && e.id == id
    let held : List Episode := s.episodes.filter fun e =>
      if 4 ≤ sc.toNat then decide (4 ≤ e.sc.toNat) || e.sc == sc else e.sc == sc && e.unit == unit
    let closes (l : List (Nat × Nat)) (t : State) : Prop :=
      ∀ o ∈ t.ops, (s.device, o.id) ∈ l → ∀ v c x y, o.kind = .bar v c x y → x = true ∧ y = true
    (∀ e, s.episodes.find? at' = some e → e.arrivals.length + 1 < e.n → s.barArrive sc unit id n w who =
      some { s with episodes := s.episodes.map fun x => if at' x then { x with arrivals := x.arrivals ++ [who] } else x }) ∧
    (∀ e, s.episodes.find? at' = some e → e.n ≤ e.arrivals.length + 1 → ∃ t, s.barArrive sc unit id n w who = some t ∧
      t.episodes = s.episodes.filter (fun x => !at' x) ∧ closes (e.arrivals ++ [who]) t) ∧
    (s.episodes.find? at' = none →
      (64 ≤ held.length → s.barArrive sc unit id n w who = none) ∧
      (held.length < 64 → 1 < n → s.barArrive sc unit id n w who =
        some { s with episodes := s.episodes ++ [{ sc, unit, id, n, arrivals := [who] }] }) ∧
      (held.length < 64 → n ≤ 1 → ∃ t, s.barArrive sc unit id n w who = some t ∧ t.episodes = s.episodes ∧ closes [who] t)) ∧
    (∀ src op hart,
      let m : BarMsg := .arrive w id n op hart
      let waits : Bool := ((s.peer src).bars.takeWhile (· != m)).any fun x => match x with | .arrive _ _ _ _ g => g == hart | _ => false
      (waits = true ∨ s.barArrive 5 s.device id n w (src, op) = none → s.barTake src m = none) ∧
      (∀ t, waits = false → s.barArrive 5 s.device id n w (src, op) = some t →
        s.barTake src m = some (t.modPeer src fun p => { p with bars := p.bars.erase m }))))

/-- R148, R153, R328 to R334: sleeve commands are pushed once their cuff operands pass; `slrecv` takes the next item in sequence.
R148 to R150, R152, R154, R331 to R333: what a cuff names, when each sleeve command can complete and with which code, and what the
oldest one sends once it has a credit. R152, R154, R328, R330 to R334: the oldest sleeve command of a hart completes: its effect,
slstat, its post; the next one starts. -/
def Obligations.Sleeves : Prop :=
  (∀ (d a b : BitVec 5) (h : BitVec 4) (s : State),
    let none' : XDest := { lvl := s.cur.level, r := 0, live := false }
    let dest (r : BitVec 5) : XDest := { lvl := s.cur.level, r, live := r != 0 }
    let runs (c : SleeveCmd) (x : XDest) (l : BitVec 5) (t : State) : Prop :=
      ∃ v, Pushed s h (.sleeve c x) v ∧ t = (v.startSleeve s.cur.core s.cur.ctx).setLdest l
    let cuff (r : BitVec 5) : Prop := (s.cur.x r).getLsbD 32 = false ∧ (s.cur.x r).extractLsb' 33 6 = s.cur.world
    let recv (r : BitVec 5) : Bool := (s.cur.x r).getLsbD 39
    (Room s .sleeve →
      Completes (.slopen d h) s (runs (.opened (dest (d + 1))) (dest d) d) ∧
      (Waited s [a, b] → cuff a → recv a = false →
        Completes (.slsend a b h) s (runs (.send (s.cur.x a) (s.cur.x b) (s.cur.px b) none false) none' 0) ∧
        (cuff b → Completes (.slpass a b h) s (runs (.pass (s.cur.x a) (s.cur.x b) none false) none' 0))) ∧
      (Waited s [a] → cuff a →
        Completes (.slclose a h) s (runs (.close (s.cur.x a)) none' 0) ∧
        (recv a = true → Completes (.slpoll d a h) s (runs (.poll (s.cur.x a)) (dest d) d)))) ∧
    (¬Room s .sleeve → exec (.slopen d h) s = .next (s.holdOn (.channel .sleeve))) ∧
    (Waited s [a] →
      ((s.cur.x a).getLsbD 32 = true → ∀ i ∈ [Instr.slclose a h, .slpoll d a h, .slrecv d a h],
        exec i s = .next (s.takeTrap { code := 0x0A, detail := BitVec.ofNat 64 (1 + 256 * a.toNat) })) ∧
      ((s.cur.x a).getLsbD 32 = false → recv a = false → ∀ i ∈ [Instr.slpoll d a h, .slrecv d a h],
        exec i s = .next (s.takeTrap { code := 0x0A, detail := BitVec.ofNat 64 (2 + 256 * a.toNat) })) ∧
      ((s.cur.x a).getLsbD 32 = false → (s.cur.x a).extractLsb' 33 6 ≠ s.cur.world →
        exec (.slclose a h) s = .next (s.takeTrap { code := 0x0A, detail := BitVec.ofNat 64 (3 + 256 * a.toNat) })) ∧
      (cuff a → recv a = true →
        (∀ u v p code, s.sleeveOps s.cur.core s.cur.ctx = [] → s.receive s.cur (s.cur.x a) = some (u, v, p, code) →
          Completes (.slrecv d a h) s fun t => t = ((((u.writeX d v p).modCur fun x =>
            { x with csr := { x.csr with slstat := BitVec.ofNat 64 (2 * 256 + code) } }).setLdest d).postNow h).retire) ∧
        (s.sleeveOps s.cur.core s.cur.ctx ≠ [] ∨ s.receive s.cur (s.cur.x a) = none →
          exec (.slrecv d a h) s = .next (s.holdClosing (.slrecv d (s.cur.x a) h))))) ∧
    (∀ c, s.validEnd s.cur c = none → s.receive s.cur c = some (s, 0, false, 5)) ∧
    (∀ c e i, s.validEnd s.cur c = some e → e.buffer.find? (fun i => i.seq == e.next) = some i → i.cuff = none →
      ∃ u, s.receive s.cur c = some (u, i.value, i.poison, 0)) ∧
    (∀ c e, s.validEnd s.cur c = some e → (∀ i ∈ e.buffer, i.seq ≠ e.next) →
      (∀ n, e.peerClosed = some n → n ≤ e.next → s.receive s.cur c = some (s, 0, false, 3)) ∧
      ((∀ n, e.peerClosed = some n → e.next < n) → s.receive s.cur c = if e.orphan then some (s, 0, false, 4) else none))) ∧
  (∀ (s : State) (h : Hart) (a b : Word) (v : Word) (p : Bool),
    let orphaned : Option Nat := match s.validEnd h a with | some e => if e.orphan then some 4 else none | none => none
    let gone (e : SleeveEnd) : Option Nat := if e.peerClosed ≠ none then some 3 else if e.orphan then some 4 else none
    (∀ e, s.validEnd h a = some e → e ∈ s.sleeves.ends ∧ e.owner = h.identity ∧ a.extractLsb' 33 6 = h.world ∧
      a = BitVec.ofNat 64 (e.sl.home * 2 ^ 55 + e.sl.index * 2 ^ 40 + (if e.recv then 2 ^ 39 else 0) + e.sl.world * 2 ^ 33 + (if a.getLsbD 32 then 2 ^ 32 else 0) +
        e.gen.toNat)) ∧
    (s.validEnd h a = none → ∀ e ∈ s.sleeves.ends, e.sl = cuffId a → e.recv = a.getLsbD 39 → e.owner = h.identity → e.gen = a.setWidth 32 →
      a.extractLsb' 33 6 = h.world → ∃ f ∈ s.sleeves.ends, f ≠ e ∧ f.sl = e.sl ∧ f.recv = e.recv) ∧
    (∀ x, (∀ k, k < 32768 → (∀ e ∈ s.sleeves.dir, e.used = true → e.index ≠ k) → s.sleeveStatus h (.opened x) = some 0) ∧
      ((∀ k < 32768, ∃ e ∈ s.sleeves.dir, e.used = true ∧ e.index = k) → s.sleeveStatus h (.opened x) = some 7)) ∧
    (∀ t x y, s.openSleeve h = some (t, x, y) → ∃ (k : Nat) (gs gr : Half), k < 32768 ∧ (∀ e ∈ s.sleeves.dir, e.used = true → e.index ≠ k) ∧
      (∀ j < k, ∃ e ∈ s.sleeves.dir, e.used = true ∧ e.index = j) ∧
      (gs, gr) = (match s.sleeves.dir.find? fun e => e.index == k with | some e => (e.sendGen + 1, e.recvGen + 1) | none => (1, 1)) ∧
      (let made (recv : Bool) (gen : Half) : SleeveEnd :=
         { sl := { home := s.device, index := k, world := h.world.toNat }, recv, gen, owner := h.identity, next := 0, taken := 0, loc := s.device,
           buffer := [], peerClosed := none, orphan := false }
       t.sleeves.ends = s.sleeves.ends ++ [made false gs, made true gr]) ∧
      x = BitVec.ofNat 64 (s.device * 2 ^ 55 + k * 2 ^ 40 + h.world.toNat * 2 ^ 33 + gs.toNat) ∧
      y = BitVec.ofNat 64 (s.device * 2 ^ 55 + k * 2 ^ 40 + 2 ^ 39 + h.world.toNat * 2 ^ 33 + gr.toNat)) ∧
    (s.sleeveStatus h (.send a v p none false) = match s.validEnd h a with | none => some 5 | some e => gone e) ∧
    (s.sleeveStatus h (.pass a b none false) = match s.validEnd h a, s.validEnd h b with
      | some e, some x => if e.sl = x.sl then some 6 else gone e
      | _, _ => some 5) ∧
    (∀ n landed, s.sleeveStatus h (.send a v p (some n) landed) = (if landed then some 0 else orphaned) ∧
      s.sleeveStatus h (.pass a b (some n) landed) = if landed then some 0 else orphaned) ∧
    (s.sleeveStatus h (.close a) = if s.validEnd h a = none then some 5 else some 0) ∧
    (s.sleeveStatus h (.poll a) = match s.validEnd h a with
      | none => some 5
      | some e => some (if e.ready 64 ≠ 0 then 0 else if e.peerClosed.any fun n => decide (n ≤ e.next) then 3 else if e.orphan then 4 else 2)) ∧
    (∀ e : SleeveEnd, (∀ n, e.ready n ≤ n ∧ (∀ k < e.ready n, ∃ i ∈ e.buffer, i.seq = e.next + k) ∧
      (e.ready n < n → ∀ i ∈ e.buffer, i.seq ≠ e.next + e.ready n))) ∧
    (∀ (o : Op) (d : XDest) (core ctx : Nat) (e : SleeveEnd), s.hartAt core ctx = some h → (s.sleeveOps core ctx).head? = some o →
      s.validEnd h a = some e →
      let took (u : State) (c : SleeveCmd) : State := { u with ops := u.ops.map fun q => if q.id = o.id then { q with kind := .sleeve c d } else q }
      let item (u : State) (x : Word) (q : Bool) (cuff : Option Transit) : State :=
        (u.modEnd e.sl false fun x => { x with next := x.next + 1 }).send e.loc (.sli { sl := e.sl, seq := e.next, value := x, poison := q, cuff })
      let stays := gone e ≠ none ∨ 64 + e.taken ≤ e.next
      (o.kind = .sleeve (.send a v p none false) d →
        s.startSleeve core ctx = if stays then s else took (item s (if p then 0 else v) p none) (.send a v p (some e.next) false)) ∧
      (∀ x, o.kind = .sleeve (.pass a b none false) d → s.validEnd h b = some x →
        let t : Transit := { sl := x.sl, recv := x.recv, world := x.owner.world.toNat, gen := x.gen.toNat, next := x.next, loc := x.loc, taken := x.taken }
        let left : List Forward := if x.recv then [{ sl := x.sl, gen := x.gen.toNat, base := x.next, items := x.buffer.filter fun i => x.next ≤ i.seq,
                                                     sent := [], dest := none, upto := none }] else []
        let rest : State := { s with sleeves := { s.sleeves with
          ends := s.sleeves.ends.filter fun y => !(y.sl == x.sl && y.recv == x.recv), forwards := s.sleeves.forwards ++ left } }
        s.startSleeve core ctx = if e.sl = x.sl ∨ stays then s else took (item rest b false (some t)) (.pass a b (some e.next) false)))) ∧
  (∀ (s : State) (o : Op) (h : Hart) (c : SleeveCmd) (d : XDest) (code : Nat), s.opById o.id = some o → s.isHead o = true →
    s.hartAt o.core o.ctx = some h → o.kind = .sleeve c d → s.sleeveStatus h c = some code →
    ∃ u, Completes (.sleeveCommandComplete o.id) s (fun t => t = (((u.modHart o.core o.ctx fun h =>
        { h with csr := { h.csr with slstat := BitVec.ofNat 64 (c.fn * 256 + code) } }).finish o).startSleeve o.core o.ctx)) ∧
      (∀ x v p n l, c = .send x v p n l → u = s) ∧ (∀ x v n l, c = .pass x v n l → u = s) ∧
      (∀ x, c = .close x → (s.validEnd h x = none → u = s ∧ code = 5) ∧ ∀ e, s.validEnd h x = some e → u = s.closeEnd e ∧ code = 0) ∧
      (∀ x, c = .poll x → (s.validEnd h x = none → u = s.deliver o d 0 false ∧ code = 5) ∧
        ∀ e, s.validEnd h x = some e → u = s.deliver o d (BitVec.ofNat 64 (e.ready 64)) false ∧ (1 ≤ e.ready 64 → code = 0)) ∧
      (∀ x, c = .opened x → (s.openSleeve h = none → u = (s.deliver o d 0 false).deliver o x 0 false) ∧
        ∀ v p q, s.openSleeve h = some (v, p, q) → u = (v.deliver o d p false).deliver o x q false))

/-- R143, R155, R197, R337 to R340: tailoring commands: the descriptor's first failing check traps STREAM; a member bitmap on
another device is asked for; a group that is busy answers BUSY; `rpstat` reads a group. A translation fault of the bitmap traps at
the push (log 96); a capacity past 65,536 is taken (log 92). The command's data is read later. R78, R155, R159, R160, R340: the ends
of tailoring operations: the overflow list, its acknowledgements, then results and post at a member; a timeout; a member that
leaves; a read of a group. -/
def Obligations.Tailoring : Prop :=
  (∀ (d a : BitVec 5) (h : BitVec 4) (s : State),
    let addr := s.cur.x a
    let u := s.drainAll true
    let desc := packDesc (u.tcmBytes addr 128)
    let needs := u.spanNeeds u.cur u.cur s.cur.level [((tdMmap desc).toNat, 64)]
    let bitmap := u.virtRead u.cur u.cur (fun v n => translate u u.cur s.cur.level v n .load true) 64 (tdMmap desc) 64
    let u0 := u.dropAsks u.cur
    (∀ (disp : Bool) (i : Instr), i = (if disp then .rpdisp a h else .rprun a h) → Waited s [a] → Clear s .tailor → InSlice s addr 128 →
      (addr.toNat % 64 ≠ 0 → exec i s = .next (s.takeTrap { code := 0x03, detail := addr })) ∧
      (addr.toNat % 64 = 0 → needs ≠ [] ∨ u.asking u.cur = true → exec i s = .next ((u.askAll u.cur needs).holdOn .far)) ∧
      (addr.toNat % 64 = 0 → needs = [] → u.asking u.cur = false →
        (∀ tr, bitmap = .error tr → exec i s = .next (s.takeTrap tr)) ∧
        (∀ mb, bitmap = .ok mb →
          let m := BitVec.ofNat 512 (ofBytes (mb.map (·.1)))
          let c := s.tailorCheck disp desc m
          (c ≠ 0 → exec i s = .next (s.takeTrap { code := 0x0A, detail := BitVec.ofNat 64 (16 + c) })) ∧
          FirstFailing (TailorFails s disp desc m) 6 c ∧
          (c = 0 → SysClear s 5 → Room s .tailor →
            (u0.groupBusy (tdGid desc) = true → ∃ v, Started u0 0 (opOf u0 h .tailorBusy false 0) v ∧
              Completes i s (Counting s [a] fun t => t = v.tailorNext s.cur.core s.cur.ctx 17)) ∧
            (u0.groupBusy (tdGid desc) = false → ∃ v,
              Started u0 0 (opOf u0 h (.tailor disp (tdGid desc) (tdEpoch desc) none) false 0) v ∧
              let gid := tdGid desc
              let mine (g : Group) : Bool := g.gid == gid && g.epoch == tdEpoch desc && g.mmap == m && !g.posted
              let fresh : Group :=
                { gid, epoch := tdEpoch desc, mmap := m, core := 0, ctx := 0, op := none, desc := 0, inputs := [], ready := [], records := [], phase := 0,
                  out := [], due := [], landed := 0, returned := [], status := 0, posted := false, world := s.cur.world.toNat }
              Completes i s (Counting s [a] fun t =>
                t = { v with groups := v.groups.filter (fun g => !mine g && !(g.gid == gid && g.posted)) ++
                  [{ (v.groups.find? mine).getD fresh with
                     core := s.cur.core, ctx := s.cur.ctx, op := some s.nextOp, desc := desc, world := s.cur.world.toNat }] })))))) ∧
    (Waited s [a] → (s.cur.x a).toNat < 2 ^ 16 → Completes (.rpstat d a h) s
      (Started s d (opOf s h (.rpstat (s.cur.x a).toNat { lvl := s.cur.level, r := d, live := d != 0 }) false 0))) ∧
    (2 ^ 16 ≤ (s.cur.x a).toNat → exec (.rpstat d a h) s = .next (s.takeTrap { code := 0x01, detail := s.cur.ir.setWidth 64 }))) ∧
  (∀ (s : State) (o : Op),
    (∀ gid ep g h disp ws, s.liveGroup gid = some g → g.op = some o.id → s.opById o.id = some o →
      s.isHead o = true → o.kind = .tailor disp gid ep ws →
      s.groups.find? (fun x => x.gid == gid && x.epoch == ep && x.op == some o.id) = some g → s.groupOf gid ep g.mmap = some g →
      s.hartAt o.core o.ctx = some h →
      g.phase = 3 ∨ (g.phase = 2 ∧ g.out = [] ∧ g.due = [] ∧ ∃ i ∈ g.inputs, i.1 = s.device) → h.rpFifo.length ≤ 27 →
      let lists := g.status = 0 ∨ g.status = 4
      (∀ u, (ws = some [] ∧ u = s) ∨ (ws = none ∧ ¬lists ∧ u = s) ∨ (ws = none ∧ lists ∧ s.groupOvf h o.lvl g = (u, [])) →
        Completes (.tailoringComplete gid) s fun t =>
          t = (((((u.dropAsks h.port).modHart o.core o.ctx fun h =>
            let rs := groupResults g (s.rankIn g.mmap)
            { h with rpFifo := h.rpFifo ++ rs.map fun v => (v, false), rpOf := h.rpOf ++ rs.map fun _ => gid + 1 }).modGroup
            gid ep g.mmap fun g => { g with phase := 3, posted := true }).finish o).tailorNext o.core o.ctx 17)) ∧
      (∀ u l, ws = none → lists → s.groupOvf h o.lvl g = (u, l) → l ≠ [] → Completes (.tailoringComplete gid) s fun t =>
        t = (u.setKind o.id (.tailor disp gid ep (some l))).tailorNext o.core o.ctx 17) ∧
      (∀ l, ws = some l → l ≠ [] → ∃ e, exec (.tailoringComplete gid) s = .fault (.notEnabled e))) ∧
    (∀ gid g, s.groups.find? (fun g => g.gid == gid && g.phase == 0 && !(membersOf g.mmap).all fun v => g.inputs.any fun i => i.1 == v) = some g →
      Completes (.tailoringTimeout gid) s fun t => t = (s.groupEnd g 2).toMembers g.mmap (.ended gid g.epoch g.mmap 2 g.world)) ∧
    (∀ (g : Group) (me : Nat), g.status = 1 ∨ g.status = 2 → groupResults g me = [0, 0, 0, 0, BitVec.ofNat 64 g.status]) ∧
    (∀ peer, peer ∈ s.members → peer ≠ s.device → 
      let u : State := { s with members := s.members.filter (· != peer) }
      Completes (.peerLost peer) s fun t => ∃ v, v = ((u.modPeer peer fun p => { p with lost := true, keyed := false, moving := [], bars := [] }).orphanEnds peer).barriersLost peer ∧
        t = (v.groups.filter fun g => (g.phase == 1 || g.phase == 2) && (membersOf g.mmap).contains peer).foldl (fun w g => w.groupLost g peer) v) ∧
    (∀ gid d h, s.opById o.id = some o → o.kind = .rpstat gid d → s.hartAt o.core o.ctx = some h →
      Completes (.rpstatComplete o.id) s fun t => t = (s.deliver o d (s.groupView h gid) false).finish o))

/-- R63, R64, R66, R345 to R347, R354, R355, R358, R359: operations without a key: which operands they take, what their result's
descriptor holds, and that they are in flight with their units claimed. -/
def Obligations.CiphertextArithmetic : Prop :=
  ∀ (d a b : BitVec 5) (h : BitVec 4) (s : State), CtSource s a →
    let x := s.cReg a
    let y := s.cReg b
    let p := s.prof (dProf x)
    let l := dLimbs x
    let w := s.cur.x b
    let qs := p.q.take l
    let words := p.words (dKind x) l
    let word (f : Nat) (k : Int) (srcs : List (BitVec 5)) (allow : Int) : CtPlan :=
      plainPlan (.word f k qs (p.words (dKind x) 1)) srcs words (dKind x) l (dProf x) (dScale x) allow
    (dKind x ≤ 3 → dKind y = dKind x → dProf y = dProf x → dLimbs y = l → dScale y = dScale x → CtWaited s [cSrc a, cSrc b] →
      CtRuns (.ctAdd d a b h) s [] d h (word 0 0 [a, b] (addAllow (dAllow x) (dAllow y))) ∧
      CtRuns (.ctSub d a b h) s [] d h (word 1 0 [a, b] (addAllow (dAllow x) (dAllow y)))) ∧
    (dKind x ≤ 3 → CtWaited s [cSrc a] →
      CtRuns (.ctNeg d a h) s [] d h (word 2 0 [a] (dAllow x)) ∧
      (Waited s [b] → CtRuns (.ctMulk d a b h) s [b] d h (word 3 w.toInt [a] (scaleAllow p l (dAllow x) w.toInt.natAbs)))) ∧
    (let scale := dScale x + (w.extractLsb' 56 8).toInt
     let bc := w.toNat % 64
     let bound := if bc = 0 then 0 else 2 ^ (bc - 1)
     dKind x = 3 → w.getLsbD 55 = false → -128 ≤ scale → scale ≤ 127 → CtWaited s [cSrc a] → Waited s [b] →
     CtRuns (.ctMulp d a b h) s [b] d h { plainPlan (.mulp qs p.big bound) [a] words 3 l (dProf x) scale (scaleAllow p l (dAllow x) bound) with
       table := some (w &&& 0x7FFFFFFFFFFFC0#64, 8 * p.big * l) }) ∧
    (let keep := w.toNat
     let scale := dScale x - ((((p.widths.take l).drop keep).foldl (· + ·) 0 : Nat) : Int)
     p.lwe = false → dKind x = 3 → 1 ≤ keep → keep < l → -128 ≤ scale → CtWaited s [cSrc a] → Waited s [b] →
     CtRuns (.ctModsw d a b h) s [b] d h (plainPlan (.modsw qs p.big keep) [a] words 3 keep (dProf x) scale (addAllow (dAllow x) (p.aMax keep)))) ∧
    (dKind x = 3 → l = 1 → w.toNat < p.big → CtWaited s [cSrc a] → Waited s [b] →
      CtRuns (.ctExtr d a b h) s [b] d h
        (plainPlan (.extr p.q1 p.big w.toNat) [a] (p.words 3 1) 2 1 (dProf x) (extrScale p x w.toNat) (dAllow x)))

/-- R346, R347, R356, R357, R360, R364 to R366: operations with keys and bootstrapping by steps. That `ct.pack` takes its first
input's scale and a_ksw from the destination's profile is log 35, a scale that the spec does not state log 20. R40, R67, R342, R355
to R359, R361, R363 to R367: what the operations on plaintexts, keys and tables write, word by word; a refresh writes what its steps
do, and its scale, where the spec states none for a step, is that of its steps (log 20). -/
def Obligations.CiphertextKeys : Prop :=
  (∀ (d a b : BitVec 5) (tb : BitVec 3) (cnt : BitVec 5) (h : BitVec 4) (s : State), CtSource s a →
    let x := s.cReg a
    let k := s.kReg b
    let p := s.prof (dProf x)
    let q := s.prof (kDprof k)
    let l := dLimbs x
    let t := s.tbReg tb
    let half (n m : Nat) : Nat := if kPat k then m else n
    (dKind x = 3 → kSprof k = dProf x → (p.lwe = true ∨ kEll k = l) → CtWaited s [cSrc a, kSrc b] →
      let plan (gamma : Nat) : CtPlan := { plainPlan (.kswRlwe (p.q.take l) p.big (kBeta k) (kEll k) (kKeyid k) gamma (kPat k)) [a] (p.words 3 l) 3 l
        (dProf x) (dScale x) (addAllow (dAllow x) (p.aKsw l)) with
        key := some (kBase k, 8 * kEll k * half (2 * p.big * l) (p.big * l)), pois := kPois k }
      (kKind k = 3 → CtRuns (.ctRot d a b h) s [] d h (plan (kGamma k))) ∧ (kKind k = 5 → CtRuns (.ctKsw d a b h) s [] d h (plan 1))) ∧
    (dKind x = 2 → kKind k = 2 → kSprof k = dProf x → l = 1 → q.lwe = true → (p.lwe = true ∨ kEll k = 1) → CtWaited s [cSrc a, kSrc b] →
      CtRuns (.ctKsw d a b h) s [] d h { plainPlan (.kswLwe p.q1 q.q1 p.big q.dim (kBeta k) (kEll k) (kKeyid k) (kPat k)) [a] (p.words 2 1) 1 1
        (kDprof k) (dScale x) (addAllow (dAllow x) (q.aKsw 1)) with
        key := some (kBase k, 8 * (p.big * kEll k) * half (q.dim + 1) 1), pois := kPois k, used := [dProf x, kDprof k] }) ∧
    (let m := cnt.toNat + 1
     let ins := (List.range m).map fun i => a + BitVec.ofNat 5 i
     let big := 2 ^ clog2 m
     a.toNat + m ≤ 32 → kKind k = 4 → (∀ r ∈ ins, dKind (s.cReg r) = 2 ∧ dProf (s.cReg r) = kSprof k ∧ dLimbs (s.cReg r) = 1) →
     q.installed = true → big ≤ q.big → (p.lwe = true ∨ kEll k = 1) → CtWaited s (ins.map cSrc ++ [kSrc b]) →
     CtRuns (.ctPack d a b h cnt) s [] d h { plainPlan (.pack p.q1 q.q1 p.big q.big big (kBeta k) (kEll k) (kKeyid k) m (kPat k)) ins (p.words 2 1) 3 1
       (kDprof k) (dScale x) (addAllow (ins.foldl (fun (acc : Int) r => min acc (dAllow (s.cReg r))) (dAllow x)) (q.aKsw 1) - 8 * (clog2 m : Int)) with
       key := some (kBase k, 8 * (p.big * kEll k) * half (2 * q.big) q.big), pois := kPois k, used := [dProf x, kDprof k] }) ∧
    (let source := p.lwe = true ∧ dKind x = 1 ∧ l = 1 ∧ tbBound t = true ∧ tbProf t = dProf x
     source → CtWaited s [cSrc a, tbSrc tb] → (p.aInMin ≤ dAllow x) → CtRuns (.ctBrinit d a h tb) s [] d h
       { plainPlan (.brinit p.q1 p.big p.dim p.plain) [a] (p.words 1 1) 4 1 (dProf x) (brinitScale p x t) p.aRefresh with
         table := some (tbBase t, 8 * (p.plain / 2)), pois := tbPois t, step := some 0 }) ∧
    (let i := s.cur.csr.brstep
     let per := 8 * (2 * kEll k) * half (2 * p.big) p.big
     dKind x = 4 → kKind k = 1 → kSprof k = dProf x → i.toNat < p.dim → CtWaited s [cSrc a, kSrc b] → CtRuns (.ctBrstep d a b h) s [] d h
       { plainPlan (.brstep p.q1 p.big p.dim (kBeta k) (kEll k) (kKeyid k) i.toNat (kPat k)) [a] (p.words 4 1) 4 1 (dProf x) (brstepScale p x k)
           (dAllow x) with
         key := some (kBase k + BitVec.ofNat 64 (per * i.toNat), per), pois := kPois k, step := some (i + 1) }) ∧
    (dKind x = 4 → s.cur.csr.brstep.toNat = p.dim → CtWaited s [cSrc a] →
      CtRuns (.ctBrfin d a h) s [] d h (plainPlan (.brfin p.q1 p.big) [a] (p.words 4 1) 2 1 (dProf x) (brfinScale p x) p.aRefresh))) ∧
  ((∀ qs n bound, MulpWrites qs n bound) ∧
  (∀ qs qd ns nd beta ell keyid pat, KswLweWrites qs qd ns nd beta ell keyid pat) ∧
  (∀ qs n beta ell keyid gamma pat, KswRlweWrites qs n beta ell keyid gamma pat) ∧
  (∀ qs qd ns nd big beta ell keyid m pat, PackWrites qs qd ns nd big beta ell keyid m pat) ∧
  (∀ qs n keep, ModswWrites qs n keep) ∧ (∀ q n c, ExtrWrites q n c) ∧ (∀ q n dim p, BrinitWrites q n dim p) ∧
  (∀ q n dim beta ell keyid i pat, BrstepWrites q n dim beta ell keyid i pat) ∧
  (∀ q n dim p beta ell keyid pat (x key table : List Nat),
    let per := 2 * ell * if pat then n else 2 * n
    let start := ((CtOp.brinit q n dim p).run [x] [] table).1
    let steps := (List.range dim).foldl (fun acc i =>
      ((CtOp.brstep q n dim beta ell keyid i pat).run [acc] ((key.drop (per * i)).take per) []).1) start
    ((CtOp.refresh q n dim p beta ell keyid pat).run [x] key table).1 = ((CtOp.brfin q n).run [steps] [] []).1 ∧
    ((CtOp.brfin q n).run [x] key table).1 = ((CtOp.extr q n 0).run [x] key table).1) ∧
  (∀ (p : Profile) (x k t : Desc) (y : Nat → Desc), dScale (y 0) = brinitScale p x t → (∀ i < p.dim, dScale (y (i + 1)) = brstepScale p (y i) k) →
    refreshScale p x k t = brfinScale p (y p.dim)))

/-- R65, R124, R346, R347, R353, R367: a refresh joins the cluster's gathering batch where its key and profile are the batch's and
it has room; another closes it and waits; an operand or an allowance that breaks a rule traps before any effect. -/
def Obligations.Refresh : Prop :=
  ∀ (d a b : BitVec 5) (tb : BitVec 3) (h : BitVec 4) (s : State), CtSource s a →
    let x := s.cReg a
    let k := s.kReg b
    let p := s.prof (dProf x)
    let t := s.tbReg tb
    let good := p.lwe = true ∧ dKind x = 1 ∧ dLimbs x = 1 ∧ tbBound t = true ∧ tbProf t = dProf x ∧ kKind k = 1 ∧ kSprof k = dProf x
    let plan : CtPlan :=
      { plainPlan (.refresh p.q1 p.big p.dim p.plain (kBeta k) (kEll k) (kKeyid k) (kPat k)) [a] (p.words 1 1) 2 1 (dProf x) (refreshScale p x k t) p.aRefresh with
        key := some (kBase k, 8 * (p.dim * 2 * kEll k) * if kPat k then p.big else 2 * p.big), table := some (tbBase t, 8 * (p.plain / 2)),
        pois := kPois k || tbPois t, low := (dAllow x : Int) < p.aInMin, acc := some (s.cur.world ++ k, p.words 4 1) }
    let cap := s.batchCap (p.words 4 1)
    let id := s.cur.world ++ k
    CtWaited s [cSrc a, kSrc b, tbSrc tb] →
    (¬good → exec (.ctRefresh d a b h tb) s = .next (s.takeTrap { code := 0x01, detail := s.cur.ir.setWidth 64 })) ∧
    (good → 8 * p.words 2 1 ≤ 64 * dCap (s.cReg d) → cap ≠ 0 →
      ((dAllow x : Int) < p.aInMin ∨ p.aRefresh < ((s.cur.csr.ctfloor.toNat % 2 ^ 16 : Nat) : Int) →
        exec (.ctRefresh d a b h tb) s = .next (s.takeTrap { code := 0x08, detail := BitVec.ofInt 64 p.aRefresh })) ∧
      ((s.batcher (s.cur.core / 8)).gathering = none ∨
        (∃ g, (s.batcher (s.cur.core / 8)).gathering = some g ∧ g.key = id ∧ g.prof = dProf x ∧ g.ops.length < cap) →
        ∀ srcs dst table key v, CtReady s d plan srcs dst table key v → Completes (.ctRefresh d a b h tb) s fun r =>
          ∃ u, CtIssued s d h plan srcs dst table key v u ∧ r = (u.joinBatch s.nextOp id (dProf x) cap).retire)) ∧
    (∀ g, (s.batcher (s.cur.core / 8)).gathering = some g → good → 8 * p.words 2 1 ≤ 64 * dCap (s.cReg d) → cap ≠ 0 →
      g.key ≠ id ∨ g.prof ≠ dProf x ∨ cap ≤ g.ops.length → ∀ srcs dst table key v, CtReady s d plan srcs dst table key v →
        let u := if g.key = id ∧ g.prof = dProf x then s else s.closeBatch (s.cur.core / 8)
        (u.batcher (s.cur.core / 8)).gathering.isSome = true →
          exec (.ctRefresh d a b h tb) s = .next (u.holdOn (.batch id (dProf x) cap)))

/-- R65, R344, R345, R351 to R353, R360, R362, R363: descriptors, keys and tables: bound, loaded, stored, read; limits of batches.
ILLEGAL of `ct.st` and `ct.alw` for an empty register is log 83, one use for two poisoned sources log 17, the gen that `ct.ld` takes
log 95, an a_max below 0 log 87. -/
def Obligations.CiphertextRegisters : Prop :=
  ∀ (d a b : BitVec 5) (h : BitVec 4) (s : State),
    let v := s.cur.x b
    let addr := s.cur.x a
    let key := 2 ^ 48 + s.cur.core * 2 ^ 18 + (s.cur.tcmOff + (addr.toNat - 0x100000))
    let u := (s.drainFor key 32)
    let word : BitVec 256 := BitVec.ofNat 256 (ofBytes (u.tcmBytes addr 32))
    let p := u.mem.anyPoison key 32
    let placed := InSlice s addr 32 ∧ addr.toNat % 32 = 0
    let illegal : Trap := { code := 0x01, detail := s.cur.ir.setWidth 64 }
    let lands (used : List Nat) (dest : Dest) (hook : BitVec 4) (t : State) : Prop :=
      let w := (u.useX [a]).useProfiles used
      t = ({ w with cur := { w.cur with pend := w.cur.pend ++ [pendOf w 3 dest hook] } }).retire
    (let new := mkDesc addr 0 (v.extractLsb' 0 16) ((v.extractLsb' 17 8).setWidth 16) (v.toNat / 2 ^ 25 % 64) (v.toNat / 2 ^ 34 % 16)
       (v.toNat / 2 ^ 31 % 8) false (v.extractLsb' 38 26)
     Waited s [a, b] →
     (v.getLsbD 16 = false ∧ descOk s.cur.ct.ptab new = true → Completes (.ctBind d a b) s fun t =>
       t = (((s.useX [a, b]).useProfiles (if new = 0 then [] else [dProf new])).writeC d (descClamp s.cur.ct.ptab new)).retire) ∧
     (¬(v.getLsbD 16 = false ∧ descOk s.cur.ct.ptab new = true) → exec (.ctBind d a b) s = .next (s.takeTrap { code := 0x01, detail := v }))) ∧
    (Waited s [a] → placed →
      (descOk s.cur.ct.ptab word = true → Completes (.ctLd d a) s (lands (if word = 0 then [] else [dProf word])
        (.c d (let c := descClamp s.cur.ct.ptab word; if p && word != 0 then c ||| (1#256 <<< 122) else c)) 0)) ∧
      (descOk s.cur.ct.ptab word = false → exec (.ctLd d a) s = .next (s.takeTrap illegal)) ∧
      (tableOk s.cur.ct.ptab word = true → Completes (.tbLd d a h) s (lands [tbProf word]
        (.tb (d.setWidth 3) (if p then word ||| (1#256 <<< 187) else word)) h)) ∧
      (tableOk s.cur.ct.ptab word = false → exec (.tbLd d a h) s = .next (s.takeTrap illegal)) ∧
      (keyOk s.cur.ct.ptab word = true → Completes (.kyBind d a h) s (lands (if kKind word = 0 then [] else [kSprof word, kDprof word])
        (.k (d.setWidth 3) (if kKind word = 0 then 0 else if p then word ||| (1#256 <<< 122) else word)) h)) ∧
      (keyOk s.cur.ct.ptab word = false → exec (.kyBind d a h) s = .next (s.takeTrap illegal))) ∧
    (Waited s [a] → InSlice s addr 32 → addr.toNat % 32 ≠ 0 → ∀ i ∈ [Instr.ctLd d a, .tbLd d a h, .kyBind d a h],
      exec i s = .next (s.takeTrap { code := 0x03, detail := addr })) ∧
    (CtWaited s [cSrc d] → Waited s [a] → dKind (s.cReg d) = 0 → exec (.ctSt d a h) s = .next (s.takeTrap illegal)) ∧
    (CtWaited s [cSrc d] → Waited s [a] → dKind (s.cReg d) ≠ 0 → placed → Completes (.ctSt d a h) s fun t =>
      let u := (s.useX [a]).drainFor key 32
      let at' : Target := { home := .tcm, key, lworld := s.cur.world.toNat, enc := 0, nonce := 0, gen := 0 }
      let w := u.keepWords (u.writeAt s.cur.world at' (toBytes 32 (u.cReg d).toNat) false) s.cur.world at' 32
      t = (if h = 0 then w else { w with cur := { w.cur with pend := w.cur.pend ++ [pendOf w 3 .none h] } }).retire) ∧
    (CtWaited s [cSrc a] → dKind (s.cReg a) = 0 → exec (.ctAlw d a) s = .next (s.takeTrap illegal)) ∧
    (CtWaited s [cSrc a] → dKind (s.cReg a) ≠ 0 → Completes (.ctAlw d a) s (LateDone s 2 d (BitVec.ofNat 64 (dAllow (s.cReg a))) false 0)) ∧
    (Waited s [a] → let n := addr.toNat / 2 ^ 32
      (1 ≤ n ∧ n ≤ 64 → Completes (.ctWin a) s fun t => t = (((s.useX [a]).modCur fun h =>
        { h with csr := { h.csr with winN := BitVec.ofNat 7 n, winW := addr.setWidth 32 } }).windowCheck).retire) ∧
      (n = 0 ∨ 64 < n → exec (.ctWin a) s = .next (s.takeTrap { code := 0x01, detail := addr })))

/-- R12, R66, R124 to R126, R348, R354, R355: the ends of ciphertext operations, each at the head of its hart's channel: their
words, their poison, their posts; an operand word where different registers' regions overlap in part is the old one or the new one,
and otherwise the old one; a window that expires closes the gathering batch; a batch that is done lets the closed one start. -/
def Obligations.CiphertextEnds : Prop :=
  (∀ (s : State) (o : Op) (w : CtWork) (h : Hart), o.kind = .ct w → s.hartAt o.core o.ctx = some h →
    (∀ i ∈ w.after, ∀ q ∈ s.ops, q.id ≠ i) →
    let done (v : State) : State :=
      let ins := w.operands.map fun r => v.regionWords h.world r.1
      let r := v.ctOutcome w (ins.map (·.1))
      let poison := w.poison || ins.any (·.2) || r.2
      let u := (if r.2 then v.modWorld h.world.toNat fun x => { x with eunc := x.eunc + 1 } else v).writeRegion h.world w.dst r.1 poison
      if poison then ((u.ctPoison o w).countPoison h 1).finish o else u.finish o
    (s.opById o.id = some o → s.isHead o = true → Completes (.ctChannelComplete o.id) s fun t => t = done s) ∧
    (s.opById o.id = some o → s.isHead o = false → ∃ e, exec (.ctChannelComplete o.id) s = .fault (.notEnabled e)) ∧
    (∀ clus b, (s.batcher clus).executing = some b → b.ops = [o.id] → s.opById o.id = some o →
      Completes (.refreshBatchComplete clus) s fun t => t = (done s).modBatcher clus fun x => ({ x with executing := none } : Batcher).advance)) ∧
  (∀ (s : State) (w : CtWork) (olds : List (List Nat)), olds.length = w.operands.length →
    ((∀ r ∈ w.operands, r.2 = false ∨ r.1.meets w.dst = false ∨ (r.1.base = w.dst.base ∧ r.1.len = w.dst.len)) →
      s.ctOutcome w olds = w.effect olds) ∧
    ∃ seen : List (List Nat), s.ctOutcome w olds = w.effect seen ∧ seen.length = olds.length ∧
      ∀ n r i v, w.operands[n]? = some r → (seen.getD n [])[i]? = some v →
        (olds.getD n [])[i]? = some v ∨ (r.2 = true ∧ r.1.meets w.dst = true ∧ w.dst.base ≤ r.1.base + 8 * i ∧
          (w.effect seen).1[(r.1.base + 8 * i - w.dst.base) / 8]? = some v)) ∧
  (∀ (s : State) (clus : Nat) (g : Batch), (s.batcher clus).gathering = some g → Completes (.refreshWindowExpiry clus) s fun t =>
    t = { s with batchers := t.batchers } ∧ (t.batcher clus) = if (s.batcher clus).executing = none
      then { clus := (s.batcher clus).clus, executing := some { g with closed := true }, gathering := none }
      else { s.batcher clus with gathering := some { g with closed := true } }) ∧
  (∀ (f per i : Nat) (k : Int) (qs : List Nat) (x y key table : List Nat), i < per * qs.length →
    let q := qs.getD (i / per) 1
    let v : Int := match f with
      | 0 => (x.getD i 0 : Int) + y.getD i 0
      | 1 => (x.getD i 0 : Int) - y.getD i 0
      | 2 => -(x.getD i 0 : Int)
      | _ => k * x.getD i 0
    ((CtOp.word f k qs per).run [x, y] key table).1.getD i 0 = (v % (q : Int)).toNat)

/-! The device and the fabric. -/

/-- R127, R128, R187, R380, R388: a signature of the receipt chain; the power windows, limits and the THRIN pin, which change the
board's registers and nothing else. R6, R127, R179, R180, R183, R212, R378, R386, R387: reset and the stages of the boot sequence;
the messages of the management and security channels; a CXL.mem request. -/
def Obligations.BoardAndChannels : Prop :=
  ((∀ (w : Nat) (s : State), w < 64 → let x := s.worlds.getD w .reset
    0 < x.receipt.due ∨ x.receipt.req = true → Completes (.receiptSign w) s fun t =>
      let head := if x.receipt.seq = 0 then shake256 (BitVec.ofNat 8 w :: s.fwm) 64 else x.receipt.head
      let digest := shake256 (toBytes 64 Config.identityDigest.toNat ++ [BitVec.ofNat 8 w] ++ toBytes 8 x.receipt.seq ++ head) 64
      t = { s with worlds := s.worlds.setIfInBounds w { x with receipt := { x.receipt with
        due := 0, req := false, sigSeq := x.receipt.seq, sigHead := head, sig := Config.falcon digest } } }) ∧
  (∀ (w : Nat) (rec : Nat → List Byte) (s : State), w < 64 → let x := s.worlds.getD w .reset
    let n := x.receipt.seq + 1
    let head := if x.receipt.seq = 0 then shake256 (BitVec.ofNat 8 w :: s.fwm) 64 else x.receipt.head
    s.appendRecord w rec = { s with worlds := s.worlds.setIfInBounds w { x with receipt := { x.receipt with
      seq := n, head := shake256 (head ++ rec n) 64, due := if n % 256 = 0 then x.receipt.due + 1 else x.receipt.due,
      records := x.receipt.records ++ [rec n] } } }) ∧
  (∀ (s : State),
    (∀ current : List Nat, current.length = 8 → Completes (.powerWindow current) s fun t =>
      t = { s with board := { s.board with duty := t.board.duty } } ∧
      ∀ i : Fin 8, 4 ≤ t.board.duty[i] ∧ t.board.duty[i] ≤ 16 ∧ (s.board.thrin = true → t.board.duty[i] = 4)) ∧
    Completes .thrinAssert s (fun t => t = { s with board := { s.board with thrin := true, duty := t.board.duty } } ∧
      ∀ i : Fin 8, t.board.duty[i] = 4) ∧
    Completes .thrinDeassert s (fun t => t = { s with board := { s.board with thrin := false } }) ∧
    (∀ n, Completes (.pkglim n) s fun t => t = { s with board := { s.board with pkglim := t.board.pkglim } } ∧
      600 ≤ t.board.pkglim ∧ t.board.pkglim ≤ 2400 ∧ (600 ≤ n → n ≤ 2400 → t.board.pkglim = n)) ∧
    (∀ k n, k < 8 → Completes (.stklim k n) s fun t => t = { s with board := { s.board with stklim := t.board.stklim } } ∧
      (∀ i : Fin 8, i.val ≠ k → t.board.stklim[i] = s.board.stklim[i]) ∧
      ∀ i : Fin 8, i.val = k → 100 ≤ t.board.stklim[i] ∧ t.board.stklim[i] ≤ 250 ∧ (100 ≤ n → n ≤ 250 → t.board.stklim[i] = n)))) ∧
  ((∀ (images : List BootImage) (s : State), Completes (.reset (.start images)) s fun t =>
    t.mem = { s.mem with tlb := [], olds := [], icinvs := [], ways := [], poison := s.mem.poison.filter fun k => homeOf (8 * k) != some .regs } ∧ t.worlds = State.reset.worlds ∧ t.sched = State.reset.sched ∧
    t.harts = State.reset.harts ∧ t.ops = [] ∧ t.farReqs = [] ∧ t.fabric = State.reset.fabric ∧ t.sleeves = State.reset.sleeves ∧
    t.groups = [] ∧ t.bounce = State.reset.bounce ∧ t.thatum.alpol = alpolReset ∧ t.thatum.booting = images ∧ t.board.bootst = 0 ∧
    t.board.pkglim = 2400 ∧ t.board.thrin = s.board.thrin ∧ t.device = s.device ∧ t.members = s.members) ∧
  (∀ (s : State),
    let stage (u : State) (n : BitVec 3) : State := { u with board := { u.board with bootst := n } }
    let good (b : BootImage) : Prop := Config.larpolVerify (shake256 b.code 64) b.sig = true ∧ Config.rollback ≤ b.version
    (s.board.bootst = 0 → s.thatum.booting ≠ [] → (∀ b ∈ s.thatum.booting, good b) → Completes (.reset .verify) s fun t =>
      t = stage { s with thatum := { s.thatum with booting := [], images := s.thatum.booting.map fun b => shake256 b.code 64,
                                                   d2dKeys := s.thatum.d2dKeys + 1 } } 2) ∧
    (s.board.bootst = 0 → s.thatum.booting = [] ∨ (∃ b ∈ s.thatum.booting, ¬good b) → Completes (.reset .verify) s fun t => t = stage s 1) ∧
    (s.board.bootst = 2 → Completes (.reset .memory) s fun t => t = stage { s with mem := { State.reset.mem with
      bytes := s.mem.bytes.filter fun e => homeOf e.1 == some .host, poison := s.mem.poison.filter fun k => homeOf (8 * k) == some .host } } 3) ∧
    (s.board.bootst = 3 → Completes (.reset .links) s fun t => t = stage s 4) ∧
    (∀ a, a < 128 → Completes (.i3cAddressAssignment a) s fun t => t = { s with board := { s.board with i3c := some a } }) ∧
    Completes .d2dKeyRenewal s (fun t => t = { s with thatum := { s.thatum with d2dKeys := s.thatum.d2dKeys + 1 } }) ∧
    Completes (.doeSpdmMessage .getMeasurements) s (fun t =>
      t = { s with reply := some (.measurements s.thatum.images (shake256 s.thatum.images.flatten 64)) }) ∧
    Completes (.doeSpdmMessage .ideKey) s (fun t => t = { s with reply := none }) ∧
    (∀ w, 1 ≤ w → w < 64 → let x := s.worlds.getD w .reset
      let moves (m : SpdmMsg) (d : Tdi) : Prop := Completes (.doeSpdmMessage m) s fun t =>
        t = { s with worlds := s.worlds.setIfInBounds w { x with tdi := d }, reply := none }
      moves (.lockTdi w) (if x.tdi = .unlocked then .locked else x.tdi) ∧ moves (.startTdi w) (if x.tdi = .locked then .run else x.tdi) ∧
      moves (.stopTdi w) .unlocked)) ∧
  (∀ (q : CxlReq) (s : State) (i : Fin 8) (b n : Nat) (w : BitVec 6),
    let covers (e : Nat × Nat × BitVec 6) : Prop := e.1 ≤ q.addr ∧ q.addr < e.1 + e.2.1
    s.hdm[i] = some (b, n, w) → covers (b, n, w) → (∀ j : Fin 8, j < i → ∀ e, s.hdm[j] = some e → ¬covers e) → q.addr % 64 = 0 →
    isDram q.addr = true → gOwner (s.mem.granule q.addr) = w → s.board.bootst ≠ 1 →
    let x := s.worlds.getD w.toNat .reset
    let held := x.reads (gMode (s.mem.granule q.addr))
    (q.write = false → Completes (.cxlMemRequest q) s fun t =>
      t = { s with reply := some (if held = true ∧ s.mem.anyPoison q.addr 64 = false then .line (s.mem.readBytes q.addr 64) false
                                  else .line (List.replicate 64 0) true) }) ∧
    (q.write = true → q.data.length = 64 → held = false → Completes (.cxlMemRequest q) s fun t =>
      t = { s with worlds := s.worlds.setIfInBounds w.toNat { x with eviol := x.eviol + 1 }, reply := none }) ∧
    (q.write = true → q.data.length = 64 → held = true →
      Completes (.cxlMemRequest q) s fun t => t = { s with mem := t.mem, reply := none } ∧
        (q.poison = false → ∀ k, t.mem.read k = if q.addr ≤ k ∧ k < q.addr + 64 then q.data.getD (k - q.addr) 0 else s.mem.read k) ∧
        (∀ k, q.addr ≤ k → k < q.addr + 64 → t.mem.poisoned k = q.poison))))

/-- R370, R371, R375, R380 to R382: writes of the registers of world and queue pages, by a store of the device or a host's request:
which writes are ignored, which are refused and counted, and what the others change. R183, R370, R371, R379 to R382, R384, R386:
which register stands at which offset of register space, what it reads as (0 where it is poisoned, log 57) and which write it takes.
R180, R181, R183, R379: a host's request to BAR0: it acts only with the T bit of the TDI of the page's world in RUN, else it is
refused and counted; a read returns the register and changes nothing; only aligned accesses of eight bytes act; in recovery mode
none is answered. -/
def Obligations.HostRegisters : Prop :=
  ((∀ (w : Nat) (v : Word) (s : State), 1 ≤ w → w < 64 →
    let x := s.worlds.getD w .reset
    let clean (l : List Nat) : Memory := cleanRegs s.mem (l.map fun o => worldBase w + o)
    let becomes (l : List Nat) (y : World) (t : State) : Prop := t = { s with worlds := s.worlds.setIfInBounds w y, mem := clean l }
    s.board.bootst ≠ 1 →
    let base := (v.extractLsb' 16 31).toNat * 65536
    let buffer : Prop := if v.getLsbD 63 then x.dbg = true ∧ v.getLsbD 46 = false
      else ∀ i, i < (v.extractLsb' 47 16).toNat → isLocalRam (base + 65536 * i) = true ∧
        (gOwner (s.mem.granule (base + 65536 * i))).toNat = w ∧ gMode (s.mem.granule (base + 65536 * i)) = 0
    (buffer → Completes (.obbuf w v) s (becomes [8, 0x10, 0x18, 0x20] { x with obs := { x.obs with
      buf := v &&& 0xFFFFFFFFFFFF0000, head := 0, tail := 0, drop := 0 } })) ∧
    (¬buffer → Completes (.obbuf w v) s (becomes [8, 0x10, 0x18, 0x20] { x with eviol := x.eviol + 1 })) ∧
    Completes (.obtail w v) s (becomes [0x18] { x with obs := { x.obs with tail := if v ≤ x.obs.head then v else x.obs.tail } }) ∧
    Completes (.rcreq w v) s (becomes [0x1000] { x with receipt := { x.receipt with req := v.getLsbD 0 || x.receipt.req } }) ∧
    Completes (.obctl w v) s (fun t =>
      let again (u : BitVec 6) : Bool := v.getLsbD 1 && !x.obs.ctl.getLsbD 1 && u.toNat == w
      let zero (h : Hart) : Hart := if again h.world then { h with samples := 0 } else h
      t = { s with worlds := s.worlds.setIfInBounds w { x with obs := { x.obs with ctl := v &&& 0xFFFFFFFF00000007 } }, mem := clean [0],
                   cur := zero s.cur, others := s.others.map zero,
                   sched := { s.sched with parked := s.sched.parked.map fun p => if again p.world then { p with samples := 0 } else p } }) ∧
    (∀ entry off, entry < 16 → off < 512 → off % 8 = 0 → Completes (.profileEntry w entry off v) s fun t =>
      let e := x.profiles.getD entry 0
      ∃ f : BitVec 4096, becomes [0x2000 + 512 * entry + off, 0x2000 + 512 * entry] { x with profiles := x.profiles.setIfInBounds entry f } t ∧
        (off ≠ 0 → f.extractLsb' 0 16 = e.extractLsb' 0 16) ∧
        (off = 0 → f.extractLsb' 0 16 = v.extractLsb' 0 16) ∧
        (∀ k : Nat, 1 ≤ k → k < 64 → f.extractLsb' (64 * k) 64 = if 8 * k = off ∧ off < 264 then v else e.extractLsb' (64 * k) 64) ∧
        f.extractLsb' 16 8 = if off ≠ 0 ∨ v.extractLsb' 0 8 = 0 then 0 else if entryOk f = true then 1 else 2)) ∧
  (∀ (q : Nat) (v : Word) (s : State), q < 256 → s.board.bootst ≠ 1 → Completes (.qstat q v) s fun t => let y := s.queue q
    t = { s with mem := cleanRegs s.mem [queueBase q + 0x40], sched := { s.sched with queues := (s.sched.queues.setIfInBounds q
      { y with sref := y.sref && !v.getLsbD 63, ovf := y.ovf && !v.getLsbD 62, drop := y.drop && !v.getLsbD 61 }) } })) ∧
  ((∀ off, regPage off =
    if off / 65536 = 0 then some .device else if 17 ≤ off / 65536 ∧ off / 65536 < 80 then some (.world (off / 65536 - 16))
    else if 256 ≤ off / 65536 ∧ off / 65536 < 512 then some (.queue (off / 65536 - 256))
    else if 512 ≤ off / 65536 ∧ off / 65536 < 768 then some (.bounce (off / 65536 - 512)) else none) ∧
  (∀ s : State, s.fwm = shake256 s.thatum.images.flatten 64) ∧
  (∀ (s : State) (base : Nat) (l : List (Nat × Word)),
    (base = 0 ∧ l = deviceTable s) ∨ (∃ w, 1 ≤ w ∧ w < 64 ∧ base = worldBase w ∧ l = worldTable (s.worlds.getD w .reset)) ∨
    (∃ q, q < 256 ∧ base = queueBase q ∧ l = queueTable (s.queue q)) ∨ (∃ c, c < 256 ∧ base = bounceBase c ∧ l = bounceTable (s.bounceCh c)) →
    ∀ e ∈ l, s.regRead (base + e.1) = if s.mem.poisoned (0x20000000000 + base + e.1) then 0 else e.2) ∧
  (∀ (s : State) (v : Word), s.board.bootst ≠ 1 →
    (∀ w, 1 ≤ w → w < 64 →
      (∀ e ∈ worldWrites w v, Completes e.2 s fun t => t = s.regStore (worldBase w + e.1) v false) ∧
      ∀ o, o < 65536 → (∀ e ∈ worldWrites w v, o ≠ e.1) → o % 8 = 0 → s.regWrite (worldBase w + o) v = s) ∧
    (∀ c, c < 256 →
      (∀ e ∈ bounceWrites c v, Completes e.2 s fun t => t = s.regStore (bounceBase c + e.1) v false) ∧
      ∀ o, o < 65536 → (∀ e ∈ bounceWrites c v, o ≠ e.1) → s.regWrite (bounceBase c + o) v = s) ∧
    (∀ q, q < 256 →
      (Completes (.qstat q v) s fun t => t = s.regStore (queueBase q + 0x40) v false) ∧
      (∀ o, o < 0x40 → s.regWrite (queueBase q + o) v = let y := s.queue q
        { s with sched := { s.sched with queues := s.sched.queues.setIfInBounds q { y with drop := true, dcnt := y.dcnt + 1 } } }) ∧
      ∀ o, o < 65536 → 0x40 < o → s.regWrite (queueBase q + o) v = s) ∧
    ∀ o, o < 65536 → s.regWrite o v = s) ∧
  (∀ (s : State) (v : Word) (i : Instr) (k : Nat), s.board.bootst = 1 →
    (∃ o, (o, i) ∈ worldWrites k v ++ bounceWrites k v) ∨ i = .qstat k v → ∃ e, exec i s = .fault (.notEnabled e))) ∧
  (∀ (q : HostReq) (s : State),
    let answered (c : Option Completion) (u t : State) : Prop := t = { u with reply := c }
    let violated (w : Nat) : State := let x := s.worlds.getD w .reset
      { s with worlds := s.worlds.setIfInBounds w { x with eviol := x.eviol + 1 } }
    let trusted (w : Nat) : Prop := q.tbit = true ∧ q.tdi = w ∧ (s.worlds.getD w .reset).tdi = .run
    let acts (window : Option Nat) : Prop :=
      (q.size = 8 → q.off % 8 = 0 → q.write = false →
        Completes (.hostRegisterRequest q) s (answered (some (.value (s.regRead q.off))) s)) ∧
      (q.size = 8 → q.off % 8 = 0 → q.write = true → Completes (.hostRegisterRequest q) s (answered none (s.regStore q.off q.data false))) ∧
      (q.size ≠ 8 ∨ q.off % 8 ≠ 0 → Completes (.hostRegisterRequest q) s (answered (some .unsupported)
        (match window with | some n => if q.write ∧ q.off % 65536 < 0x40 then s.dropLaunch n false else s | none => s)))
    let page (w : Nat) (window : Option Nat) : Prop :=
      (¬trusted w → Completes (.hostRegisterRequest q) s (answered (some .unsupported) (violated w))) ∧ (trusted w → acts window)
    (s.board.bootst = 1 → Completes (.hostRegisterRequest q) s (answered none s)) ∧
    (s.board.bootst ≠ 1 →
      (regPage q.off = none → Completes (.hostRegisterRequest q) s (answered (some .unsupported) s)) ∧
      (regPage q.off = some .device → acts none) ∧
      (∀ w, regPage q.off = some (.world w) → w < 64 → page w none) ∧
      (∀ n, regPage q.off = some (.queue n) → page (s.queue n).world.toNat (some n)) ∧
      (∀ c, regPage q.off = some (.bounce c) → page (s.bounceCh c).world.toNat none)))

/-- R384, R385: bounce channels: their registers, the installation of a key, and slots: delivered in their order, STALE on a failed
check, a wrong seq or an abort, ignored while STALE; a slot of the device is written with its tag. A granule that is not staged
makes the channel STALE and counts a violation (log 79); a register that is written loses its poison (log 57). -/
def Obligations.BounceChannels : Prop :=
  ∀ (c : Nat) (v : Word) (s : State), c < 256 →
    let b := s.bounceCh c
    let x := s.worlds.getD b.world.toNat .reset
    let becomes (u : State) (y : Bounce) (t : State) : Prop := t = { u with bounce := u.bounce.setIfInBounds c y }
    let written (l : List Nat) : State := { s with mem := cleanRegs s.mem (l.map fun o => bounceBase c + o) }
    let violated (l : List Nat) (t : State) : Prop :=
      t = { written l with worlds := s.worlds.setIfInBounds b.world.toNat { x with eviol := x.eviol + 1 } }
    let stale (m : Memory) (faulted : Bool) (t : State) : Prop :=
      let y : World := { x with elink := x.elink + 1, eviol := if faulted then x.eviol + 1 else x.eviol }
      becomes { s with mem := m, worlds := s.worlds.setIfInBounds b.world.toNat y } { b with st := 2 } t
    let slots := 2 ^ (b.cfg.extractLsb' 12 4).toNat
    let size := 256 * 2 ^ (b.cfg.extractLsb' 8 4).toNat
    let base := (v.extractLsb' 16 31).toNat * 65536
    let staging : Prop := ∀ i, 65536 * i < slots * size → isLocalRam (base + 65536 * i) = true ∧
      gOwner (s.mem.granule (base + 65536 * i)) = b.world ∧
      (gMode (s.mem.granule (base + 65536 * i)) = 0 ∨ gMode (s.mem.granule (base + 65536 * i)) = 1)
    s.board.bootst ≠ 1 →
    (b.st = 0 → Completes (.bccfg c v) s (becomes (written [0]) { b with cfg := v &&& 0x3FFFFFFFFF01 })) ∧
    (b.st ≠ 0 → Completes (.bccfg c v) s (violated [0])) ∧
    (staging → Completes (.bcstg c v) s (becomes (written [8]) { b with stg := v &&& 0x7FFFFFFF0000 })) ∧
    (¬staging → Completes (.bcstg c v) s (violated [8])) ∧
    Completes (.bchc c v) s (becomes (written [0x20]) { b with hc := v }) ∧
    (b.st = 2 → Completes (.bcresync c v) s (becomes (written [0x10, 0x18]) (if b.dc ≤ v then { b with dc := v, st := 1 } else { b with st := 3 }))) ∧
    (b.st = 1 ∨ b.st = 3 → Completes (.bcresync c v) s (violated [0x10, 0x18])) ∧
    (b.st = 0 → Completes (.bcresync c v) s fun t => t = written [0x10, 0x18]) ∧
    (∀ key, b.st = 0 ∨ b.st = 3 → x.quarantined = false →
      Completes (.bcKeyInstall c key) s (becomes s { b with key := some key, st := 1, dc := 0 })) ∧
    (b.st = 1 → Completes (.bcSlot c .aborted) s (stale s.mem false)) ∧
    (b.st ≠ 1 → Completes (.bcSlot c .aborted) s fun t => t = s) ∧
    (∀ bytes key, b.key = some key → bcToHost b.cfg = false → bytes.length = size →
      (b.st ≠ 1 → Completes (.bcSlot c (.arrives bytes)) s fun t => t = s) ∧
      (b.st = 1 → b.dc.toNat < b.hc.toNat → 
        let n := ofBytes ((bytes.drop 8).take 8)
        let iv : BitVec 96 := BitVec.ofNat 8 c ++ 0#24 ++ b.dc
        let cipher := (bytes.drop 16).take n
        let text := gcmCrypt (keyOctets key) iv cipher
        let good : Prop := ofBytes (bytes.take 8) = b.dc.toNat ∧ n + 32 ≤ size ∧
          bytes.drop (size - 16) = gcmTag (keyOctets key) iv (bytes.take 16) cipher
        let ring := 0x400000000000 + (b.cfg &&& 0x3FFFFFFF0000).toNat + b.dc.toNat % slots * size
        let placed := s.mem.writeClean ring bytes
        (¬good → Completes (.bcSlot c (.arrives bytes)) s (stale placed false)) ∧
        (good → s.staged b n = false → Completes (.bcSlot c (.arrives bytes)) s (stale placed true)) ∧
        (good → s.staged b n = true → Completes (.bcSlot c (.arrives bytes)) s fun t =>
          ∃ m, becomes { s with mem := m } { b with dc := b.dc + 1 } t ∧
          let key := (b.stg &&& 0x7FFFFFFF0000).toNat + b.dc.toNat % slots * size
          ∀ k, m.read k = if key ≤ k ∧ k < key + n then text.getD (k - key) 0
            else if ring ≤ k ∧ k < ring + size then bytes.getD (k - ring) 0 else s.mem.read k))) ∧
    (∀ len key, b.key = some key → b.st = 1 → bcToHost b.cfg = true → len + 32 ≤ size → b.dc.toNat < b.hc.toNat + slots →
      s.staged b len = false → Completes (.bcSlot c (.send len)) s (stale s.mem true)) ∧
    (∀ len key, b.key = some key → b.st = 1 → bcToHost b.cfg = true → len + 32 ≤ size → b.dc.toNat < b.hc.toNat + slots →
      s.staged b len = true → Completes (.bcSlot c (.send len)) s fun t => ∃ m, becomes { s with mem := m } { b with dc := b.dc + 1 } t ∧
        let from' := (b.stg &&& 0x7FFFFFFF0000).toNat + b.dc.toNat % slots * size
        let ring := 0x400000000000 + (b.cfg &&& 0x3FFFFFFF0000).toNat + b.dc.toNat % slots * size
        let iv : BitVec 96 := BitVec.ofNat 8 c ++ 1#1 ++ 0#23 ++ b.dc
        let head := toBytes 8 b.dc.toNat ++ toBytes 8 len
        let cipher := gcmCrypt (keyOctets key) iv (s.mem.readBytes from' len)
        let tag := gcmTag (keyOctets key) iv head cipher
        s.mem.anyPoison from' len = false → ∀ k, m.read k =
          if ring ≤ k ∧ k < ring + 16 then head.getD (k - ring) 0
          else if ring + 16 ≤ k ∧ k < ring + 16 + len then cipher.getD (k - ring - 16) 0
          else if ring + size - 16 ≤ k ∧ k < ring + size then tag.getD (k - (ring + size - 16)) 0
          else s.mem.read k)

/-- R180, R188 to R190, R211, R213: alarm sources and what a level does; corrected errors are counted to the world that owns the
datum, and an uncorrectable one poisons it too: a word, a register of a hart's files, its pc, its loop nests, window limits and
profile table, a register of register space. How a poisoned register reads is log 57. -/
def Obligations.AlarmsAndErrors : Prop :=
  (∀ (s : State),
    (∀ w, 1 ≤ w → w < 64 → let x := s.worlds.getD w .reset
      Completes (.ideIntegrityFailure w) s fun t =>
        t = ({ s with worlds := s.worlds.setIfInBounds w { x with tdi := .error } } : State).raiseAlarm 2 [w]) ∧
    Completes .glitchDetect s (fun t => t = s.raiseAlarm 5 []) ∧
    Completes .debugPortAccess s (fun t => t = s.raiseAlarm 6 [])) ∧
  (∀ (src : Nat) (ws : List Nat) (s : State), src < 7 →
    let v := (s.thatum.alpol.extractLsb' (2 * src) 2).toNat
    let t := s.raiseAlarm src ws
    (v ≤ 1 → t = { s with thatum := { s.thatum with log := t.thatum.log } }) ∧
    let shut (w : Nat) : Prop := let x := t.worlds.getD w .reset
      x.quarantined = true ∧ x.keys = { line := false, mac := false, elem := false, ctx := false } ∧
      (∀ k ∈ t.sched.tasks, k.world.toNat = w → k.code ≠ 0) ∧
      ∀ q, q < 256 → (t.queue q).bound = true → (t.queue q).world.toNat = w → (t.queue q).slots = []
    (v = 2 → ∀ w ∈ ws, w < 64 → shut w) ∧ (v = 3 → ∀ w, w < 64 → shut w)) ∧
  (∀ (s : State),
    let counted (w : Nat) (u : Bool) : Vector World 64 := let x := s.worlds.getD w .reset
      s.worlds.setIfInBounds w (if u then { x with eunc := x.eunc + 1 } else { x with ecorr := x.ecorr + 1 })
    (∀ u, Completes (.eccError .firmware u) s fun t => t = { s with worlds := counted 0 u }) ∧
    (∀ k w, s.ownerOf (8 * k) = some w →
      Completes (.eccError (.word k) false) s (fun t => t = { s with worlds := counted w false }) ∧
      Completes (.eccError (.word k) true) s (fun t => t = { s with mem := t.mem, worlds := counted w true } ∧
        (∀ a, t.mem.read a = if a / 8 = k then 0 else s.mem.read a) ∧ ∀ a, t.mem.poisoned a = (a / 8 == k || s.mem.poisoned a))) ∧
    (∀ n h, s.hartNo n = some h → h.active = true →
      (∀ file num, (h.poisonReg file num).isSome = true → Completes (.eccError (.reg n file num) false) s fun t =>
        t = { s with worlds := counted h.world.toNat false }) ∧
      (∀ file num g, h.poisonReg file num = some g → Completes (.eccError (.reg n file num) true) s fun t =>
        t.hartAt h.core h.ctx = some g ∧ t = { s with cur := t.cur, others := t.others, worlds := counted h.world.toNat true }) ∧
      (∀ num u, h.poisonReg 5 num = some u → h.level.csrKey num ∈ u.pcsr) ∧
      (∀ num u, h.poisonReg 5 num = none → s.poisonShared h.world.toNat num = some u →
        Completes (.eccError (.reg n 5 num) true) s (fun t => t = u.countError h.world.toNat true) ∧
          ∀ g, u.hartAt h.core h.ctx = some g → num ∈ g.pcsr) ∧
      (∀ num, 1 ≤ num → num < 16 → ∃ g, h.poisonReg 6 num = some g ∧ g.hook (BitVec.ofNat 4 num) = 0 ∧ g.ph (BitVec.ofNat 4 num) = true) ∧
      (∀ num, 1 ≤ num → num < 32 → ∃ g, h.poisonReg 0 num = some g ∧ g.x (BitVec.ofNat 5 num) = 0 ∧ g.px (BitVec.ofNat 5 num) = true) ∧
      (∀ l file, (l, file) ∈ [(Level.user, 17), (.supervisor, 18), (.machine, 19)] → ∀ num, num < (h.bankOf l).nest.length →
        ∃ g, h.poisonReg file num = some g ∧ (g.bankOf l).nest = (h.bankOf l).nest.set num { count := 0, stop := 0, start := 0, fixed := false, lvl := 0 }) ∧
      (∀ l file, (l, file) ∈ [(Level.user, 20), (.supervisor, 21), (.machine, 22)] →
        (∃ g, h.poisonReg file 0x009 = some g ∧ l.csrKey 0x009 ∈ g.pcsr ∧ (g.bankOf l).ldest = 0) ∧
        ∀ i : Fin 6, ∃ g, h.poisonReg file (0x026 + i) = some g ∧ l.csrKey (0x026 + i) ∈ g.pcsr ∧ (g.bankOf l).lidx[i] = 0) ∧
      h.poisonReg 23 0 = some { h with csr := { h.csr with winN := 0, winW := 0 } } ∧
      (∀ num, num < 16 → h.poisonReg 24 num = some { h with ct := { h.ct with ptab := h.ct.ptab.setIfInBounds num { base := 0, q := [] } } }) ∧
      (∀ num, Completes (.eccError (.reg n 16 num) true) s fun t =>
        t = ((s.modHart h.core h.ctx fun x => { x with pc := 0 }).countPoison h 1).countError h.world.toNat true)) ∧
    (∀ off p, regPage off = some p → off % 8 = 0 →
      let w := match p with | .world w => w | .queue q => (s.queue q).world.toNat | .bounce c => (s.bounceCh c).world.toNat | .device => 0
      Completes (.eccError (.page off) false) s (fun t => t = { s with worlds := counted w false }) ∧
      Completes (.eccError (.page off) true) s fun t => t = { (s.regZero off).countError w true with mem := s.mem.poisonWord (regKey off) }) ∧
    (∀ k, isDram (64 * k) = true → gMode (s.mem.granule (64 * k)) = 1 → Completes (.eccError (.line k) true) s fun t =>
      t = s.lineFails (64 * k) (gOwner (s.mem.granule (64 * k))).toNat))

/-- R130: the field GF(4) by its codes, the columns of the check code, and its check symbols. R131, R132: a link word with one wrong
symbol is corrected, and with a slice erased the slice's symbol is found again; a flit's 60 bytes count where their CRC holds, and a
sent flit's do. R133: every slice reads the destination value of a preamble from its own two bits of six words. R131, R133 to R135:
lane lock loss, plane control, the arbiters of a frame, the comparison of digests, and the resumption of a plane. From which frame
an announced slice is erased is a free choice of the model (log 50). -/
def Obligations.LinkPlanes : Prop :=
  ((∀ a, a < 4 → gfMul 0 a = 0 ∧ gfMul a 0 = 0 ∧ gfMul 1 a = a ∧ gfMul a 1 = a) ∧
  gfMul 2 2 = 3 ∧ gfMul 2 3 = 1 ∧ gfMul 3 2 = 1 ∧ gfMul 3 3 = 2 ∧
  (let number (k : Nat) : Nat := let c := checkColumns.getD k []; 64 * c.getD 3 0 + 16 * c.getD 2 0 + 4 * c.getD 1 0 + c.getD 0 0
   let listed (c : List Nat) : Prop := c.length = 4 ∧ (∀ d ∈ c, d < 4) ∧ 2 ≤ (c.filter (· != 0)).length ∧
     ∃ j, c.getD j 0 = 1 ∧ ∀ i, j < i → c.getD i 0 = 0
   checkColumns.length = 36 ∧ (∀ j, j < 4 → checkColumns.getD (32 + j) [] = (List.range 4).map fun i => if i = j then 1 else 0) ∧
   (∀ k, k < 32 → listed (checkColumns.getD k [])) ∧ (∀ k, k < 31 → number k < number (k + 1)) ∧
   (∀ c, listed c → (∀ k, k < 32 → checkColumns.getD k [] ≠ c) → number 31 < 64 * c.getD 3 0 + 16 * c.getD 2 0 + 4 * c.getD 1 0 + c.getD 0 0) ∧
   number 0 = 5 ∧ number 1 = 6 ∧ number 2 = 7 ∧ number 3 = 17 ∧ number 18 = 65 ∧
   (∀ a b e, a < 36 → b < 36 → 1 ≤ e → e ≤ 3 → scaled e (checkColumns.getD a []) = checkColumns.getD b [] → a = b ∧ e = 1)) ∧
  (∀ w : BitVec 72, syndrome w = [0, 0, 0, 0] ↔ ∀ j, j < 4 → (w.extractLsb' (2 * (32 + j)) 2).toNat = (List.range 32).foldl
    (fun acc k => acc ^^^ gfMul (w.extractLsb' (2 * k) 2).toNat ((checkColumns.getD k []).getD j 0)) 0) ∧
  (∀ w : BitVec 72, syndrome w = [0, 0, 0, 0] → decodeLink none w = some (w, none) ∧
    ∀ k e, k < 36 → 1 ≤ e → e ≤ 3 →
      decodeLink none (w ^^^ (BitVec.ofNat 72 e <<< (2 * k))) = some (w, some k) ∧
      decodeLink (some k) (w ^^^ (BitVec.ofNat 72 e <<< (2 * k))) = some (w, none)) ∧
  (∀ ws : List (BitVec 72), ws.length = 8 → let bs := ws.flatMap fun w => toBytes 8 (w.extractLsb' 0 64).toNat
    flitBytes ws = if ofBytes (bs.drop 60) = crc32 (bs.take 60) then some (bs.take 60) else none) ∧
  (∀ d : BitVec 64, syndrome (linkWord d) = [0, 0, 0, 0] ∧ (linkWord d).extractLsb' 0 64 = d) ∧
  (∀ bs : List Byte, bs.length = 60 → (flitWords bs).length = 8 ∧ (∀ w ∈ flitWords bs, syndrome w = [0, 0, 0, 0]) ∧ flitBytes (flitWords bs) = some bs) ∧
  (∀ dst cls, dst < 512 → cls < 4 → let v := destValue dst cls
    (v.extractLsb' 0 9).toNat = dst ∧ (v.extractLsb' 9 2).toNat = cls ∧ evenOnes v = true ∧ (preamble dst cls).length = 6 ∧
    ∀ slice, slice < 36 → sliceReads slice (preamble dst cls) = v) ∧
  (evenOnes 0 = true ∧ ∀ (v : BitVec 12) (i : Nat), i < 12 → evenOnes (v ^^^ (1#12 <<< i)) = !evenOnes v)) ∧
  ((∀ (plane slice : Nat) (s : State), plane < 2 → slice < 36 → (s.plane plane).up = true →
    let becomes (x : Plane) (t : State) : Prop := t = { s with fabric := { s.fabric with planes := s.fabric.planes.setIfInBounds plane x } }
    let x := s.plane plane
    Completes (.laneLockLoss plane slice) s (fun t => ∃ frame, x.frame ≤ frame ∧ t = ((s.members.filter (· != s.device)).foldl
      (fun s d => s.transmit d 0 true (.plane (.degraded plane slice frame))) s).eraseFrom plane slice frame) ∧
    (∀ via frame, via < 2 → s.board.bootst ≠ 1 → (s.plane via).up = true → (s.plane via).quiesced = false →
      Completes (.planeControl via (.degraded plane slice frame)) s (fun t => t = s.eraseFrom plane slice frame) ∧
      Completes (.planeControl via (.resync plane frame)) s (becomes { x with frame })) ∧
    (x.erasing = [] → ∀ frame,
      (x.frame < frame → becomes { x with erasing := [(slice, frame)] } (s.eraseFrom plane slice frame)) ∧
      (frame ≤ x.frame → x.erased = none ∨ x.erased = some slice → becomes { x with erased := some slice } (s.eraseFrom plane slice frame)) ∧
      (∀ y, frame ≤ x.frame → x.erased = some y → y ≠ slice → let t := s.eraseFrom plane slice frame
        t = { s with fabric := t.fabric } ∧ (t.plane plane).up = false ∧ (∀ k ∈ t.fabric.outbox, k.plane ≠ plane) ∧
        (∀ p ∈ t.fabric.peers, plane ∉ p.parts.map (·.1) ∧ plane ∉ p.broken) ∧
        (s.board.bootst ≠ 1 → (s.plane (1 - plane)).up = true → (s.plane (1 - plane)).quiesced = false → ∀ d n m, (n, m) ∈ (s.peer d).unacked → (n, plane) ∈ (s.peer d).via →
          (s.peer d).keyed = true → ∃ k ∈ t.fabric.outbox, k.dst = d ∧ k.plane = 1 - plane ∧ k.seq = n ∧ k.msg = m ∧ k.full = true)))) ∧
  (∀ (plane : Nat) (s : State), plane < 2 → s.board.bootst ≠ 1 → (s.plane plane).up = true →
    let becomes (x : Plane) (t : State) : Prop := t = { s with fabric := { s.fabric with planes := s.fabric.planes.setIfInBounds plane x } }
    let x := s.plane plane
    (∀ reqs : List PortReq, x.quiesced = false → x.erasing = [] → (∀ r ∈ reqs, r.inp < 512 ∧ r.inp ≠ s.device) →
      let good := reqs.filter fun r => evenOnes r.dest
      Completes (.frameArbitration plane reqs) s (becomes { (List.range 512).foldl (fun x o => x.grantOut good o) x with
        frame := x.frame + 1, parity := x.parity || good.length != reqs.length })) ∧
    (∀ (r : PortReq) l p rest, x.quiesced = false → x.erasing = [] → x.grants = [] → r.inp < 512 → r.inp = s.device → evenOnes r.dest = true →
      s.fabric.outbox = l ++ p :: rest → p.plane = plane → p.msg.cls = portCls r → p.dst = portOut r →
      (∀ k ∈ l, ¬(k.plane = plane ∧ k.msg.cls = portCls r ∧ k.dst = portOut r)) → p ∉ rest →
      Completes (.frameArbitration plane [r]) s fun t => let q := { p with began := some (p.began.getD x.frame), passed := p.passed + 1 }
        t.fabric.outbox = (if r.last then l ++ rest else l ++ q :: rest) ∧
        t.fabric.sent = (if r.last then s.fabric.sent ++ [q] else s.fabric.sent) ∧ t = { s with fabric := t.fabric }) ∧
    (∀ (ds : List (BitVec 32)) (bad : Bool), x.quiesced = false → x.frame ≠ 0 → ds.length = 36 →
      let agree : Prop := bad = false ∧ x.parity = false ∧
        ∀ i j, i < 36 → j < 36 → some i ≠ x.erased → some j ≠ x.erased → ds.getD i 0 = ds.getD j 0
      (agree → Completes (.frameDigest plane ds bad) s fun t => t = { s with fabric := { s.fabric with
        planes := s.fabric.planes.setIfInBounds plane { x with agreed := some (x.frame - 1) }, sent := s.fabric.sent.filter fun k => k.plane != plane } }) ∧
      (¬agree → Completes (.frameDigest plane ds bad) s fun t => t = { s with fabric := { s.fabric with
        planes := s.fabric.planes.setIfInBounds plane { x with quiesced := true, grants := [], frame := 0, parity := false },
        peers := s.fabric.peers.map fun q => { q with parts := q.parts.filter fun e => e.1 != plane, broken := q.broken.filter (· != plane) },
        outbox := if (s.plane (1 - plane)).up && !(s.plane (1 - plane)).quiesced then
            s.fabric.outbox.map fun k => if k.plane == plane && k.began.isNone then { k with plane := 1 - plane } else k
          else s.fabric.outbox } })) ∧
    (x.quiesced = true → Completes (.planeResume plane) s fun t => (t.plane plane).quiesced = false ∧ t = { s with fabric := t.fabric } ∧
      t.fabric.sent = s.fabric.sent.filter (fun k => k.plane != plane) ∧
      (∀ k ∈ s.fabric.outbox, k.plane ≠ plane ∨ k.began = none → k ∈ t.fabric.outbox) ∧
      ∀ k ∈ s.fabric.sent ++ s.fabric.outbox, ∀ f, k.plane = plane → k.began = some f → (∀ a, x.agreed = some a → a < f) → (s.peer k.dst).keyed = true →
        ∃ r ∈ t.fabric.outbox, r.dst = k.dst ∧ r.seq = k.seq ∧ r.msg = k.msg ∧ r.full = true)) ∧
  (∀ (reqs : List PortReq) (two : Bool), let has (c : Nat) : Prop := ∃ r ∈ reqs, portCls r = c
    (has 3 → (grantClass reqs two).1 = 3) ∧ (¬has 3 → has 0 → (grantClass reqs two).1 = 0) ∧
    (¬has 3 → ¬has 0 → has 1 → has 2 → grantClass reqs two = if two then (2, false) else (1, true)) ∧
    (¬has 3 → ¬has 0 → has 1 → ¬has 2 → (grantClass reqs two).1 = 1) ∧ (¬has 3 → ¬has 0 → ¬has 1 → has 2 → (grantClass reqs two).1 = 2)) ∧
  (∀ (reqs : List PortReq) (last : Nat) (r : PortReq), rrInput reqs (some last) = some r → r ∈ reqs ∧
    ((∃ x ∈ reqs, last < x.inp) → last < r.inp ∧ ∀ x ∈ reqs, last < x.inp → r.inp ≤ x.inp) ∧
    ((∀ x ∈ reqs, x.inp ≤ last) → ∀ x ∈ reqs, r.inp ≤ x.inp)) ∧
  (∀ (x : Plane) (reqs : List PortReq) out inp cls r, x.grants.find? (fun g => g.1 == out) = some (out, inp, cls) →
    (x.passes reqs out).1 = some r → r ∈ reqs ∧ portOut r = out ∧ r.inp = inp ∧ portCls r = cls))

/-- R132, R137 to R139: flits are gathered until a packet's last one; a packet with a discarded flit is missing; a packet whose tag
fails is discarded and counted; data packets within the window are held and handed on in seq order, a duplicate is discarded, one
beyond the window is answered by NAK, one whose context is not held by NAK-CTX. A sent packet's bytes fill whole flits and begin
with its head. R137 to R139, R141: acknowledgements take packets off the sender's list; NAK and NAK-CTX also send the rest again,
each with a fresh ctr; the receiver's and the sender's timers. Each transmission takes the next ctr of its direction, under a new
key before 2^48; nothing leaves while no session is in force or no plane carries traffic. R136: the plane with fewer flits queued to
the destination. That NAK and NAK-CTX acknowledge what lies below their number is the model's choice (log 76). -/
def Obligations.Packets : Prop :=
  ((∀ (plane src : Nat) (words : List (BitVec 72)) (last : Bool) (s : State), plane < 2 → s.board.bootst ≠ 1 → (s.plane plane).up = true →
    (s.plane plane).quiesced = false → (s.plane plane).erased = none → words.length = 8 → src ∈ s.members → src ≠ s.device →
    let held := ((((s.peer src).parts.find? fun e => e.1 == plane).map (·.2)).getD [])
    let gone := fun p : Peer => { p with parts := p.parts.filter fun e => e.1 != plane, broken := p.broken.filter (· != plane) }
    let dropped (t : State) : Prop := t.peer src = gone (s.peer src) ∧ t = { s with fabric := { s.fabric with peers := t.fabric.peers } }
    (∀ bs, (∀ w ∈ words, syndrome w = [0, 0, 0, 0]) → flitBytes words = some bs →
      (last = false → Completes (.flitReceive plane src words last) s fun t => t = s.modPeer src fun p =>
        { p with parts := upsert (fun e => e.1 == plane) (fun e => (e.1, e.2 ++ bs)) (plane, []) p.parts }) ∧
      (last = true → (s.peer src).broken.contains plane = true → Completes (.flitReceive plane src words last) s dropped) ∧
      (last = true → (s.peer src).broken.contains plane = false → Completes (.flitReceive plane src words last) s fun t =>
        ∃ u : State, dropped u ∧ t = u.packetIn src (held ++ bs))) ∧
    ((∀ w ∈ words, syndrome w = [0, 0, 0, 0]) → flitBytes words = none →
      (last = false → Completes (.flitReceive plane src words last) s fun t => t = s.modPeer src fun p => { p with broken := plane :: p.broken }) ∧
      (last = true → Completes (.flitReceive plane src words last) s dropped))) ∧
  (∀ (src : Nat) (bytes : List Byte) (s : State),
    let p := s.peer src
    let seq := ofBytes (bytes.take 4)
    let ctr := BitVec.ofNat 64 (ofBytes ((bytes.drop 8).take 8))
    let body := openPacket (linkKey p.session src s.device) (linkIv src s.device ctr) bytes
    let counted : State := { s with fabric := { s.fabric with discards := s.fabric.discards + 1 } }
    (p.keyed = false ∨ body = none → p.tagFails < 16 → s.packetIn src bytes =
      ({ s with worlds := s.worlds.setIfInBounds 0 { s.worlds.getD 0 .reset with elink := (s.worlds.getD 0 .reset).elink + 1 } } : State).modPeer
        src fun q => { q with tagFails := p.tagFails + 1 }) ∧
    (∀ b, p.keyed = true → body = some b →
      (((bytes.drop 5).take 3).all (· == 0) = false → s.packetIn src bytes = counted) ∧
      (((bytes.drop 5).take 3).all (· == 0) = true →
        (bytes.getD 4 0 = 0 → s.packetIn src bytes = s.dataPacket src seq b) ∧
        (bytes.getD 4 0 = 1 → s.handle src (.ack seq) = some (s.packetIn src bytes)) ∧
        (bytes.getD 4 0 = 2 → s.handle src (.nak seq) = some (s.packetIn src bytes)) ∧
        (bytes.getD 4 0 = 3 → s.handle src (.nakCtx seq) = some (s.packetIn src bytes)) ∧
        (4 ≤ (bytes.getD 4 0).toNat → s.packetIn src bytes = counted)))) ∧
  (∀ (src seq : Nat) (body : List Byte) (s : State), seq < 2 ^ 32 → (s.peer src).next < 2 ^ 32 →
    let p := s.peer src
    let ahead := (seq + 2 ^ 32 - p.next) % 2 ^ 32
    let kept := s.modPeer src fun q => { q with skip := false, waiting := [(seq, body)] }
    let done (t : State) : Prop := s.dataPacket src seq body = t.sendWack src
    (2 ^ 31 ≤ ahead → s.dataPacket src seq body = s) ∧
    (256 ≤ ahead → ahead < 2 ^ 31 → s.dataPacket src seq body = s.transmit src p.next true (.nak p.next)) ∧
    (p.skip = true → 1 ≤ ahead → ahead ≤ 255 → s.dataPacket src seq body = s) ∧
    (p.skip = false → 1 ≤ ahead → ahead ≤ 255 → (∀ w ∈ p.waiting, w.1 ≠ seq ∧ w.1 ≠ p.next) →
      done (s.modPeer src fun q => { q with skip := false, waiting := q.waiting ++ [(seq, body)] })) ∧
    (ahead = 0 → p.waiting = [] →
      (∀ m u t, kept.decodeBody src seq body = .msg u m → (u.passNext src).handOn src m = some t → (t.peer src).waiting = [] → done t) ∧
      (∀ w, kept.decodeBody src seq body = .discard w → done
        (({ kept with fabric := { kept.fabric with discards := s.fabric.discards + 1 },
                      worlds := kept.worlds.setIfInBounds w { s.worlds.getD w .reset with elink := (s.worlds.getD w .reset).elink + 1 } } : State).passNext src)) ∧
      (kept.decodeBody src seq body = .noContext → done
        ((kept.modPeer src fun q => { q with waiting := [], skip := true }).transmit src seq true (.nakCtx seq))))) ∧
  (∀ (src : Nat) (s : State), (s.peer src).next < 2 ^ 32 →
    let p := s.peer src
    let u := s.passNext src
    u = { s with fabric := u.fabric } ∧ (u.peer src).next = (p.next + 1) % 2 ^ 32 ∧
    (u.peer src).unsent = (if 16 ≤ p.unsent + 1 then 0 else p.unsent + 1) ∧
    (p.unsent + 1 < 16 → u.fabric.outbox = s.fabric.outbox) ∧
    (16 ≤ p.unsent + 1 → p.keyed = true → ∀ plane, s.planeFor src = some plane → ∃ k, u.fabric.outbox = s.fabric.outbox ++ [k] ∧ k.dst = src ∧
      k.plane = plane ∧ k.seq = p.next ∧ k.msg = .ack p.next)) ∧
  (∀ (src : Nat) (p : Packet), p.seq < 2 ^ 32 → p.ctr < 2 ^ 48 → let bs := p.bytes src
    bs.length = 60 * p.msg.flits ∧ ofBytes (bs.take 4) = p.seq ∧ (bs.getD 4 0).toNat = p.msg.kind ∧
    ((bs.drop 5).take 3).all (· == 0) = true ∧ ofBytes ((bs.drop 8).take 8) = p.ctr)) ∧
  ((∀ (src seq : Nat) (s : State), src ∈ s.members → src ≠ s.device → (s.peer src).keyed = true → s.board.bootst ≠ 1 → seq < 2 ^ 32 →
    let newer (n : Nat) (u : Nat) : Bool := decide (2 ^ 31 ≤ (n + 2 ^ 32 - u) % 2 ^ 32)
    let acked (n : Nat) : State := s.modPeer src fun p =>
      { p with unacked := p.unacked.filter fun u => newer n u.1, via := p.via.filter fun u => newer n u.1 }
    let before := (seq + 2 ^ 32 - 1) % 2 ^ 32
    let again (v : State) (n : Nat) : State :=
      ((v.peer src).unacked.filter fun u => decide ((u.1 + 2 ^ 32 - n) % 2 ^ 32 < 2 ^ 31)).foldl (fun v u => v.transmit src u.1 true u.2) v
    Completes (.ack src seq) s (fun t => t = acked seq) ∧
    Completes (.nak src seq) s (fun t => t = again (acked before) seq) ∧
    Completes (.nakCtx src seq) s (fun t => t = again (acked before) seq) ∧
    ((s.peer src).next < 2 ^ 32 → Completes (.ackTimer src) s fun t => let n := ((s.peer src).next + 2 ^ 32 - 1) % 2 ^ 32
      t = (s.modPeer src fun p => { p with unsent := 0 }).transmit src n true (.ack n)) ∧
    ((s.peer src).waiting ≠ [] → (∀ w ∈ (s.peer src).waiting, w.1 ≠ (s.peer src).next) →
      Completes (.gapTimer src) s fun t => t = s.transmit src (s.peer src).next true (.nak (s.peer src).next)) ∧
    (∀ u r, (s.peer src).unacked = u :: r → Completes (.resendTimer src) s fun t => t = again s u.1)) ∧
  (∀ (dst n : Nat) (m : Msg) (s : State), let p := s.peer dst
    (p.keyed = false ∨ s.planeFor dst = none → s.transmit dst n true m = s) ∧
    (∀ plane, p.keyed = true → s.planeFor dst = some plane → ∃ k, (s.transmit dst n true m).fabric.outbox = s.fabric.outbox ++ [k] ∧
      k.dst = dst ∧ k.plane = plane ∧ k.began = none ∧ k.passed = 0 ∧ k.seq = n ∧ k.msg = m ∧
      (p.ctr + 1 < 2 ^ 48 → k.session = p.session ∧ k.ctr = p.ctr ∧ ((s.transmit dst n true m).peer dst).ctr = p.ctr + 1) ∧
      (2 ^ 48 ≤ p.ctr + 1 → k.session = p.session + 1 ∧ k.ctr = 0 ∧ ((s.transmit dst n true m).peer dst).ctr = 1))) ∧
  (∀ (dst : Nat) (s : State), let runs (i : Nat) : Prop := (s.plane i).up = true ∧ (s.plane i).quiesced = false ∧ s.board.bootst ≠ 1
    let queued (i : Nat) : Nat := ((s.fabric.outbox.filter fun p => p.dst == dst && p.plane == i).map fun p => p.msg.flits - p.passed).sum
    (runs 0 → runs 1 → s.planeFor dst = some (if queued 1 < queued 0 then 1 else 0)) ∧
    (runs 0 → ¬runs 1 → s.planeFor dst = some 0) ∧ (¬runs 0 → runs 1 → s.planeFor dst = some 1) ∧ (¬runs 0 → ¬runs 1 → s.planeFor dst = none)))

/-- R87, R143, R144, R170, R176, R178, R188, R189, R212: far writes, reads, atomics and claims at their home: performed and
answered, refused with WORLD and counted, or left without an answer where a word is poisoned; an atomic seen before is answered from
the cache, one older than the session or than the full cache with REPLAY-UNKNOWN; claims go element by element up to the first that
is refused or finds a unit set. That a refusal reaches a writer in its acknowledgement is the model's choice (log 36). -/
def Obligations.FarRequestsAtHome : Prop :=
  (∀ (src : Nat) (a : WackMsg) (s : State), let becomes (v : State) (a : Option WackMsg) : State := v.modPeer src fun p => { p with ack := a }
    ((s.peer src).ack = none → s.noteWack src a = becomes s (some a) ∧ s.sendWack src = s) ∧
    ∀ b, (s.peer src).ack = some b →
      s.sendWack src = (becomes s none).send src (.wack b) ∧
      ((b.seq + 1) % 2 ^ 32 = a.seq → b.refused = a.refused → b.world = a.world →
        s.noteWack src a = becomes s (some { a with count := b.count + a.count })) ∧
      (¬((b.seq + 1) % 2 ^ 32 = a.seq ∧ b.refused = a.refused ∧ b.world = a.world) → s.noteWack src a = becomes (s.sendWack src) (some a))) ∧
  ∀ (src : Nat) (s : State), src ∈ s.members → src ≠ s.device → (s.peer src).keyed = true → s.board.bootst ≠ 1 → (s.peer src).ack = none →
    let u := s.passNext src
    let erased (tag : FarTag) (a : Nat) : Bool := (u.homeTarget tag a).erased u (BitVec.ofNat 6 tag.world)
    let moved (v : State) (a n : Nat) (wr : Bool) : State := v.modPeer src fun p =>
      { p with moving := p.moving.filter fun m => !(m.2.2 == wr && overlap a n m.2.1 4) }
    (∀ q : WrReq, q.seq = (s.peer src).next → u.rekeyBlocks src (.wr q) = false →
      let ack (v : State) (c : Nat) : State := ((moved v q.addr q.data.length true).modPeer src fun p => { p with ack := none }).send src
        (.wack { seq := q.seq, count := 1, refused := c, world := q.tag.world })
      (u.homeCheck q.tag q.addr = 0 → erased q.tag q.addr = false → Completes (.wr src q) s fun t => ∃ m, t = ack { u with mem := m } 0 ∧
        ∀ k, m.read k = if q.addr ≤ k ∧ k < q.addr + q.data.length then q.data.getD (k - q.addr) 0 else u.mem.read k) ∧
      (u.homeCheck q.tag q.addr = 0 → erased q.tag q.addr = true → Completes (.wr src q) s fun t => t = ack (u.violation q.tag.world) 0) ∧
      (∀ c, u.homeCheck q.tag q.addr = c → c ≠ 0 → Completes (.wr src q) s fun t =>
        t = (((moved (u.violation q.tag.world) q.addr q.data.length true).modPeer src fun p =>
          { p with ack := some { seq := q.seq, count := 1, refused := c, world := q.tag.world } }).countRefused src).sendWack src)) ∧
    (∀ q : RdReq, u.rekeyBlocks src (.rd q) = false → let v := moved u q.addr q.len false
      (u.homeCheck q.tag q.addr = 0 → u.mem.anyPoison q.addr q.len = false → erased q.tag q.addr = false → Completes (.rd src q) s fun t =>
        t = v.send src (.rdr { rid := q.rid, res := .data (u.mem.readBytes q.addr q.len), world := q.tag.world })) ∧
      (u.homeCheck q.tag q.addr = 0 → u.mem.anyPoison q.addr q.len = true ∨ erased q.tag q.addr = true → Completes (.rd src q) s fun t => t = v) ∧
      (∀ c, u.homeCheck q.tag q.addr = c → c ≠ 0 → Completes (.rd src q) s fun t =>
        t = ((v.violation q.tag.world).send src (.rdr { rid := q.rid, res := .world c, world := q.tag.world })).countRefused src)) ∧
    (∀ q : AmoReq, u.rekeyBlocks src (.amo q) = false →
      let p := u.peer src
      let c := u.homeCheck q.tag q.addr
      let fin (v : State) : State := if c = 0 then v else v.countRefused src
      let answer (v : State) (r : AmoResult) : State := fin (v.send src (.amor { rid := q.rid, res := r, world := q.tag.world }))
      let done (v : State) (r : AmoResult) : State := answer (v.modPeer src fun p => { p with cache := ((q.rid, r) :: p.cache).take 64 }) r
      let fresh : Prop := 0 ≤ (q.rid - p.base).toInt ∧ (∀ e ∈ p.cache, e.1 ≠ q.rid) ∧ (p.cache.length < 64 ∨ ∃ e ∈ p.cache, 0 < (q.rid - e.1).toInt)
      ((q.rid - p.base).toInt < 0 → Completes (.amo src q) s fun t => t = answer u .unknown) ∧
      (∀ e, 0 ≤ (q.rid - p.base).toInt → p.cache.find? (fun e => e.1 == q.rid) = some e → Completes (.amo src q) s fun t => t = answer u e.2) ∧
      (0 ≤ (q.rid - p.base).toInt → 64 ≤ p.cache.length → (∀ e ∈ p.cache, (q.rid - e.1).toInt < 0) →
        Completes (.amo src q) s fun t => t = answer u .unknown) ∧
      (fresh → c ≠ 0 → Completes (.amo src q) s fun t => t = done (u.violation q.tag.world) (.world c)) ∧
      (fresh → c = 0 → u.mem.anyPoison q.addr 8 = true ∨ erased q.tag q.addr = true → Completes (.amo src q) s fun t => t = u) ∧
      (fresh → c = 0 → u.mem.anyPoison q.addr 8 = false → erased q.tag q.addr = false →
        (q.tag.enc = 2 → (u.mem.unitWritten q.addr = true ∨ u.mem.unitWritten (q.addr + 4) = true) →
          Completes (.amo src q) s fun t => t = done u .keystream) ∧
        (q.tag.enc ≠ 2 → let old : Word := BitVec.ofNat 64 (ofBytes (u.mem.readBytes q.addr 8))
          let new := amoResult q.op old q.arg q.cmp
          Completes (.amo src q) s fun t => ∃ m, t = done { u with mem := m } (.old old) ∧
            ∀ k, m.read k = if q.addr ≤ k ∧ k < q.addr + 8 then new.extractLsb' (8 * (k - q.addr)) 8 else u.mem.read k))) ∧
    (∀ q : ClmReq, u.rekeyBlocks src (.clm q) = false → 0 < q.group →
      let bad (x : Nat × Bool) : Bool := u.homeCheck q.tag x.1 != 0 || (x.2 && u.mem.unitWritten x.1)
      let taken (i : Nat) : Bool := (List.range ((i / q.group + 1) * q.group)).all fun j => (q.units[j]?).all fun x => !bad x
      let refused : Bool := q.units.any fun x => u.homeCheck q.tag x.1 != 0
      Completes (.clm src q) s fun t => ∃ (m : Memory) (us : List (UnitResult × Word × Half)),
        let v : State := { (if refused then u.violation q.tag.world else u) with mem := m, nextOp := u.nextOp + 1 }
        let w := (v.modPeer src fun p => { p with moving := p.moving ++ (movingUnits q us).map fun x => (u.nextOp, x.1, x.2) }).send src
          (.clmr { rid := q.rid, units := us, world := q.tag.world })
        t = (if refused then w.countRefused src else w) ∧ m = { u.mem with written := m.written } ∧ us.length = q.units.length ∧
        (∀ i x, q.units[i]? = some x → us[i]? = some (if u.homeCheck q.tag x.1 ≠ 0 then (.refused (u.homeCheck q.tag x.1), 0, 0) else
          (if x.2 && taken i then .claimed else if u.mem.unitWritten x.1 then .set else .clear,
            (u.homeTarget q.tag x.1).nonce, (u.homeTarget q.tag x.1).gen))) ∧
        ∀ a, m.unitWritten a = true ↔ (u.mem.unitWritten a = true ∨ ∃ i x, q.units[i]? = some x ∧ x.2 = true ∧ taken i = true ∧ x.1 / 4 = a / 4)) ∧
    (∀ (tag : FarTag) (a : Nat), let g := u.mem.granule a
      let open' : Prop := isLocalRam a = true ∧ ((gOwner g).toNat = tag.world ∨ gShared g = true) ∧ (gOwner g).toNat = tag.lworld
      let fits : Prop := gMode g = tag.enc ∧ (tag.enc = 2 → (regionOf u (BitVec.ofNat 6 tag.world) a).isSome = true)
      (open' → fits → u.homeCheck tag a = 0) ∧ (¬open' → u.homeCheck tag a = 3) ∧ (open' → ¬fits → u.homeCheck tag a = 4))

/-- R142 to R144, R149 to R152, R155 to R159, R170, R326: responses give their requests their answers, write acknowledgements end
writes or bring their refusal (log 36), and sleeve, tailoring and barrier messages are handled when they are handed on. -/
def Obligations.MessagesHandedOn : Prop :=
  ∀ (src : Nat) (s : State), src ∈ s.members → src ≠ s.device → (s.peer src).keyed = true → s.board.bootst ≠ 1 → (s.peer src).ack = none →
    let u := s.passNext src
    let answered (mine : FarReq → Bool) (a : FarAnswer) (t : State) : Prop := let open' (r : FarReq) : Bool := r.dev == src && r.answer.isNone && mine r
      t = { u with farReqs := (u.farReqs.filter fun r => !(r.core == 768 && open' r)).map fun r => if open' r then { r with answer := some a } else r }
    (∀ q : RdReply, Completes (.rdr src q) s (answered (fun r => (match r.ask with | .read _ _ => true | _ => false) && r.rid == q.rid)
      (match q.res with | .data bs => .data bs | .world c => .fail (BitVec.ofNat 8 c) 0x06))) ∧
    (∀ q : AmoReply, Completes (.amor src q) s (answered (fun r => (match r.ask with | .amo _ _ => true | _ => false) && r.rid == q.rid.toNat)
      (match q.res with | .old v => .old v | .unknown => .fail 13 0x05 | .world c => .fail (BitVec.ofNat 8 c) 0x06 | .keystream => .fail 0 0x09))) ∧
    (∀ q : ClmReply, Completes (.clmr src q) s (answered (fun r => (match r.ask with | .claim _ => true | _ => false) && r.rid == q.rid)
      (.claims q.units))) ∧
    (∀ q : WackMsg, let done (w : Nat × Nat) : Bool := w.1 == src && decide ((q.seq + 2 ^ 32 - w.2) % 2 ^ 32 < q.count)
      (q.refused = 0 → Completes (.wack src q) s fun t => ∃ v : State, t = v.settleAcks ∧
        v.peer src = { u.peer src with writes := (u.peer src).writes.filter fun w => !done (src, w.1) } ∧
        v = { u with fabric := { u.fabric with peers := v.fabric.peers }, ops := u.ops.map fun (o : Op) => { o with kind := o.kind.acked done } }) ∧
      (∀ (o : Op) ws va h, q.refused ≠ 0 → u.ops = [o] → o.kind = .farStore ws va → ws ≠ [] → (∀ w ∈ ws, done w = true) → u.hartAt o.core o.ctx = some h →
        Completes (.wack src q) s fun t => t.ops = [] ∧ t.hartAt o.core o.ctx = some { h with lateAck := h.lateAck ++
          [{ lvl := o.lvl, hook := o.hook, trap := { code := 0x06, cause := BitVec.ofNat 8 q.refused, far := true, store := true, detail := o.va } }] })) ∧
    (∀ (v : State) (sl : SleeveId) (m : SleeveCtl), (v.peer sl.home).lost = false → v.toHome sl m = v.send sl.home (.slc m)) ∧
    (∀ q : SleeveItem, let passed (v : State) : State := if q.cuff.isSome then v else v.send src (.slc (.landed q.sl q.seq))
      let landed (v : State) : State := if q.cuff.isSome then v.toHome q.sl (.landed q.sl q.seq) else v.send src (.slc (.landed q.sl q.seq))
      let takes (f : Forward) : Prop := f.sl = q.sl ∧ ∀ n, f.upto = some n → q.seq < n
      (∀ e, u.endOf q.sl true = some e → Completes (.sli src q) s fun t =>
        t = landed (u.modEnd q.sl true fun e => { e with buffer := e.buffer ++ [q], loc := src })) ∧
      (u.endOf q.sl true = none → (∀ f ∈ u.sleeves.forwards, ¬takes f) → Completes (.sli src q) s fun t => t = landed (u.loseCuffs [q])) ∧
      (∀ l f r, u.endOf q.sl true = none → u.sleeves.forwards = l ++ f :: r → takes f → (∀ g ∈ l, ¬takes g) → f ∉ r → Completes (.sli src q) s fun t =>
        t = passed (({ u with sleeves := { u.sleeves with forwards := l ++ { f with items := f.items ++ [q] } :: r } } : State).forward q.sl f.gen)) ∧
      (∀ (f : Forward) d, u.endOf q.sl true = none → u.sleeves.forwards = [f] → takes f → f.dest = some d → f.items = [] → f.upto = none →
        Completes (.sli src q) s fun t => t = passed
          { u.send d (.sli q) with sleeves := { u.sleeves with forwards := [{ f with sent := q.seq :: f.sent }] } })) ∧
    (∀ q : SleeveCtl, Completes (.slc src q) s fun t => t = u.sleeveCtl src q) ∧
    (∀ q : TailorRec, Completes (.tlr src q) s fun t => t = u.recordArrives src q ∧
      (u.groupOf q.gid q.epoch q.mmap = none → t = u) ∧
      (∀ g, u.groupOf q.gid q.epoch q.mmap = some g → g.phase = 3 ∨ g.due.contains (q.src, q.idx) = false → t = u)) ∧
    (∀ q : TailorCtl, Completes (.tlc src q) s fun t => t = u.tailorCtl src q ∧
      (∀ gid ep mm idx w, q = .outcome gid ep mm idx w → t = u.modGroup gid ep mm fun g => { g with out := g.out.filter (· != idx) }) ∧
      ∀ gid ep mm w, q = .ended gid ep mm 2 w → (∀ g, u.groupOf gid ep mm = some g → g.op = none) →
        t = { u with groups := u.groups.filter fun g => !g.is gid ep mm }) ∧
    (∀ w id n op hart, let m : BarMsg := .arrive w id n op hart
      Completes (.barMessage src m) s fun t => t = (u.modPeer src fun p => { p with bars := p.bars ++ [m] }).barProgress) ∧
    (∀ (v : State) (n : Nat), let next := v.fabric.peers.findSome? fun p => p.bars.findSome? fun m => v.barTake p.dev m
      v.barRetry 0 = v ∧ (next = none → v.barRetry (n + 1) = v) ∧ ∀ t, next = some t → v.barRetry (n + 1) = t.barRetry n) ∧
    (∀ w op, Completes (.barMessage src (.close w op)) s fun t => ∃ v : State, t = v.barProgress ∧ v = { u with ops := u.ops.map fun (o : Op) =>
      if o.id == op then (match o.kind with | .bar w sc _ _ => { o with kind := .bar w sc true true } | _ => o) else o })

/-- R87, R138, R144, R145, R147, R152, R178, R179: retries and timeouts of far requests, key updates and new sessions of a pair, and
loss of contact. What a new session carries on, and that a peer's claims are given up, are the model's choices (logs 51, 80). -/
def Obligations.Sessions : Prop :=
  (∀ (id : Nat) (s : State), let more (w : Nat) : World := { s.worlds.getD w .reset with elink := (s.worlds.getD w .reset).elink + 1 }
    let link (w : Nat) : Vector World 64 := s.worlds.setIfInBounds w (more w)
    (∀ r, s.farReqs.find? (fun r => r.id == id && r.isAmo && r.answer.isNone) = some r → Completes (.atomicRetry id) s fun t => t = s.send r.dev r.msg) ∧
    (∀ r h, s.farReqs.find? (fun r => r.id == id && r.answer.isNone) = some r → r.core ≠ 768 → s.hartAt r.core (r.ctx % 8) = some h →
      Completes (.deliveryTimeout id) s fun t =>
        t = { s with worlds := link h.world.toNat,
                     farReqs := s.farReqs.map fun x => if x.id == r.id then { x with answer := some (.fail 12 0x05) } else x }) ∧
    (∀ (r : FarReq) q, s.farReqs.find? (fun r => r.id == id && r.answer.isNone) = some r → r.core = 768 → s.hartAt 768 (r.ctx % 8) = none →
      r.msg = .amo q → q.tag.world < 64 → Completes (.deliveryTimeout id) s fun t =>
        t = { s with worlds := link q.tag.world, farReqs := s.farReqs.filter fun x => x.id != r.id }) ∧
    (∀ ws va h o, (∀ x ∈ s.farReqs, ¬(x.id = id ∧ x.answer = none)) → s.ops = [o] → o.id = id → o.kind = .farStore ws va → ws ≠ [] →
      s.hartAt o.core o.ctx = some h → Completes (.deliveryTimeout id) s fun t => t.worlds = link h.world.toNat ∧ t.ops = [] ∧
        t.hartAt o.core o.ctx = some { h with lateAck := h.lateAck ++
          [{ lvl := o.lvl, hook := o.hook, trap := { code := 0x05, cause := 12, far := true, store := true, detail := o.va } }] }) ∧
    ((∀ x ∈ s.farReqs, ¬(x.id = id ∧ x.answer = none)) → s.ops = [] → (∃ p ∈ s.fabric.peers, ∃ m ∈ p.moving, m.1 = id) →
      Completes (.deliveryTimeout id) s fun t => t = { s with fabric := { s.fabric with
        peers := s.fabric.peers.map fun p => { p with moving := p.moving.filter fun m => m.1 != id } } })) ∧
  (∀ (peer : Nat) (s : State), peer ∈ s.members → peer ≠ s.device →
    let p := s.peer peer
    (p.keyed = true → Completes (.sessionKeyUpdate peer) s fun t => t = s.modPeer peer fun p => { p with session := p.session + 1, ctr := 0 }) ∧
    Completes (.contactLoss peer) s (fun t => t = (s.modPeer peer fun p => { p with lost := true }).orphanEnds peer) ∧
    ∀ (next : BitVec 16) (meas : List Byte), (∀ e ∈ p.cache, 0 < (next - e.1).toInt) →
      (meas ∉ s.accepted → Completes (.sessionReestablish ⟨peer, next, meas⟩) s fun t => t = s.modPeer peer fun p => { p with keyed := false }) ∧
      (let sent := p.writes.map (·.2) ++ ((s.farReqs.filter fun r => r.dev == peer && r.answer.isNone).map (·.msg)) ++
          ((p.unacked.filter fun u => u.2.carriesOver).map (·.2))
       meas ∈ s.accepted → sent.length < 2 ^ 32 → Completes (.sessionReestablish ⟨peer, next, meas⟩) s fun t => let q := t.peer peer
        q.keyed = true ∧ q.lost = false ∧ q.session = p.session + 1 ∧ q.next = 0 ∧ q.waiting = [] ∧ q.streams = [] ∧ q.cache = [] ∧
        q.base = next ∧ q.told = p.rid ∧ q.rid = p.rid ∧ q.moving = [] ∧ q.ack = none ∧ q.sendSeq = sent.length ∧ q.unacked.length = sent.length ∧
        (∀ i : Nat, i < sent.length → (q.unacked.getD i (0, .ack 0)).1 = i ∧
          (q.unacked.getD i (0, .ack 0)).2 = match sent.getD i (.ack 0) with | .wr w => .wr { w with seq := i } | m => m) ∧
        (∀ k ∈ t.fabric.outbox, k.dst = peer → k.session = p.session + 1) ∧ (∀ k ∈ t.fabric.sent, k.dst ≠ peer) ∧
        t.mem = s.mem ∧ t.farReqs = s.farReqs ∧ t.ops.map (·.id) = s.ops.map (·.id)))
end

