-- ==== Sys2Proof/Laws/Aes.lean ====
section
/-! SUPPORT. The block cipher keeps lengths, and a text that was sealed under a key opens to itself. -/
namespace Sys2Proof.Laws
open Sys2Proof.Machine

theorem xorBytes_length (a b : List Byte) : (xorBytes a b).length = min a.length b.length := by simp [xorBytes]
theorem toBytes_length (n v : Nat) : (toBytes n v).length = n := by
  induction n generalizing v with
  | zero => rfl
  | succ n ih => simp [toBytes, ih]
theorem beBytes_length (n v : Nat) : (beBytes n v).length = n := by simp [beBytes, toBytes_length]
theorem turnedRows_length (b : List Byte) : (turnedRows b).length = 16 := by simp [turnedRows]
theorem mixedRows_length (b : List Byte) : (mixedRows b).length = 16 := by simp [mixedRows]

/-- Every word of the expanded key has four bytes, and there are as many as asked for. -/
theorem keyWords_length (n i rc : Nat) (ws : List (List Byte)) (h8 : 8 ≤ ws.length) (h : ∀ w ∈ ws, w.length = 4) :
    (keyWords n i rc ws).length = ws.length + n ∧ ∀ w ∈ keyWords n i rc ws, w.length = 4 := by
  induction n generalizing i rc ws with
  | zero => exact ⟨rfl, h⟩
  | succ n ih =>
    unfold keyWords
    have l7 : (ws.getD 7 []).length = 4 := by
      rw [List.getD_eq_getElem _ _ (by omega)]
      exact h _ (List.getElem_mem ..)
    have l0 : (ws.getD 0 []).length = 4 := by
      rw [List.getD_eq_getElem _ _ (by omega)]
      exact h _ (List.getElem_mem ..)
    dsimp only
    generalize hw : xorBytes (ws.getD 7 []) (if i % 8 = 0 then _ else _) = w
    have lw : w.length = 4 := by
      rw [← hw, xorBytes_length, l7]
      repeat' split
      all_goals simp only [xorBytes_length, List.length_map, List.length_append, List.length_drop, List.length_take, l0, List.length_cons, List.length_nil]
      all_goals rfl
    obtain ⟨a, b⟩ := ih (i + 1) (if i % 8 = 0 then mulByte 8 rc 2 else rc) (w :: ws) (by simp; omega) (by
      intro x hx
      rcases List.mem_cons.1 hx with rfl | hx
      · exact lw
      · exact h x hx)
    exact ⟨by rw [a]; simp; omega, b⟩
theorem flatten_length4 (l : List (List Byte)) (h : ∀ w ∈ l, w.length = 4) : l.flatten.length = 4 * l.length := by
  induction l with
  | nil => rfl
  | cons w r ih => simp [h w (by simp), ih fun x hx => h x (by simp [hx])]; omega
theorem roundKeys_length (key : List Byte) (hk : key.length = 32) :
    (roundKeys key).length = 15 ∧ ∀ k ∈ roundKeys key, k.length = 16 := by
  unfold roundKeys
  generalize hf : ((List.range 8).map fun i => (key.drop (4 * i)).take 4) = first
  have lf : ∀ w ∈ first.reverse, w.length = 4 := by
    intro w hw
    rw [List.mem_reverse, ← hf, List.mem_map] at hw
    obtain ⟨i, hi, rfl⟩ := hw
    have := List.mem_range.1 hi
    simp [hk]
    omega
  have l8 : first.reverse.length = 8 := by rw [← hf]; simp
  obtain ⟨a, b⟩ := keyWords_length 52 8 1 first.reverse (by omega) lf
  refine ⟨by simp, fun k hk => ?_⟩
  obtain ⟨r, hr, rfl⟩ := List.mem_map.1 hk
  have := List.mem_range.1 hr
  rw [flatten_length4]
  · simp [a, l8]
    omega
  · intro w hw
    exact b w (List.mem_reverse.1 (List.mem_of_mem_drop (List.mem_of_mem_take hw)))
theorem aesRounds_length (ks : List (List Byte)) (blk : List Byte) (hk : ∀ k ∈ ks, k.length = 16) (hb : blk.length = 16) :
    (aesRounds ks blk).length = 16 := by
  induction ks generalizing blk with
  | nil => exact hb
  | cons k r ih =>
    have lk := hk k (by simp)
    cases r with
    | nil => simp [aesRounds, xorBytes_length, turnedRows_length, lk]
    | cons k' r' =>
      unfold aesRounds
      exact ih _ (fun x hx => hk x (by simp [hx])) (by simp [xorBytes_length, mixedRows_length, lk])
/-- A block stays a block. -/
theorem aes_length (key blk : List Byte) (hk : key.length = 32) (hb : blk.length = 16) : (aes key blk).length = 16 := by
  obtain ⟨a, b⟩ := roundKeys_length key hk
  unfold aes
  cases h : roundKeys key with
  | nil => simp [h] at a
  | cons k ks =>
    rw [h] at b
    exact aesRounds_length ks _ (fun x hx => b x (by simp [hx])) (by simp [xorBytes_length, hb, b k (by simp)])
theorem aesUnder_length (key blk : List Byte) (hk : key.length = 32) (hb : blk.length = 16) :
    (aesUnder (roundKeys key) blk).length = 16 := aes_length key blk hk hb
theorem keyOctets_length (n : Nat) : (keyOctets n).length = 32 := toBytes_length ..

theorem stream_length (key : List Byte) (iv : BitVec 96) (n : Nat) (hk : key.length = 32) :
    ((List.range n).flatMap fun i => aesUnder (roundKeys key) (beBytes 12 iv.toNat ++ beBytes 4 (2 + i))).length = 16 * n := by
  induction n with
  | zero => rfl
  | succ n ih =>
    rw [List.range_succ, List.flatMap_append, List.length_append, ih]
    simp [aesUnder_length _ _ hk (show (beBytes 12 iv.toNat ++ beBytes 4 (2 + n)).length = 16 by simp [beBytes_length])]
    omega
theorem gcmCrypt_length (key : List Byte) (iv : BitVec 96) (text : List Byte) (hk : key.length = 32) :
    (gcmCrypt key iv text).length = text.length := by
  unfold gcmCrypt
  rw [xorBytes_length, stream_length _ _ _ hk]
  unfold cdiv
  omega
theorem xorBytes_twice (a s : List Byte) (h : a.length ≤ s.length) : xorBytes (xorBytes a s) s = a := by
  induction a generalizing s with
  | nil => rfl
  | cons x r ih =>
    cases s with
    | nil => simp at h
    | cons y t =>
      have := ih t (by simpa using h)
      simp only [xorBytes, List.zipWith_cons_cons, List.cons.injEq] at this ⊢
      exact ⟨by rw [BitVec.xor_assoc, BitVec.xor_self, BitVec.xor_zero], this⟩
/-- Crypting twice gives the text back. -/
theorem gcmCrypt_twice (key : List Byte) (iv : BitVec 96) (text : List Byte) (hk : key.length = 32) :
    gcmCrypt key iv (gcmCrypt key iv text) = text := by
  have hl := gcmCrypt_length key iv text hk
  unfold gcmCrypt at hl ⊢
  rw [hl]
  exact xorBytes_twice _ _ (by rw [stream_length _ _ _ hk]; unfold cdiv; omega)
theorem gcmTag_length (key : List Byte) (iv : BitVec 96) (aad c : List Byte) (hk : key.length = 32) : (gcmTag key iv aad c).length = 16 := by
  unfold gcmTag
  rw [xorBytes_length, beBytes_length, aes_length _ _ hk (by simp [beBytes_length])]
  rfl
/-- What was sealed under a key opens to itself (R137, R207, R384). -/
theorem open_seal (key : Nat) (iv : BitVec 96) (aad text : List Byte) :
    let c := gcmCrypt (keyOctets key) iv text
    sealText key iv aad text = c ++ gcmTag (keyOctets key) iv aad c ∧
      openText key iv aad c (gcmTag (keyOctets key) iv aad c) = some text := by
  refine ⟨rfl, ?_⟩
  unfold openText
  rw [if_pos (by simp), gcmCrypt_twice _ _ _ (keyOctets_length key)]

end Sys2Proof.Laws
end

