-- ==== Sys2Proof/Laws/Fabric.lean ====
section
/-! SUPPORT. What sending leaves as it was: a packet, a message and a request change the fabric, the device's messages to itself and the
requests on their way, and nothing else. -/
namespace Sys2Proof.Laws
open Sys2Proof.Machine

/-- A packet that is queued changes the fabric alone. -/
theorem transmit_with (s : State) (dst seq : Nat) (full : Bool) (m : Msg) : ∃ f, s.transmit dst seq full m = { s with fabric := f } := by
  unfold State.transmit
  split
  · exact ⟨_, rfl⟩
  · split
    · exact ⟨_, rfl⟩
    · exact ⟨_, rfl⟩
/-- A message to the device itself goes to its inbox and nowhere else. -/
theorem send_self (s : State) (m : Msg) : s.send s.device m = { s with inbox := s.inbox ++ [(s.device, m)] } := if_pos rfl
/-- A message to another device changes the fabric alone. -/
theorem send_with (s : State) (dst : Nat) (m : Msg) (h : dst ≠ s.device) : ∃ f, s.send dst m = { s with fabric := f } := by
  unfold State.send
  rw [if_neg h]
  exact transmit_with _ _ _ _ _
/-- A far request is noted under the next operation number, and its message is sent. -/
theorem ask_with (s : State) (h : Hart) (t : Target) (a : FarAsk) (m : Nat → Msg) (far : t.dev ≠ s.device) :
    ∃ f, s.ask h t a m = { s with
      fabric := f, nextOp := s.nextOp + 1,
      farReqs := s.farReqs ++ [{ id := s.nextOp, core := h.core, ctx := h.ctx, dev := t.dev, rid := (s.peer t.dev).readTag, ask := a,
                                 msg := m (s.peer t.dev).readTag, answer := none }] } := by
  obtain ⟨f, e⟩ := send_with { (s.newTag t.dev).2 with
    farReqs := s.farReqs ++ [{ id := s.nextOp, core := h.core, ctx := h.ctx, dev := t.dev, rid := (s.peer t.dev).readTag, ask := a,
                               msg := m (s.peer t.dev).readTag, answer := none }], nextOp := s.nextOp + 1 }
    t.dev (m (s.peer t.dev).readTag) far
  exact ⟨f, e⟩

end Sys2Proof.Laws
end

