-- ==== Sys2Proof/Laws/Fields.lean ====
section
/-! SUPPORT. The fields of concatenated words: one lemma per word format of R216 and per field that the decoder reads. -/
namespace Sys2Proof.Laws.Fields
set_option linter.unusedSimpArgs false

theorem low (x : BitVec m) (y : BitVec n) (s l : Nat) (h : s + l ≤ n) : (x ++ y).extractLsb' s l = y.extractLsb' s l := by
  ext i hi
  simp only [BitVec.getElem_extractLsb', BitVec.getLsbD_append]
  rw [if_pos (by omega)]
theorem high (x : BitVec m) (y : BitVec n) (s l : Nat) (h : n ≤ s) :
    (x ++ y).extractLsb' s l = x.extractLsb' (s - n) l := by
  ext i hi
  simp only [BitVec.getElem_extractLsb', BitVec.getLsbD_append]
  rw [if_neg (by omega)]
  congr 1
  omega
theorem full (x : BitVec n) : x.extractLsb' 0 n = x := by ext i hi; simp
/-- A vamo code is its high bit over its five low bits (R231). -/
theorem join_code (c : BitVec 6) : c.extractLsb' 5 1 ++ c.extractLsb' 0 5 = c := by revert c; decide

theorem f0_26_6 (x0 : BitVec 6) (x1 : BitVec 5) (x2 : BitVec 5) (x3 : BitVec 5) (x4 : BitVec 11) :
    (x0 ++ x1 ++ x2 ++ x3 ++ x4).extractLsb' 26 6 = x0 := by simp (disch := omega) only [low, high, full, Nat.reduceSub]
theorem f0_0_7 (x0 : BitVec 6) (x1 : BitVec 5) (x2 : BitVec 5) (x3 : BitVec 5) (x4 : BitVec 11) :
    (x0 ++ x1 ++ x2 ++ x3 ++ x4).extractLsb' 0 7 = x4.extractLsb' 0 7 := by simp (disch := omega) only [low, high, full, Nat.reduceSub]
theorem f0_7_4 (x0 : BitVec 6) (x1 : BitVec 5) (x2 : BitVec 5) (x3 : BitVec 5) (x4 : BitVec 11) :
    (x0 ++ x1 ++ x2 ++ x3 ++ x4).extractLsb' 7 4 = x4.extractLsb' 7 4 := by simp (disch := omega) only [low, high, full, Nat.reduceSub]
theorem f0_21_5 (x0 : BitVec 6) (x1 : BitVec 5) (x2 : BitVec 5) (x3 : BitVec 5) (x4 : BitVec 11) :
    (x0 ++ x1 ++ x2 ++ x3 ++ x4).extractLsb' 21 5 = x1 := by simp (disch := omega) only [low, high, full, Nat.reduceSub]
theorem f0_16_5 (x0 : BitVec 6) (x1 : BitVec 5) (x2 : BitVec 5) (x3 : BitVec 5) (x4 : BitVec 11) :
    (x0 ++ x1 ++ x2 ++ x3 ++ x4).extractLsb' 16 5 = x2 := by simp (disch := omega) only [low, high, full, Nat.reduceSub]
theorem f0_11_5 (x0 : BitVec 6) (x1 : BitVec 5) (x2 : BitVec 5) (x3 : BitVec 5) (x4 : BitVec 11) :
    (x0 ++ x1 ++ x2 ++ x3 ++ x4).extractLsb' 11 5 = x3 := by simp (disch := omega) only [low, high, full, Nat.reduceSub]
theorem f1_26_6 (x0 : BitVec 6) (x1 : BitVec 5) (x2 : BitVec 5) (x3 : BitVec 5) (x4 : BitVec 4) (x5 : BitVec 7) :
    (x0 ++ x1 ++ x2 ++ x3 ++ x4 ++ x5).extractLsb' 26 6 = x0 := by simp (disch := omega) only [low, high, full, Nat.reduceSub]
theorem f1_0_7 (x0 : BitVec 6) (x1 : BitVec 5) (x2 : BitVec 5) (x3 : BitVec 5) (x4 : BitVec 4) (x5 : BitVec 7) :
    (x0 ++ x1 ++ x2 ++ x3 ++ x4 ++ x5).extractLsb' 0 7 = x5 := by simp (disch := omega) only [low, high, full, Nat.reduceSub]
theorem f1_21_5 (x0 : BitVec 6) (x1 : BitVec 5) (x2 : BitVec 5) (x3 : BitVec 5) (x4 : BitVec 4) (x5 : BitVec 7) :
    (x0 ++ x1 ++ x2 ++ x3 ++ x4 ++ x5).extractLsb' 21 5 = x1 := by simp (disch := omega) only [low, high, full, Nat.reduceSub]
theorem f1_16_5 (x0 : BitVec 6) (x1 : BitVec 5) (x2 : BitVec 5) (x3 : BitVec 5) (x4 : BitVec 4) (x5 : BitVec 7) :
    (x0 ++ x1 ++ x2 ++ x3 ++ x4 ++ x5).extractLsb' 16 5 = x2 := by simp (disch := omega) only [low, high, full, Nat.reduceSub]
theorem f1_11_5 (x0 : BitVec 6) (x1 : BitVec 5) (x2 : BitVec 5) (x3 : BitVec 5) (x4 : BitVec 4) (x5 : BitVec 7) :
    (x0 ++ x1 ++ x2 ++ x3 ++ x4 ++ x5).extractLsb' 11 5 = x3 := by simp (disch := omega) only [low, high, full, Nat.reduceSub]
theorem f1_7_4 (x0 : BitVec 6) (x1 : BitVec 5) (x2 : BitVec 5) (x3 : BitVec 5) (x4 : BitVec 4) (x5 : BitVec 7) :
    (x0 ++ x1 ++ x2 ++ x3 ++ x4 ++ x5).extractLsb' 7 4 = x4 := by simp (disch := omega) only [low, high, full, Nat.reduceSub]
theorem f2_26_6 (x0 : BitVec 6) (x1 : BitVec 5) (x2 : BitVec 5) (x3 : BitVec 16) :
    (x0 ++ x1 ++ x2 ++ x3).extractLsb' 26 6 = x0 := by simp (disch := omega) only [low, high, full, Nat.reduceSub]
theorem f2_0_7 (x0 : BitVec 6) (x1 : BitVec 5) (x2 : BitVec 5) (x3 : BitVec 16) :
    (x0 ++ x1 ++ x2 ++ x3).extractLsb' 0 7 = x3.extractLsb' 0 7 := by simp (disch := omega) only [low, high, full, Nat.reduceSub]
theorem f2_7_9 (x0 : BitVec 6) (x1 : BitVec 5) (x2 : BitVec 5) (x3 : BitVec 16) :
    (x0 ++ x1 ++ x2 ++ x3).extractLsb' 7 9 = x3.extractLsb' 7 9 := by simp (disch := omega) only [low, high, full, Nat.reduceSub]
theorem f2_21_5 (x0 : BitVec 6) (x1 : BitVec 5) (x2 : BitVec 5) (x3 : BitVec 16) :
    (x0 ++ x1 ++ x2 ++ x3).extractLsb' 21 5 = x1 := by simp (disch := omega) only [low, high, full, Nat.reduceSub]
theorem f2_16_5 (x0 : BitVec 6) (x1 : BitVec 5) (x2 : BitVec 5) (x3 : BitVec 16) :
    (x0 ++ x1 ++ x2 ++ x3).extractLsb' 16 5 = x2 := by simp (disch := omega) only [low, high, full, Nat.reduceSub]
theorem f2_0_16 (x0 : BitVec 6) (x1 : BitVec 5) (x2 : BitVec 5) (x3 : BitVec 16) :
    (x0 ++ x1 ++ x2 ++ x3).extractLsb' 0 16 = x3 := by simp (disch := omega) only [low, high, full, Nat.reduceSub]
theorem f3_26_6 (x0 : BitVec 6) (x1 : BitVec 5) (x2 : BitVec 5) (x3 : BitVec 10) (x4 : BitVec 6) :
    (x0 ++ x1 ++ x2 ++ x3 ++ x4).extractLsb' 26 6 = x0 := by simp (disch := omega) only [low, high, full, Nat.reduceSub]
theorem f3_6_2 (x0 : BitVec 6) (x1 : BitVec 5) (x2 : BitVec 5) (x3 : BitVec 10) (x4 : BitVec 6) :
    (x0 ++ x1 ++ x2 ++ x3 ++ x4).extractLsb' 6 2 = x3.extractLsb' 0 2 := by simp (disch := omega) only [low, high, full, Nat.reduceSub]
theorem f3_8_8 (x0 : BitVec 6) (x1 : BitVec 5) (x2 : BitVec 5) (x3 : BitVec 10) (x4 : BitVec 6) :
    (x0 ++ x1 ++ x2 ++ x3 ++ x4).extractLsb' 8 8 = x3.extractLsb' 2 8 := by simp (disch := omega) only [low, high, full, Nat.reduceSub]
theorem f3_21_5 (x0 : BitVec 6) (x1 : BitVec 5) (x2 : BitVec 5) (x3 : BitVec 10) (x4 : BitVec 6) :
    (x0 ++ x1 ++ x2 ++ x3 ++ x4).extractLsb' 21 5 = x1 := by simp (disch := omega) only [low, high, full, Nat.reduceSub]
theorem f3_16_5 (x0 : BitVec 6) (x1 : BitVec 5) (x2 : BitVec 5) (x3 : BitVec 10) (x4 : BitVec 6) :
    (x0 ++ x1 ++ x2 ++ x3 ++ x4).extractLsb' 16 5 = x2 := by simp (disch := omega) only [low, high, full, Nat.reduceSub]
theorem f3_0_6 (x0 : BitVec 6) (x1 : BitVec 5) (x2 : BitVec 5) (x3 : BitVec 10) (x4 : BitVec 6) :
    (x0 ++ x1 ++ x2 ++ x3 ++ x4).extractLsb' 0 6 = x4 := by simp (disch := omega) only [low, high, full, Nat.reduceSub]
theorem f4_26_6 (x0 : BitVec 6) (x1 : BitVec 5) (x2 : BitVec 5) (x3 : BitVec 4) (x4 : BitVec 3) (x5 : BitVec 9) :
    (x0 ++ x1 ++ x2 ++ x3 ++ x4 ++ x5).extractLsb' 26 6 = x0 := by simp (disch := omega) only [low, high, full, Nat.reduceSub]
theorem f4_9_3 (x0 : BitVec 6) (x1 : BitVec 5) (x2 : BitVec 5) (x3 : BitVec 4) (x4 : BitVec 3) (x5 : BitVec 9) :
    (x0 ++ x1 ++ x2 ++ x3 ++ x4 ++ x5).extractLsb' 9 3 = x4 := by simp (disch := omega) only [low, high, full, Nat.reduceSub]
theorem f4_21_5 (x0 : BitVec 6) (x1 : BitVec 5) (x2 : BitVec 5) (x3 : BitVec 4) (x4 : BitVec 3) (x5 : BitVec 9) :
    (x0 ++ x1 ++ x2 ++ x3 ++ x4 ++ x5).extractLsb' 21 5 = x1 := by simp (disch := omega) only [low, high, full, Nat.reduceSub]
theorem f4_16_5 (x0 : BitVec 6) (x1 : BitVec 5) (x2 : BitVec 5) (x3 : BitVec 4) (x4 : BitVec 3) (x5 : BitVec 9) :
    (x0 ++ x1 ++ x2 ++ x3 ++ x4 ++ x5).extractLsb' 16 5 = x2 := by simp (disch := omega) only [low, high, full, Nat.reduceSub]
theorem f4_12_4 (x0 : BitVec 6) (x1 : BitVec 5) (x2 : BitVec 5) (x3 : BitVec 4) (x4 : BitVec 3) (x5 : BitVec 9) :
    (x0 ++ x1 ++ x2 ++ x3 ++ x4 ++ x5).extractLsb' 12 4 = x3 := by simp (disch := omega) only [low, high, full, Nat.reduceSub]
theorem f4_0_9 (x0 : BitVec 6) (x1 : BitVec 5) (x2 : BitVec 5) (x3 : BitVec 4) (x4 : BitVec 3) (x5 : BitVec 9) :
    (x0 ++ x1 ++ x2 ++ x3 ++ x4 ++ x5).extractLsb' 0 9 = x5 := by simp (disch := omega) only [low, high, full, Nat.reduceSub]
theorem f5_26_6 (x0 : BitVec 6) (x1 : BitVec 5) (x2 : BitVec 5) (x3 : BitVec 5) (x4 : BitVec 4) (x5 : BitVec 3) (x6 : BitVec 4) :
    (x0 ++ x1 ++ x2 ++ x3 ++ x4 ++ x5 ++ x6).extractLsb' 26 6 = x0 := by simp (disch := omega) only [low, high, full, Nat.reduceSub]
theorem f5_0_4 (x0 : BitVec 6) (x1 : BitVec 5) (x2 : BitVec 5) (x3 : BitVec 5) (x4 : BitVec 4) (x5 : BitVec 3) (x6 : BitVec 4) :
    (x0 ++ x1 ++ x2 ++ x3 ++ x4 ++ x5 ++ x6).extractLsb' 0 4 = x6 := by simp (disch := omega) only [low, high, full, Nat.reduceSub]
theorem f5_11_5 (x0 : BitVec 6) (x1 : BitVec 5) (x2 : BitVec 5) (x3 : BitVec 5) (x4 : BitVec 4) (x5 : BitVec 3) (x6 : BitVec 4) :
    (x0 ++ x1 ++ x2 ++ x3 ++ x4 ++ x5 ++ x6).extractLsb' 11 5 = x3 := by simp (disch := omega) only [low, high, full, Nat.reduceSub]
theorem f5_21_5 (x0 : BitVec 6) (x1 : BitVec 5) (x2 : BitVec 5) (x3 : BitVec 5) (x4 : BitVec 4) (x5 : BitVec 3) (x6 : BitVec 4) :
    (x0 ++ x1 ++ x2 ++ x3 ++ x4 ++ x5 ++ x6).extractLsb' 21 5 = x1 := by simp (disch := omega) only [low, high, full, Nat.reduceSub]
theorem f5_16_5 (x0 : BitVec 6) (x1 : BitVec 5) (x2 : BitVec 5) (x3 : BitVec 5) (x4 : BitVec 4) (x5 : BitVec 3) (x6 : BitVec 4) :
    (x0 ++ x1 ++ x2 ++ x3 ++ x4 ++ x5 ++ x6).extractLsb' 16 5 = x2 := by simp (disch := omega) only [low, high, full, Nat.reduceSub]
theorem f5_7_4 (x0 : BitVec 6) (x1 : BitVec 5) (x2 : BitVec 5) (x3 : BitVec 5) (x4 : BitVec 4) (x5 : BitVec 3) (x6 : BitVec 4) :
    (x0 ++ x1 ++ x2 ++ x3 ++ x4 ++ x5 ++ x6).extractLsb' 7 4 = x4 := by simp (disch := omega) only [low, high, full, Nat.reduceSub]
theorem f5_4_3 (x0 : BitVec 6) (x1 : BitVec 5) (x2 : BitVec 5) (x3 : BitVec 5) (x4 : BitVec 4) (x5 : BitVec 3) (x6 : BitVec 4) :
    (x0 ++ x1 ++ x2 ++ x3 ++ x4 ++ x5 ++ x6).extractLsb' 4 3 = x5 := by simp (disch := omega) only [low, high, full, Nat.reduceSub]
theorem f6_26_6 (x0 : BitVec 6) (x1 : BitVec 5) (x2 : BitVec 21) :
    (x0 ++ x1 ++ x2).extractLsb' 26 6 = x0 := by simp (disch := omega) only [low, high, full, Nat.reduceSub]
theorem f6_21_5 (x0 : BitVec 6) (x1 : BitVec 5) (x2 : BitVec 21) :
    (x0 ++ x1 ++ x2).extractLsb' 21 5 = x1 := by simp (disch := omega) only [low, high, full, Nat.reduceSub]
theorem f6_0_21 (x0 : BitVec 6) (x1 : BitVec 5) (x2 : BitVec 21) :
    (x0 ++ x1 ++ x2).extractLsb' 0 21 = x2 := by simp (disch := omega) only [low, high, full, Nat.reduceSub]
theorem f7_26_6 (x0 : BitVec 6) (x1 : BitVec 10) (x2 : BitVec 3) (x3 : BitVec 4) (x4 : BitVec 9) :
    (x0 ++ x1 ++ x2 ++ x3 ++ x4).extractLsb' 26 6 = x0 := by simp (disch := omega) only [low, high, full, Nat.reduceSub]
theorem f7_21_5 (x0 : BitVec 6) (x1 : BitVec 10) (x2 : BitVec 3) (x3 : BitVec 4) (x4 : BitVec 9) :
    (x0 ++ x1 ++ x2 ++ x3 ++ x4).extractLsb' 21 5 = x1.extractLsb' 5 5 := by simp (disch := omega) only [low, high, full, Nat.reduceSub]
theorem f7_16_5 (x0 : BitVec 6) (x1 : BitVec 10) (x2 : BitVec 3) (x3 : BitVec 4) (x4 : BitVec 9) :
    (x0 ++ x1 ++ x2 ++ x3 ++ x4).extractLsb' 16 5 = x1.extractLsb' 0 5 := by simp (disch := omega) only [low, high, full, Nat.reduceSub]
theorem f7_9_4 (x0 : BitVec 6) (x1 : BitVec 10) (x2 : BitVec 3) (x3 : BitVec 4) (x4 : BitVec 9) :
    (x0 ++ x1 ++ x2 ++ x3 ++ x4).extractLsb' 9 4 = x3 := by simp (disch := omega) only [low, high, full, Nat.reduceSub]
theorem f7_13_3 (x0 : BitVec 6) (x1 : BitVec 10) (x2 : BitVec 3) (x3 : BitVec 4) (x4 : BitVec 9) :
    (x0 ++ x1 ++ x2 ++ x3 ++ x4).extractLsb' 13 3 = x2 := by simp (disch := omega) only [low, high, full, Nat.reduceSub]
theorem f7_0_9 (x0 : BitVec 6) (x1 : BitVec 10) (x2 : BitVec 3) (x3 : BitVec 4) (x4 : BitVec 9) :
    (x0 ++ x1 ++ x2 ++ x3 ++ x4).extractLsb' 0 9 = x4 := by simp (disch := omega) only [low, high, full, Nat.reduceSub]
theorem f8_26_6 (x0 : BitVec 6) (x1 : BitVec 5) (x2 : BitVec 5) (x3 : BitVec 7) (x4 : BitVec 9) :
    (x0 ++ x1 ++ x2 ++ x3 ++ x4).extractLsb' 26 6 = x0 := by simp (disch := omega) only [low, high, full, Nat.reduceSub]
theorem f8_21_5 (x0 : BitVec 6) (x1 : BitVec 5) (x2 : BitVec 5) (x3 : BitVec 7) (x4 : BitVec 9) :
    (x0 ++ x1 ++ x2 ++ x3 ++ x4).extractLsb' 21 5 = x1 := by simp (disch := omega) only [low, high, full, Nat.reduceSub]
theorem f8_9_7 (x0 : BitVec 6) (x1 : BitVec 5) (x2 : BitVec 5) (x3 : BitVec 7) (x4 : BitVec 9) :
    (x0 ++ x1 ++ x2 ++ x3 ++ x4).extractLsb' 9 7 = x3 := by simp (disch := omega) only [low, high, full, Nat.reduceSub]
theorem f8_16_5 (x0 : BitVec 6) (x1 : BitVec 5) (x2 : BitVec 5) (x3 : BitVec 7) (x4 : BitVec 9) :
    (x0 ++ x1 ++ x2 ++ x3 ++ x4).extractLsb' 16 5 = x2 := by simp (disch := omega) only [low, high, full, Nat.reduceSub]
theorem f8_0_9 (x0 : BitVec 6) (x1 : BitVec 5) (x2 : BitVec 5) (x3 : BitVec 7) (x4 : BitVec 9) :
    (x0 ++ x1 ++ x2 ++ x3 ++ x4).extractLsb' 0 9 = x4 := by simp (disch := omega) only [low, high, full, Nat.reduceSub]
theorem f9_26_6 (x0 : BitVec 6) (x1 : BitVec 10) (x2 : BitVec 16) :
    (x0 ++ x1 ++ x2).extractLsb' 26 6 = x0 := by simp (disch := omega) only [low, high, full, Nat.reduceSub]
theorem f9_21_5 (x0 : BitVec 6) (x1 : BitVec 10) (x2 : BitVec 16) :
    (x0 ++ x1 ++ x2).extractLsb' 21 5 = x1.extractLsb' 5 5 := by simp (disch := omega) only [low, high, full, Nat.reduceSub]
theorem f9_16_5 (x0 : BitVec 6) (x1 : BitVec 10) (x2 : BitVec 16) :
    (x0 ++ x1 ++ x2).extractLsb' 16 5 = x1.extractLsb' 0 5 := by simp (disch := omega) only [low, high, full, Nat.reduceSub]
theorem f9_0_16 (x0 : BitVec 6) (x1 : BitVec 10) (x2 : BitVec 16) :
    (x0 ++ x1 ++ x2).extractLsb' 0 16 = x2 := by simp (disch := omega) only [low, high, full, Nat.reduceSub]
theorem f10_26_6 (x0 : BitVec 6) (x1 : BitVec 5) (x2 : BitVec 5) (x3 : BitVec 4) (x4 : BitVec 12) :
    (x0 ++ x1 ++ x2 ++ x3 ++ x4).extractLsb' 26 6 = x0 := by simp (disch := omega) only [low, high, full, Nat.reduceSub]
theorem f10_21_5 (x0 : BitVec 6) (x1 : BitVec 5) (x2 : BitVec 5) (x3 : BitVec 4) (x4 : BitVec 12) :
    (x0 ++ x1 ++ x2 ++ x3 ++ x4).extractLsb' 21 5 = x1 := by simp (disch := omega) only [low, high, full, Nat.reduceSub]
theorem f10_16_5 (x0 : BitVec 6) (x1 : BitVec 5) (x2 : BitVec 5) (x3 : BitVec 4) (x4 : BitVec 12) :
    (x0 ++ x1 ++ x2 ++ x3 ++ x4).extractLsb' 16 5 = x2 := by simp (disch := omega) only [low, high, full, Nat.reduceSub]
theorem f10_12_4 (x0 : BitVec 6) (x1 : BitVec 5) (x2 : BitVec 5) (x3 : BitVec 4) (x4 : BitVec 12) :
    (x0 ++ x1 ++ x2 ++ x3 ++ x4).extractLsb' 12 4 = x3 := by simp (disch := omega) only [low, high, full, Nat.reduceSub]
theorem f10_0_12 (x0 : BitVec 6) (x1 : BitVec 5) (x2 : BitVec 5) (x3 : BitVec 4) (x4 : BitVec 12) :
    (x0 ++ x1 ++ x2 ++ x3 ++ x4).extractLsb' 0 12 = x4 := by simp (disch := omega) only [low, high, full, Nat.reduceSub]
theorem f11_26_6 (x0 : BitVec 6) (x1 : BitVec 10) (x2 : BitVec 4) (x3 : BitVec 12) :
    (x0 ++ x1 ++ x2 ++ x3).extractLsb' 26 6 = x0 := by simp (disch := omega) only [low, high, full, Nat.reduceSub]
theorem f11_21_5 (x0 : BitVec 6) (x1 : BitVec 10) (x2 : BitVec 4) (x3 : BitVec 12) :
    (x0 ++ x1 ++ x2 ++ x3).extractLsb' 21 5 = x1.extractLsb' 5 5 := by simp (disch := omega) only [low, high, full, Nat.reduceSub]
theorem f11_16_5 (x0 : BitVec 6) (x1 : BitVec 10) (x2 : BitVec 4) (x3 : BitVec 12) :
    (x0 ++ x1 ++ x2 ++ x3).extractLsb' 16 5 = x1.extractLsb' 0 5 := by simp (disch := omega) only [low, high, full, Nat.reduceSub]
theorem f11_12_4 (x0 : BitVec 6) (x1 : BitVec 10) (x2 : BitVec 4) (x3 : BitVec 12) :
    (x0 ++ x1 ++ x2 ++ x3).extractLsb' 12 4 = x2 := by simp (disch := omega) only [low, high, full, Nat.reduceSub]
theorem f11_0_12 (x0 : BitVec 6) (x1 : BitVec 10) (x2 : BitVec 4) (x3 : BitVec 12) :
    (x0 ++ x1 ++ x2 ++ x3).extractLsb' 0 12 = x3 := by simp (disch := omega) only [low, high, full, Nat.reduceSub]
theorem f12_26_6 (x0 : BitVec 6) (x1 : BitVec 26) :
    (x0 ++ x1).extractLsb' 26 6 = x0 := by simp (disch := omega) only [low, high, full, Nat.reduceSub]
theorem f12_21_5 (x0 : BitVec 6) (x1 : BitVec 26) :
    (x0 ++ x1).extractLsb' 21 5 = x1.extractLsb' 21 5 := by simp (disch := omega) only [low, high, full, Nat.reduceSub]
theorem f12_0_21 (x0 : BitVec 6) (x1 : BitVec 26) :
    (x0 ++ x1).extractLsb' 0 21 = x1.extractLsb' 0 21 := by simp (disch := omega) only [low, high, full, Nat.reduceSub]
theorem f13_26_6 (x0 : BitVec 6) (x1 : BitVec 5) (x2 : BitVec 5) (x3 : BitVec 5) (x4 : BitVec 9) (x5 : BitVec 2) :
    (x0 ++ x1 ++ x2 ++ x3 ++ x4 ++ x5).extractLsb' 26 6 = x0 := by simp (disch := omega) only [low, high, full, Nat.reduceSub]
theorem f13_2_5 (x0 : BitVec 6) (x1 : BitVec 5) (x2 : BitVec 5) (x3 : BitVec 5) (x4 : BitVec 9) (x5 : BitVec 2) :
    (x0 ++ x1 ++ x2 ++ x3 ++ x4 ++ x5).extractLsb' 2 5 = x4.extractLsb' 0 5 := by simp (disch := omega) only [low, high, full, Nat.reduceSub]
theorem f13_7_4 (x0 : BitVec 6) (x1 : BitVec 5) (x2 : BitVec 5) (x3 : BitVec 5) (x4 : BitVec 9) (x5 : BitVec 2) :
    (x0 ++ x1 ++ x2 ++ x3 ++ x4 ++ x5).extractLsb' 7 4 = x4.extractLsb' 5 4 := by simp (disch := omega) only [low, high, full, Nat.reduceSub]
theorem f13_21_5 (x0 : BitVec 6) (x1 : BitVec 5) (x2 : BitVec 5) (x3 : BitVec 5) (x4 : BitVec 9) (x5 : BitVec 2) :
    (x0 ++ x1 ++ x2 ++ x3 ++ x4 ++ x5).extractLsb' 21 5 = x1 := by simp (disch := omega) only [low, high, full, Nat.reduceSub]
theorem f13_16_5 (x0 : BitVec 6) (x1 : BitVec 5) (x2 : BitVec 5) (x3 : BitVec 5) (x4 : BitVec 9) (x5 : BitVec 2) :
    (x0 ++ x1 ++ x2 ++ x3 ++ x4 ++ x5).extractLsb' 16 5 = x2 := by simp (disch := omega) only [low, high, full, Nat.reduceSub]
theorem f13_11_5 (x0 : BitVec 6) (x1 : BitVec 5) (x2 : BitVec 5) (x3 : BitVec 5) (x4 : BitVec 9) (x5 : BitVec 2) :
    (x0 ++ x1 ++ x2 ++ x3 ++ x4 ++ x5).extractLsb' 11 5 = x3 := by simp (disch := omega) only [low, high, full, Nat.reduceSub]
theorem f13_0_2 (x0 : BitVec 6) (x1 : BitVec 5) (x2 : BitVec 5) (x3 : BitVec 5) (x4 : BitVec 9) (x5 : BitVec 2) :
    (x0 ++ x1 ++ x2 ++ x3 ++ x4 ++ x5).extractLsb' 0 2 = x5 := by simp (disch := omega) only [low, high, full, Nat.reduceSub]
theorem f14_26_6 (x0 : BitVec 6) (x1 : BitVec 5) (x2 : BitVec 5) (x3 : BitVec 5) (x4 : BitVec 4) (x5 : BitVec 5) (x6 : BitVec 2) :
    (x0 ++ x1 ++ x2 ++ x3 ++ x4 ++ x5 ++ x6).extractLsb' 26 6 = x0 := by simp (disch := omega) only [low, high, full, Nat.reduceSub]
theorem f14_2_5 (x0 : BitVec 6) (x1 : BitVec 5) (x2 : BitVec 5) (x3 : BitVec 5) (x4 : BitVec 4) (x5 : BitVec 5) (x6 : BitVec 2) :
    (x0 ++ x1 ++ x2 ++ x3 ++ x4 ++ x5 ++ x6).extractLsb' 2 5 = x5 := by simp (disch := omega) only [low, high, full, Nat.reduceSub]
theorem f14_21_5 (x0 : BitVec 6) (x1 : BitVec 5) (x2 : BitVec 5) (x3 : BitVec 5) (x4 : BitVec 4) (x5 : BitVec 5) (x6 : BitVec 2) :
    (x0 ++ x1 ++ x2 ++ x3 ++ x4 ++ x5 ++ x6).extractLsb' 21 5 = x1 := by simp (disch := omega) only [low, high, full, Nat.reduceSub]
theorem f14_16_5 (x0 : BitVec 6) (x1 : BitVec 5) (x2 : BitVec 5) (x3 : BitVec 5) (x4 : BitVec 4) (x5 : BitVec 5) (x6 : BitVec 2) :
    (x0 ++ x1 ++ x2 ++ x3 ++ x4 ++ x5 ++ x6).extractLsb' 16 5 = x2 := by simp (disch := omega) only [low, high, full, Nat.reduceSub]
theorem f14_11_5 (x0 : BitVec 6) (x1 : BitVec 5) (x2 : BitVec 5) (x3 : BitVec 5) (x4 : BitVec 4) (x5 : BitVec 5) (x6 : BitVec 2) :
    (x0 ++ x1 ++ x2 ++ x3 ++ x4 ++ x5 ++ x6).extractLsb' 11 5 = x3 := by simp (disch := omega) only [low, high, full, Nat.reduceSub]
theorem f14_7_4 (x0 : BitVec 6) (x1 : BitVec 5) (x2 : BitVec 5) (x3 : BitVec 5) (x4 : BitVec 4) (x5 : BitVec 5) (x6 : BitVec 2) :
    (x0 ++ x1 ++ x2 ++ x3 ++ x4 ++ x5 ++ x6).extractLsb' 7 4 = x4 := by simp (disch := omega) only [low, high, full, Nat.reduceSub]
theorem f14_0_2 (x0 : BitVec 6) (x1 : BitVec 5) (x2 : BitVec 5) (x3 : BitVec 5) (x4 : BitVec 4) (x5 : BitVec 5) (x6 : BitVec 2) :
    (x0 ++ x1 ++ x2 ++ x3 ++ x4 ++ x5 ++ x6).extractLsb' 0 2 = x6 := by simp (disch := omega) only [low, high, full, Nat.reduceSub]
theorem f15_26_6 (x0 : BitVec 6) (x1 : BitVec 5) (x2 : BitVec 5) (x3 : BitVec 14) (x4 : BitVec 2) :
    (x0 ++ x1 ++ x2 ++ x3 ++ x4).extractLsb' 26 6 = x0 := by simp (disch := omega) only [low, high, full, Nat.reduceSub]
theorem f15_2_5 (x0 : BitVec 6) (x1 : BitVec 5) (x2 : BitVec 5) (x3 : BitVec 14) (x4 : BitVec 2) :
    (x0 ++ x1 ++ x2 ++ x3 ++ x4).extractLsb' 2 5 = x3.extractLsb' 0 5 := by simp (disch := omega) only [low, high, full, Nat.reduceSub]
theorem f15_7_9 (x0 : BitVec 6) (x1 : BitVec 5) (x2 : BitVec 5) (x3 : BitVec 14) (x4 : BitVec 2) :
    (x0 ++ x1 ++ x2 ++ x3 ++ x4).extractLsb' 7 9 = x3.extractLsb' 5 9 := by simp (disch := omega) only [low, high, full, Nat.reduceSub]
theorem f15_21_5 (x0 : BitVec 6) (x1 : BitVec 5) (x2 : BitVec 5) (x3 : BitVec 14) (x4 : BitVec 2) :
    (x0 ++ x1 ++ x2 ++ x3 ++ x4).extractLsb' 21 5 = x1 := by simp (disch := omega) only [low, high, full, Nat.reduceSub]
theorem f15_16_5 (x0 : BitVec 6) (x1 : BitVec 5) (x2 : BitVec 5) (x3 : BitVec 14) (x4 : BitVec 2) :
    (x0 ++ x1 ++ x2 ++ x3 ++ x4).extractLsb' 16 5 = x2 := by simp (disch := omega) only [low, high, full, Nat.reduceSub]
theorem f15_0_2 (x0 : BitVec 6) (x1 : BitVec 5) (x2 : BitVec 5) (x3 : BitVec 14) (x4 : BitVec 2) :
    (x0 ++ x1 ++ x2 ++ x3 ++ x4).extractLsb' 0 2 = x4 := by simp (disch := omega) only [low, high, full, Nat.reduceSub]
theorem f16_26_6 (x0 : BitVec 6) (x1 : BitVec 19) (x2 : BitVec 3) (x3 : BitVec 4) :
    (x0 ++ x1 ++ x2 ++ x3).extractLsb' 26 6 = x0 := by simp (disch := omega) only [low, high, full, Nat.reduceSub]
theorem f16_21_5 (x0 : BitVec 6) (x1 : BitVec 19) (x2 : BitVec 3) (x3 : BitVec 4) :
    (x0 ++ x1 ++ x2 ++ x3).extractLsb' 21 5 = x1.extractLsb' 14 5 := by simp (disch := omega) only [low, high, full, Nat.reduceSub]
theorem f16_0_3 (x0 : BitVec 6) (x1 : BitVec 19) (x2 : BitVec 3) (x3 : BitVec 4) :
    (x0 ++ x1 ++ x2 ++ x3).extractLsb' 0 3 = x3.extractLsb' 0 3 := by simp (disch := omega) only [low, high, full, Nat.reduceSub]
theorem f16_7_14 (x0 : BitVec 6) (x1 : BitVec 19) (x2 : BitVec 3) (x3 : BitVec 4) :
    (x0 ++ x1 ++ x2 ++ x3).extractLsb' 7 14 = x1.extractLsb' 0 14 := by simp (disch := omega) only [low, high, full, Nat.reduceSub]
theorem f16_3_1 (x0 : BitVec 6) (x1 : BitVec 19) (x2 : BitVec 3) (x3 : BitVec 4) :
    (x0 ++ x1 ++ x2 ++ x3).extractLsb' 3 1 = x3.extractLsb' 3 1 := by simp (disch := omega) only [low, high, full, Nat.reduceSub]
theorem f16_4_3 (x0 : BitVec 6) (x1 : BitVec 19) (x2 : BitVec 3) (x3 : BitVec 4) :
    (x0 ++ x1 ++ x2 ++ x3).extractLsb' 4 3 = x2 := by simp (disch := omega) only [low, high, full, Nat.reduceSub]
theorem f12_0_3 (x0 : BitVec 6) (x1 : BitVec 26) :
    (x0 ++ x1).extractLsb' 0 3 = x1.extractLsb' 0 3 := by simp (disch := omega) only [low, high, full, Nat.reduceSub]
theorem f12_3_18 (x0 : BitVec 6) (x1 : BitVec 26) :
    (x0 ++ x1).extractLsb' 3 18 = x1.extractLsb' 3 18 := by simp (disch := omega) only [low, high, full, Nat.reduceSub]
theorem f17_26_6 (x0 : BitVec 6) (x1 : BitVec 5) (x2 : BitVec 5) (x3 : BitVec 4) (x4 : BitVec 5) (x5 : BitVec 3) (x6 : BitVec 4) :
    (x0 ++ x1 ++ x2 ++ x3 ++ x4 ++ x5 ++ x6).extractLsb' 26 6 = x0 := by simp (disch := omega) only [low, high, full, Nat.reduceSub]
theorem f17_21_5 (x0 : BitVec 6) (x1 : BitVec 5) (x2 : BitVec 5) (x3 : BitVec 4) (x4 : BitVec 5) (x5 : BitVec 3) (x6 : BitVec 4) :
    (x0 ++ x1 ++ x2 ++ x3 ++ x4 ++ x5 ++ x6).extractLsb' 21 5 = x1 := by simp (disch := omega) only [low, high, full, Nat.reduceSub]
theorem f17_0_4 (x0 : BitVec 6) (x1 : BitVec 5) (x2 : BitVec 5) (x3 : BitVec 4) (x4 : BitVec 5) (x5 : BitVec 3) (x6 : BitVec 4) :
    (x0 ++ x1 ++ x2 ++ x3 ++ x4 ++ x5 ++ x6).extractLsb' 0 4 = x6 := by simp (disch := omega) only [low, high, full, Nat.reduceSub]
theorem f17_16_5 (x0 : BitVec 6) (x1 : BitVec 5) (x2 : BitVec 5) (x3 : BitVec 4) (x4 : BitVec 5) (x5 : BitVec 3) (x6 : BitVec 4) :
    (x0 ++ x1 ++ x2 ++ x3 ++ x4 ++ x5 ++ x6).extractLsb' 16 5 = x2 := by simp (disch := omega) only [low, high, full, Nat.reduceSub]
theorem f17_12_4 (x0 : BitVec 6) (x1 : BitVec 5) (x2 : BitVec 5) (x3 : BitVec 4) (x4 : BitVec 5) (x5 : BitVec 3) (x6 : BitVec 4) :
    (x0 ++ x1 ++ x2 ++ x3 ++ x4 ++ x5 ++ x6).extractLsb' 12 4 = x3 := by simp (disch := omega) only [low, high, full, Nat.reduceSub]
theorem f17_7_5 (x0 : BitVec 6) (x1 : BitVec 5) (x2 : BitVec 5) (x3 : BitVec 4) (x4 : BitVec 5) (x5 : BitVec 3) (x6 : BitVec 4) :
    (x0 ++ x1 ++ x2 ++ x3 ++ x4 ++ x5 ++ x6).extractLsb' 7 5 = x4 := by simp (disch := omega) only [low, high, full, Nat.reduceSub]
theorem f17_4_3 (x0 : BitVec 6) (x1 : BitVec 5) (x2 : BitVec 5) (x3 : BitVec 4) (x4 : BitVec 5) (x5 : BitVec 3) (x6 : BitVec 4) :
    (x0 ++ x1 ++ x2 ++ x3 ++ x4 ++ x5 ++ x6).extractLsb' 4 3 = x5 := by simp (disch := omega) only [low, high, full, Nat.reduceSub]
theorem f18_26_6 (x0 : BitVec 6) (x1 : BitVec 12) (x2 : BitVec 14) :
    (x0 ++ x1 ++ x2).extractLsb' 26 6 = x0 := by simp (disch := omega) only [low, high, full, Nat.reduceSub]
theorem f18_21_5 (x0 : BitVec 6) (x1 : BitVec 12) (x2 : BitVec 14) :
    (x0 ++ x1 ++ x2).extractLsb' 21 5 = x1.extractLsb' 7 5 := by simp (disch := omega) only [low, high, full, Nat.reduceSub]
theorem f18_14_7 (x0 : BitVec 6) (x1 : BitVec 12) (x2 : BitVec 14) :
    (x0 ++ x1 ++ x2).extractLsb' 14 7 = x1.extractLsb' 0 7 := by simp (disch := omega) only [low, high, full, Nat.reduceSub]
theorem f18_0_14 (x0 : BitVec 6) (x1 : BitVec 12) (x2 : BitVec 14) :
    (x0 ++ x1 ++ x2).extractLsb' 0 14 = x2 := by simp (disch := omega) only [low, high, full, Nat.reduceSub]
theorem f19_26_6 (x0 : BitVec 6) (x1 : BitVec 5) (x2 : BitVec 5) (x3 : BitVec 1) (x4 : BitVec 1) (x5 : BitVec 2) (x6 : BitVec 2) (x7 : BitVec 1) (x8 : BitVec 1) (x9 : BitVec 8) :
    (x0 ++ x1 ++ x2 ++ x3 ++ x4 ++ x5 ++ x6 ++ x7 ++ x8 ++ x9).extractLsb' 26 6 = x0 := by simp (disch := omega) only [low, high, full, Nat.reduceSub]
theorem f19_15_1 (x0 : BitVec 6) (x1 : BitVec 5) (x2 : BitVec 5) (x3 : BitVec 1) (x4 : BitVec 1) (x5 : BitVec 2) (x6 : BitVec 2) (x7 : BitVec 1) (x8 : BitVec 1) (x9 : BitVec 8) :
    (x0 ++ x1 ++ x2 ++ x3 ++ x4 ++ x5 ++ x6 ++ x7 ++ x8 ++ x9).extractLsb' 15 1 = x3 := by simp (disch := omega) only [low, high, full, Nat.reduceSub]
theorem f19_21_5 (x0 : BitVec 6) (x1 : BitVec 5) (x2 : BitVec 5) (x3 : BitVec 1) (x4 : BitVec 1) (x5 : BitVec 2) (x6 : BitVec 2) (x7 : BitVec 1) (x8 : BitVec 1) (x9 : BitVec 8) :
    (x0 ++ x1 ++ x2 ++ x3 ++ x4 ++ x5 ++ x6 ++ x7 ++ x8 ++ x9).extractLsb' 21 5 = x1 := by simp (disch := omega) only [low, high, full, Nat.reduceSub]
theorem f19_16_5 (x0 : BitVec 6) (x1 : BitVec 5) (x2 : BitVec 5) (x3 : BitVec 1) (x4 : BitVec 1) (x5 : BitVec 2) (x6 : BitVec 2) (x7 : BitVec 1) (x8 : BitVec 1) (x9 : BitVec 8) :
    (x0 ++ x1 ++ x2 ++ x3 ++ x4 ++ x5 ++ x6 ++ x7 ++ x8 ++ x9).extractLsb' 16 5 = x2 := by simp (disch := omega) only [low, high, full, Nat.reduceSub]
theorem f19_14_1 (x0 : BitVec 6) (x1 : BitVec 5) (x2 : BitVec 5) (x3 : BitVec 1) (x4 : BitVec 1) (x5 : BitVec 2) (x6 : BitVec 2) (x7 : BitVec 1) (x8 : BitVec 1) (x9 : BitVec 8) :
    (x0 ++ x1 ++ x2 ++ x3 ++ x4 ++ x5 ++ x6 ++ x7 ++ x8 ++ x9).extractLsb' 14 1 = x4 := by simp (disch := omega) only [low, high, full, Nat.reduceSub]
theorem f19_12_2 (x0 : BitVec 6) (x1 : BitVec 5) (x2 : BitVec 5) (x3 : BitVec 1) (x4 : BitVec 1) (x5 : BitVec 2) (x6 : BitVec 2) (x7 : BitVec 1) (x8 : BitVec 1) (x9 : BitVec 8) :
    (x0 ++ x1 ++ x2 ++ x3 ++ x4 ++ x5 ++ x6 ++ x7 ++ x8 ++ x9).extractLsb' 12 2 = x5 := by simp (disch := omega) only [low, high, full, Nat.reduceSub]
theorem f19_10_2 (x0 : BitVec 6) (x1 : BitVec 5) (x2 : BitVec 5) (x3 : BitVec 1) (x4 : BitVec 1) (x5 : BitVec 2) (x6 : BitVec 2) (x7 : BitVec 1) (x8 : BitVec 1) (x9 : BitVec 8) :
    (x0 ++ x1 ++ x2 ++ x3 ++ x4 ++ x5 ++ x6 ++ x7 ++ x8 ++ x9).extractLsb' 10 2 = x6 := by simp (disch := omega) only [low, high, full, Nat.reduceSub]
theorem f19_9_1 (x0 : BitVec 6) (x1 : BitVec 5) (x2 : BitVec 5) (x3 : BitVec 1) (x4 : BitVec 1) (x5 : BitVec 2) (x6 : BitVec 2) (x7 : BitVec 1) (x8 : BitVec 1) (x9 : BitVec 8) :
    (x0 ++ x1 ++ x2 ++ x3 ++ x4 ++ x5 ++ x6 ++ x7 ++ x8 ++ x9).extractLsb' 9 1 = x7 := by simp (disch := omega) only [low, high, full, Nat.reduceSub]
theorem f19_8_1 (x0 : BitVec 6) (x1 : BitVec 5) (x2 : BitVec 5) (x3 : BitVec 1) (x4 : BitVec 1) (x5 : BitVec 2) (x6 : BitVec 2) (x7 : BitVec 1) (x8 : BitVec 1) (x9 : BitVec 8) :
    (x0 ++ x1 ++ x2 ++ x3 ++ x4 ++ x5 ++ x6 ++ x7 ++ x8 ++ x9).extractLsb' 8 1 = x8 := by simp (disch := omega) only [low, high, full, Nat.reduceSub]
theorem f19_0_8 (x0 : BitVec 6) (x1 : BitVec 5) (x2 : BitVec 5) (x3 : BitVec 1) (x4 : BitVec 1) (x5 : BitVec 2) (x6 : BitVec 2) (x7 : BitVec 1) (x8 : BitVec 1) (x9 : BitVec 8) :
    (x0 ++ x1 ++ x2 ++ x3 ++ x4 ++ x5 ++ x6 ++ x7 ++ x8 ++ x9).extractLsb' 0 8 = x9 := by simp (disch := omega) only [low, high, full, Nat.reduceSub]
theorem f20_26_6 (x0 : BitVec 6) (x1 : BitVec 5) (x2 : BitVec 5) (x3 : BitVec 1) (x4 : BitVec 5) (x5 : BitVec 1) (x6 : BitVec 9) :
    (x0 ++ x1 ++ x2 ++ x3 ++ x4 ++ x5 ++ x6).extractLsb' 26 6 = x0 := by simp (disch := omega) only [low, high, full, Nat.reduceSub]
theorem f20_0_2 (x0 : BitVec 6) (x1 : BitVec 5) (x2 : BitVec 5) (x3 : BitVec 1) (x4 : BitVec 5) (x5 : BitVec 1) (x6 : BitVec 9) :
    (x0 ++ x1 ++ x2 ++ x3 ++ x4 ++ x5 ++ x6).extractLsb' 0 2 = x6.extractLsb' 0 2 := by simp (disch := omega) only [low, high, full, Nat.reduceSub]
theorem f20_15_1 (x0 : BitVec 6) (x1 : BitVec 5) (x2 : BitVec 5) (x3 : BitVec 1) (x4 : BitVec 5) (x5 : BitVec 1) (x6 : BitVec 9) :
    (x0 ++ x1 ++ x2 ++ x3 ++ x4 ++ x5 ++ x6).extractLsb' 15 1 = x3 := by simp (disch := omega) only [low, high, full, Nat.reduceSub]
theorem f20_2_7 (x0 : BitVec 6) (x1 : BitVec 5) (x2 : BitVec 5) (x3 : BitVec 1) (x4 : BitVec 5) (x5 : BitVec 1) (x6 : BitVec 9) :
    (x0 ++ x1 ++ x2 ++ x3 ++ x4 ++ x5 ++ x6).extractLsb' 2 7 = x6.extractLsb' 2 7 := by simp (disch := omega) only [low, high, full, Nat.reduceSub]
theorem f20_21_5 (x0 : BitVec 6) (x1 : BitVec 5) (x2 : BitVec 5) (x3 : BitVec 1) (x4 : BitVec 5) (x5 : BitVec 1) (x6 : BitVec 9) :
    (x0 ++ x1 ++ x2 ++ x3 ++ x4 ++ x5 ++ x6).extractLsb' 21 5 = x1 := by simp (disch := omega) only [low, high, full, Nat.reduceSub]
theorem f20_16_5 (x0 : BitVec 6) (x1 : BitVec 5) (x2 : BitVec 5) (x3 : BitVec 1) (x4 : BitVec 5) (x5 : BitVec 1) (x6 : BitVec 9) :
    (x0 ++ x1 ++ x2 ++ x3 ++ x4 ++ x5 ++ x6).extractLsb' 16 5 = x2 := by simp (disch := omega) only [low, high, full, Nat.reduceSub]
theorem f20_10_5 (x0 : BitVec 6) (x1 : BitVec 5) (x2 : BitVec 5) (x3 : BitVec 1) (x4 : BitVec 5) (x5 : BitVec 1) (x6 : BitVec 9) :
    (x0 ++ x1 ++ x2 ++ x3 ++ x4 ++ x5 ++ x6).extractLsb' 10 5 = x4 := by simp (disch := omega) only [low, high, full, Nat.reduceSub]
theorem f20_9_1 (x0 : BitVec 6) (x1 : BitVec 5) (x2 : BitVec 5) (x3 : BitVec 1) (x4 : BitVec 5) (x5 : BitVec 1) (x6 : BitVec 9) :
    (x0 ++ x1 ++ x2 ++ x3 ++ x4 ++ x5 ++ x6).extractLsb' 9 1 = x5 := by simp (disch := omega) only [low, high, full, Nat.reduceSub]
theorem f21_26_6 (x0 : BitVec 6) (x1 : BitVec 5) (x2 : BitVec 5) (x3 : BitVec 1) (x4 : BitVec 5) (x5 : BitVec 10) :
    (x0 ++ x1 ++ x2 ++ x3 ++ x4 ++ x5).extractLsb' 26 6 = x0 := by simp (disch := omega) only [low, high, full, Nat.reduceSub]
theorem f21_0_2 (x0 : BitVec 6) (x1 : BitVec 5) (x2 : BitVec 5) (x3 : BitVec 1) (x4 : BitVec 5) (x5 : BitVec 10) :
    (x0 ++ x1 ++ x2 ++ x3 ++ x4 ++ x5).extractLsb' 0 2 = x5.extractLsb' 0 2 := by simp (disch := omega) only [low, high, full, Nat.reduceSub]
theorem f21_15_1 (x0 : BitVec 6) (x1 : BitVec 5) (x2 : BitVec 5) (x3 : BitVec 1) (x4 : BitVec 5) (x5 : BitVec 10) :
    (x0 ++ x1 ++ x2 ++ x3 ++ x4 ++ x5).extractLsb' 15 1 = x3 := by simp (disch := omega) only [low, high, full, Nat.reduceSub]
theorem f21_2_8 (x0 : BitVec 6) (x1 : BitVec 5) (x2 : BitVec 5) (x3 : BitVec 1) (x4 : BitVec 5) (x5 : BitVec 10) :
    (x0 ++ x1 ++ x2 ++ x3 ++ x4 ++ x5).extractLsb' 2 8 = x5.extractLsb' 2 8 := by simp (disch := omega) only [low, high, full, Nat.reduceSub]
theorem f21_21_5 (x0 : BitVec 6) (x1 : BitVec 5) (x2 : BitVec 5) (x3 : BitVec 1) (x4 : BitVec 5) (x5 : BitVec 10) :
    (x0 ++ x1 ++ x2 ++ x3 ++ x4 ++ x5).extractLsb' 21 5 = x1 := by simp (disch := omega) only [low, high, full, Nat.reduceSub]
theorem f21_16_5 (x0 : BitVec 6) (x1 : BitVec 5) (x2 : BitVec 5) (x3 : BitVec 1) (x4 : BitVec 5) (x5 : BitVec 10) :
    (x0 ++ x1 ++ x2 ++ x3 ++ x4 ++ x5).extractLsb' 16 5 = x2 := by simp (disch := omega) only [low, high, full, Nat.reduceSub]
theorem f21_10_5 (x0 : BitVec 6) (x1 : BitVec 5) (x2 : BitVec 5) (x3 : BitVec 1) (x4 : BitVec 5) (x5 : BitVec 10) :
    (x0 ++ x1 ++ x2 ++ x3 ++ x4 ++ x5).extractLsb' 10 5 = x4 := by simp (disch := omega) only [low, high, full, Nat.reduceSub]
theorem f22_26_6 (x0 : BitVec 6) (x1 : BitVec 5) (x2 : BitVec 5) (x3 : BitVec 5) (x4 : BitVec 3) (x5 : BitVec 1) (x6 : BitVec 1) (x7 : BitVec 4) (x8 : BitVec 2) :
    (x0 ++ x1 ++ x2 ++ x3 ++ x4 ++ x5 ++ x6 ++ x7 ++ x8).extractLsb' 26 6 = x0 := by simp (disch := omega) only [low, high, full, Nat.reduceSub]
theorem f22_0_2 (x0 : BitVec 6) (x1 : BitVec 5) (x2 : BitVec 5) (x3 : BitVec 5) (x4 : BitVec 3) (x5 : BitVec 1) (x6 : BitVec 1) (x7 : BitVec 4) (x8 : BitVec 2) :
    (x0 ++ x1 ++ x2 ++ x3 ++ x4 ++ x5 ++ x6 ++ x7 ++ x8).extractLsb' 0 2 = x8 := by simp (disch := omega) only [low, high, full, Nat.reduceSub]
theorem f22_11_5 (x0 : BitVec 6) (x1 : BitVec 5) (x2 : BitVec 5) (x3 : BitVec 5) (x4 : BitVec 3) (x5 : BitVec 1) (x6 : BitVec 1) (x7 : BitVec 4) (x8 : BitVec 2) :
    (x0 ++ x1 ++ x2 ++ x3 ++ x4 ++ x5 ++ x6 ++ x7 ++ x8).extractLsb' 11 5 = x3 := by simp (disch := omega) only [low, high, full, Nat.reduceSub]
theorem f22_21_5 (x0 : BitVec 6) (x1 : BitVec 5) (x2 : BitVec 5) (x3 : BitVec 5) (x4 : BitVec 3) (x5 : BitVec 1) (x6 : BitVec 1) (x7 : BitVec 4) (x8 : BitVec 2) :
    (x0 ++ x1 ++ x2 ++ x3 ++ x4 ++ x5 ++ x6 ++ x7 ++ x8).extractLsb' 21 5 = x1 := by simp (disch := omega) only [low, high, full, Nat.reduceSub]
theorem f22_16_5 (x0 : BitVec 6) (x1 : BitVec 5) (x2 : BitVec 5) (x3 : BitVec 5) (x4 : BitVec 3) (x5 : BitVec 1) (x6 : BitVec 1) (x7 : BitVec 4) (x8 : BitVec 2) :
    (x0 ++ x1 ++ x2 ++ x3 ++ x4 ++ x5 ++ x6 ++ x7 ++ x8).extractLsb' 16 5 = x2 := by simp (disch := omega) only [low, high, full, Nat.reduceSub]
theorem f22_8_3 (x0 : BitVec 6) (x1 : BitVec 5) (x2 : BitVec 5) (x3 : BitVec 5) (x4 : BitVec 3) (x5 : BitVec 1) (x6 : BitVec 1) (x7 : BitVec 4) (x8 : BitVec 2) :
    (x0 ++ x1 ++ x2 ++ x3 ++ x4 ++ x5 ++ x6 ++ x7 ++ x8).extractLsb' 8 3 = x4 := by simp (disch := omega) only [low, high, full, Nat.reduceSub]
theorem f22_7_1 (x0 : BitVec 6) (x1 : BitVec 5) (x2 : BitVec 5) (x3 : BitVec 5) (x4 : BitVec 3) (x5 : BitVec 1) (x6 : BitVec 1) (x7 : BitVec 4) (x8 : BitVec 2) :
    (x0 ++ x1 ++ x2 ++ x3 ++ x4 ++ x5 ++ x6 ++ x7 ++ x8).extractLsb' 7 1 = x5 := by simp (disch := omega) only [low, high, full, Nat.reduceSub]
theorem f22_6_1 (x0 : BitVec 6) (x1 : BitVec 5) (x2 : BitVec 5) (x3 : BitVec 5) (x4 : BitVec 3) (x5 : BitVec 1) (x6 : BitVec 1) (x7 : BitVec 4) (x8 : BitVec 2) :
    (x0 ++ x1 ++ x2 ++ x3 ++ x4 ++ x5 ++ x6 ++ x7 ++ x8).extractLsb' 6 1 = x6 := by simp (disch := omega) only [low, high, full, Nat.reduceSub]
theorem f22_2_4 (x0 : BitVec 6) (x1 : BitVec 5) (x2 : BitVec 5) (x3 : BitVec 5) (x4 : BitVec 3) (x5 : BitVec 1) (x6 : BitVec 1) (x7 : BitVec 4) (x8 : BitVec 2) :
    (x0 ++ x1 ++ x2 ++ x3 ++ x4 ++ x5 ++ x6 ++ x7 ++ x8).extractLsb' 2 4 = x7 := by simp (disch := omega) only [low, high, full, Nat.reduceSub]
theorem f23_26_6 (x0 : BitVec 6) (x1 : BitVec 5) (x2 : BitVec 5) (x3 : BitVec 10) (x4 : BitVec 4) (x5 : BitVec 2) :
    (x0 ++ x1 ++ x2 ++ x3 ++ x4 ++ x5).extractLsb' 26 6 = x0 := by simp (disch := omega) only [low, high, full, Nat.reduceSub]
theorem f23_0_2 (x0 : BitVec 6) (x1 : BitVec 5) (x2 : BitVec 5) (x3 : BitVec 10) (x4 : BitVec 4) (x5 : BitVec 2) :
    (x0 ++ x1 ++ x2 ++ x3 ++ x4 ++ x5).extractLsb' 0 2 = x5 := by simp (disch := omega) only [low, high, full, Nat.reduceSub]
theorem f23_6_10 (x0 : BitVec 6) (x1 : BitVec 5) (x2 : BitVec 5) (x3 : BitVec 10) (x4 : BitVec 4) (x5 : BitVec 2) :
    (x0 ++ x1 ++ x2 ++ x3 ++ x4 ++ x5).extractLsb' 6 10 = x3 := by simp (disch := omega) only [low, high, full, Nat.reduceSub]
theorem f23_21_5 (x0 : BitVec 6) (x1 : BitVec 5) (x2 : BitVec 5) (x3 : BitVec 10) (x4 : BitVec 4) (x5 : BitVec 2) :
    (x0 ++ x1 ++ x2 ++ x3 ++ x4 ++ x5).extractLsb' 21 5 = x1 := by simp (disch := omega) only [low, high, full, Nat.reduceSub]
theorem f23_16_5 (x0 : BitVec 6) (x1 : BitVec 5) (x2 : BitVec 5) (x3 : BitVec 10) (x4 : BitVec 4) (x5 : BitVec 2) :
    (x0 ++ x1 ++ x2 ++ x3 ++ x4 ++ x5).extractLsb' 16 5 = x2 := by simp (disch := omega) only [low, high, full, Nat.reduceSub]
theorem f23_2_4 (x0 : BitVec 6) (x1 : BitVec 5) (x2 : BitVec 5) (x3 : BitVec 10) (x4 : BitVec 4) (x5 : BitVec 2) :
    (x0 ++ x1 ++ x2 ++ x3 ++ x4 ++ x5).extractLsb' 2 4 = x4 := by simp (disch := omega) only [low, high, full, Nat.reduceSub]
theorem f22_1_1 (x0 : BitVec 6) (x1 : BitVec 5) (x2 : BitVec 5) (x3 : BitVec 5) (x4 : BitVec 3) (x5 : BitVec 1) (x6 : BitVec 1) (x7 : BitVec 4) (x8 : BitVec 2) :
    (x0 ++ x1 ++ x2 ++ x3 ++ x4 ++ x5 ++ x6 ++ x7 ++ x8).extractLsb' 1 1 = x8.extractLsb' 1 1 := by simp (disch := omega) only [low, high, full, Nat.reduceSub]
theorem f24_26_6 (x0 : BitVec 6) (x1 : BitVec 5) (x2 : BitVec 5) (x3 : BitVec 5) (x4 : BitVec 5) (x5 : BitVec 4) (x6 : BitVec 1) (x7 : BitVec 1) :
    (x0 ++ x1 ++ x2 ++ x3 ++ x4 ++ x5 ++ x6 ++ x7).extractLsb' 26 6 = x0 := by simp (disch := omega) only [low, high, full, Nat.reduceSub]
theorem f24_1_1 (x0 : BitVec 6) (x1 : BitVec 5) (x2 : BitVec 5) (x3 : BitVec 5) (x4 : BitVec 5) (x5 : BitVec 4) (x6 : BitVec 1) (x7 : BitVec 1) :
    (x0 ++ x1 ++ x2 ++ x3 ++ x4 ++ x5 ++ x6 ++ x7).extractLsb' 1 1 = x6 := by simp (disch := omega) only [low, high, full, Nat.reduceSub]
theorem f24_21_5 (x0 : BitVec 6) (x1 : BitVec 5) (x2 : BitVec 5) (x3 : BitVec 5) (x4 : BitVec 5) (x5 : BitVec 4) (x6 : BitVec 1) (x7 : BitVec 1) :
    (x0 ++ x1 ++ x2 ++ x3 ++ x4 ++ x5 ++ x6 ++ x7).extractLsb' 21 5 = x1 := by simp (disch := omega) only [low, high, full, Nat.reduceSub]
theorem f24_16_5 (x0 : BitVec 6) (x1 : BitVec 5) (x2 : BitVec 5) (x3 : BitVec 5) (x4 : BitVec 5) (x5 : BitVec 4) (x6 : BitVec 1) (x7 : BitVec 1) :
    (x0 ++ x1 ++ x2 ++ x3 ++ x4 ++ x5 ++ x6 ++ x7).extractLsb' 16 5 = x2 := by simp (disch := omega) only [low, high, full, Nat.reduceSub]
theorem f24_11_5 (x0 : BitVec 6) (x1 : BitVec 5) (x2 : BitVec 5) (x3 : BitVec 5) (x4 : BitVec 5) (x5 : BitVec 4) (x6 : BitVec 1) (x7 : BitVec 1) :
    (x0 ++ x1 ++ x2 ++ x3 ++ x4 ++ x5 ++ x6 ++ x7).extractLsb' 11 5 = x3 := by simp (disch := omega) only [low, high, full, Nat.reduceSub]
theorem f24_0_1 (x0 : BitVec 6) (x1 : BitVec 5) (x2 : BitVec 5) (x3 : BitVec 5) (x4 : BitVec 5) (x5 : BitVec 4) (x6 : BitVec 1) (x7 : BitVec 1) :
    (x0 ++ x1 ++ x2 ++ x3 ++ x4 ++ x5 ++ x6 ++ x7).extractLsb' 0 1 = x7 := by simp (disch := omega) only [low, high, full, Nat.reduceSub]
theorem f24_6_5 (x0 : BitVec 6) (x1 : BitVec 5) (x2 : BitVec 5) (x3 : BitVec 5) (x4 : BitVec 5) (x5 : BitVec 4) (x6 : BitVec 1) (x7 : BitVec 1) :
    (x0 ++ x1 ++ x2 ++ x3 ++ x4 ++ x5 ++ x6 ++ x7).extractLsb' 6 5 = x4 := by simp (disch := omega) only [low, high, full, Nat.reduceSub]
theorem f24_2_4 (x0 : BitVec 6) (x1 : BitVec 5) (x2 : BitVec 5) (x3 : BitVec 5) (x4 : BitVec 5) (x5 : BitVec 4) (x6 : BitVec 1) (x7 : BitVec 1) :
    (x0 ++ x1 ++ x2 ++ x3 ++ x4 ++ x5 ++ x6 ++ x7).extractLsb' 2 4 = x5 := by simp (disch := omega) only [low, high, full, Nat.reduceSub]
theorem f25_26_6 (x0 : BitVec 6) (x1 : BitVec 5) (x2 : BitVec 5) (x3 : BitVec 5) (x4 : BitVec 3) (x5 : BitVec 1) (x6 : BitVec 1) (x7 : BitVec 1) (x8 : BitVec 5) :
    (x0 ++ x1 ++ x2 ++ x3 ++ x4 ++ x5 ++ x6 ++ x7 ++ x8).extractLsb' 26 6 = x0 := by simp (disch := omega) only [low, high, full, Nat.reduceSub]
theorem f25_0_5 (x0 : BitVec 6) (x1 : BitVec 5) (x2 : BitVec 5) (x3 : BitVec 5) (x4 : BitVec 3) (x5 : BitVec 1) (x6 : BitVec 1) (x7 : BitVec 1) (x8 : BitVec 5) :
    (x0 ++ x1 ++ x2 ++ x3 ++ x4 ++ x5 ++ x6 ++ x7 ++ x8).extractLsb' 0 5 = x8 := by simp (disch := omega) only [low, high, full, Nat.reduceSub]
theorem f25_21_5 (x0 : BitVec 6) (x1 : BitVec 5) (x2 : BitVec 5) (x3 : BitVec 5) (x4 : BitVec 3) (x5 : BitVec 1) (x6 : BitVec 1) (x7 : BitVec 1) (x8 : BitVec 5) :
    (x0 ++ x1 ++ x2 ++ x3 ++ x4 ++ x5 ++ x6 ++ x7 ++ x8).extractLsb' 21 5 = x1 := by simp (disch := omega) only [low, high, full, Nat.reduceSub]
theorem f25_16_5 (x0 : BitVec 6) (x1 : BitVec 5) (x2 : BitVec 5) (x3 : BitVec 5) (x4 : BitVec 3) (x5 : BitVec 1) (x6 : BitVec 1) (x7 : BitVec 1) (x8 : BitVec 5) :
    (x0 ++ x1 ++ x2 ++ x3 ++ x4 ++ x5 ++ x6 ++ x7 ++ x8).extractLsb' 16 5 = x2 := by simp (disch := omega) only [low, high, full, Nat.reduceSub]
theorem f25_11_5 (x0 : BitVec 6) (x1 : BitVec 5) (x2 : BitVec 5) (x3 : BitVec 5) (x4 : BitVec 3) (x5 : BitVec 1) (x6 : BitVec 1) (x7 : BitVec 1) (x8 : BitVec 5) :
    (x0 ++ x1 ++ x2 ++ x3 ++ x4 ++ x5 ++ x6 ++ x7 ++ x8).extractLsb' 11 5 = x3 := by simp (disch := omega) only [low, high, full, Nat.reduceSub]
theorem f25_8_3 (x0 : BitVec 6) (x1 : BitVec 5) (x2 : BitVec 5) (x3 : BitVec 5) (x4 : BitVec 3) (x5 : BitVec 1) (x6 : BitVec 1) (x7 : BitVec 1) (x8 : BitVec 5) :
    (x0 ++ x1 ++ x2 ++ x3 ++ x4 ++ x5 ++ x6 ++ x7 ++ x8).extractLsb' 8 3 = x4 := by simp (disch := omega) only [low, high, full, Nat.reduceSub]
theorem f25_7_1 (x0 : BitVec 6) (x1 : BitVec 5) (x2 : BitVec 5) (x3 : BitVec 5) (x4 : BitVec 3) (x5 : BitVec 1) (x6 : BitVec 1) (x7 : BitVec 1) (x8 : BitVec 5) :
    (x0 ++ x1 ++ x2 ++ x3 ++ x4 ++ x5 ++ x6 ++ x7 ++ x8).extractLsb' 7 1 = x5 := by simp (disch := omega) only [low, high, full, Nat.reduceSub]
theorem f25_6_1 (x0 : BitVec 6) (x1 : BitVec 5) (x2 : BitVec 5) (x3 : BitVec 5) (x4 : BitVec 3) (x5 : BitVec 1) (x6 : BitVec 1) (x7 : BitVec 1) (x8 : BitVec 5) :
    (x0 ++ x1 ++ x2 ++ x3 ++ x4 ++ x5 ++ x6 ++ x7 ++ x8).extractLsb' 6 1 = x6 := by simp (disch := omega) only [low, high, full, Nat.reduceSub]
theorem f25_5_1 (x0 : BitVec 6) (x1 : BitVec 5) (x2 : BitVec 5) (x3 : BitVec 5) (x4 : BitVec 3) (x5 : BitVec 1) (x6 : BitVec 1) (x7 : BitVec 1) (x8 : BitVec 5) :
    (x0 ++ x1 ++ x2 ++ x3 ++ x4 ++ x5 ++ x6 ++ x7 ++ x8).extractLsb' 5 1 = x7 := by simp (disch := omega) only [low, high, full, Nat.reduceSub]
theorem f26_26_6 (x0 : BitVec 6) (x1 : BitVec 5) (x2 : BitVec 5) (x3 : BitVec 5) (x4 : BitVec 3) (x5 : BitVec 1) (x6 : BitVec 1) (x7 : BitVec 6) :
    (x0 ++ x1 ++ x2 ++ x3 ++ x4 ++ x5 ++ x6 ++ x7).extractLsb' 26 6 = x0 := by simp (disch := omega) only [low, high, full, Nat.reduceSub]
theorem f26_0_5 (x0 : BitVec 6) (x1 : BitVec 5) (x2 : BitVec 5) (x3 : BitVec 5) (x4 : BitVec 3) (x5 : BitVec 1) (x6 : BitVec 1) (x7 : BitVec 6) :
    (x0 ++ x1 ++ x2 ++ x3 ++ x4 ++ x5 ++ x6 ++ x7).extractLsb' 0 5 = x7.extractLsb' 0 5 := by simp (disch := omega) only [low, high, full, Nat.reduceSub]
theorem f26_5_1 (x0 : BitVec 6) (x1 : BitVec 5) (x2 : BitVec 5) (x3 : BitVec 5) (x4 : BitVec 3) (x5 : BitVec 1) (x6 : BitVec 1) (x7 : BitVec 6) :
    (x0 ++ x1 ++ x2 ++ x3 ++ x4 ++ x5 ++ x6 ++ x7).extractLsb' 5 1 = x7.extractLsb' 5 1 := by simp (disch := omega) only [low, high, full, Nat.reduceSub]
theorem f26_21_5 (x0 : BitVec 6) (x1 : BitVec 5) (x2 : BitVec 5) (x3 : BitVec 5) (x4 : BitVec 3) (x5 : BitVec 1) (x6 : BitVec 1) (x7 : BitVec 6) :
    (x0 ++ x1 ++ x2 ++ x3 ++ x4 ++ x5 ++ x6 ++ x7).extractLsb' 21 5 = x1 := by simp (disch := omega) only [low, high, full, Nat.reduceSub]
theorem f26_16_5 (x0 : BitVec 6) (x1 : BitVec 5) (x2 : BitVec 5) (x3 : BitVec 5) (x4 : BitVec 3) (x5 : BitVec 1) (x6 : BitVec 1) (x7 : BitVec 6) :
    (x0 ++ x1 ++ x2 ++ x3 ++ x4 ++ x5 ++ x6 ++ x7).extractLsb' 16 5 = x2 := by simp (disch := omega) only [low, high, full, Nat.reduceSub]
theorem f26_11_5 (x0 : BitVec 6) (x1 : BitVec 5) (x2 : BitVec 5) (x3 : BitVec 5) (x4 : BitVec 3) (x5 : BitVec 1) (x6 : BitVec 1) (x7 : BitVec 6) :
    (x0 ++ x1 ++ x2 ++ x3 ++ x4 ++ x5 ++ x6 ++ x7).extractLsb' 11 5 = x3 := by simp (disch := omega) only [low, high, full, Nat.reduceSub]
theorem f26_8_3 (x0 : BitVec 6) (x1 : BitVec 5) (x2 : BitVec 5) (x3 : BitVec 5) (x4 : BitVec 3) (x5 : BitVec 1) (x6 : BitVec 1) (x7 : BitVec 6) :
    (x0 ++ x1 ++ x2 ++ x3 ++ x4 ++ x5 ++ x6 ++ x7).extractLsb' 8 3 = x4 := by simp (disch := omega) only [low, high, full, Nat.reduceSub]
theorem f26_7_1 (x0 : BitVec 6) (x1 : BitVec 5) (x2 : BitVec 5) (x3 : BitVec 5) (x4 : BitVec 3) (x5 : BitVec 1) (x6 : BitVec 1) (x7 : BitVec 6) :
    (x0 ++ x1 ++ x2 ++ x3 ++ x4 ++ x5 ++ x6 ++ x7).extractLsb' 7 1 = x5 := by simp (disch := omega) only [low, high, full, Nat.reduceSub]
theorem f26_6_1 (x0 : BitVec 6) (x1 : BitVec 5) (x2 : BitVec 5) (x3 : BitVec 5) (x4 : BitVec 3) (x5 : BitVec 1) (x6 : BitVec 1) (x7 : BitVec 6) :
    (x0 ++ x1 ++ x2 ++ x3 ++ x4 ++ x5 ++ x6 ++ x7).extractLsb' 6 1 = x6 := by simp (disch := omega) only [low, high, full, Nat.reduceSub]
theorem f27_26_6 (x0 : BitVec 6) (x1 : BitVec 5) (x2 : BitVec 5) (x3 : BitVec 5) (x4 : BitVec 3) (x5 : BitVec 1) (x6 : BitVec 7) :
    (x0 ++ x1 ++ x2 ++ x3 ++ x4 ++ x5 ++ x6).extractLsb' 26 6 = x0 := by simp (disch := omega) only [low, high, full, Nat.reduceSub]
theorem f27_0_5 (x0 : BitVec 6) (x1 : BitVec 5) (x2 : BitVec 5) (x3 : BitVec 5) (x4 : BitVec 3) (x5 : BitVec 1) (x6 : BitVec 7) :
    (x0 ++ x1 ++ x2 ++ x3 ++ x4 ++ x5 ++ x6).extractLsb' 0 5 = x6.extractLsb' 0 5 := by simp (disch := omega) only [low, high, full, Nat.reduceSub]
theorem f27_16_5 (x0 : BitVec 6) (x1 : BitVec 5) (x2 : BitVec 5) (x3 : BitVec 5) (x4 : BitVec 3) (x5 : BitVec 1) (x6 : BitVec 7) :
    (x0 ++ x1 ++ x2 ++ x3 ++ x4 ++ x5 ++ x6).extractLsb' 16 5 = x2 := by simp (disch := omega) only [low, high, full, Nat.reduceSub]
theorem f27_5_2 (x0 : BitVec 6) (x1 : BitVec 5) (x2 : BitVec 5) (x3 : BitVec 5) (x4 : BitVec 3) (x5 : BitVec 1) (x6 : BitVec 7) :
    (x0 ++ x1 ++ x2 ++ x3 ++ x4 ++ x5 ++ x6).extractLsb' 5 2 = x6.extractLsb' 5 2 := by simp (disch := omega) only [low, high, full, Nat.reduceSub]
theorem f27_21_5 (x0 : BitVec 6) (x1 : BitVec 5) (x2 : BitVec 5) (x3 : BitVec 5) (x4 : BitVec 3) (x5 : BitVec 1) (x6 : BitVec 7) :
    (x0 ++ x1 ++ x2 ++ x3 ++ x4 ++ x5 ++ x6).extractLsb' 21 5 = x1 := by simp (disch := omega) only [low, high, full, Nat.reduceSub]
theorem f27_11_5 (x0 : BitVec 6) (x1 : BitVec 5) (x2 : BitVec 5) (x3 : BitVec 5) (x4 : BitVec 3) (x5 : BitVec 1) (x6 : BitVec 7) :
    (x0 ++ x1 ++ x2 ++ x3 ++ x4 ++ x5 ++ x6).extractLsb' 11 5 = x3 := by simp (disch := omega) only [low, high, full, Nat.reduceSub]
theorem f27_8_3 (x0 : BitVec 6) (x1 : BitVec 5) (x2 : BitVec 5) (x3 : BitVec 5) (x4 : BitVec 3) (x5 : BitVec 1) (x6 : BitVec 7) :
    (x0 ++ x1 ++ x2 ++ x3 ++ x4 ++ x5 ++ x6).extractLsb' 8 3 = x4 := by simp (disch := omega) only [low, high, full, Nat.reduceSub]
theorem f27_7_1 (x0 : BitVec 6) (x1 : BitVec 5) (x2 : BitVec 5) (x3 : BitVec 5) (x4 : BitVec 3) (x5 : BitVec 1) (x6 : BitVec 7) :
    (x0 ++ x1 ++ x2 ++ x3 ++ x4 ++ x5 ++ x6).extractLsb' 7 1 = x5 := by simp (disch := omega) only [low, high, full, Nat.reduceSub]
theorem f28_26_6 (x0 : BitVec 6) (x1 : BitVec 5) (x2 : BitVec 10) (x3 : BitVec 3) (x4 : BitVec 8) :
    (x0 ++ x1 ++ x2 ++ x3 ++ x4).extractLsb' 26 6 = x0 := by simp (disch := omega) only [low, high, full, Nat.reduceSub]
theorem f28_0_5 (x0 : BitVec 6) (x1 : BitVec 5) (x2 : BitVec 10) (x3 : BitVec 3) (x4 : BitVec 8) :
    (x0 ++ x1 ++ x2 ++ x3 ++ x4).extractLsb' 0 5 = x4.extractLsb' 0 5 := by simp (disch := omega) only [low, high, full, Nat.reduceSub]
theorem f28_11_10 (x0 : BitVec 6) (x1 : BitVec 5) (x2 : BitVec 10) (x3 : BitVec 3) (x4 : BitVec 8) :
    (x0 ++ x1 ++ x2 ++ x3 ++ x4).extractLsb' 11 10 = x2 := by simp (disch := omega) only [low, high, full, Nat.reduceSub]
theorem f28_5_3 (x0 : BitVec 6) (x1 : BitVec 5) (x2 : BitVec 10) (x3 : BitVec 3) (x4 : BitVec 8) :
    (x0 ++ x1 ++ x2 ++ x3 ++ x4).extractLsb' 5 3 = x4.extractLsb' 5 3 := by simp (disch := omega) only [low, high, full, Nat.reduceSub]
theorem f28_21_5 (x0 : BitVec 6) (x1 : BitVec 5) (x2 : BitVec 10) (x3 : BitVec 3) (x4 : BitVec 8) :
    (x0 ++ x1 ++ x2 ++ x3 ++ x4).extractLsb' 21 5 = x1 := by simp (disch := omega) only [low, high, full, Nat.reduceSub]
theorem f28_8_3 (x0 : BitVec 6) (x1 : BitVec 5) (x2 : BitVec 10) (x3 : BitVec 3) (x4 : BitVec 8) :
    (x0 ++ x1 ++ x2 ++ x3 ++ x4).extractLsb' 8 3 = x3 := by simp (disch := omega) only [low, high, full, Nat.reduceSub]
theorem f29_26_6 (x0 : BitVec 6) (x1 : BitVec 5) (x2 : BitVec 10) (x3 : BitVec 3) (x4 : BitVec 1) (x5 : BitVec 7) :
    (x0 ++ x1 ++ x2 ++ x3 ++ x4 ++ x5).extractLsb' 26 6 = x0 := by simp (disch := omega) only [low, high, full, Nat.reduceSub]
theorem f29_0_5 (x0 : BitVec 6) (x1 : BitVec 5) (x2 : BitVec 10) (x3 : BitVec 3) (x4 : BitVec 1) (x5 : BitVec 7) :
    (x0 ++ x1 ++ x2 ++ x3 ++ x4 ++ x5).extractLsb' 0 5 = x5.extractLsb' 0 5 := by simp (disch := omega) only [low, high, full, Nat.reduceSub]
theorem f29_11_10 (x0 : BitVec 6) (x1 : BitVec 5) (x2 : BitVec 10) (x3 : BitVec 3) (x4 : BitVec 1) (x5 : BitVec 7) :
    (x0 ++ x1 ++ x2 ++ x3 ++ x4 ++ x5).extractLsb' 11 10 = x2 := by simp (disch := omega) only [low, high, full, Nat.reduceSub]
theorem f29_5_2 (x0 : BitVec 6) (x1 : BitVec 5) (x2 : BitVec 10) (x3 : BitVec 3) (x4 : BitVec 1) (x5 : BitVec 7) :
    (x0 ++ x1 ++ x2 ++ x3 ++ x4 ++ x5).extractLsb' 5 2 = x5.extractLsb' 5 2 := by simp (disch := omega) only [low, high, full, Nat.reduceSub]
theorem f29_21_5 (x0 : BitVec 6) (x1 : BitVec 5) (x2 : BitVec 10) (x3 : BitVec 3) (x4 : BitVec 1) (x5 : BitVec 7) :
    (x0 ++ x1 ++ x2 ++ x3 ++ x4 ++ x5).extractLsb' 21 5 = x1 := by simp (disch := omega) only [low, high, full, Nat.reduceSub]
theorem f29_8_3 (x0 : BitVec 6) (x1 : BitVec 5) (x2 : BitVec 10) (x3 : BitVec 3) (x4 : BitVec 1) (x5 : BitVec 7) :
    (x0 ++ x1 ++ x2 ++ x3 ++ x4 ++ x5).extractLsb' 8 3 = x3 := by simp (disch := omega) only [low, high, full, Nat.reduceSub]
theorem f29_7_1 (x0 : BitVec 6) (x1 : BitVec 5) (x2 : BitVec 10) (x3 : BitVec 3) (x4 : BitVec 1) (x5 : BitVec 7) :
    (x0 ++ x1 ++ x2 ++ x3 ++ x4 ++ x5).extractLsb' 7 1 = x4 := by simp (disch := omega) only [low, high, full, Nat.reduceSub]
theorem f30_26_6 (x0 : BitVec 6) (x1 : BitVec 5) (x2 : BitVec 5) (x3 : BitVec 5) (x4 : BitVec 4) (x5 : BitVec 1) (x6 : BitVec 6) :
    (x0 ++ x1 ++ x2 ++ x3 ++ x4 ++ x5 ++ x6).extractLsb' 26 6 = x0 := by simp (disch := omega) only [low, high, full, Nat.reduceSub]
theorem f30_0_5 (x0 : BitVec 6) (x1 : BitVec 5) (x2 : BitVec 5) (x3 : BitVec 5) (x4 : BitVec 4) (x5 : BitVec 1) (x6 : BitVec 6) :
    (x0 ++ x1 ++ x2 ++ x3 ++ x4 ++ x5 ++ x6).extractLsb' 0 5 = x6.extractLsb' 0 5 := by simp (disch := omega) only [low, high, full, Nat.reduceSub]
theorem f30_5_1 (x0 : BitVec 6) (x1 : BitVec 5) (x2 : BitVec 5) (x3 : BitVec 5) (x4 : BitVec 4) (x5 : BitVec 1) (x6 : BitVec 6) :
    (x0 ++ x1 ++ x2 ++ x3 ++ x4 ++ x5 ++ x6).extractLsb' 5 1 = x6.extractLsb' 5 1 := by simp (disch := omega) only [low, high, full, Nat.reduceSub]
theorem f30_21_5 (x0 : BitVec 6) (x1 : BitVec 5) (x2 : BitVec 5) (x3 : BitVec 5) (x4 : BitVec 4) (x5 : BitVec 1) (x6 : BitVec 6) :
    (x0 ++ x1 ++ x2 ++ x3 ++ x4 ++ x5 ++ x6).extractLsb' 21 5 = x1 := by simp (disch := omega) only [low, high, full, Nat.reduceSub]
theorem f30_16_5 (x0 : BitVec 6) (x1 : BitVec 5) (x2 : BitVec 5) (x3 : BitVec 5) (x4 : BitVec 4) (x5 : BitVec 1) (x6 : BitVec 6) :
    (x0 ++ x1 ++ x2 ++ x3 ++ x4 ++ x5 ++ x6).extractLsb' 16 5 = x2 := by simp (disch := omega) only [low, high, full, Nat.reduceSub]
theorem f30_11_5 (x0 : BitVec 6) (x1 : BitVec 5) (x2 : BitVec 5) (x3 : BitVec 5) (x4 : BitVec 4) (x5 : BitVec 1) (x6 : BitVec 6) :
    (x0 ++ x1 ++ x2 ++ x3 ++ x4 ++ x5 ++ x6).extractLsb' 11 5 = x3 := by simp (disch := omega) only [low, high, full, Nat.reduceSub]
theorem f30_7_4 (x0 : BitVec 6) (x1 : BitVec 5) (x2 : BitVec 5) (x3 : BitVec 5) (x4 : BitVec 4) (x5 : BitVec 1) (x6 : BitVec 6) :
    (x0 ++ x1 ++ x2 ++ x3 ++ x4 ++ x5 ++ x6).extractLsb' 7 4 = x4 := by simp (disch := omega) only [low, high, full, Nat.reduceSub]
theorem f30_6_1 (x0 : BitVec 6) (x1 : BitVec 5) (x2 : BitVec 5) (x3 : BitVec 5) (x4 : BitVec 4) (x5 : BitVec 1) (x6 : BitVec 6) :
    (x0 ++ x1 ++ x2 ++ x3 ++ x4 ++ x5 ++ x6).extractLsb' 6 1 = x5 := by simp (disch := omega) only [low, high, full, Nat.reduceSub]
theorem f0_0_5 (x0 : BitVec 6) (x1 : BitVec 5) (x2 : BitVec 5) (x3 : BitVec 5) (x4 : BitVec 11) :
    (x0 ++ x1 ++ x2 ++ x3 ++ x4).extractLsb' 0 5 = x4.extractLsb' 0 5 := by simp (disch := omega) only [low, high, full, Nat.reduceSub]
theorem f0_5_6 (x0 : BitVec 6) (x1 : BitVec 5) (x2 : BitVec 5) (x3 : BitVec 5) (x4 : BitVec 11) :
    (x0 ++ x1 ++ x2 ++ x3 ++ x4).extractLsb' 5 6 = x4.extractLsb' 5 6 := by simp (disch := omega) only [low, high, full, Nat.reduceSub]
theorem f1_0_5 (x0 : BitVec 6) (x1 : BitVec 5) (x2 : BitVec 5) (x3 : BitVec 5) (x4 : BitVec 4) (x5 : BitVec 7) :
    (x0 ++ x1 ++ x2 ++ x3 ++ x4 ++ x5).extractLsb' 0 5 = x5.extractLsb' 0 5 := by simp (disch := omega) only [low, high, full, Nat.reduceSub]
theorem f1_5_2 (x0 : BitVec 6) (x1 : BitVec 5) (x2 : BitVec 5) (x3 : BitVec 5) (x4 : BitVec 4) (x5 : BitVec 7) :
    (x0 ++ x1 ++ x2 ++ x3 ++ x4 ++ x5).extractLsb' 5 2 = x5.extractLsb' 5 2 := by simp (disch := omega) only [low, high, full, Nat.reduceSub]
theorem f2_0_5 (x0 : BitVec 6) (x1 : BitVec 5) (x2 : BitVec 5) (x3 : BitVec 16) :
    (x0 ++ x1 ++ x2 ++ x3).extractLsb' 0 5 = x3.extractLsb' 0 5 := by simp (disch := omega) only [low, high, full, Nat.reduceSub]
theorem f2_5_11 (x0 : BitVec 6) (x1 : BitVec 5) (x2 : BitVec 5) (x3 : BitVec 16) :
    (x0 ++ x1 ++ x2 ++ x3).extractLsb' 5 11 = x3.extractLsb' 5 11 := by simp (disch := omega) only [low, high, full, Nat.reduceSub]
theorem f31_26_6 (x0 : BitVec 6) (x1 : BitVec 5) (x2 : BitVec 5) (x3 : BitVec 1) (x4 : BitVec 1) (x5 : BitVec 3) (x6 : BitVec 3) (x7 : BitVec 1) (x8 : BitVec 1) (x9 : BitVec 6) :
    (x0 ++ x1 ++ x2 ++ x3 ++ x4 ++ x5 ++ x6 ++ x7 ++ x8 ++ x9).extractLsb' 26 6 = x0 := by simp (disch := omega) only [low, high, full, Nat.reduceSub]
theorem f31_0_5 (x0 : BitVec 6) (x1 : BitVec 5) (x2 : BitVec 5) (x3 : BitVec 1) (x4 : BitVec 1) (x5 : BitVec 3) (x6 : BitVec 3) (x7 : BitVec 1) (x8 : BitVec 1) (x9 : BitVec 6) :
    (x0 ++ x1 ++ x2 ++ x3 ++ x4 ++ x5 ++ x6 ++ x7 ++ x8 ++ x9).extractLsb' 0 5 = x9.extractLsb' 0 5 := by simp (disch := omega) only [low, high, full, Nat.reduceSub]
theorem f31_15_1 (x0 : BitVec 6) (x1 : BitVec 5) (x2 : BitVec 5) (x3 : BitVec 1) (x4 : BitVec 1) (x5 : BitVec 3) (x6 : BitVec 3) (x7 : BitVec 1) (x8 : BitVec 1) (x9 : BitVec 6) :
    (x0 ++ x1 ++ x2 ++ x3 ++ x4 ++ x5 ++ x6 ++ x7 ++ x8 ++ x9).extractLsb' 15 1 = x3 := by simp (disch := omega) only [low, high, full, Nat.reduceSub]
theorem f31_5_1 (x0 : BitVec 6) (x1 : BitVec 5) (x2 : BitVec 5) (x3 : BitVec 1) (x4 : BitVec 1) (x5 : BitVec 3) (x6 : BitVec 3) (x7 : BitVec 1) (x8 : BitVec 1) (x9 : BitVec 6) :
    (x0 ++ x1 ++ x2 ++ x3 ++ x4 ++ x5 ++ x6 ++ x7 ++ x8 ++ x9).extractLsb' 5 1 = x9.extractLsb' 5 1 := by simp (disch := omega) only [low, high, full, Nat.reduceSub]
theorem f31_21_5 (x0 : BitVec 6) (x1 : BitVec 5) (x2 : BitVec 5) (x3 : BitVec 1) (x4 : BitVec 1) (x5 : BitVec 3) (x6 : BitVec 3) (x7 : BitVec 1) (x8 : BitVec 1) (x9 : BitVec 6) :
    (x0 ++ x1 ++ x2 ++ x3 ++ x4 ++ x5 ++ x6 ++ x7 ++ x8 ++ x9).extractLsb' 21 5 = x1 := by simp (disch := omega) only [low, high, full, Nat.reduceSub]
theorem f31_16_5 (x0 : BitVec 6) (x1 : BitVec 5) (x2 : BitVec 5) (x3 : BitVec 1) (x4 : BitVec 1) (x5 : BitVec 3) (x6 : BitVec 3) (x7 : BitVec 1) (x8 : BitVec 1) (x9 : BitVec 6) :
    (x0 ++ x1 ++ x2 ++ x3 ++ x4 ++ x5 ++ x6 ++ x7 ++ x8 ++ x9).extractLsb' 16 5 = x2 := by simp (disch := omega) only [low, high, full, Nat.reduceSub]
theorem f31_14_1 (x0 : BitVec 6) (x1 : BitVec 5) (x2 : BitVec 5) (x3 : BitVec 1) (x4 : BitVec 1) (x5 : BitVec 3) (x6 : BitVec 3) (x7 : BitVec 1) (x8 : BitVec 1) (x9 : BitVec 6) :
    (x0 ++ x1 ++ x2 ++ x3 ++ x4 ++ x5 ++ x6 ++ x7 ++ x8 ++ x9).extractLsb' 14 1 = x4 := by simp (disch := omega) only [low, high, full, Nat.reduceSub]
theorem f31_11_3 (x0 : BitVec 6) (x1 : BitVec 5) (x2 : BitVec 5) (x3 : BitVec 1) (x4 : BitVec 1) (x5 : BitVec 3) (x6 : BitVec 3) (x7 : BitVec 1) (x8 : BitVec 1) (x9 : BitVec 6) :
    (x0 ++ x1 ++ x2 ++ x3 ++ x4 ++ x5 ++ x6 ++ x7 ++ x8 ++ x9).extractLsb' 11 3 = x5 := by simp (disch := omega) only [low, high, full, Nat.reduceSub]
theorem f31_8_3 (x0 : BitVec 6) (x1 : BitVec 5) (x2 : BitVec 5) (x3 : BitVec 1) (x4 : BitVec 1) (x5 : BitVec 3) (x6 : BitVec 3) (x7 : BitVec 1) (x8 : BitVec 1) (x9 : BitVec 6) :
    (x0 ++ x1 ++ x2 ++ x3 ++ x4 ++ x5 ++ x6 ++ x7 ++ x8 ++ x9).extractLsb' 8 3 = x6 := by simp (disch := omega) only [low, high, full, Nat.reduceSub]
theorem f31_7_1 (x0 : BitVec 6) (x1 : BitVec 5) (x2 : BitVec 5) (x3 : BitVec 1) (x4 : BitVec 1) (x5 : BitVec 3) (x6 : BitVec 3) (x7 : BitVec 1) (x8 : BitVec 1) (x9 : BitVec 6) :
    (x0 ++ x1 ++ x2 ++ x3 ++ x4 ++ x5 ++ x6 ++ x7 ++ x8 ++ x9).extractLsb' 7 1 = x7 := by simp (disch := omega) only [low, high, full, Nat.reduceSub]
theorem f31_6_1 (x0 : BitVec 6) (x1 : BitVec 5) (x2 : BitVec 5) (x3 : BitVec 1) (x4 : BitVec 1) (x5 : BitVec 3) (x6 : BitVec 3) (x7 : BitVec 1) (x8 : BitVec 1) (x9 : BitVec 6) :
    (x0 ++ x1 ++ x2 ++ x3 ++ x4 ++ x5 ++ x6 ++ x7 ++ x8 ++ x9).extractLsb' 6 1 = x8 := by simp (disch := omega) only [low, high, full, Nat.reduceSub]
theorem f6_0_7 (x0 : BitVec 6) (x1 : BitVec 5) (x2 : BitVec 21) :
    (x0 ++ x1 ++ x2).extractLsb' 0 7 = x2.extractLsb' 0 7 := by simp (disch := omega) only [low, high, full, Nat.reduceSub]
theorem f6_7_14 (x0 : BitVec 6) (x1 : BitVec 5) (x2 : BitVec 21) :
    (x0 ++ x1 ++ x2).extractLsb' 7 14 = x2.extractLsb' 7 14 := by simp (disch := omega) only [low, high, full, Nat.reduceSub]
theorem f32_26_6 (x0 : BitVec 6) (x1 : BitVec 5) (x2 : BitVec 5) (x3 : BitVec 2) (x4 : BitVec 3) (x5 : BitVec 4) (x6 : BitVec 7) :
    (x0 ++ x1 ++ x2 ++ x3 ++ x4 ++ x5 ++ x6).extractLsb' 26 6 = x0 := by simp (disch := omega) only [low, high, full, Nat.reduceSub]
theorem f32_0_7 (x0 : BitVec 6) (x1 : BitVec 5) (x2 : BitVec 5) (x3 : BitVec 2) (x4 : BitVec 3) (x5 : BitVec 4) (x6 : BitVec 7) :
    (x0 ++ x1 ++ x2 ++ x3 ++ x4 ++ x5 ++ x6).extractLsb' 0 7 = x6 := by simp (disch := omega) only [low, high, full, Nat.reduceSub]
theorem f32_21_5 (x0 : BitVec 6) (x1 : BitVec 5) (x2 : BitVec 5) (x3 : BitVec 2) (x4 : BitVec 3) (x5 : BitVec 4) (x6 : BitVec 7) :
    (x0 ++ x1 ++ x2 ++ x3 ++ x4 ++ x5 ++ x6).extractLsb' 21 5 = x1 := by simp (disch := omega) only [low, high, full, Nat.reduceSub]
theorem f32_14_2 (x0 : BitVec 6) (x1 : BitVec 5) (x2 : BitVec 5) (x3 : BitVec 2) (x4 : BitVec 3) (x5 : BitVec 4) (x6 : BitVec 7) :
    (x0 ++ x1 ++ x2 ++ x3 ++ x4 ++ x5 ++ x6).extractLsb' 14 2 = x3 := by simp (disch := omega) only [low, high, full, Nat.reduceSub]
theorem f32_16_5 (x0 : BitVec 6) (x1 : BitVec 5) (x2 : BitVec 5) (x3 : BitVec 2) (x4 : BitVec 3) (x5 : BitVec 4) (x6 : BitVec 7) :
    (x0 ++ x1 ++ x2 ++ x3 ++ x4 ++ x5 ++ x6).extractLsb' 16 5 = x2 := by simp (disch := omega) only [low, high, full, Nat.reduceSub]
theorem f32_11_3 (x0 : BitVec 6) (x1 : BitVec 5) (x2 : BitVec 5) (x3 : BitVec 2) (x4 : BitVec 3) (x5 : BitVec 4) (x6 : BitVec 7) :
    (x0 ++ x1 ++ x2 ++ x3 ++ x4 ++ x5 ++ x6).extractLsb' 11 3 = x4 := by simp (disch := omega) only [low, high, full, Nat.reduceSub]
theorem f32_7_4 (x0 : BitVec 6) (x1 : BitVec 5) (x2 : BitVec 5) (x3 : BitVec 2) (x4 : BitVec 3) (x5 : BitVec 4) (x6 : BitVec 7) :
    (x0 ++ x1 ++ x2 ++ x3 ++ x4 ++ x5 ++ x6).extractLsb' 7 4 = x5 := by simp (disch := omega) only [low, high, full, Nat.reduceSub]
theorem f33_26_6 (x0 : BitVec 6) (x1 : BitVec 5) (x2 : BitVec 10) (x3 : BitVec 4) (x4 : BitVec 7) :
    (x0 ++ x1 ++ x2 ++ x3 ++ x4).extractLsb' 26 6 = x0 := by simp (disch := omega) only [low, high, full, Nat.reduceSub]
theorem f33_0_7 (x0 : BitVec 6) (x1 : BitVec 5) (x2 : BitVec 10) (x3 : BitVec 4) (x4 : BitVec 7) :
    (x0 ++ x1 ++ x2 ++ x3 ++ x4).extractLsb' 0 7 = x4 := by simp (disch := omega) only [low, high, full, Nat.reduceSub]
theorem f33_11_10 (x0 : BitVec 6) (x1 : BitVec 5) (x2 : BitVec 10) (x3 : BitVec 4) (x4 : BitVec 7) :
    (x0 ++ x1 ++ x2 ++ x3 ++ x4).extractLsb' 11 10 = x2 := by simp (disch := omega) only [low, high, full, Nat.reduceSub]
theorem f33_21_5 (x0 : BitVec 6) (x1 : BitVec 5) (x2 : BitVec 10) (x3 : BitVec 4) (x4 : BitVec 7) :
    (x0 ++ x1 ++ x2 ++ x3 ++ x4).extractLsb' 21 5 = x1 := by simp (disch := omega) only [low, high, full, Nat.reduceSub]
theorem f33_7_4 (x0 : BitVec 6) (x1 : BitVec 5) (x2 : BitVec 10) (x3 : BitVec 4) (x4 : BitVec 7) :
    (x0 ++ x1 ++ x2 ++ x3 ++ x4).extractLsb' 7 4 = x3 := by simp (disch := omega) only [low, high, full, Nat.reduceSub]
theorem f0_5_2 (x0 : BitVec 6) (x1 : BitVec 5) (x2 : BitVec 5) (x3 : BitVec 5) (x4 : BitVec 11) :
    (x0 ++ x1 ++ x2 ++ x3 ++ x4).extractLsb' 5 2 = x4.extractLsb' 5 2 := by simp (disch := omega) only [low, high, full, Nat.reduceSub]
theorem f2_5_2 (x0 : BitVec 6) (x1 : BitVec 5) (x2 : BitVec 5) (x3 : BitVec 16) :
    (x0 ++ x1 ++ x2 ++ x3).extractLsb' 5 2 = x3.extractLsb' 5 2 := by simp (disch := omega) only [low, high, full, Nat.reduceSub]
theorem f34_26_6 (x0 : BitVec 6) (x1 : BitVec 5) (x2 : BitVec 5) (x3 : BitVec 5) (x4 : BitVec 4) (x5 : BitVec 2) (x6 : BitVec 5) :
    (x0 ++ x1 ++ x2 ++ x3 ++ x4 ++ x5 ++ x6).extractLsb' 26 6 = x0 := by simp (disch := omega) only [low, high, full, Nat.reduceSub]
theorem f34_5_2 (x0 : BitVec 6) (x1 : BitVec 5) (x2 : BitVec 5) (x3 : BitVec 5) (x4 : BitVec 4) (x5 : BitVec 2) (x6 : BitVec 5) :
    (x0 ++ x1 ++ x2 ++ x3 ++ x4 ++ x5 ++ x6).extractLsb' 5 2 = x5 := by simp (disch := omega) only [low, high, full, Nat.reduceSub]
theorem f34_21_5 (x0 : BitVec 6) (x1 : BitVec 5) (x2 : BitVec 5) (x3 : BitVec 5) (x4 : BitVec 4) (x5 : BitVec 2) (x6 : BitVec 5) :
    (x0 ++ x1 ++ x2 ++ x3 ++ x4 ++ x5 ++ x6).extractLsb' 21 5 = x1 := by simp (disch := omega) only [low, high, full, Nat.reduceSub]
theorem f34_16_5 (x0 : BitVec 6) (x1 : BitVec 5) (x2 : BitVec 5) (x3 : BitVec 5) (x4 : BitVec 4) (x5 : BitVec 2) (x6 : BitVec 5) :
    (x0 ++ x1 ++ x2 ++ x3 ++ x4 ++ x5 ++ x6).extractLsb' 16 5 = x2 := by simp (disch := omega) only [low, high, full, Nat.reduceSub]
theorem f34_11_5 (x0 : BitVec 6) (x1 : BitVec 5) (x2 : BitVec 5) (x3 : BitVec 5) (x4 : BitVec 4) (x5 : BitVec 2) (x6 : BitVec 5) :
    (x0 ++ x1 ++ x2 ++ x3 ++ x4 ++ x5 ++ x6).extractLsb' 11 5 = x3 := by simp (disch := omega) only [low, high, full, Nat.reduceSub]
theorem f34_7_4 (x0 : BitVec 6) (x1 : BitVec 5) (x2 : BitVec 5) (x3 : BitVec 5) (x4 : BitVec 4) (x5 : BitVec 2) (x6 : BitVec 5) :
    (x0 ++ x1 ++ x2 ++ x3 ++ x4 ++ x5 ++ x6).extractLsb' 7 4 = x4 := by simp (disch := omega) only [low, high, full, Nat.reduceSub]
theorem f34_0_5 (x0 : BitVec 6) (x1 : BitVec 5) (x2 : BitVec 5) (x3 : BitVec 5) (x4 : BitVec 4) (x5 : BitVec 2) (x6 : BitVec 5) :
    (x0 ++ x1 ++ x2 ++ x3 ++ x4 ++ x5 ++ x6).extractLsb' 0 5 = x6 := by simp (disch := omega) only [low, high, full, Nat.reduceSub]
theorem f35_26_6 (x0 : BitVec 6) (x1 : BitVec 5) (x2 : BitVec 5) (x3 : BitVec 5) (x4 : BitVec 4) (x5 : BitVec 4) (x6 : BitVec 3) :
    (x0 ++ x1 ++ x2 ++ x3 ++ x4 ++ x5 ++ x6).extractLsb' 26 6 = x0 := by simp (disch := omega) only [low, high, full, Nat.reduceSub]
theorem f35_3_4 (x0 : BitVec 6) (x1 : BitVec 5) (x2 : BitVec 5) (x3 : BitVec 5) (x4 : BitVec 4) (x5 : BitVec 4) (x6 : BitVec 3) :
    (x0 ++ x1 ++ x2 ++ x3 ++ x4 ++ x5 ++ x6).extractLsb' 3 4 = x5 := by simp (disch := omega) only [low, high, full, Nat.reduceSub]
theorem f35_21_5 (x0 : BitVec 6) (x1 : BitVec 5) (x2 : BitVec 5) (x3 : BitVec 5) (x4 : BitVec 4) (x5 : BitVec 4) (x6 : BitVec 3) :
    (x0 ++ x1 ++ x2 ++ x3 ++ x4 ++ x5 ++ x6).extractLsb' 21 5 = x1 := by simp (disch := omega) only [low, high, full, Nat.reduceSub]
theorem f35_16_5 (x0 : BitVec 6) (x1 : BitVec 5) (x2 : BitVec 5) (x3 : BitVec 5) (x4 : BitVec 4) (x5 : BitVec 4) (x6 : BitVec 3) :
    (x0 ++ x1 ++ x2 ++ x3 ++ x4 ++ x5 ++ x6).extractLsb' 16 5 = x2 := by simp (disch := omega) only [low, high, full, Nat.reduceSub]
theorem f35_11_5 (x0 : BitVec 6) (x1 : BitVec 5) (x2 : BitVec 5) (x3 : BitVec 5) (x4 : BitVec 4) (x5 : BitVec 4) (x6 : BitVec 3) :
    (x0 ++ x1 ++ x2 ++ x3 ++ x4 ++ x5 ++ x6).extractLsb' 11 5 = x3 := by simp (disch := omega) only [low, high, full, Nat.reduceSub]
theorem f35_7_4 (x0 : BitVec 6) (x1 : BitVec 5) (x2 : BitVec 5) (x3 : BitVec 5) (x4 : BitVec 4) (x5 : BitVec 4) (x6 : BitVec 3) :
    (x0 ++ x1 ++ x2 ++ x3 ++ x4 ++ x5 ++ x6).extractLsb' 7 4 = x4 := by simp (disch := omega) only [low, high, full, Nat.reduceSub]
theorem f35_0_3 (x0 : BitVec 6) (x1 : BitVec 5) (x2 : BitVec 5) (x3 : BitVec 5) (x4 : BitVec 4) (x5 : BitVec 4) (x6 : BitVec 3) :
    (x0 ++ x1 ++ x2 ++ x3 ++ x4 ++ x5 ++ x6).extractLsb' 0 3 = x6 := by simp (disch := omega) only [low, high, full, Nat.reduceSub]
theorem f1_3_4 (x0 : BitVec 6) (x1 : BitVec 5) (x2 : BitVec 5) (x3 : BitVec 5) (x4 : BitVec 4) (x5 : BitVec 7) :
    (x0 ++ x1 ++ x2 ++ x3 ++ x4 ++ x5).extractLsb' 3 4 = x5.extractLsb' 3 4 := by simp (disch := omega) only [low, high, full, Nat.reduceSub]
theorem f2_3_4 (x0 : BitVec 6) (x1 : BitVec 5) (x2 : BitVec 5) (x3 : BitVec 16) :
    (x0 ++ x1 ++ x2 ++ x3).extractLsb' 3 4 = x3.extractLsb' 3 4 := by simp (disch := omega) only [low, high, full, Nat.reduceSub]

end Sys2Proof.Laws.Fields
end

