-- ==== Sys2Proof/Laws/Memory.lean ====
section
/-! SUPPORT. The canonical form of memory and what a write does to reads: every memory operation keeps the form. -/
namespace Sys2Proof.Laws
open Sys2Proof.Machine

/-- A bound that is lower still bounds. -/
theorem cellsAbove_weaken {l : List Host.Cell} {a b : Nat} (h : a ≤ b) (c : cellsAbove (some b) l = true) :
    cellsAbove (some a) l = true := by
  cases l with
  | nil => rfl
  | cons e r =>
    obtain ⟨k, v⟩ := e
    simp only [cellsAbove, Bool.and_eq_true, decide_eq_true_eq] at c ⊢
    exact ⟨⟨by omega, c.1.2⟩, c.2⟩
theorem cellsAbove_none {l : List Host.Cell} {a : Nat} (c : cellsAbove (some a) l = true) : cellsAbove none l = true := by
  cases l with
  | nil => rfl
  | cons e r =>
    obtain ⟨k, v⟩ := e
    simp only [cellsAbove, Bool.and_eq_true] at c ⊢
    exact ⟨⟨trivial, c.1.2⟩, c.2⟩

/-- A write above the bound keeps the form. -/
theorem cellWrite_above (l : List Host.Cell) (lo a : Nat) (b : Byte) (h : lo < a) (c : cellsAbove (some lo) l = true) :
    cellsAbove (some lo) (cellWrite l a b) = true := by
  induction l generalizing lo with
  | nil =>
    simp only [cellWrite]
    split
    · rfl
    · simp_all [cellsAbove]
  | cons e r ih =>
    obtain ⟨k, v⟩ := e
    simp only [cellsAbove, Bool.and_eq_true, decide_eq_true_eq] at c
    simp only [cellWrite]
    split
    · split
      · simp_all [cellsAbove]
      · rename_i hk hb
        simp only [cellsAbove, Bool.and_eq_true, decide_eq_true_eq]
        exact ⟨⟨h, by simpa using hb⟩, ⟨hk, c.1.2⟩, c.2⟩
    · split
      · rename_i _ hk
        subst hk
        split
        · exact cellsAbove_weaken (by omega) c.2
        · rename_i hb
          simp only [cellsAbove, Bool.and_eq_true, decide_eq_true_eq]
          exact ⟨⟨h, by simpa using hb⟩, c.2⟩
      · simp only [cellsAbove, Bool.and_eq_true, decide_eq_true_eq]
        exact ⟨⟨c.1.1, c.1.2⟩, ih k (by omega) c.2⟩

/-- A write keeps the canonical form. -/
theorem cellWrite_wf (l : List Host.Cell) (a : Nat) (b : Byte) (c : cellsAbove none l = true) :
    cellsAbove none (cellWrite l a b) = true := by
  cases l with
  | nil =>
    simp only [cellWrite]
    split
    · rfl
    · simp_all [cellsAbove]
  | cons e r =>
    obtain ⟨k, v⟩ := e
    simp only [cellsAbove, Bool.and_eq_true] at c
    simp only [cellWrite]
    split
    · split
      · simp_all [cellsAbove]
      · rename_i hk hb
        simp only [cellsAbove, Bool.and_eq_true, decide_eq_true_eq]
        exact ⟨⟨trivial, by simpa using hb⟩, ⟨hk, c.1.2⟩, c.2⟩
    · split
      · rename_i _ hk
        subst hk
        split
        · exact cellsAbove_none c.2
        · rename_i hb
          simp only [cellsAbove, Bool.and_eq_true]
          exact ⟨⟨trivial, by simpa using hb⟩, c.2⟩
      · simp only [cellsAbove, Bool.and_eq_true]
        exact ⟨⟨trivial, c.1.2⟩, cellWrite_above r k a b (by omega) c.2⟩

/-- A key at or below the bound is not listed. -/
theorem cellRead_low (l : List Host.Cell) (lo a : Nat) (h : a ≤ lo) (c : cellsAbove (some lo) l = true) :
    cellRead l a = Memory.blank := by
  cases l with
  | nil => rfl
  | cons e r =>
    obtain ⟨k, v⟩ := e
    simp only [cellsAbove, Bool.and_eq_true, decide_eq_true_eq] at c
    simp only [cellRead]
    rw [if_neg (by omega), if_pos (by omega)]

/-- The value read after a write, in any list whose keys rise above a bound. -/
theorem cellRead_cellWrite (l : List Host.Cell) (lo : Option Nat) (a x : Nat) (b : Byte) (c : cellsAbove lo l = true) :
    cellRead (cellWrite l a b) x = if x = a then b else cellRead l x := by
  induction l generalizing lo with
  | nil =>
    simp only [cellWrite]
    split
    · rename_i hb
      simp [cellRead, hb]
    · simp only [cellRead]
      split
      · rfl
      · split <;> rfl
  | cons e r ih =>
    obtain ⟨k, v⟩ := e
    have cr : cellsAbove (some k) r = true := by
      cases lo <;> simp only [cellsAbove, Bool.and_eq_true] at c <;> exact c.2
    simp only [cellWrite]
    split
    · rename_i hk
      split
      · rename_i hb
        simp only [cellRead]
        split
        · rename_i hx
          rw [if_neg (by omega)]
        · split
          · split
            · exact hb.symm
            · rfl
          · rw [if_neg (by omega)]
      · simp only [cellRead]
        split
        · rfl
        · split
          · split
            · omega
            · rw [if_pos (by omega)]
          · rfl
    · split
      · rename_i _ hk
        subst hk
        split
        · rename_i hb
          simp only [cellRead]
          split
          · rename_i hx
            rw [hx, cellRead_low r a a (Nat.le_refl _) cr, hb]
          · split
            · rename_i hx
              exact cellRead_low r a x (by omega) cr
            · rfl
        · simp only [cellRead]
          split
          · rfl
          · rfl
      · simp only [cellRead]
        split
        · rename_i hx
          rw [if_neg (by omega)]
        · split
          · rw [if_neg (by omega)]
          · exact ih (some k) cr

/-- A written byte reads back; every other byte reads as before. -/
theorem read_write (m : Memory) (a x : Nat) (b : Byte) (h : m.wf = true) :
    (m.write a b).read x = if x = a then b else m.read x := cellRead_cellWrite m.bytes none a x b h
@[simp] theorem write_wf (m : Memory) (a : Nat) (b : Byte) (h : m.wf = true) : (m.write a b).wf = true := cellWrite_wf m.bytes a b h

@[simp] theorem writeBytes_wf (m : Memory) (a : Nat) (bs : List Byte) (h : m.wf = true) : (m.writeBytes a bs).wf = true := by
  induction bs generalizing m a with
  | nil => exact h
  | cons b r ih => exact ih _ _ (write_wf m a b h)
/-- What a byte reads after a run of bytes has been written. -/
theorem read_writeBytes (m : Memory) (a x : Nat) (bs : List Byte) (h : m.wf = true) :
    (m.writeBytes a bs).read x = if a ≤ x ∧ x < a + bs.length then bs.getD (x - a) 0 else m.read x := by
  induction bs generalizing m a with
  | nil => simp [Memory.writeBytes, show ¬(a ≤ x ∧ x < a) by omega]
  | cons b r ih =>
    rw [Memory.writeBytes, ih _ _ (write_wf m a b h), read_write m a x b h]
    simp only [List.length_cons]
    by_cases hx : x = a
    · subst hx
      rw [if_neg (by omega), if_pos rfl, if_pos (by omega)]
      simp
    · by_cases hy : a + 1 ≤ x ∧ x < a + 1 + r.length
      · rw [if_pos hy, if_pos (by omega)]
        have : x - a = (x - (a + 1)) + 1 := by omega
        rw [this, List.getD_cons_succ]
      · rw [if_neg hy, if_neg hx, if_neg (by omega)]

@[simp] theorem poisonWord_wf (m : Memory) (a : Nat) (h : m.wf = true) : (m.poisonWord a).wf = true := writeBytes_wf m _ _ h
@[simp] theorem cleanWord_wf (m : Memory) (a : Nat) (h : m.wf = true) : (m.cleanWord a).wf = true := h
@[simp] theorem claim_wf (m : Memory) (a : Nat) (h : m.wf = true) : (m.claim a).wf = true := h
@[simp] theorem setMeas_wf (m : Memory) (a : Nat) (v : Bool) (h : m.wf = true) : (m.setMeas a v).wf = true := h
/-- A fold of operations that keep the form keeps it. -/
theorem foldl_wf {α : Type} (f : Memory → α → Memory) (hf : ∀ m a, m.wf = true → (f m a).wf = true) (l : List α) (m : Memory)
    (h : m.wf = true) : (l.foldl f m).wf = true := by
  induction l generalizing m with
  | nil => exact h
  | cons a r ih => exact ih _ (hf m a h)
@[simp] theorem writeClean_wf (m : Memory) (a : Nat) (bs : List Byte) (h : m.wf = true) : (m.writeClean a bs).wf = true :=
  writeBytes_wf _ _ _ (foldl_wf _ cleanWord_wf _ _ h)
@[simp] theorem writePoison_wf (m : Memory) (a n : Nat) (h : m.wf = true) : (m.writePoison a n).wf = true :=
  foldl_wf _ poisonWord_wf _ _ h

/-- Cleaning words changes no byte. -/
theorem foldl_cleanWord_bytes (l : List Nat) (m : Memory) : (l.foldl Memory.cleanWord m).bytes = m.bytes := by
  induction l generalizing m with
  | nil => rfl
  | cons a r ih => exact ih _
/-- What a byte reads after a clean write. -/
theorem read_writeClean (m : Memory) (a x : Nat) (bs : List Byte) (h : m.wf = true) :
    (m.writeClean a bs).read x = if a ≤ x ∧ x < a + bs.length then bs.getD (x - a) 0 else m.read x := by
  have hb := foldl_cleanWord_bytes (wordsOf a bs.length) m
  rw [Memory.writeClean, read_writeBytes _ _ _ _ (foldl_wf _ cleanWord_wf _ _ h)]
  simp only [Memory.read, hb]

/-- Memory right after reset is in canonical form. -/
theorem reset_wf : State.reset.mem.wf = true := rfl

end Sys2Proof.Laws
end

