-- ==== Sys2Proof/Laws/PerInstr.lean ====
section
/-! SUPPORT. The family `Encoding`: what the encoder writes, the decoder reads back, per constructor. -/
namespace Sys2Proof.Laws
open Fields
set_option linter.unusedSimpArgs false

/-- Where an instruction is well formed, its word decodes to it, and its compact half does in either place of a pair word. -/
def Encoding.Statement (i : Instr) : Prop :=
  i.WellFormed →
    (∀ w, encode i = some w → decode w false = .ok i) ∧
    (∀ h, encodeCompact i = some h → ∀ g, decode (pairWord h g) false = .ok i ∧ decode (pairWord g h) true = .ok i)

/-- The range checks let a well-formed instruction pass. -/
theorem checked_ok {i : Instr} (h : i.WellFormed) : checked (.ok i) = .ok i := by
  simp only [checked]
  rw [show i.formError = none from h]

theorem major_top (w : Half) : w.extractLsb' 30 2 = (w.extractLsb' 26 6).extractLsb' 4 2 := by
  ext i hi
  simp only [BitVec.getElem_extractLsb']
  rw [BitVec.getLsbD_extractLsb']
  have : 4 + i < 6 := by omega
  simp only [this, decide_true, Bool.true_and]
  congr 1
  omega

theorem roundTrip {i : Instr} {w : Half} (k : BitVec 6) (f : Half → Decoded) (he : encode i = some w)
    (hc : encodeCompact i = none) (hk : w.extractLsb' 26 6 = k) (hf : ∀ v, v.extractLsb' 26 6 = k → decodeMajor v = f v)
    (hp : (k.extractLsb' 4 2 == 3#2) = false) (hd : f w = .ok i) : Encoding.Statement i := by
  intro wf
  refine ⟨fun v hv => ?_, fun h hh => by rw [hc] at hh; cases hh⟩
  have hw : v = w := by rw [he] at hv; exact (Option.some.inj hv).symm
  have np : isPair w = false := by unfold isPair; rw [major_top, hk]; exact hp
  rw [hw, decode, np, hf w hk, hd]
  exact checked_ok wf

theorem cOp (k a b : BitVec 5) : (k ++ a ++ b).extractLsb' 10 5 = k := by simp (disch := omega) only [low, high, full, Nat.reduceSub]
theorem cA (k a b : BitVec 5) : (k ++ a ++ b).extractLsb' 5 5 = a := by simp (disch := omega) only [low, high, full, Nat.reduceSub]
theorem cB (k a b : BitVec 5) : (k ++ a ++ b).extractLsb' 0 5 = b := by simp (disch := omega) only [low, high, full, Nat.reduceSub]

theorem compactTrip {i : Instr} (k a b : BitVec 5) (he : encode i = none) (hc : encodeCompact i = some (k ++ a ++ b))
    (hd : decodeCompact (k ++ a ++ b) = .ok i) : Encoding.Statement i := by
  intro wf
  refine ⟨fun v hv => (by rw [he] at hv; cases hv), fun h hh g => ?_⟩
  have hw : h = k ++ a ++ b := by rw [hc] at hh; exact (Option.some.inj hh).symm
  subst hw
  have p1 (x y : BitVec 15) : isPair (pairWord x y) = true := by
    unfold isPair pairWord
    simp (disch := omega) only [high, Nat.reduceSub]
    rfl
  have p2 (x y : BitVec 15) : (pairWord x y).extractLsb' 15 15 = x := by
    unfold pairWord
    simp (disch := omega) only [low, high, full, Nat.reduceSub]
  have p3 (x y : BitVec 15) : (pairWord x y).extractLsb' 0 15 = y := by
    unfold pairWord
    simp (disch := omega) only [low, full, Nat.reduceSub]
  constructor
  · rw [decode, p1, if_pos rfl]
    simp only [Bool.false_eq_true, if_false, p2, hd]
    exact checked_ok wf
  · rw [decode, p1, if_pos rfl]
    simp only [if_true, p3, hd]
    exact checked_ok wf

theorem noWord {i : Instr} (he : encode i = none) (hc : encodeCompact i = none) : Encoding.Statement i :=
  fun _ => ⟨fun v hv => (by rw [he] at hv; cases hv), fun h hh => by rw [hc] at hh; cases hh⟩

theorem major_01 (v : Half) (h : v.extractLsb' 26 6 = 1#6) : decodeMajor v = decodeMajor01 v := by unfold decodeMajor; rw [h]; rfl
theorem major_06 (v : Half) (h : v.extractLsb' 26 6 = 6#6) : decodeMajor v = decodeMajor06 v := by unfold decodeMajor; rw [h]; rfl
theorem major_0B (v : Half) (h : v.extractLsb' 26 6 = 11#6) : decodeMajor v = decodeMajor0B v := by unfold decodeMajor; rw [h]; rfl
theorem major_0C (v : Half) (h : v.extractLsb' 26 6 = 12#6) : decodeMajor v = decodeMajor0C v := by unfold decodeMajor; rw [h]; rfl
theorem major_0D (v : Half) (h : v.extractLsb' 26 6 = 13#6) : decodeMajor v = decodeMajor0D v := by unfold decodeMajor; rw [h]; rfl
theorem major_16 (v : Half) (h : v.extractLsb' 26 6 = 22#6) : decodeMajor v = decodeMajor16 v := by unfold decodeMajor; rw [h]; rfl
theorem major_17 (v : Half) (h : v.extractLsb' 26 6 = 23#6) : decodeMajor v = decodeMajor17 v := by unfold decodeMajor; rw [h]; rfl
theorem major_18 (v : Half) (h : v.extractLsb' 26 6 = 24#6) : decodeMajor v = decodeMajor18 v := by unfold decodeMajor; rw [h]; rfl
theorem major_19 (v : Half) (h : v.extractLsb' 26 6 = 25#6) : decodeMajor v = decodeMajor19 v := by unfold decodeMajor; rw [h]; rfl
theorem major_1A (v : Half) (h : v.extractLsb' 26 6 = 26#6) : decodeMajor v = decodeMajor1A v := by unfold decodeMajor; rw [h]; rfl
theorem major_1B (v : Half) (h : v.extractLsb' 26 6 = 27#6) : decodeMajor v = decodeMajor1B v := by unfold decodeMajor; rw [h]; rfl
theorem major_1C (v : Half) (h : v.extractLsb' 26 6 = 28#6) : decodeMajor v = decodeMajor1C v := by unfold decodeMajor; rw [h]; rfl
theorem major_1D (v : Half) (h : v.extractLsb' 26 6 = 29#6) : decodeMajor v = decodeMajor1D v := by unfold decodeMajor; rw [h]; rfl
theorem major_1E (v : Half) (h : v.extractLsb' 26 6 = 30#6) : decodeMajor v = decodeMajor1E v := by unfold decodeMajor; rw [h]; rfl
theorem major_1F (v : Half) (h : v.extractLsb' 26 6 = 31#6) : decodeMajor v = decodeMajor1F v := by unfold decodeMajor; rw [h]; rfl
theorem major_20 (v : Half) (h : v.extractLsb' 26 6 = 32#6) : decodeMajor v = decodeMajor20 v := by unfold decodeMajor; rw [h]; rfl
theorem major_21 (v : Half) (h : v.extractLsb' 26 6 = 33#6) : decodeMajor v = decodeMajor21 v := by unfold decodeMajor; rw [h]; rfl
theorem major_22 (v : Half) (h : v.extractLsb' 26 6 = 34#6) : decodeMajor v = decodeMajor22 v := by unfold decodeMajor; rw [h]; rfl
theorem major_23 (v : Half) (h : v.extractLsb' 26 6 = 35#6) : decodeMajor v = decodeMajor23 v := by unfold decodeMajor; rw [h]; rfl
theorem major_24 (v : Half) (h : v.extractLsb' 26 6 = 36#6) : decodeMajor v = decodeMajor24 v := by unfold decodeMajor; rw [h]; rfl
theorem major_25 (v : Half) (h : v.extractLsb' 26 6 = 37#6) : decodeMajor v = decodeMajor25 v := by unfold decodeMajor; rw [h]; rfl
theorem major_26 (v : Half) (h : v.extractLsb' 26 6 = 38#6) : decodeMajor v = decodeMajor26 v := by unfold decodeMajor; rw [h]; rfl
theorem major_27 (v : Half) (h : v.extractLsb' 26 6 = 39#6) : decodeMajor v = decodeMajor27 v := by unfold decodeMajor; rw [h]; rfl
theorem major_28 (v : Half) (h : v.extractLsb' 26 6 = 40#6) : decodeMajor v = decodeMajor28 v := by unfold decodeMajor; rw [h]; rfl
theorem major_29 (v : Half) (h : v.extractLsb' 26 6 = 41#6) : decodeMajor v = decodeMajor29 v := by unfold decodeMajor; rw [h]; rfl
theorem major_2A (v : Half) (h : v.extractLsb' 26 6 = 42#6) : decodeMajor v = decodeMajor2A v := by unfold decodeMajor; rw [h]; rfl

theorem Encoding.add (d : BitVec 5) (a : BitVec 5) (b : BitVec 5) : Encoding.Statement (.add d a b) := by
  refine roundTrip 1#6 decodeMajor01 rfl rfl (f0_26_6 ..) major_01 rfl ?_
  unfold decodeMajor01; rw [f0_0_7, f0_7_4, f0_21_5, f0_16_5, f0_11_5]; rfl
theorem Encoding.sub (d : BitVec 5) (a : BitVec 5) (b : BitVec 5) : Encoding.Statement (.sub d a b) := by
  refine roundTrip 1#6 decodeMajor01 rfl rfl (f0_26_6 ..) major_01 rfl ?_
  unfold decodeMajor01; rw [f0_0_7, f0_7_4, f0_21_5, f0_16_5, f0_11_5]; rfl
theorem Encoding.and (d : BitVec 5) (a : BitVec 5) (b : BitVec 5) : Encoding.Statement (.and d a b) := by
  refine roundTrip 1#6 decodeMajor01 rfl rfl (f0_26_6 ..) major_01 rfl ?_
  unfold decodeMajor01; rw [f0_0_7, f0_7_4, f0_21_5, f0_16_5, f0_11_5]; rfl
theorem Encoding.or (d : BitVec 5) (a : BitVec 5) (b : BitVec 5) : Encoding.Statement (.or d a b) := by
  refine roundTrip 1#6 decodeMajor01 rfl rfl (f0_26_6 ..) major_01 rfl ?_
  unfold decodeMajor01; rw [f0_0_7, f0_7_4, f0_21_5, f0_16_5, f0_11_5]; rfl
theorem Encoding.xor (d : BitVec 5) (a : BitVec 5) (b : BitVec 5) : Encoding.Statement (.xor d a b) := by
  refine roundTrip 1#6 decodeMajor01 rfl rfl (f0_26_6 ..) major_01 rfl ?_
  unfold decodeMajor01; rw [f0_0_7, f0_7_4, f0_21_5, f0_16_5, f0_11_5]; rfl
theorem Encoding.shl (d : BitVec 5) (a : BitVec 5) (b : BitVec 5) : Encoding.Statement (.shl d a b) := by
  refine roundTrip 1#6 decodeMajor01 rfl rfl (f0_26_6 ..) major_01 rfl ?_
  unfold decodeMajor01; rw [f0_0_7, f0_7_4, f0_21_5, f0_16_5, f0_11_5]; rfl
theorem Encoding.shr (d : BitVec 5) (a : BitVec 5) (b : BitVec 5) : Encoding.Statement (.shr d a b) := by
  refine roundTrip 1#6 decodeMajor01 rfl rfl (f0_26_6 ..) major_01 rfl ?_
  unfold decodeMajor01; rw [f0_0_7, f0_7_4, f0_21_5, f0_16_5, f0_11_5]; rfl
theorem Encoding.sra (d : BitVec 5) (a : BitVec 5) (b : BitVec 5) : Encoding.Statement (.sra d a b) := by
  refine roundTrip 1#6 decodeMajor01 rfl rfl (f0_26_6 ..) major_01 rfl ?_
  unfold decodeMajor01; rw [f0_0_7, f0_7_4, f0_21_5, f0_16_5, f0_11_5]; rfl
theorem Encoding.slt (d : BitVec 5) (a : BitVec 5) (b : BitVec 5) : Encoding.Statement (.slt d a b) := by
  refine roundTrip 1#6 decodeMajor01 rfl rfl (f0_26_6 ..) major_01 rfl ?_
  unfold decodeMajor01; rw [f0_0_7, f0_7_4, f0_21_5, f0_16_5, f0_11_5]; rfl
theorem Encoding.sltu (d : BitVec 5) (a : BitVec 5) (b : BitVec 5) : Encoding.Statement (.sltu d a b) := by
  refine roundTrip 1#6 decodeMajor01 rfl rfl (f0_26_6 ..) major_01 rfl ?_
  unfold decodeMajor01; rw [f0_0_7, f0_7_4, f0_21_5, f0_16_5, f0_11_5]; rfl
theorem Encoding.min (d : BitVec 5) (a : BitVec 5) (b : BitVec 5) : Encoding.Statement (.min d a b) := by
  refine roundTrip 1#6 decodeMajor01 rfl rfl (f0_26_6 ..) major_01 rfl ?_
  unfold decodeMajor01; rw [f0_0_7, f0_7_4, f0_21_5, f0_16_5, f0_11_5]; rfl
theorem Encoding.max (d : BitVec 5) (a : BitVec 5) (b : BitVec 5) : Encoding.Statement (.max d a b) := by
  refine roundTrip 1#6 decodeMajor01 rfl rfl (f0_26_6 ..) major_01 rfl ?_
  unfold decodeMajor01; rw [f0_0_7, f0_7_4, f0_21_5, f0_16_5, f0_11_5]; rfl
theorem Encoding.minu (d : BitVec 5) (a : BitVec 5) (b : BitVec 5) : Encoding.Statement (.minu d a b) := by
  refine roundTrip 1#6 decodeMajor01 rfl rfl (f0_26_6 ..) major_01 rfl ?_
  unfold decodeMajor01; rw [f0_0_7, f0_7_4, f0_21_5, f0_16_5, f0_11_5]; rfl
theorem Encoding.maxu (d : BitVec 5) (a : BitVec 5) (b : BitVec 5) : Encoding.Statement (.maxu d a b) := by
  refine roundTrip 1#6 decodeMajor01 rfl rfl (f0_26_6 ..) major_01 rfl ?_
  unfold decodeMajor01; rw [f0_0_7, f0_7_4, f0_21_5, f0_16_5, f0_11_5]; rfl
theorem Encoding.mul (d : BitVec 5) (a : BitVec 5) (b : BitVec 5) : Encoding.Statement (.mul d a b) := by
  refine roundTrip 1#6 decodeMajor01 rfl rfl (f0_26_6 ..) major_01 rfl ?_
  unfold decodeMajor01; rw [f0_0_7, f0_7_4, f0_21_5, f0_16_5, f0_11_5]; rfl
theorem Encoding.mulh (d : BitVec 5) (a : BitVec 5) (b : BitVec 5) : Encoding.Statement (.mulh d a b) := by
  refine roundTrip 1#6 decodeMajor01 rfl rfl (f0_26_6 ..) major_01 rfl ?_
  unfold decodeMajor01; rw [f0_0_7, f0_7_4, f0_21_5, f0_16_5, f0_11_5]; rfl
theorem Encoding.mulhu (d : BitVec 5) (a : BitVec 5) (b : BitVec 5) : Encoding.Statement (.mulhu d a b) := by
  refine roundTrip 1#6 decodeMajor01 rfl rfl (f0_26_6 ..) major_01 rfl ?_
  unfold decodeMajor01; rw [f0_0_7, f0_7_4, f0_21_5, f0_16_5, f0_11_5]; rfl
theorem Encoding.div (d : BitVec 5) (a : BitVec 5) (b : BitVec 5) (h : BitVec 4) : Encoding.Statement (.div d a b h) := by
  refine roundTrip 1#6 decodeMajor01 rfl rfl (f1_26_6 ..) major_01 rfl ?_
  unfold decodeMajor01; rw [f1_0_7, f1_21_5, f1_16_5, f1_11_5, f1_7_4]; rfl
theorem Encoding.divu (d : BitVec 5) (a : BitVec 5) (b : BitVec 5) (h : BitVec 4) : Encoding.Statement (.divu d a b h) := by
  refine roundTrip 1#6 decodeMajor01 rfl rfl (f1_26_6 ..) major_01 rfl ?_
  unfold decodeMajor01; rw [f1_0_7, f1_21_5, f1_16_5, f1_11_5, f1_7_4]; rfl
theorem Encoding.rem (d : BitVec 5) (a : BitVec 5) (b : BitVec 5) (h : BitVec 4) : Encoding.Statement (.rem d a b h) := by
  refine roundTrip 1#6 decodeMajor01 rfl rfl (f1_26_6 ..) major_01 rfl ?_
  unfold decodeMajor01; rw [f1_0_7, f1_21_5, f1_16_5, f1_11_5, f1_7_4]; rfl
theorem Encoding.remu (d : BitVec 5) (a : BitVec 5) (b : BitVec 5) (h : BitVec 4) : Encoding.Statement (.remu d a b h) := by
  refine roundTrip 1#6 decodeMajor01 rfl rfl (f1_26_6 ..) major_01 rfl ?_
  unfold decodeMajor01; rw [f1_0_7, f1_21_5, f1_16_5, f1_11_5, f1_7_4]; rfl
theorem Encoding.clz (d : BitVec 5) (a : BitVec 5) : Encoding.Statement (.clz d a) := by
  refine roundTrip 1#6 decodeMajor01 rfl rfl (f2_26_6 ..) major_01 rfl ?_
  unfold decodeMajor01; rw [f2_0_7, f2_7_9, f2_21_5, f2_16_5]; rfl
theorem Encoding.ctz (d : BitVec 5) (a : BitVec 5) : Encoding.Statement (.ctz d a) := by
  refine roundTrip 1#6 decodeMajor01 rfl rfl (f2_26_6 ..) major_01 rfl ?_
  unfold decodeMajor01; rw [f2_0_7, f2_7_9, f2_21_5, f2_16_5]; rfl
theorem Encoding.popc (d : BitVec 5) (a : BitVec 5) : Encoding.Statement (.popc d a) := by
  refine roundTrip 1#6 decodeMajor01 rfl rfl (f2_26_6 ..) major_01 rfl ?_
  unfold decodeMajor01; rw [f2_0_7, f2_7_9, f2_21_5, f2_16_5]; rfl
theorem Encoding.bswap (d : BitVec 5) (a : BitVec 5) : Encoding.Statement (.bswap d a) := by
  refine roundTrip 1#6 decodeMajor01 rfl rfl (f2_26_6 ..) major_01 rfl ?_
  unfold decodeMajor01; rw [f2_0_7, f2_7_9, f2_21_5, f2_16_5]; rfl
theorem Encoding.addi (d : BitVec 5) (a : BitVec 5) (imm : BitVec 16) : Encoding.Statement (.addi d a imm) := by
  refine roundTrip 2#6 decodeMajor rfl rfl (f2_26_6 ..) (fun _ _ => rfl) rfl ?_
  unfold decodeMajor; rw [f2_26_6, f2_21_5, f2_16_5, f2_0_16]; rfl
theorem Encoding.andi (d : BitVec 5) (a : BitVec 5) (imm : BitVec 16) : Encoding.Statement (.andi d a imm) := by
  refine roundTrip 3#6 decodeMajor rfl rfl (f2_26_6 ..) (fun _ _ => rfl) rfl ?_
  unfold decodeMajor; rw [f2_26_6, f2_21_5, f2_16_5, f2_0_16]; rfl
theorem Encoding.ori (d : BitVec 5) (a : BitVec 5) (imm : BitVec 16) : Encoding.Statement (.ori d a imm) := by
  refine roundTrip 4#6 decodeMajor rfl rfl (f2_26_6 ..) (fun _ _ => rfl) rfl ?_
  unfold decodeMajor; rw [f2_26_6, f2_21_5, f2_16_5, f2_0_16]; rfl
theorem Encoding.xori (d : BitVec 5) (a : BitVec 5) (imm : BitVec 16) : Encoding.Statement (.xori d a imm) := by
  refine roundTrip 5#6 decodeMajor rfl rfl (f2_26_6 ..) (fun _ _ => rfl) rfl ?_
  unfold decodeMajor; rw [f2_26_6, f2_21_5, f2_16_5, f2_0_16]; rfl
theorem Encoding.shli (d : BitVec 5) (a : BitVec 5) (n : BitVec 6) : Encoding.Statement (.shli d a n) := by
  refine roundTrip 6#6 decodeMajor06 rfl rfl (f3_26_6 ..) major_06 rfl ?_
  unfold decodeMajor06; rw [f3_6_2, f3_8_8, f3_21_5, f3_16_5, f3_0_6]; rfl
theorem Encoding.shri (d : BitVec 5) (a : BitVec 5) (n : BitVec 6) : Encoding.Statement (.shri d a n) := by
  refine roundTrip 6#6 decodeMajor06 rfl rfl (f3_26_6 ..) major_06 rfl ?_
  unfold decodeMajor06; rw [f3_6_2, f3_8_8, f3_21_5, f3_16_5, f3_0_6]; rfl
theorem Encoding.srai (d : BitVec 5) (a : BitVec 5) (n : BitVec 6) : Encoding.Statement (.srai d a n) := by
  refine roundTrip 6#6 decodeMajor06 rfl rfl (f3_26_6 ..) major_06 rfl ?_
  unfold decodeMajor06; rw [f3_6_2, f3_8_8, f3_21_5, f3_16_5, f3_0_6]; rfl
theorem Encoding.slti (d : BitVec 5) (a : BitVec 5) (imm : BitVec 16) : Encoding.Statement (.slti d a imm) := by
  refine roundTrip 7#6 decodeMajor rfl rfl (f2_26_6 ..) (fun _ _ => rfl) rfl ?_
  unfold decodeMajor; rw [f2_26_6, f2_21_5, f2_16_5, f2_0_16]; rfl
theorem Encoding.sltiu (d : BitVec 5) (a : BitVec 5) (imm : BitVec 16) : Encoding.Statement (.sltiu d a imm) := by
  refine roundTrip 8#6 decodeMajor rfl rfl (f2_26_6 ..) (fun _ _ => rfl) rfl ?_
  unfold decodeMajor; rw [f2_26_6, f2_21_5, f2_16_5, f2_0_16]; rfl
theorem Encoding.lhi (d : BitVec 5) (imm : BitVec 16) : Encoding.Statement (.lhi d imm) := by
  refine roundTrip 9#6 decodeMajor rfl rfl (f2_26_6 ..) (fun _ _ => rfl) rfl ?_
  unfold decodeMajor; rw [f2_26_6, f2_16_5, f2_21_5, f2_0_16]; rfl
theorem Encoding.lpc (d : BitVec 5) (imm : BitVec 16) : Encoding.Statement (.lpc d imm) := by
  refine roundTrip 10#6 decodeMajor rfl rfl (f2_26_6 ..) (fun _ _ => rfl) rfl ?_
  unfold decodeMajor; rw [f2_26_6, f2_16_5, f2_21_5, f2_0_16]; rfl
theorem Encoding.ldB (d : BitVec 5) (a : BitVec 5) (h : BitVec 4) (imm : BitVec 9) : Encoding.Statement (.ldB d a h imm) := by
  refine roundTrip 11#6 decodeMajor0B rfl rfl (f4_26_6 ..) major_0B rfl ?_
  unfold decodeMajor0B; rw [f4_9_3, f4_21_5, f4_16_5, f4_12_4, f4_0_9]; rfl
theorem Encoding.ldH (d : BitVec 5) (a : BitVec 5) (h : BitVec 4) (imm : BitVec 9) : Encoding.Statement (.ldH d a h imm) := by
  refine roundTrip 11#6 decodeMajor0B rfl rfl (f4_26_6 ..) major_0B rfl ?_
  unfold decodeMajor0B; rw [f4_9_3, f4_21_5, f4_16_5, f4_12_4, f4_0_9]; rfl
theorem Encoding.ldW (d : BitVec 5) (a : BitVec 5) (h : BitVec 4) (imm : BitVec 9) : Encoding.Statement (.ldW d a h imm) := by
  refine roundTrip 11#6 decodeMajor0B rfl rfl (f4_26_6 ..) major_0B rfl ?_
  unfold decodeMajor0B; rw [f4_9_3, f4_21_5, f4_16_5, f4_12_4, f4_0_9]; rfl
theorem Encoding.ldD (d : BitVec 5) (a : BitVec 5) (h : BitVec 4) (imm : BitVec 9) : Encoding.Statement (.ldD d a h imm) := by
  refine roundTrip 11#6 decodeMajor0B rfl rfl (f4_26_6 ..) major_0B rfl ?_
  unfold decodeMajor0B; rw [f4_9_3, f4_21_5, f4_16_5, f4_12_4, f4_0_9]; rfl
theorem Encoding.ldBu (d : BitVec 5) (a : BitVec 5) (h : BitVec 4) (imm : BitVec 9) : Encoding.Statement (.ldBu d a h imm) := by
  refine roundTrip 11#6 decodeMajor0B rfl rfl (f4_26_6 ..) major_0B rfl ?_
  unfold decodeMajor0B; rw [f4_9_3, f4_21_5, f4_16_5, f4_12_4, f4_0_9]; rfl
theorem Encoding.ldHu (d : BitVec 5) (a : BitVec 5) (h : BitVec 4) (imm : BitVec 9) : Encoding.Statement (.ldHu d a h imm) := by
  refine roundTrip 11#6 decodeMajor0B rfl rfl (f4_26_6 ..) major_0B rfl ?_
  unfold decodeMajor0B; rw [f4_9_3, f4_21_5, f4_16_5, f4_12_4, f4_0_9]; rfl
theorem Encoding.ldWu (d : BitVec 5) (a : BitVec 5) (h : BitVec 4) (imm : BitVec 9) : Encoding.Statement (.ldWu d a h imm) := by
  refine roundTrip 11#6 decodeMajor0B rfl rfl (f4_26_6 ..) major_0B rfl ?_
  unfold decodeMajor0B; rw [f4_9_3, f4_21_5, f4_16_5, f4_12_4, f4_0_9]; rfl
theorem Encoding.stB (d : BitVec 5) (a : BitVec 5) (h : BitVec 4) (imm : BitVec 9) : Encoding.Statement (.stB d a h imm) := by
  refine roundTrip 12#6 decodeMajor0C rfl rfl (f4_26_6 ..) major_0C rfl ?_
  unfold decodeMajor0C; rw [f4_9_3, f4_21_5, f4_16_5, f4_12_4, f4_0_9]; rfl
theorem Encoding.stH (d : BitVec 5) (a : BitVec 5) (h : BitVec 4) (imm : BitVec 9) : Encoding.Statement (.stH d a h imm) := by
  refine roundTrip 12#6 decodeMajor0C rfl rfl (f4_26_6 ..) major_0C rfl ?_
  unfold decodeMajor0C; rw [f4_9_3, f4_21_5, f4_16_5, f4_12_4, f4_0_9]; rfl
theorem Encoding.stW (d : BitVec 5) (a : BitVec 5) (h : BitVec 4) (imm : BitVec 9) : Encoding.Statement (.stW d a h imm) := by
  refine roundTrip 12#6 decodeMajor0C rfl rfl (f4_26_6 ..) major_0C rfl ?_
  unfold decodeMajor0C; rw [f4_9_3, f4_21_5, f4_16_5, f4_12_4, f4_0_9]; rfl
theorem Encoding.stD (d : BitVec 5) (a : BitVec 5) (h : BitVec 4) (imm : BitVec 9) : Encoding.Statement (.stD d a h imm) := by
  refine roundTrip 12#6 decodeMajor0C rfl rfl (f4_26_6 ..) major_0C rfl ?_
  unfold decodeMajor0C; rw [f4_9_3, f4_21_5, f4_16_5, f4_12_4, f4_0_9]; rfl
theorem Encoding.ldacq (d : BitVec 5) (a : BitVec 5) (h : BitVec 4) (sc : BitVec 3) : Encoding.Statement (.ldacq d a h sc) := by
  refine roundTrip 13#6 decodeMajor0D rfl rfl (f5_26_6 ..) major_0D rfl ?_
  unfold decodeMajor0D; rw [f5_0_4, f5_11_5, f5_21_5, f5_16_5, f5_7_4, f5_4_3]; rfl
theorem Encoding.strel (d : BitVec 5) (a : BitVec 5) (h : BitVec 4) (sc : BitVec 3) : Encoding.Statement (.strel d a h sc) := by
  refine roundTrip 13#6 decodeMajor0D rfl rfl (f5_26_6 ..) major_0D rfl ?_
  unfold decodeMajor0D; rw [f5_0_4, f5_11_5, f5_21_5, f5_16_5, f5_7_4, f5_4_3]; rfl
theorem Encoding.amoAdd (d : BitVec 5) (a : BitVec 5) (b : BitVec 5) (h : BitVec 4) (sc : BitVec 3) : Encoding.Statement (.amoAdd d a b h sc) := by
  refine roundTrip 13#6 decodeMajor0D rfl rfl (f5_26_6 ..) major_0D rfl ?_
  unfold decodeMajor0D; rw [f5_0_4, f5_21_5, f5_16_5, f5_11_5, f5_7_4, f5_4_3]; rfl
theorem Encoding.amoAnd (d : BitVec 5) (a : BitVec 5) (b : BitVec 5) (h : BitVec 4) (sc : BitVec 3) : Encoding.Statement (.amoAnd d a b h sc) := by
  refine roundTrip 13#6 decodeMajor0D rfl rfl (f5_26_6 ..) major_0D rfl ?_
  unfold decodeMajor0D; rw [f5_0_4, f5_21_5, f5_16_5, f5_11_5, f5_7_4, f5_4_3]; rfl
theorem Encoding.amoOr (d : BitVec 5) (a : BitVec 5) (b : BitVec 5) (h : BitVec 4) (sc : BitVec 3) : Encoding.Statement (.amoOr d a b h sc) := by
  refine roundTrip 13#6 decodeMajor0D rfl rfl (f5_26_6 ..) major_0D rfl ?_
  unfold decodeMajor0D; rw [f5_0_4, f5_21_5, f5_16_5, f5_11_5, f5_7_4, f5_4_3]; rfl
theorem Encoding.amoXor (d : BitVec 5) (a : BitVec 5) (b : BitVec 5) (h : BitVec 4) (sc : BitVec 3) : Encoding.Statement (.amoXor d a b h sc) := by
  refine roundTrip 13#6 decodeMajor0D rfl rfl (f5_26_6 ..) major_0D rfl ?_
  unfold decodeMajor0D; rw [f5_0_4, f5_21_5, f5_16_5, f5_11_5, f5_7_4, f5_4_3]; rfl
theorem Encoding.amoMin (d : BitVec 5) (a : BitVec 5) (b : BitVec 5) (h : BitVec 4) (sc : BitVec 3) : Encoding.Statement (.amoMin d a b h sc) := by
  refine roundTrip 13#6 decodeMajor0D rfl rfl (f5_26_6 ..) major_0D rfl ?_
  unfold decodeMajor0D; rw [f5_0_4, f5_21_5, f5_16_5, f5_11_5, f5_7_4, f5_4_3]; rfl
theorem Encoding.amoMax (d : BitVec 5) (a : BitVec 5) (b : BitVec 5) (h : BitVec 4) (sc : BitVec 3) : Encoding.Statement (.amoMax d a b h sc) := by
  refine roundTrip 13#6 decodeMajor0D rfl rfl (f5_26_6 ..) major_0D rfl ?_
  unfold decodeMajor0D; rw [f5_0_4, f5_21_5, f5_16_5, f5_11_5, f5_7_4, f5_4_3]; rfl
theorem Encoding.amoMinu (d : BitVec 5) (a : BitVec 5) (b : BitVec 5) (h : BitVec 4) (sc : BitVec 3) : Encoding.Statement (.amoMinu d a b h sc) := by
  refine roundTrip 13#6 decodeMajor0D rfl rfl (f5_26_6 ..) major_0D rfl ?_
  unfold decodeMajor0D; rw [f5_0_4, f5_21_5, f5_16_5, f5_11_5, f5_7_4, f5_4_3]; rfl
theorem Encoding.amoMaxu (d : BitVec 5) (a : BitVec 5) (b : BitVec 5) (h : BitVec 4) (sc : BitVec 3) : Encoding.Statement (.amoMaxu d a b h sc) := by
  refine roundTrip 13#6 decodeMajor0D rfl rfl (f5_26_6 ..) major_0D rfl ?_
  unfold decodeMajor0D; rw [f5_0_4, f5_21_5, f5_16_5, f5_11_5, f5_7_4, f5_4_3]; rfl
theorem Encoding.amoSwap (d : BitVec 5) (a : BitVec 5) (b : BitVec 5) (h : BitVec 4) (sc : BitVec 3) : Encoding.Statement (.amoSwap d a b h sc) := by
  refine roundTrip 13#6 decodeMajor0D rfl rfl (f5_26_6 ..) major_0D rfl ?_
  unfold decodeMajor0D; rw [f5_0_4, f5_21_5, f5_16_5, f5_11_5, f5_7_4, f5_4_3]; rfl
theorem Encoding.cas (d : BitVec 5) (a : BitVec 5) (b : BitVec 5) (h : BitVec 4) (sc : BitVec 3) : Encoding.Statement (.cas d a b h sc) := by
  refine roundTrip 13#6 decodeMajor0D rfl rfl (f5_26_6 ..) major_0D rfl ?_
  unfold decodeMajor0D; rw [f5_0_4, f5_21_5, f5_16_5, f5_11_5, f5_7_4, f5_4_3]; rfl
theorem Encoding.beq (a : BitVec 5) (b : BitVec 5) (off : BitVec 16) : Encoding.Statement (.beq a b off) := by
  refine roundTrip 14#6 decodeMajor rfl rfl (f2_26_6 ..) (fun _ _ => rfl) rfl ?_
  unfold decodeMajor; rw [f2_26_6, f2_21_5, f2_16_5, f2_0_16]; rfl
theorem Encoding.bne (a : BitVec 5) (b : BitVec 5) (off : BitVec 16) : Encoding.Statement (.bne a b off) := by
  refine roundTrip 15#6 decodeMajor rfl rfl (f2_26_6 ..) (fun _ _ => rfl) rfl ?_
  unfold decodeMajor; rw [f2_26_6, f2_21_5, f2_16_5, f2_0_16]; rfl
theorem Encoding.blt (a : BitVec 5) (b : BitVec 5) (off : BitVec 16) : Encoding.Statement (.blt a b off) := by
  refine roundTrip 16#6 decodeMajor rfl rfl (f2_26_6 ..) (fun _ _ => rfl) rfl ?_
  unfold decodeMajor; rw [f2_26_6, f2_21_5, f2_16_5, f2_0_16]; rfl
theorem Encoding.bge (a : BitVec 5) (b : BitVec 5) (off : BitVec 16) : Encoding.Statement (.bge a b off) := by
  refine roundTrip 17#6 decodeMajor rfl rfl (f2_26_6 ..) (fun _ _ => rfl) rfl ?_
  unfold decodeMajor; rw [f2_26_6, f2_21_5, f2_16_5, f2_0_16]; rfl
theorem Encoding.bltu (a : BitVec 5) (b : BitVec 5) (off : BitVec 16) : Encoding.Statement (.bltu a b off) := by
  refine roundTrip 18#6 decodeMajor rfl rfl (f2_26_6 ..) (fun _ _ => rfl) rfl ?_
  unfold decodeMajor; rw [f2_26_6, f2_21_5, f2_16_5, f2_0_16]; rfl
theorem Encoding.bgeu (a : BitVec 5) (b : BitVec 5) (off : BitVec 16) : Encoding.Statement (.bgeu a b off) := by
  refine roundTrip 19#6 decodeMajor rfl rfl (f2_26_6 ..) (fun _ _ => rfl) rfl ?_
  unfold decodeMajor; rw [f2_26_6, f2_21_5, f2_16_5, f2_0_16]; rfl
theorem Encoding.jal (d : BitVec 5) (off : BitVec 21) : Encoding.Statement (.jal d off) := by
  refine roundTrip 20#6 decodeMajor rfl rfl (f6_26_6 ..) (fun _ _ => rfl) rfl ?_
  unfold decodeMajor; rw [f6_26_6, f6_21_5, f6_0_21]; rfl
theorem Encoding.jalr (d : BitVec 5) (a : BitVec 5) (imm : BitVec 16) : Encoding.Statement (.jalr d a imm) := by
  refine roundTrip 21#6 decodeMajor rfl rfl (f2_26_6 ..) (fun _ _ => rfl) rfl ?_
  unfold decodeMajor; rw [f2_26_6, f2_21_5, f2_16_5, f2_0_16]; rfl
theorem Encoding.loop (lvl : BitVec 3) (off : BitVec 9) : Encoding.Statement (.loop lvl off) := by
  refine roundTrip 22#6 decodeMajor16 rfl rfl (f7_26_6 ..) major_16 rfl ?_
  unfold decodeMajor16; rw [f7_21_5, f7_16_5, f7_9_4, f7_13_3, f7_0_9]; rfl
theorem Encoding.loopr (a : BitVec 5) (off : BitVec 9) : Encoding.Statement (.loopr a off) := by
  refine roundTrip 22#6 decodeMajor16 rfl rfl (f8_26_6 ..) major_16 rfl ?_
  unfold decodeMajor16; rw [f8_21_5, f8_9_7, f8_16_5, f8_0_9]; rfl
theorem Encoding.dly (n : BitVec 16) : Encoding.Statement (.dly n) := by
  refine roundTrip 22#6 decodeMajor16 rfl rfl (f9_26_6 ..) major_16 rfl ?_
  unfold decodeMajor16; rw [f9_21_5, f9_16_5, f9_0_16]; rfl
theorem Encoding.wait (a : BitVec 5) (h : BitVec 4) (n : BitVec 12) : Encoding.Statement (.wait a h n) := by
  refine roundTrip 22#6 decodeMajor16 rfl rfl (f10_26_6 ..) major_16 rfl ?_
  unfold decodeMajor16; rw [f10_21_5, f10_16_5, f10_12_4, f10_0_12]; rfl
theorem Encoding.post (h : BitVec 4) (n : BitVec 12) : Encoding.Statement (.post h n) := by
  refine roundTrip 22#6 decodeMajor16 rfl rfl (f11_26_6 ..) major_16 rfl ?_
  unfold decodeMajor16; rw [f11_21_5, f11_16_5, f11_12_4, f11_0_12]; rfl
theorem Encoding.hset (a : BitVec 5) (h : BitVec 4) : Encoding.Statement (.hset a h) := by
  refine roundTrip 22#6 decodeMajor16 rfl rfl (f10_26_6 ..) major_16 rfl ?_
  unfold decodeMajor16; rw [f10_21_5, f10_0_12, f10_16_5, f10_12_4]; rfl
theorem Encoding.halt : Encoding.Statement (.halt) := by
  refine roundTrip 22#6 decodeMajor16 rfl rfl (f12_26_6 ..) major_16 rfl ?_
  unfold decodeMajor16; rw [f12_21_5, f12_0_21]; rfl
theorem Encoding.launch (a : BitVec 5) (h : BitVec 4) : Encoding.Statement (.launch a h) := by
  refine roundTrip 22#6 decodeMajor16 rfl rfl (f10_26_6 ..) major_16 rfl ?_
  unfold decodeMajor16; rw [f10_21_5, f10_0_12, f10_16_5, f10_12_4]; rfl
theorem Encoding.fadd (d : BitVec 5) (a : BitVec 5) (b : BitVec 5) (fmt : BitVec 2) : Encoding.Statement (.fadd d a b fmt) := by
  refine roundTrip 23#6 decodeMajor17 rfl rfl (f13_26_6 ..) major_17 rfl ?_
  unfold decodeMajor17; rw [f13_2_5, f13_7_4, f13_21_5, f13_16_5, f13_11_5, f13_0_2]; rfl
theorem Encoding.fsub (d : BitVec 5) (a : BitVec 5) (b : BitVec 5) (fmt : BitVec 2) : Encoding.Statement (.fsub d a b fmt) := by
  refine roundTrip 23#6 decodeMajor17 rfl rfl (f13_26_6 ..) major_17 rfl ?_
  unfold decodeMajor17; rw [f13_2_5, f13_7_4, f13_21_5, f13_16_5, f13_11_5, f13_0_2]; rfl
theorem Encoding.fmul (d : BitVec 5) (a : BitVec 5) (b : BitVec 5) (fmt : BitVec 2) : Encoding.Statement (.fmul d a b fmt) := by
  refine roundTrip 23#6 decodeMajor17 rfl rfl (f13_26_6 ..) major_17 rfl ?_
  unfold decodeMajor17; rw [f13_2_5, f13_7_4, f13_21_5, f13_16_5, f13_11_5, f13_0_2]; rfl
theorem Encoding.fma (d : BitVec 5) (a : BitVec 5) (b : BitVec 5) (fmt : BitVec 2) : Encoding.Statement (.fma d a b fmt) := by
  refine roundTrip 23#6 decodeMajor17 rfl rfl (f13_26_6 ..) major_17 rfl ?_
  unfold decodeMajor17; rw [f13_2_5, f13_7_4, f13_21_5, f13_16_5, f13_11_5, f13_0_2]; rfl
theorem Encoding.fdiv (d : BitVec 5) (a : BitVec 5) (b : BitVec 5) (h : BitVec 4) (fmt : BitVec 2) : Encoding.Statement (.fdiv d a b h fmt) := by
  refine roundTrip 23#6 decodeMajor17 rfl rfl (f14_26_6 ..) major_17 rfl ?_
  unfold decodeMajor17; rw [f14_2_5, f14_21_5, f14_16_5, f14_11_5, f14_7_4, f14_0_2]; rfl
theorem Encoding.fsqrt (d : BitVec 5) (a : BitVec 5) (h : BitVec 4) (fmt : BitVec 2) : Encoding.Statement (.fsqrt d a h fmt) := by
  refine roundTrip 23#6 decodeMajor17 rfl rfl (f14_26_6 ..) major_17 rfl ?_
  unfold decodeMajor17; rw [f14_2_5, f14_11_5, f14_21_5, f14_16_5, f14_7_4, f14_0_2]; rfl
theorem Encoding.fmin (d : BitVec 5) (a : BitVec 5) (b : BitVec 5) (fmt : BitVec 2) : Encoding.Statement (.fmin d a b fmt) := by
  refine roundTrip 23#6 decodeMajor17 rfl rfl (f13_26_6 ..) major_17 rfl ?_
  unfold decodeMajor17; rw [f13_2_5, f13_7_4, f13_21_5, f13_16_5, f13_11_5, f13_0_2]; rfl
theorem Encoding.fmax (d : BitVec 5) (a : BitVec 5) (b : BitVec 5) (fmt : BitVec 2) : Encoding.Statement (.fmax d a b fmt) := by
  refine roundTrip 23#6 decodeMajor17 rfl rfl (f13_26_6 ..) major_17 rfl ?_
  unfold decodeMajor17; rw [f13_2_5, f13_7_4, f13_21_5, f13_16_5, f13_11_5, f13_0_2]; rfl
theorem Encoding.fcmpEq (d : BitVec 5) (a : BitVec 5) (b : BitVec 5) (fmt : BitVec 2) : Encoding.Statement (.fcmpEq d a b fmt) := by
  refine roundTrip 23#6 decodeMajor17 rfl rfl (f13_26_6 ..) major_17 rfl ?_
  unfold decodeMajor17; rw [f13_2_5, f13_7_4, f13_21_5, f13_16_5, f13_11_5, f13_0_2]; rfl
theorem Encoding.fcmpNe (d : BitVec 5) (a : BitVec 5) (b : BitVec 5) (fmt : BitVec 2) : Encoding.Statement (.fcmpNe d a b fmt) := by
  refine roundTrip 23#6 decodeMajor17 rfl rfl (f13_26_6 ..) major_17 rfl ?_
  unfold decodeMajor17; rw [f13_2_5, f13_7_4, f13_21_5, f13_16_5, f13_11_5, f13_0_2]; rfl
theorem Encoding.fcmpLt (d : BitVec 5) (a : BitVec 5) (b : BitVec 5) (fmt : BitVec 2) : Encoding.Statement (.fcmpLt d a b fmt) := by
  refine roundTrip 23#6 decodeMajor17 rfl rfl (f13_26_6 ..) major_17 rfl ?_
  unfold decodeMajor17; rw [f13_2_5, f13_7_4, f13_21_5, f13_16_5, f13_11_5, f13_0_2]; rfl
theorem Encoding.fcmpLe (d : BitVec 5) (a : BitVec 5) (b : BitVec 5) (fmt : BitVec 2) : Encoding.Statement (.fcmpLe d a b fmt) := by
  refine roundTrip 23#6 decodeMajor17 rfl rfl (f13_26_6 ..) major_17 rfl ?_
  unfold decodeMajor17; rw [f13_2_5, f13_7_4, f13_21_5, f13_16_5, f13_11_5, f13_0_2]; rfl
theorem Encoding.fcmpGt (d : BitVec 5) (a : BitVec 5) (b : BitVec 5) (fmt : BitVec 2) : Encoding.Statement (.fcmpGt d a b fmt) := by
  refine roundTrip 23#6 decodeMajor17 rfl rfl (f13_26_6 ..) major_17 rfl ?_
  unfold decodeMajor17; rw [f13_2_5, f13_7_4, f13_21_5, f13_16_5, f13_11_5, f13_0_2]; rfl
theorem Encoding.fcmpGe (d : BitVec 5) (a : BitVec 5) (b : BitVec 5) (fmt : BitVec 2) : Encoding.Statement (.fcmpGe d a b fmt) := by
  refine roundTrip 23#6 decodeMajor17 rfl rfl (f13_26_6 ..) major_17 rfl ?_
  unfold decodeMajor17; rw [f13_2_5, f13_7_4, f13_21_5, f13_16_5, f13_11_5, f13_0_2]; rfl
theorem Encoding.fclass (d : BitVec 5) (a : BitVec 5) (fmt : BitVec 2) : Encoding.Statement (.fclass d a fmt) := by
  refine roundTrip 23#6 decodeMajor17 rfl rfl (f15_26_6 ..) major_17 rfl ?_
  unfold decodeMajor17; rw [f15_2_5, f15_7_9, f15_21_5, f15_16_5, f15_0_2]; rfl
theorem Encoding.fcvt (d : BitVec 5) (a : BitVec 5) (code : BitVec 5) (fmt : BitVec 2) : Encoding.Statement (.fcvt d a code fmt) := by
  refine roundTrip 23#6 decodeMajor17 rfl rfl (f13_26_6 ..) major_17 rfl ?_
  unfold decodeMajor17; rw [f13_2_5, f13_7_4, f13_21_5, f13_16_5, f13_11_5, f13_0_2]; rfl
theorem Encoding.fcvtInt (d : BitVec 5) (a : BitVec 5) (code : BitVec 5) (fmt : BitVec 2) : Encoding.Statement (.fcvtInt d a code fmt) := by
  refine roundTrip 23#6 decodeMajor17 rfl rfl (f13_26_6 ..) major_17 rfl ?_
  unfold decodeMajor17; rw [f13_2_5, f13_7_4, f13_21_5, f13_16_5, f13_11_5, f13_0_2]; rfl
theorem Encoding.trap (n : BitVec 16) : Encoding.Statement (.trap n) := by
  refine roundTrip 24#6 decodeMajor18 rfl rfl (f9_26_6 ..) major_18 rfl ?_
  unfold decodeMajor18; rw [f9_21_5, f9_16_5, f9_0_16]; rfl
theorem Encoding.eret : Encoding.Statement (.eret) := by
  refine roundTrip 24#6 decodeMajor18 rfl rfl (f12_26_6 ..) major_18 rfl ?_
  unfold decodeMajor18; rw [f12_21_5, f12_0_21]; rfl
theorem Encoding.csrr (d : BitVec 5) (csr : BitVec 12) : Encoding.Statement (.csrr d csr) := by
  refine roundTrip 24#6 decodeMajor18 rfl rfl (f10_26_6 ..) major_18 rfl ?_
  unfold decodeMajor18; rw [f10_21_5, f10_12_4, f10_16_5, f10_0_12]; rfl
theorem Encoding.csrw (a : BitVec 5) (csr : BitVec 12) : Encoding.Statement (.csrw a csr) := by
  refine roundTrip 24#6 decodeMajor18 rfl rfl (f10_26_6 ..) major_18 rfl ?_
  unfold decodeMajor18; rw [f10_21_5, f10_12_4, f10_16_5, f10_0_12]; rfl
theorem Encoding.csrs (a : BitVec 5) (csr : BitVec 12) : Encoding.Statement (.csrs a csr) := by
  refine roundTrip 24#6 decodeMajor18 rfl rfl (f10_26_6 ..) major_18 rfl ?_
  unfold decodeMajor18; rw [f10_21_5, f10_12_4, f10_16_5, f10_0_12]; rfl
theorem Encoding.csrc (a : BitVec 5) (csr : BitVec 12) : Encoding.Statement (.csrc a csr) := by
  refine roundTrip 24#6 decodeMajor18 rfl rfl (f10_26_6 ..) major_18 rfl ?_
  unfold decodeMajor18; rw [f10_21_5, f10_12_4, f10_16_5, f10_0_12]; rfl
theorem Encoding.fenceAcq (sc : BitVec 3) : Encoding.Statement (.fenceAcq sc) := by
  refine roundTrip 24#6 decodeMajor18 rfl rfl (f16_26_6 ..) major_18 rfl ?_
  unfold decodeMajor18; rw [f16_21_5, f16_0_3, f16_7_14, f16_3_1, f16_4_3]; rfl
theorem Encoding.fenceRel (sc : BitVec 3) : Encoding.Statement (.fenceRel sc) := by
  refine roundTrip 24#6 decodeMajor18 rfl rfl (f16_26_6 ..) major_18 rfl ?_
  unfold decodeMajor18; rw [f16_21_5, f16_0_3, f16_7_14, f16_3_1, f16_4_3]; rfl
theorem Encoding.fenceFull (sc : BitVec 3) : Encoding.Statement (.fenceFull sc) := by
  refine roundTrip 24#6 decodeMajor18 rfl rfl (f16_26_6 ..) major_18 rfl ?_
  unfold decodeMajor18; rw [f16_21_5, f16_0_3, f16_7_14, f16_3_1, f16_4_3]; rfl
theorem Encoding.fenceSv : Encoding.Statement (.fenceSv) := by
  refine roundTrip 24#6 decodeMajor18 rfl rfl (f12_26_6 ..) major_18 rfl ?_
  unfold decodeMajor18; rw [f12_21_5, f12_0_3, f12_3_18]; rfl
theorem Encoding.fenceIo (sc : BitVec 3) : Encoding.Statement (.fenceIo sc) := by
  refine roundTrip 24#6 decodeMajor18 rfl rfl (f16_26_6 ..) major_18 rfl ?_
  unfold decodeMajor18; rw [f16_21_5, f16_0_3, f16_7_14, f16_3_1, f16_4_3]; rfl
theorem Encoding.bkpt (n : BitVec 16) : Encoding.Statement (.bkpt n) := by
  refine roundTrip 24#6 decodeMajor18 rfl rfl (f9_26_6 ..) major_18 rfl ?_
  unfold decodeMajor18; rw [f9_21_5, f9_16_5, f9_0_16]; rfl
theorem Encoding.icinv (a : BitVec 5) (h : BitVec 4) (b : BitVec 5) (sc : BitVec 3) : Encoding.Statement (.icinv a h b sc) := by
  refine roundTrip 24#6 decodeMajor18 rfl rfl (f17_26_6 ..) major_18 rfl ?_
  unfold decodeMajor18; rw [f17_21_5, f17_0_4, f17_16_5, f17_12_4, f17_7_5, f17_4_3]; rfl
theorem Encoding.idle : Encoding.Statement (.idle) := by
  refine roundTrip 24#6 decodeMajor18 rfl rfl (f12_26_6 ..) major_18 rfl ?_
  unfold decodeMajor18; rw [f12_21_5, f12_0_21]; rfl
theorem Encoding.ctxsave (a : BitVec 5) (h : BitVec 4) : Encoding.Statement (.ctxsave a h) := by
  refine roundTrip 24#6 decodeMajor18 rfl rfl (f10_26_6 ..) major_18 rfl ?_
  unfold decodeMajor18; rw [f10_21_5, f10_0_12, f10_16_5, f10_12_4]; rfl
theorem Encoding.ctxrst (a : BitVec 5) (h : BitVec 4) : Encoding.Statement (.ctxrst a h) := by
  refine roundTrip 24#6 decodeMajor18 rfl rfl (f10_26_6 ..) major_18 rfl ?_
  unfold decodeMajor18; rw [f10_21_5, f10_0_12, f10_16_5, f10_12_4]; rfl
theorem Encoding.poolHeader (n : BitVec 14) : Encoding.Statement (.poolHeader n) := by
  refine roundTrip 24#6 decodeMajor18 rfl rfl (f18_26_6 ..) major_18 rfl ?_
  unfold decodeMajor18; rw [f18_21_5, f18_14_7, f18_0_14]; rfl
theorem Encoding.setvli (d : BitVec 5) (a : BitVec 5) (yb : BitVec 1) (sew : BitVec 2) (grp : BitVec 2) (tl : BitVec 1) (mk : BitVec 1) (cfg : BitVec 8) : Encoding.Statement (.setvli d a yb sew grp tl mk cfg) := by
  refine roundTrip 25#6 decodeMajor19 rfl rfl (f19_26_6 ..) major_19 rfl ?_
  unfold decodeMajor19; rw [f19_15_1, f19_21_5, f19_16_5, f19_14_1, f19_12_2, f19_10_2, f19_9_1, f19_8_1, f19_0_8]; rfl
theorem Encoding.setvl (d : BitVec 5) (a : BitVec 5) (b : BitVec 5) (yb : BitVec 1) : Encoding.Statement (.setvl d a b yb) := by
  refine roundTrip 25#6 decodeMajor19 rfl rfl (f20_26_6 ..) major_19 rfl ?_
  unfold decodeMajor19; rw [f20_0_2, f20_15_1, f20_2_7, f20_21_5, f20_16_5, f20_10_5, f20_9_1]; rfl
theorem Encoding.settl (d : BitVec 5) (a : BitVec 5) (b : BitVec 5) : Encoding.Statement (.settl d a b) := by
  refine roundTrip 25#6 decodeMajor19 rfl rfl (f21_26_6 ..) major_19 rfl ?_
  unfold decodeMajor19; rw [f21_0_2, f21_15_1, f21_2_8, f21_21_5, f21_16_5, f21_10_5]; rfl
theorem Encoding.vld (d : BitVec 5) (a : BitVec 5) (mk : BitVec 3) (dt : BitVec 1) (ch : BitVec 1) (h : BitVec 4) : Encoding.Statement (.vld d a mk dt ch h) := by
  refine roundTrip 26#6 decodeMajor1A rfl rfl (f22_26_6 ..) major_1A rfl ?_
  unfold decodeMajor1A; rw [f22_0_2, f22_11_5, f22_21_5, f22_16_5, f22_8_3, f22_7_1, f22_6_1, f22_2_4]; rfl
theorem Encoding.vst (d : BitVec 5) (a : BitVec 5) (mk : BitVec 3) (dt : BitVec 1) (ch : BitVec 1) (h : BitVec 4) : Encoding.Statement (.vst d a mk dt ch h) := by
  refine roundTrip 26#6 decodeMajor1A rfl rfl (f22_26_6 ..) major_1A rfl ?_
  unfold decodeMajor1A; rw [f22_0_2, f22_11_5, f22_21_5, f22_16_5, f22_8_3, f22_7_1, f22_6_1, f22_2_4]; rfl
theorem Encoding.mld (d : BitVec 5) (a : BitVec 5) (h : BitVec 4) : Encoding.Statement (.mld d a h) := by
  refine roundTrip 26#6 decodeMajor1A rfl rfl (f23_26_6 ..) major_1A rfl ?_
  unfold decodeMajor1A; rw [f23_0_2, f23_6_10, f23_21_5, f23_16_5, f23_2_4]; rfl
theorem Encoding.mst (d : BitVec 5) (a : BitVec 5) (h : BitVec 4) : Encoding.Statement (.mst d a h) := by
  refine roundTrip 26#6 decodeMajor1A rfl rfl (f23_26_6 ..) major_1A rfl ?_
  unfold decodeMajor1A; rw [f23_0_2, f23_6_10, f23_21_5, f23_16_5, f23_2_4]; rfl
theorem Encoding.vlds (d : BitVec 5) (a : BitVec 5) (b : BitVec 5) (mk : BitVec 3) (dt : BitVec 1) (ch : BitVec 1) (h : BitVec 4) : Encoding.Statement (.vlds d a b mk dt ch h) := by
  refine roundTrip 27#6 decodeMajor1B rfl rfl (f22_26_6 ..) major_1B rfl ?_
  unfold decodeMajor1B; rw [f22_0_2, f22_21_5, f22_16_5, f22_11_5, f22_8_3, f22_7_1, f22_6_1, f22_2_4]; rfl
theorem Encoding.vsts (d : BitVec 5) (a : BitVec 5) (b : BitVec 5) (mk : BitVec 3) (dt : BitVec 1) (ch : BitVec 1) (h : BitVec 4) : Encoding.Statement (.vsts d a b mk dt ch h) := by
  refine roundTrip 27#6 decodeMajor1B rfl rfl (f22_26_6 ..) major_1B rfl ?_
  unfold decodeMajor1B; rw [f22_0_2, f22_21_5, f22_16_5, f22_11_5, f22_8_3, f22_7_1, f22_6_1, f22_2_4]; rfl
theorem Encoding.vldx (d : BitVec 5) (a : BitVec 5) (b : BitVec 5) (mk : BitVec 3) (dt : BitVec 1) (ch : BitVec 1) (h : BitVec 4) : Encoding.Statement (.vldx d a b mk dt ch h) := by
  refine roundTrip 28#6 decodeMajor1C rfl rfl (f22_26_6 ..) major_1C rfl ?_
  unfold decodeMajor1C; rw [f22_0_2, f22_1_1, f22_21_5, f22_16_5, f22_11_5, f22_8_3, f22_7_1, f22_6_1, f22_2_4]; rfl
theorem Encoding.vstx (d : BitVec 5) (a : BitVec 5) (b : BitVec 5) (mk : BitVec 3) (dt : BitVec 1) (ch : BitVec 1) (h : BitVec 4) : Encoding.Statement (.vstx d a b mk dt ch h) := by
  refine roundTrip 28#6 decodeMajor1C rfl rfl (f22_26_6 ..) major_1C rfl ?_
  unfold decodeMajor1C; rw [f22_1_1, f22_0_2, f22_21_5, f22_16_5, f22_11_5, f22_8_3, f22_7_1, f22_6_1, f22_2_4]; rfl
theorem Encoding.vamo (d : BitVec 5) (a : BitVec 5) (b : BitVec 5) (code : BitVec 6) (h : BitVec 4) : Encoding.Statement (.vamo d a b code h) := by
  refine roundTrip 28#6 decodeMajor1C rfl rfl (f24_26_6 ..) major_1C rfl ?_
  unfold decodeMajor1C; rw [f24_1_1, f24_21_5, f24_16_5, f24_11_5, f24_0_1, f24_6_5, f24_2_4, join_code]; rfl
theorem Encoding.vaddVV (d : BitVec 5) (a : BitVec 5) (b : BitVec 5) (mk : BitVec 3) (dt : BitVec 1) (ca : BitVec 1) (cb : BitVec 1) : Encoding.Statement (.vaddVV d a b mk dt ca cb) := by
  refine roundTrip 29#6 decodeMajor1D rfl rfl (f25_26_6 ..) major_1D rfl ?_
  unfold decodeMajor1D; rw [f25_0_5, f25_21_5, f25_16_5, f25_11_5, f25_8_3, f25_7_1, f25_6_1, f25_5_1]; rfl
theorem Encoding.vaddVX (d : BitVec 5) (a : BitVec 5) (b : BitVec 5) (mk : BitVec 3) (dt : BitVec 1) (ca : BitVec 1) : Encoding.Statement (.vaddVX d a b mk dt ca) := by
  refine roundTrip 30#6 decodeMajor1E rfl rfl (f26_26_6 ..) major_1E rfl ?_
  unfold decodeMajor1E; rw [f26_0_5, f26_5_1, f26_21_5, f26_16_5, f26_11_5, f26_8_3, f26_7_1, f26_6_1]; rfl
theorem Encoding.vaddVI (d : BitVec 5) (a : BitVec 5) (imm : BitVec 5) (mk : BitVec 3) (dt : BitVec 1) (ca : BitVec 1) : Encoding.Statement (.vaddVI d a imm mk dt ca) := by
  refine roundTrip 31#6 decodeMajor1F rfl rfl (f26_26_6 ..) major_1F rfl ?_
  unfold decodeMajor1F; rw [f26_0_5, f26_5_1, f26_21_5, f26_16_5, f26_11_5, f26_8_3, f26_7_1, f26_6_1]; rfl
theorem Encoding.vsubVV (d : BitVec 5) (a : BitVec 5) (b : BitVec 5) (mk : BitVec 3) (dt : BitVec 1) (ca : BitVec 1) (cb : BitVec 1) : Encoding.Statement (.vsubVV d a b mk dt ca cb) := by
  refine roundTrip 29#6 decodeMajor1D rfl rfl (f25_26_6 ..) major_1D rfl ?_
  unfold decodeMajor1D; rw [f25_0_5, f25_21_5, f25_16_5, f25_11_5, f25_8_3, f25_7_1, f25_6_1, f25_5_1]; rfl
theorem Encoding.vsubVX (d : BitVec 5) (a : BitVec 5) (b : BitVec 5) (mk : BitVec 3) (dt : BitVec 1) (ca : BitVec 1) : Encoding.Statement (.vsubVX d a b mk dt ca) := by
  refine roundTrip 30#6 decodeMajor1E rfl rfl (f26_26_6 ..) major_1E rfl ?_
  unfold decodeMajor1E; rw [f26_0_5, f26_5_1, f26_21_5, f26_16_5, f26_11_5, f26_8_3, f26_7_1, f26_6_1]; rfl
theorem Encoding.vsubVI (d : BitVec 5) (a : BitVec 5) (imm : BitVec 5) (mk : BitVec 3) (dt : BitVec 1) (ca : BitVec 1) : Encoding.Statement (.vsubVI d a imm mk dt ca) := by
  refine roundTrip 31#6 decodeMajor1F rfl rfl (f26_26_6 ..) major_1F rfl ?_
  unfold decodeMajor1F; rw [f26_0_5, f26_5_1, f26_21_5, f26_16_5, f26_11_5, f26_8_3, f26_7_1, f26_6_1]; rfl
theorem Encoding.vrsubVV (d : BitVec 5) (a : BitVec 5) (b : BitVec 5) (mk : BitVec 3) (dt : BitVec 1) (ca : BitVec 1) (cb : BitVec 1) : Encoding.Statement (.vrsubVV d a b mk dt ca cb) := by
  refine roundTrip 29#6 decodeMajor1D rfl rfl (f25_26_6 ..) major_1D rfl ?_
  unfold decodeMajor1D; rw [f25_0_5, f25_21_5, f25_16_5, f25_11_5, f25_8_3, f25_7_1, f25_6_1, f25_5_1]; rfl
theorem Encoding.vrsubVX (d : BitVec 5) (a : BitVec 5) (b : BitVec 5) (mk : BitVec 3) (dt : BitVec 1) (ca : BitVec 1) : Encoding.Statement (.vrsubVX d a b mk dt ca) := by
  refine roundTrip 30#6 decodeMajor1E rfl rfl (f26_26_6 ..) major_1E rfl ?_
  unfold decodeMajor1E; rw [f26_0_5, f26_5_1, f26_21_5, f26_16_5, f26_11_5, f26_8_3, f26_7_1, f26_6_1]; rfl
theorem Encoding.vrsubVI (d : BitVec 5) (a : BitVec 5) (imm : BitVec 5) (mk : BitVec 3) (dt : BitVec 1) (ca : BitVec 1) : Encoding.Statement (.vrsubVI d a imm mk dt ca) := by
  refine roundTrip 31#6 decodeMajor1F rfl rfl (f26_26_6 ..) major_1F rfl ?_
  unfold decodeMajor1F; rw [f26_0_5, f26_5_1, f26_21_5, f26_16_5, f26_11_5, f26_8_3, f26_7_1, f26_6_1]; rfl
theorem Encoding.vadcVV (d : BitVec 5) (a : BitVec 5) (b : BitVec 5) (mk : BitVec 3) (ca : BitVec 1) (cb : BitVec 1) : Encoding.Statement (.vadcVV d a b mk ca cb) := by
  refine roundTrip 29#6 decodeMajor1D rfl rfl (f25_26_6 ..) major_1D rfl ?_
  unfold decodeMajor1D; rw [f25_0_5, f25_7_1, f25_21_5, f25_16_5, f25_11_5, f25_8_3, f25_6_1, f25_5_1]; rfl
theorem Encoding.vadcVX (d : BitVec 5) (a : BitVec 5) (b : BitVec 5) (mk : BitVec 3) (ca : BitVec 1) : Encoding.Statement (.vadcVX d a b mk ca) := by
  refine roundTrip 30#6 decodeMajor1E rfl rfl (f26_26_6 ..) major_1E rfl ?_
  unfold decodeMajor1E; rw [f26_0_5, f26_7_1, f26_5_1, f26_21_5, f26_16_5, f26_11_5, f26_8_3, f26_6_1]; rfl
theorem Encoding.vadcVI (d : BitVec 5) (a : BitVec 5) (imm : BitVec 5) (mk : BitVec 3) (ca : BitVec 1) : Encoding.Statement (.vadcVI d a imm mk ca) := by
  refine roundTrip 31#6 decodeMajor1F rfl rfl (f26_26_6 ..) major_1F rfl ?_
  unfold decodeMajor1F; rw [f26_0_5, f26_7_1, f26_5_1, f26_21_5, f26_16_5, f26_11_5, f26_8_3, f26_6_1]; rfl
theorem Encoding.vsbcVV (d : BitVec 5) (a : BitVec 5) (b : BitVec 5) (mk : BitVec 3) (ca : BitVec 1) (cb : BitVec 1) : Encoding.Statement (.vsbcVV d a b mk ca cb) := by
  refine roundTrip 29#6 decodeMajor1D rfl rfl (f25_26_6 ..) major_1D rfl ?_
  unfold decodeMajor1D; rw [f25_0_5, f25_7_1, f25_21_5, f25_16_5, f25_11_5, f25_8_3, f25_6_1, f25_5_1]; rfl
theorem Encoding.vsbcVX (d : BitVec 5) (a : BitVec 5) (b : BitVec 5) (mk : BitVec 3) (ca : BitVec 1) : Encoding.Statement (.vsbcVX d a b mk ca) := by
  refine roundTrip 30#6 decodeMajor1E rfl rfl (f26_26_6 ..) major_1E rfl ?_
  unfold decodeMajor1E; rw [f26_0_5, f26_7_1, f26_5_1, f26_21_5, f26_16_5, f26_11_5, f26_8_3, f26_6_1]; rfl
theorem Encoding.vsbcVI (d : BitVec 5) (a : BitVec 5) (imm : BitVec 5) (mk : BitVec 3) (ca : BitVec 1) : Encoding.Statement (.vsbcVI d a imm mk ca) := by
  refine roundTrip 31#6 decodeMajor1F rfl rfl (f26_26_6 ..) major_1F rfl ?_
  unfold decodeMajor1F; rw [f26_0_5, f26_7_1, f26_5_1, f26_21_5, f26_16_5, f26_11_5, f26_8_3, f26_6_1]; rfl
theorem Encoding.vmadcVV (d : BitVec 5) (a : BitVec 5) (b : BitVec 5) (mk : BitVec 3) (ca : BitVec 1) (cb : BitVec 1) : Encoding.Statement (.vmadcVV d a b mk ca cb) := by
  refine roundTrip 29#6 decodeMajor1D rfl rfl (f25_26_6 ..) major_1D rfl ?_
  unfold decodeMajor1D; rw [f25_0_5, f25_7_1, f25_21_5, f25_16_5, f25_11_5, f25_8_3, f25_6_1, f25_5_1]; rfl
theorem Encoding.vmadcVX (d : BitVec 5) (a : BitVec 5) (b : BitVec 5) (mk : BitVec 3) (ca : BitVec 1) : Encoding.Statement (.vmadcVX d a b mk ca) := by
  refine roundTrip 30#6 decodeMajor1E rfl rfl (f26_26_6 ..) major_1E rfl ?_
  unfold decodeMajor1E; rw [f26_0_5, f26_7_1, f26_5_1, f26_21_5, f26_16_5, f26_11_5, f26_8_3, f26_6_1]; rfl
theorem Encoding.vmadcVI (d : BitVec 5) (a : BitVec 5) (imm : BitVec 5) (mk : BitVec 3) (ca : BitVec 1) : Encoding.Statement (.vmadcVI d a imm mk ca) := by
  refine roundTrip 31#6 decodeMajor1F rfl rfl (f26_26_6 ..) major_1F rfl ?_
  unfold decodeMajor1F; rw [f26_0_5, f26_7_1, f26_5_1, f26_21_5, f26_16_5, f26_11_5, f26_8_3, f26_6_1]; rfl
theorem Encoding.vmsbcVV (d : BitVec 5) (a : BitVec 5) (b : BitVec 5) (mk : BitVec 3) (ca : BitVec 1) (cb : BitVec 1) : Encoding.Statement (.vmsbcVV d a b mk ca cb) := by
  refine roundTrip 29#6 decodeMajor1D rfl rfl (f25_26_6 ..) major_1D rfl ?_
  unfold decodeMajor1D; rw [f25_0_5, f25_7_1, f25_21_5, f25_16_5, f25_11_5, f25_8_3, f25_6_1, f25_5_1]; rfl
theorem Encoding.vmsbcVX (d : BitVec 5) (a : BitVec 5) (b : BitVec 5) (mk : BitVec 3) (ca : BitVec 1) : Encoding.Statement (.vmsbcVX d a b mk ca) := by
  refine roundTrip 30#6 decodeMajor1E rfl rfl (f26_26_6 ..) major_1E rfl ?_
  unfold decodeMajor1E; rw [f26_0_5, f26_7_1, f26_5_1, f26_21_5, f26_16_5, f26_11_5, f26_8_3, f26_6_1]; rfl
theorem Encoding.vmsbcVI (d : BitVec 5) (a : BitVec 5) (imm : BitVec 5) (mk : BitVec 3) (ca : BitVec 1) : Encoding.Statement (.vmsbcVI d a imm mk ca) := by
  refine roundTrip 31#6 decodeMajor1F rfl rfl (f26_26_6 ..) major_1F rfl ?_
  unfold decodeMajor1F; rw [f26_0_5, f26_7_1, f26_5_1, f26_21_5, f26_16_5, f26_11_5, f26_8_3, f26_6_1]; rfl
theorem Encoding.vandVV (d : BitVec 5) (a : BitVec 5) (b : BitVec 5) (mk : BitVec 3) (dt : BitVec 1) (ca : BitVec 1) (cb : BitVec 1) : Encoding.Statement (.vandVV d a b mk dt ca cb) := by
  refine roundTrip 29#6 decodeMajor1D rfl rfl (f25_26_6 ..) major_1D rfl ?_
  unfold decodeMajor1D; rw [f25_0_5, f25_21_5, f25_16_5, f25_11_5, f25_8_3, f25_7_1, f25_6_1, f25_5_1]; rfl
theorem Encoding.vandVX (d : BitVec 5) (a : BitVec 5) (b : BitVec 5) (mk : BitVec 3) (dt : BitVec 1) (ca : BitVec 1) : Encoding.Statement (.vandVX d a b mk dt ca) := by
  refine roundTrip 30#6 decodeMajor1E rfl rfl (f26_26_6 ..) major_1E rfl ?_
  unfold decodeMajor1E; rw [f26_0_5, f26_5_1, f26_21_5, f26_16_5, f26_11_5, f26_8_3, f26_7_1, f26_6_1]; rfl
theorem Encoding.vandVI (d : BitVec 5) (a : BitVec 5) (imm : BitVec 5) (mk : BitVec 3) (dt : BitVec 1) (ca : BitVec 1) : Encoding.Statement (.vandVI d a imm mk dt ca) := by
  refine roundTrip 31#6 decodeMajor1F rfl rfl (f26_26_6 ..) major_1F rfl ?_
  unfold decodeMajor1F; rw [f26_0_5, f26_5_1, f26_21_5, f26_16_5, f26_11_5, f26_8_3, f26_7_1, f26_6_1]; rfl
theorem Encoding.vorVV (d : BitVec 5) (a : BitVec 5) (b : BitVec 5) (mk : BitVec 3) (dt : BitVec 1) (ca : BitVec 1) (cb : BitVec 1) : Encoding.Statement (.vorVV d a b mk dt ca cb) := by
  refine roundTrip 29#6 decodeMajor1D rfl rfl (f25_26_6 ..) major_1D rfl ?_
  unfold decodeMajor1D; rw [f25_0_5, f25_21_5, f25_16_5, f25_11_5, f25_8_3, f25_7_1, f25_6_1, f25_5_1]; rfl
theorem Encoding.vorVX (d : BitVec 5) (a : BitVec 5) (b : BitVec 5) (mk : BitVec 3) (dt : BitVec 1) (ca : BitVec 1) : Encoding.Statement (.vorVX d a b mk dt ca) := by
  refine roundTrip 30#6 decodeMajor1E rfl rfl (f26_26_6 ..) major_1E rfl ?_
  unfold decodeMajor1E; rw [f26_0_5, f26_5_1, f26_21_5, f26_16_5, f26_11_5, f26_8_3, f26_7_1, f26_6_1]; rfl
theorem Encoding.vorVI (d : BitVec 5) (a : BitVec 5) (imm : BitVec 5) (mk : BitVec 3) (dt : BitVec 1) (ca : BitVec 1) : Encoding.Statement (.vorVI d a imm mk dt ca) := by
  refine roundTrip 31#6 decodeMajor1F rfl rfl (f26_26_6 ..) major_1F rfl ?_
  unfold decodeMajor1F; rw [f26_0_5, f26_5_1, f26_21_5, f26_16_5, f26_11_5, f26_8_3, f26_7_1, f26_6_1]; rfl
theorem Encoding.vxorVV (d : BitVec 5) (a : BitVec 5) (b : BitVec 5) (mk : BitVec 3) (dt : BitVec 1) (ca : BitVec 1) (cb : BitVec 1) : Encoding.Statement (.vxorVV d a b mk dt ca cb) := by
  refine roundTrip 29#6 decodeMajor1D rfl rfl (f25_26_6 ..) major_1D rfl ?_
  unfold decodeMajor1D; rw [f25_0_5, f25_21_5, f25_16_5, f25_11_5, f25_8_3, f25_7_1, f25_6_1, f25_5_1]; rfl
theorem Encoding.vxorVX (d : BitVec 5) (a : BitVec 5) (b : BitVec 5) (mk : BitVec 3) (dt : BitVec 1) (ca : BitVec 1) : Encoding.Statement (.vxorVX d a b mk dt ca) := by
  refine roundTrip 30#6 decodeMajor1E rfl rfl (f26_26_6 ..) major_1E rfl ?_
  unfold decodeMajor1E; rw [f26_0_5, f26_5_1, f26_21_5, f26_16_5, f26_11_5, f26_8_3, f26_7_1, f26_6_1]; rfl
theorem Encoding.vxorVI (d : BitVec 5) (a : BitVec 5) (imm : BitVec 5) (mk : BitVec 3) (dt : BitVec 1) (ca : BitVec 1) : Encoding.Statement (.vxorVI d a imm mk dt ca) := by
  refine roundTrip 31#6 decodeMajor1F rfl rfl (f26_26_6 ..) major_1F rfl ?_
  unfold decodeMajor1F; rw [f26_0_5, f26_5_1, f26_21_5, f26_16_5, f26_11_5, f26_8_3, f26_7_1, f26_6_1]; rfl
theorem Encoding.vshlVV (d : BitVec 5) (a : BitVec 5) (b : BitVec 5) (mk : BitVec 3) (dt : BitVec 1) (ca : BitVec 1) (cb : BitVec 1) : Encoding.Statement (.vshlVV d a b mk dt ca cb) := by
  refine roundTrip 29#6 decodeMajor1D rfl rfl (f25_26_6 ..) major_1D rfl ?_
  unfold decodeMajor1D; rw [f25_0_5, f25_21_5, f25_16_5, f25_11_5, f25_8_3, f25_7_1, f25_6_1, f25_5_1]; rfl
theorem Encoding.vshlVX (d : BitVec 5) (a : BitVec 5) (b : BitVec 5) (mk : BitVec 3) (dt : BitVec 1) (ca : BitVec 1) : Encoding.Statement (.vshlVX d a b mk dt ca) := by
  refine roundTrip 30#6 decodeMajor1E rfl rfl (f26_26_6 ..) major_1E rfl ?_
  unfold decodeMajor1E; rw [f26_0_5, f26_5_1, f26_21_5, f26_16_5, f26_11_5, f26_8_3, f26_7_1, f26_6_1]; rfl
theorem Encoding.vshlVI (d : BitVec 5) (a : BitVec 5) (imm : BitVec 5) (mk : BitVec 3) (dt : BitVec 1) (ca : BitVec 1) : Encoding.Statement (.vshlVI d a imm mk dt ca) := by
  refine roundTrip 31#6 decodeMajor1F rfl rfl (f26_26_6 ..) major_1F rfl ?_
  unfold decodeMajor1F; rw [f26_0_5, f26_5_1, f26_21_5, f26_16_5, f26_11_5, f26_8_3, f26_7_1, f26_6_1]; rfl
theorem Encoding.vshrVV (d : BitVec 5) (a : BitVec 5) (b : BitVec 5) (mk : BitVec 3) (dt : BitVec 1) (ca : BitVec 1) (cb : BitVec 1) : Encoding.Statement (.vshrVV d a b mk dt ca cb) := by
  refine roundTrip 29#6 decodeMajor1D rfl rfl (f25_26_6 ..) major_1D rfl ?_
  unfold decodeMajor1D; rw [f25_0_5, f25_21_5, f25_16_5, f25_11_5, f25_8_3, f25_7_1, f25_6_1, f25_5_1]; rfl
theorem Encoding.vshrVX (d : BitVec 5) (a : BitVec 5) (b : BitVec 5) (mk : BitVec 3) (dt : BitVec 1) (ca : BitVec 1) : Encoding.Statement (.vshrVX d a b mk dt ca) := by
  refine roundTrip 30#6 decodeMajor1E rfl rfl (f26_26_6 ..) major_1E rfl ?_
  unfold decodeMajor1E; rw [f26_0_5, f26_5_1, f26_21_5, f26_16_5, f26_11_5, f26_8_3, f26_7_1, f26_6_1]; rfl
theorem Encoding.vshrVI (d : BitVec 5) (a : BitVec 5) (imm : BitVec 5) (mk : BitVec 3) (dt : BitVec 1) (ca : BitVec 1) : Encoding.Statement (.vshrVI d a imm mk dt ca) := by
  refine roundTrip 31#6 decodeMajor1F rfl rfl (f26_26_6 ..) major_1F rfl ?_
  unfold decodeMajor1F; rw [f26_0_5, f26_5_1, f26_21_5, f26_16_5, f26_11_5, f26_8_3, f26_7_1, f26_6_1]; rfl
theorem Encoding.vsraVV (d : BitVec 5) (a : BitVec 5) (b : BitVec 5) (mk : BitVec 3) (dt : BitVec 1) (ca : BitVec 1) (cb : BitVec 1) : Encoding.Statement (.vsraVV d a b mk dt ca cb) := by
  refine roundTrip 29#6 decodeMajor1D rfl rfl (f25_26_6 ..) major_1D rfl ?_
  unfold decodeMajor1D; rw [f25_0_5, f25_21_5, f25_16_5, f25_11_5, f25_8_3, f25_7_1, f25_6_1, f25_5_1]; rfl
theorem Encoding.vsraVX (d : BitVec 5) (a : BitVec 5) (b : BitVec 5) (mk : BitVec 3) (dt : BitVec 1) (ca : BitVec 1) : Encoding.Statement (.vsraVX d a b mk dt ca) := by
  refine roundTrip 30#6 decodeMajor1E rfl rfl (f26_26_6 ..) major_1E rfl ?_
  unfold decodeMajor1E; rw [f26_0_5, f26_5_1, f26_21_5, f26_16_5, f26_11_5, f26_8_3, f26_7_1, f26_6_1]; rfl
theorem Encoding.vsraVI (d : BitVec 5) (a : BitVec 5) (imm : BitVec 5) (mk : BitVec 3) (dt : BitVec 1) (ca : BitVec 1) : Encoding.Statement (.vsraVI d a imm mk dt ca) := by
  refine roundTrip 31#6 decodeMajor1F rfl rfl (f26_26_6 ..) major_1F rfl ?_
  unfold decodeMajor1F; rw [f26_0_5, f26_5_1, f26_21_5, f26_16_5, f26_11_5, f26_8_3, f26_7_1, f26_6_1]; rfl
theorem Encoding.vmulVV (d : BitVec 5) (a : BitVec 5) (b : BitVec 5) (mk : BitVec 3) (dt : BitVec 1) (ca : BitVec 1) (cb : BitVec 1) : Encoding.Statement (.vmulVV d a b mk dt ca cb) := by
  refine roundTrip 29#6 decodeMajor1D rfl rfl (f25_26_6 ..) major_1D rfl ?_
  unfold decodeMajor1D; rw [f25_0_5, f25_21_5, f25_16_5, f25_11_5, f25_8_3, f25_7_1, f25_6_1, f25_5_1]; rfl
theorem Encoding.vmulVX (d : BitVec 5) (a : BitVec 5) (b : BitVec 5) (mk : BitVec 3) (dt : BitVec 1) (ca : BitVec 1) : Encoding.Statement (.vmulVX d a b mk dt ca) := by
  refine roundTrip 30#6 decodeMajor1E rfl rfl (f26_26_6 ..) major_1E rfl ?_
  unfold decodeMajor1E; rw [f26_0_5, f26_5_1, f26_21_5, f26_16_5, f26_11_5, f26_8_3, f26_7_1, f26_6_1]; rfl
theorem Encoding.vmulVI (d : BitVec 5) (a : BitVec 5) (imm : BitVec 5) (mk : BitVec 3) (dt : BitVec 1) (ca : BitVec 1) : Encoding.Statement (.vmulVI d a imm mk dt ca) := by
  refine roundTrip 31#6 decodeMajor1F rfl rfl (f26_26_6 ..) major_1F rfl ?_
  unfold decodeMajor1F; rw [f26_0_5, f26_5_1, f26_21_5, f26_16_5, f26_11_5, f26_8_3, f26_7_1, f26_6_1]; rfl
theorem Encoding.vmulhVV (d : BitVec 5) (a : BitVec 5) (b : BitVec 5) (mk : BitVec 3) (dt : BitVec 1) (ca : BitVec 1) (cb : BitVec 1) : Encoding.Statement (.vmulhVV d a b mk dt ca cb) := by
  refine roundTrip 29#6 decodeMajor1D rfl rfl (f25_26_6 ..) major_1D rfl ?_
  unfold decodeMajor1D; rw [f25_0_5, f25_21_5, f25_16_5, f25_11_5, f25_8_3, f25_7_1, f25_6_1, f25_5_1]; rfl
theorem Encoding.vmulhVX (d : BitVec 5) (a : BitVec 5) (b : BitVec 5) (mk : BitVec 3) (dt : BitVec 1) (ca : BitVec 1) : Encoding.Statement (.vmulhVX d a b mk dt ca) := by
  refine roundTrip 30#6 decodeMajor1E rfl rfl (f26_26_6 ..) major_1E rfl ?_
  unfold decodeMajor1E; rw [f26_0_5, f26_5_1, f26_21_5, f26_16_5, f26_11_5, f26_8_3, f26_7_1, f26_6_1]; rfl
theorem Encoding.vmulhVI (d : BitVec 5) (a : BitVec 5) (imm : BitVec 5) (mk : BitVec 3) (dt : BitVec 1) (ca : BitVec 1) : Encoding.Statement (.vmulhVI d a imm mk dt ca) := by
  refine roundTrip 31#6 decodeMajor1F rfl rfl (f26_26_6 ..) major_1F rfl ?_
  unfold decodeMajor1F; rw [f26_0_5, f26_5_1, f26_21_5, f26_16_5, f26_11_5, f26_8_3, f26_7_1, f26_6_1]; rfl
theorem Encoding.vmulhuVV (d : BitVec 5) (a : BitVec 5) (b : BitVec 5) (mk : BitVec 3) (dt : BitVec 1) (ca : BitVec 1) (cb : BitVec 1) : Encoding.Statement (.vmulhuVV d a b mk dt ca cb) := by
  refine roundTrip 29#6 decodeMajor1D rfl rfl (f25_26_6 ..) major_1D rfl ?_
  unfold decodeMajor1D; rw [f25_0_5, f25_21_5, f25_16_5, f25_11_5, f25_8_3, f25_7_1, f25_6_1, f25_5_1]; rfl
theorem Encoding.vmulhuVX (d : BitVec 5) (a : BitVec 5) (b : BitVec 5) (mk : BitVec 3) (dt : BitVec 1) (ca : BitVec 1) : Encoding.Statement (.vmulhuVX d a b mk dt ca) := by
  refine roundTrip 30#6 decodeMajor1E rfl rfl (f26_26_6 ..) major_1E rfl ?_
  unfold decodeMajor1E; rw [f26_0_5, f26_5_1, f26_21_5, f26_16_5, f26_11_5, f26_8_3, f26_7_1, f26_6_1]; rfl
theorem Encoding.vmulhuVI (d : BitVec 5) (a : BitVec 5) (imm : BitVec 5) (mk : BitVec 3) (dt : BitVec 1) (ca : BitVec 1) : Encoding.Statement (.vmulhuVI d a imm mk dt ca) := by
  refine roundTrip 31#6 decodeMajor1F rfl rfl (f26_26_6 ..) major_1F rfl ?_
  unfold decodeMajor1F; rw [f26_0_5, f26_5_1, f26_21_5, f26_16_5, f26_11_5, f26_8_3, f26_7_1, f26_6_1]; rfl
theorem Encoding.vminVV (d : BitVec 5) (a : BitVec 5) (b : BitVec 5) (mk : BitVec 3) (dt : BitVec 1) (ca : BitVec 1) (cb : BitVec 1) : Encoding.Statement (.vminVV d a b mk dt ca cb) := by
  refine roundTrip 29#6 decodeMajor1D rfl rfl (f25_26_6 ..) major_1D rfl ?_
  unfold decodeMajor1D; rw [f25_0_5, f25_21_5, f25_16_5, f25_11_5, f25_8_3, f25_7_1, f25_6_1, f25_5_1]; rfl
theorem Encoding.vminVX (d : BitVec 5) (a : BitVec 5) (b : BitVec 5) (mk : BitVec 3) (dt : BitVec 1) (ca : BitVec 1) : Encoding.Statement (.vminVX d a b mk dt ca) := by
  refine roundTrip 30#6 decodeMajor1E rfl rfl (f26_26_6 ..) major_1E rfl ?_
  unfold decodeMajor1E; rw [f26_0_5, f26_5_1, f26_21_5, f26_16_5, f26_11_5, f26_8_3, f26_7_1, f26_6_1]; rfl
theorem Encoding.vminVI (d : BitVec 5) (a : BitVec 5) (imm : BitVec 5) (mk : BitVec 3) (dt : BitVec 1) (ca : BitVec 1) : Encoding.Statement (.vminVI d a imm mk dt ca) := by
  refine roundTrip 31#6 decodeMajor1F rfl rfl (f26_26_6 ..) major_1F rfl ?_
  unfold decodeMajor1F; rw [f26_0_5, f26_5_1, f26_21_5, f26_16_5, f26_11_5, f26_8_3, f26_7_1, f26_6_1]; rfl
theorem Encoding.vmaxVV (d : BitVec 5) (a : BitVec 5) (b : BitVec 5) (mk : BitVec 3) (dt : BitVec 1) (ca : BitVec 1) (cb : BitVec 1) : Encoding.Statement (.vmaxVV d a b mk dt ca cb) := by
  refine roundTrip 29#6 decodeMajor1D rfl rfl (f25_26_6 ..) major_1D rfl ?_
  unfold decodeMajor1D; rw [f25_0_5, f25_21_5, f25_16_5, f25_11_5, f25_8_3, f25_7_1, f25_6_1, f25_5_1]; rfl
theorem Encoding.vmaxVX (d : BitVec 5) (a : BitVec 5) (b : BitVec 5) (mk : BitVec 3) (dt : BitVec 1) (ca : BitVec 1) : Encoding.Statement (.vmaxVX d a b mk dt ca) := by
  refine roundTrip 30#6 decodeMajor1E rfl rfl (f26_26_6 ..) major_1E rfl ?_
  unfold decodeMajor1E; rw [f26_0_5, f26_5_1, f26_21_5, f26_16_5, f26_11_5, f26_8_3, f26_7_1, f26_6_1]; rfl
theorem Encoding.vmaxVI (d : BitVec 5) (a : BitVec 5) (imm : BitVec 5) (mk : BitVec 3) (dt : BitVec 1) (ca : BitVec 1) : Encoding.Statement (.vmaxVI d a imm mk dt ca) := by
  refine roundTrip 31#6 decodeMajor1F rfl rfl (f26_26_6 ..) major_1F rfl ?_
  unfold decodeMajor1F; rw [f26_0_5, f26_5_1, f26_21_5, f26_16_5, f26_11_5, f26_8_3, f26_7_1, f26_6_1]; rfl
theorem Encoding.vminuVV (d : BitVec 5) (a : BitVec 5) (b : BitVec 5) (mk : BitVec 3) (dt : BitVec 1) (ca : BitVec 1) (cb : BitVec 1) : Encoding.Statement (.vminuVV d a b mk dt ca cb) := by
  refine roundTrip 29#6 decodeMajor1D rfl rfl (f25_26_6 ..) major_1D rfl ?_
  unfold decodeMajor1D; rw [f25_0_5, f25_21_5, f25_16_5, f25_11_5, f25_8_3, f25_7_1, f25_6_1, f25_5_1]; rfl
theorem Encoding.vminuVX (d : BitVec 5) (a : BitVec 5) (b : BitVec 5) (mk : BitVec 3) (dt : BitVec 1) (ca : BitVec 1) : Encoding.Statement (.vminuVX d a b mk dt ca) := by
  refine roundTrip 30#6 decodeMajor1E rfl rfl (f26_26_6 ..) major_1E rfl ?_
  unfold decodeMajor1E; rw [f26_0_5, f26_5_1, f26_21_5, f26_16_5, f26_11_5, f26_8_3, f26_7_1, f26_6_1]; rfl
theorem Encoding.vminuVI (d : BitVec 5) (a : BitVec 5) (imm : BitVec 5) (mk : BitVec 3) (dt : BitVec 1) (ca : BitVec 1) : Encoding.Statement (.vminuVI d a imm mk dt ca) := by
  refine roundTrip 31#6 decodeMajor1F rfl rfl (f26_26_6 ..) major_1F rfl ?_
  unfold decodeMajor1F; rw [f26_0_5, f26_5_1, f26_21_5, f26_16_5, f26_11_5, f26_8_3, f26_7_1, f26_6_1]; rfl
theorem Encoding.vmaxuVV (d : BitVec 5) (a : BitVec 5) (b : BitVec 5) (mk : BitVec 3) (dt : BitVec 1) (ca : BitVec 1) (cb : BitVec 1) : Encoding.Statement (.vmaxuVV d a b mk dt ca cb) := by
  refine roundTrip 29#6 decodeMajor1D rfl rfl (f25_26_6 ..) major_1D rfl ?_
  unfold decodeMajor1D; rw [f25_0_5, f25_21_5, f25_16_5, f25_11_5, f25_8_3, f25_7_1, f25_6_1, f25_5_1]; rfl
theorem Encoding.vmaxuVX (d : BitVec 5) (a : BitVec 5) (b : BitVec 5) (mk : BitVec 3) (dt : BitVec 1) (ca : BitVec 1) : Encoding.Statement (.vmaxuVX d a b mk dt ca) := by
  refine roundTrip 30#6 decodeMajor1E rfl rfl (f26_26_6 ..) major_1E rfl ?_
  unfold decodeMajor1E; rw [f26_0_5, f26_5_1, f26_21_5, f26_16_5, f26_11_5, f26_8_3, f26_7_1, f26_6_1]; rfl
theorem Encoding.vmaxuVI (d : BitVec 5) (a : BitVec 5) (imm : BitVec 5) (mk : BitVec 3) (dt : BitVec 1) (ca : BitVec 1) : Encoding.Statement (.vmaxuVI d a imm mk dt ca) := by
  refine roundTrip 31#6 decodeMajor1F rfl rfl (f26_26_6 ..) major_1F rfl ?_
  unfold decodeMajor1F; rw [f26_0_5, f26_5_1, f26_21_5, f26_16_5, f26_11_5, f26_8_3, f26_7_1, f26_6_1]; rfl
theorem Encoding.vmergeVV (d : BitVec 5) (a : BitVec 5) (b : BitVec 5) (mk : BitVec 3) (ca : BitVec 1) (cb : BitVec 1) : Encoding.Statement (.vmergeVV d a b mk ca cb) := by
  refine roundTrip 29#6 decodeMajor1D rfl rfl (f25_26_6 ..) major_1D rfl ?_
  unfold decodeMajor1D; rw [f25_0_5, f25_7_1, f25_21_5, f25_16_5, f25_11_5, f25_8_3, f25_6_1, f25_5_1]; rfl
theorem Encoding.vmergeVX (d : BitVec 5) (a : BitVec 5) (b : BitVec 5) (mk : BitVec 3) (ca : BitVec 1) : Encoding.Statement (.vmergeVX d a b mk ca) := by
  refine roundTrip 30#6 decodeMajor1E rfl rfl (f26_26_6 ..) major_1E rfl ?_
  unfold decodeMajor1E; rw [f26_0_5, f26_7_1, f26_5_1, f26_21_5, f26_16_5, f26_11_5, f26_8_3, f26_6_1]; rfl
theorem Encoding.vmergeVI (d : BitVec 5) (a : BitVec 5) (imm : BitVec 5) (mk : BitVec 3) (ca : BitVec 1) : Encoding.Statement (.vmergeVI d a imm mk ca) := by
  refine roundTrip 31#6 decodeMajor1F rfl rfl (f26_26_6 ..) major_1F rfl ?_
  unfold decodeMajor1F; rw [f26_0_5, f26_7_1, f26_5_1, f26_21_5, f26_16_5, f26_11_5, f26_8_3, f26_6_1]; rfl
theorem Encoding.vmvVV (d : BitVec 5) (b : BitVec 5) (mk : BitVec 3) (dt : BitVec 1) (cb : BitVec 1) : Encoding.Statement (.vmvVV d b mk dt cb) := by
  refine roundTrip 29#6 decodeMajor1D rfl rfl (f25_26_6 ..) major_1D rfl ?_
  unfold decodeMajor1D; rw [f25_0_5, f25_16_5, f25_6_1, f25_21_5, f25_11_5, f25_8_3, f25_7_1, f25_5_1]; rfl
theorem Encoding.vmvVX (d : BitVec 5) (b : BitVec 5) (mk : BitVec 3) (dt : BitVec 1) : Encoding.Statement (.vmvVX d b mk dt) := by
  refine roundTrip 30#6 decodeMajor1E rfl rfl (f27_26_6 ..) major_1E rfl ?_
  unfold decodeMajor1E; rw [f27_0_5, f27_16_5, f27_5_2, f27_21_5, f27_11_5, f27_8_3, f27_7_1]; rfl
theorem Encoding.vmvVI (d : BitVec 5) (imm : BitVec 5) (mk : BitVec 3) (dt : BitVec 1) : Encoding.Statement (.vmvVI d imm mk dt) := by
  refine roundTrip 31#6 decodeMajor1F rfl rfl (f27_26_6 ..) major_1F rfl ?_
  unfold decodeMajor1F; rw [f27_0_5, f27_16_5, f27_5_2, f27_21_5, f27_11_5, f27_8_3, f27_7_1]; rfl
theorem Encoding.vcmpEqVV (d : BitVec 5) (a : BitVec 5) (b : BitVec 5) (mk : BitVec 3) (dt : BitVec 1) (ca : BitVec 1) (cb : BitVec 1) : Encoding.Statement (.vcmpEqVV d a b mk dt ca cb) := by
  refine roundTrip 29#6 decodeMajor1D rfl rfl (f25_26_6 ..) major_1D rfl ?_
  unfold decodeMajor1D; rw [f25_0_5, f25_21_5, f25_16_5, f25_11_5, f25_8_3, f25_7_1, f25_6_1, f25_5_1]; rfl
theorem Encoding.vcmpEqVX (d : BitVec 5) (a : BitVec 5) (b : BitVec 5) (mk : BitVec 3) (dt : BitVec 1) (ca : BitVec 1) : Encoding.Statement (.vcmpEqVX d a b mk dt ca) := by
  refine roundTrip 30#6 decodeMajor1E rfl rfl (f26_26_6 ..) major_1E rfl ?_
  unfold decodeMajor1E; rw [f26_0_5, f26_5_1, f26_21_5, f26_16_5, f26_11_5, f26_8_3, f26_7_1, f26_6_1]; rfl
theorem Encoding.vcmpEqVI (d : BitVec 5) (a : BitVec 5) (imm : BitVec 5) (mk : BitVec 3) (dt : BitVec 1) (ca : BitVec 1) : Encoding.Statement (.vcmpEqVI d a imm mk dt ca) := by
  refine roundTrip 31#6 decodeMajor1F rfl rfl (f26_26_6 ..) major_1F rfl ?_
  unfold decodeMajor1F; rw [f26_0_5, f26_5_1, f26_21_5, f26_16_5, f26_11_5, f26_8_3, f26_7_1, f26_6_1]; rfl
theorem Encoding.vcmpNeVV (d : BitVec 5) (a : BitVec 5) (b : BitVec 5) (mk : BitVec 3) (dt : BitVec 1) (ca : BitVec 1) (cb : BitVec 1) : Encoding.Statement (.vcmpNeVV d a b mk dt ca cb) := by
  refine roundTrip 29#6 decodeMajor1D rfl rfl (f25_26_6 ..) major_1D rfl ?_
  unfold decodeMajor1D; rw [f25_0_5, f25_21_5, f25_16_5, f25_11_5, f25_8_3, f25_7_1, f25_6_1, f25_5_1]; rfl
theorem Encoding.vcmpNeVX (d : BitVec 5) (a : BitVec 5) (b : BitVec 5) (mk : BitVec 3) (dt : BitVec 1) (ca : BitVec 1) : Encoding.Statement (.vcmpNeVX d a b mk dt ca) := by
  refine roundTrip 30#6 decodeMajor1E rfl rfl (f26_26_6 ..) major_1E rfl ?_
  unfold decodeMajor1E; rw [f26_0_5, f26_5_1, f26_21_5, f26_16_5, f26_11_5, f26_8_3, f26_7_1, f26_6_1]; rfl
theorem Encoding.vcmpNeVI (d : BitVec 5) (a : BitVec 5) (imm : BitVec 5) (mk : BitVec 3) (dt : BitVec 1) (ca : BitVec 1) : Encoding.Statement (.vcmpNeVI d a imm mk dt ca) := by
  refine roundTrip 31#6 decodeMajor1F rfl rfl (f26_26_6 ..) major_1F rfl ?_
  unfold decodeMajor1F; rw [f26_0_5, f26_5_1, f26_21_5, f26_16_5, f26_11_5, f26_8_3, f26_7_1, f26_6_1]; rfl
theorem Encoding.vcmpLtVV (d : BitVec 5) (a : BitVec 5) (b : BitVec 5) (mk : BitVec 3) (dt : BitVec 1) (ca : BitVec 1) (cb : BitVec 1) : Encoding.Statement (.vcmpLtVV d a b mk dt ca cb) := by
  refine roundTrip 29#6 decodeMajor1D rfl rfl (f25_26_6 ..) major_1D rfl ?_
  unfold decodeMajor1D; rw [f25_0_5, f25_21_5, f25_16_5, f25_11_5, f25_8_3, f25_7_1, f25_6_1, f25_5_1]; rfl
theorem Encoding.vcmpLtVX (d : BitVec 5) (a : BitVec 5) (b : BitVec 5) (mk : BitVec 3) (dt : BitVec 1) (ca : BitVec 1) : Encoding.Statement (.vcmpLtVX d a b mk dt ca) := by
  refine roundTrip 30#6 decodeMajor1E rfl rfl (f26_26_6 ..) major_1E rfl ?_
  unfold decodeMajor1E; rw [f26_0_5, f26_5_1, f26_21_5, f26_16_5, f26_11_5, f26_8_3, f26_7_1, f26_6_1]; rfl
theorem Encoding.vcmpLtVI (d : BitVec 5) (a : BitVec 5) (imm : BitVec 5) (mk : BitVec 3) (dt : BitVec 1) (ca : BitVec 1) : Encoding.Statement (.vcmpLtVI d a imm mk dt ca) := by
  refine roundTrip 31#6 decodeMajor1F rfl rfl (f26_26_6 ..) major_1F rfl ?_
  unfold decodeMajor1F; rw [f26_0_5, f26_5_1, f26_21_5, f26_16_5, f26_11_5, f26_8_3, f26_7_1, f26_6_1]; rfl
theorem Encoding.vcmpLtuVV (d : BitVec 5) (a : BitVec 5) (b : BitVec 5) (mk : BitVec 3) (dt : BitVec 1) (ca : BitVec 1) (cb : BitVec 1) : Encoding.Statement (.vcmpLtuVV d a b mk dt ca cb) := by
  refine roundTrip 29#6 decodeMajor1D rfl rfl (f25_26_6 ..) major_1D rfl ?_
  unfold decodeMajor1D; rw [f25_0_5, f25_21_5, f25_16_5, f25_11_5, f25_8_3, f25_7_1, f25_6_1, f25_5_1]; rfl
theorem Encoding.vcmpLtuVX (d : BitVec 5) (a : BitVec 5) (b : BitVec 5) (mk : BitVec 3) (dt : BitVec 1) (ca : BitVec 1) : Encoding.Statement (.vcmpLtuVX d a b mk dt ca) := by
  refine roundTrip 30#6 decodeMajor1E rfl rfl (f26_26_6 ..) major_1E rfl ?_
  unfold decodeMajor1E; rw [f26_0_5, f26_5_1, f26_21_5, f26_16_5, f26_11_5, f26_8_3, f26_7_1, f26_6_1]; rfl
theorem Encoding.vcmpLtuVI (d : BitVec 5) (a : BitVec 5) (imm : BitVec 5) (mk : BitVec 3) (dt : BitVec 1) (ca : BitVec 1) : Encoding.Statement (.vcmpLtuVI d a imm mk dt ca) := by
  refine roundTrip 31#6 decodeMajor1F rfl rfl (f26_26_6 ..) major_1F rfl ?_
  unfold decodeMajor1F; rw [f26_0_5, f26_5_1, f26_21_5, f26_16_5, f26_11_5, f26_8_3, f26_7_1, f26_6_1]; rfl
theorem Encoding.vcmpLeVV (d : BitVec 5) (a : BitVec 5) (b : BitVec 5) (mk : BitVec 3) (dt : BitVec 1) (ca : BitVec 1) (cb : BitVec 1) : Encoding.Statement (.vcmpLeVV d a b mk dt ca cb) := by
  refine roundTrip 29#6 decodeMajor1D rfl rfl (f25_26_6 ..) major_1D rfl ?_
  unfold decodeMajor1D; rw [f25_0_5, f25_21_5, f25_16_5, f25_11_5, f25_8_3, f25_7_1, f25_6_1, f25_5_1]; rfl
theorem Encoding.vcmpLeVX (d : BitVec 5) (a : BitVec 5) (b : BitVec 5) (mk : BitVec 3) (dt : BitVec 1) (ca : BitVec 1) : Encoding.Statement (.vcmpLeVX d a b mk dt ca) := by
  refine roundTrip 30#6 decodeMajor1E rfl rfl (f26_26_6 ..) major_1E rfl ?_
  unfold decodeMajor1E; rw [f26_0_5, f26_5_1, f26_21_5, f26_16_5, f26_11_5, f26_8_3, f26_7_1, f26_6_1]; rfl
theorem Encoding.vcmpLeVI (d : BitVec 5) (a : BitVec 5) (imm : BitVec 5) (mk : BitVec 3) (dt : BitVec 1) (ca : BitVec 1) : Encoding.Statement (.vcmpLeVI d a imm mk dt ca) := by
  refine roundTrip 31#6 decodeMajor1F rfl rfl (f26_26_6 ..) major_1F rfl ?_
  unfold decodeMajor1F; rw [f26_0_5, f26_5_1, f26_21_5, f26_16_5, f26_11_5, f26_8_3, f26_7_1, f26_6_1]; rfl
theorem Encoding.vcmpLeuVV (d : BitVec 5) (a : BitVec 5) (b : BitVec 5) (mk : BitVec 3) (dt : BitVec 1) (ca : BitVec 1) (cb : BitVec 1) : Encoding.Statement (.vcmpLeuVV d a b mk dt ca cb) := by
  refine roundTrip 29#6 decodeMajor1D rfl rfl (f25_26_6 ..) major_1D rfl ?_
  unfold decodeMajor1D; rw [f25_0_5, f25_21_5, f25_16_5, f25_11_5, f25_8_3, f25_7_1, f25_6_1, f25_5_1]; rfl
theorem Encoding.vcmpLeuVX (d : BitVec 5) (a : BitVec 5) (b : BitVec 5) (mk : BitVec 3) (dt : BitVec 1) (ca : BitVec 1) : Encoding.Statement (.vcmpLeuVX d a b mk dt ca) := by
  refine roundTrip 30#6 decodeMajor1E rfl rfl (f26_26_6 ..) major_1E rfl ?_
  unfold decodeMajor1E; rw [f26_0_5, f26_5_1, f26_21_5, f26_16_5, f26_11_5, f26_8_3, f26_7_1, f26_6_1]; rfl
theorem Encoding.vcmpLeuVI (d : BitVec 5) (a : BitVec 5) (imm : BitVec 5) (mk : BitVec 3) (dt : BitVec 1) (ca : BitVec 1) : Encoding.Statement (.vcmpLeuVI d a imm mk dt ca) := by
  refine roundTrip 31#6 decodeMajor1F rfl rfl (f26_26_6 ..) major_1F rfl ?_
  unfold decodeMajor1F; rw [f26_0_5, f26_5_1, f26_21_5, f26_16_5, f26_11_5, f26_8_3, f26_7_1, f26_6_1]; rfl
theorem Encoding.vcmpGtVV (d : BitVec 5) (a : BitVec 5) (b : BitVec 5) (mk : BitVec 3) (dt : BitVec 1) (ca : BitVec 1) (cb : BitVec 1) : Encoding.Statement (.vcmpGtVV d a b mk dt ca cb) := by
  refine roundTrip 29#6 decodeMajor1D rfl rfl (f25_26_6 ..) major_1D rfl ?_
  unfold decodeMajor1D; rw [f25_0_5, f25_21_5, f25_16_5, f25_11_5, f25_8_3, f25_7_1, f25_6_1, f25_5_1]; rfl
theorem Encoding.vcmpGtVX (d : BitVec 5) (a : BitVec 5) (b : BitVec 5) (mk : BitVec 3) (dt : BitVec 1) (ca : BitVec 1) : Encoding.Statement (.vcmpGtVX d a b mk dt ca) := by
  refine roundTrip 30#6 decodeMajor1E rfl rfl (f26_26_6 ..) major_1E rfl ?_
  unfold decodeMajor1E; rw [f26_0_5, f26_5_1, f26_21_5, f26_16_5, f26_11_5, f26_8_3, f26_7_1, f26_6_1]; rfl
theorem Encoding.vcmpGtVI (d : BitVec 5) (a : BitVec 5) (imm : BitVec 5) (mk : BitVec 3) (dt : BitVec 1) (ca : BitVec 1) : Encoding.Statement (.vcmpGtVI d a imm mk dt ca) := by
  refine roundTrip 31#6 decodeMajor1F rfl rfl (f26_26_6 ..) major_1F rfl ?_
  unfold decodeMajor1F; rw [f26_0_5, f26_5_1, f26_21_5, f26_16_5, f26_11_5, f26_8_3, f26_7_1, f26_6_1]; rfl
theorem Encoding.vcmpGtuVV (d : BitVec 5) (a : BitVec 5) (b : BitVec 5) (mk : BitVec 3) (dt : BitVec 1) (ca : BitVec 1) (cb : BitVec 1) : Encoding.Statement (.vcmpGtuVV d a b mk dt ca cb) := by
  refine roundTrip 29#6 decodeMajor1D rfl rfl (f25_26_6 ..) major_1D rfl ?_
  unfold decodeMajor1D; rw [f25_0_5, f25_21_5, f25_16_5, f25_11_5, f25_8_3, f25_7_1, f25_6_1, f25_5_1]; rfl
theorem Encoding.vcmpGtuVX (d : BitVec 5) (a : BitVec 5) (b : BitVec 5) (mk : BitVec 3) (dt : BitVec 1) (ca : BitVec 1) : Encoding.Statement (.vcmpGtuVX d a b mk dt ca) := by
  refine roundTrip 30#6 decodeMajor1E rfl rfl (f26_26_6 ..) major_1E rfl ?_
  unfold decodeMajor1E; rw [f26_0_5, f26_5_1, f26_21_5, f26_16_5, f26_11_5, f26_8_3, f26_7_1, f26_6_1]; rfl
theorem Encoding.vcmpGtuVI (d : BitVec 5) (a : BitVec 5) (imm : BitVec 5) (mk : BitVec 3) (dt : BitVec 1) (ca : BitVec 1) : Encoding.Statement (.vcmpGtuVI d a imm mk dt ca) := by
  refine roundTrip 31#6 decodeMajor1F rfl rfl (f26_26_6 ..) major_1F rfl ?_
  unfold decodeMajor1F; rw [f26_0_5, f26_5_1, f26_21_5, f26_16_5, f26_11_5, f26_8_3, f26_7_1, f26_6_1]; rfl
theorem Encoding.vslupVX (d : BitVec 5) (a : BitVec 5) (b : BitVec 5) (mk : BitVec 3) (dt : BitVec 1) (ca : BitVec 1) : Encoding.Statement (.vslupVX d a b mk dt ca) := by
  refine roundTrip 32#6 decodeMajor20 rfl rfl (f26_26_6 ..) major_20 rfl ?_
  unfold decodeMajor20; rw [f26_0_5, f26_5_1, f26_21_5, f26_16_5, f26_11_5, f26_8_3, f26_7_1, f26_6_1]; rfl
theorem Encoding.vslupVI (d : BitVec 5) (a : BitVec 5) (imm : BitVec 5) (mk : BitVec 3) (dt : BitVec 1) (ca : BitVec 1) : Encoding.Statement (.vslupVI d a imm mk dt ca) := by
  refine roundTrip 32#6 decodeMajor20 rfl rfl (f26_26_6 ..) major_20 rfl ?_
  unfold decodeMajor20; rw [f26_0_5, f26_5_1, f26_21_5, f26_16_5, f26_11_5, f26_8_3, f26_7_1, f26_6_1]; rfl
theorem Encoding.vsldnVX (d : BitVec 5) (a : BitVec 5) (b : BitVec 5) (mk : BitVec 3) (dt : BitVec 1) (ca : BitVec 1) : Encoding.Statement (.vsldnVX d a b mk dt ca) := by
  refine roundTrip 32#6 decodeMajor20 rfl rfl (f26_26_6 ..) major_20 rfl ?_
  unfold decodeMajor20; rw [f26_0_5, f26_5_1, f26_21_5, f26_16_5, f26_11_5, f26_8_3, f26_7_1, f26_6_1]; rfl
theorem Encoding.vsldnVI (d : BitVec 5) (a : BitVec 5) (imm : BitVec 5) (mk : BitVec 3) (dt : BitVec 1) (ca : BitVec 1) : Encoding.Statement (.vsldnVI d a imm mk dt ca) := by
  refine roundTrip 32#6 decodeMajor20 rfl rfl (f26_26_6 ..) major_20 rfl ?_
  unfold decodeMajor20; rw [f26_0_5, f26_5_1, f26_21_5, f26_16_5, f26_11_5, f26_8_3, f26_7_1, f26_6_1]; rfl
theorem Encoding.vsl1up (d : BitVec 5) (a : BitVec 5) (b : BitVec 5) (mk : BitVec 3) (dt : BitVec 1) (ca : BitVec 1) : Encoding.Statement (.vsl1up d a b mk dt ca) := by
  refine roundTrip 32#6 decodeMajor20 rfl rfl (f26_26_6 ..) major_20 rfl ?_
  unfold decodeMajor20; rw [f26_0_5, f26_5_1, f26_21_5, f26_16_5, f26_11_5, f26_8_3, f26_7_1, f26_6_1]; rfl
theorem Encoding.vsl1dn (d : BitVec 5) (a : BitVec 5) (b : BitVec 5) (mk : BitVec 3) (dt : BitVec 1) (ca : BitVec 1) : Encoding.Statement (.vsl1dn d a b mk dt ca) := by
  refine roundTrip 32#6 decodeMajor20 rfl rfl (f26_26_6 ..) major_20 rfl ?_
  unfold decodeMajor20; rw [f26_0_5, f26_5_1, f26_21_5, f26_16_5, f26_11_5, f26_8_3, f26_7_1, f26_6_1]; rfl
theorem Encoding.vperm (d : BitVec 5) (a : BitVec 5) (b : BitVec 5) (mk : BitVec 3) (dt : BitVec 1) (ca : BitVec 1) (cb : BitVec 1) : Encoding.Statement (.vperm d a b mk dt ca cb) := by
  refine roundTrip 32#6 decodeMajor20 rfl rfl (f25_26_6 ..) major_20 rfl ?_
  unfold decodeMajor20; rw [f25_0_5, f25_21_5, f25_16_5, f25_11_5, f25_8_3, f25_7_1, f25_6_1, f25_5_1]; rfl
theorem Encoding.vcompress (d : BitVec 5) (a : BitVec 5) (mk : BitVec 3) (ca : BitVec 1) : Encoding.Statement (.vcompress d a mk ca) := by
  refine roundTrip 32#6 decodeMajor20 rfl rfl (f26_26_6 ..) major_20 rfl ?_
  unfold decodeMajor20; rw [f26_0_5, f26_11_5, f26_7_1, f26_5_1, f26_21_5, f26_16_5, f26_8_3, f26_6_1]; rfl
theorem Encoding.viota (d : BitVec 5) (mk : BitVec 3) : Encoding.Statement (.viota d mk) := by
  refine roundTrip 32#6 decodeMajor20 rfl rfl (f28_26_6 ..) major_20 rfl ?_
  unfold decodeMajor20; rw [f28_0_5, f28_11_10, f28_5_3, f28_21_5, f28_8_3]; rfl
theorem Encoding.vid (d : BitVec 5) (mk : BitVec 3) (dt : BitVec 1) : Encoding.Statement (.vid d mk dt) := by
  refine roundTrip 32#6 decodeMajor20 rfl rfl (f29_26_6 ..) major_20 rfl ?_
  unfold decodeMajor20; rw [f29_0_5, f29_11_10, f29_5_2, f29_21_5, f29_8_3, f29_7_1]; rfl
theorem Encoding.vwadd (d : BitVec 5) (a : BitVec 5) (b : BitVec 5) (mk : BitVec 3) (dt : BitVec 1) (ca : BitVec 1) (cb : BitVec 1) : Encoding.Statement (.vwadd d a b mk dt ca cb) := by
  refine roundTrip 32#6 decodeMajor20 rfl rfl (f25_26_6 ..) major_20 rfl ?_
  unfold decodeMajor20; rw [f25_0_5, f25_21_5, f25_16_5, f25_11_5, f25_8_3, f25_7_1, f25_6_1, f25_5_1]; rfl
theorem Encoding.vwaddu (d : BitVec 5) (a : BitVec 5) (b : BitVec 5) (mk : BitVec 3) (dt : BitVec 1) (ca : BitVec 1) (cb : BitVec 1) : Encoding.Statement (.vwaddu d a b mk dt ca cb) := by
  refine roundTrip 32#6 decodeMajor20 rfl rfl (f25_26_6 ..) major_20 rfl ?_
  unfold decodeMajor20; rw [f25_0_5, f25_21_5, f25_16_5, f25_11_5, f25_8_3, f25_7_1, f25_6_1, f25_5_1]; rfl
theorem Encoding.vwmul (d : BitVec 5) (a : BitVec 5) (b : BitVec 5) (mk : BitVec 3) (dt : BitVec 1) (ca : BitVec 1) (cb : BitVec 1) : Encoding.Statement (.vwmul d a b mk dt ca cb) := by
  refine roundTrip 32#6 decodeMajor20 rfl rfl (f25_26_6 ..) major_20 rfl ?_
  unfold decodeMajor20; rw [f25_0_5, f25_21_5, f25_16_5, f25_11_5, f25_8_3, f25_7_1, f25_6_1, f25_5_1]; rfl
theorem Encoding.vwmulu (d : BitVec 5) (a : BitVec 5) (b : BitVec 5) (mk : BitVec 3) (dt : BitVec 1) (ca : BitVec 1) (cb : BitVec 1) : Encoding.Statement (.vwmulu d a b mk dt ca cb) := by
  refine roundTrip 32#6 decodeMajor20 rfl rfl (f25_26_6 ..) major_20 rfl ?_
  unfold decodeMajor20; rw [f25_0_5, f25_21_5, f25_16_5, f25_11_5, f25_8_3, f25_7_1, f25_6_1, f25_5_1]; rfl
theorem Encoding.vnshrVX (d : BitVec 5) (a : BitVec 5) (b : BitVec 5) (mk : BitVec 3) (dt : BitVec 1) (ca : BitVec 1) : Encoding.Statement (.vnshrVX d a b mk dt ca) := by
  refine roundTrip 32#6 decodeMajor20 rfl rfl (f26_26_6 ..) major_20 rfl ?_
  unfold decodeMajor20; rw [f26_0_5, f26_5_1, f26_21_5, f26_16_5, f26_11_5, f26_8_3, f26_7_1, f26_6_1]; rfl
theorem Encoding.vnshrVI (d : BitVec 5) (a : BitVec 5) (imm : BitVec 5) (mk : BitVec 3) (dt : BitVec 1) (ca : BitVec 1) : Encoding.Statement (.vnshrVI d a imm mk dt ca) := by
  refine roundTrip 32#6 decodeMajor20 rfl rfl (f26_26_6 ..) major_20 rfl ?_
  unfold decodeMajor20; rw [f26_0_5, f26_5_1, f26_21_5, f26_16_5, f26_11_5, f26_8_3, f26_7_1, f26_6_1]; rfl
theorem Encoding.vnsraVX (d : BitVec 5) (a : BitVec 5) (b : BitVec 5) (mk : BitVec 3) (dt : BitVec 1) (ca : BitVec 1) : Encoding.Statement (.vnsraVX d a b mk dt ca) := by
  refine roundTrip 32#6 decodeMajor20 rfl rfl (f26_26_6 ..) major_20 rfl ?_
  unfold decodeMajor20; rw [f26_0_5, f26_5_1, f26_21_5, f26_16_5, f26_11_5, f26_8_3, f26_7_1, f26_6_1]; rfl
theorem Encoding.vnsraVI (d : BitVec 5) (a : BitVec 5) (imm : BitVec 5) (mk : BitVec 3) (dt : BitVec 1) (ca : BitVec 1) : Encoding.Statement (.vnsraVI d a imm mk dt ca) := by
  refine roundTrip 32#6 decodeMajor20 rfl rfl (f26_26_6 ..) major_20 rfl ?_
  unfold decodeMajor20; rw [f26_0_5, f26_5_1, f26_21_5, f26_16_5, f26_11_5, f26_8_3, f26_7_1, f26_6_1]; rfl
theorem Encoding.vextS2 (d : BitVec 5) (a : BitVec 5) (mk : BitVec 3) (dt : BitVec 1) (ca : BitVec 1) : Encoding.Statement (.vextS2 d a mk dt ca) := by
  refine roundTrip 32#6 decodeMajor20 rfl rfl (f26_26_6 ..) major_20 rfl ?_
  unfold decodeMajor20; rw [f26_0_5, f26_11_5, f26_5_1, f26_21_5, f26_16_5, f26_8_3, f26_7_1, f26_6_1]; rfl
theorem Encoding.vextS4 (d : BitVec 5) (a : BitVec 5) (mk : BitVec 3) (dt : BitVec 1) (ca : BitVec 1) : Encoding.Statement (.vextS4 d a mk dt ca) := by
  refine roundTrip 32#6 decodeMajor20 rfl rfl (f26_26_6 ..) major_20 rfl ?_
  unfold decodeMajor20; rw [f26_0_5, f26_11_5, f26_5_1, f26_21_5, f26_16_5, f26_8_3, f26_7_1, f26_6_1]; rfl
theorem Encoding.vextZ2 (d : BitVec 5) (a : BitVec 5) (mk : BitVec 3) (dt : BitVec 1) (ca : BitVec 1) : Encoding.Statement (.vextZ2 d a mk dt ca) := by
  refine roundTrip 32#6 decodeMajor20 rfl rfl (f26_26_6 ..) major_20 rfl ?_
  unfold decodeMajor20; rw [f26_0_5, f26_11_5, f26_5_1, f26_21_5, f26_16_5, f26_8_3, f26_7_1, f26_6_1]; rfl
theorem Encoding.vextZ4 (d : BitVec 5) (a : BitVec 5) (mk : BitVec 3) (dt : BitVec 1) (ca : BitVec 1) : Encoding.Statement (.vextZ4 d a mk dt ca) := by
  refine roundTrip 32#6 decodeMajor20 rfl rfl (f26_26_6 ..) major_20 rfl ?_
  unfold decodeMajor20; rw [f26_0_5, f26_11_5, f26_5_1, f26_21_5, f26_16_5, f26_8_3, f26_7_1, f26_6_1]; rfl
theorem Encoding.vlastx (d : BitVec 5) (a : BitVec 5) (b : BitVec 5) (h : BitVec 4) (ca : BitVec 1) : Encoding.Statement (.vlastx d a b h ca) := by
  refine roundTrip 32#6 decodeMajor20 rfl rfl (f30_26_6 ..) major_20 rfl ?_
  unfold decodeMajor20; rw [f30_0_5, f30_5_1, f30_21_5, f30_16_5, f30_11_5, f30_7_4, f30_6_1]; rfl
theorem Encoding.mand (d : BitVec 5) (a : BitVec 5) (b : BitVec 5) : Encoding.Statement (.mand d a b) := by
  refine roundTrip 33#6 decodeMajor21 rfl rfl (f0_26_6 ..) major_21 rfl ?_
  unfold decodeMajor21; rw [f0_0_5, f0_5_6, f0_21_5, f0_16_5, f0_11_5]; rfl
theorem Encoding.mor (d : BitVec 5) (a : BitVec 5) (b : BitVec 5) : Encoding.Statement (.mor d a b) := by
  refine roundTrip 33#6 decodeMajor21 rfl rfl (f0_26_6 ..) major_21 rfl ?_
  unfold decodeMajor21; rw [f0_0_5, f0_5_6, f0_21_5, f0_16_5, f0_11_5]; rfl
theorem Encoding.mxor (d : BitVec 5) (a : BitVec 5) (b : BitVec 5) : Encoding.Statement (.mxor d a b) := by
  refine roundTrip 33#6 decodeMajor21 rfl rfl (f0_26_6 ..) major_21 rfl ?_
  unfold decodeMajor21; rw [f0_0_5, f0_5_6, f0_21_5, f0_16_5, f0_11_5]; rfl
theorem Encoding.mandn (d : BitVec 5) (a : BitVec 5) (b : BitVec 5) : Encoding.Statement (.mandn d a b) := by
  refine roundTrip 33#6 decodeMajor21 rfl rfl (f0_26_6 ..) major_21 rfl ?_
  unfold decodeMajor21; rw [f0_0_5, f0_5_6, f0_21_5, f0_16_5, f0_11_5]; rfl
theorem Encoding.mshl (d : BitVec 5) (a : BitVec 5) (n : BitVec 5) : Encoding.Statement (.mshl d a n) := by
  refine roundTrip 33#6 decodeMajor21 rfl rfl (f0_26_6 ..) major_21 rfl ?_
  unfold decodeMajor21; rw [f0_0_5, f0_5_6, f0_21_5, f0_16_5, f0_11_5]; rfl
theorem Encoding.mpopc (d : BitVec 5) (a : BitVec 5) (h : BitVec 4) : Encoding.Statement (.mpopc d a h) := by
  refine roundTrip 33#6 decodeMajor21 rfl rfl (f1_26_6 ..) major_21 rfl ?_
  unfold decodeMajor21; rw [f1_0_5, f1_11_5, f1_5_2, f1_21_5, f1_16_5, f1_7_4]; rfl
theorem Encoding.mfirst (d : BitVec 5) (a : BitVec 5) (h : BitVec 4) : Encoding.Statement (.mfirst d a h) := by
  refine roundTrip 33#6 decodeMajor21 rfl rfl (f1_26_6 ..) major_21 rfl ?_
  unfold decodeMajor21; rw [f1_0_5, f1_11_5, f1_5_2, f1_21_5, f1_16_5, f1_7_4]; rfl
theorem Encoding.mlast (d : BitVec 5) (a : BitVec 5) (h : BitVec 4) : Encoding.Statement (.mlast d a h) := by
  refine roundTrip 33#6 decodeMajor21 rfl rfl (f1_26_6 ..) major_21 rfl ?_
  unfold decodeMajor21; rw [f1_0_5, f1_11_5, f1_5_2, f1_21_5, f1_16_5, f1_7_4]; rfl
theorem Encoding.vmvx (d : BitVec 5) (a : BitVec 5) (b : BitVec 5) (h : BitVec 4) (ca : BitVec 1) : Encoding.Statement (.vmvx d a b h ca) := by
  refine roundTrip 33#6 decodeMajor21 rfl rfl (f30_26_6 ..) major_21 rfl ?_
  unfold decodeMajor21; rw [f30_0_5, f30_5_1, f30_21_5, f30_16_5, f30_11_5, f30_7_4, f30_6_1]; rfl
theorem Encoding.vmvsx (d : BitVec 5) (a : BitVec 5) : Encoding.Statement (.vmvsx d a) := by
  refine roundTrip 33#6 decodeMajor21 rfl rfl (f2_26_6 ..) major_21 rfl ?_
  unfold decodeMajor21; rw [f2_0_5, f2_5_11, f2_21_5, f2_16_5]; rfl
theorem Encoding.vredSum (d : BitVec 5) (a : BitVec 5) (b : BitVec 5) (mk : BitVec 3) (dt : BitVec 1) (ca : BitVec 1) (cb : BitVec 1) : Encoding.Statement (.vredSum d a b mk dt ca cb) := by
  refine roundTrip 33#6 decodeMajor21 rfl rfl (f25_26_6 ..) major_21 rfl ?_
  unfold decodeMajor21; rw [f25_0_5, f25_21_5, f25_16_5, f25_11_5, f25_8_3, f25_7_1, f25_6_1, f25_5_1]; rfl
theorem Encoding.vredAnd (d : BitVec 5) (a : BitVec 5) (b : BitVec 5) (mk : BitVec 3) (dt : BitVec 1) (ca : BitVec 1) (cb : BitVec 1) : Encoding.Statement (.vredAnd d a b mk dt ca cb) := by
  refine roundTrip 33#6 decodeMajor21 rfl rfl (f25_26_6 ..) major_21 rfl ?_
  unfold decodeMajor21; rw [f25_0_5, f25_21_5, f25_16_5, f25_11_5, f25_8_3, f25_7_1, f25_6_1, f25_5_1]; rfl
theorem Encoding.vredOr (d : BitVec 5) (a : BitVec 5) (b : BitVec 5) (mk : BitVec 3) (dt : BitVec 1) (ca : BitVec 1) (cb : BitVec 1) : Encoding.Statement (.vredOr d a b mk dt ca cb) := by
  refine roundTrip 33#6 decodeMajor21 rfl rfl (f25_26_6 ..) major_21 rfl ?_
  unfold decodeMajor21; rw [f25_0_5, f25_21_5, f25_16_5, f25_11_5, f25_8_3, f25_7_1, f25_6_1, f25_5_1]; rfl
theorem Encoding.vredXor (d : BitVec 5) (a : BitVec 5) (b : BitVec 5) (mk : BitVec 3) (dt : BitVec 1) (ca : BitVec 1) (cb : BitVec 1) : Encoding.Statement (.vredXor d a b mk dt ca cb) := by
  refine roundTrip 33#6 decodeMajor21 rfl rfl (f25_26_6 ..) major_21 rfl ?_
  unfold decodeMajor21; rw [f25_0_5, f25_21_5, f25_16_5, f25_11_5, f25_8_3, f25_7_1, f25_6_1, f25_5_1]; rfl
theorem Encoding.vredMin (d : BitVec 5) (a : BitVec 5) (b : BitVec 5) (mk : BitVec 3) (dt : BitVec 1) (ca : BitVec 1) (cb : BitVec 1) : Encoding.Statement (.vredMin d a b mk dt ca cb) := by
  refine roundTrip 33#6 decodeMajor21 rfl rfl (f25_26_6 ..) major_21 rfl ?_
  unfold decodeMajor21; rw [f25_0_5, f25_21_5, f25_16_5, f25_11_5, f25_8_3, f25_7_1, f25_6_1, f25_5_1]; rfl
theorem Encoding.vredMax (d : BitVec 5) (a : BitVec 5) (b : BitVec 5) (mk : BitVec 3) (dt : BitVec 1) (ca : BitVec 1) (cb : BitVec 1) : Encoding.Statement (.vredMax d a b mk dt ca cb) := by
  refine roundTrip 33#6 decodeMajor21 rfl rfl (f25_26_6 ..) major_21 rfl ?_
  unfold decodeMajor21; rw [f25_0_5, f25_21_5, f25_16_5, f25_11_5, f25_8_3, f25_7_1, f25_6_1, f25_5_1]; rfl
theorem Encoding.vredMinu (d : BitVec 5) (a : BitVec 5) (b : BitVec 5) (mk : BitVec 3) (dt : BitVec 1) (ca : BitVec 1) (cb : BitVec 1) : Encoding.Statement (.vredMinu d a b mk dt ca cb) := by
  refine roundTrip 33#6 decodeMajor21 rfl rfl (f25_26_6 ..) major_21 rfl ?_
  unfold decodeMajor21; rw [f25_0_5, f25_21_5, f25_16_5, f25_11_5, f25_8_3, f25_7_1, f25_6_1, f25_5_1]; rfl
theorem Encoding.vredMaxu (d : BitVec 5) (a : BitVec 5) (b : BitVec 5) (mk : BitVec 3) (dt : BitVec 1) (ca : BitVec 1) (cb : BitVec 1) : Encoding.Statement (.vredMaxu d a b mk dt ca cb) := by
  refine roundTrip 33#6 decodeMajor21 rfl rfl (f25_26_6 ..) major_21 rfl ?_
  unfold decodeMajor21; rw [f25_0_5, f25_21_5, f25_16_5, f25_11_5, f25_8_3, f25_7_1, f25_6_1, f25_5_1]; rfl
theorem Encoding.vfaddVV (d : BitVec 5) (a : BitVec 5) (b : BitVec 5) (mk : BitVec 3) (dt : BitVec 1) (ca : BitVec 1) (cb : BitVec 1) : Encoding.Statement (.vfaddVV d a b mk dt ca cb) := by
  refine roundTrip 34#6 decodeMajor22 rfl rfl (f25_26_6 ..) major_22 rfl ?_
  unfold decodeMajor22; rw [f25_0_5, f25_21_5, f25_16_5, f25_11_5, f25_8_3, f25_7_1, f25_6_1, f25_5_1]; rfl
theorem Encoding.vfaddVX (d : BitVec 5) (a : BitVec 5) (b : BitVec 5) (mk : BitVec 3) (dt : BitVec 1) (ca : BitVec 1) : Encoding.Statement (.vfaddVX d a b mk dt ca) := by
  refine roundTrip 35#6 decodeMajor23 rfl rfl (f26_26_6 ..) major_23 rfl ?_
  unfold decodeMajor23; rw [f26_0_5, f26_5_1, f26_21_5, f26_16_5, f26_11_5, f26_8_3, f26_7_1, f26_6_1]; rfl
theorem Encoding.vfsubVV (d : BitVec 5) (a : BitVec 5) (b : BitVec 5) (mk : BitVec 3) (dt : BitVec 1) (ca : BitVec 1) (cb : BitVec 1) : Encoding.Statement (.vfsubVV d a b mk dt ca cb) := by
  refine roundTrip 34#6 decodeMajor22 rfl rfl (f25_26_6 ..) major_22 rfl ?_
  unfold decodeMajor22; rw [f25_0_5, f25_21_5, f25_16_5, f25_11_5, f25_8_3, f25_7_1, f25_6_1, f25_5_1]; rfl
theorem Encoding.vfsubVX (d : BitVec 5) (a : BitVec 5) (b : BitVec 5) (mk : BitVec 3) (dt : BitVec 1) (ca : BitVec 1) : Encoding.Statement (.vfsubVX d a b mk dt ca) := by
  refine roundTrip 35#6 decodeMajor23 rfl rfl (f26_26_6 ..) major_23 rfl ?_
  unfold decodeMajor23; rw [f26_0_5, f26_5_1, f26_21_5, f26_16_5, f26_11_5, f26_8_3, f26_7_1, f26_6_1]; rfl
theorem Encoding.vfmulVV (d : BitVec 5) (a : BitVec 5) (b : BitVec 5) (mk : BitVec 3) (dt : BitVec 1) (ca : BitVec 1) (cb : BitVec 1) : Encoding.Statement (.vfmulVV d a b mk dt ca cb) := by
  refine roundTrip 34#6 decodeMajor22 rfl rfl (f25_26_6 ..) major_22 rfl ?_
  unfold decodeMajor22; rw [f25_0_5, f25_21_5, f25_16_5, f25_11_5, f25_8_3, f25_7_1, f25_6_1, f25_5_1]; rfl
theorem Encoding.vfmulVX (d : BitVec 5) (a : BitVec 5) (b : BitVec 5) (mk : BitVec 3) (dt : BitVec 1) (ca : BitVec 1) : Encoding.Statement (.vfmulVX d a b mk dt ca) := by
  refine roundTrip 35#6 decodeMajor23 rfl rfl (f26_26_6 ..) major_23 rfl ?_
  unfold decodeMajor23; rw [f26_0_5, f26_5_1, f26_21_5, f26_16_5, f26_11_5, f26_8_3, f26_7_1, f26_6_1]; rfl
theorem Encoding.vfmaVV (d : BitVec 5) (a : BitVec 5) (b : BitVec 5) (mk : BitVec 3) (dt : BitVec 1) (ca : BitVec 1) (cb : BitVec 1) : Encoding.Statement (.vfmaVV d a b mk dt ca cb) := by
  refine roundTrip 34#6 decodeMajor22 rfl rfl (f25_26_6 ..) major_22 rfl ?_
  unfold decodeMajor22; rw [f25_0_5, f25_21_5, f25_16_5, f25_11_5, f25_8_3, f25_7_1, f25_6_1, f25_5_1]; rfl
theorem Encoding.vfmaVX (d : BitVec 5) (a : BitVec 5) (b : BitVec 5) (mk : BitVec 3) (dt : BitVec 1) (ca : BitVec 1) : Encoding.Statement (.vfmaVX d a b mk dt ca) := by
  refine roundTrip 35#6 decodeMajor23 rfl rfl (f26_26_6 ..) major_23 rfl ?_
  unfold decodeMajor23; rw [f26_0_5, f26_5_1, f26_21_5, f26_16_5, f26_11_5, f26_8_3, f26_7_1, f26_6_1]; rfl
theorem Encoding.vfdivVV (d : BitVec 5) (a : BitVec 5) (b : BitVec 5) (mk : BitVec 3) (dt : BitVec 1) (ca : BitVec 1) (cb : BitVec 1) : Encoding.Statement (.vfdivVV d a b mk dt ca cb) := by
  refine roundTrip 34#6 decodeMajor22 rfl rfl (f25_26_6 ..) major_22 rfl ?_
  unfold decodeMajor22; rw [f25_0_5, f25_21_5, f25_16_5, f25_11_5, f25_8_3, f25_7_1, f25_6_1, f25_5_1]; rfl
theorem Encoding.vfdivVX (d : BitVec 5) (a : BitVec 5) (b : BitVec 5) (mk : BitVec 3) (dt : BitVec 1) (ca : BitVec 1) : Encoding.Statement (.vfdivVX d a b mk dt ca) := by
  refine roundTrip 35#6 decodeMajor23 rfl rfl (f26_26_6 ..) major_23 rfl ?_
  unfold decodeMajor23; rw [f26_0_5, f26_5_1, f26_21_5, f26_16_5, f26_11_5, f26_8_3, f26_7_1, f26_6_1]; rfl
theorem Encoding.vfsqrt (d : BitVec 5) (a : BitVec 5) (mk : BitVec 3) (dt : BitVec 1) (ca : BitVec 1) : Encoding.Statement (.vfsqrt d a mk dt ca) := by
  refine roundTrip 34#6 decodeMajor22 rfl rfl (f26_26_6 ..) major_22 rfl ?_
  unfold decodeMajor22; rw [f26_0_5, f26_11_5, f26_5_1, f26_21_5, f26_16_5, f26_8_3, f26_7_1, f26_6_1]; rfl
theorem Encoding.vfminVV (d : BitVec 5) (a : BitVec 5) (b : BitVec 5) (mk : BitVec 3) (dt : BitVec 1) (ca : BitVec 1) (cb : BitVec 1) : Encoding.Statement (.vfminVV d a b mk dt ca cb) := by
  refine roundTrip 34#6 decodeMajor22 rfl rfl (f25_26_6 ..) major_22 rfl ?_
  unfold decodeMajor22; rw [f25_0_5, f25_21_5, f25_16_5, f25_11_5, f25_8_3, f25_7_1, f25_6_1, f25_5_1]; rfl
theorem Encoding.vfminVX (d : BitVec 5) (a : BitVec 5) (b : BitVec 5) (mk : BitVec 3) (dt : BitVec 1) (ca : BitVec 1) : Encoding.Statement (.vfminVX d a b mk dt ca) := by
  refine roundTrip 35#6 decodeMajor23 rfl rfl (f26_26_6 ..) major_23 rfl ?_
  unfold decodeMajor23; rw [f26_0_5, f26_5_1, f26_21_5, f26_16_5, f26_11_5, f26_8_3, f26_7_1, f26_6_1]; rfl
theorem Encoding.vfmaxVV (d : BitVec 5) (a : BitVec 5) (b : BitVec 5) (mk : BitVec 3) (dt : BitVec 1) (ca : BitVec 1) (cb : BitVec 1) : Encoding.Statement (.vfmaxVV d a b mk dt ca cb) := by
  refine roundTrip 34#6 decodeMajor22 rfl rfl (f25_26_6 ..) major_22 rfl ?_
  unfold decodeMajor22; rw [f25_0_5, f25_21_5, f25_16_5, f25_11_5, f25_8_3, f25_7_1, f25_6_1, f25_5_1]; rfl
theorem Encoding.vfmaxVX (d : BitVec 5) (a : BitVec 5) (b : BitVec 5) (mk : BitVec 3) (dt : BitVec 1) (ca : BitVec 1) : Encoding.Statement (.vfmaxVX d a b mk dt ca) := by
  refine roundTrip 35#6 decodeMajor23 rfl rfl (f26_26_6 ..) major_23 rfl ?_
  unfold decodeMajor23; rw [f26_0_5, f26_5_1, f26_21_5, f26_16_5, f26_11_5, f26_8_3, f26_7_1, f26_6_1]; rfl
theorem Encoding.vfcmpEqVV (d : BitVec 5) (a : BitVec 5) (b : BitVec 5) (mk : BitVec 3) (dt : BitVec 1) (ca : BitVec 1) (cb : BitVec 1) : Encoding.Statement (.vfcmpEqVV d a b mk dt ca cb) := by
  refine roundTrip 34#6 decodeMajor22 rfl rfl (f25_26_6 ..) major_22 rfl ?_
  unfold decodeMajor22; rw [f25_0_5, f25_21_5, f25_16_5, f25_11_5, f25_8_3, f25_7_1, f25_6_1, f25_5_1]; rfl
theorem Encoding.vfcmpEqVX (d : BitVec 5) (a : BitVec 5) (b : BitVec 5) (mk : BitVec 3) (dt : BitVec 1) (ca : BitVec 1) : Encoding.Statement (.vfcmpEqVX d a b mk dt ca) := by
  refine roundTrip 35#6 decodeMajor23 rfl rfl (f26_26_6 ..) major_23 rfl ?_
  unfold decodeMajor23; rw [f26_0_5, f26_5_1, f26_21_5, f26_16_5, f26_11_5, f26_8_3, f26_7_1, f26_6_1]; rfl
theorem Encoding.vfcmpNeVV (d : BitVec 5) (a : BitVec 5) (b : BitVec 5) (mk : BitVec 3) (dt : BitVec 1) (ca : BitVec 1) (cb : BitVec 1) : Encoding.Statement (.vfcmpNeVV d a b mk dt ca cb) := by
  refine roundTrip 34#6 decodeMajor22 rfl rfl (f25_26_6 ..) major_22 rfl ?_
  unfold decodeMajor22; rw [f25_0_5, f25_21_5, f25_16_5, f25_11_5, f25_8_3, f25_7_1, f25_6_1, f25_5_1]; rfl
theorem Encoding.vfcmpNeVX (d : BitVec 5) (a : BitVec 5) (b : BitVec 5) (mk : BitVec 3) (dt : BitVec 1) (ca : BitVec 1) : Encoding.Statement (.vfcmpNeVX d a b mk dt ca) := by
  refine roundTrip 35#6 decodeMajor23 rfl rfl (f26_26_6 ..) major_23 rfl ?_
  unfold decodeMajor23; rw [f26_0_5, f26_5_1, f26_21_5, f26_16_5, f26_11_5, f26_8_3, f26_7_1, f26_6_1]; rfl
theorem Encoding.vfcmpLtVV (d : BitVec 5) (a : BitVec 5) (b : BitVec 5) (mk : BitVec 3) (dt : BitVec 1) (ca : BitVec 1) (cb : BitVec 1) : Encoding.Statement (.vfcmpLtVV d a b mk dt ca cb) := by
  refine roundTrip 34#6 decodeMajor22 rfl rfl (f25_26_6 ..) major_22 rfl ?_
  unfold decodeMajor22; rw [f25_0_5, f25_21_5, f25_16_5, f25_11_5, f25_8_3, f25_7_1, f25_6_1, f25_5_1]; rfl
theorem Encoding.vfcmpLtVX (d : BitVec 5) (a : BitVec 5) (b : BitVec 5) (mk : BitVec 3) (dt : BitVec 1) (ca : BitVec 1) : Encoding.Statement (.vfcmpLtVX d a b mk dt ca) := by
  refine roundTrip 35#6 decodeMajor23 rfl rfl (f26_26_6 ..) major_23 rfl ?_
  unfold decodeMajor23; rw [f26_0_5, f26_5_1, f26_21_5, f26_16_5, f26_11_5, f26_8_3, f26_7_1, f26_6_1]; rfl
theorem Encoding.vfcmpLeVV (d : BitVec 5) (a : BitVec 5) (b : BitVec 5) (mk : BitVec 3) (dt : BitVec 1) (ca : BitVec 1) (cb : BitVec 1) : Encoding.Statement (.vfcmpLeVV d a b mk dt ca cb) := by
  refine roundTrip 34#6 decodeMajor22 rfl rfl (f25_26_6 ..) major_22 rfl ?_
  unfold decodeMajor22; rw [f25_0_5, f25_21_5, f25_16_5, f25_11_5, f25_8_3, f25_7_1, f25_6_1, f25_5_1]; rfl
theorem Encoding.vfcmpLeVX (d : BitVec 5) (a : BitVec 5) (b : BitVec 5) (mk : BitVec 3) (dt : BitVec 1) (ca : BitVec 1) : Encoding.Statement (.vfcmpLeVX d a b mk dt ca) := by
  refine roundTrip 35#6 decodeMajor23 rfl rfl (f26_26_6 ..) major_23 rfl ?_
  unfold decodeMajor23; rw [f26_0_5, f26_5_1, f26_21_5, f26_16_5, f26_11_5, f26_8_3, f26_7_1, f26_6_1]; rfl
theorem Encoding.vfcmpGtVV (d : BitVec 5) (a : BitVec 5) (b : BitVec 5) (mk : BitVec 3) (dt : BitVec 1) (ca : BitVec 1) (cb : BitVec 1) : Encoding.Statement (.vfcmpGtVV d a b mk dt ca cb) := by
  refine roundTrip 34#6 decodeMajor22 rfl rfl (f25_26_6 ..) major_22 rfl ?_
  unfold decodeMajor22; rw [f25_0_5, f25_21_5, f25_16_5, f25_11_5, f25_8_3, f25_7_1, f25_6_1, f25_5_1]; rfl
theorem Encoding.vfcmpGtVX (d : BitVec 5) (a : BitVec 5) (b : BitVec 5) (mk : BitVec 3) (dt : BitVec 1) (ca : BitVec 1) : Encoding.Statement (.vfcmpGtVX d a b mk dt ca) := by
  refine roundTrip 35#6 decodeMajor23 rfl rfl (f26_26_6 ..) major_23 rfl ?_
  unfold decodeMajor23; rw [f26_0_5, f26_5_1, f26_21_5, f26_16_5, f26_11_5, f26_8_3, f26_7_1, f26_6_1]; rfl
theorem Encoding.vfcmpGeVV (d : BitVec 5) (a : BitVec 5) (b : BitVec 5) (mk : BitVec 3) (dt : BitVec 1) (ca : BitVec 1) (cb : BitVec 1) : Encoding.Statement (.vfcmpGeVV d a b mk dt ca cb) := by
  refine roundTrip 34#6 decodeMajor22 rfl rfl (f25_26_6 ..) major_22 rfl ?_
  unfold decodeMajor22; rw [f25_0_5, f25_21_5, f25_16_5, f25_11_5, f25_8_3, f25_7_1, f25_6_1, f25_5_1]; rfl
theorem Encoding.vfcmpGeVX (d : BitVec 5) (a : BitVec 5) (b : BitVec 5) (mk : BitVec 3) (dt : BitVec 1) (ca : BitVec 1) : Encoding.Statement (.vfcmpGeVX d a b mk dt ca) := by
  refine roundTrip 35#6 decodeMajor23 rfl rfl (f26_26_6 ..) major_23 rfl ?_
  unfold decodeMajor23; rw [f26_0_5, f26_5_1, f26_21_5, f26_16_5, f26_11_5, f26_8_3, f26_7_1, f26_6_1]; rfl
theorem Encoding.vfaddBfVV (d : BitVec 5) (a : BitVec 5) (b : BitVec 5) (mk : BitVec 3) (dt : BitVec 1) (ca : BitVec 1) (cb : BitVec 1) : Encoding.Statement (.vfaddBfVV d a b mk dt ca cb) := by
  refine roundTrip 34#6 decodeMajor22 rfl rfl (f25_26_6 ..) major_22 rfl ?_
  unfold decodeMajor22; rw [f25_0_5, f25_21_5, f25_16_5, f25_11_5, f25_8_3, f25_7_1, f25_6_1, f25_5_1]; rfl
theorem Encoding.vfaddBfVX (d : BitVec 5) (a : BitVec 5) (b : BitVec 5) (mk : BitVec 3) (dt : BitVec 1) (ca : BitVec 1) : Encoding.Statement (.vfaddBfVX d a b mk dt ca) := by
  refine roundTrip 35#6 decodeMajor23 rfl rfl (f26_26_6 ..) major_23 rfl ?_
  unfold decodeMajor23; rw [f26_0_5, f26_5_1, f26_21_5, f26_16_5, f26_11_5, f26_8_3, f26_7_1, f26_6_1]; rfl
theorem Encoding.vfsubBfVV (d : BitVec 5) (a : BitVec 5) (b : BitVec 5) (mk : BitVec 3) (dt : BitVec 1) (ca : BitVec 1) (cb : BitVec 1) : Encoding.Statement (.vfsubBfVV d a b mk dt ca cb) := by
  refine roundTrip 34#6 decodeMajor22 rfl rfl (f25_26_6 ..) major_22 rfl ?_
  unfold decodeMajor22; rw [f25_0_5, f25_21_5, f25_16_5, f25_11_5, f25_8_3, f25_7_1, f25_6_1, f25_5_1]; rfl
theorem Encoding.vfsubBfVX (d : BitVec 5) (a : BitVec 5) (b : BitVec 5) (mk : BitVec 3) (dt : BitVec 1) (ca : BitVec 1) : Encoding.Statement (.vfsubBfVX d a b mk dt ca) := by
  refine roundTrip 35#6 decodeMajor23 rfl rfl (f26_26_6 ..) major_23 rfl ?_
  unfold decodeMajor23; rw [f26_0_5, f26_5_1, f26_21_5, f26_16_5, f26_11_5, f26_8_3, f26_7_1, f26_6_1]; rfl
theorem Encoding.vfmulBfVV (d : BitVec 5) (a : BitVec 5) (b : BitVec 5) (mk : BitVec 3) (dt : BitVec 1) (ca : BitVec 1) (cb : BitVec 1) : Encoding.Statement (.vfmulBfVV d a b mk dt ca cb) := by
  refine roundTrip 34#6 decodeMajor22 rfl rfl (f25_26_6 ..) major_22 rfl ?_
  unfold decodeMajor22; rw [f25_0_5, f25_21_5, f25_16_5, f25_11_5, f25_8_3, f25_7_1, f25_6_1, f25_5_1]; rfl
theorem Encoding.vfmulBfVX (d : BitVec 5) (a : BitVec 5) (b : BitVec 5) (mk : BitVec 3) (dt : BitVec 1) (ca : BitVec 1) : Encoding.Statement (.vfmulBfVX d a b mk dt ca) := by
  refine roundTrip 35#6 decodeMajor23 rfl rfl (f26_26_6 ..) major_23 rfl ?_
  unfold decodeMajor23; rw [f26_0_5, f26_5_1, f26_21_5, f26_16_5, f26_11_5, f26_8_3, f26_7_1, f26_6_1]; rfl
theorem Encoding.vfmaBfVV (d : BitVec 5) (a : BitVec 5) (b : BitVec 5) (mk : BitVec 3) (dt : BitVec 1) (ca : BitVec 1) (cb : BitVec 1) : Encoding.Statement (.vfmaBfVV d a b mk dt ca cb) := by
  refine roundTrip 34#6 decodeMajor22 rfl rfl (f25_26_6 ..) major_22 rfl ?_
  unfold decodeMajor22; rw [f25_0_5, f25_21_5, f25_16_5, f25_11_5, f25_8_3, f25_7_1, f25_6_1, f25_5_1]; rfl
theorem Encoding.vfmaBfVX (d : BitVec 5) (a : BitVec 5) (b : BitVec 5) (mk : BitVec 3) (dt : BitVec 1) (ca : BitVec 1) : Encoding.Statement (.vfmaBfVX d a b mk dt ca) := by
  refine roundTrip 35#6 decodeMajor23 rfl rfl (f26_26_6 ..) major_23 rfl ?_
  unfold decodeMajor23; rw [f26_0_5, f26_5_1, f26_21_5, f26_16_5, f26_11_5, f26_8_3, f26_7_1, f26_6_1]; rfl
theorem Encoding.vfcvt (d : BitVec 5) (a : BitVec 5) (alt : BitVec 1) (frm : BitVec 3) (mk : BitVec 3) (dt : BitVec 1) (ca : BitVec 1) : Encoding.Statement (.vfcvt d a alt frm mk dt ca) := by
  refine roundTrip 34#6 decodeMajor22 rfl rfl (f31_26_6 ..) major_22 rfl ?_
  unfold decodeMajor22; rw [f31_0_5, f31_15_1, f31_5_1, f31_21_5, f31_16_5, f31_14_1, f31_11_3, f31_8_3, f31_7_1, f31_6_1]; rfl
theorem Encoding.vfredo (d : BitVec 5) (a : BitVec 5) (b : BitVec 5) (mk : BitVec 3) (dt : BitVec 1) (ca : BitVec 1) (cb : BitVec 1) : Encoding.Statement (.vfredo d a b mk dt ca cb) := by
  refine roundTrip 34#6 decodeMajor22 rfl rfl (f25_26_6 ..) major_22 rfl ?_
  unfold decodeMajor22; rw [f25_0_5, f25_21_5, f25_16_5, f25_11_5, f25_8_3, f25_7_1, f25_6_1, f25_5_1]; rfl
theorem Encoding.vfredSum (d : BitVec 5) (a : BitVec 5) (b : BitVec 5) (mk : BitVec 3) (dt : BitVec 1) (ca : BitVec 1) (cb : BitVec 1) : Encoding.Statement (.vfredSum d a b mk dt ca cb) := by
  refine roundTrip 34#6 decodeMajor22 rfl rfl (f25_26_6 ..) major_22 rfl ?_
  unfold decodeMajor22; rw [f25_0_5, f25_21_5, f25_16_5, f25_11_5, f25_8_3, f25_7_1, f25_6_1, f25_5_1]; rfl
theorem Encoding.vfredMin (d : BitVec 5) (a : BitVec 5) (b : BitVec 5) (mk : BitVec 3) (dt : BitVec 1) (ca : BitVec 1) (cb : BitVec 1) : Encoding.Statement (.vfredMin d a b mk dt ca cb) := by
  refine roundTrip 34#6 decodeMajor22 rfl rfl (f25_26_6 ..) major_22 rfl ?_
  unfold decodeMajor22; rw [f25_0_5, f25_21_5, f25_16_5, f25_11_5, f25_8_3, f25_7_1, f25_6_1, f25_5_1]; rfl
theorem Encoding.vfredMax (d : BitVec 5) (a : BitVec 5) (b : BitVec 5) (mk : BitVec 3) (dt : BitVec 1) (ca : BitVec 1) (cb : BitVec 1) : Encoding.Statement (.vfredMax d a b mk dt ca cb) := by
  refine roundTrip 34#6 decodeMajor22 rfl rfl (f25_26_6 ..) major_22 rfl ?_
  unfold decodeMajor22; rw [f25_0_5, f25_21_5, f25_16_5, f25_11_5, f25_8_3, f25_7_1, f25_6_1, f25_5_1]; rfl
theorem Encoding.vfpot (d : BitVec 5) (a : BitVec 5) (b : BitVec 5) (mk : BitVec 3) (dt : BitVec 1) (ca : BitVec 1) (cb : BitVec 1) : Encoding.Statement (.vfpot d a b mk dt ca cb) := by
  refine roundTrip 34#6 decodeMajor22 rfl rfl (f25_26_6 ..) major_22 rfl ?_
  unfold decodeMajor22; rw [f25_0_5, f25_21_5, f25_16_5, f25_11_5, f25_8_3, f25_7_1, f25_6_1, f25_5_1]; rfl
theorem Encoding.vmaddVV (d : BitVec 5) (a : BitVec 5) (b : BitVec 5) (mk : BitVec 3) (dt : BitVec 1) (ca : BitVec 1) (cb : BitVec 1) : Encoding.Statement (.vmaddVV d a b mk dt ca cb) := by
  refine roundTrip 36#6 decodeMajor24 rfl rfl (f25_26_6 ..) major_24 rfl ?_
  unfold decodeMajor24; rw [f25_0_5, f25_21_5, f25_16_5, f25_11_5, f25_8_3, f25_7_1, f25_6_1, f25_5_1]; rfl
theorem Encoding.vmsubVV (d : BitVec 5) (a : BitVec 5) (b : BitVec 5) (mk : BitVec 3) (dt : BitVec 1) (ca : BitVec 1) (cb : BitVec 1) : Encoding.Statement (.vmsubVV d a b mk dt ca cb) := by
  refine roundTrip 36#6 decodeMajor24 rfl rfl (f25_26_6 ..) major_24 rfl ?_
  unfold decodeMajor24; rw [f25_0_5, f25_21_5, f25_16_5, f25_11_5, f25_8_3, f25_7_1, f25_6_1, f25_5_1]; rfl
theorem Encoding.vmmulVV (d : BitVec 5) (a : BitVec 5) (b : BitVec 5) (mk : BitVec 3) (dt : BitVec 1) (ca : BitVec 1) (cb : BitVec 1) : Encoding.Statement (.vmmulVV d a b mk dt ca cb) := by
  refine roundTrip 36#6 decodeMajor24 rfl rfl (f25_26_6 ..) major_24 rfl ?_
  unfold decodeMajor24; rw [f25_0_5, f25_21_5, f25_16_5, f25_11_5, f25_8_3, f25_7_1, f25_6_1, f25_5_1]; rfl
theorem Encoding.vmmacVV (d : BitVec 5) (a : BitVec 5) (b : BitVec 5) (mk : BitVec 3) (dt : BitVec 1) (ca : BitVec 1) (cb : BitVec 1) : Encoding.Statement (.vmmacVV d a b mk dt ca cb) := by
  refine roundTrip 36#6 decodeMajor24 rfl rfl (f25_26_6 ..) major_24 rfl ?_
  unfold decodeMajor24; rw [f25_0_5, f25_21_5, f25_16_5, f25_11_5, f25_8_3, f25_7_1, f25_6_1, f25_5_1]; rfl
theorem Encoding.vmaddVX (d : BitVec 5) (a : BitVec 5) (b : BitVec 5) (mk : BitVec 3) (dt : BitVec 1) (ca : BitVec 1) : Encoding.Statement (.vmaddVX d a b mk dt ca) := by
  refine roundTrip 36#6 decodeMajor24 rfl rfl (f26_26_6 ..) major_24 rfl ?_
  unfold decodeMajor24; rw [f26_0_5, f26_5_1, f26_21_5, f26_16_5, f26_11_5, f26_8_3, f26_7_1, f26_6_1]; rfl
theorem Encoding.vmsubVX (d : BitVec 5) (a : BitVec 5) (b : BitVec 5) (mk : BitVec 3) (dt : BitVec 1) (ca : BitVec 1) : Encoding.Statement (.vmsubVX d a b mk dt ca) := by
  refine roundTrip 36#6 decodeMajor24 rfl rfl (f26_26_6 ..) major_24 rfl ?_
  unfold decodeMajor24; rw [f26_0_5, f26_5_1, f26_21_5, f26_16_5, f26_11_5, f26_8_3, f26_7_1, f26_6_1]; rfl
theorem Encoding.vmmulVX (d : BitVec 5) (a : BitVec 5) (b : BitVec 5) (mk : BitVec 3) (dt : BitVec 1) (ca : BitVec 1) : Encoding.Statement (.vmmulVX d a b mk dt ca) := by
  refine roundTrip 36#6 decodeMajor24 rfl rfl (f26_26_6 ..) major_24 rfl ?_
  unfold decodeMajor24; rw [f26_0_5, f26_5_1, f26_21_5, f26_16_5, f26_11_5, f26_8_3, f26_7_1, f26_6_1]; rfl
theorem Encoding.vmmacVX (d : BitVec 5) (a : BitVec 5) (b : BitVec 5) (mk : BitVec 3) (dt : BitVec 1) (ca : BitVec 1) : Encoding.Statement (.vmmacVX d a b mk dt ca) := by
  refine roundTrip 36#6 decodeMajor24 rfl rfl (f26_26_6 ..) major_24 rfl ?_
  unfold decodeMajor24; rw [f26_0_5, f26_5_1, f26_21_5, f26_16_5, f26_11_5, f26_8_3, f26_7_1, f26_6_1]; rfl
theorem Encoding.vbfly (d : BitVec 5) (a : BitVec 5) (b : BitVec 5) (mk : BitVec 3) (dt : BitVec 1) (ca : BitVec 1) (cb : BitVec 1) : Encoding.Statement (.vbfly d a b mk dt ca cb) := by
  refine roundTrip 36#6 decodeMajor24 rfl rfl (f25_26_6 ..) major_24 rfl ?_
  unfold decodeMajor24; rw [f25_0_5, f25_21_5, f25_16_5, f25_11_5, f25_8_3, f25_7_1, f25_6_1, f25_5_1]; rfl
theorem Encoding.vibfly (d : BitVec 5) (a : BitVec 5) (b : BitVec 5) (mk : BitVec 3) (dt : BitVec 1) (ca : BitVec 1) (cb : BitVec 1) : Encoding.Statement (.vibfly d a b mk dt ca cb) := by
  refine roundTrip 36#6 decodeMajor24 rfl rfl (f25_26_6 ..) major_24 rfl ?_
  unfold decodeMajor24; rw [f25_0_5, f25_21_5, f25_16_5, f25_11_5, f25_8_3, f25_7_1, f25_6_1, f25_5_1]; rfl
theorem Encoding.vntt (d : BitVec 5) (a : BitVec 5) (b : BitVec 5) (ca : BitVec 1) : Encoding.Statement (.vntt d a b ca) := by
  refine roundTrip 36#6 decodeMajor24 rfl rfl (f30_26_6 ..) major_24 rfl ?_
  unfold decodeMajor24; rw [f30_0_5, f30_7_4, f30_5_1, f30_21_5, f30_16_5, f30_11_5, f30_6_1]; rfl
theorem Encoding.vintt (d : BitVec 5) (a : BitVec 5) (b : BitVec 5) (ca : BitVec 1) : Encoding.Statement (.vintt d a b ca) := by
  refine roundTrip 36#6 decodeMajor24 rfl rfl (f30_26_6 ..) major_24 rfl ?_
  unfold decodeMajor24; rw [f30_0_5, f30_7_4, f30_5_1, f30_21_5, f30_16_5, f30_11_5, f30_6_1]; rfl
theorem Encoding.vauto (d : BitVec 5) (a : BitVec 5) (b : BitVec 5) (ca : BitVec 1) : Encoding.Statement (.vauto d a b ca) := by
  refine roundTrip 36#6 decodeMajor24 rfl rfl (f30_26_6 ..) major_24 rfl ?_
  unfold decodeMajor24; rw [f30_0_5, f30_7_4, f30_5_1, f30_21_5, f30_16_5, f30_11_5, f30_6_1]; rfl
theorem Encoding.vdigit (d : BitVec 5) (a : BitVec 5) (b : BitVec 5) (mk : BitVec 3) (dt : BitVec 1) (ca : BitVec 1) : Encoding.Statement (.vdigit d a b mk dt ca) := by
  refine roundTrip 36#6 decodeMajor24 rfl rfl (f26_26_6 ..) major_24 rfl ?_
  unfold decodeMajor24; rw [f26_0_5, f26_5_1, f26_21_5, f26_16_5, f26_11_5, f26_8_3, f26_7_1, f26_6_1]; rfl
theorem Encoding.mtld (a : BitVec 5) (h : BitVec 4) : Encoding.Statement (.mtld a h) := by
  refine roundTrip 36#6 decodeMajor24 rfl rfl (f1_26_6 ..) major_24 rfl ?_
  unfold decodeMajor24; rw [f1_0_5, f1_21_5, f1_11_5, f1_5_2, f1_16_5, f1_7_4]; rfl
theorem Encoding.tzero (d : BitVec 5) : Encoding.Statement (.tzero d) := by
  refine roundTrip 37#6 decodeMajor25 rfl rfl (f6_26_6 ..) major_25 rfl ?_
  unfold decodeMajor25; rw [f6_0_7, f6_7_14, f6_21_5]; rfl
theorem Encoding.tld (d : BitVec 5) (a : BitVec 5) (b : BitVec 5) (h : BitVec 4) : Encoding.Statement (.tld d a b h) := by
  refine roundTrip 37#6 decodeMajor25 rfl rfl (f1_26_6 ..) major_25 rfl ?_
  unfold decodeMajor25; rw [f1_0_7, f1_21_5, f1_16_5, f1_11_5, f1_7_4]; rfl
theorem Encoding.tst (d : BitVec 5) (a : BitVec 5) (b : BitVec 5) (h : BitVec 4) : Encoding.Statement (.tst d a b h) := by
  refine roundTrip 37#6 decodeMajor25 rfl rfl (f1_26_6 ..) major_25 rfl ?_
  unfold decodeMajor25; rw [f1_0_7, f1_21_5, f1_16_5, f1_11_5, f1_7_4]; rfl
theorem Encoding.tmma (d : BitVec 5) (a : BitVec 5) (b : BitVec 5) : Encoding.Statement (.tmma d a b) := by
  refine roundTrip 37#6 decodeMajor25 rfl rfl (f0_26_6 ..) major_25 rfl ?_
  unfold decodeMajor25; rw [f0_0_7, f0_7_4, f0_21_5, f0_16_5, f0_11_5]; rfl
theorem Encoding.tmvr (d : BitVec 5) (a : BitVec 5) (b : BitVec 5) : Encoding.Statement (.tmvr d a b) := by
  refine roundTrip 37#6 decodeMajor25 rfl rfl (f0_26_6 ..) major_25 rfl ?_
  unfold decodeMajor25; rw [f0_0_7, f0_7_4, f0_21_5, f0_16_5, f0_11_5]; rfl
theorem Encoding.copy (d : BitVec 5) (a : BitVec 5) (h : BitVec 4) : Encoding.Statement (.copy d a h) := by
  refine roundTrip 38#6 decodeMajor26 rfl rfl (f1_26_6 ..) major_26 rfl ?_
  unfold decodeMajor26; rw [f1_0_7, f1_11_5, f1_21_5, f1_16_5, f1_7_4]; rfl
theorem Encoding.copyn (a : BitVec 5) (h : BitVec 4) : Encoding.Statement (.copyn a h) := by
  refine roundTrip 38#6 decodeMajor26 rfl rfl (f1_26_6 ..) major_26 rfl ?_
  unfold decodeMajor26; rw [f1_0_7, f1_21_5, f1_11_5, f1_16_5, f1_7_4]; rfl
theorem Encoding.epop (d : BitVec 5) (b : BitVec 5) (h : BitVec 4) : Encoding.Statement (.epop d b h) := by
  refine roundTrip 38#6 decodeMajor26 rfl rfl (f1_26_6 ..) major_26 rfl ?_
  unfold decodeMajor26; rw [f1_0_7, f1_16_5, f1_21_5, f1_11_5, f1_7_4]; rfl
theorem Encoding.bar (a : BitVec 5) (sc : BitVec 3) (h : BitVec 4) : Encoding.Statement (.bar a sc h) := by
  refine roundTrip 38#6 decodeMajor26 rfl rfl (f32_26_6 ..) major_26 rfl ?_
  unfold decodeMajor26; rw [f32_0_7, f32_21_5, f32_14_2, f32_16_5, f32_11_3, f32_7_4]; rfl
theorem Encoding.slopen (d : BitVec 5) (h : BitVec 4) : Encoding.Statement (.slopen d h) := by
  refine roundTrip 39#6 decodeMajor27 rfl rfl (f33_26_6 ..) major_27 rfl ?_
  unfold decodeMajor27; rw [f33_0_7, f33_11_10, f33_21_5, f33_7_4]; rfl
theorem Encoding.slsend (a : BitVec 5) (b : BitVec 5) (h : BitVec 4) : Encoding.Statement (.slsend a b h) := by
  refine roundTrip 39#6 decodeMajor27 rfl rfl (f1_26_6 ..) major_27 rfl ?_
  unfold decodeMajor27; rw [f1_0_7, f1_21_5, f1_16_5, f1_11_5, f1_7_4]; rfl
theorem Encoding.slrecv (d : BitVec 5) (a : BitVec 5) (h : BitVec 4) : Encoding.Statement (.slrecv d a h) := by
  refine roundTrip 39#6 decodeMajor27 rfl rfl (f1_26_6 ..) major_27 rfl ?_
  unfold decodeMajor27; rw [f1_0_7, f1_11_5, f1_21_5, f1_16_5, f1_7_4]; rfl
theorem Encoding.slpass (a : BitVec 5) (b : BitVec 5) (h : BitVec 4) : Encoding.Statement (.slpass a b h) := by
  refine roundTrip 39#6 decodeMajor27 rfl rfl (f1_26_6 ..) major_27 rfl ?_
  unfold decodeMajor27; rw [f1_0_7, f1_21_5, f1_16_5, f1_11_5, f1_7_4]; rfl
theorem Encoding.slclose (a : BitVec 5) (h : BitVec 4) : Encoding.Statement (.slclose a h) := by
  refine roundTrip 39#6 decodeMajor27 rfl rfl (f1_26_6 ..) major_27 rfl ?_
  unfold decodeMajor27; rw [f1_0_7, f1_21_5, f1_11_5, f1_16_5, f1_7_4]; rfl
theorem Encoding.slpoll (d : BitVec 5) (a : BitVec 5) (h : BitVec 4) : Encoding.Statement (.slpoll d a h) := by
  refine roundTrip 39#6 decodeMajor27 rfl rfl (f1_26_6 ..) major_27 rfl ?_
  unfold decodeMajor27; rw [f1_0_7, f1_11_5, f1_21_5, f1_16_5, f1_7_4]; rfl
theorem Encoding.rpkey (d : BitVec 5) (a : BitVec 5) (b : BitVec 5) : Encoding.Statement (.rpkey d a b) := by
  refine roundTrip 40#6 decodeMajor28 rfl rfl (f0_26_6 ..) major_28 rfl ?_
  unfold decodeMajor28; rw [f0_0_7, f0_7_4, f0_21_5, f0_16_5, f0_11_5]; rfl
theorem Encoding.rprun (a : BitVec 5) (h : BitVec 4) : Encoding.Statement (.rprun a h) := by
  refine roundTrip 40#6 decodeMajor28 rfl rfl (f1_26_6 ..) major_28 rfl ?_
  unfold decodeMajor28; rw [f1_0_7, f1_21_5, f1_11_5, f1_16_5, f1_7_4]; rfl
theorem Encoding.rpdisp (a : BitVec 5) (h : BitVec 4) : Encoding.Statement (.rpdisp a h) := by
  refine roundTrip 40#6 decodeMajor28 rfl rfl (f1_26_6 ..) major_28 rfl ?_
  unfold decodeMajor28; rw [f1_0_7, f1_21_5, f1_11_5, f1_16_5, f1_7_4]; rfl
theorem Encoding.rpstat (d : BitVec 5) (a : BitVec 5) (h : BitVec 4) : Encoding.Statement (.rpstat d a h) := by
  refine roundTrip 40#6 decodeMajor28 rfl rfl (f1_26_6 ..) major_28 rfl ?_
  unfold decodeMajor28; rw [f1_0_7, f1_11_5, f1_21_5, f1_16_5, f1_7_4]; rfl
theorem Encoding.ctBind (d : BitVec 5) (a : BitVec 5) (b : BitVec 5) : Encoding.Statement (.ctBind d a b) := by
  refine roundTrip 41#6 decodeMajor29 rfl rfl (f0_26_6 ..) major_29 rfl ?_
  unfold decodeMajor29; rw [f0_0_7, f0_5_2, f0_7_4, f0_21_5, f0_16_5, f0_11_5]; rfl
theorem Encoding.ctLd (d : BitVec 5) (a : BitVec 5) : Encoding.Statement (.ctLd d a) := by
  refine roundTrip 41#6 decodeMajor29 rfl rfl (f2_26_6 ..) major_29 rfl ?_
  unfold decodeMajor29; rw [f2_0_7, f2_5_2, f2_7_9, f2_21_5, f2_16_5]; rfl
theorem Encoding.ctSt (d : BitVec 5) (a : BitVec 5) (h : BitVec 4) : Encoding.Statement (.ctSt d a h) := by
  refine roundTrip 41#6 decodeMajor29 rfl rfl (f1_26_6 ..) major_29 rfl ?_
  unfold decodeMajor29; rw [f1_0_7, f1_5_2, f1_11_5, f1_21_5, f1_16_5, f1_7_4]; rfl
theorem Encoding.ctAdd (d : BitVec 5) (a : BitVec 5) (b : BitVec 5) (h : BitVec 4) : Encoding.Statement (.ctAdd d a b h) := by
  refine roundTrip 41#6 decodeMajor29 rfl rfl (f1_26_6 ..) major_29 rfl ?_
  unfold decodeMajor29; rw [f1_0_7, f1_5_2, f1_21_5, f1_16_5, f1_11_5, f1_7_4]; rfl
theorem Encoding.ctSub (d : BitVec 5) (a : BitVec 5) (b : BitVec 5) (h : BitVec 4) : Encoding.Statement (.ctSub d a b h) := by
  refine roundTrip 41#6 decodeMajor29 rfl rfl (f1_26_6 ..) major_29 rfl ?_
  unfold decodeMajor29; rw [f1_0_7, f1_5_2, f1_21_5, f1_16_5, f1_11_5, f1_7_4]; rfl
theorem Encoding.ctNeg (d : BitVec 5) (a : BitVec 5) (h : BitVec 4) : Encoding.Statement (.ctNeg d a h) := by
  refine roundTrip 41#6 decodeMajor29 rfl rfl (f1_26_6 ..) major_29 rfl ?_
  unfold decodeMajor29; rw [f1_0_7, f1_5_2, f1_11_5, f1_21_5, f1_16_5, f1_7_4]; rfl
theorem Encoding.ctMulk (d : BitVec 5) (a : BitVec 5) (b : BitVec 5) (h : BitVec 4) : Encoding.Statement (.ctMulk d a b h) := by
  refine roundTrip 41#6 decodeMajor29 rfl rfl (f1_26_6 ..) major_29 rfl ?_
  unfold decodeMajor29; rw [f1_0_7, f1_5_2, f1_21_5, f1_16_5, f1_11_5, f1_7_4]; rfl
theorem Encoding.ctMulp (d : BitVec 5) (a : BitVec 5) (b : BitVec 5) (h : BitVec 4) : Encoding.Statement (.ctMulp d a b h) := by
  refine roundTrip 41#6 decodeMajor29 rfl rfl (f1_26_6 ..) major_29 rfl ?_
  unfold decodeMajor29; rw [f1_0_7, f1_5_2, f1_21_5, f1_16_5, f1_11_5, f1_7_4]; rfl
theorem Encoding.ctRot (d : BitVec 5) (a : BitVec 5) (b : BitVec 5) (h : BitVec 4) : Encoding.Statement (.ctRot d a b h) := by
  refine roundTrip 41#6 decodeMajor29 rfl rfl (f1_26_6 ..) major_29 rfl ?_
  unfold decodeMajor29; rw [f1_0_7, f1_5_2, f1_21_5, f1_16_5, f1_11_5, f1_7_4]; rfl
theorem Encoding.ctKsw (d : BitVec 5) (a : BitVec 5) (b : BitVec 5) (h : BitVec 4) : Encoding.Statement (.ctKsw d a b h) := by
  refine roundTrip 41#6 decodeMajor29 rfl rfl (f1_26_6 ..) major_29 rfl ?_
  unfold decodeMajor29; rw [f1_0_7, f1_5_2, f1_21_5, f1_16_5, f1_11_5, f1_7_4]; rfl
theorem Encoding.ctModsw (d : BitVec 5) (a : BitVec 5) (b : BitVec 5) (h : BitVec 4) : Encoding.Statement (.ctModsw d a b h) := by
  refine roundTrip 41#6 decodeMajor29 rfl rfl (f1_26_6 ..) major_29 rfl ?_
  unfold decodeMajor29; rw [f1_0_7, f1_5_2, f1_21_5, f1_16_5, f1_11_5, f1_7_4]; rfl
theorem Encoding.ctExtr (d : BitVec 5) (a : BitVec 5) (b : BitVec 5) (h : BitVec 4) : Encoding.Statement (.ctExtr d a b h) := by
  refine roundTrip 41#6 decodeMajor29 rfl rfl (f1_26_6 ..) major_29 rfl ?_
  unfold decodeMajor29; rw [f1_0_7, f1_5_2, f1_21_5, f1_16_5, f1_11_5, f1_7_4]; rfl
theorem Encoding.ctPack (d : BitVec 5) (a : BitVec 5) (b : BitVec 5) (h : BitVec 4) (cnt : BitVec 5) : Encoding.Statement (.ctPack d a b h cnt) := by
  refine roundTrip 41#6 decodeMajor29 rfl rfl (f34_26_6 ..) major_29 rfl ?_
  unfold decodeMajor29; rw [f34_5_2, f34_21_5, f34_16_5, f34_11_5, f34_7_4, f34_0_5]; rfl
theorem Encoding.ctRefresh (d : BitVec 5) (a : BitVec 5) (b : BitVec 5) (h : BitVec 4) (tb : BitVec 3) : Encoding.Statement (.ctRefresh d a b h tb) := by
  refine roundTrip 42#6 decodeMajor2A rfl rfl (f35_26_6 ..) major_2A rfl ?_
  unfold decodeMajor2A; rw [f35_3_4, f35_21_5, f35_16_5, f35_11_5, f35_7_4, f35_0_3]; rfl
theorem Encoding.ctBrinit (d : BitVec 5) (a : BitVec 5) (h : BitVec 4) (tb : BitVec 3) : Encoding.Statement (.ctBrinit d a h tb) := by
  refine roundTrip 42#6 decodeMajor2A rfl rfl (f35_26_6 ..) major_2A rfl ?_
  unfold decodeMajor2A; rw [f35_3_4, f35_21_5, f35_16_5, f35_11_5, f35_7_4, f35_0_3]; rfl
theorem Encoding.ctBrstep (d : BitVec 5) (a : BitVec 5) (b : BitVec 5) (h : BitVec 4) : Encoding.Statement (.ctBrstep d a b h) := by
  refine roundTrip 42#6 decodeMajor2A rfl rfl (f1_26_6 ..) major_2A rfl ?_
  unfold decodeMajor2A; rw [f1_0_7, f1_3_4, f1_21_5, f1_16_5, f1_11_5, f1_7_4]; rfl
theorem Encoding.ctBrfin (d : BitVec 5) (a : BitVec 5) (h : BitVec 4) : Encoding.Statement (.ctBrfin d a h) := by
  refine roundTrip 42#6 decodeMajor2A rfl rfl (f1_26_6 ..) major_2A rfl ?_
  unfold decodeMajor2A; rw [f1_0_7, f1_3_4, f1_11_5, f1_21_5, f1_16_5, f1_7_4]; rfl
theorem Encoding.ctAlw (d : BitVec 5) (a : BitVec 5) : Encoding.Statement (.ctAlw d a) := by
  refine roundTrip 42#6 decodeMajor2A rfl rfl (f2_26_6 ..) major_2A rfl ?_
  unfold decodeMajor2A; rw [f2_0_7, f2_3_4, f2_7_9, f2_21_5, f2_16_5]; rfl
theorem Encoding.ctWin (a : BitVec 5) : Encoding.Statement (.ctWin a) := by
  refine roundTrip 42#6 decodeMajor2A rfl rfl (f2_26_6 ..) major_2A rfl ?_
  unfold decodeMajor2A; rw [f2_0_7, f2_3_4, f2_21_5, f2_7_9, f2_16_5]; rfl
theorem Encoding.tbLd (d : BitVec 5) (a : BitVec 5) (h : BitVec 4) : Encoding.Statement (.tbLd d a h) := by
  refine roundTrip 42#6 decodeMajor2A rfl rfl (f1_26_6 ..) major_2A rfl ?_
  unfold decodeMajor2A; rw [f1_0_7, f1_3_4, f1_11_5, f1_21_5, f1_16_5, f1_7_4]; rfl
theorem Encoding.kyBind (d : BitVec 5) (a : BitVec 5) (h : BitVec 4) : Encoding.Statement (.kyBind d a h) := by
  refine roundTrip 42#6 decodeMajor2A rfl rfl (f1_26_6 ..) major_2A rfl ?_
  unfold decodeMajor2A; rw [f1_0_7, f1_3_4, f1_11_5, f1_21_5, f1_16_5, f1_7_4]; rfl
theorem Encoding.cNop (a : BitVec 5) (b : BitVec 5) : Encoding.Statement (.cNop a b) := compactTrip 0#5 a b rfl rfl (by unfold decodeCompact; rw [cOp, cA, cB]; rfl)
theorem Encoding.cAdd (a : BitVec 5) (b : BitVec 5) : Encoding.Statement (.cAdd a b) := compactTrip 1#5 a b rfl rfl (by unfold decodeCompact; rw [cOp, cA, cB]; rfl)
theorem Encoding.cSub (a : BitVec 5) (b : BitVec 5) : Encoding.Statement (.cSub a b) := compactTrip 2#5 a b rfl rfl (by unfold decodeCompact; rw [cOp, cA, cB]; rfl)
theorem Encoding.cAnd (a : BitVec 5) (b : BitVec 5) : Encoding.Statement (.cAnd a b) := compactTrip 3#5 a b rfl rfl (by unfold decodeCompact; rw [cOp, cA, cB]; rfl)
theorem Encoding.cOr (a : BitVec 5) (b : BitVec 5) : Encoding.Statement (.cOr a b) := compactTrip 4#5 a b rfl rfl (by unfold decodeCompact; rw [cOp, cA, cB]; rfl)
theorem Encoding.cXor (a : BitVec 5) (b : BitVec 5) : Encoding.Statement (.cXor a b) := compactTrip 5#5 a b rfl rfl (by unfold decodeCompact; rw [cOp, cA, cB]; rfl)
theorem Encoding.cShl (a : BitVec 5) (b : BitVec 5) : Encoding.Statement (.cShl a b) := compactTrip 6#5 a b rfl rfl (by unfold decodeCompact; rw [cOp, cA, cB]; rfl)
theorem Encoding.cShr (a : BitVec 5) (b : BitVec 5) : Encoding.Statement (.cShr a b) := compactTrip 7#5 a b rfl rfl (by unfold decodeCompact; rw [cOp, cA, cB]; rfl)
theorem Encoding.cSra (a : BitVec 5) (b : BitVec 5) : Encoding.Statement (.cSra a b) := compactTrip 8#5 a b rfl rfl (by unfold decodeCompact; rw [cOp, cA, cB]; rfl)
theorem Encoding.cSlt (a : BitVec 5) (b : BitVec 5) : Encoding.Statement (.cSlt a b) := compactTrip 9#5 a b rfl rfl (by unfold decodeCompact; rw [cOp, cA, cB]; rfl)
theorem Encoding.cSltu (a : BitVec 5) (b : BitVec 5) : Encoding.Statement (.cSltu a b) := compactTrip 10#5 a b rfl rfl (by unfold decodeCompact; rw [cOp, cA, cB]; rfl)
theorem Encoding.cMin (a : BitVec 5) (b : BitVec 5) : Encoding.Statement (.cMin a b) := compactTrip 11#5 a b rfl rfl (by unfold decodeCompact; rw [cOp, cA, cB]; rfl)
theorem Encoding.cMax (a : BitVec 5) (b : BitVec 5) : Encoding.Statement (.cMax a b) := compactTrip 12#5 a b rfl rfl (by unfold decodeCompact; rw [cOp, cA, cB]; rfl)
theorem Encoding.cMinu (a : BitVec 5) (b : BitVec 5) : Encoding.Statement (.cMinu a b) := compactTrip 13#5 a b rfl rfl (by unfold decodeCompact; rw [cOp, cA, cB]; rfl)
theorem Encoding.cMaxu (a : BitVec 5) (b : BitVec 5) : Encoding.Statement (.cMaxu a b) := compactTrip 14#5 a b rfl rfl (by unfold decodeCompact; rw [cOp, cA, cB]; rfl)
theorem Encoding.cMul (a : BitVec 5) (b : BitVec 5) : Encoding.Statement (.cMul a b) := compactTrip 15#5 a b rfl rfl (by unfold decodeCompact; rw [cOp, cA, cB]; rfl)
theorem Encoding.cAddi (a : BitVec 5) (b : BitVec 5) : Encoding.Statement (.cAddi a b) := compactTrip 16#5 a b rfl rfl (by unfold decodeCompact; rw [cOp, cA, cB]; rfl)
theorem Encoding.cAndi (a : BitVec 5) (b : BitVec 5) : Encoding.Statement (.cAndi a b) := compactTrip 17#5 a b rfl rfl (by unfold decodeCompact; rw [cOp, cA, cB]; rfl)
theorem Encoding.cShli (a : BitVec 5) (b : BitVec 5) : Encoding.Statement (.cShli a b) := compactTrip 18#5 a b rfl rfl (by unfold decodeCompact; rw [cOp, cA, cB]; rfl)
theorem Encoding.cShri (a : BitVec 5) (b : BitVec 5) : Encoding.Statement (.cShri a b) := compactTrip 19#5 a b rfl rfl (by unfold decodeCompact; rw [cOp, cA, cB]; rfl)
theorem Encoding.cSrai (a : BitVec 5) (b : BitVec 5) : Encoding.Statement (.cSrai a b) := compactTrip 20#5 a b rfl rfl (by unfold decodeCompact; rw [cOp, cA, cB]; rfl)
theorem Encoding.cSlti (a : BitVec 5) (b : BitVec 5) : Encoding.Statement (.cSlti a b) := compactTrip 21#5 a b rfl rfl (by unfold decodeCompact; rw [cOp, cA, cB]; rfl)
theorem Encoding.cLdD (a : BitVec 5) (b : BitVec 5) : Encoding.Statement (.cLdD a b) := compactTrip 22#5 a b rfl rfl (by unfold decodeCompact; rw [cOp, cA, cB]; rfl)
theorem Encoding.cLdW (a : BitVec 5) (b : BitVec 5) : Encoding.Statement (.cLdW a b) := compactTrip 23#5 a b rfl rfl (by unfold decodeCompact; rw [cOp, cA, cB]; rfl)
theorem Encoding.cStD (a : BitVec 5) (b : BitVec 5) : Encoding.Statement (.cStD a b) := compactTrip 24#5 a b rfl rfl (by unfold decodeCompact; rw [cOp, cA, cB]; rfl)
theorem Encoding.cStW (a : BitVec 5) (b : BitVec 5) : Encoding.Statement (.cStW a b) := compactTrip 25#5 a b rfl rfl (by unfold decodeCompact; rw [cOp, cA, cB]; rfl)
theorem Encoding.cFaddD (a : BitVec 5) (b : BitVec 5) : Encoding.Statement (.cFaddD a b) := compactTrip 26#5 a b rfl rfl (by unfold decodeCompact; rw [cOp, cA, cB]; rfl)
theorem Encoding.cFsubD (a : BitVec 5) (b : BitVec 5) : Encoding.Statement (.cFsubD a b) := compactTrip 27#5 a b rfl rfl (by unfold decodeCompact; rw [cOp, cA, cB]; rfl)
theorem Encoding.cFmulD (a : BitVec 5) (b : BitVec 5) : Encoding.Statement (.cFmulD a b) := compactTrip 28#5 a b rfl rfl (by unfold decodeCompact; rw [cOp, cA, cB]; rfl)
theorem Encoding.cFmaD (a : BitVec 5) (b : BitVec 5) : Encoding.Statement (.cFmaD a b) := compactTrip 29#5 a b rfl rfl (by unfold decodeCompact; rw [cOp, cA, cB]; rfl)
theorem Encoding.cMulhu (a : BitVec 5) (b : BitVec 5) : Encoding.Statement (.cMulhu a b) := compactTrip 30#5 a b rfl rfl (by unfold decodeCompact; rw [cOp, cA, cB]; rfl)
theorem Encoding.trapTake (hart : Nat) : Encoding.Statement (.trapTake hart) := noWord rfl rfl
theorem Encoding.timer (hart : Nat) : Encoding.Statement (.timer hart) := noWord rfl rfl
theorem Encoding.idleTimeout (hart : Nat) : Encoding.Statement (.idleTimeout hart) := noWord rfl rfl
theorem Encoding.loadDataArrival (op : Nat) : Encoding.Statement (.loadDataArrival op) := noWord rfl rfl
theorem Encoding.storePerformed (op : Nat) : Encoding.Statement (.storePerformed op) := noWord rfl rfl
theorem Encoding.divideComplete (op : Nat) : Encoding.Statement (.divideComplete op) := noWord rfl rfl
theorem Encoding.fdivComplete (op : Nat) : Encoding.Statement (.fdivComplete op) := noWord rfl rfl
theorem Encoding.atomicComplete (op : Nat) : Encoding.Statement (.atomicComplete op) := noWord rfl rfl
theorem Encoding.vectorComplete (op : Nat) : Encoding.Statement (.vectorComplete op) := noWord rfl rfl
theorem Encoding.copyComplete (op : Nat) : Encoding.Statement (.copyComplete op) := noWord rfl rfl
theorem Encoding.engineFault (op : Nat) : Encoding.Statement (.engineFault op) := noWord rfl rfl
theorem Encoding.ctChannelComplete (op : Nat) : Encoding.Statement (.ctChannelComplete op) := noWord rfl rfl
theorem Encoding.refreshWindowExpiry (clus : Nat) : Encoding.Statement (.refreshWindowExpiry clus) := noWord rfl rfl
theorem Encoding.refreshBatchComplete (clus : Nat) : Encoding.Statement (.refreshBatchComplete clus) := noWord rfl rfl
theorem Encoding.sleeveCommandComplete (op : Nat) : Encoding.Statement (.sleeveCommandComplete op) := noWord rfl rfl
theorem Encoding.tailoringComplete (gid : Nat) : Encoding.Statement (.tailoringComplete gid) := noWord rfl rfl
theorem Encoding.tailoringTimeout (gid : Nat) : Encoding.Statement (.tailoringTimeout gid) := noWord rfl rfl
theorem Encoding.peerLost (peer : Nat) : Encoding.Statement (.peerLost peer) := noWord rfl rfl
theorem Encoding.icinvComplete (op : Nat) : Encoding.Statement (.icinvComplete op) := noWord rfl rfl
theorem Encoding.ctxsaveComplete (op : Nat) : Encoding.Statement (.ctxsaveComplete op) := noWord rfl rfl
theorem Encoding.ctxrstComplete (op : Nat) : Encoding.Statement (.ctxrstComplete op) := noWord rfl rfl
theorem Encoding.launchEnqueue (op : Nat) : Encoding.Statement (.launchEnqueue op) := noWord rfl rfl
theorem Encoding.hostLaunchWrite (queue : Nat) (off : Nat) (data : List Byte) : Encoding.Statement (.hostLaunchWrite queue off data) := noWord rfl rfl
theorem Encoding.dispatch (disp : Nat) (place : List Place) : Encoding.Statement (.dispatch disp place) := noWord rfl rfl
theorem Encoding.headPromotion (queue : Nat) : Encoding.Statement (.headPromotion queue) := noWord rfl rfl
theorem Encoding.yieldTimeout (disp : Nat) (victims : List Nat) : Encoding.Statement (.yieldTimeout disp victims) := noWord rfl rfl
theorem Encoding.preemptTimeout (hart : Nat) : Encoding.Statement (.preemptTimeout hart) := noWord rfl rfl
theorem Encoding.resumeParked (disp : Nat) (place : List Place) : Encoding.Statement (.resumeParked disp place) := noWord rfl rfl
theorem Encoding.receiptSign (world : Nat) : Encoding.Statement (.receiptSign world) := noWord rfl rfl
theorem Encoding.powerWindow (current : List Nat) : Encoding.Statement (.powerWindow current) := noWord rfl rfl
theorem Encoding.thrinAssert : Encoding.Statement (.thrinAssert) := noWord rfl rfl
theorem Encoding.pkglim (watts : Nat) : Encoding.Statement (.pkglim watts) := noWord rfl rfl
theorem Encoding.stklim (stack : Nat) (watts : Nat) : Encoding.Statement (.stklim stack watts) := noWord rfl rfl
theorem Encoding.spres (v : Word) : Encoding.Statement (.spres v) := noWord rfl rfl
theorem Encoding.poolmap (v : Word) : Encoding.Statement (.poolmap v) := noWord rfl rfl
theorem Encoding.rgtab (v : Word) : Encoding.Statement (.rgtab v) := noWord rfl rfl
theorem Encoding.rgkey (v : Word) : Encoding.Statement (.rgkey v) := noWord rfl rfl
theorem Encoding.rgkeyComplete (world : Nat) : Encoding.Statement (.rgkeyComplete world) := noWord rfl rfl
theorem Encoding.tlbinv (v : Word) : Encoding.Statement (.tlbinv v) := noWord rfl rfl
theorem Encoding.tlbinvComplete (world : Nat) : Encoding.Statement (.tlbinvComplete world) := noWord rfl rfl
theorem Encoding.ldest (v : Word) : Encoding.Statement (.ldest v) := noWord rfl rfl
theorem Encoding.fcsr (v : Word) : Encoding.Statement (.fcsr v) := noWord rfl rfl
theorem Encoding.alpol (v : Word) : Encoding.Statement (.alpol v) := noWord rfl rfl
theorem Encoding.registerWrite (csr : BitVec 12) (v : Word) : Encoding.Statement (.registerWrite csr v) := noWord rfl rfl
theorem Encoding.obctl (world : Nat) (v : Word) : Encoding.Statement (.obctl world v) := noWord rfl rfl
theorem Encoding.obbuf (world : Nat) (v : Word) : Encoding.Statement (.obbuf world v) := noWord rfl rfl
theorem Encoding.obtail (world : Nat) (v : Word) : Encoding.Statement (.obtail world v) := noWord rfl rfl
theorem Encoding.rcreq (world : Nat) (v : Word) : Encoding.Statement (.rcreq world v) := noWord rfl rfl
theorem Encoding.profileEntry (world : Nat) (entry : Nat) (off : Nat) (v : Word) : Encoding.Statement (.profileEntry world entry off v) := noWord rfl rfl
theorem Encoding.qstat (queue : Nat) (v : Word) : Encoding.Statement (.qstat queue v) := noWord rfl rfl
theorem Encoding.bccfg (chan : Nat) (v : Word) : Encoding.Statement (.bccfg chan v) := noWord rfl rfl
theorem Encoding.bcstg (chan : Nat) (v : Word) : Encoding.Statement (.bcstg chan v) := noWord rfl rfl
theorem Encoding.bchc (chan : Nat) (v : Word) : Encoding.Statement (.bchc chan v) := noWord rfl rfl
theorem Encoding.bcresync (chan : Nat) (v : Word) : Encoding.Statement (.bcresync chan v) := noWord rfl rfl
theorem Encoding.bcKeyInstall (chan : Nat) (key : Nat) : Encoding.Statement (.bcKeyInstall chan key) := noWord rfl rfl
theorem Encoding.bcSlot (chan : Nat) (slot : SlotInput) : Encoding.Statement (.bcSlot chan slot) := noWord rfl rfl
theorem Encoding.flitReceive (plane : Nat) (src : Nat) (words : List (BitVec 72)) (last : Bool) : Encoding.Statement (.flitReceive plane src words last) := noWord rfl rfl
theorem Encoding.laneLockLoss (plane : Nat) (slice : Nat) : Encoding.Statement (.laneLockLoss plane slice) := noWord rfl rfl
theorem Encoding.planeControl (plane : Nat) (msg : PlaneMsg) : Encoding.Statement (.planeControl plane msg) := noWord rfl rfl
theorem Encoding.frameArbitration (plane : Nat) (reqs : List PortReq) : Encoding.Statement (.frameArbitration plane reqs) := noWord rfl rfl
theorem Encoding.frameDigest (plane : Nat) (digests : List (BitVec 32)) (parityFail : Bool) : Encoding.Statement (.frameDigest plane digests parityFail) := noWord rfl rfl
theorem Encoding.planeResume (plane : Nat) : Encoding.Statement (.planeResume plane) := noWord rfl rfl
theorem Encoding.wr (src : Nat) (q : WrReq) : Encoding.Statement (.wr src q) := noWord rfl rfl
theorem Encoding.rd (src : Nat) (q : RdReq) : Encoding.Statement (.rd src q) := noWord rfl rfl
theorem Encoding.rdr (src : Nat) (q : RdReply) : Encoding.Statement (.rdr src q) := noWord rfl rfl
theorem Encoding.amo (src : Nat) (q : AmoReq) : Encoding.Statement (.amo src q) := noWord rfl rfl
theorem Encoding.amor (src : Nat) (q : AmoReply) : Encoding.Statement (.amor src q) := noWord rfl rfl
theorem Encoding.wack (src : Nat) (q : WackMsg) : Encoding.Statement (.wack src q) := noWord rfl rfl
theorem Encoding.sli (src : Nat) (q : SleeveItem) : Encoding.Statement (.sli src q) := noWord rfl rfl
theorem Encoding.slc (src : Nat) (q : SleeveCtl) : Encoding.Statement (.slc src q) := noWord rfl rfl
theorem Encoding.tlr (src : Nat) (q : TailorRec) : Encoding.Statement (.tlr src q) := noWord rfl rfl
theorem Encoding.tlc (src : Nat) (q : TailorCtl) : Encoding.Statement (.tlc src q) := noWord rfl rfl
theorem Encoding.barMessage (src : Nat) (q : BarMsg) : Encoding.Statement (.barMessage src q) := noWord rfl rfl
theorem Encoding.clm (src : Nat) (q : ClmReq) : Encoding.Statement (.clm src q) := noWord rfl rfl
theorem Encoding.clmr (src : Nat) (q : ClmReply) : Encoding.Statement (.clmr src q) := noWord rfl rfl
theorem Encoding.ack (src : Nat) (seq : Nat) : Encoding.Statement (.ack src seq) := noWord rfl rfl
theorem Encoding.nak (src : Nat) (seq : Nat) : Encoding.Statement (.nak src seq) := noWord rfl rfl
theorem Encoding.nakCtx (src : Nat) (seq : Nat) : Encoding.Statement (.nakCtx src seq) := noWord rfl rfl
theorem Encoding.ackTimer (peer : Nat) : Encoding.Statement (.ackTimer peer) := noWord rfl rfl
theorem Encoding.gapTimer (peer : Nat) : Encoding.Statement (.gapTimer peer) := noWord rfl rfl
theorem Encoding.resendTimer (peer : Nat) : Encoding.Statement (.resendTimer peer) := noWord rfl rfl
theorem Encoding.atomicRetry (op : Nat) : Encoding.Statement (.atomicRetry op) := noWord rfl rfl
theorem Encoding.deliveryTimeout (op : Nat) : Encoding.Statement (.deliveryTimeout op) := noWord rfl rfl
theorem Encoding.sessionReestablish (offer : SessionOffer) : Encoding.Statement (.sessionReestablish offer) := noWord rfl rfl
theorem Encoding.contactLoss (peer : Nat) : Encoding.Statement (.contactLoss peer) := noWord rfl rfl
theorem Encoding.d2dKeyRenewal : Encoding.Statement (.d2dKeyRenewal) := noWord rfl rfl
theorem Encoding.ideIntegrityFailure (world : Nat) : Encoding.Statement (.ideIntegrityFailure world) := noWord rfl rfl
theorem Encoding.hostRegisterRequest (q : HostReq) : Encoding.Statement (.hostRegisterRequest q) := noWord rfl rfl
theorem Encoding.glitchDetect : Encoding.Statement (.glitchDetect) := noWord rfl rfl
theorem Encoding.debugPortAccess : Encoding.Statement (.debugPortAccess) := noWord rfl rfl
theorem Encoding.eccError (t : EccTarget) (uncorrectable : Bool) : Encoding.Statement (.eccError t uncorrectable) := noWord rfl rfl
theorem Encoding.reset (step : BootStep) : Encoding.Statement (.reset step) := noWord rfl rfl
theorem Encoding.i3cAddressAssignment (addr : Nat) : Encoding.Statement (.i3cAddressAssignment addr) := noWord rfl rfl
theorem Encoding.thrinDeassert : Encoding.Statement (.thrinDeassert) := noWord rfl rfl
theorem Encoding.doeSpdmMessage (m : SpdmMsg) : Encoding.Statement (.doeSpdmMessage m) := noWord rfl rfl
theorem Encoding.cxlMemRequest (q : CxlReq) : Encoding.Statement (.cxlMemRequest q) := noWord rfl rfl
theorem Encoding.sessionKeyUpdate (peer : Nat) : Encoding.Statement (.sessionKeyUpdate peer) := noWord rfl rfl
theorem Encoding.queueBind (q : BindReq) : Encoding.Statement (.queueBind q) := noWord rfl rfl
theorem Encoding.supervisorTaskEnd (queue : Nat) (num : Nat) : Encoding.Statement (.supervisorTaskEnd queue num) := noWord rfl rfl
theorem Encoding.fixedResultLanding (op : Nat) : Encoding.Statement (.fixedResultLanding op) := noWord rfl rfl
theorem Encoding.rpstatComplete (op : Nat) : Encoding.Statement (.rpstatComplete op) := noWord rfl rfl

end Sys2Proof.Laws
end

