-- ==== Sys2Proof/Laws/State.lean ====
section
/-! SUPPORT. One lemma per field and update of the state, the hart and the bank, so that no later proof unfolds a record update. -/
namespace Sys2Proof.Laws
open Sys2Proof.Machine

namespace StateLaws

@[simp] theorem modCur_device (s : State) (f : Hart → Hart) : (s.modCur f).device = s.device := rfl
@[simp] theorem modCur_members (s : State) (f : Hart → Hart) : (s.modCur f).members = s.members := rfl
@[simp] theorem modCur_accepted (s : State) (f : Hart → Hart) : (s.modCur f).accepted = s.accepted := rfl
@[simp] theorem modCur_cur (s : State) (f : Hart → Hart) : (s.modCur f).cur = f s.cur := rfl
@[simp] theorem modCur_others (s : State) (f : Hart → Hart) : (s.modCur f).others = s.others := rfl
@[simp] theorem modCur_ops (s : State) (f : Hart → Hart) : (s.modCur f).ops = s.ops := rfl
@[simp] theorem modCur_farReqs (s : State) (f : Hart → Hart) : (s.modCur f).farReqs = s.farReqs := rfl
@[simp] theorem modCur_mem (s : State) (f : Hart → Hart) : (s.modCur f).mem = s.mem := rfl
@[simp] theorem modCur_worlds (s : State) (f : Hart → Hart) : (s.modCur f).worlds = s.worlds := rfl
@[simp] theorem modCur_sched (s : State) (f : Hart → Hart) : (s.modCur f).sched = s.sched := rfl
@[simp] theorem modCur_batchers (s : State) (f : Hart → Hart) : (s.modCur f).batchers = s.batchers := rfl
@[simp] theorem modCur_episodes (s : State) (f : Hart → Hart) : (s.modCur f).episodes = s.episodes := rfl
@[simp] theorem modCur_fabric (s : State) (f : Hart → Hart) : (s.modCur f).fabric = s.fabric := rfl
@[simp] theorem modCur_sleeves (s : State) (f : Hart → Hart) : (s.modCur f).sleeves = s.sleeves := rfl
@[simp] theorem modCur_groups (s : State) (f : Hart → Hart) : (s.modCur f).groups = s.groups := rfl
@[simp] theorem modCur_bounce (s : State) (f : Hart → Hart) : (s.modCur f).bounce = s.bounce := rfl
@[simp] theorem modCur_hdm (s : State) (f : Hart → Hart) : (s.modCur f).hdm = s.hdm := rfl
@[simp] theorem modCur_reply (s : State) (f : Hart → Hart) : (s.modCur f).reply = s.reply := rfl
@[simp] theorem modCur_thatum (s : State) (f : Hart → Hart) : (s.modCur f).thatum = s.thatum := rfl
@[simp] theorem modCur_board (s : State) (f : Hart → Hart) : (s.modCur f).board = s.board := rfl
@[simp] theorem modCur_inbox (s : State) (f : Hart → Hart) : (s.modCur f).inbox = s.inbox := rfl
@[simp] theorem modCur_agenda (s : State) (f : Hart → Hart) : (s.modCur f).agenda = s.agenda := rfl
@[simp] theorem modCur_nextOp (s : State) (f : Hart → Hart) : (s.modCur f).nextOp = s.nextOp := rfl
@[simp] theorem modCur_issues (s : State) (f : Hart → Hart) : (s.modCur f).issues = s.issues := rfl
@[simp] theorem modCur_free (s : State) (f : Hart → Hart) : (s.modCur f).free = s.free := rfl
@[simp] theorem modCur_clock (s : State) (f : Hart → Hart) : (s.modCur f).clock = s.clock := rfl
@[simp] theorem modCur_turns (s : State) (f : Hart → Hart) : (s.modCur f).turns = s.turns := rfl
@[simp] theorem modWorld_device (s : State) (w : Nat) (f : World → World) : (s.modWorld w f).device = s.device := by unfold State.modWorld; split <;> rfl
@[simp] theorem modWorld_members (s : State) (w : Nat) (f : World → World) : (s.modWorld w f).members = s.members := by unfold State.modWorld; split <;> rfl
@[simp] theorem modWorld_accepted (s : State) (w : Nat) (f : World → World) : (s.modWorld w f).accepted = s.accepted := by unfold State.modWorld; split <;> rfl
@[simp] theorem modWorld_cur (s : State) (w : Nat) (f : World → World) : (s.modWorld w f).cur = s.cur := by unfold State.modWorld; split <;> rfl
@[simp] theorem modWorld_others (s : State) (w : Nat) (f : World → World) : (s.modWorld w f).others = s.others := by unfold State.modWorld; split <;> rfl
@[simp] theorem modWorld_ops (s : State) (w : Nat) (f : World → World) : (s.modWorld w f).ops = s.ops := by unfold State.modWorld; split <;> rfl
@[simp] theorem modWorld_farReqs (s : State) (w : Nat) (f : World → World) : (s.modWorld w f).farReqs = s.farReqs := by unfold State.modWorld; split <;> rfl
@[simp] theorem modWorld_mem (s : State) (w : Nat) (f : World → World) : (s.modWorld w f).mem = s.mem := by unfold State.modWorld; split <;> rfl
@[simp] theorem modWorld_sched (s : State) (w : Nat) (f : World → World) : (s.modWorld w f).sched = s.sched := by unfold State.modWorld; split <;> rfl
@[simp] theorem modWorld_batchers (s : State) (w : Nat) (f : World → World) : (s.modWorld w f).batchers = s.batchers := by unfold State.modWorld; split <;> rfl
@[simp] theorem modWorld_episodes (s : State) (w : Nat) (f : World → World) : (s.modWorld w f).episodes = s.episodes := by unfold State.modWorld; split <;> rfl
@[simp] theorem modWorld_fabric (s : State) (w : Nat) (f : World → World) : (s.modWorld w f).fabric = s.fabric := by unfold State.modWorld; split <;> rfl
@[simp] theorem modWorld_sleeves (s : State) (w : Nat) (f : World → World) : (s.modWorld w f).sleeves = s.sleeves := by unfold State.modWorld; split <;> rfl
@[simp] theorem modWorld_groups (s : State) (w : Nat) (f : World → World) : (s.modWorld w f).groups = s.groups := by unfold State.modWorld; split <;> rfl
@[simp] theorem modWorld_bounce (s : State) (w : Nat) (f : World → World) : (s.modWorld w f).bounce = s.bounce := by unfold State.modWorld; split <;> rfl
@[simp] theorem modWorld_hdm (s : State) (w : Nat) (f : World → World) : (s.modWorld w f).hdm = s.hdm := by unfold State.modWorld; split <;> rfl
@[simp] theorem modWorld_reply (s : State) (w : Nat) (f : World → World) : (s.modWorld w f).reply = s.reply := by unfold State.modWorld; split <;> rfl
@[simp] theorem modWorld_thatum (s : State) (w : Nat) (f : World → World) : (s.modWorld w f).thatum = s.thatum := by unfold State.modWorld; split <;> rfl
@[simp] theorem modWorld_board (s : State) (w : Nat) (f : World → World) : (s.modWorld w f).board = s.board := by unfold State.modWorld; split <;> rfl
@[simp] theorem modWorld_inbox (s : State) (w : Nat) (f : World → World) : (s.modWorld w f).inbox = s.inbox := by unfold State.modWorld; split <;> rfl
@[simp] theorem modWorld_agenda (s : State) (w : Nat) (f : World → World) : (s.modWorld w f).agenda = s.agenda := by unfold State.modWorld; split <;> rfl
@[simp] theorem modWorld_nextOp (s : State) (w : Nat) (f : World → World) : (s.modWorld w f).nextOp = s.nextOp := by unfold State.modWorld; split <;> rfl
@[simp] theorem modWorld_issues (s : State) (w : Nat) (f : World → World) : (s.modWorld w f).issues = s.issues := by unfold State.modWorld; split <;> rfl
@[simp] theorem modWorld_free (s : State) (w : Nat) (f : World → World) : (s.modWorld w f).free = s.free := by unfold State.modWorld; split <;> rfl
@[simp] theorem modWorld_clock (s : State) (w : Nat) (f : World → World) : (s.modWorld w f).clock = s.clock := by unfold State.modWorld; split <;> rfl
@[simp] theorem modWorld_turns (s : State) (w : Nat) (f : World → World) : (s.modWorld w f).turns = s.turns := by unfold State.modWorld; split <;> rfl
@[simp] theorem start_device (s : State) (hk : BitVec 4) (k : OpKind) (acq : Bool) (va : Word) : (s.start hk k acq va).device = s.device := rfl
@[simp] theorem start_members (s : State) (hk : BitVec 4) (k : OpKind) (acq : Bool) (va : Word) : (s.start hk k acq va).members = s.members := rfl
@[simp] theorem start_accepted (s : State) (hk : BitVec 4) (k : OpKind) (acq : Bool) (va : Word) : (s.start hk k acq va).accepted = s.accepted := rfl
@[simp] theorem start_cur (s : State) (hk : BitVec 4) (k : OpKind) (acq : Bool) (va : Word) : (s.start hk k acq va).cur = s.cur := rfl
@[simp] theorem start_others (s : State) (hk : BitVec 4) (k : OpKind) (acq : Bool) (va : Word) : (s.start hk k acq va).others = s.others := rfl
@[simp] theorem start_farReqs (s : State) (hk : BitVec 4) (k : OpKind) (acq : Bool) (va : Word) : (s.start hk k acq va).farReqs = s.farReqs := rfl
@[simp] theorem start_mem (s : State) (hk : BitVec 4) (k : OpKind) (acq : Bool) (va : Word) : (s.start hk k acq va).mem = s.mem := rfl
@[simp] theorem start_worlds (s : State) (hk : BitVec 4) (k : OpKind) (acq : Bool) (va : Word) : (s.start hk k acq va).worlds = s.worlds := rfl
@[simp] theorem start_sched (s : State) (hk : BitVec 4) (k : OpKind) (acq : Bool) (va : Word) : (s.start hk k acq va).sched = s.sched := rfl
@[simp] theorem start_batchers (s : State) (hk : BitVec 4) (k : OpKind) (acq : Bool) (va : Word) : (s.start hk k acq va).batchers = s.batchers := rfl
@[simp] theorem start_episodes (s : State) (hk : BitVec 4) (k : OpKind) (acq : Bool) (va : Word) : (s.start hk k acq va).episodes = s.episodes := rfl
@[simp] theorem start_fabric (s : State) (hk : BitVec 4) (k : OpKind) (acq : Bool) (va : Word) : (s.start hk k acq va).fabric = s.fabric := rfl
@[simp] theorem start_sleeves (s : State) (hk : BitVec 4) (k : OpKind) (acq : Bool) (va : Word) : (s.start hk k acq va).sleeves = s.sleeves := rfl
@[simp] theorem start_groups (s : State) (hk : BitVec 4) (k : OpKind) (acq : Bool) (va : Word) : (s.start hk k acq va).groups = s.groups := rfl
@[simp] theorem start_bounce (s : State) (hk : BitVec 4) (k : OpKind) (acq : Bool) (va : Word) : (s.start hk k acq va).bounce = s.bounce := rfl
@[simp] theorem start_hdm (s : State) (hk : BitVec 4) (k : OpKind) (acq : Bool) (va : Word) : (s.start hk k acq va).hdm = s.hdm := rfl
@[simp] theorem start_reply (s : State) (hk : BitVec 4) (k : OpKind) (acq : Bool) (va : Word) : (s.start hk k acq va).reply = s.reply := rfl
@[simp] theorem start_thatum (s : State) (hk : BitVec 4) (k : OpKind) (acq : Bool) (va : Word) : (s.start hk k acq va).thatum = s.thatum := rfl
@[simp] theorem start_board (s : State) (hk : BitVec 4) (k : OpKind) (acq : Bool) (va : Word) : (s.start hk k acq va).board = s.board := rfl
@[simp] theorem start_inbox (s : State) (hk : BitVec 4) (k : OpKind) (acq : Bool) (va : Word) : (s.start hk k acq va).inbox = s.inbox := rfl
@[simp] theorem start_agenda (s : State) (hk : BitVec 4) (k : OpKind) (acq : Bool) (va : Word) : (s.start hk k acq va).agenda = s.agenda := rfl
@[simp] theorem start_nextOp (s : State) (hk : BitVec 4) (k : OpKind) (acq : Bool) (va : Word) : (s.start hk k acq va).nextOp = s.nextOp + 1 := rfl
@[simp] theorem start_issues (s : State) (hk : BitVec 4) (k : OpKind) (acq : Bool) (va : Word) : (s.start hk k acq va).issues = s.issues := rfl
@[simp] theorem start_free (s : State) (hk : BitVec 4) (k : OpKind) (acq : Bool) (va : Word) : (s.start hk k acq va).free = s.free := rfl
@[simp] theorem start_clock (s : State) (hk : BitVec 4) (k : OpKind) (acq : Bool) (va : Word) : (s.start hk k acq va).clock = s.clock := rfl
@[simp] theorem start_turns (s : State) (hk : BitVec 4) (k : OpKind) (acq : Bool) (va : Word) : (s.start hk k acq va).turns = s.turns := rfl
@[simp] theorem later_device (s : State) (lat : Nat) (d : Dest) (hk : BitVec 4) : (s.later lat d hk).device = s.device := rfl
@[simp] theorem later_members (s : State) (lat : Nat) (d : Dest) (hk : BitVec 4) : (s.later lat d hk).members = s.members := rfl
@[simp] theorem later_accepted (s : State) (lat : Nat) (d : Dest) (hk : BitVec 4) : (s.later lat d hk).accepted = s.accepted := rfl
@[simp] theorem later_others (s : State) (lat : Nat) (d : Dest) (hk : BitVec 4) : (s.later lat d hk).others = s.others := rfl
@[simp] theorem later_ops (s : State) (lat : Nat) (d : Dest) (hk : BitVec 4) : (s.later lat d hk).ops = s.ops := rfl
@[simp] theorem later_farReqs (s : State) (lat : Nat) (d : Dest) (hk : BitVec 4) : (s.later lat d hk).farReqs = s.farReqs := rfl
@[simp] theorem later_mem (s : State) (lat : Nat) (d : Dest) (hk : BitVec 4) : (s.later lat d hk).mem = s.mem := rfl
@[simp] theorem later_worlds (s : State) (lat : Nat) (d : Dest) (hk : BitVec 4) : (s.later lat d hk).worlds = s.worlds := rfl
@[simp] theorem later_sched (s : State) (lat : Nat) (d : Dest) (hk : BitVec 4) : (s.later lat d hk).sched = s.sched := rfl
@[simp] theorem later_batchers (s : State) (lat : Nat) (d : Dest) (hk : BitVec 4) : (s.later lat d hk).batchers = s.batchers := rfl
@[simp] theorem later_episodes (s : State) (lat : Nat) (d : Dest) (hk : BitVec 4) : (s.later lat d hk).episodes = s.episodes := rfl
@[simp] theorem later_fabric (s : State) (lat : Nat) (d : Dest) (hk : BitVec 4) : (s.later lat d hk).fabric = s.fabric := rfl
@[simp] theorem later_sleeves (s : State) (lat : Nat) (d : Dest) (hk : BitVec 4) : (s.later lat d hk).sleeves = s.sleeves := rfl
@[simp] theorem later_groups (s : State) (lat : Nat) (d : Dest) (hk : BitVec 4) : (s.later lat d hk).groups = s.groups := rfl
@[simp] theorem later_bounce (s : State) (lat : Nat) (d : Dest) (hk : BitVec 4) : (s.later lat d hk).bounce = s.bounce := rfl
@[simp] theorem later_hdm (s : State) (lat : Nat) (d : Dest) (hk : BitVec 4) : (s.later lat d hk).hdm = s.hdm := rfl
@[simp] theorem later_reply (s : State) (lat : Nat) (d : Dest) (hk : BitVec 4) : (s.later lat d hk).reply = s.reply := rfl
@[simp] theorem later_thatum (s : State) (lat : Nat) (d : Dest) (hk : BitVec 4) : (s.later lat d hk).thatum = s.thatum := rfl
@[simp] theorem later_board (s : State) (lat : Nat) (d : Dest) (hk : BitVec 4) : (s.later lat d hk).board = s.board := rfl
@[simp] theorem later_inbox (s : State) (lat : Nat) (d : Dest) (hk : BitVec 4) : (s.later lat d hk).inbox = s.inbox := rfl
@[simp] theorem later_agenda (s : State) (lat : Nat) (d : Dest) (hk : BitVec 4) : (s.later lat d hk).agenda = s.agenda := rfl
@[simp] theorem later_nextOp (s : State) (lat : Nat) (d : Dest) (hk : BitVec 4) : (s.later lat d hk).nextOp = s.nextOp := rfl
@[simp] theorem later_issues (s : State) (lat : Nat) (d : Dest) (hk : BitVec 4) : (s.later lat d hk).issues = s.issues := rfl
@[simp] theorem later_free (s : State) (lat : Nat) (d : Dest) (hk : BitVec 4) : (s.later lat d hk).free = s.free := rfl
@[simp] theorem later_clock (s : State) (lat : Nat) (d : Dest) (hk : BitVec 4) : (s.later lat d hk).clock = s.clock := rfl
@[simp] theorem later_turns (s : State) (lat : Nat) (d : Dest) (hk : BitVec 4) : (s.later lat d hk).turns = s.turns := rfl
@[simp] theorem holdOn_device (s : State) (h : Hold) : (s.holdOn h).device = s.device := rfl
@[simp] theorem holdOn_members (s : State) (h : Hold) : (s.holdOn h).members = s.members := rfl
@[simp] theorem holdOn_accepted (s : State) (h : Hold) : (s.holdOn h).accepted = s.accepted := rfl
@[simp] theorem holdOn_others (s : State) (h : Hold) : (s.holdOn h).others = s.others := rfl
@[simp] theorem holdOn_ops (s : State) (h : Hold) : (s.holdOn h).ops = s.ops := rfl
@[simp] theorem holdOn_farReqs (s : State) (h : Hold) : (s.holdOn h).farReqs = s.farReqs := rfl
@[simp] theorem holdOn_mem (s : State) (h : Hold) : (s.holdOn h).mem = s.mem := rfl
@[simp] theorem holdOn_worlds (s : State) (h : Hold) : (s.holdOn h).worlds = s.worlds := rfl
@[simp] theorem holdOn_sched (s : State) (h : Hold) : (s.holdOn h).sched = s.sched := rfl
@[simp] theorem holdOn_batchers (s : State) (h : Hold) : (s.holdOn h).batchers = s.batchers := rfl
@[simp] theorem holdOn_episodes (s : State) (h : Hold) : (s.holdOn h).episodes = s.episodes := rfl
@[simp] theorem holdOn_fabric (s : State) (h : Hold) : (s.holdOn h).fabric = s.fabric := rfl
@[simp] theorem holdOn_sleeves (s : State) (h : Hold) : (s.holdOn h).sleeves = s.sleeves := rfl
@[simp] theorem holdOn_groups (s : State) (h : Hold) : (s.holdOn h).groups = s.groups := rfl
@[simp] theorem holdOn_bounce (s : State) (h : Hold) : (s.holdOn h).bounce = s.bounce := rfl
@[simp] theorem holdOn_hdm (s : State) (h : Hold) : (s.holdOn h).hdm = s.hdm := rfl
@[simp] theorem holdOn_reply (s : State) (h : Hold) : (s.holdOn h).reply = s.reply := rfl
@[simp] theorem holdOn_thatum (s : State) (h : Hold) : (s.holdOn h).thatum = s.thatum := rfl
@[simp] theorem holdOn_board (s : State) (h : Hold) : (s.holdOn h).board = s.board := rfl
@[simp] theorem holdOn_inbox (s : State) (h : Hold) : (s.holdOn h).inbox = s.inbox := rfl
@[simp] theorem holdOn_agenda (s : State) (h : Hold) : (s.holdOn h).agenda = s.agenda := rfl
@[simp] theorem holdOn_nextOp (s : State) (h : Hold) : (s.holdOn h).nextOp = s.nextOp := rfl
@[simp] theorem holdOn_issues (s : State) (h : Hold) : (s.holdOn h).issues = s.issues := rfl
@[simp] theorem holdOn_free (s : State) (h : Hold) : (s.holdOn h).free = s.free := rfl
@[simp] theorem holdOn_clock (s : State) (h : Hold) : (s.holdOn h).clock = s.clock := rfl
@[simp] theorem holdOn_turns (s : State) (h : Hold) : (s.holdOn h).turns = s.turns := rfl
@[simp] theorem retire_device (s : State)  : (s.retire).device = s.device := rfl
@[simp] theorem retire_members (s : State)  : (s.retire).members = s.members := rfl
@[simp] theorem retire_accepted (s : State)  : (s.retire).accepted = s.accepted := rfl
@[simp] theorem retire_others (s : State)  : (s.retire).others = s.others := rfl
@[simp] theorem retire_ops (s : State)  : (s.retire).ops = s.ops := rfl
@[simp] theorem retire_farReqs (s : State)  : (s.retire).farReqs = s.farReqs := rfl
@[simp] theorem retire_mem (s : State)  : (s.retire).mem = s.mem := rfl
@[simp] theorem retire_worlds (s : State)  : (s.retire).worlds = s.worlds := rfl
@[simp] theorem retire_sched (s : State)  : (s.retire).sched = s.sched := rfl
@[simp] theorem retire_batchers (s : State)  : (s.retire).batchers = s.batchers := rfl
@[simp] theorem retire_episodes (s : State)  : (s.retire).episodes = s.episodes := rfl
@[simp] theorem retire_fabric (s : State)  : (s.retire).fabric = s.fabric := rfl
@[simp] theorem retire_sleeves (s : State)  : (s.retire).sleeves = s.sleeves := rfl
@[simp] theorem retire_groups (s : State)  : (s.retire).groups = s.groups := rfl
@[simp] theorem retire_bounce (s : State)  : (s.retire).bounce = s.bounce := rfl
@[simp] theorem retire_hdm (s : State)  : (s.retire).hdm = s.hdm := rfl
@[simp] theorem retire_reply (s : State)  : (s.retire).reply = s.reply := rfl
@[simp] theorem retire_thatum (s : State)  : (s.retire).thatum = s.thatum := rfl
@[simp] theorem retire_board (s : State)  : (s.retire).board = s.board := rfl
@[simp] theorem retire_inbox (s : State)  : (s.retire).inbox = s.inbox := rfl
@[simp] theorem retire_agenda (s : State)  : (s.retire).agenda = s.agenda := rfl
@[simp] theorem retire_nextOp (s : State)  : (s.retire).nextOp = s.nextOp := rfl
@[simp] theorem retire_issues (s : State)  : (s.retire).issues = s.issues := rfl
@[simp] theorem retire_free (s : State)  : (s.retire).free = s.free := rfl
@[simp] theorem retire_clock (s : State)  : (s.retire).clock = s.clock := rfl
@[simp] theorem retire_turns (s : State)  : (s.retire).turns = s.turns := rfl
@[simp] theorem retireJump_device (s : State) (t : Word) (link : Bool) : (s.retireJump t link).device = s.device := rfl
@[simp] theorem retireJump_members (s : State) (t : Word) (link : Bool) : (s.retireJump t link).members = s.members := rfl
@[simp] theorem retireJump_accepted (s : State) (t : Word) (link : Bool) : (s.retireJump t link).accepted = s.accepted := rfl
@[simp] theorem retireJump_others (s : State) (t : Word) (link : Bool) : (s.retireJump t link).others = s.others := rfl
@[simp] theorem retireJump_ops (s : State) (t : Word) (link : Bool) : (s.retireJump t link).ops = s.ops := rfl
@[simp] theorem retireJump_farReqs (s : State) (t : Word) (link : Bool) : (s.retireJump t link).farReqs = s.farReqs := rfl
@[simp] theorem retireJump_mem (s : State) (t : Word) (link : Bool) : (s.retireJump t link).mem = s.mem := rfl
@[simp] theorem retireJump_worlds (s : State) (t : Word) (link : Bool) : (s.retireJump t link).worlds = s.worlds := rfl
@[simp] theorem retireJump_sched (s : State) (t : Word) (link : Bool) : (s.retireJump t link).sched = s.sched := rfl
@[simp] theorem retireJump_batchers (s : State) (t : Word) (link : Bool) : (s.retireJump t link).batchers = s.batchers := rfl
@[simp] theorem retireJump_episodes (s : State) (t : Word) (link : Bool) : (s.retireJump t link).episodes = s.episodes := rfl
@[simp] theorem retireJump_fabric (s : State) (t : Word) (link : Bool) : (s.retireJump t link).fabric = s.fabric := rfl
@[simp] theorem retireJump_sleeves (s : State) (t : Word) (link : Bool) : (s.retireJump t link).sleeves = s.sleeves := rfl
@[simp] theorem retireJump_groups (s : State) (t : Word) (link : Bool) : (s.retireJump t link).groups = s.groups := rfl
@[simp] theorem retireJump_bounce (s : State) (t : Word) (link : Bool) : (s.retireJump t link).bounce = s.bounce := rfl
@[simp] theorem retireJump_hdm (s : State) (t : Word) (link : Bool) : (s.retireJump t link).hdm = s.hdm := rfl
@[simp] theorem retireJump_reply (s : State) (t : Word) (link : Bool) : (s.retireJump t link).reply = s.reply := rfl
@[simp] theorem retireJump_thatum (s : State) (t : Word) (link : Bool) : (s.retireJump t link).thatum = s.thatum := rfl
@[simp] theorem retireJump_board (s : State) (t : Word) (link : Bool) : (s.retireJump t link).board = s.board := rfl
@[simp] theorem retireJump_inbox (s : State) (t : Word) (link : Bool) : (s.retireJump t link).inbox = s.inbox := rfl
@[simp] theorem retireJump_agenda (s : State) (t : Word) (link : Bool) : (s.retireJump t link).agenda = s.agenda := rfl
@[simp] theorem retireJump_nextOp (s : State) (t : Word) (link : Bool) : (s.retireJump t link).nextOp = s.nextOp := rfl
@[simp] theorem retireJump_issues (s : State) (t : Word) (link : Bool) : (s.retireJump t link).issues = s.issues := rfl
@[simp] theorem retireJump_free (s : State) (t : Word) (link : Bool) : (s.retireJump t link).free = s.free := rfl
@[simp] theorem retireJump_clock (s : State) (t : Word) (link : Bool) : (s.retireJump t link).clock = s.clock := rfl
@[simp] theorem retireJump_turns (s : State) (t : Word) (link : Bool) : (s.retireJump t link).turns = s.turns := rfl
@[simp] theorem dropOp_device (s : State) (id : Nat) : (s.dropOp id).device = s.device := rfl
@[simp] theorem dropOp_members (s : State) (id : Nat) : (s.dropOp id).members = s.members := rfl
@[simp] theorem dropOp_accepted (s : State) (id : Nat) : (s.dropOp id).accepted = s.accepted := rfl
@[simp] theorem dropOp_cur (s : State) (id : Nat) : (s.dropOp id).cur = s.cur := rfl
@[simp] theorem dropOp_others (s : State) (id : Nat) : (s.dropOp id).others = s.others := rfl
@[simp] theorem dropOp_farReqs (s : State) (id : Nat) : (s.dropOp id).farReqs = s.farReqs := rfl
@[simp] theorem dropOp_mem (s : State) (id : Nat) : (s.dropOp id).mem = s.mem := rfl
@[simp] theorem dropOp_worlds (s : State) (id : Nat) : (s.dropOp id).worlds = s.worlds := rfl
@[simp] theorem dropOp_sched (s : State) (id : Nat) : (s.dropOp id).sched = s.sched := rfl
@[simp] theorem dropOp_batchers (s : State) (id : Nat) : (s.dropOp id).batchers = s.batchers := rfl
@[simp] theorem dropOp_episodes (s : State) (id : Nat) : (s.dropOp id).episodes = s.episodes := rfl
@[simp] theorem dropOp_fabric (s : State) (id : Nat) : (s.dropOp id).fabric = s.fabric := rfl
@[simp] theorem dropOp_sleeves (s : State) (id : Nat) : (s.dropOp id).sleeves = s.sleeves := rfl
@[simp] theorem dropOp_groups (s : State) (id : Nat) : (s.dropOp id).groups = s.groups := rfl
@[simp] theorem dropOp_bounce (s : State) (id : Nat) : (s.dropOp id).bounce = s.bounce := rfl
@[simp] theorem dropOp_hdm (s : State) (id : Nat) : (s.dropOp id).hdm = s.hdm := rfl
@[simp] theorem dropOp_reply (s : State) (id : Nat) : (s.dropOp id).reply = s.reply := rfl
@[simp] theorem dropOp_thatum (s : State) (id : Nat) : (s.dropOp id).thatum = s.thatum := rfl
@[simp] theorem dropOp_board (s : State) (id : Nat) : (s.dropOp id).board = s.board := rfl
@[simp] theorem dropOp_inbox (s : State) (id : Nat) : (s.dropOp id).inbox = s.inbox := rfl
@[simp] theorem dropOp_agenda (s : State) (id : Nat) : (s.dropOp id).agenda = s.agenda := rfl
@[simp] theorem dropOp_nextOp (s : State) (id : Nat) : (s.dropOp id).nextOp = s.nextOp := rfl
@[simp] theorem dropOp_issues (s : State) (id : Nat) : (s.dropOp id).issues = s.issues := rfl
@[simp] theorem dropOp_free (s : State) (id : Nat) : (s.dropOp id).free = s.free := rfl
@[simp] theorem dropOp_clock (s : State) (id : Nat) : (s.dropOp id).clock = s.clock := rfl
@[simp] theorem dropOp_turns (s : State) (id : Nat) : (s.dropOp id).turns = s.turns := rfl
@[simp] theorem supersede_device (s : State) (core ctx : Nat) (l : Level) (r : BitVec 5) (n : Nat) : (s.supersede core ctx l r n).device = s.device := rfl
@[simp] theorem supersede_members (s : State) (core ctx : Nat) (l : Level) (r : BitVec 5) (n : Nat) : (s.supersede core ctx l r n).members = s.members := rfl
@[simp] theorem supersede_accepted (s : State) (core ctx : Nat) (l : Level) (r : BitVec 5) (n : Nat) : (s.supersede core ctx l r n).accepted = s.accepted := rfl
@[simp] theorem supersede_cur (s : State) (core ctx : Nat) (l : Level) (r : BitVec 5) (n : Nat) : (s.supersede core ctx l r n).cur = s.cur := rfl
@[simp] theorem supersede_others (s : State) (core ctx : Nat) (l : Level) (r : BitVec 5) (n : Nat) : (s.supersede core ctx l r n).others = s.others := rfl
@[simp] theorem supersede_farReqs (s : State) (core ctx : Nat) (l : Level) (r : BitVec 5) (n : Nat) : (s.supersede core ctx l r n).farReqs = s.farReqs := rfl
@[simp] theorem supersede_mem (s : State) (core ctx : Nat) (l : Level) (r : BitVec 5) (n : Nat) : (s.supersede core ctx l r n).mem = s.mem := rfl
@[simp] theorem supersede_worlds (s : State) (core ctx : Nat) (l : Level) (r : BitVec 5) (n : Nat) : (s.supersede core ctx l r n).worlds = s.worlds := rfl
@[simp] theorem supersede_sched (s : State) (core ctx : Nat) (l : Level) (r : BitVec 5) (n : Nat) : (s.supersede core ctx l r n).sched = s.sched := rfl
@[simp] theorem supersede_batchers (s : State) (core ctx : Nat) (l : Level) (r : BitVec 5) (n : Nat) : (s.supersede core ctx l r n).batchers = s.batchers := rfl
@[simp] theorem supersede_episodes (s : State) (core ctx : Nat) (l : Level) (r : BitVec 5) (n : Nat) : (s.supersede core ctx l r n).episodes = s.episodes := rfl
@[simp] theorem supersede_fabric (s : State) (core ctx : Nat) (l : Level) (r : BitVec 5) (n : Nat) : (s.supersede core ctx l r n).fabric = s.fabric := rfl
@[simp] theorem supersede_sleeves (s : State) (core ctx : Nat) (l : Level) (r : BitVec 5) (n : Nat) : (s.supersede core ctx l r n).sleeves = s.sleeves := rfl
@[simp] theorem supersede_groups (s : State) (core ctx : Nat) (l : Level) (r : BitVec 5) (n : Nat) : (s.supersede core ctx l r n).groups = s.groups := rfl
@[simp] theorem supersede_bounce (s : State) (core ctx : Nat) (l : Level) (r : BitVec 5) (n : Nat) : (s.supersede core ctx l r n).bounce = s.bounce := rfl
@[simp] theorem supersede_hdm (s : State) (core ctx : Nat) (l : Level) (r : BitVec 5) (n : Nat) : (s.supersede core ctx l r n).hdm = s.hdm := rfl
@[simp] theorem supersede_reply (s : State) (core ctx : Nat) (l : Level) (r : BitVec 5) (n : Nat) : (s.supersede core ctx l r n).reply = s.reply := rfl
@[simp] theorem supersede_thatum (s : State) (core ctx : Nat) (l : Level) (r : BitVec 5) (n : Nat) : (s.supersede core ctx l r n).thatum = s.thatum := rfl
@[simp] theorem supersede_board (s : State) (core ctx : Nat) (l : Level) (r : BitVec 5) (n : Nat) : (s.supersede core ctx l r n).board = s.board := rfl
@[simp] theorem supersede_inbox (s : State) (core ctx : Nat) (l : Level) (r : BitVec 5) (n : Nat) : (s.supersede core ctx l r n).inbox = s.inbox := rfl
@[simp] theorem supersede_agenda (s : State) (core ctx : Nat) (l : Level) (r : BitVec 5) (n : Nat) : (s.supersede core ctx l r n).agenda = s.agenda := rfl
@[simp] theorem supersede_nextOp (s : State) (core ctx : Nat) (l : Level) (r : BitVec 5) (n : Nat) : (s.supersede core ctx l r n).nextOp = s.nextOp := rfl
@[simp] theorem supersede_issues (s : State) (core ctx : Nat) (l : Level) (r : BitVec 5) (n : Nat) : (s.supersede core ctx l r n).issues = s.issues := rfl
@[simp] theorem supersede_free (s : State) (core ctx : Nat) (l : Level) (r : BitVec 5) (n : Nat) : (s.supersede core ctx l r n).free = s.free := rfl
@[simp] theorem supersede_clock (s : State) (core ctx : Nat) (l : Level) (r : BitVec 5) (n : Nat) : (s.supersede core ctx l r n).clock = s.clock := rfl
@[simp] theorem supersede_turns (s : State) (core ctx : Nat) (l : Level) (r : BitVec 5) (n : Nat) : (s.supersede core ctx l r n).turns = s.turns := rfl
@[simp] theorem writeX_device (s : State) (r : BitVec 5) (v : Word) (p : Bool) : (s.writeX r v p).device = s.device := rfl
@[simp] theorem writeX_members (s : State) (r : BitVec 5) (v : Word) (p : Bool) : (s.writeX r v p).members = s.members := rfl
@[simp] theorem writeX_accepted (s : State) (r : BitVec 5) (v : Word) (p : Bool) : (s.writeX r v p).accepted = s.accepted := rfl
@[simp] theorem writeX_others (s : State) (r : BitVec 5) (v : Word) (p : Bool) : (s.writeX r v p).others = s.others := rfl
@[simp] theorem writeX_farReqs (s : State) (r : BitVec 5) (v : Word) (p : Bool) : (s.writeX r v p).farReqs = s.farReqs := rfl
@[simp] theorem writeX_mem (s : State) (r : BitVec 5) (v : Word) (p : Bool) : (s.writeX r v p).mem = s.mem := rfl
@[simp] theorem writeX_worlds (s : State) (r : BitVec 5) (v : Word) (p : Bool) : (s.writeX r v p).worlds = s.worlds := rfl
@[simp] theorem writeX_sched (s : State) (r : BitVec 5) (v : Word) (p : Bool) : (s.writeX r v p).sched = s.sched := rfl
@[simp] theorem writeX_batchers (s : State) (r : BitVec 5) (v : Word) (p : Bool) : (s.writeX r v p).batchers = s.batchers := rfl
@[simp] theorem writeX_episodes (s : State) (r : BitVec 5) (v : Word) (p : Bool) : (s.writeX r v p).episodes = s.episodes := rfl
@[simp] theorem writeX_fabric (s : State) (r : BitVec 5) (v : Word) (p : Bool) : (s.writeX r v p).fabric = s.fabric := rfl
@[simp] theorem writeX_sleeves (s : State) (r : BitVec 5) (v : Word) (p : Bool) : (s.writeX r v p).sleeves = s.sleeves := rfl
@[simp] theorem writeX_groups (s : State) (r : BitVec 5) (v : Word) (p : Bool) : (s.writeX r v p).groups = s.groups := rfl
@[simp] theorem writeX_bounce (s : State) (r : BitVec 5) (v : Word) (p : Bool) : (s.writeX r v p).bounce = s.bounce := rfl
@[simp] theorem writeX_hdm (s : State) (r : BitVec 5) (v : Word) (p : Bool) : (s.writeX r v p).hdm = s.hdm := rfl
@[simp] theorem writeX_reply (s : State) (r : BitVec 5) (v : Word) (p : Bool) : (s.writeX r v p).reply = s.reply := rfl
@[simp] theorem writeX_thatum (s : State) (r : BitVec 5) (v : Word) (p : Bool) : (s.writeX r v p).thatum = s.thatum := rfl
@[simp] theorem writeX_board (s : State) (r : BitVec 5) (v : Word) (p : Bool) : (s.writeX r v p).board = s.board := rfl
@[simp] theorem writeX_inbox (s : State) (r : BitVec 5) (v : Word) (p : Bool) : (s.writeX r v p).inbox = s.inbox := rfl
@[simp] theorem writeX_agenda (s : State) (r : BitVec 5) (v : Word) (p : Bool) : (s.writeX r v p).agenda = s.agenda := rfl
@[simp] theorem writeX_nextOp (s : State) (r : BitVec 5) (v : Word) (p : Bool) : (s.writeX r v p).nextOp = s.nextOp := rfl
@[simp] theorem writeX_issues (s : State) (r : BitVec 5) (v : Word) (p : Bool) : (s.writeX r v p).issues = s.issues := rfl
@[simp] theorem writeX_free (s : State) (r : BitVec 5) (v : Word) (p : Bool) : (s.writeX r v p).free = s.free := rfl
@[simp] theorem writeX_clock (s : State) (r : BitVec 5) (v : Word) (p : Bool) : (s.writeX r v p).clock = s.clock := rfl
@[simp] theorem writeX_turns (s : State) (r : BitVec 5) (v : Word) (p : Bool) : (s.writeX r v p).turns = s.turns := rfl
@[simp] theorem postNow_device (s : State) (hk : BitVec 4) : (s.postNow hk).device = s.device := rfl
@[simp] theorem postNow_members (s : State) (hk : BitVec 4) : (s.postNow hk).members = s.members := rfl
@[simp] theorem postNow_accepted (s : State) (hk : BitVec 4) : (s.postNow hk).accepted = s.accepted := rfl
@[simp] theorem postNow_others (s : State) (hk : BitVec 4) : (s.postNow hk).others = s.others := rfl
@[simp] theorem postNow_ops (s : State) (hk : BitVec 4) : (s.postNow hk).ops = s.ops := rfl
@[simp] theorem postNow_farReqs (s : State) (hk : BitVec 4) : (s.postNow hk).farReqs = s.farReqs := rfl
@[simp] theorem postNow_mem (s : State) (hk : BitVec 4) : (s.postNow hk).mem = s.mem := rfl
@[simp] theorem postNow_worlds (s : State) (hk : BitVec 4) : (s.postNow hk).worlds = s.worlds := rfl
@[simp] theorem postNow_sched (s : State) (hk : BitVec 4) : (s.postNow hk).sched = s.sched := rfl
@[simp] theorem postNow_batchers (s : State) (hk : BitVec 4) : (s.postNow hk).batchers = s.batchers := rfl
@[simp] theorem postNow_episodes (s : State) (hk : BitVec 4) : (s.postNow hk).episodes = s.episodes := rfl
@[simp] theorem postNow_fabric (s : State) (hk : BitVec 4) : (s.postNow hk).fabric = s.fabric := rfl
@[simp] theorem postNow_sleeves (s : State) (hk : BitVec 4) : (s.postNow hk).sleeves = s.sleeves := rfl
@[simp] theorem postNow_groups (s : State) (hk : BitVec 4) : (s.postNow hk).groups = s.groups := rfl
@[simp] theorem postNow_bounce (s : State) (hk : BitVec 4) : (s.postNow hk).bounce = s.bounce := rfl
@[simp] theorem postNow_hdm (s : State) (hk : BitVec 4) : (s.postNow hk).hdm = s.hdm := rfl
@[simp] theorem postNow_reply (s : State) (hk : BitVec 4) : (s.postNow hk).reply = s.reply := rfl
@[simp] theorem postNow_thatum (s : State) (hk : BitVec 4) : (s.postNow hk).thatum = s.thatum := rfl
@[simp] theorem postNow_board (s : State) (hk : BitVec 4) : (s.postNow hk).board = s.board := rfl
@[simp] theorem postNow_inbox (s : State) (hk : BitVec 4) : (s.postNow hk).inbox = s.inbox := rfl
@[simp] theorem postNow_agenda (s : State) (hk : BitVec 4) : (s.postNow hk).agenda = s.agenda := rfl
@[simp] theorem postNow_nextOp (s : State) (hk : BitVec 4) : (s.postNow hk).nextOp = s.nextOp := rfl
@[simp] theorem postNow_issues (s : State) (hk : BitVec 4) : (s.postNow hk).issues = s.issues := rfl
@[simp] theorem postNow_free (s : State) (hk : BitVec 4) : (s.postNow hk).free = s.free := rfl
@[simp] theorem postNow_clock (s : State) (hk : BitVec 4) : (s.postNow hk).clock = s.clock := rfl
@[simp] theorem postNow_turns (s : State) (hk : BitVec 4) : (s.postNow hk).turns = s.turns := rfl
@[simp] theorem setLdest_device (s : State) (r : BitVec 5) : (s.setLdest r).device = s.device := by unfold State.setLdest; split <;> rfl
@[simp] theorem setLdest_members (s : State) (r : BitVec 5) : (s.setLdest r).members = s.members := by unfold State.setLdest; split <;> rfl
@[simp] theorem setLdest_accepted (s : State) (r : BitVec 5) : (s.setLdest r).accepted = s.accepted := by unfold State.setLdest; split <;> rfl
@[simp] theorem setLdest_others (s : State) (r : BitVec 5) : (s.setLdest r).others = s.others := by unfold State.setLdest; split <;> rfl
@[simp] theorem setLdest_ops (s : State) (r : BitVec 5) : (s.setLdest r).ops = s.ops := by unfold State.setLdest; split <;> rfl
@[simp] theorem setLdest_farReqs (s : State) (r : BitVec 5) : (s.setLdest r).farReqs = s.farReqs := by unfold State.setLdest; split <;> rfl
@[simp] theorem setLdest_mem (s : State) (r : BitVec 5) : (s.setLdest r).mem = s.mem := by unfold State.setLdest; split <;> rfl
@[simp] theorem setLdest_worlds (s : State) (r : BitVec 5) : (s.setLdest r).worlds = s.worlds := by unfold State.setLdest; split <;> rfl
@[simp] theorem setLdest_sched (s : State) (r : BitVec 5) : (s.setLdest r).sched = s.sched := by unfold State.setLdest; split <;> rfl
@[simp] theorem setLdest_batchers (s : State) (r : BitVec 5) : (s.setLdest r).batchers = s.batchers := by unfold State.setLdest; split <;> rfl
@[simp] theorem setLdest_episodes (s : State) (r : BitVec 5) : (s.setLdest r).episodes = s.episodes := by unfold State.setLdest; split <;> rfl
@[simp] theorem setLdest_fabric (s : State) (r : BitVec 5) : (s.setLdest r).fabric = s.fabric := by unfold State.setLdest; split <;> rfl
@[simp] theorem setLdest_sleeves (s : State) (r : BitVec 5) : (s.setLdest r).sleeves = s.sleeves := by unfold State.setLdest; split <;> rfl
@[simp] theorem setLdest_groups (s : State) (r : BitVec 5) : (s.setLdest r).groups = s.groups := by unfold State.setLdest; split <;> rfl
@[simp] theorem setLdest_bounce (s : State) (r : BitVec 5) : (s.setLdest r).bounce = s.bounce := by unfold State.setLdest; split <;> rfl
@[simp] theorem setLdest_hdm (s : State) (r : BitVec 5) : (s.setLdest r).hdm = s.hdm := by unfold State.setLdest; split <;> rfl
@[simp] theorem setLdest_reply (s : State) (r : BitVec 5) : (s.setLdest r).reply = s.reply := by unfold State.setLdest; split <;> rfl
@[simp] theorem setLdest_thatum (s : State) (r : BitVec 5) : (s.setLdest r).thatum = s.thatum := by unfold State.setLdest; split <;> rfl
@[simp] theorem setLdest_board (s : State) (r : BitVec 5) : (s.setLdest r).board = s.board := by unfold State.setLdest; split <;> rfl
@[simp] theorem setLdest_inbox (s : State) (r : BitVec 5) : (s.setLdest r).inbox = s.inbox := by unfold State.setLdest; split <;> rfl
@[simp] theorem setLdest_agenda (s : State) (r : BitVec 5) : (s.setLdest r).agenda = s.agenda := by unfold State.setLdest; split <;> rfl
@[simp] theorem setLdest_nextOp (s : State) (r : BitVec 5) : (s.setLdest r).nextOp = s.nextOp := by unfold State.setLdest; split <;> rfl
@[simp] theorem setLdest_issues (s : State) (r : BitVec 5) : (s.setLdest r).issues = s.issues := by unfold State.setLdest; split <;> rfl
@[simp] theorem setLdest_free (s : State) (r : BitVec 5) : (s.setLdest r).free = s.free := by unfold State.setLdest; split <;> rfl
@[simp] theorem setLdest_clock (s : State) (r : BitVec 5) : (s.setLdest r).clock = s.clock := by unfold State.setLdest; split <;> rfl
@[simp] theorem setLdest_turns (s : State) (r : BitVec 5) : (s.setLdest r).turns = s.turns := by unfold State.setLdest; split <;> rfl
@[simp] theorem laterX_device (s : State) (lat : Nat) (r : BitVec 5) (v : Word) (p : Bool) : (s.laterX lat r v p).device = s.device := by unfold State.laterX; split <;> rfl
@[simp] theorem laterX_members (s : State) (lat : Nat) (r : BitVec 5) (v : Word) (p : Bool) : (s.laterX lat r v p).members = s.members := by unfold State.laterX; split <;> rfl
@[simp] theorem laterX_accepted (s : State) (lat : Nat) (r : BitVec 5) (v : Word) (p : Bool) : (s.laterX lat r v p).accepted = s.accepted := by unfold State.laterX; split <;> rfl
@[simp] theorem laterX_others (s : State) (lat : Nat) (r : BitVec 5) (v : Word) (p : Bool) : (s.laterX lat r v p).others = s.others := by unfold State.laterX; split <;> rfl
@[simp] theorem laterX_ops (s : State) (lat : Nat) (r : BitVec 5) (v : Word) (p : Bool) : (s.laterX lat r v p).ops = s.ops := by unfold State.laterX; split <;> rfl
@[simp] theorem laterX_farReqs (s : State) (lat : Nat) (r : BitVec 5) (v : Word) (p : Bool) : (s.laterX lat r v p).farReqs = s.farReqs := by unfold State.laterX; split <;> rfl
@[simp] theorem laterX_mem (s : State) (lat : Nat) (r : BitVec 5) (v : Word) (p : Bool) : (s.laterX lat r v p).mem = s.mem := by unfold State.laterX; split <;> rfl
@[simp] theorem laterX_worlds (s : State) (lat : Nat) (r : BitVec 5) (v : Word) (p : Bool) : (s.laterX lat r v p).worlds = s.worlds := by unfold State.laterX; split <;> rfl
@[simp] theorem laterX_sched (s : State) (lat : Nat) (r : BitVec 5) (v : Word) (p : Bool) : (s.laterX lat r v p).sched = s.sched := by unfold State.laterX; split <;> rfl
@[simp] theorem laterX_batchers (s : State) (lat : Nat) (r : BitVec 5) (v : Word) (p : Bool) : (s.laterX lat r v p).batchers = s.batchers := by unfold State.laterX; split <;> rfl
@[simp] theorem laterX_episodes (s : State) (lat : Nat) (r : BitVec 5) (v : Word) (p : Bool) : (s.laterX lat r v p).episodes = s.episodes := by unfold State.laterX; split <;> rfl
@[simp] theorem laterX_fabric (s : State) (lat : Nat) (r : BitVec 5) (v : Word) (p : Bool) : (s.laterX lat r v p).fabric = s.fabric := by unfold State.laterX; split <;> rfl
@[simp] theorem laterX_sleeves (s : State) (lat : Nat) (r : BitVec 5) (v : Word) (p : Bool) : (s.laterX lat r v p).sleeves = s.sleeves := by unfold State.laterX; split <;> rfl
@[simp] theorem laterX_groups (s : State) (lat : Nat) (r : BitVec 5) (v : Word) (p : Bool) : (s.laterX lat r v p).groups = s.groups := by unfold State.laterX; split <;> rfl
@[simp] theorem laterX_bounce (s : State) (lat : Nat) (r : BitVec 5) (v : Word) (p : Bool) : (s.laterX lat r v p).bounce = s.bounce := by unfold State.laterX; split <;> rfl
@[simp] theorem laterX_hdm (s : State) (lat : Nat) (r : BitVec 5) (v : Word) (p : Bool) : (s.laterX lat r v p).hdm = s.hdm := by unfold State.laterX; split <;> rfl
@[simp] theorem laterX_reply (s : State) (lat : Nat) (r : BitVec 5) (v : Word) (p : Bool) : (s.laterX lat r v p).reply = s.reply := by unfold State.laterX; split <;> rfl
@[simp] theorem laterX_thatum (s : State) (lat : Nat) (r : BitVec 5) (v : Word) (p : Bool) : (s.laterX lat r v p).thatum = s.thatum := by unfold State.laterX; split <;> rfl
@[simp] theorem laterX_board (s : State) (lat : Nat) (r : BitVec 5) (v : Word) (p : Bool) : (s.laterX lat r v p).board = s.board := by unfold State.laterX; split <;> rfl
@[simp] theorem laterX_inbox (s : State) (lat : Nat) (r : BitVec 5) (v : Word) (p : Bool) : (s.laterX lat r v p).inbox = s.inbox := by unfold State.laterX; split <;> rfl
@[simp] theorem laterX_agenda (s : State) (lat : Nat) (r : BitVec 5) (v : Word) (p : Bool) : (s.laterX lat r v p).agenda = s.agenda := by unfold State.laterX; split <;> rfl
@[simp] theorem laterX_nextOp (s : State) (lat : Nat) (r : BitVec 5) (v : Word) (p : Bool) : (s.laterX lat r v p).nextOp = s.nextOp := by unfold State.laterX; split <;> rfl
@[simp] theorem laterX_issues (s : State) (lat : Nat) (r : BitVec 5) (v : Word) (p : Bool) : (s.laterX lat r v p).issues = s.issues := by unfold State.laterX; split <;> rfl
@[simp] theorem laterX_free (s : State) (lat : Nat) (r : BitVec 5) (v : Word) (p : Bool) : (s.laterX lat r v p).free = s.free := by unfold State.laterX; split <;> rfl
@[simp] theorem laterX_clock (s : State) (lat : Nat) (r : BitVec 5) (v : Word) (p : Bool) : (s.laterX lat r v p).clock = s.clock := by unfold State.laterX; split <;> rfl
@[simp] theorem laterX_turns (s : State) (lat : Nat) (r : BitVec 5) (v : Word) (p : Bool) : (s.laterX lat r v p).turns = s.turns := by unfold State.laterX; split <;> rfl
@[simp] theorem laterFlags_device (s : State) (lat : Nat) (f : Flags) : (s.laterFlags lat f).device = s.device := by unfold State.laterFlags; split <;> rfl
@[simp] theorem laterFlags_members (s : State) (lat : Nat) (f : Flags) : (s.laterFlags lat f).members = s.members := by unfold State.laterFlags; split <;> rfl
@[simp] theorem laterFlags_accepted (s : State) (lat : Nat) (f : Flags) : (s.laterFlags lat f).accepted = s.accepted := by unfold State.laterFlags; split <;> rfl
@[simp] theorem laterFlags_others (s : State) (lat : Nat) (f : Flags) : (s.laterFlags lat f).others = s.others := by unfold State.laterFlags; split <;> rfl
@[simp] theorem laterFlags_ops (s : State) (lat : Nat) (f : Flags) : (s.laterFlags lat f).ops = s.ops := by unfold State.laterFlags; split <;> rfl
@[simp] theorem laterFlags_farReqs (s : State) (lat : Nat) (f : Flags) : (s.laterFlags lat f).farReqs = s.farReqs := by unfold State.laterFlags; split <;> rfl
@[simp] theorem laterFlags_mem (s : State) (lat : Nat) (f : Flags) : (s.laterFlags lat f).mem = s.mem := by unfold State.laterFlags; split <;> rfl
@[simp] theorem laterFlags_worlds (s : State) (lat : Nat) (f : Flags) : (s.laterFlags lat f).worlds = s.worlds := by unfold State.laterFlags; split <;> rfl
@[simp] theorem laterFlags_sched (s : State) (lat : Nat) (f : Flags) : (s.laterFlags lat f).sched = s.sched := by unfold State.laterFlags; split <;> rfl
@[simp] theorem laterFlags_batchers (s : State) (lat : Nat) (f : Flags) : (s.laterFlags lat f).batchers = s.batchers := by unfold State.laterFlags; split <;> rfl
@[simp] theorem laterFlags_episodes (s : State) (lat : Nat) (f : Flags) : (s.laterFlags lat f).episodes = s.episodes := by unfold State.laterFlags; split <;> rfl
@[simp] theorem laterFlags_fabric (s : State) (lat : Nat) (f : Flags) : (s.laterFlags lat f).fabric = s.fabric := by unfold State.laterFlags; split <;> rfl
@[simp] theorem laterFlags_sleeves (s : State) (lat : Nat) (f : Flags) : (s.laterFlags lat f).sleeves = s.sleeves := by unfold State.laterFlags; split <;> rfl
@[simp] theorem laterFlags_groups (s : State) (lat : Nat) (f : Flags) : (s.laterFlags lat f).groups = s.groups := by unfold State.laterFlags; split <;> rfl
@[simp] theorem laterFlags_bounce (s : State) (lat : Nat) (f : Flags) : (s.laterFlags lat f).bounce = s.bounce := by unfold State.laterFlags; split <;> rfl
@[simp] theorem laterFlags_hdm (s : State) (lat : Nat) (f : Flags) : (s.laterFlags lat f).hdm = s.hdm := by unfold State.laterFlags; split <;> rfl
@[simp] theorem laterFlags_reply (s : State) (lat : Nat) (f : Flags) : (s.laterFlags lat f).reply = s.reply := by unfold State.laterFlags; split <;> rfl
@[simp] theorem laterFlags_thatum (s : State) (lat : Nat) (f : Flags) : (s.laterFlags lat f).thatum = s.thatum := by unfold State.laterFlags; split <;> rfl
@[simp] theorem laterFlags_board (s : State) (lat : Nat) (f : Flags) : (s.laterFlags lat f).board = s.board := by unfold State.laterFlags; split <;> rfl
@[simp] theorem laterFlags_inbox (s : State) (lat : Nat) (f : Flags) : (s.laterFlags lat f).inbox = s.inbox := by unfold State.laterFlags; split <;> rfl
@[simp] theorem laterFlags_agenda (s : State) (lat : Nat) (f : Flags) : (s.laterFlags lat f).agenda = s.agenda := by unfold State.laterFlags; split <;> rfl
@[simp] theorem laterFlags_nextOp (s : State) (lat : Nat) (f : Flags) : (s.laterFlags lat f).nextOp = s.nextOp := by unfold State.laterFlags; split <;> rfl
@[simp] theorem laterFlags_issues (s : State) (lat : Nat) (f : Flags) : (s.laterFlags lat f).issues = s.issues := by unfold State.laterFlags; split <;> rfl
@[simp] theorem laterFlags_free (s : State) (lat : Nat) (f : Flags) : (s.laterFlags lat f).free = s.free := by unfold State.laterFlags; split <;> rfl
@[simp] theorem laterFlags_clock (s : State) (lat : Nat) (f : Flags) : (s.laterFlags lat f).clock = s.clock := by unfold State.laterFlags; split <;> rfl
@[simp] theorem laterFlags_turns (s : State) (lat : Nat) (f : Flags) : (s.laterFlags lat f).turns = s.turns := by unfold State.laterFlags; split <;> rfl
@[simp] theorem countPoison_device (s : State) (h : Hart) (n : Nat) : (s.countPoison h n).device = s.device := by unfold State.countPoison; split <;> simp
@[simp] theorem countPoison_members (s : State) (h : Hart) (n : Nat) : (s.countPoison h n).members = s.members := by unfold State.countPoison; split <;> simp
@[simp] theorem countPoison_accepted (s : State) (h : Hart) (n : Nat) : (s.countPoison h n).accepted = s.accepted := by unfold State.countPoison; split <;> simp
@[simp] theorem countPoison_cur (s : State) (h : Hart) (n : Nat) : (s.countPoison h n).cur = s.cur := by unfold State.countPoison; split <;> simp
@[simp] theorem countPoison_others (s : State) (h : Hart) (n : Nat) : (s.countPoison h n).others = s.others := by unfold State.countPoison; split <;> simp
@[simp] theorem countPoison_ops (s : State) (h : Hart) (n : Nat) : (s.countPoison h n).ops = s.ops := by unfold State.countPoison; split <;> simp
@[simp] theorem countPoison_farReqs (s : State) (h : Hart) (n : Nat) : (s.countPoison h n).farReqs = s.farReqs := by unfold State.countPoison; split <;> simp
@[simp] theorem countPoison_mem (s : State) (h : Hart) (n : Nat) : (s.countPoison h n).mem = s.mem := by unfold State.countPoison; split <;> simp
@[simp] theorem countPoison_batchers (s : State) (h : Hart) (n : Nat) : (s.countPoison h n).batchers = s.batchers := by unfold State.countPoison; split <;> simp
@[simp] theorem countPoison_episodes (s : State) (h : Hart) (n : Nat) : (s.countPoison h n).episodes = s.episodes := by unfold State.countPoison; split <;> simp
@[simp] theorem countPoison_fabric (s : State) (h : Hart) (n : Nat) : (s.countPoison h n).fabric = s.fabric := by unfold State.countPoison; split <;> simp
@[simp] theorem countPoison_sleeves (s : State) (h : Hart) (n : Nat) : (s.countPoison h n).sleeves = s.sleeves := by unfold State.countPoison; split <;> simp
@[simp] theorem countPoison_groups (s : State) (h : Hart) (n : Nat) : (s.countPoison h n).groups = s.groups := by unfold State.countPoison; split <;> simp
@[simp] theorem countPoison_bounce (s : State) (h : Hart) (n : Nat) : (s.countPoison h n).bounce = s.bounce := by unfold State.countPoison; split <;> simp
@[simp] theorem countPoison_hdm (s : State) (h : Hart) (n : Nat) : (s.countPoison h n).hdm = s.hdm := by unfold State.countPoison; split <;> simp
@[simp] theorem countPoison_reply (s : State) (h : Hart) (n : Nat) : (s.countPoison h n).reply = s.reply := by unfold State.countPoison; split <;> simp
@[simp] theorem countPoison_thatum (s : State) (h : Hart) (n : Nat) : (s.countPoison h n).thatum = s.thatum := by unfold State.countPoison; split <;> simp
@[simp] theorem countPoison_board (s : State) (h : Hart) (n : Nat) : (s.countPoison h n).board = s.board := by unfold State.countPoison; split <;> simp
@[simp] theorem countPoison_inbox (s : State) (h : Hart) (n : Nat) : (s.countPoison h n).inbox = s.inbox := by unfold State.countPoison; split <;> simp
@[simp] theorem countPoison_agenda (s : State) (h : Hart) (n : Nat) : (s.countPoison h n).agenda = s.agenda := by unfold State.countPoison; split <;> simp
@[simp] theorem countPoison_nextOp (s : State) (h : Hart) (n : Nat) : (s.countPoison h n).nextOp = s.nextOp := by unfold State.countPoison; split <;> simp
@[simp] theorem countPoison_issues (s : State) (h : Hart) (n : Nat) : (s.countPoison h n).issues = s.issues := by unfold State.countPoison; split <;> simp
@[simp] theorem countPoison_free (s : State) (h : Hart) (n : Nat) : (s.countPoison h n).free = s.free := by unfold State.countPoison; split <;> simp
@[simp] theorem countPoison_clock (s : State) (h : Hart) (n : Nat) : (s.countPoison h n).clock = s.clock := by unfold State.countPoison; split <;> simp
@[simp] theorem countPoison_turns (s : State) (h : Hart) (n : Nat) : (s.countPoison h n).turns = s.turns := by unfold State.countPoison; split <;> simp
@[simp] theorem useX_device (s : State) (rs : List (BitVec 5)) : (s.useX rs).device = s.device := by unfold State.useX; split <;> simp
@[simp] theorem useX_members (s : State) (rs : List (BitVec 5)) : (s.useX rs).members = s.members := by unfold State.useX; split <;> simp
@[simp] theorem useX_accepted (s : State) (rs : List (BitVec 5)) : (s.useX rs).accepted = s.accepted := by unfold State.useX; split <;> simp
@[simp] theorem useX_cur (s : State) (rs : List (BitVec 5)) : (s.useX rs).cur = s.cur := by unfold State.useX; split <;> simp
@[simp] theorem useX_others (s : State) (rs : List (BitVec 5)) : (s.useX rs).others = s.others := by unfold State.useX; split <;> simp
@[simp] theorem useX_ops (s : State) (rs : List (BitVec 5)) : (s.useX rs).ops = s.ops := by unfold State.useX; split <;> simp
@[simp] theorem useX_farReqs (s : State) (rs : List (BitVec 5)) : (s.useX rs).farReqs = s.farReqs := by unfold State.useX; split <;> simp
@[simp] theorem useX_mem (s : State) (rs : List (BitVec 5)) : (s.useX rs).mem = s.mem := by unfold State.useX; split <;> simp
@[simp] theorem useX_batchers (s : State) (rs : List (BitVec 5)) : (s.useX rs).batchers = s.batchers := by unfold State.useX; split <;> simp
@[simp] theorem useX_episodes (s : State) (rs : List (BitVec 5)) : (s.useX rs).episodes = s.episodes := by unfold State.useX; split <;> simp
@[simp] theorem useX_fabric (s : State) (rs : List (BitVec 5)) : (s.useX rs).fabric = s.fabric := by unfold State.useX; split <;> simp
@[simp] theorem useX_sleeves (s : State) (rs : List (BitVec 5)) : (s.useX rs).sleeves = s.sleeves := by unfold State.useX; split <;> simp
@[simp] theorem useX_groups (s : State) (rs : List (BitVec 5)) : (s.useX rs).groups = s.groups := by unfold State.useX; split <;> simp
@[simp] theorem useX_bounce (s : State) (rs : List (BitVec 5)) : (s.useX rs).bounce = s.bounce := by unfold State.useX; split <;> simp
@[simp] theorem useX_hdm (s : State) (rs : List (BitVec 5)) : (s.useX rs).hdm = s.hdm := by unfold State.useX; split <;> simp
@[simp] theorem useX_reply (s : State) (rs : List (BitVec 5)) : (s.useX rs).reply = s.reply := by unfold State.useX; split <;> simp
@[simp] theorem useX_thatum (s : State) (rs : List (BitVec 5)) : (s.useX rs).thatum = s.thatum := by unfold State.useX; split <;> simp
@[simp] theorem useX_board (s : State) (rs : List (BitVec 5)) : (s.useX rs).board = s.board := by unfold State.useX; split <;> simp
@[simp] theorem useX_inbox (s : State) (rs : List (BitVec 5)) : (s.useX rs).inbox = s.inbox := by unfold State.useX; split <;> simp
@[simp] theorem useX_agenda (s : State) (rs : List (BitVec 5)) : (s.useX rs).agenda = s.agenda := by unfold State.useX; split <;> simp
@[simp] theorem useX_nextOp (s : State) (rs : List (BitVec 5)) : (s.useX rs).nextOp = s.nextOp := by unfold State.useX; split <;> simp
@[simp] theorem useX_issues (s : State) (rs : List (BitVec 5)) : (s.useX rs).issues = s.issues := by unfold State.useX; split <;> simp
@[simp] theorem useX_free (s : State) (rs : List (BitVec 5)) : (s.useX rs).free = s.free := by unfold State.useX; split <;> simp
@[simp] theorem useX_clock (s : State) (rs : List (BitVec 5)) : (s.useX rs).clock = s.clock := by unfold State.useX; split <;> simp
@[simp] theorem useX_turns (s : State) (rs : List (BitVec 5)) : (s.useX rs).turns = s.turns := by unfold State.useX; split <;> simp
@[simp] theorem setBank_core (h : Hart) (l : Level) (b : Bank) : (h.setBank l b).core = h.core := by cases l <;> rfl
@[simp] theorem setBank_ctx (h : Hart) (l : Level) (b : Bank) : (h.setBank l b).ctx = h.ctx := by cases l <;> rfl
@[simp] theorem setBank_active (h : Hart) (l : Level) (b : Bank) : (h.setBank l b).active = h.active := by cases l <;> rfl
@[simp] theorem setBank_lane0 (h : Hart) (l : Level) (b : Bank) : (h.setBank l b).lane0 = h.lane0 := by cases l <;> rfl
@[simp] theorem setBank_lanes (h : Hart) (l : Level) (b : Bank) : (h.setBank l b).lanes = h.lanes := by cases l <;> rfl
@[simp] theorem setBank_former (h : Hart) (l : Level) (b : Bank) : (h.setBank l b).former = h.former := by cases l <;> rfl
@[simp] theorem setBank_claimed (h : Hart) (l : Level) (b : Bank) : (h.setBank l b).claimed = h.claimed := by cases l <;> rfl
@[simp] theorem setBank_yMark (h : Hart) (l : Level) (b : Bank) : (h.setBank l b).yMark = h.yMark := by cases l <;> rfl
@[simp] theorem setBank_tcmOff (h : Hart) (l : Level) (b : Bank) : (h.setBank l b).tcmOff = h.tcmOff := by cases l <;> rfl
@[simp] theorem setBank_tcmSize (h : Hart) (l : Level) (b : Bank) : (h.setBank l b).tcmSize = h.tcmSize := by cases l <;> rfl
@[simp] theorem setBank_spadOff (h : Hart) (l : Level) (b : Bank) : (h.setBank l b).spadOff = h.spadOff := by cases l <;> rfl
@[simp] theorem setBank_spadSize (h : Hart) (l : Level) (b : Bank) : (h.setBank l b).spadSize = h.spadSize := by cases l <;> rfl
@[simp] theorem setBank_world (h : Hart) (l : Level) (b : Bank) : (h.setBank l b).world = h.world := by cases l <;> rfl
@[simp] theorem setBank_queue (h : Hart) (l : Level) (b : Bank) : (h.setBank l b).queue = h.queue := by cases l <;> rfl
@[simp] theorem setBank_num (h : Hart) (l : Level) (b : Bank) : (h.setBank l b).num = h.num := by cases l <;> rfl
@[simp] theorem setBank_ord (h : Hart) (l : Level) (b : Bank) : (h.setBank l b).ord = h.ord := by cases l <;> rfl
@[simp] theorem setBank_launched (h : Hart) (l : Level) (b : Bank) : (h.setBank l b).launched = h.launched := by cases l <;> rfl
@[simp] theorem setBank_level (h : Hart) (l : Level) (b : Bank) : (h.setBank l b).level = h.level := by cases l <;> rfl
@[simp] theorem setBank_pc (h : Hart) (l : Level) (b : Bank) : (h.setBank l b).pc = h.pc := by cases l <;> rfl
@[simp] theorem setBank_ir (h : Hart) (l : Level) (b : Bank) : (h.setBank l b).ir = h.ir := by cases l <;> rfl
@[simp] theorem setBank_strap (h : Hart) (l : Level) (b : Bank) : (h.setBank l b).strap = h.strap := by cases l <;> rfl
@[simp] theorem setBank_mtrap (h : Hart) (l : Level) (b : Bank) : (h.setBank l b).mtrap = h.mtrap := by cases l <;> rfl
@[simp] theorem setBank_csr (h : Hart) (l : Level) (b : Bank) : (h.setBank l b).csr = h.csr := by cases l <;> rfl
@[simp] theorem setBank_vec (h : Hart) (l : Level) (b : Bank) : (h.setBank l b).vec = h.vec := by cases l <;> rfl
@[simp] theorem setBank_ct (h : Hart) (l : Level) (b : Bank) : (h.setBank l b).ct = h.ct := by cases l <;> rfl
@[simp] theorem setBank_slots (h : Hart) (l : Level) (b : Bank) : (h.setBank l b).slots = h.slots := by cases l <;> rfl
@[simp] theorem setBank_lastIssue (h : Hart) (l : Level) (b : Bank) : (h.setBank l b).lastIssue = h.lastIssue := by cases l <;> rfl
@[simp] theorem setBank_posts (h : Hart) (l : Level) (b : Bank) : (h.setBank l b).posts = h.posts := by cases l <;> rfl
@[simp] theorem setBank_pend (h : Hart) (l : Level) (b : Bank) : (h.setBank l b).pend = h.pend := by cases l <;> rfl
@[simp] theorem setBank_hold (h : Hart) (l : Level) (b : Bank) : (h.setBank l b).hold = h.hold := by cases l <;> rfl
@[simp] theorem setBank_preempt (h : Hart) (l : Level) (b : Bank) : (h.setBank l b).preempt = h.preempt := by cases l <;> rfl
@[simp] theorem setBank_timer (h : Hart) (l : Level) (b : Bank) : (h.setBank l b).timer = h.timer := by cases l <;> rfl
@[simp] theorem setBank_alarm (h : Hart) (l : Level) (b : Bank) : (h.setBank l b).alarm = h.alarm := by cases l <;> rfl
@[simp] theorem setBank_preempted (h : Hart) (l : Level) (b : Bank) : (h.setBank l b).preempted = h.preempted := by cases l <;> rfl
@[simp] theorem setBank_cpFifo (h : Hart) (l : Level) (b : Bank) : (h.setBank l b).cpFifo = h.cpFifo := by cases l <;> rfl
@[simp] theorem setBank_rpFifo (h : Hart) (l : Level) (b : Bank) : (h.setBank l b).rpFifo = h.rpFifo := by cases l <;> rfl
@[simp] theorem setBank_rpOf (h : Hart) (l : Level) (b : Bank) : (h.setBank l b).rpOf = h.rpOf := by cases l <;> rfl
@[simp] theorem setBank_faults (h : Hart) (l : Level) (b : Bank) : (h.setBank l b).faults = h.faults := by cases l <;> rfl
@[simp] theorem setBank_lateAck (h : Hart) (l : Level) (b : Bank) : (h.setBank l b).lateAck = h.lateAck := by cases l <;> rfl
@[simp] theorem setBank_convoy (h : Hart) (l : Level) (b : Bank) : (h.setBank l b).convoy = h.convoy := by cases l <;> rfl
@[simp] theorem setBank_closed (h : Hart) (l : Level) (b : Bank) : (h.setBank l b).closed = h.closed := by cases l <;> rfl
@[simp] theorem setBank_samples (h : Hart) (l : Level) (b : Bank) : (h.setBank l b).samples = h.samples := by cases l <;> rfl
@[simp] theorem setBank_pcsr (h : Hart) (l : Level) (b : Bank) : (h.setBank l b).pcsr = h.pcsr := by cases l <;> rfl
@[simp] theorem modBank_core (h : Hart) (l : Level) (f : Bank → Bank) : (h.modBank l f).core = h.core := by cases l <;> rfl
@[simp] theorem modBank_ctx (h : Hart) (l : Level) (f : Bank → Bank) : (h.modBank l f).ctx = h.ctx := by cases l <;> rfl
@[simp] theorem modBank_active (h : Hart) (l : Level) (f : Bank → Bank) : (h.modBank l f).active = h.active := by cases l <;> rfl
@[simp] theorem modBank_lane0 (h : Hart) (l : Level) (f : Bank → Bank) : (h.modBank l f).lane0 = h.lane0 := by cases l <;> rfl
@[simp] theorem modBank_lanes (h : Hart) (l : Level) (f : Bank → Bank) : (h.modBank l f).lanes = h.lanes := by cases l <;> rfl
@[simp] theorem modBank_former (h : Hart) (l : Level) (f : Bank → Bank) : (h.modBank l f).former = h.former := by cases l <;> rfl
@[simp] theorem modBank_claimed (h : Hart) (l : Level) (f : Bank → Bank) : (h.modBank l f).claimed = h.claimed := by cases l <;> rfl
@[simp] theorem modBank_yMark (h : Hart) (l : Level) (f : Bank → Bank) : (h.modBank l f).yMark = h.yMark := by cases l <;> rfl
@[simp] theorem modBank_tcmOff (h : Hart) (l : Level) (f : Bank → Bank) : (h.modBank l f).tcmOff = h.tcmOff := by cases l <;> rfl
@[simp] theorem modBank_tcmSize (h : Hart) (l : Level) (f : Bank → Bank) : (h.modBank l f).tcmSize = h.tcmSize := by cases l <;> rfl
@[simp] theorem modBank_spadOff (h : Hart) (l : Level) (f : Bank → Bank) : (h.modBank l f).spadOff = h.spadOff := by cases l <;> rfl
@[simp] theorem modBank_spadSize (h : Hart) (l : Level) (f : Bank → Bank) : (h.modBank l f).spadSize = h.spadSize := by cases l <;> rfl
@[simp] theorem modBank_world (h : Hart) (l : Level) (f : Bank → Bank) : (h.modBank l f).world = h.world := by cases l <;> rfl
@[simp] theorem modBank_queue (h : Hart) (l : Level) (f : Bank → Bank) : (h.modBank l f).queue = h.queue := by cases l <;> rfl
@[simp] theorem modBank_num (h : Hart) (l : Level) (f : Bank → Bank) : (h.modBank l f).num = h.num := by cases l <;> rfl
@[simp] theorem modBank_ord (h : Hart) (l : Level) (f : Bank → Bank) : (h.modBank l f).ord = h.ord := by cases l <;> rfl
@[simp] theorem modBank_launched (h : Hart) (l : Level) (f : Bank → Bank) : (h.modBank l f).launched = h.launched := by cases l <;> rfl
@[simp] theorem modBank_level (h : Hart) (l : Level) (f : Bank → Bank) : (h.modBank l f).level = h.level := by cases l <;> rfl
@[simp] theorem modBank_pc (h : Hart) (l : Level) (f : Bank → Bank) : (h.modBank l f).pc = h.pc := by cases l <;> rfl
@[simp] theorem modBank_ir (h : Hart) (l : Level) (f : Bank → Bank) : (h.modBank l f).ir = h.ir := by cases l <;> rfl
@[simp] theorem modBank_strap (h : Hart) (l : Level) (f : Bank → Bank) : (h.modBank l f).strap = h.strap := by cases l <;> rfl
@[simp] theorem modBank_mtrap (h : Hart) (l : Level) (f : Bank → Bank) : (h.modBank l f).mtrap = h.mtrap := by cases l <;> rfl
@[simp] theorem modBank_csr (h : Hart) (l : Level) (f : Bank → Bank) : (h.modBank l f).csr = h.csr := by cases l <;> rfl
@[simp] theorem modBank_vec (h : Hart) (l : Level) (f : Bank → Bank) : (h.modBank l f).vec = h.vec := by cases l <;> rfl
@[simp] theorem modBank_ct (h : Hart) (l : Level) (f : Bank → Bank) : (h.modBank l f).ct = h.ct := by cases l <;> rfl
@[simp] theorem modBank_slots (h : Hart) (l : Level) (f : Bank → Bank) : (h.modBank l f).slots = h.slots := by cases l <;> rfl
@[simp] theorem modBank_lastIssue (h : Hart) (l : Level) (f : Bank → Bank) : (h.modBank l f).lastIssue = h.lastIssue := by cases l <;> rfl
@[simp] theorem modBank_posts (h : Hart) (l : Level) (f : Bank → Bank) : (h.modBank l f).posts = h.posts := by cases l <;> rfl
@[simp] theorem modBank_pend (h : Hart) (l : Level) (f : Bank → Bank) : (h.modBank l f).pend = h.pend := by cases l <;> rfl
@[simp] theorem modBank_hold (h : Hart) (l : Level) (f : Bank → Bank) : (h.modBank l f).hold = h.hold := by cases l <;> rfl
@[simp] theorem modBank_preempt (h : Hart) (l : Level) (f : Bank → Bank) : (h.modBank l f).preempt = h.preempt := by cases l <;> rfl
@[simp] theorem modBank_timer (h : Hart) (l : Level) (f : Bank → Bank) : (h.modBank l f).timer = h.timer := by cases l <;> rfl
@[simp] theorem modBank_alarm (h : Hart) (l : Level) (f : Bank → Bank) : (h.modBank l f).alarm = h.alarm := by cases l <;> rfl
@[simp] theorem modBank_preempted (h : Hart) (l : Level) (f : Bank → Bank) : (h.modBank l f).preempted = h.preempted := by cases l <;> rfl
@[simp] theorem modBank_cpFifo (h : Hart) (l : Level) (f : Bank → Bank) : (h.modBank l f).cpFifo = h.cpFifo := by cases l <;> rfl
@[simp] theorem modBank_rpFifo (h : Hart) (l : Level) (f : Bank → Bank) : (h.modBank l f).rpFifo = h.rpFifo := by cases l <;> rfl
@[simp] theorem modBank_rpOf (h : Hart) (l : Level) (f : Bank → Bank) : (h.modBank l f).rpOf = h.rpOf := by cases l <;> rfl
@[simp] theorem modBank_faults (h : Hart) (l : Level) (f : Bank → Bank) : (h.modBank l f).faults = h.faults := by cases l <;> rfl
@[simp] theorem modBank_lateAck (h : Hart) (l : Level) (f : Bank → Bank) : (h.modBank l f).lateAck = h.lateAck := by cases l <;> rfl
@[simp] theorem modBank_convoy (h : Hart) (l : Level) (f : Bank → Bank) : (h.modBank l f).convoy = h.convoy := by cases l <;> rfl
@[simp] theorem modBank_closed (h : Hart) (l : Level) (f : Bank → Bank) : (h.modBank l f).closed = h.closed := by cases l <;> rfl
@[simp] theorem modBank_samples (h : Hart) (l : Level) (f : Bank → Bank) : (h.modBank l f).samples = h.samples := by cases l <;> rfl
@[simp] theorem modBank_pcsr (h : Hart) (l : Level) (f : Bank → Bank) : (h.modBank l f).pcsr = h.pcsr := by cases l <;> rfl
@[simp] theorem post_core (h : Hart) (l : Level) (r : BitVec 4) : (h.post l r).core = h.core := by unfold Hart.post; split <;> simp
@[simp] theorem post_ctx (h : Hart) (l : Level) (r : BitVec 4) : (h.post l r).ctx = h.ctx := by unfold Hart.post; split <;> simp
@[simp] theorem post_active (h : Hart) (l : Level) (r : BitVec 4) : (h.post l r).active = h.active := by unfold Hart.post; split <;> simp
@[simp] theorem post_lane0 (h : Hart) (l : Level) (r : BitVec 4) : (h.post l r).lane0 = h.lane0 := by unfold Hart.post; split <;> simp
@[simp] theorem post_lanes (h : Hart) (l : Level) (r : BitVec 4) : (h.post l r).lanes = h.lanes := by unfold Hart.post; split <;> simp
@[simp] theorem post_former (h : Hart) (l : Level) (r : BitVec 4) : (h.post l r).former = h.former := by unfold Hart.post; split <;> simp
@[simp] theorem post_claimed (h : Hart) (l : Level) (r : BitVec 4) : (h.post l r).claimed = h.claimed := by unfold Hart.post; split <;> simp
@[simp] theorem post_yMark (h : Hart) (l : Level) (r : BitVec 4) : (h.post l r).yMark = h.yMark := by unfold Hart.post; split <;> simp
@[simp] theorem post_tcmOff (h : Hart) (l : Level) (r : BitVec 4) : (h.post l r).tcmOff = h.tcmOff := by unfold Hart.post; split <;> simp
@[simp] theorem post_tcmSize (h : Hart) (l : Level) (r : BitVec 4) : (h.post l r).tcmSize = h.tcmSize := by unfold Hart.post; split <;> simp
@[simp] theorem post_spadOff (h : Hart) (l : Level) (r : BitVec 4) : (h.post l r).spadOff = h.spadOff := by unfold Hart.post; split <;> simp
@[simp] theorem post_spadSize (h : Hart) (l : Level) (r : BitVec 4) : (h.post l r).spadSize = h.spadSize := by unfold Hart.post; split <;> simp
@[simp] theorem post_world (h : Hart) (l : Level) (r : BitVec 4) : (h.post l r).world = h.world := by unfold Hart.post; split <;> simp
@[simp] theorem post_queue (h : Hart) (l : Level) (r : BitVec 4) : (h.post l r).queue = h.queue := by unfold Hart.post; split <;> simp
@[simp] theorem post_num (h : Hart) (l : Level) (r : BitVec 4) : (h.post l r).num = h.num := by unfold Hart.post; split <;> simp
@[simp] theorem post_ord (h : Hart) (l : Level) (r : BitVec 4) : (h.post l r).ord = h.ord := by unfold Hart.post; split <;> simp
@[simp] theorem post_launched (h : Hart) (l : Level) (r : BitVec 4) : (h.post l r).launched = h.launched := by unfold Hart.post; split <;> simp
@[simp] theorem post_level (h : Hart) (l : Level) (r : BitVec 4) : (h.post l r).level = h.level := by unfold Hart.post; split <;> simp
@[simp] theorem post_pc (h : Hart) (l : Level) (r : BitVec 4) : (h.post l r).pc = h.pc := by unfold Hart.post; split <;> simp
@[simp] theorem post_ir (h : Hart) (l : Level) (r : BitVec 4) : (h.post l r).ir = h.ir := by unfold Hart.post; split <;> simp
@[simp] theorem post_strap (h : Hart) (l : Level) (r : BitVec 4) : (h.post l r).strap = h.strap := by unfold Hart.post; split <;> simp
@[simp] theorem post_mtrap (h : Hart) (l : Level) (r : BitVec 4) : (h.post l r).mtrap = h.mtrap := by unfold Hart.post; split <;> simp
@[simp] theorem post_csr (h : Hart) (l : Level) (r : BitVec 4) : (h.post l r).csr = h.csr := by unfold Hart.post; split <;> simp
@[simp] theorem post_vec (h : Hart) (l : Level) (r : BitVec 4) : (h.post l r).vec = h.vec := by unfold Hart.post; split <;> simp
@[simp] theorem post_ct (h : Hart) (l : Level) (r : BitVec 4) : (h.post l r).ct = h.ct := by unfold Hart.post; split <;> simp
@[simp] theorem post_slots (h : Hart) (l : Level) (r : BitVec 4) : (h.post l r).slots = h.slots := by unfold Hart.post; split <;> simp
@[simp] theorem post_lastIssue (h : Hart) (l : Level) (r : BitVec 4) : (h.post l r).lastIssue = h.lastIssue := by unfold Hart.post; split <;> simp
@[simp] theorem post_pend (h : Hart) (l : Level) (r : BitVec 4) : (h.post l r).pend = h.pend := by unfold Hart.post; split <;> simp
@[simp] theorem post_hold (h : Hart) (l : Level) (r : BitVec 4) : (h.post l r).hold = h.hold := by unfold Hart.post; split <;> simp
@[simp] theorem post_preempt (h : Hart) (l : Level) (r : BitVec 4) : (h.post l r).preempt = h.preempt := by unfold Hart.post; split <;> simp
@[simp] theorem post_timer (h : Hart) (l : Level) (r : BitVec 4) : (h.post l r).timer = h.timer := by unfold Hart.post; split <;> simp
@[simp] theorem post_alarm (h : Hart) (l : Level) (r : BitVec 4) : (h.post l r).alarm = h.alarm := by unfold Hart.post; split <;> simp
@[simp] theorem post_preempted (h : Hart) (l : Level) (r : BitVec 4) : (h.post l r).preempted = h.preempted := by unfold Hart.post; split <;> simp
@[simp] theorem post_cpFifo (h : Hart) (l : Level) (r : BitVec 4) : (h.post l r).cpFifo = h.cpFifo := by unfold Hart.post; split <;> simp
@[simp] theorem post_rpFifo (h : Hart) (l : Level) (r : BitVec 4) : (h.post l r).rpFifo = h.rpFifo := by unfold Hart.post; split <;> simp
@[simp] theorem post_rpOf (h : Hart) (l : Level) (r : BitVec 4) : (h.post l r).rpOf = h.rpOf := by unfold Hart.post; split <;> simp
@[simp] theorem post_faults (h : Hart) (l : Level) (r : BitVec 4) : (h.post l r).faults = h.faults := by unfold Hart.post; split <;> simp
@[simp] theorem post_lateAck (h : Hart) (l : Level) (r : BitVec 4) : (h.post l r).lateAck = h.lateAck := by unfold Hart.post; split <;> simp
@[simp] theorem post_convoy (h : Hart) (l : Level) (r : BitVec 4) : (h.post l r).convoy = h.convoy := by unfold Hart.post; split <;> simp
@[simp] theorem post_closed (h : Hart) (l : Level) (r : BitVec 4) : (h.post l r).closed = h.closed := by unfold Hart.post; split <;> simp
@[simp] theorem post_samples (h : Hart) (l : Level) (r : BitVec 4) : (h.post l r).samples = h.samples := by unfold Hart.post; split <;> simp
@[simp] theorem post_pcsr (h : Hart) (l : Level) (r : BitVec 4) : (h.post l r).pcsr = h.pcsr := by unfold Hart.post; split <;> simp
@[simp] theorem count_core (h : Hart) (n : Nat) : (h.count n).core = h.core := rfl
@[simp] theorem count_ctx (h : Hart) (n : Nat) : (h.count n).ctx = h.ctx := rfl
@[simp] theorem count_active (h : Hart) (n : Nat) : (h.count n).active = h.active := rfl
@[simp] theorem count_lane0 (h : Hart) (n : Nat) : (h.count n).lane0 = h.lane0 := rfl
@[simp] theorem count_lanes (h : Hart) (n : Nat) : (h.count n).lanes = h.lanes := rfl
@[simp] theorem count_former (h : Hart) (n : Nat) : (h.count n).former = h.former := rfl
@[simp] theorem count_claimed (h : Hart) (n : Nat) : (h.count n).claimed = h.claimed := rfl
@[simp] theorem count_yMark (h : Hart) (n : Nat) : (h.count n).yMark = h.yMark := rfl
@[simp] theorem count_tcmOff (h : Hart) (n : Nat) : (h.count n).tcmOff = h.tcmOff := rfl
@[simp] theorem count_tcmSize (h : Hart) (n : Nat) : (h.count n).tcmSize = h.tcmSize := rfl
@[simp] theorem count_spadOff (h : Hart) (n : Nat) : (h.count n).spadOff = h.spadOff := rfl
@[simp] theorem count_spadSize (h : Hart) (n : Nat) : (h.count n).spadSize = h.spadSize := rfl
@[simp] theorem count_world (h : Hart) (n : Nat) : (h.count n).world = h.world := rfl
@[simp] theorem count_queue (h : Hart) (n : Nat) : (h.count n).queue = h.queue := rfl
@[simp] theorem count_num (h : Hart) (n : Nat) : (h.count n).num = h.num := rfl
@[simp] theorem count_ord (h : Hart) (n : Nat) : (h.count n).ord = h.ord := rfl
@[simp] theorem count_launched (h : Hart) (n : Nat) : (h.count n).launched = h.launched := rfl
@[simp] theorem count_level (h : Hart) (n : Nat) : (h.count n).level = h.level := rfl
@[simp] theorem count_pc (h : Hart) (n : Nat) : (h.count n).pc = h.pc := rfl
@[simp] theorem count_ir (h : Hart) (n : Nat) : (h.count n).ir = h.ir := rfl
@[simp] theorem count_user (h : Hart) (n : Nat) : (h.count n).user = h.user := rfl
@[simp] theorem count_sup (h : Hart) (n : Nat) : (h.count n).sup = h.sup := rfl
@[simp] theorem count_mach (h : Hart) (n : Nat) : (h.count n).mach = h.mach := rfl
@[simp] theorem count_strap (h : Hart) (n : Nat) : (h.count n).strap = h.strap := rfl
@[simp] theorem count_mtrap (h : Hart) (n : Nat) : (h.count n).mtrap = h.mtrap := rfl
@[simp] theorem count_vec (h : Hart) (n : Nat) : (h.count n).vec = h.vec := rfl
@[simp] theorem count_ct (h : Hart) (n : Nat) : (h.count n).ct = h.ct := rfl
@[simp] theorem count_slots (h : Hart) (n : Nat) : (h.count n).slots = h.slots + n := rfl
@[simp] theorem count_lastIssue (h : Hart) (n : Nat) : (h.count n).lastIssue = h.lastIssue := rfl
@[simp] theorem count_posts (h : Hart) (n : Nat) : (h.count n).posts = h.posts := rfl
@[simp] theorem count_pend (h : Hart) (n : Nat) : (h.count n).pend = h.pend := rfl
@[simp] theorem count_hold (h : Hart) (n : Nat) : (h.count n).hold = h.hold := rfl
@[simp] theorem count_preempt (h : Hart) (n : Nat) : (h.count n).preempt = h.preempt := rfl
@[simp] theorem count_timer (h : Hart) (n : Nat) : (h.count n).timer = h.timer := rfl
@[simp] theorem count_alarm (h : Hart) (n : Nat) : (h.count n).alarm = h.alarm := rfl
@[simp] theorem count_preempted (h : Hart) (n : Nat) : (h.count n).preempted = h.preempted := rfl
@[simp] theorem count_cpFifo (h : Hart) (n : Nat) : (h.count n).cpFifo = h.cpFifo := rfl
@[simp] theorem count_rpFifo (h : Hart) (n : Nat) : (h.count n).rpFifo = h.rpFifo := rfl
@[simp] theorem count_rpOf (h : Hart) (n : Nat) : (h.count n).rpOf = h.rpOf := rfl
@[simp] theorem count_faults (h : Hart) (n : Nat) : (h.count n).faults = h.faults := rfl
@[simp] theorem count_lateAck (h : Hart) (n : Nat) : (h.count n).lateAck = h.lateAck := rfl
@[simp] theorem count_convoy (h : Hart) (n : Nat) : (h.count n).convoy = h.convoy := rfl
@[simp] theorem count_closed (h : Hart) (n : Nat) : (h.count n).closed = h.closed := rfl
@[simp] theorem count_samples (h : Hart) (n : Nat) : (h.count n).samples = h.samples := rfl
@[simp] theorem count_pcsr (h : Hart) (n : Nat) : (h.count n).pcsr = h.pcsr := rfl
@[simp] theorem advance_core (h : Hart)  : (h.advance).core = h.core := by unfold Hart.advance; simp
@[simp] theorem advance_ctx (h : Hart)  : (h.advance).ctx = h.ctx := by unfold Hart.advance; simp
@[simp] theorem advance_active (h : Hart)  : (h.advance).active = h.active := by unfold Hart.advance; simp
@[simp] theorem advance_lane0 (h : Hart)  : (h.advance).lane0 = h.lane0 := by unfold Hart.advance; simp
@[simp] theorem advance_lanes (h : Hart)  : (h.advance).lanes = h.lanes := by unfold Hart.advance; simp
@[simp] theorem advance_former (h : Hart)  : (h.advance).former = h.former := by unfold Hart.advance; simp
@[simp] theorem advance_claimed (h : Hart)  : (h.advance).claimed = h.claimed := by unfold Hart.advance; simp
@[simp] theorem advance_yMark (h : Hart)  : (h.advance).yMark = h.yMark := by unfold Hart.advance; simp
@[simp] theorem advance_tcmOff (h : Hart)  : (h.advance).tcmOff = h.tcmOff := by unfold Hart.advance; simp
@[simp] theorem advance_tcmSize (h : Hart)  : (h.advance).tcmSize = h.tcmSize := by unfold Hart.advance; simp
@[simp] theorem advance_spadOff (h : Hart)  : (h.advance).spadOff = h.spadOff := by unfold Hart.advance; simp
@[simp] theorem advance_spadSize (h : Hart)  : (h.advance).spadSize = h.spadSize := by unfold Hart.advance; simp
@[simp] theorem advance_world (h : Hart)  : (h.advance).world = h.world := by unfold Hart.advance; simp
@[simp] theorem advance_queue (h : Hart)  : (h.advance).queue = h.queue := by unfold Hart.advance; simp
@[simp] theorem advance_num (h : Hart)  : (h.advance).num = h.num := by unfold Hart.advance; simp
@[simp] theorem advance_ord (h : Hart)  : (h.advance).ord = h.ord := by unfold Hart.advance; simp
@[simp] theorem advance_launched (h : Hart)  : (h.advance).launched = h.launched := by unfold Hart.advance; simp
@[simp] theorem advance_level (h : Hart)  : (h.advance).level = h.level := by unfold Hart.advance; simp
@[simp] theorem advance_ir (h : Hart)  : (h.advance).ir = h.ir := by unfold Hart.advance; simp
@[simp] theorem advance_strap (h : Hart)  : (h.advance).strap = h.strap := by unfold Hart.advance; simp
@[simp] theorem advance_mtrap (h : Hart)  : (h.advance).mtrap = h.mtrap := by unfold Hart.advance; simp
@[simp] theorem advance_csr (h : Hart)  : (h.advance).csr = h.csr := by unfold Hart.advance; simp
@[simp] theorem advance_vec (h : Hart)  : (h.advance).vec = h.vec := by unfold Hart.advance; simp
@[simp] theorem advance_ct (h : Hart)  : (h.advance).ct = h.ct := by unfold Hart.advance; simp
@[simp] theorem advance_slots (h : Hart)  : (h.advance).slots = h.slots := by unfold Hart.advance; simp
@[simp] theorem advance_lastIssue (h : Hart)  : (h.advance).lastIssue = h.lastIssue := by unfold Hart.advance; simp
@[simp] theorem advance_posts (h : Hart)  : (h.advance).posts = h.posts := by unfold Hart.advance; simp
@[simp] theorem advance_pend (h : Hart)  : (h.advance).pend = h.pend := by unfold Hart.advance; simp
@[simp] theorem advance_hold (h : Hart)  : (h.advance).hold = h.hold := by unfold Hart.advance; simp
@[simp] theorem advance_preempt (h : Hart)  : (h.advance).preempt = h.preempt := by unfold Hart.advance; simp
@[simp] theorem advance_timer (h : Hart)  : (h.advance).timer = h.timer := by unfold Hart.advance; simp
@[simp] theorem advance_alarm (h : Hart)  : (h.advance).alarm = h.alarm := by unfold Hart.advance; simp
@[simp] theorem advance_preempted (h : Hart)  : (h.advance).preempted = h.preempted := by unfold Hart.advance; simp
@[simp] theorem advance_cpFifo (h : Hart)  : (h.advance).cpFifo = h.cpFifo := by unfold Hart.advance; simp
@[simp] theorem advance_rpFifo (h : Hart)  : (h.advance).rpFifo = h.rpFifo := by unfold Hart.advance; simp
@[simp] theorem advance_rpOf (h : Hart)  : (h.advance).rpOf = h.rpOf := by unfold Hart.advance; simp
@[simp] theorem advance_faults (h : Hart)  : (h.advance).faults = h.faults := by unfold Hart.advance; simp
@[simp] theorem advance_lateAck (h : Hart)  : (h.advance).lateAck = h.lateAck := by unfold Hart.advance; simp
@[simp] theorem advance_convoy (h : Hart)  : (h.advance).convoy = h.convoy := by unfold Hart.advance; simp
@[simp] theorem advance_closed (h : Hart)  : (h.advance).closed = h.closed := by unfold Hart.advance; simp
@[simp] theorem advance_samples (h : Hart)  : (h.advance).samples = h.samples := by unfold Hart.advance; simp
@[simp] theorem advance_pcsr (h : Hart)  : (h.advance).pcsr = h.pcsr := by unfold Hart.advance; simp
@[simp] theorem jump_core (h : Hart) (t : Word) (link : Bool) : (h.jump t link).core = h.core := by unfold Hart.jump; simp
@[simp] theorem jump_ctx (h : Hart) (t : Word) (link : Bool) : (h.jump t link).ctx = h.ctx := by unfold Hart.jump; simp
@[simp] theorem jump_active (h : Hart) (t : Word) (link : Bool) : (h.jump t link).active = h.active := by unfold Hart.jump; simp
@[simp] theorem jump_lane0 (h : Hart) (t : Word) (link : Bool) : (h.jump t link).lane0 = h.lane0 := by unfold Hart.jump; simp
@[simp] theorem jump_lanes (h : Hart) (t : Word) (link : Bool) : (h.jump t link).lanes = h.lanes := by unfold Hart.jump; simp
@[simp] theorem jump_former (h : Hart) (t : Word) (link : Bool) : (h.jump t link).former = h.former := by unfold Hart.jump; simp
@[simp] theorem jump_claimed (h : Hart) (t : Word) (link : Bool) : (h.jump t link).claimed = h.claimed := by unfold Hart.jump; simp
@[simp] theorem jump_yMark (h : Hart) (t : Word) (link : Bool) : (h.jump t link).yMark = h.yMark := by unfold Hart.jump; simp
@[simp] theorem jump_tcmOff (h : Hart) (t : Word) (link : Bool) : (h.jump t link).tcmOff = h.tcmOff := by unfold Hart.jump; simp
@[simp] theorem jump_tcmSize (h : Hart) (t : Word) (link : Bool) : (h.jump t link).tcmSize = h.tcmSize := by unfold Hart.jump; simp
@[simp] theorem jump_spadOff (h : Hart) (t : Word) (link : Bool) : (h.jump t link).spadOff = h.spadOff := by unfold Hart.jump; simp
@[simp] theorem jump_spadSize (h : Hart) (t : Word) (link : Bool) : (h.jump t link).spadSize = h.spadSize := by unfold Hart.jump; simp
@[simp] theorem jump_world (h : Hart) (t : Word) (link : Bool) : (h.jump t link).world = h.world := by unfold Hart.jump; simp
@[simp] theorem jump_queue (h : Hart) (t : Word) (link : Bool) : (h.jump t link).queue = h.queue := by unfold Hart.jump; simp
@[simp] theorem jump_num (h : Hart) (t : Word) (link : Bool) : (h.jump t link).num = h.num := by unfold Hart.jump; simp
@[simp] theorem jump_ord (h : Hart) (t : Word) (link : Bool) : (h.jump t link).ord = h.ord := by unfold Hart.jump; simp
@[simp] theorem jump_launched (h : Hart) (t : Word) (link : Bool) : (h.jump t link).launched = h.launched := by unfold Hart.jump; simp
@[simp] theorem jump_level (h : Hart) (t : Word) (link : Bool) : (h.jump t link).level = h.level := by unfold Hart.jump; simp
@[simp] theorem jump_pc (h : Hart) (t : Word) (link : Bool) : (h.jump t link).pc = t := by unfold Hart.jump; simp
@[simp] theorem jump_ir (h : Hart) (t : Word) (link : Bool) : (h.jump t link).ir = h.ir := by unfold Hart.jump; simp
@[simp] theorem jump_strap (h : Hart) (t : Word) (link : Bool) : (h.jump t link).strap = h.strap := by unfold Hart.jump; simp
@[simp] theorem jump_mtrap (h : Hart) (t : Word) (link : Bool) : (h.jump t link).mtrap = h.mtrap := by unfold Hart.jump; simp
@[simp] theorem jump_csr (h : Hart) (t : Word) (link : Bool) : (h.jump t link).csr = h.csr := by unfold Hart.jump; simp
@[simp] theorem jump_vec (h : Hart) (t : Word) (link : Bool) : (h.jump t link).vec = h.vec := by unfold Hart.jump; simp
@[simp] theorem jump_ct (h : Hart) (t : Word) (link : Bool) : (h.jump t link).ct = h.ct := by unfold Hart.jump; simp
@[simp] theorem jump_slots (h : Hart) (t : Word) (link : Bool) : (h.jump t link).slots = h.slots := by unfold Hart.jump; simp
@[simp] theorem jump_lastIssue (h : Hart) (t : Word) (link : Bool) : (h.jump t link).lastIssue = h.lastIssue := by unfold Hart.jump; simp
@[simp] theorem jump_posts (h : Hart) (t : Word) (link : Bool) : (h.jump t link).posts = h.posts := by unfold Hart.jump; simp
@[simp] theorem jump_pend (h : Hart) (t : Word) (link : Bool) : (h.jump t link).pend = h.pend := by unfold Hart.jump; simp
@[simp] theorem jump_hold (h : Hart) (t : Word) (link : Bool) : (h.jump t link).hold = h.hold := by unfold Hart.jump; simp
@[simp] theorem jump_preempt (h : Hart) (t : Word) (link : Bool) : (h.jump t link).preempt = h.preempt := by unfold Hart.jump; simp
@[simp] theorem jump_timer (h : Hart) (t : Word) (link : Bool) : (h.jump t link).timer = h.timer := by unfold Hart.jump; simp
@[simp] theorem jump_alarm (h : Hart) (t : Word) (link : Bool) : (h.jump t link).alarm = h.alarm := by unfold Hart.jump; simp
@[simp] theorem jump_preempted (h : Hart) (t : Word) (link : Bool) : (h.jump t link).preempted = h.preempted := by unfold Hart.jump; simp
@[simp] theorem jump_cpFifo (h : Hart) (t : Word) (link : Bool) : (h.jump t link).cpFifo = h.cpFifo := by unfold Hart.jump; simp
@[simp] theorem jump_rpFifo (h : Hart) (t : Word) (link : Bool) : (h.jump t link).rpFifo = h.rpFifo := by unfold Hart.jump; simp
@[simp] theorem jump_rpOf (h : Hart) (t : Word) (link : Bool) : (h.jump t link).rpOf = h.rpOf := by unfold Hart.jump; simp
@[simp] theorem jump_faults (h : Hart) (t : Word) (link : Bool) : (h.jump t link).faults = h.faults := by unfold Hart.jump; simp
@[simp] theorem jump_lateAck (h : Hart) (t : Word) (link : Bool) : (h.jump t link).lateAck = h.lateAck := by unfold Hart.jump; simp
@[simp] theorem jump_convoy (h : Hart) (t : Word) (link : Bool) : (h.jump t link).convoy = h.convoy := by unfold Hart.jump; simp
@[simp] theorem jump_closed (h : Hart) (t : Word) (link : Bool) : (h.jump t link).closed = h.closed := by unfold Hart.jump; simp
@[simp] theorem jump_samples (h : Hart) (t : Word) (link : Bool) : (h.jump t link).samples = h.samples := by unfold Hart.jump; simp
@[simp] theorem jump_pcsr (h : Hart) (t : Word) (link : Bool) : (h.jump t link).pcsr = h.pcsr := by unfold Hart.jump; simp
@[simp] theorem raiseFlags_core (h : Hart) (f : Flags) : (h.raiseFlags f).core = h.core := rfl
@[simp] theorem raiseFlags_ctx (h : Hart) (f : Flags) : (h.raiseFlags f).ctx = h.ctx := rfl
@[simp] theorem raiseFlags_active (h : Hart) (f : Flags) : (h.raiseFlags f).active = h.active := rfl
@[simp] theorem raiseFlags_lane0 (h : Hart) (f : Flags) : (h.raiseFlags f).lane0 = h.lane0 := rfl
@[simp] theorem raiseFlags_lanes (h : Hart) (f : Flags) : (h.raiseFlags f).lanes = h.lanes := rfl
@[simp] theorem raiseFlags_former (h : Hart) (f : Flags) : (h.raiseFlags f).former = h.former := rfl
@[simp] theorem raiseFlags_claimed (h : Hart) (f : Flags) : (h.raiseFlags f).claimed = h.claimed := rfl
@[simp] theorem raiseFlags_yMark (h : Hart) (f : Flags) : (h.raiseFlags f).yMark = h.yMark := rfl
@[simp] theorem raiseFlags_tcmOff (h : Hart) (f : Flags) : (h.raiseFlags f).tcmOff = h.tcmOff := rfl
@[simp] theorem raiseFlags_tcmSize (h : Hart) (f : Flags) : (h.raiseFlags f).tcmSize = h.tcmSize := rfl
@[simp] theorem raiseFlags_spadOff (h : Hart) (f : Flags) : (h.raiseFlags f).spadOff = h.spadOff := rfl
@[simp] theorem raiseFlags_spadSize (h : Hart) (f : Flags) : (h.raiseFlags f).spadSize = h.spadSize := rfl
@[simp] theorem raiseFlags_world (h : Hart) (f : Flags) : (h.raiseFlags f).world = h.world := rfl
@[simp] theorem raiseFlags_queue (h : Hart) (f : Flags) : (h.raiseFlags f).queue = h.queue := rfl
@[simp] theorem raiseFlags_num (h : Hart) (f : Flags) : (h.raiseFlags f).num = h.num := rfl
@[simp] theorem raiseFlags_ord (h : Hart) (f : Flags) : (h.raiseFlags f).ord = h.ord := rfl
@[simp] theorem raiseFlags_launched (h : Hart) (f : Flags) : (h.raiseFlags f).launched = h.launched := rfl
@[simp] theorem raiseFlags_level (h : Hart) (f : Flags) : (h.raiseFlags f).level = h.level := rfl
@[simp] theorem raiseFlags_pc (h : Hart) (f : Flags) : (h.raiseFlags f).pc = h.pc := rfl
@[simp] theorem raiseFlags_ir (h : Hart) (f : Flags) : (h.raiseFlags f).ir = h.ir := rfl
@[simp] theorem raiseFlags_user (h : Hart) (f : Flags) : (h.raiseFlags f).user = h.user := rfl
@[simp] theorem raiseFlags_sup (h : Hart) (f : Flags) : (h.raiseFlags f).sup = h.sup := rfl
@[simp] theorem raiseFlags_mach (h : Hart) (f : Flags) : (h.raiseFlags f).mach = h.mach := rfl
@[simp] theorem raiseFlags_strap (h : Hart) (f : Flags) : (h.raiseFlags f).strap = h.strap := rfl
@[simp] theorem raiseFlags_mtrap (h : Hart) (f : Flags) : (h.raiseFlags f).mtrap = h.mtrap := rfl
@[simp] theorem raiseFlags_vec (h : Hart) (f : Flags) : (h.raiseFlags f).vec = h.vec := rfl
@[simp] theorem raiseFlags_ct (h : Hart) (f : Flags) : (h.raiseFlags f).ct = h.ct := rfl
@[simp] theorem raiseFlags_slots (h : Hart) (f : Flags) : (h.raiseFlags f).slots = h.slots := rfl
@[simp] theorem raiseFlags_lastIssue (h : Hart) (f : Flags) : (h.raiseFlags f).lastIssue = h.lastIssue := rfl
@[simp] theorem raiseFlags_posts (h : Hart) (f : Flags) : (h.raiseFlags f).posts = h.posts := rfl
@[simp] theorem raiseFlags_pend (h : Hart) (f : Flags) : (h.raiseFlags f).pend = h.pend := rfl
@[simp] theorem raiseFlags_hold (h : Hart) (f : Flags) : (h.raiseFlags f).hold = h.hold := rfl
@[simp] theorem raiseFlags_preempt (h : Hart) (f : Flags) : (h.raiseFlags f).preempt = h.preempt := rfl
@[simp] theorem raiseFlags_timer (h : Hart) (f : Flags) : (h.raiseFlags f).timer = h.timer := rfl
@[simp] theorem raiseFlags_alarm (h : Hart) (f : Flags) : (h.raiseFlags f).alarm = h.alarm := rfl
@[simp] theorem raiseFlags_preempted (h : Hart) (f : Flags) : (h.raiseFlags f).preempted = h.preempted := rfl
@[simp] theorem raiseFlags_cpFifo (h : Hart) (f : Flags) : (h.raiseFlags f).cpFifo = h.cpFifo := rfl
@[simp] theorem raiseFlags_rpFifo (h : Hart) (f : Flags) : (h.raiseFlags f).rpFifo = h.rpFifo := rfl
@[simp] theorem raiseFlags_rpOf (h : Hart) (f : Flags) : (h.raiseFlags f).rpOf = h.rpOf := rfl
@[simp] theorem raiseFlags_faults (h : Hart) (f : Flags) : (h.raiseFlags f).faults = h.faults := rfl
@[simp] theorem raiseFlags_lateAck (h : Hart) (f : Flags) : (h.raiseFlags f).lateAck = h.lateAck := rfl
@[simp] theorem raiseFlags_convoy (h : Hart) (f : Flags) : (h.raiseFlags f).convoy = h.convoy := rfl
@[simp] theorem raiseFlags_closed (h : Hart) (f : Flags) : (h.raiseFlags f).closed = h.closed := rfl
@[simp] theorem raiseFlags_samples (h : Hart) (f : Flags) : (h.raiseFlags f).samples = h.samples := rfl
@[simp] theorem raiseFlags_pcsr (h : Hart) (f : Flags) : (h.raiseFlags f).pcsr = h.pcsr := rfl

end StateLaws

namespace BankLaws

@[simp] theorem writeX_h (b : Bank) (r : BitVec 5) (v : Word) (p : Bool) : (b.writeX r v p).h = b.h := by unfold Bank.writeX; split <;> rfl
@[simp] theorem writeX_ph (b : Bank) (r : BitVec 5) (v : Word) (p : Bool) : (b.writeX r v p).ph = b.ph := by unfold Bank.writeX; split <;> rfl
@[simp] theorem writeX_ldest (b : Bank) (r : BitVec 5) (v : Word) (p : Bool) : (b.writeX r v p).ldest = b.ldest := by unfold Bank.writeX; split <;> rfl
@[simp] theorem writeH_ldest (b : Bank) (r : BitVec 4) (v : Half) : (b.writeH r v).ldest = b.ldest := by unfold Bank.writeH; split <;> rfl
@[simp] theorem writeX_nest (b : Bank) (r : BitVec 5) (v : Word) (p : Bool) : (b.writeX r v p).nest = b.nest := by unfold Bank.writeX; split <;> rfl
@[simp] theorem writeH_nest (b : Bank) (r : BitVec 4) (v : Half) : (b.writeH r v).nest = b.nest := by unfold Bank.writeH; split <;> rfl
@[simp] theorem writeX_lidx (b : Bank) (r : BitVec 5) (v : Word) (p : Bool) : (b.writeX r v p).lidx = b.lidx := by unfold Bank.writeX; split <;> rfl
@[simp] theorem writeH_lidx (b : Bank) (r : BitVec 4) (v : Half) : (b.writeH r v).lidx = b.lidx := by unfold Bank.writeH; split <;> rfl

/-- The bank of a level after a change of a level's bank. -/
@[simp] theorem bankOf_setBank (h : Hart) (l m : Level) (b : Bank) : (h.setBank l b).bankOf m = if m = l then b else h.bankOf m := by
  cases l <;> cases m <;> rfl
@[simp] theorem bankOf_modBank (h : Hart) (l m : Level) (f : Bank → Bank) :
    (h.modBank l f).bankOf m = if m = l then f (h.bankOf l) else h.bankOf m := by
  cases l <;> cases m <;> rfl

end BankLaws

end Sys2Proof.Laws
end

