-- ==== Sys2Proof/Laws/Scalar.lean ====
section
/-! SUPPORT. Scalar instructions: what the shared operations of latency-1 results, later results and started operations do. -/
namespace Sys2Proof.Laws
open Sys2Proof.Machine Sys2Proof.Claims StateLaws BankLaws

/-- STRICT passes where no source is awaited (R119). -/
theorem strictX_ok {s : State} {rs : List (BitVec 5)} (h : Waited s rs) : s.strictX rs = .ok () := by
  unfold State.strictX
  split
  · rename_i hs
    have := h hs
    rw [List.find?_eq_none.mpr (by intro r hr; simp [this r hr])]
  · rfl
/-- Reads of a bank after a write. -/
theorem readX_writeX (b : Bank) (r d : BitVec 5) (v : Word) (p : Bool) :
    (b.writeX d v p).readX r = if r = d ∧ d ≠ 0 then (if p then 0 else v) else b.readX r := by
  unfold Bank.writeX
  by_cases hd : d = 0
  · have c : ¬(r = d ∧ d ≠ 0) := fun h => h.2 hd
    rw [if_pos hd, if_neg c]
  · rw [if_neg hd]
    unfold Bank.readX
    by_cases h : r = d
    · subst h
      have c : r = r ∧ r ≠ 0 := ⟨rfl, hd⟩
      rw [if_pos c, if_neg hd]
      exact Vector.getElem_set_self _
    · have c : ¬(r = d ∧ d ≠ 0) := fun e => h e.1
      have hne : d.toNat ≠ r.toNat := fun e => h (BitVec.eq_of_toNat_eq e.symm)
      rw [if_neg c]
      split
      · rfl
      · exact Vector.getElem_set_ne d.isLt r.isLt hne
theorem poisonX_writeX (b : Bank) (r d : BitVec 5) (v : Word) (p : Bool) :
    (b.writeX d v p).poisonX r = if r = d ∧ d ≠ 0 then p else b.poisonX r := by
  unfold Bank.writeX
  by_cases hd : d = 0
  · have c : ¬(r = d ∧ d ≠ 0) := fun h => h.2 hd
    rw [if_pos hd, if_neg c]
  · rw [if_neg hd]
    unfold Bank.poisonX
    have hr := r.isLt
    by_cases h : r = d
    · subst h
      have c : r = r ∧ r ≠ 0 := ⟨rfl, hd⟩
      have hb : (r != 0) = true := by simpa using hd
      rw [if_pos c, hb]
      cases p <;> simp [hr]
    · have c : ¬(r = d ∧ d ≠ 0) := fun e => h e.1
      rw [if_neg c]
      have hne : r.toNat ≠ d.toNat := fun e => h (BitVec.eq_of_toNat_eq e)
      have key : (1#32 <<< d.toNat).getLsbD r.toNat = false := by
        rw [BitVec.getLsbD_shiftLeft]
        simp only [BitVec.getLsbD_one]
        simp
        omega
      cases p
      · simp only [Bool.false_eq_true, if_false, BitVec.getLsbD_and, BitVec.getLsbD_not, key, hr]
        simp
      · simp only [if_true, BitVec.getLsbD_or, key, Bool.or_false]

theorem writeX_h (b : Bank) (d : BitVec 5) (v : Word) (p : Bool) : (b.writeX d v p).h = b.h := by unfold Bank.writeX; split <;> rfl
theorem writeX_ph (b : Bank) (d : BitVec 5) (v : Word) (p : Bool) : (b.writeX d v p).ph = b.ph := by unfold Bank.writeX; split <;> rfl
theorem writeX_ldest (b : Bank) (d : BitVec 5) (v : Word) (p : Bool) : (b.writeX d v p).ldest = b.ldest := by unfold Bank.writeX; split <;> rfl
theorem writeX_nest (b : Bank) (d : BitVec 5) (v : Word) (p : Bool) : (b.writeX d v p).nest = b.nest := by unfold Bank.writeX; split <;> rfl
theorem writeX_lidx (b : Bank) (d : BitVec 5) (v : Word) (p : Bool) : (b.writeX d v p).lidx = b.lidx := by unfold Bank.writeX; split <;> rfl


/-! What a scalar instruction changes of the hart, erased. -/

/-- The hart without its banks, pc, results in flight, slot counter and retirement counter. -/
def scalarRest (h : Hart) : Hart :=
  { h with user := .reset, sup := .reset, mach := .reset, pc := 0, pend := [], slots := 0, csr := { h.csr with instret := 0 } }
@[simp] theorem scalarRest_setBank (h : Hart) (l : Level) (b : Bank) : scalarRest (h.setBank l b) = scalarRest h := by cases l <;> rfl
@[simp] theorem scalarRest_modBank (h : Hart) (l : Level) (f : Bank → Bank) : scalarRest (h.modBank l f) = scalarRest h := by cases l <;> rfl
@[simp] theorem scalarRest_count (h : Hart) (n : Nat) : scalarRest (h.count n) = scalarRest h := rfl
@[simp] theorem scalarRest_pc (h : Hart) (a : Word) : scalarRest { h with pc := a } = scalarRest h := rfl
@[simp] theorem scalarRest_pend (h : Hart) (a : List Pend) : scalarRest { h with pend := a } = scalarRest h := rfl
theorem scalarRest_advance (h : Hart) : scalarRest h.advance = scalarRest h := by
  unfold Hart.advance
  exact (scalarRest_pc (h.setBank h.level _) _).trans (scalarRest_setBank h h.level _)
/-- Two harts that agree but for what a scalar instruction changes. -/
theorem eq_of_scalarRest {g h : Hart} (e : scalarRest g = scalarRest h) :
    g = { h with user := g.user, sup := g.sup, mach := g.mach, pc := g.pc, pend := g.pend, slots := g.slots,
                 csr := { h.csr with instret := g.csr.instret } } := by
  have e1 : g = { scalarRest g with user := g.user, sup := g.sup, mach := g.mach, pc := g.pc, pend := g.pend, slots := g.slots,
                                    csr := { (scalarRest g).csr with instret := g.csr.instret } } := rfl
  rw [e] at e1
  exact e1

/-- Landing a result of latency 1 in an x register. -/
theorem landPend_x (h : Hart) (n m : Nat) (l : Level) (r : BitVec 5) (v : Word) (p : Bool) :
    h.landPend { seq := n, land := m, dest := .x l r v p, lvl := l, hook := 0 } =
      { h.modBank l (fun b => b.writeX r v p) with pend := h.pend.filterMap fun q =>
          (if q.seq == n && q.dest == .x l r v p then none
          else if q.seq < n && q.dest.same (.x l r v p) then (if q.hook = 0 || q.done then none else some { q with dest := .none })
          else some q) } := by
  cases l <;> rfl

/-- What setting ldest does to the hart. -/
theorem setLdest_view (s : State) (r : BitVec 5) :
    scalarRest (s.setLdest r).cur = scalarRest s.cur ∧
    (∀ m, (s.setLdest r).cur.bankOf m =
      if m = s.cur.level ∧ r ≠ 0 then { s.cur.bankOf s.cur.level with ldest := r } else s.cur.bankOf m) ∧
    (s.setLdest r).cur.pend = s.cur.pend ∧ (s.setLdest r).cur.pc = s.cur.pc ∧ (s.setLdest r).cur.slots = s.cur.slots ∧
    (s.setLdest r).cur.csr.instret = s.cur.csr.instret := by
  unfold State.setLdest
  split
  · simp [*]
  · rename_i hr
    have hr' : ¬r = 0#5 := hr
    simp [State.modCur, hr']

/-- What a retirement does to the hart. -/
theorem retire_view (s : State) :
    scalarRest s.retire.cur = scalarRest s.cur ∧
    (∀ m, s.retire.cur.bankOf m = if m = s.cur.level then
        { s.cur.bank with nest := (wrapNest s.cur.bank.nest s.cur.bank.lidx s.cur.seqPc).1,
                          lidx := (wrapNest s.cur.bank.nest s.cur.bank.lidx s.cur.seqPc).2.1 }
      else s.cur.bankOf m) ∧
    s.retire.cur.pend = s.cur.pend ∧
    s.retire.cur.pc = (wrapNest s.cur.bank.nest s.cur.bank.lidx s.cur.seqPc).2.2 ∧ s.retire.cur.slots = s.cur.slots + 1 ∧
    s.retire.cur.csr.instret = s.cur.csr.instret + 1 := by
  refine ⟨scalarRest_advance _, ?_, ?_, rfl, ?_, ?_⟩
  · intro m
    exact bankOf_setBank (s.cur.count 1) (s.cur.count 1).level m _
  · cases hl : s.cur.level <;> simp [State.retire, State.modCur, Hart.advance, Hart.setBank, hl, Hart.count]
  · cases hl : s.cur.level <;> simp [State.retire, State.modCur, Hart.advance, Hart.setBank, hl, Hart.count]
  · cases hl : s.cur.level <;> simp [State.retire, State.modCur, Hart.advance, Hart.setBank, hl, Hart.count]

/-- What a latency-1 write of an x register does to the hart. -/
theorem writeX_view (s : State) (r : BitVec 5) (v : Word) (p : Bool) :
    scalarRest (s.writeX r v p).cur = scalarRest s.cur ∧
    (∀ m, (s.writeX r v p).cur.bankOf m = if m = s.cur.level then
        (s.cur.bank.writeX r v p).writeX r (if p then 0 else v) p else s.cur.bankOf m) ∧
    (s.writeX r v p).cur.pc = s.cur.pc ∧ (s.writeX r v p).cur.slots = s.cur.slots ∧
    (s.writeX r v p).cur.csr.instret = s.cur.csr.instret ∧
    (s.writeX r v p).cur.pend = s.cur.pend.filterMap fun q =>
      (if q.seq == s.issues && q.dest == .x s.cur.level r (if p then 0 else v) p then none
      else if q.seq < s.issues && q.dest.same (.x s.cur.level r (if p then 0 else v) p) then
        (if q.hook = 0 || q.done then none else some { q with dest := .none })
      else some q) := by
  have e : (s.writeX r v p).cur = (s.cur.modBank s.cur.level fun b => b.writeX r v p).landPend
      { seq := s.issues, land := 0, dest := .x s.cur.level r (if p then 0 else v) p, lvl := s.cur.level, hook := 0 } := rfl
  rw [landPend_x] at e
  rw [e]
  refine ⟨(scalarRest_pend _ _).trans ((scalarRest_modBank ..).trans (scalarRest_modBank ..)), ?_, by simp, by simp, by simp, by simp⟩
  intro m
  have := bankOf_modBank (s.cur.modBank s.cur.level fun b => b.writeX r v p) s.cur.level m
    (fun b => b.writeX r (if p then 0 else v) p)
  cases m <;> cases hl : s.cur.level <;> simp [Hart.modBank, Hart.setBank, Hart.bankOf, Hart.bank, hl]

/-- Setting ldest changes the issuing hart alone. -/
theorem setLdest_with (u : State) (d : BitVec 5) (x : Hart) : { u.setLdest d with cur := x } = { u with cur := x } := by
  unfold State.setLdest
  split <;> rfl

/-- What the end of a scalar instruction does: ldest is set, the instruction retires; nothing else of the device changes. -/
theorem tail_view (u : State) (d : BitVec 5) :
    let t := (u.setLdest d).retire
    t = { u with cur := t.cur } ∧ scalarRest t.cur = scalarRest u.cur ∧ OtherBanks u t ∧
    (t.cur.bank.x = u.cur.bank.x ∧ t.cur.bank.px = u.cur.bank.px ∧ t.cur.bank.h = u.cur.bank.h ∧ t.cur.bank.ph = u.cur.bank.ph) ∧ LdestSet u t d ∧ Sequel u t ∧
    t.cur.pend = u.cur.pend ∧ t.cur.slots = u.cur.slots + 1 ∧ t.cur.csr.instret = u.cur.csr.instret + 1 := by
  intro t
  obtain ⟨l1, l2, l3, l4, l5, l6⟩ := setLdest_view u d
  obtain ⟨r1, r2, r3, r4, r5, r6⟩ := retire_view (u.setLdest d)
  have frame : t = { u with cur := t.cur } := setLdest_with u d t.cur
  have ht : (u.setLdest d).retire = t := rfl
  rw [ht] at r1 r2 r3 r4 r5 r6
  have lev : ∀ g : Hart, scalarRest g = scalarRest u.cur → g.level = u.cur.level :=
    fun g e => show (scalarRest g).level = (scalarRest u.cur).level from congrArg Hart.level e
  have ll := lev _ l1
  have lt := lev _ (r1.trans l1)
  have bl : (u.setLdest d).cur.bank = (if d ≠ 0 then { u.cur.bank with ldest := d } else u.cur.bank) := by
    unfold Hart.bank
    rw [ll, l2]
    simp
  have sp : (u.setLdest d).cur.seqPc = u.cur.seqPc := by
    have hi : (u.setLdest d).cur.ir = u.cur.ir := show (scalarRest _).ir = (scalarRest u.cur).ir from congrArg Hart.ir l1
    unfold Hart.seqPc
    rw [hi, l4]
  have nl : (u.setLdest d).cur.bank.nest = u.cur.bank.nest ∧ (u.setLdest d).cur.bank.lidx = u.cur.bank.lidx := by
    rw [bl]
    split <;> exact ⟨rfl, rfl⟩
  rw [nl.1, nl.2, sp] at r2 r4
  have bt : t.cur.bank = { (u.setLdest d).cur.bank with
      nest := (wrapNest u.cur.bank.nest u.cur.bank.lidx u.cur.seqPc).1,
      lidx := (wrapNest u.cur.bank.nest u.cur.bank.lidx u.cur.seqPc).2.1 } := by
    conv => lhs; unfold Hart.bank; rw [lt, r2, ll, if_pos rfl]
  refine ⟨frame, r1.trans l1, ?_, ?_, ?_, ?_, r3.trans l3, by rw [r5, l5], by rw [r6, l6]⟩
  · intro m hm
    rw [r2, ll, if_neg hm, l2, if_neg (fun h => hm h.1)]
  · rw [bt, bl]
    split <;> exact ⟨rfl, rfl, rfl, rfl⟩
  · unfold LdestSet
    rw [bt, bl]
    by_cases h : d = 0
    · simp only [ne_eq, h, not_true_eq_false, if_true, if_false]
    · simp only [ne_eq, h, not_false_eq_true, if_true, if_false]
  · unfold Sequel
    rw [bt, r4]

/-- The frame of a scalar instruction from what is left of the hart. -/
theorem scalarFrame_of {s t : State} (e : t = { s with cur := t.cur, ops := t.ops }) (r : scalarRest t.cur = scalarRest s.cur)
    (hs : t.cur.slots = s.cur.slots + 1) (hi : t.cur.csr.instret = s.cur.csr.instret + 1) : ScalarFrame s t := by
  have e2 : t.cur = hartAfter s t := by
    have := eq_of_scalarRest r
    rw [hs, hi] at this
    exact this
  unfold ScalarFrame
  rw [← e2]
  exact e

/-- x registers read as before where their cells stay. -/
theorem xKept_of {s t : State} (h1 : t.cur.bank.x = s.cur.bank.x) (h2 : t.cur.bank.px = s.cur.bank.px) : XKept s t := by
  intro r
  unfold Hart.x Hart.px Bank.readX Bank.poisonX
  rw [h1, h2]
  exact ⟨rfl, rfl⟩

theorem same_isX (q : Dest) (l : Level) (r : BitVec 5) (v : Word) (p : Bool) : q.same (.x l r v p) = q.isX l r := by
  cases q <;> rfl
theorem beq_isX {q : Dest} {l : Level} {r : BitVec 5} {v : Word} {p : Bool} (h : (q == .x l r v p) = true) : q.isX l r = true := by
  rw [beq_iff_eq] at h
  rw [h]
  simp [Dest.isX]

/-- A latency-1 result, its ldest and its retirement (R118, R235, R243, R244). -/
theorem writeX_done (s : State) (d : BitVec 5) (v : Word) (p : Bool) :
    AluDone s d v p ((s.writeX d v p).setLdest d).retire := by
  obtain ⟨w1, w2, w3, w4, w5, w6⟩ := writeX_view s d v p
  obtain ⟨t0, t1, t2, ⟨t3, t4, t5, t5p⟩, t6, t7, t8, t9, t10⟩ := tail_view (s.writeX d v p) d
  generalize hu : s.writeX d v p = u at *
  generalize ht : (u.setLdest d).retire = t at *
  have lu : u.cur.level = s.cur.level := show (scalarRest _).level = (scalarRest s.cur).level from congrArg Hart.level w1
  have iu : u.cur.ir = s.cur.ir := show (scalarRest _).ir = (scalarRest s.cur).ir from congrArg Hart.ir w1
  have bu : u.cur.bank = (s.cur.bank.writeX d v p).writeX d (if p then 0 else v) p := by
    conv => lhs; unfold Hart.bank; rw [lu, w2, if_pos rfl]
  have bx : ∀ r, u.cur.bank.readX r = (if r = d ∧ d ≠ 0 then (if p then 0 else v) else s.cur.bank.readX r) ∧
      u.cur.bank.poisonX r = (if r = d ∧ d ≠ 0 then p else s.cur.bank.poisonX r) := by
    intro r
    rw [bu, readX_writeX, readX_writeX, poisonX_writeX, poisonX_writeX]
    by_cases h : r = d ∧ d ≠ 0
    · simp only [if_pos h]
      exact ⟨by cases p <;> rfl, trivial⟩
    · simp only [if_neg h]
      exact ⟨trivial, trivial⟩
  have ou : t.ops = u.ops := by rw [t0]
  have fu : u = { s with cur := u.cur, ops := u.ops } := by rw [← hu]; rfl
  refine ⟨scalarFrame_of (by rw [ou, t0]; conv => lhs; rw [fu]) (t1.trans w1) (by rw [t9, w4]) (by rw [t10, w5]), ?_, ?_, ?_, ?_, ?_, ?_, ?_⟩
  · intro m hm
    rw [t2 m (by rw [lu]; exact hm), w2, if_neg hm]
  · intro r
    have := bx r
    unfold Hart.x Hart.px Bank.readX Bank.poisonX at *
    rw [t3, t4]
    exact this
  · unfold HooksKept
    exact ⟨by rw [t5, bu, writeX_h, writeX_h], by rw [t5p, bu, writeX_ph, writeX_ph]⟩
  · unfold LdestSet at *
    rw [t6, bu, writeX_ldest, writeX_ldest]
  · unfold Sequel at *
    have sp : u.cur.seqPc = s.cur.seqPc := by unfold Hart.seqPc; rw [iu, w3]
    rw [t7, sp, bu, writeX_nest, writeX_nest, writeX_lidx, writeX_lidx]
  · have e := t8.trans w6
    generalize (if p then (0 : Word) else v) = w at e
    refine ⟨?_, ?_, ?_⟩
    · intro q hq hx
      rw [e, List.mem_filterMap]
      refine ⟨q, hq, ?_⟩
      have n1 : (q.dest == Dest.x s.cur.level d w p) = false := by
        rw [Bool.eq_false_iff]
        intro hb
        rw [beq_isX hb] at hx
        cases hx
      rw [same_isX, hx, n1]
      simp
    · intro q hq
      rw [e, List.mem_filterMap] at hq
      obtain ⟨a, ha, hf⟩ := hq
      split at hf
      · cases hf
      · split at hf
        · split at hf
          · cases hf
          · cases hf; exact .inr rfl
        · cases hf; exact .inl ha
    · intro hs q hq
      rw [e, List.mem_filterMap] at hq
      obtain ⟨a, ha, hf⟩ := hq
      have hlt := hs a ha
      split at hf
      · cases hf
      · split at hf
        · split at hf
          · cases hf
          · cases hf; rfl
        · rename_i n1 n2
          cases hf
          rw [same_isX] at n2
          simpa [hlt] using n2
  · rw [ou, ← hu]; rfl

/-- `alu` where STRICT passes. -/
theorem alu_done {s : State} {srcs : List (BitVec 5)} (d : BitVec 5) (v : Word) (h : Waited s srcs) :
    ∃ t, s.alu srcs d v = .next t ∧ AluDone s d v (srcs.any s.cur.px) t :=
  ⟨_, by unfold State.alu; rw [strictX_ok h]; rfl, writeX_done s d v _⟩

/-- A scalar result in flight, with its flags, at the end of its instruction. -/
theorem late_end (s : State) (lat : Nat) (d : BitVec 5) (v : Word) (p : Bool) (f : BitVec 5) :
    LateDone s lat d v p f ((((s.laterX lat d v p).laterFlags lat f).setLdest d).retire) := by
  generalize hu : (s.laterX lat d v p).laterFlags lat f = u
  have hc : u = { s with cur := { s.cur with pend := s.cur.pend ++
      (if d = 0 then [] else [pendOf s lat (.x s.cur.level d (if p then 0 else v) p) 0]) ++
      (if f = 0 then [] else [pendOf s lat (.flags f) 0]) } } := by
    rw [← hu]
    unfold State.laterX State.laterFlags State.later State.modCur pendOf
    by_cases h1 : d = 0 <;> by_cases h2 : f = 0 <;> simp only [h1, h2, ↓reduceIte, List.append_nil]
  obtain ⟨t0, t1, t2, ⟨t3, t4, t5, t5p⟩, t6, t7, t8, t9, t10⟩ := tail_view u d
  generalize (u.setLdest d).retire = t at *
  have cu : u.cur = { s.cur with pend := u.cur.pend } := by rw [hc]
  have bu : u.cur.bank = s.cur.bank := by rw [cu]; rfl
  have lu : u.cur.level = s.cur.level := by rw [cu]
  have ou : t.ops = s.ops := by rw [t0, hc]
  refine ⟨scalarFrame_of ?_ ?_ ?_ ?_, ?_, xKept_of (by rw [t3, bu]) (by rw [t4, bu]), ?_, ?_, ?_, ou, ?_⟩
  · rw [ou]; exact t0.trans (by rw [hc])
  · rw [t1, cu]; rfl
  · rw [t9, cu]
  · rw [t10, cu]
  · intro m hm
    rw [t2 m (by rw [lu]; exact hm), cu]
    rfl
  · exact ⟨by rw [t5, bu], by rw [t5p, bu]⟩
  · unfold LdestSet at *; rw [t6, bu]
  · unfold Sequel at *
    rw [t7, bu]
    congr 1
    unfold Hart.seqPc
    rw [cu]
  · rw [t8, hc]
/-- `aluLate` where STRICT passes. -/
theorem aluLate_done {s : State} {srcs : List (BitVec 5)} (lat : Nat) (d : BitVec 5) (v : Word) (f : BitVec 5) (h : Waited s srcs) :
    ∃ t, s.aluLate lat srcs d v f = .next t ∧ LateDone s lat d v (srcs.any s.cur.px) f t :=
  ⟨_, by unfold State.aluLate; rw [strictX_ok h]; rfl, late_end s lat d v _ f⟩

/-- An operation put in flight at the end of its instruction. -/
theorem start_end (u : State) (d : BitVec 5) (hook : BitVec 4) (k : OpKind) (acq : Bool) (va : Word) :
    Started u d (opOf u hook k acq va) ((u.start hook k acq va).setLdest d).retire := by
  obtain ⟨t0, t1, t2, ⟨t3, t4, t5, t5p⟩, t6, t7, t8, t9, t10⟩ := tail_view (u.start hook k acq va) d
  generalize ((u.start hook k acq va).setLdest d).retire = t at *
  have cu : (u.start hook k acq va).cur = u.cur := rfl
  rw [cu] at *
  refine ⟨?_, t2, xKept_of t3 t4, ⟨t5, t5p⟩, t6, t7, t8⟩
  have e := eq_of_scalarRest t1
  have e2 : t.cur = hartAfter u t := by rw [t9, t10] at e; exact e
  rw [← e2]
  exact t0
/-- `divStart` where STRICT passes. -/
theorem divStart_done {s : State} {srcs : List (BitVec 5)} (fp : Bool) (d : BitVec 5) (hook : BitVec 4) (v : Word) (f : BitVec 5)
    (h : Waited s srcs) :
    ∃ t, s.divStart fp srcs d hook v f = .next t ∧
      Started s d (opOf s hook (.divide fp v f (srcs.any s.cur.px) (s.xdest d)) false 0) t :=
  ⟨_, by unfold State.divStart; rw [strictX_ok h]; rfl, start_end s d hook _ false 0⟩

end Sys2Proof.Laws
end

