-- ==== Sys2Proof/Laws/Vector.lean ====
section
/-! SUPPORT. Vector instructions: what issuing one does. -/
namespace Sys2Proof.Laws
open Sys2Proof.Machine Sys2Proof.Claims StateLaws BankLaws

/-- Writing a record changes memory and worlds alone. -/
theorem record_with (s : State) (w : BitVec 6) (bs : List Byte) :
    s.record w bs = { s with mem := (s.record w bs).mem, worlds := (s.record w bs).worlds } := by
  have hw : w.toNat < 64 := w.isLt
  unfold State.record State.violation State.modWorld
  simp only [hw, ↓reduceDIte]
  repeat' split
  all_goals rfl
/-- Recording a convoy changes memory and worlds alone, and nothing where obctl does not ask for the record. -/
theorem convoyRecord_with (s : State) (h : Hart) (c : Convoy) :
    s.convoyRecord h c = { s with mem := (s.convoyRecord h c).mem, worlds := (s.convoyRecord h c).worlds } ∧
    ((s.worlds[h.world.toNat]).obs.ctl.getLsbD 0 = false → s.convoyRecord h c = s) := by
  unfold State.convoyRecord
  dsimp only
  split
  · rename_i hb
    exact ⟨record_with .., fun h' => by rw [hb] at h'; cases h'⟩
  · exact ⟨rfl, fun _ => rfl⟩
theorem convoyRecords_with (h : Hart) (l : List Convoy) (s : State) :
    let t := l.foldl (fun s c => s.convoyRecord h c) s
    t = { s with mem := t.mem, worlds := t.worlds } ∧ ((s.worlds[h.world.toNat]).obs.ctl.getLsbD 0 = false → t = s) := by
  induction l generalizing s with
  | nil => exact ⟨rfl, fun _ => rfl⟩
  | cons c r ih =>
    obtain ⟨a, b⟩ := convoyRecord_with s h c
    obtain ⟨x, y⟩ := ih (s.convoyRecord h c)
    refine ⟨?_, fun e => ?_⟩
    · simp only [List.foldl_cons]
      generalize s.convoyRecord h c = u at *
      rw [x, a]
    · simp only [List.foldl_cons]
      rw [b e] at y ⊢
      exact y e
/-- Settling the closed convoys of the issuing hart changes them, and memory and worlds where obctl asks for their records. -/
theorem settleConvoys_with (s : State) :
    let t := s.settleConvoys s.cur.core s.cur.ctx
    t = { s with cur := { s.cur with closed := t.cur.closed }, mem := t.mem, worlds := t.worlds } ∧
    ((s.worlds[s.cur.world.toNat]).obs.ctl.getLsbD 0 = false → t.mem = s.mem ∧ t.worlds = s.worlds) := by
  intro t
  have ht : t = s.settleConvoys s.cur.core s.cur.ctx := rfl
  have at_ : s.cur.isAt s.cur.core s.cur.ctx = true := by unfold Hart.isAt; simp
  unfold State.settleConvoys State.hartAt at ht
  rw [if_pos at_] at ht
  dsimp only at ht
  obtain ⟨a, b⟩ := convoyRecords_with s.cur (s.cur.closed.takeWhile fun c => !s.convoyLive c) s
  generalize List.foldl _ s _ = u at *
  have hc : u.cur = s.cur := by rw [a]
  unfold State.modHart at ht
  rw [hc, if_pos at_] at ht
  refine ⟨?_, fun e => ?_⟩
  · rw [ht]
    conv => lhs; rw [a]
  · rw [ht, b e]
    exact ⟨rfl, rfl⟩
/-- Closing a convoy changes the convoys, and memory and worlds where obctl asks for a record. -/
theorem closeConvoy_with (s : State) (cut : Bool) :
    let t := s.closeConvoy cut
    t = { s with cur := { s.cur with convoy := none, closed := t.cur.closed }, mem := t.mem, worlds := t.worlds } ∧
    (s.cur.convoy = none ∨ (s.worlds[s.cur.world.toNat]).obs.ctl.getLsbD 0 = false → t.mem = s.mem ∧ t.worlds = s.worlds) := by
  intro t
  have ht : t = s.closeConvoy cut := rfl
  unfold State.closeConvoy at ht
  cases hc : s.cur.convoy with
  | none =>
    rw [hc] at ht
    rw [ht]
    refine ⟨?_, fun _ => ⟨rfl, rfl⟩⟩
    dsimp only
    rw [← hc]
  | some c =>
    rw [hc] at ht
    dsimp only at ht
    obtain ⟨a, b⟩ := settleConvoys_with (s.modCur fun h => { h with convoy := none, closed := h.closed ++ [{ c with cut }] })
    have ht' : t = (s.modCur fun h => { h with convoy := none, closed := h.closed ++ [{ c with cut }] }).settleConvoys
      (s.modCur fun h => { h with convoy := none, closed := h.closed ++ [{ c with cut }] }).cur.core
      (s.modCur fun h => { h with convoy := none, closed := h.closed ++ [{ c with cut }] }).cur.ctx := ht
    rw [← ht'] at a b
    refine ⟨a, ?_⟩
    rintro (h' | h')
    · cases h'
    · exact b h'
/-- Joining or opening a convoy changes the convoys, and memory and worlds where one is recorded. -/
theorem convoyJoin_with (s : State) (j al : Bool) (wv : BitVec 32) (wm : BitVec 8) (a b : Nat) :
    let t := s.convoyJoin j al wv wm a b
    t = { s with cur := { s.cur with convoy := t.cur.convoy, closed := t.cur.closed }, mem := t.mem, worlds := t.worlds } ∧
    (s.cur.convoy = none ∨ (s.worlds[s.cur.world.toNat]).obs.ctl.getLsbD 0 = false → t.mem = s.mem ∧ t.worlds = s.worlds) := by
  intro t
  have ht : t = s.convoyJoin j al wv wm a b := rfl
  unfold State.convoyJoin at ht
  cases hc : s.cur.convoy with
  | none =>
    rw [hc] at ht
    rw [ht]
    exact ⟨rfl, fun _ => ⟨rfl, rfl⟩⟩
  | some c =>
    rw [hc] at ht
    dsimp only at ht
    split at ht
    · rw [ht]
      exact ⟨rfl, fun _ => ⟨rfl, rfl⟩⟩
    · obtain ⟨e, h⟩ := closeConvoy_with s false
      generalize s.closeConvoy false = u at *
      rw [ht]
      refine ⟨?_, ?_⟩
      · unfold State.modCur
        dsimp only
        rw [e]
      · rw [← hc]
        exact h

/-- Closing a full convoy changes the convoys, and memory and worlds where obctl asks for a record of one whose members are done. -/
theorem closeFull_with (s : State) :
    let t := s.closeFull
    t = { s with cur := { s.cur with convoy := t.cur.convoy, closed := t.cur.closed }, mem := t.mem, worlds := t.worlds } ∧
    ((s.cur.closed = [] ∧ ∀ c, s.cur.convoy = some c → s.convoyLive c = true) ∨ (s.worlds[s.cur.world.toNat]).obs.ctl.getLsbD 0 = false →
      t.mem = s.mem ∧ t.worlds = s.worlds) := by
  intro t
  have ht : t = s.closeFull := rfl
  unfold State.closeFull at ht
  split at ht
  · rename_i c hc
    split at ht
    · obtain ⟨a, b⟩ := closeConvoy_with s false
      rw [← ht] at a b
      refine ⟨?_, ?_⟩
      · have ac : t.cur.convoy = none := by rw [a]
        rw [ac]
        exact a
      · rintro (⟨h1, h2⟩ | h)
        · have hl := h2 c hc
          unfold State.convoyLive at hl
          unfold State.closeConvoy State.settleConvoys State.hartAt State.convoyLive at ht
          simp only [hc, State.modCur, Hart.isAt, beq_self_eq_true, Bool.and_self, ↓reduceIte, h1, List.nil_append,
            List.takeWhile_cons, List.dropWhile_cons, hl, Bool.not_true, Bool.false_eq_true, List.foldl_nil, State.modHart] at ht
          rw [ht]
          exact ⟨rfl, rfl⟩
        · exact b (.inr h)
    · rw [ht]
      exact ⟨rfl, fun _ => ⟨rfl, rfl⟩⟩
  · rw [ht]
    exact ⟨rfl, fun _ => ⟨rfl, rfl⟩⟩

/-- The values before a group is written. -/
theorem oldV_get (r : VecRegs) (v n : Nat) : ∀ q ∈ r.oldV (groupRegs v n), r.v.getD q.1.toNat 0 = q.2 := by
  intro q hq
  simp only [VecRegs.oldV, groupRegs, List.map_map, List.mem_map, Function.comp] at hq
  obtain ⟨i, -, rfl⟩ := hq
  simp only [BitVec.toNat_ofNat]
  rw [Nat.mod_eq_of_lt (Nat.mod_lt _ (by decide))]
theorem oldM_get (r : VecRegs) (l : List Nat) (h : ∀ n ∈ l, n < 32) : ∀ q ∈ r.oldM l, r.m.getD q.1.toNat 0 = q.2 := by
  intro q hq
  simp only [VecRegs.oldM, List.mem_map] at hq
  obtain ⟨i, hi, rfl⟩ := hq
  simp only [BitVec.toNat_ofNat]
  rw [Nat.mod_eq_of_lt (h i hi)]

/-- A state with one more operation in flight and new vector registers. -/
def withVector (u : State) (o : Op) (r : VecRegs) : State :=
  { u with ops := u.ops ++ [o], nextOp := u.nextOp + 1, cur := { u.cur with vec := r, csr := { u.cur.csr with vstart := 0 } } }

/-- The state of a vector instruction that has its place in a convoy and in the VIQ. -/
theorem withVector_view {s u : State} (o : Op) (r : VecRegs) (ho : o.id = s.nextOp)
    (j1 : u = { s with cur := { s.cur with convoy := u.cur.convoy, closed := u.cur.closed }, mem := u.mem, worlds := u.worlds })
    (j2 : s.cur.convoy = none ∨ (s.worlds[s.cur.world.toNat]).obs.ctl.getLsbD 0 = false → u.mem = s.mem ∧ u.worlds = s.worlds)
    (j3 : s.cur.convoy = none → u.cur.closed = s.cur.closed ∧ ∀ c, u.cur.convoy = some c → c.ops = [s.nextOp]) :
    let w := (withVector u o r).closeFull
    w = { s with cur := w.cur, ops := s.ops ++ [o], nextOp := s.nextOp + 1, mem := w.mem, worlds := w.worlds } ∧
    w.cur = { s.cur with convoy := w.cur.convoy, closed := w.cur.closed, vec := r, csr := { s.cur.csr with vstart := 0 } } ∧
    (s.cur.convoy = none ∧ s.cur.closed = [] ∨ (s.worlds[s.cur.world.toNat]).obs.ctl.getLsbD 0 = false → w.mem = s.mem ∧ w.worlds = s.worlds) := by
  intro w
  obtain ⟨a, b⟩ := closeFull_with (withVector u o r)
  have hw : (withVector u o r).closeFull = w := rfl
  rw [hw] at a b
  clear_value w
  have cw : (withVector u o r).cur = { s.cur with convoy := u.cur.convoy, closed := u.cur.closed, vec := r, csr := { s.cur.csr with vstart := 0 } } := by
    unfold withVector
    dsimp only
    rw [j1]
  have ow : (withVector u o r).ops = s.ops ++ [o] := by
    unfold withVector
    dsimp only
    rw [j1]
  have ww : withVector u o r = { s with
      cur := (withVector u o r).cur, ops := (withVector u o r).ops, nextOp := s.nextOp + 1, mem := u.mem, worlds := u.worlds } := by
    conv => lhs; unfold withVector; rw [j1]
    rw [cw, ow]
  have mw : (withVector u o r).mem = u.mem ∧ (withVector u o r).worlds = u.worlds := ⟨rfl, rfl⟩
  have cc : w.cur = { s.cur with convoy := w.cur.convoy, closed := w.cur.closed, vec := r, csr := { s.cur.csr with vstart := 0 } } := by
    have : w.cur = { (withVector u o r).cur with convoy := w.cur.convoy, closed := w.cur.closed } := by
      conv => lhs; rw [a]
    rw [cw] at this
    exact this
  refine ⟨?_, cc, ?_⟩
  · have h1 : w = { (withVector u o r) with cur := w.cur, mem := w.mem, worlds := w.worlds } := by
      conv => lhs; rw [a]
      rw [cw]
      conv => rhs; rw [cc]
    conv => lhs; rw [h1, ww]
    rw [ow]
  · intro h
    have h2 : u.mem = s.mem ∧ u.worlds = s.worlds := j2 (h.imp (·.1) id)
    have h3 : w.mem = (withVector u o r).mem ∧ w.worlds = (withVector u o r).worlds := by
      apply b
      rcases h with ⟨h, h'⟩ | h
      · refine .inl ⟨?_, fun c hc => ?_⟩
        · rw [cw]
          exact (j3 h).1.trans h'
        · rw [cw] at hc
          unfold State.convoyLive
          rw [(j3 h).2 c hc, ow]
          simp [ho]
      · right
        simp only [cw, mw.2, h2.2]
        exact h
    exact ⟨h3.1.trans (mw.1.trans h2.1), h3.2.trans (mw.2.trans h2.2)⟩
/-- The end of a vector instruction on top of its convoy. -/
theorem vector_done {s w : State} (o : Op) (r : VecRegs) (d : BitVec 5)
    (ww : w = { s with cur := w.cur, ops := s.ops ++ [o], nextOp := s.nextOp + 1, mem := w.mem, worlds := w.worlds })
    (cw : w.cur = { s.cur with convoy := w.cur.convoy, closed := w.cur.closed, vec := r, csr := { s.cur.csr with vstart := 0 } })
    (mw : s.cur.convoy = none ∧ s.cur.closed = [] ∨ (s.worlds[s.cur.world.toNat]).obs.ctl.getLsbD 0 = false →
      w.mem = s.mem ∧ w.worlds = s.worlds) :
    let t := (w.setLdest d).retire
    VecFrame s t ∧ t.cur.vec = r ∧ t.cur.bank.ldest = (if d = 0 then s.cur.bank.ldest else d) ∧ t.ops = s.ops ++ [o] := by
  intro t
  obtain ⟨t0, t1, t2, ⟨t3, t4, t5, t5p⟩, t6, t7, t8, t9, t10⟩ := tail_view w d
  have ht : (w.setLdest d).retire = t := rfl
  rw [ht] at t0 t1 t2 t3 t4 t5 t5p t6 t7 t8 t9 t10
  clear_value t
  have ow : w.ops = s.ops ++ [o] := by rw [ww]
  have lw : w.cur.level = s.cur.level := by rw [cw]
  have bw : ∀ l, w.cur.bankOf l = s.cur.bankOf l := by intro l; rw [cw]; cases l <;> rfl
  have bb : w.cur.bank = s.cur.bank := by unfold Hart.bank; rw [lw, bw]
  have e1 := eq_of_scalarRest t1
  have tv : t.cur.vec = r := by rw [e1, cw]
  have tc : t.cur.convoy = w.cur.convoy ∧ t.cur.closed = w.cur.closed := by rw [e1, cw]; exact ⟨rfl, rfl⟩
  have mt : t.mem = w.mem := by rw [t0]
  have wt : t.worlds = w.worlds := by rw [t0]
  have ot : t.ops = w.ops := by rw [t0]
  refine ⟨⟨?_, ?_, xKept_of (by rw [t3, bb]) (by rw [t4, bb]), ?_, ?_, ?_⟩, tv, ?_, ?_⟩
  · have hc : t.cur = { s.cur with
        user := t.cur.user, sup := t.cur.sup, mach := t.cur.mach, pc := t.cur.pc, slots := s.cur.slots + 1, vec := t.cur.vec,
        convoy := t.cur.convoy, closed := t.cur.closed, csr := { s.cur.csr with vstart := 0, instret := s.cur.csr.instret + 1 } } := by
      rw [t8, t9, t10, cw] at e1
      rw [tv, tc.1, tc.2]
      exact e1
    rw [mt, wt, ot, ← hc]
    conv => lhs; rw [t0, ww]
    rw [ow]
  · intro l hl
    rw [t2 l (by rw [lw]; exact hl), bw]
  · exact ⟨by rw [t5, bb], by rw [t5p, bb]⟩
  · unfold Sequel at *
    rw [t7, bb]
    congr 1
    unfold Hart.seqPc
    rw [cw]
  · intro h
    obtain ⟨a, b⟩ := mw h
    exact ⟨mt.trans a, wt.trans b⟩
  · unfold LdestSet at t6
    rw [t6, bb]
  · rw [ot, ow]

/-- What issuing a vector instruction does where the VIQ has room. -/
theorem vecIssue_done (s : State) (hook : BitVec 4) (m : VMeta) (e : VEffect) (hq : s.viqLength < 32)
    (hv : ∃ v n, e.vd = groupRegs v n) (hm : ∀ n ∈ e.md, n < 32) : VecDone s hook e (s.vecIssue hook m e) m.atEnd := by
  obtain ⟨j1, j2⟩ := convoyJoin_with s (match s.cur.convoy with | some c => c.takes m | none => false) m.whole
    (e.vd.foldl (fun w r => w ||| 1#32 <<< r) 0) (e.md.foldl (fun w r => w ||| 1#8 <<< r) 0) m.run m.skip
  have hj : s.convoyFor m e.vd e.md = s.convoyJoin (match s.cur.convoy with | some c => c.takes m | none => false) m.whole
    (e.vd.foldl (fun w r => w ||| 1#32 <<< r) 0) (e.md.foldl (fun w r => w ||| 1#8 <<< r) 0) m.run m.skip := rfl
  rw [← hj] at j1 j2
  unfold State.vecIssue
  rw [if_neg (by omega)]
  clear hj
  generalize hu : s.convoyFor m e.vd e.md = u at *
  obtain ⟨v, n, hvd⟩ := hv
  have ho := oldV_get (if m.atEnd then e.regs else s.cur.vec) v n
  rw [← hvd] at ho
  have hp := oldM_get s.cur.vec e.md hm
  have hs : ∀ k, (u.start hook k false e.va).modCur (fun h => { h with vec := e.regs, csr := { h.csr with vstart := 0 } }) =
      withVector u (opOf s hook k false e.va) e.regs := by
    intro k
    have : ({ id := u.nextOp, core := u.cur.core, ctx := u.cur.ctx, seq := u.issues, lvl := u.cur.level, hook := hook, kind := k,
              acq := false, va := e.va, pc := u.cur.pc, ret := u.cur.csr.instret } : Op) = opOf s hook k false e.va := by
      unfold opOf
      rw [j1]
    unfold withVector State.start State.modCur
    rw [← this]
  have hj3 : s.cur.convoy = none → u.cur.closed = s.cur.closed ∧ ∀ c, u.cur.convoy = some c → c.ops = [s.nextOp] := by
    intro hn
    rw [← hu]
    unfold State.convoyFor State.convoyJoin
    rw [hn]
    refine ⟨rfl, fun c hc => ?_⟩
    cases hc
    rfl
  have z : ∀ w : State, w.setLdest 0 = w := fun w => by unfold State.setLdest; rw [if_pos rfl]
  have key := fun k d => by
    have v := withVector_view (s := s) (opOf s hook k false e.va) e.regs rfl j1 j2 hj3
    exact vector_done (s := s) (opOf s hook k false e.va) e.regs d v.1 v.2.1 v.2.2
  cases hx : e.x with
  | none =>
    dsimp only
    rw [hs]
    obtain ⟨k1, k2, k3, k4⟩ := key (.vector e.flags (none.map fun (x : BitVec 5 × Word × Bool) =>
      (s.xdest x.1, x.2.1, x.2.2)) e.writes ((if m.atEnd then e.regs else s.cur.vec).oldV e.vd) (s.cur.vec.oldM e.md) e.mtab e.waits e.sample) 0
    rw [z] at k1 k2 k3 k4
    refine ⟨k1, k2, ?_, ⟨_, _, ?_, ho, hp⟩⟩
    · rw [hx]; exact k3
    · rw [hx]; exact k4
  | some x =>
    dsimp only
    rw [hs]
    obtain ⟨k1, k2, k3, k4⟩ := key (.vector e.flags ((some x).map fun (x : BitVec 5 × Word × Bool) =>
      (s.xdest x.1, x.2.1, x.2.2)) e.writes ((if m.atEnd then e.regs else s.cur.vec).oldV e.vd) (s.cur.vec.oldM e.md) e.mtab e.waits e.sample) x.1
    refine ⟨k1, k2, ?_, ⟨_, _, ?_, ho, hp⟩⟩
    · rw [hx]; exact k3
    · rw [hx]; exact k4

end Sys2Proof.Laws
end

