-- ==== Sys2Proof/Tests/Slice0.lean ====
section
/-! SUPPORT. Tests of the model: ill-formed terms, words of the spec's encodings, single steps on small states with results from the
spec's rules, and, for every statement with hypotheses, states and operands that meet them. -/
set_option Elab.async false
namespace Sys2Proof.Tests
open Sys2Proof Sys2Proof.Machine Sys2Proof.Claims

/-! Ill-formed terms: one for each check of WellFormed. -/

theorem test_form_hook : Instr.formError (.div 1 2 3 0) = some .hook := by decide +kernel
theorem test_form_hook_wait : Instr.formError (.wait 1 0 5) = some .hook := by decide +kernel
theorem test_form_scope : Instr.formError (.fenceAcq 6) = some .scope := by decide +kernel
theorem test_form_scope_icinv : Instr.formError (.icinv 1 1 2 5) = some .scope := by decide +kernel
theorem test_form_scope_bar : Instr.formError (.bar 1 0 1) = some .scope := by decide +kernel
theorem test_form_mask_register : Instr.formError (.mand 8 0 0) = some .register := by decide +kernel
theorem test_form_accumulator : Instr.formError (.tzero 4) = some .register := by decide +kernel
theorem test_form_cuff_pair : Instr.formError (.slopen 31 1) = some .register := by decide +kernel
theorem test_form_loop_level : Instr.formError (.loop 6 5) = some .loop := by decide +kernel
theorem test_form_loop_offset : Instr.formError (.loop 0 1) = some .loop := by decide +kernel
theorem test_form_loop_offset_long : Instr.formError (.loopr 4 258) = some .loop := by decide +kernel
theorem test_form_delay : Instr.formError (.dly 65) = some .delay := by decide +kernel
theorem test_form_delay_zero : Instr.formError (.dly 0) = some .delay := by decide +kernel
theorem test_form_fcvt_self : Instr.formError (.fcvt 1 2 1 1) = some .format := by decide +kernel
theorem test_form_fcvt_integer : Instr.formError (.fcvtInt 1 2 3 0) = some .format := by decide +kernel
theorem test_form_config : Instr.formError (.setvli 1 2 0 0 0 0 0 208) = some .config := by decide +kernel
theorem test_form_vamo_code : Instr.formError (.vamo 1 2 3 54 1) = some .code := by decide +kernel
theorem test_form_engine : Instr.formError (.epop 1 2 1) = some .engine := by decide +kernel
theorem test_form_pool : Instr.formError (.poolHeader 0) = some .pool := by decide +kernel
theorem test_form_nop : Instr.formError (.cNop 1 0) = some .nop := by decide +kernel
/-- R239: a chain bit where no vector source is read. -/
theorem test_form_chain : Instr.formError (.vld 1 22 0 0 1 0) = some .chain ∧ Instr.formError (.vlds 1 22 0 0 0 1 0) = some .chain := by decide +kernel
theorem test_form_good : Instr.formError (.loop 5 257) = none ∧ Instr.formError (.dly 64) = none ∧
    Instr.formError (.setvli 1 2 0 0 0 0 0 207) = none ∧ Instr.formError (.vamo 1 2 3 53 1) = none := by decide +kernel

/-! Words of the spec's encodings, field by field: opcode bits first, then the fields as the manual lays them out. -/

/-- R238, worked example: lhi w5, 0x10. -/
theorem test_word_lhi : decode 0x27200010 false = .ok (.lhi 25 0x10) := by decide +kernel
/-- R238: addi w1, a0... with immediate -3. -/
theorem test_word_addi : decode 0x0AA4FFFD false = .ok (.addi 21 4 0xFFFD) := by decide +kernel
theorem test_word_std : decode 0x32B90601 false = .ok (.stD 21 25 0 1) := by decide +kernel
theorem test_word_ldd : decode 0x2ED90601 false = .ok (.ldD 22 25 0 1) := by decide +kernel
theorem test_word_setvli : decode 0x6685F000 false = .ok (.setvli 20 5 1 3 0 0 0 0) := by decide +kernel
/-- R233, R237: a pair word holds its first instruction in its low half. -/
theorem test_word_pair_first : decode 0xC37ACB03 false = .ok (.cAdd 23 21) := by decide +kernel
theorem test_word_pair_second : decode 0xC37ACB03 true = .ok (.cShli 24 3) := by decide +kernel
theorem test_word_bne : decode 0x3F000002 false = .ok (.bne 24 0 2) := by decide +kernel
theorem test_word_loop : decode 0x58000005 false = .ok (.loop 0 5) := by decide +kernel
theorem test_word_csrr : decode 0x60560026 false = .ok (.csrr 22 0x026) := by decide +kernel
theorem test_word_mul : decode 0x06F6B00E false = .ok (.mul 23 22 22) := by decide +kernel
theorem test_word_dly : decode 0x58400002 false = .ok (.dly 2) := by decide +kernel
theorem test_word_halt : decode 0x58C00000 false = .ok .halt := by decide +kernel
theorem test_word_post : decode 0x58801FFF false = .ok (.post 1 0xFFF) := by decide +kernel
theorem test_word_wait : decode 0x58601000 false = .ok (.wait 0 1 0) := by decide +kernel
theorem test_word_setvl : decode 0x66856400 false = .ok (.setvl 20 5 25 0) := by decide +kernel
theorem test_word_vld : decode 0x68360000 false = .ok (.vld 1 22 0 0 0 0) ∧
    (match decode 0x68360040 false with | .ok _ => false | .error _ => true) = true := by decide +kernel
theorem test_word_vst : decode 0x68570009 false = .ok (.vst 2 23 0 0 0 2) := by decide +kernel
theorem test_word_mpopc : decode 0x87010085 false = .ok (.mpopc 24 1 1) := by decide +kernel
theorem test_word_tzero : decode 0x94000000 false = .ok (.tzero 0) := by decide +kernel
theorem test_word_tmma : decode 0x94011003 false = .ok (.tmma 0 1 2) := by decide +kernel
theorem test_word_mtld : decode 0x9015008E false = .ok (.mtld 21 1) := by decide +kernel
theorem test_word_vntt : decode 0x9041C04A false = .ok (.vntt 2 1 24 1) := by decide +kernel
/-- The table's word for `mul`, its bits numbered from the least significant, is read by the decoder. -/
theorem test_table_word : decodeTableWord 32 0x06F6B00E = some (.mul 23 22 22) := by decide +kernel

theorem test_word_vcmp : decode 0x7C21001C false = .ok (.vcmpGtVI 1 1 0 0 0 0) := by decide +kernel
theorem test_word_vadd : decode 0x7C210800 false = .ok (.vaddVI 1 1 1 0 0 0) := by decide +kernel
theorem test_word_vcompress : decode 0x80410147 false = .ok (.vcompress 2 1 1 1) := by decide +kernel
theorem test_word_vsldn : decode 0x80832043 false = .ok (.vsldnVI 4 3 4 0 0 1) := by decide +kernel
theorem test_word_vid : decode 0x80400009 false = .ok (.vid 2 0 0) := by decide +kernel
theorem test_word_mshl : decode 0x84210804 false = .ok (.mshl 1 1 1) := by decide +kernel
theorem test_word_vredsum : decode 0x8441180A false = .ok (.vredSum 2 1 3 0 0 0 0) := by decide +kernel
theorem test_word_vmmul : decode 0x90A32002 false = .ok (.vmmulVV 5 3 4 0 0 0 0) := by decide +kernel
theorem test_word_vintt : decode 0x90C5C84B false = .ok (.vintt 6 5 25 1) := by decide +kernel
theorem test_word_tmvr : decode 0x9460B004 false = .ok (.tmvr 3 0 22) := by decide +kernel
theorem test_word_rpdisp : decode 0xA0190102 false = .ok (.rpdisp 25 2) := by decide +kernel
theorem test_word_ctadd : decode 0xA4611283 false = .ok (.ctAdd 3 1 2 5) := by decide +kernel
theorem test_word_ctbind : decode 0xA4166000 false = .ok (.ctBind 0 22 12) := by decide +kernel
theorem test_word_brinit : decode 0xA8200189 false = .ok (.ctBrinit 1 0 3 1) := by decide +kernel
theorem test_word_brstep : decode 0xA8210190 false = .ok (.ctBrstep 1 1 0 3) := by decide +kernel
theorem test_word_kybind : decode 0xA8190315 false = .ok (.kyBind 0 25 6) := by decide +kernel
theorem test_word_tbld : decode 0xA83B0314 false = .ok (.tbLd 1 27 6) := by decide +kernel

/-- R220: a word whose res bits are not zero is no instruction: halt with bit 0 set. -/
theorem test_word_res : (match decode 0x58C00001 false with | .ok _ => false | .error _ => true) = true := by decide +kernel
theorem test_word_copy : decode 0x9B160380 false = .ok (.copy 24 22 7) := by decide +kernel
theorem test_word_epop : decode 0x9BA00982 false = .ok (.epop 29 1 3) := by decide +kernel

/-- R260: fadd.s x1, x2, x3: major 0x17, D 1, A 2, B 3, fn 0, fmt 1. -/
theorem test_word_fadd : decode 0x5C221801 false = .ok (.fadd 1 2 3 1) := by decide +kernel
/-- R332: major 0x27, A 2, B 3, hook 1, fn 1. -/
theorem test_word_slsend : decode 0x9C021881 false = .ok (.slsend 2 3 1) := by decide +kernel
/-- R231, R286: major 0x1C, the code 53 (swap at sys) as 0b10101 in [10:6] and 1 in [0], hook 1, fn 1. -/
theorem test_word_vamo : decode 0x70221D47 false = .ok (.vamo 1 2 3 53 1) := by decide +kernel

/-! Single steps, their results worked out by hand from the rules. -/

/-- A user hart of core 0 at the start of its TCM slice, with values in x registers. -/
def hart (l : List (BitVec 5 × Word)) : State :=
  (State.reset.placeWord 0).modCur fun h => { h with user := l.foldl (fun b e => b.writeX e.1 e.2 false) h.user }
/-- The same with a scratchpad slice, in a world whose root table maps every address to the same local address (R165). -/
def near (l : List (BitVec 5 × Word)) : State :=
  let s := (hart l).modCur fun h => { h with spadSize := 0x10000 }
  { s with mem := s.mem.writeClean 0 [0x3F, 0, 0, 0, 0, 0, 0, 0] }
/-- The same with the table's one leaf in device 1 of a domain of two (R166). -/
def far (l : List (BitVec 5 × Word)) : State :=
  { near l with members := [0, 1], mem := (near l).mem.writeClean 0 [0x3F, 0, 0, 0, 0, 0, 0xC0, 0] }.modPeer 1 fun p => { p with keyed := true }
/-- The instruction answers a next state that passes. -/
noncomputable def goes (i : Instr) (s : State) (p : State → Bool) : Bool :=
  match exec i s with | .next t => p t | _ => false
/-- The hart is in the supervisor's handler with a cause code and a detail (R193, R194). -/
def trapped (code : Nat) (detail : Word) (t : State) : Bool :=
  t.cur.level == .supervisor && t.cur.strap.cause.extractLsb' 0 8 == BitVec.ofNat 8 code && t.cur.strap.detail == detail
/-- The value of an operation that has just been put in flight (R245). -/
def inFlight (t : State) : Option Word :=
  match t.ops.map Op.kind with | [OpKind.divide _ v _ _ _] => some v | _ => none
/-- The value of a result of fixed latency in flight (R243). -/
def landing (t : State) : Option Word := match t.cur.pend.map Pend.dest with | Dest.x _ _ v _ :: _ => some v | _ => none

/-- One operation in flight, number 9, of the hart, with hook 2. -/
def flying (k : OpKind) (s : State) : State :=
  { s with ops := [{ id := 9, core := 0, ctx := 0, seq := 1, lvl := .user, hook := 2, kind := k, acq := false, va := 0x1000008, pc := 0, ret := 0 }] }
/-- Byte 8 of the hart's scratchpad slice. -/
def spad8 : Target := { home := .spad, key := spadKey 0 8, lworld := 0, enc := 0, nonce := 0, gen := 0 }

/-- R244: addition is modulo 2^64. -/
theorem test_add_wraps : goes (.add 1 2 3) (hart [(2, 0xFFFFFFFFFFFFFFFF), (3, 2)]) (fun t => t.cur.x 1 == 1 && t.cur.pc == 0x100004) = true := by
  decide +kernel
/-- R217: a write to x0 is lost. -/
theorem test_add_x0 : goes (.add 0 2 3) (hart [(2, 5), (3, 2)]) (fun t => t.cur.x 0 == 0 && t.cur.bank.ldest == 0) = true := by decide +kernel
theorem test_sub : goes (.sub 2 2 3) (hart [(2, 5), (3, 7)]) (fun t => t.cur.x 2 == 0xFFFFFFFFFFFFFFFE) = true := by decide +kernel
/-- R244: shift amounts are taken modulo 64. -/
theorem test_shl_mod : goes (.shl 1 2 3) (hart [(2, 1), (3, 65)]) (fun t => t.cur.x 1 == 2) = true := by decide +kernel
theorem test_sra : goes (.sra 1 2 3) (hart [(2, 0x8000000000000000), (3, 63)]) (fun t => t.cur.x 1 == -1) = true := by decide +kernel
theorem test_slt_sign : goes (.slt 1 2 3) (hart [(2, -1), (3, 0)]) (fun t => t.cur.x 1 == 1) = true := by decide +kernel
theorem test_sltu : goes (.sltu 1 2 3) (hart [(2, -1), (3, 0)]) (fun t => t.cur.x 1 == 0) = true := by decide +kernel
theorem test_minu : goes (.minu 1 2 3) (hart [(2, -1), (3, 4)]) (fun t => t.cur.x 1 == 4) = true := by decide +kernel
/-- R243: a product lands in the third slot. -/
theorem test_mulhu : goes (.mulhu 1 2 3) (hart [(2, -1), (3, -1)]) (fun t => t.cur.x 1 == 0 && landing t == some 0xFFFFFFFFFFFFFFFE) = true := by
  decide +kernel
theorem test_mulh : goes (.mulh 1 2 3) (hart [(2, -1), (3, -1)]) (fun t => landing t == some 0) = true := by decide +kernel
/-- R41: a zero divisor gives all ones, the most negative dividend by -1 gives the dividend. -/
theorem test_div_zero : goes (.div 1 2 3 1) (hart [(2, 9)]) (fun t => inFlight t == some (-1)) = true := by decide +kernel
theorem test_div_overflow : goes (.div 1 2 3 1) (hart [(2, 0x8000000000000000), (3, -1)]) (fun t => inFlight t == some 0x8000000000000000) = true := by
  decide +kernel
theorem test_rem_sign : goes (.rem 1 2 3 1) (hart [(2, -7), (3, 2)]) (fun t => inFlight t == some (-1)) = true := by decide +kernel
theorem test_clz_zero : goes (.clz 1 2) (hart []) (fun t => t.cur.x 1 == 64) = true := by decide +kernel
theorem test_ctz : goes (.ctz 1 2) (hart [(2, 0x50)]) (fun t => t.cur.x 1 == 4) = true := by decide +kernel
theorem test_bswap : goes (.bswap 1 2) (hart [(2, 0x0102030405060708)]) (fun t => t.cur.x 1 == 0x0807060504030201) = true := by decide +kernel
/-- R221, R246: `addi` extends its immediate by sign, `ori` by zeros. -/
theorem test_addi_negative : goes (.addi 1 2 0xFFFD) (hart [(2, 1)]) (fun t => t.cur.x 1 == 0xFFFFFFFFFFFFFFFE) = true := by decide +kernel
theorem test_ori : goes (.ori 1 2 0x8000) (hart []) (fun t => t.cur.x 1 == 0x8000) = true := by decide +kernel
theorem test_lhi_sign : goes (.lhi 1 0x8000) (hart []) (fun t => t.cur.x 1 == 0xFFFFFFFF80000000) = true := by decide +kernel
theorem test_lpc : goes (.lpc 1 1) (hart []) (fun t => t.cur.x 1 == 0x110000) = true := by decide +kernel
/-- R237: the first source of a compact instruction is the register that ldest names, and its immediate is signed. -/
theorem test_compact_addi : goes (.cAddi 3 31) ((hart [(2, 9)]).modCur fun h => { h with user := { h.user with ldest := 2 } })
    (fun t => t.cur.x 3 == 8 && t.cur.bank.ldest == 3) = true := by decide +kernel
/-- R249: offsets count words from the instruction's own. -/
theorem test_bne_back : goes (.bne 1 2 0xFFFF) (hart [(1, 3)]) (fun t => t.cur.pc == 0xFFFFC) = true := by decide +kernel
theorem test_bgeu_falls : goes (.bgeu 1 2 9) (hart [(1, 3), (2, -1)]) (fun t => t.cur.pc == 0x100004) = true := by decide +kernel
theorem test_jal : goes (.jal 1 2) (hart []) (fun t => t.cur.pc == 0x100008 && t.cur.x 1 == 0x100004) = true := by decide +kernel
theorem test_jalr_align : goes (.jalr 1 2 2) (hart [(2, 0x100000)]) (trapped 3 0x100002) = true := by decide +kernel
/-- R254: a loop with count 0 goes to its end. -/
theorem test_loopr_zero : goes (.loopr 4 5) (hart []) (fun t => t.cur.pc == 0x100014 && t.cur.bank.nest == []) = true := by decide +kernel
theorem test_loop_enters : goes (.loop 0 5) (hart []) (fun t => t.cur.pc == 0x100004 && t.cur.bank.nest.length == 1) = true := by decide +kernel
theorem test_dly : goes (.dly 64) (hart []) (fun t => t.cur.slots == 1 && t.cur.csr.instret == 1 && t.cur.hold == some (.dly 63)) = true := by decide +kernel
/-- R252: `post` adds a signed number. -/
theorem test_post : goes (.post 1 0xFFF) (hart []) (fun t => t.cur.hook 1 == 0xFFFFFFFF) = true := by decide +kernel
theorem test_hset : goes (.hset 2 3) (hart [(2, 7)]) (fun t => t.cur.hook 3 == 7) = true := by decide +kernel
/-- R251: a hook below its threshold holds the hart. -/
theorem test_wait_holds : goes (.wait 0 1 1) (hart []) (fun t => t.cur.hold == some (.wait 1 1)) = true := by decide +kernel
theorem test_wait_passes : goes (.wait 0 1 0) (hart []) (fun t => t.cur.hold == none && t.cur.pc == 0x100004) = true := by decide +kernel
theorem test_trap : goes (.trap 0x77) (hart []) (fun t => trapped 13 0x77 t && t.cur.strap.epc == 0x100000) = true := by decide +kernel
theorem test_bkpt : goes (.bkpt 5) (hart []) (trapped 12 5) = true := by decide +kernel
theorem test_pool_header : goes (.poolHeader 3) (hart []) (trapped 2 0x100000) = true := by decide +kernel
theorem test_eret_user : goes .eret (hart []) (trapped 1 0) = true := by decide +kernel
/-- R269: hwid of a user hart of core 0 in world 0 with four lanes. -/
theorem test_csrr_hwid : goes (.csrr 1 0x050) (hart []) (fun t => t.cur.x 1 == 0) = true := by decide +kernel
/-- R269: fcsr keeps its low eight bits. -/
theorem test_csrw_fcsr : goes (.csrw 2 0) (hart [(2, 0xFFF)]) (fun t => t.cur.csr.fcsr == 0xFF) = true := by decide +kernel
theorem test_csrw_level : goes (.csrw 2 0x105) (hart []) (trapped 1 0) = true := by decide +kernel

/-- R20, R243, R247: a load from the TCM slice lands in the third slot, extended by sign; here the instruction word itself. -/
theorem test_ld_tcm : goes (.ldB 1 2 0 1) ({ hart [(2, 0x100000)] with mem := State.reset.mem.writeClean (2 ^ 48) [1, 0x80] })
    (fun t => landing t == some 0xFFFFFFFFFFFFFF80) = true := by decide +kernel
/-- R247: a load from elsewhere needs a hook. -/
theorem test_ld_unhooked : goes (.ldD 1 2 0 0) (near [(2, 0x1000000)]) (trapped 7 0x1000000) = true := by decide +kernel
theorem test_ld_align : goes (.ldW 1 2 1 0) (near [(2, 0x1000002)]) (trapped 3 0x1000002) = true := by decide +kernel
theorem test_st_data : goes (.stH 1 2 0 0) (near [(1, 0x12345), (2, 0x2000000)])
    (fun t => match t.ops.map Op.kind with | [OpKind.store w] => w.data == [0x45, 0x23] && w.target.key == 0x2000000 | _ => false) = true := by
  decide +kernel
/-- R247: an access outside every window and beyond the tables traps ACCESS. -/
theorem test_st_hole : goes (.stB 1 2 0 0) (near [(2, 0x500000)])
    (fun t => trapped 5 0x500000 t && t.cur.strap.cause.extractLsb' 8 8 == 8) = true := by decide +kernel
theorem test_amo : goes (.amoAdd 1 2 3 1 3) (near [(2, 0x1000008), (3, 5)])
    (fun t => match t.ops.map Op.kind with | [OpKind.atomic (some .add) _ 5 _ _ _] => true | _ => false) = true := by decide +kernel
theorem test_amo_align : goes (.cas 1 2 3 1 3) (near [(2, 0x1000004)]) (trapped 3 0x1000004) = true := by decide +kernel
/-- R248, R177: an atomic that ends adds to its word and delivers the old value. -/
theorem test_atomic_complete :
    goes (.atomicComplete 9) (flying (.atomic (some .add) spad8 5 0 false { lvl := .user, r := 3, live := true }) (near []))
      (fun t => t.cur.x 3 == 0 && t.mem.read (spadKey 0 8) == 5 && t.cur.hook 2 == 1 && t.ops == []) = true := by decide +kernel
theorem test_fence_sys_waits : goes (.fenceFull 3) (hart []) (fun t => t.cur.pc == 0x100004) = true := by decide +kernel

/-- R42, R260: 1.5 + 1.5 = 3 in FP64, in flight until the fourth slot. -/
theorem test_fadd : goes (.fadd 1 2 3 0) (hart [(2, 0x3FF8000000000000), (3, 0x3FF8000000000000)])
    (fun t => landing t == some 0x4008000000000000 && t.cur.pend.map (·.land) == [4]) = true := by decide +kernel
/-- R44: 1/0 is infinity with DZ. -/
theorem test_fdiv_zero : goes (.fdiv 1 2 3 1 0) (hart [(2, 0x3FF0000000000000)]) (fun t => inFlight t == some 0x7FF0000000000000) = true := by
  decide +kernel
theorem test_fcmp : goes (.fcmpLt 1 2 3 0) (hart [(2, 0x8000000000000000), (3, 0)]) (fun t => landing t == some 0) = true := by decide +kernel
/-- R261: 2.5 to an integer rounds to even. -/
theorem test_fcvt_int : goes (.fcvtInt 1 2 5 0) (hart [(2, 0x4004000000000000)]) (fun t => landing t == some 2) = true := by decide +kernel
theorem test_fsub_mode : goes (.fsub 1 2 3 0) ((hart []).modCur fun h => { h with csr := { h.csr with fcsr := 0xA0 } }) (trapped 1 0) = true := by
  decide +kernel
/-- R52: positive infinity. -/
theorem test_fclass : goes (.fclass 1 2 0) (hart [(2, 0x7FF0000000000000)]) (fun t => landing t == some 0x80) = true := by decide +kernel

/-- R214, R215: a step runs the word at the pc. -/
theorem test_step_runs :
    (match step ((hart []).withFetchWord 32 0x27200010) with | .next t => t.cur.x 25 == 0x100000 && t.cur.pc == 0x100004 | _ => false) = true := by
  decide +kernel

/-- A hart with vtype and vl, and vector registers with elements of w bits from element 0 on. -/
def vhart (vt : Half) (vl w : Nat) (vs : List (Nat × List Nat)) (xs : List (BitVec 5 × Word)) : State :=
  (hart xs).modCur fun h => { h with
    csr := { h.csr with vtype := vt, vl := BitVec.ofNat 64 vl }
    vec := vs.foldl (fun r e => (e.2.zipIdx).foldl (fun (r : VecRegs) (x : Nat × Nat) => r.setElem 4 e.1 w x.2 x.1) r) h.vec }
/-- Elements of a vector register. -/
def els (t : State) (w v n : Nat) : List Nat := (List.range n).map fun i => t.cur.vec.elem 4 v w i
def maskBits (t : State) (m n : Nat) : List Bool := (List.range n).map fun i => t.cur.vec.mask m i
/-- The scalar result of the last vector instruction in flight. -/
def moved (t : State) : Option Word := match t.ops.map Op.kind with | [OpKind.vector _ (some (_, v, _)) ..] => some v | _ => none

/-- R272, R274: at e64 on four lanes element 0 lies in lane 0, and its upper half is element 4 at e32. -/
theorem test_place : els (vhart 3 1 64 [(1, [0x1122334455667788])] []) 32 1 5 = [0x55667788, 0, 0, 0, 0x11223344] := by decide +kernel
/-- R281: vl is the smaller of the count asked for and vlmax, 2,048·4/64 = 128 elements. -/
theorem test_setvli_max : goes (.setvli 1 2 0 3 0 0 0 0) (hart [(2, 1000)]) (fun t => t.cur.csr.vl == 128 && t.cur.csr.vtype == 3) = true := by
  decide +kernel
theorem test_setvl_illegal : goes (.setvl 1 2 3 0) (hart [(2, 8), (3, 0x80000000)]) (fun t => t.cur.csr.vl == 0 && t.cur.csr.vtype == 0x90000000) = true := by
  decide +kernel
theorem test_vadd_wraps : goes (.vaddVV 1 2 3 0 0 0 0) (vhart 0 4 8 [(1, [9, 9, 9, 9, 9]), (2, [250, 1, 2, 3]), (3, [10, 1, 1, 1])] [])
    (fun t => els t 8 1 5 == [4, 2, 3, 4, 9]) = true := by decide +kernel
/-- R288: the immediate is extended by sign. -/
theorem test_vrsub_vi : goes (.vrsubVI 1 2 31 0 0 0) (vhart 0 2 8 [(2, [1, 255])] []) (fun t => els t 8 1 2 == [254, 0]) = true := by decide +kernel
theorem test_vsra_vx : goes (.vsraVX 1 2 4 0 0 0) (vhart 0 2 8 [(2, [0x80, 0x40])] [(4, 9)]) (fun t => els t 8 1 2 == [0xC0, 0x20]) = true := by
  decide +kernel
/-- R289: a carry out of element 0 alone. -/
theorem test_vmadc : goes (.vmadcVV 1 2 3 0 0 0) (vhart 0 2 8 [(2, [255, 254]), (3, [0, 0])] []) (fun t => maskBits t 1 2 == [true, false]) = true := by
  decide +kernel
theorem test_vcmp_signed : goes (.vcmpGtVI 1 1 0 0 0 0) (vhart 0 3 8 [(1, [1, 0, 0x80])] []) (fun t => maskBits t 1 3 == [true, false, false]) = true := by
  decide +kernel
/-- R276: vill set. -/
theorem test_vadd_vill : goes (.vaddVV 1 2 3 0 0 0 0) (hart []) (trapped 1 0) = true := by decide +kernel
/-- R277: a group of two at an odd register. -/
theorem test_vadd_group : goes (.vaddVV 1 2 4 0 0 0 0) (vhart 8 2 8 [] []) (trapped 1 0) = true := by decide +kernel
theorem test_vslup : goes (.vslupVI 1 2 1 0 0 0) (vhart 0 3 8 [(1, [9, 9, 9]), (2, [1, 2, 3])] []) (fun t => els t 8 1 3 == [0, 1, 2]) = true := by
  decide +kernel
theorem test_vsldn : goes (.vsldnVI 1 2 1 0 0 1) (vhart 0 3 8 [(2, [1, 2, 3])] []) (fun t => els t 8 1 3 == [2, 3, 0]) = true := by decide +kernel
theorem test_vcompress : goes (.vcompress 1 2 1 1) ((vhart 0 4 8 [(2, [1, 2, 3, 4])] []).modCur fun h => { h with vec := h.vec.setMask 1 0xA })
    (fun t => els t 8 1 2 == [2, 4]) = true := by decide +kernel
theorem test_vwmul : goes (.vwmul 2 4 5 0 0 0 0) (vhart 0 2 8 [(4, [0x80, 2]), (5, [0x80, 255])] []) (fun t => els t 16 2 2 == [0x4000, 0xFFFE]) = true := by
  decide +kernel
theorem test_vext : goes (.vextS2 2 4 0 0 0) (vhart 1 2 8 [(4, [0x80, 2])] []) (fun t => els t 16 2 2 == [0xFF80, 2]) = true := by decide +kernel
theorem test_mpopc : goes (.mpopc 24 1 1) ((vhart 0 5 8 [] []).modCur fun h => { h with vec := h.vec.setMask 1 0x35 }) (fun t => moved t == some 3) = true := by
  decide +kernel
theorem test_mfirst_none : goes (.mfirst 24 1 1) (vhart 0 5 8 [] []) (fun t => moved t == some (-1)) = true := by decide +kernel
theorem test_vredsum : goes (.vredSum 2 1 3 0 0 0 0) (vhart 0 3 8 [(1, [1, 2, 3]), (3, [250])] []) (fun t => els t 8 2 1 == [0]) = true := by decide +kernel
/-- R298: 1.5 + 2 = 3.5 in FP32. -/
theorem test_vfadd : goes (.vfaddVV 1 2 3 0 0 0 0) (vhart 2 1 32 [(2, [0x3FC00000]), (3, [0x40000000])] []) (fun t => els t 32 1 1 == [0x40600000]) = true := by
  decide +kernel
theorem test_vfadd_width : goes (.vfaddVV 1 2 3 0 0 0 0) (vhart 0 1 8 [] []) (trapped 1 0) = true := by decide +kernel

/-- The TOY8 entry of R60: q 241, psi 111, psiinv 76, ninv 211, lgn 3, valid. -/
def toyTable : Vector (BitVec 512) 64 := Vector.ofFn fun i => if i.val = 0 then
  1#512 <<< 511 ||| 3#512 <<< 256 ||| 211#512 <<< 192 ||| 76#512 <<< 128 ||| 111#512 <<< 64 ||| 241 else 0
def toy (vs : List (Nat × List Nat)) (xs : List (BitVec 5 × Word)) : State :=
  (vhart 2 8 32 vs xs).modCur fun h => { h with ct := { h.ct with mtab := toyTable } }
/-- The worked example of the chapter on vector modular arithmetic: both stages, the product and the stages back. -/
theorem test_vntt_stage0 : goes (.vntt 2 1 24 1) (toy [(1, [1, 2, 0, 0, 3, 0, 1, 0])] [(24, 0x200)])
    (fun t => els t 32 2 8 == [1, 2, 1, 2, 180, 0, 67, 0]) = true := by decide +kernel
theorem test_vntt_stage1 : goes (.vntt 3 2 25 1) (toy [(2, [1, 2, 1, 2, 180, 0, 67, 0])] [(25, 0x201)])
    (fun t => els t 32 3 8 == [61, 182, 17, 226, 180, 180, 67, 67]) = true := by decide +kernel
theorem test_vmmul : goes (.vmmulVV 5 3 4 0 0 0 0) (toy [(3, [61, 182, 17, 226]), (4, [180, 180, 67, 67])] [])
    (fun t => els t 32 5 4 == [135, 225, 175, 200]) = true := by decide +kernel
theorem test_vintt_stage1 : goes (.vintt 6 5 25 1) (toy [(5, [135, 225, 175, 200])] [(25, 0x201)])
    (fun t => els t 32 6 4 == [119, 238, 134, 27]) = true := by decide +kernel
theorem test_vintt_stage0 : goes (.vintt 7 6 24 1) (toy [(6, [119, 238, 134, 27])] [(24, 0x200)])
    (fun t => els t 32 7 4 == [3, 6, 1, 2]) = true := by decide +kernel
/-- R310's example: the gadget digits of 200. -/
theorem test_vdigit : goes (.vdigit 2 1 24 0 0 0) (toy [(1, [200])] [(24, 0x1204)]) (fun t => els t 32 2 1 == [238]) = true ∧
    goes (.vdigit 2 1 24 0 0 0) (toy [(1, [200])] [(24, 0x2204)]) (fun t => els t 32 2 1 == [4]) = true := by decide +kernel
/-- R58: an entry that is not valid. -/
theorem test_vmadd_invalid : goes (.vmaddVV 1 2 3 0 0 0 0) (vhart 2 1 32 [] []) (trapped 1 0) = true := by decide +kernel
/-- R317: row 0 of an accumulator moves to a vector register. -/
theorem test_tmvr : goes (.tmvr 3 0 22) ((vhart 2 32 32 [] []).modCur fun h => { h with vec := { h.vec with z := h.vec.z.setIfInBounds 0 0x500000007 } })
    (fun t => els t 32 3 3 == [7, 5, 0]) = true := by decide +kernel
/-- R314: only the hart of lane 0 owns the tile array. -/
theorem test_tzero_lane : goes (.tzero 0) ((vhart 0 1 8 [] []).modCur fun h => { h with lane0 := 4 }) (trapped 1 0) = true := by decide +kernel

/-- R325: -1 where no result will come. -/
theorem test_epop_empty : goes (.epop 29 1 3) (hart []) (fun t => t.cur.x 29 == -1 && t.cur.hook 3 == 1) = true := by decide +kernel
theorem test_epop_waits : goes (.epop 29 0 3) (flying (.copied [] (some 5)) (hart [])) (fun t => t.cur.hold.isSome && t.cur.x 29 == 0) = true := by
  decide +kernel
/-- R326: a barrier of no participants traps ILLEGAL with its word. -/
theorem test_bar_none : goes (.bar 1 1 1) (hart [(1, 7)]) (trapped 1 7) = true := by decide +kernel
theorem test_copy_align : goes (.copy 24 22 7) (vhart 2 1 32 [] [(22, 0x1000002), (24, 0x1000004)]) (trapped 3 0x1000002) = true := by decide +kernel
/-- R334: a cuff with its null bit set. -/
theorem test_slclose_null : goes (.slclose 4 1) (hart [(4, 0x100000000)]) (trapped 10 (1 + 256 * 4)) = true := by decide +kernel
theorem test_rpstat_gid : goes (.rpstat 4 5 1) (hart [(5, 0x10000)]) (trapped 1 0) = true := by decide +kernel
/-- R345: a descriptor's reserved bit 16 set. -/
theorem test_ctbind_res : goes (.ctBind 0 22 12) (hart [(12, 0x10000)]) (trapped 1 0x10000) = true := by decide +kernel
theorem test_ctwin_zero : goes (.ctWin 4) (hart [(4, 5)]) (trapped 1 5) = true := by decide +kernel
theorem test_ctadd_unbound : goes (.ctAdd 3 1 2 5) (hart []) (trapped 1 0) = true := by decide +kernel

/-- R388: the package limit stays between 600 and 2,400. -/
theorem test_pkglim : goes (.pkglim 9000) .reset (fun t => t.board.pkglim == 2400) = true := by decide +kernel
theorem test_stklim : goes (.stklim 3 50) .reset (fun t => t.board.stklim.toList == [250, 250, 250, 100, 250, 250, 250, 250]) = true := by decide +kernel
/-- R127: with THRIN asserted every stack runs at duty 4. -/
theorem test_thrin : goes .thrinAssert .reset (fun t => t.board.thrin && t.board.duty.toList == List.replicate 8 4) = true := by decide +kernel
/-- R183, R386: a boot without an image that verifies leaves BOOTST at 1. -/
theorem test_reset_fails : goes (.reset .verify) ((near []).bootTo 0) (fun t => t.board.bootst == 1) = true := by decide +kernel
/-- R386: a reset stops every hart, and BOOTST reads 0. -/
theorem test_reset_starts : goes (.reset (.start [])) (near []) (fun t => t.board.bootst == 0 && t.activeHarts == []) = true := by decide +kernel
/-- R382: writing ones to QSTAT's top bits clears its sticky flags. -/
theorem test_qstat : goes (.qstat 3 0x4000000000000000)
    { State.reset with sched := { State.reset.sched with queues := (State.reset.sched.queues.setIfInBounds 3 { Queue.reset with ovf := true, drop := true }) } }
    (fun t => (t.queue 3).ovf == false && (t.queue 3).drop) = true := by decide +kernel
/-- R103: a write to a launch window that is not bound is dropped and counted. -/
theorem test_launch_unbound : goes (.hostLaunchWrite 3 0 (List.replicate 64 0)) .reset (fun t => (t.queue 3).drop && (t.queue 3).dcnt == 1) = true := by
  decide +kernel
/-- R118, R404: a hooked fixed-latency result lands and posts. -/
theorem test_result_lands : goes (.fixedResultLanding 7) ((hart []).modCur fun h => { h with
    pend := [{ seq := 7, land := 3, dest := .x .user 5 99 false, lvl := .user, hook := 2 }] })
    (fun t => t.cur.x 5 == 99 && t.cur.hook 2 == 1 && t.cur.pend.map (·.done) == [true]) = true := by decide +kernel
/-- R180: an IDE integrity failure puts the world's TDI in ERROR. -/
theorem test_ide_failure : goes (.ideIntegrityFailure 5) .reset (fun t => (t.worlds.getD 5 .reset).tdi == .error) = true := by decide +kernel
/-- R384: a channel that runs gives no new value to BCCFG; the write is refused and counted. -/
theorem test_bccfg_runs : goes (.bccfg 2 1) { State.reset with bounce := (State.reset.bounce.setIfInBounds 2 { Bounce.reset with st := 1 }) }
    (fun t => (t.bounceCh 2).cfg == 0 && (t.worlds.getD 0 .reset).eviol == 1) = true := by decide +kernel
/-- R130: ω times ω². -/
theorem test_gf4 : gfMul 2 3 = 1 := by decide +kernel
/-- R131: a second slice that is to be erased takes the plane down. -/
theorem test_second_slice : goes (.planeControl 1 (.degraded 0 5 0)) { State.reset with fabric := { State.reset.fabric with
      planes := (State.reset.fabric.planes.setIfInBounds 0 { State.reset.plane 0 with up := true, erased := some 4 }) } }
    (fun t => (t.plane 0).up == false) = true := by decide +kernel
/-- R139: an acknowledgement takes the acknowledged packets off the sender's list. -/
theorem test_ack : goes (.ack 1 5) ({ State.reset with members := [0, 1] }.modPeer 1 fun p => { p with keyed := true, unacked := [(5, .ack 0), (6, .ack 0)] })
    (fun t => (t.peer 1).unacked.map (·.1) == [6]) = true := by decide +kernel

/-! States and operands that meet the hypotheses of the statements. -/

/-- A hart with STRICT set, so that the waits of STRICT have to pass (R119). -/
def strict (s : State) : State := s.modCur fun h => { h with strap := { h.strap with strict := true } }
/-- A hart at another level. -/
def atLevel (l : Level) (s : State) : State := s.modCur fun h => { h with level := l }
def withCsr (f : Csrs → Csrs) (s : State) : State := s.modCur fun h => { h with csr := f h.csr }
/-- The place in the stacks that the near table gives an address. -/
def stackAt (k : Nat) : Target := { home := .stack 0, key := k, lworld := 0, enc := 0, nonce := 0, gen := 0 }
def farAt (k : Nat) : Target := { home := .far 1, key := k, lworld := 0, enc := 0, nonce := 0, gen := 0 }
/-- The far hart with the answer to its read of 8 bytes at 0x2000008. -/
def answered (s : State) : State :=
  { s with farReqs := [{ id := 3, core := 0, ctx := 0, dev := 1, rid := 1, ask := .read 0x2000008 8, msg := .ack 0,
                         answer := some (.data [1, 2, 3, 4, 5, 6, 7, 8]) }] }
/-- A step that goes on. -/
theorem next_of {o : Out} (h : (match o with | .next _ => true | _ => false) = true) : ∃ t, o = .next t := by
  cases o <;> simp_all
/-- A test of a next state. -/
theorem next_with {o : Out} {p : State → Bool} (h : (match o with | .next t => p t | _ => false) = true) : ∃ t, o = .next t ∧ p t = true := by
  cases o <;> simp_all

theorem witness_StepKeepsMemory : MemInv ((hart []).withFetchWord 32 0x27200010) ∧ ∃ t, step ((hart []).withFetchWord 32 0x27200010) = .next t :=
  ⟨by unfold MemInv; decide +kernel, next_of (by decide +kernel)⟩
theorem witness_EncodeDecode : Instr.WellFormed (.wait 0 1 0) ∧ encode (.wait 0 1 0) = some 0x58601000 ∧
    Instr.WellFormed (.cAdd 23 21) ∧ (encodeCompact (.cAdd 23 21)).isSome = true := by decide +kernel
theorem witness_DecodeEncode : isPair 0x58601000 = false ∧ decode 0x58601000 false = .ok (.wait 0 1 0) ∧
    decode (pairWord (BitVec.ofNat 15 (0xC37ACB03 / 2 ^ 15)) 0) false = .ok (.cAdd 23 21) := by decide +kernel
theorem witness_StepRunsDecoded_issue :
    let s := (hart []).withFetchWord 32 0x27200010
    let v : State := { s with clock := s.clock + 1, free := s.free + 1, agenda := [] }
    s.inbox = [] ∧ s.agenda = [.issue 0] ∧ v.nextHart 0 = some v.cur ∧ (v.prepare v.cur).turnStart.isNone = true ∧
    (match (v.prepare v.cur).freed.fetch with | .word t w => w == 0x27200010 && decode w (t.cur.pc.getLsbD 1) == .ok (.lhi 25 0x10) | _ => false) = true := by
  decide +kernel
theorem witness_StepRunsDecoded_other :
    (let s := { State.reset with agenda := [.issue 0, .event .thrinAssert] }
     s.inbox = [] ∧ { s with clock := s.clock + 1, free := s.free + 1, agenda := [.event .thrinAssert] }.nextHart 0 = none) ∧
    (let s := { State.reset with agenda := [.event .thrinAssert] }; s.inbox = [] ∧ encode .thrinAssert = none ∧ encodeCompact .thrinAssert = none) ∧
    (State.reset.mem.wf = true ∧ decode (BitVec.ofNat 32 (0x58C00000 % 2 ^ 32)) false = .ok .halt) ∧
    (let s := (hart []).withFetchWord 32 0xFFFFFFFF
     (match s.fetch with | .word t w => (match decode w (t.cur.pc.getLsbD 1) with | .error _ => true | .ok _ => false) | _ => false) = true) ∧
    (let s := (hart []).modCur fun h => { h with pc := 0x100001 }
     (match s.fetch with | .trap t => t.code == 3 | _ => false) = true) ∧
    (let s := (far []).modCur fun h => { h with pc := 0x2000000 }; (match s.fetch with | .hold _ => true | _ => false) = true) := by
  decide +kernel
theorem witness_FetchReadsMemory :
    (let s := hart []
     s.cur.pc.getLsbD 0 = false ∧ ¬(s.cur.pc.getLsbD 1 = true ∧ isPair s.cur.ir = true) ∧ s.cur.ct.pools = [] ∧
     translate s s.cur s.cur.level (wordOf s.cur.pc) 4 .fetch true = .ok { home := .tcm, key := 2 ^ 48, lworld := 0, enc := 0, nonce := 0, gen := 0 } ∧
     Target.isFar { home := .tcm, key := 2 ^ 48, lworld := 0, enc := 0, nonce := 0, gen := 0 } = false) ∧
    (let s := (hart []).modCur fun h => { h with pc := 0x100002, ir := 0xC37ACB03 }
     s.cur.pc.getLsbD 0 = false ∧ s.cur.pc.getLsbD 1 = true ∧ isPair s.cur.ir = true) ∧
    (let s := (hart []).modCur fun h => { h with ct := { h.ct with pools := [(0x8000, 1)] } }
     (0x8000, 1) ∈ s.cur.ct.pools ∧ 0x8000 ≤ (wordOf s.cur.pc).toNat / 32 ∧ (wordOf s.cur.pc).toNat / 32 < 0x8000 + 1) ∧
    (let s := (hart []).modCur fun h => { h with pc := 0x101000 }
     (match translate s s.cur s.cur.level (wordOf s.cur.pc) 4 .fetch true with | .error _ => true | .ok _ => false) = true) := by
  decide +kernel

theorem witness_IntegerForms : Waited (strict (hart [])) [1, 2] := by unfold Waited; decide +kernel
theorem witness_ProductsAndDivisions : Waited (strict (hart [])) [31, 0] := by unfold Waited; decide +kernel
theorem witness_CompactForms : let s := strict (hart []); Waited s [s.cur.bank.ldest, 5] := by unfold Waited; decide +kernel
theorem witness_ScalarFloats : Waited (strict (hart [])) [1, 2, 3] ∧ (hart []).cur.rmCode < 5 ∧
    (let s := withCsr (fun c => { c with fcsr := 0xA0 }) (hart []); 5 ≤ s.cur.rmCode ∧ Waited s [1]) ∧ cvtAlwaysExact 0 4 ∧ cvtAlwaysExact 1 3 ∧ ¬cvtAlwaysExact 1 0 := by
  unfold Waited cvtAlwaysExact; decide +kernel
theorem witness_Loads_tcm : let s := strict (hart [(2, 0x100FF8)])
    let va := s.cur.x 2 + (0 : BitVec 9).signExtend 64 * BitVec.ofNat 64 8
    Waited s [2] ∧ va.toNat % 8 = 0 ∧ s.cur.tcmSize ≤ 0x40000 ∧ 0x100000 ≤ va.toNat ∧ va.toNat + 8 ≤ 0x100000 + s.cur.tcmSize ∧
    (s.drainFor (2 ^ 48 + s.cur.core * 2 ^ 18 + (s.cur.tcmOff + (va.toNat - 0x100000))) 8).cur.hold = none := by
  unfold Waited; decide +kernel
theorem witness_Loads_near : let s := strict (near [(2, 0x2000008)])
    Waited s [2] ∧ (s.cur.x 2).toNat % 8 = 0 ∧ translate s s.cur s.cur.level (s.cur.x 2) 8 .load true = .ok (stackAt 0x2000008) ∧
    (stackAt 0x2000008).isFar = false ∧ (stackAt 0x2000008).home ≠ .tcm ∧ s.rekeying (stackAt 0x2000008) = false ∧
    ((s.touch s.cur.world 0x2000008).drainFor 0x2000008 8).cur.hold = none := by
  unfold Waited; decide +kernel
theorem witness_Loads_far : let s := far [(2, 0x2000008)]
    Waited s [2] ∧ translate s s.cur s.cur.level (s.cur.x 2) 8 .load true = .ok (farAt 0x2000008) ∧ (farAt 0x2000008).isFar = true ∧
    (s.farNeed s.cur (farAt 0x2000008) 8 true false).isSome = true ∧
    (let r := answered s
     (r.farNeed r.cur (farAt 0x2000008) 8 true false).isNone = true ∧ r.asking r.cur = false ∧
     r.farRead r.cur (farAt 0x2000008) 8 .load 0x2000008 = .ok [1, 2, 3, 4, 5, 6, 7, 8] ∧
     (((((((r.touch r.cur.world 0x2000008).dropAsks r.cur).drainAcq).writeX 3 5 false).postNow 1).setLdest 3).retire).cur.hold = none) := by
  unfold Waited; decide +kernel
theorem witness_Loads_read :
    let s := { near [] with mem := (near []).mem.writePoison 0x2000008 8 }
    (stackAt 0x2000008).erased s 0 = false ∧
    (∃ k, Touches (stackAt 0x2000008).key 8 k ∧ s.mem.poisoned k = true) ∧ ∀ k, Touches (stackAt 0x3000000).key 8 k → s.mem.poisoned k = false := by
  refine ⟨by decide +kernel, ⟨0x2000008, ⟨0, by decide, by decide⟩, by decide +kernel⟩, ?_⟩
  rintro k ⟨j, hj, e⟩
  have h : k / 8 = 0x3000000 / 8 := by rw [← e]; show (0x3000000 + j) / 8 = _; omega
  have p : (near []).mem.poison = [] := by decide +kernel
  show ((near []).mem.writePoison 0x2000008 8).poisoned k = false
  simp [Memory.poisoned, h]
  decide +kernel
/-- The place of bytes of the scratchpad slice. -/
def spadAt (o : Nat) : Target := { home := .spad, key := spadKey 0 o, lworld := 0, enc := 0, nonce := 0, gen := 0 }

/-- Outside element mode nothing is claimed (R176). -/
theorem claim_plain (s : State) (t : Target) (n : Nat) (h : t.enc = 0) : claimTarget s t n = .ok s := by simp [claimTarget, h]

theorem witness_Stores : let s := strict (near [(2, 0x2000008)])
    let u := s.touch s.cur.world 0x2000008
    (Waited s [2, 3] ∧ (s.cur.x 2).toNat % 8 = 0 ∧ translate s s.cur s.cur.level (s.cur.x 2) 8 .store true = .ok (stackAt 0x2000008) ∧
    (stackAt 0x2000008).isFar = false ∧ s.rekeying (stackAt 0x2000008) = false ∧ (u.drainFor 0x2000008 8).cur.hold = none) ∧
    claimTarget u (stackAt 0x2000008) 8 = .ok u :=
  ⟨by unfold Waited; decide +kernel, claim_plain _ _ _ rfl⟩
theorem witness_Stores_checks :
    (let s := near [(2, 0x500000)]; Waited s [2] ∧ ¬(0x100000 ≤ (s.cur.x 2).toNat ∧ (s.cur.x 2).toNat < 0x100000 + s.cur.tcmSize) ∧
      translate s s.cur s.cur.level (s.cur.x 2) 8 .load true = .error { code := 5, cause := 8, detail := 0x500000 } ∧
      translate s s.cur s.cur.level (s.cur.x 2) 8 .store true = .error { code := 5, cause := 8, store := true, detail := 0x500000 }) ∧
    (let s := near [(2, 0x100002)]; (s.cur.x 2).toNat % 4 ≠ 0 ∧ 0x100000 ≤ (s.cur.x 2).toNat ∧ (s.cur.x 2).toNat < 0x100000 + s.cur.tcmSize) := by
  unfold Waited; decide +kernel
/-- World 0 with one region in element mode and its granule, the table's leaf in element mode; the unit at 0x2000008 is written. -/
def element (l : List (BitVec 5 × Word)) : State :=
  let s := near l
  { s with
    mem := { s.mem.writeClean 0 [0x3F, 0x80, 0, 0, 0, 0, 0, 0] with written := [0x2000008 / 4], granules := [(0x200, 0x0200)] }
    worlds := (s.worlds.setIfInBounds 0 { World.reset with regions := [{ valid := true, base := 0x200, size := 1, nonce := 7, gen := 0 }] }) }
theorem witness_Stores_written : let s := element [(2, 0x2000008)]
    let t : Target := { home := .stack 0, key := 0x2000008, lworld := 0, enc := 2, nonce := 7, gen := 0 }
    translate s s.cur s.cur.level (s.cur.x 2) 8 .store true = .ok t ∧ t.isFar = false ∧ s.rekeying t = false ∧
    claimTarget (s.touch s.cur.world 0x2000008) t 8 = .error 0 ∧ claimTarget (s.touch s.cur.world 0x2000008) t 4 = .error 0 := by
  decide +kernel
theorem witness_Atomics : let s := strict (near [(2, 0x1000008)])
    let u := (s.drainAll true).touch s.cur.world 0x1000008
    (Waited s [2, 3, 1] ∧ (s.cur.x 2).toNat % 8 = 0 ∧ translate s s.cur s.cur.level (s.cur.x 2) 8 .load true = .ok (spadAt 8) ∧
    translate s s.cur s.cur.level (s.cur.x 2) 8 .store true = .ok (spadAt 8) ∧
    translate s s.cur s.cur.level (s.cur.x 2) 8 .atomic true = .ok (spadAt 8) ∧ (spadAt 8).isFar = false ∧ s.rekeying (spadAt 8) = false ∧
    (s.drainAll true).rekeying (spadAt 8) = false ∧ SysClear s 5 ∧ u.cur.hold = none ∧ (u.drainFor (spadAt 8).key 8).cur.hold = none) ∧
    claimTarget u (spadAt 8) 8 = .ok u :=
  ⟨by unfold Waited SysClear; decide +kernel, claim_plain _ _ _ rfl⟩
theorem witness_FencesAndSysScope :
    (let s := (near [(2, 0x1000008)]).modCur fun h => { h with lateAck := [{ lvl := .user, hook := 3, trap := { code := 5, cause := 12 } }] }
     Waited s [2, 3] ∧ translate s s.cur s.cur.level (s.cur.x 2) 8 .store true = .ok (spadAt 8) ∧ s.cur.lateAck = { lvl := .user, hook := 3, trap := { code := 5, cause := 12 } } :: []) ∧
    (let s := flying (.farStore [(1, 0)] 0x2000008) (near [(2, 0x1000008)])
     translate s s.cur s.cur.level (s.cur.x 2) 8 .atomic true = .ok (spadAt 8) ∧ s.cur.lateAck = [] ∧ s.unacked = true) ∧
    SysClear (hart []) 5 ∧ SysClear (flying (.farStore [(1, 0)] 0x2000008) (near [])) 4 := by
  unfold Waited SysClear; decide +kernel
theorem witness_OperationsEnd :
    (let s := flying (.load (spadAt 8) 8 false { lvl := .user, r := 3, live := true }) (near [])
     (s.opById 9).map (·.kind) = some (.load (spadAt 8) 8 false { lvl := .user, r := 3, live := true }) ∧ s.hartAt 0 0 = some s.cur ∧ Near (spadAt 8)) ∧
    (let s := flying (.store { target := stackAt 0x2000000, data := [1, 2], poison := true }) (near [])
     (s.opById 9).isSome = true ∧ Near (stackAt 0x2000000) ∧ s.mem.wf = true ∧ (stackAt 0x2000000).enc = 0) ∧
    (let s := flying (.divide true 5 8 false { lvl := .user, r := 3, live := false }) (near []); (s.opById 9).isSome = true ∧ s.hartAt 0 0 = some s.cur) ∧
    (let s := flying (.atomic (some .cas) (spadAt 8) 1 0 false { lvl := .user, r := 3, live := true }) (near [])
     (s.opById 9).isSome = true ∧ s.mem.wf = true) ∧
    (let s := (hart []).modCur fun h => { h with pend := [{ seq := 7, land := 3, dest := .x .user 5 99 false, lvl := .user, hook := 2 }] }
     (s.harts.find? fun g => g.pend.any fun q => q.seq == 7 && q.hook != 0 && !q.done) = some s.cur ∧ s.hartAt 0 0 = some s.cur) ∧
    (let s := flying (.vector 1 none [] [] [] none [] []) (near []); ∃ o ∈ s.ops, s.opById o.id = some o ∧ s.viqHead o = true ∧ s.hartAt o.core o.ctx = some s.cur) ∧
    (let s := flying (.icinv 0x100000 64 2) (near []); ∃ o ∈ s.ops, s.opById o.id = some o) := by
  unfold Near; decide +kernel
theorem witness_BranchesJumpsLoops :
    Waited (strict (hart [])) [1, 2] ∧ ((hart [(2, 0x100004)]).cur.x 2 + (0 : BitVec 16).signExtend 64).toNat % 4 = 0 ∧
    ((hart [(2, 0x100006)]).cur.x 2 + (0 : BitVec 16).signExtend 64).toNat % 4 ≠ 0 ∧
    (let e : LoopEntry := { count := 1, stop := 0x100010, start := 0x100004, fixed := false, lvl := 0 }
     let s := (hart []).modCur fun h => { h with user := { h.user with nest := List.replicate 6 e } }
     6 ≤ s.cur.bank.nest.length ∧ (∃ x r, s.cur.bank.nest = x :: r ∧ x.stop.toNat < 0x100014) ∧ ¬((0x10000C : Word).toNat > e.stop.toNat)) ∧
    ((hart []).cur.bank.nest.length < 6 ∧ (hart []).cur.csr.lcnt.getD 5 0 = 1) := by
  refine ⟨by unfold Waited; decide +kernel, by decide +kernel, by decide +kernel, ⟨by decide +kernel, ⟨_, _, rfl, by decide +kernel⟩, by decide +kernel⟩, by decide +kernel⟩
theorem witness_HooksAndDelay : Waited (strict (hart [])) [2] ∧
    (let s := hart [(2, 1)]; s.cur.waitTrap 1 = none ∧ (s.cur.hook 1 - ((s.cur.x 2).setWidth 32 + (0 : BitVec 12).signExtend 32)).toInt < 0 ∧
      0 ≤ (s.cur.hook 1 - ((s.cur.x 2).setWidth 32 + (0xFFF : BitVec 12).signExtend 32)).toInt) ∧
    (let s := (hart []).modCur fun h => { h with faults := [{ chan := .copy, lvl := .user, hook := 1, trap := { code := 11 } }] }
     s.cur.waitTrap 1 = some { code := 11 }) := by
  unfold Waited; decide +kernel
theorem witness_SoftwareTraps : (∀ o ∈ (hart []).ops, ¬(o.core = (hart []).cur.core ∧ o.ctx = (hart []).cur.ctx)) ∧ (hart []).farReqs = [] ∧
    (∃ o ∈ (flying (.rpstat 1 { lvl := .user, r := 1, live := true }) (hart [])).ops, o.core = 0 ∧ o.ctx = 0) := by
  decide +kernel
theorem witness_TrapEntry : (hart []).cur.lateAck = [] ∧ (hart []).cur.level = .user ∧ (atLevel .supervisor (hart [])).cur.lateAck = [] := by decide +kernel
theorem witness_TrapReturn : (hart []).cur.level = .user ∧ (atLevel .machine (hart [])).cur.level ≠ .user ∧ (hart []).cur.hold = none ∧
    ((hart []).modCur fun h => { h with alarm := some 2 }).cur.alarm = some 2 ∧
    ((hart []).modCur fun h => { h with preempt := true }).cur.preempt = true ∧ ((hart []).modCur fun h => { h with timer := true }).cur.timer = true ∧
    (atLevel .supervisor (hart [])).cur.strap.ie = false := by decide +kernel
theorem witness_CsrAccess :
    (let s := hart []; csrReach s.cur.level 0x0FF = true ∧ csrReach s.cur.level 0x100 = false ∧ csrReach s.cur.level 0x3C0 = true ∧
      s.csrValue 0x000 = some 0 ∧ s.csrValue 0x0FF = none) ∧
    (let s := atLevel .supervisor (hart []); csrReach s.cur.level 0x105 = true ∧ csrReach s.cur.level 0x300 = false ∧ s.cur.level ≠ .user ∧
      Waited s [1] ∧ csrReach s.cur.level 0x140 = true) ∧
    (let s := strict (hart []); s.awaitsCsr 0x026 = false) := by
  unfold Waited; decide +kernel
theorem witness_CsrEffects_levels :
    (let s := hart []; s.cur.level = .user ∧ s.cur.level ≠ .machine ∧ csrReach s.cur.level 0x00A = true ∧ s.csrValue 0x0FF = none) ∧
    (let s := atLevel .machine (hart []); s.cur.level = .machine ∧ s.spresCheck 0 0xFF80000000000000 = 0 ∧
      s.spresCheck 0 0x400000000000 ≠ 0 ∧ Waited s [3]) ∧
    csrReadOnly 0x050 = true := by
  unfold Waited; decide +kernel
theorem witness_CsrEffects_rekey :
    (let s := atLevel .supervisor (element [])
     let x := s.worlds.getD 0 .reset
     x.rgkey = none ∧ x.regions[0]? = some { valid := true, base := 0x200, size := 1, nonce := 7, gen := 0 } ∧ x.regions[1]? = none) ∧
    (let r : ElemRegion := { valid := true, base := 0x200, size := 1, nonce := 7, gen := 0xFFFFFFFF }
     let t : Target := { home := .stack 0, key := 0x2000008, lworld := 0, enc := 2, nonce := 7, gen := 0 }
     let s := flying (.load t 8 false { lvl := .user, r := 3, live := true }) (element [])
     let u := { s with worlds := (s.worlds.setIfInBounds 0 { World.reset with regions := [r], rgkey := some (0, 10), nonceCtr := 2 ^ 55, tlbinv := some 1 }) }
     let x := u.worlds.getD 0 .reset
     x.rgkey = some (0, 10) ∧ x.regions[0]? = some r ∧ u.regionBusy r 10 = true ∧ r.gen = 0xFFFFFFFF#32 ∧ 2 ^ 55 ≤ x.nonceCtr ∧
     { u with ops := [] }.regionBusy r 10 = false ∧ x.tlbinv = some 1) := by
  decide +kernel
theorem witness_CsrEffects_tables :
    (let v : Word := 0x2000001
     let s := atLevel .supervisor (near [])
     let u := { s with mem := s.mem.writeClean 0x2000000 (toBytes 8 (5 * 2 ^ 14 + 3)) }
     u.readDwords (v &&& ~~~(0xFFF#64)) (v.extractLsb' 0 12).toNat = .ok [5 * 2 ^ 14 + 3]) ∧
    1024 < ((0x2000401 : Word).extractLsb' 0 12).toNat ∧ 64 < ((0x2000041 : Word).extractLsb' 0 7).toNat ∧
    (let s := atLevel .supervisor (near [])
     s.readDwords 0x2000000 4 = .ok [0, 0, 0, 0] ∧ (entries4 [0, 0, 0, 0]).filter (fun d => (d.getD 0 0).getLsbD 0) = [] ∧
     (match s.rgStore 0x2000000 ((rgAssign s.device 0 (entries4 [0, 0, 0, 0])).1.map (·.2)) with | .ok _ => true | .error _ => false) = true) ∧
    (511 < 512 ∧ 2 ^ 55 - 1 + [[(1 : Word), 1, 0, 0]].length ≤ 2 ^ 55) := by
  decide +kernel
/-- A launch packet: entry 0x100000, one iteration, no loop table, queue 1, world 0, class 0, 4 KiB of TCM, 4 lanes, one hart a core. -/
def packet : BitVec 512 := 0x100000 ||| 1#512 <<< 64 ||| (1#512 <<< 56 ||| 1#512 <<< 24 ||| 1#512 <<< 16) <<< 192
def bound (n : Nat) : Queue := { Queue.reset with bound := true, slots := List.replicate n { packet, tenq := 0, num := 0 }, count := n }
def withQueue (q : Queue) (s : State) : State := { s with sched := { s.sched with queues := (s.sched.queues.setIfInBounds 1 q) } }
def task : Task := { queue := 0, num := 0, world := 0, cls := 0, packet, left := 1, ended := 0, tenq := 0, tstart := 0, unmeasured := false,
                     poisoned := false, profiles := 0, npois := 0, ecorr0 := 0, eunc0 := 0, elink0 := 0 }
def withTask (k : Task) (s : State) : State := { s with sched := { s.sched with tasks := [k] } }
def place0 : Place := { core := 0, ctx := 0, lane0 := 0, tcm := 0, spad := 0 }
def parked0 : Parked := { queue := 0, num := 0, ord := 0, world := 0, cls := 0, lanes := 4, tcmSize := 4096, spadSize := 0, sresume := 64, disp := 0,
                          tile := true, ptab := CtRegs.reset.ptab }

theorem witness_HaltLaunchIdle :
    (let s := flying (.rpstat 1 { lvl := .user, r := 1, live := true }) (hart []); s.drained s.cur = false) ∧
    (let s := (hart []).modCur fun h => { h with faults := [{ chan := .copy, lvl := .user, hook := 1, trap := { code := 11 } }] }
     s.drained s.cur = true ∧ s.cur.landAll.faults = { chan := .copy, lvl := .user, hook := 1, trap := { code := 11 } } :: []) ∧
    (let s := atLevel .supervisor (withCsr (fun c => { c with sresume := 64 }) (hart []))
     s.drained s.cur = true ∧ s.cur.landAll.faults = [] ∧ s.cur.landAll.lateAck = [] ∧ s.cur.level = .supervisor ∧ s.cur.csr.sresume ≠ 0) ∧
    (let s := withTask task (hart []); s.taskOf s.cur = some task ∧ task.left ≤ 1 ∧ s.cur.level = .user) ∧
    (let s := withTask { task with left := 2 } (hart []); s.taskOf s.cur = some { task with left := 2 } ∧ 1 < 2) := by
  decide +kernel
theorem witness_HaltLaunchIdle_launch :
    (let s := strict (withQueue (bound 63) { hart [(2, 0x100040)] with mem := State.reset.mem.writeClean (2 ^ 48 + 64) (toBytes 64 packet.toNat) })
     let va := s.cur.x 2
     let p := BitVec.ofNat 512 (ofBytes ((s.drainAll false).tcmBytes va 64))
     Waited s [2] ∧ 0x100000 ≤ va.toNat ∧ va.toNat + 64 ≤ 0x100000 + s.cur.tcmSize ∧ va.toNat % 64 = 0 ∧ p = packet ∧
     (s.drainAll false).packetCheck p (some s.cur.world) = 0 ∧ ((s.drainAll false).queue (pkQueue p)).slots.length < 64 ∧ (s.drainAll false).cur.hold = none) ∧
    (let s := hart [(2, 0x100FC0)]; let va := s.cur.x 2
     va.toNat + 64 ≤ 0x100000 + s.cur.tcmSize ∧ (s.drainAll false).packetCheck (BitVec.ofNat 512 (ofBytes ((s.drainAll false).tcmBytes va 64))) (some s.cur.world) ≠ 0) ∧
    ¬((0x100FC1 : Word).toNat + 64 ≤ 0x100000 + (hart []).cur.tcmSize) ∧ 64 ≤ ((withQueue (bound 64) (hart [])).queue 1).slots.length := by
  unfold Waited; decide +kernel
theorem witness_ContextImages :
    (let s := atLevel .supervisor (withCsr (fun c => { c with held := true }) (near [(2, 0x2000000)]))
     s.cur.level = .supervisor ∧ s.cur.strap.pl = .user ∧ s.cur.csr.held = true ∧ Waited s [2] ∧ (s.cur.x 2).extractLsb' 2 4 = 0 ∧
     s.drained s.cur = true ∧ s.opsOf s.cur = [] ∧ s.asking s.cur = false ∧
     s.ctxTargets .load (blockPieces 0x2000000 256) = .ok [stackAt 0x2000000] ∧ s.ctxRead (blockPieces 0x2000000 256) [stackAt 0x2000000] = .ok (List.replicate 256 0) ∧
     s.headerReason (List.replicate 256 0).toArray ≠ 0) ∧
    (hart []).cur.level ≠ .supervisor ∧ ((hart [(2, 0x2000004)]).cur.x 2).extractLsb' 2 4 ≠ 0 ∧
    (let s := flying (.ctxsave []) (near []); (s.opById 9).isSome = true ∧ s.hartAt 0 0 = some s.cur) := by
  unfold Waited; decide +kernel
theorem witness_HostLaunches :
    (let s := withQueue (bound 63) State.reset
     (s.queue 1).bound = true ∧ (s.queue 1).slots.length < 64 ∧ (toBytes 64 packet.toNat).length = 64 ∧
     s.packetCheck (BitVec.ofNat 512 (ofBytes (toBytes 64 packet.toNat))) none = 0 ∧ pkQueue (BitVec.ofNat 512 (ofBytes (toBytes 64 packet.toNat))) = 1 ∧
     s.packetCheck (BitVec.ofNat 512 (ofBytes (List.replicate 64 0))) none ≠ 0) ∧
    64 ≤ ((withQueue (bound 64) State.reset).queue 1).slots.length ∧ (State.reset.queue 255).bound = false := by
  decide +kernel
theorem witness_Dispatching :
    (let s := withQueue (bound 1) State.reset
     onDispatcher 0 [place0] = true ∧ s.refusedHead 0 = none ∧
     (match s.chooseHead 0 with | some (c, q, _) => c == 0 && q == 1 | none => false) = true ∧
     s.headReady 1 = some ({ packet, tenq := 0, num := 0 }, { args := 0, levels := [(0, 1)] }, true) ∧ s.nextParked 0 = none ∧ (s.reclaimHead 0).isNone = true ∧
     s.placeOk 1 0 0 4 4096 0 place0 = true ∧
     (s.startTask 1 { packet, tenq := 0, num := 0 } { args := 0, levels := [(0, 1)] } [place0]).isSome = true) ∧
    (let s := withQueue { bound 1 with slots := [{ packet := packet ||| 64#512 <<< 128, tenq := 0, num := 0 }] } State.reset
     (s.refusedHead 0).isSome = true) ∧
    (let s := State.reset; s.refusedHead 8 = none ∧ (s.chooseHead 8).isNone = true) := by
  decide +kernel
theorem witness_HartAndTaskEvents :
    (let s := (hart []).modCur fun h => { h with hold := some (.trap { code := 1 }) }
     s.hartAt (0 / 8) (0 % 8) = some s.cur ∧ s.cur.active = true ∧ (s.select 0 0).cur.hold = some (.trap { code := 1 }) ∧
     (s.select 0 0).released (s.select 0 0).cur (.trap { code := 1 }) = true) ∧
    (let s := (hart []).modCur fun h => { h with preempt := true }; s.cur.hold = none ∧ s.cur.asyncTrap.isSome = true) ∧
    ((hart []).modCur fun h => { h with hold := some (.idle 0) }).cur.hold = some (.idle 0) ∧
    (let s := withQueue { bound 1 with cls := 3 } State.reset
     (s.queue 1).bound = true ∧ (s.queue 1).cls = 3 ∧ (s.queue 1).slots ≠ [] ∧ (s.queue 1).promoted = false) ∧
    (let s := withTask { task with cls := 1 } ((hart []).modCur fun h => { h with preempted := true })
     s.hartNo 0 = some s.cur ∧ s.taskOf s.cur = some { task with cls := 1 } ∧ s.cur.active = true ∧ s.cur.preempted = true ∧
     s.sched.tasks.find? (fun t => t.queue == 0 && t.num == 0) = some { task with cls := 1 } ∧ (s.harts.map fun h => (h.core, h.ctx)).Nodup) ∧
    (let s := { State.reset with sched := { State.reset.sched with parked := [parked0] } }
     ((List.range 4).flatMap fun c => s.sched.parked.filter fun p => p.disp == 0 && p.cls == c) = [] ++ parked0 :: [] ∧
     (s.parkedGroup parked0).length = [place0].length ∧ (s.chooseHead 0).isNone = true ∧ s.parkedFit (s.stillHeld parked0) [] (s.parkedGroup parked0) = true ∧ (s.resumeAt (s.stillHeld parked0) [] ((s.parkedGroup parked0).zip [place0])).isSome = true ∧
     (s.resumeAt true [] [(parked0, place0)]).isSome = true ∧ (s.resumeAt false [(parked0, { place0 with core := 1 })] [(parked0, place0)]).isSome = true) := by
  decide +kernel
/-- A class-0 head that needs all 96 cores of stack 0, its loop table at 0x2000000, while a hart of a class-1 task holds core 0. -/
def crowded : State :=
  let s := near []
  let u := { s with mem := s.mem.writeClean 0x2000008 (toBytes 8 1 ++ toBytes 8 (2 ^ 62 + 96)) }
  withTask { task with cls := 1 } (withQueue { bound 1 with slots := [{ packet := crowd, tenq := 0, num := 0 }] } (u.modCur fun h => { h with lanes := 32 }))
where crowd : BitVec 512 := 0x100000 ||| 96#512 <<< 64 ||| 0x2000000#512 <<< 128 ||| (1#512 <<< 56 ||| 1#512 <<< 24 ||| 1#512 <<< 16) <<< 192
theorem witness_HartAndTaskEvents_yield :
    [0].map crowded.hartNo = [crowded.cur].map some ∧
    (match (crowded.starvedHeads 0).find? (crowded.savesFor 0 [crowded.cur]) with
      | some (q, slot, lt) => q == 1 && (crowded.yieldVictims 0 q slot.packet lt).isNone && (crowded.saveVictims 0 q slot.packet lt == some [crowded.cur]) &&
          crowded.resourcesFreeIf (fun h => if h.among [crowded.cur] || h.preempt || h.preempted then 0 else h.lanes) 0 q slot.packet lt
      | none => false) = true := by decide +kernel
/-- The same hart has marked lanes: all but four of its panel, which its refresh of the marks lets it keep, go to the head. -/
def yielding : State := crowded.modCur fun h => { h with yMark := true, csr := { h.csr with vtype := 0 } }
def spread : List Place := (List.range 96).map fun i => if i = 0 then { core := 0, ctx := 1, lane0 := 4, tcm := 4096, spad := 0 } else { place0 with core := i }
/-- The elements of an access of n bytes each from an address of the near table on. -/
def nearEls (base n : Nat) (idx : List Nat) : List VElem :=
  idx.map fun i => { idx := i, va := BitVec.ofNat 64 (base + n * i), t := stackAt (base + n * i) }
/-- The same in the scratchpad slice. -/
def spadEls (o n : Nat) (idx : List Nat) : List VElem :=
  idx.map fun i => { idx := i, va := BitVec.ofNat 64 (0x1000000 + o + n * i), t := spadAt (o + n * i) }
/-- A vector hart with the near table. -/
def vnear (vt : Half) (vl : Nat) (xs : List (BitVec 5 × Word)) : State :=
  withCsr (fun c => { c with vtype := vt, vl := BitVec.ofNat 64 vl }) (near xs)

theorem witness_VectorSettings :
    Waited (strict (hart [])) [1, 2] ∧ ((hart []).drainAll false).cur.claimed = 0 ∧ ((hart []).drainAll false).cur.former = none ∧
    (let v := (((hart []).modCur fun h => { h with lanes := 32, claimed := 16 }).useX [2]).drainAll false
     v.cur.claimed ≠ 0 ∧ v.refreshing v.cur = false ∧ v.cur.lanes ∈ [4, 8, 16, 32]) ∧ (207 : BitVec 8).toNat < 208 ∧
    (strict (vhart 2 8 32 [] [])).cur.csr.vtype.getLsbD 31 = false := by
  unfold Waited; decide +kernel
theorem witness_VectorArithmetic : let s := strict (vhart 8 4 8 [] [])
    s.cur.vcfg.g = 2 ∧ VecReady s [5] [(2, 2), (30, 2), (4, 2)] := by
  unfold VecReady VecReadyAt Waited; decide +kernel
theorem witness_VectorCarriesAndCompares : let s := strict (vhart 0x18 4 8 [] [])
    s.cur.vcfg.g = 8 ∧ VecReady s [5] [(8, 8), (24, 8), (0, 8)] := by
  unfold VecReady VecReadyAt Waited; decide +kernel
theorem witness_VectorRules :
    (hart []).cur.csr.vtype.getLsbD 31 = true ∧ (let s := withCsr (fun c => { c with vstart := 1 }) (vhart 0 4 8 [] []); s.cur.csr.vstart ≠ 0 ∧ Waited s [5]) ∧
    (let s := vhart 8 4 8 [] []; ¬((3 : BitVec 5).toNat % s.cur.vcfg.g = 0)) ∧
    (let s := vhart 0 4 8 [] []
     let u := { s with ops := ((flying (.vector 0 none [] [] [] none [] []) s).ops.flatMap fun o => List.replicate 32 o) }
     u.cur.csr.vtype.getLsbD 31 = false ∧ u.cur.csr.vstart = 0 ∧ 32 ≤ u.viqLength) ∧
    (let c := (vhart 0x18 5 8 [] []).cur.vcfg; c.p ∈ [4, 8, 16, 32] ∧ 8 ∈ [8, 16, 32, 64] ∧ 24 + 8 ≤ 32 ∧ c.vl ≤ 65536 ∧ c.vstart ≤ c.vl) := by
  unfold Waited; decide +kernel
theorem witness_VectorPermutes : let s := strict (vhart 8 4 8 [] [])
    Apart (2, 2) [(4, 2), (0, 2)] ∧ VecReady s [5] [(2, 2), (4, 2), (0, 2)] := by
  unfold Apart VecReady VecReadyAt Waited; decide +kernel
theorem witness_VectorWidths : let s := strict (vhart 0x12 4 32 [] [])
    s.cur.vcfg.sew = 32 ∧ s.cur.vcfg.g = 4 ∧ Apart (8, 8) [(0, 4), (4, 4)] ∧ VecReady s [5] [(8, 8), (0, 4), (4, 4)] := by
  unfold Apart VecReady VecReadyAt Waited; decide +kernel
theorem witness_VectorWidths_narrow : let s := strict (vhart 0x12 4 32 [] [])
    Apart (4, 4) [(8, 8)] ∧ VecReady s [5] [(4, 4), (8, 8)] ∧ 8 * 4 ≤ s.cur.vcfg.sew ∧ Apart (4, 4) [(0, max 1 (4 / 4))] := by
  unfold Apart VecReady VecReadyAt Waited; decide +kernel
theorem witness_VectorWidths_illegal :
    (let s := vhart 0x1A 4 32 [] []; VecReady s [] [] ∧ 4 < s.cur.vcfg.g) ∧ (let s := vhart 3 4 64 [] []; VecReady s [] [] ∧ 32 < s.cur.vcfg.sew) := by
  unfold VecReady VecReadyAt Waited; decide +kernel
theorem witness_MasksAndMoves : let s := strict (vhart 8 4 8 [] [])
    VecReady s [] [] ∧ VecReady s [5] [(4, s.cur.vcfg.g)] ∧ VecReady s [] [(2, s.cur.vcfg.g), (4, s.cur.vcfg.g)] := by
  unfold VecReady VecReadyAt Waited; decide +kernel
theorem witness_VectorFloats : let s := strict (vhart 0xA 4 32 [] [])
    formatAt false s.cur.vcfg.sew = some fmtS ∧ VecReady s [5] [(2, 2), (4, 2), (6, 2)] ∧ formatAt true s.cur.vcfg.sew = none ∧
    s.cur.asyncTrap = none := by
  unfold VecReady VecReadyAt Waited; decide +kernel
theorem witness_VectorFloats_formats :
    (let s := vhart 1 4 16 [] []; formatAt true s.cur.vcfg.sew = some fmtB ∧ formatAt false s.cur.vcfg.sew = some fmtH) ∧
    (let s := vhart 3 4 64 [] []; formatAt false s.cur.vcfg.sew = some fmtD) ∧ (let s := vhart 0 4 8 [] []; formatAt false s.cur.vcfg.sew = none) := by
  decide +kernel
theorem witness_VectorFloats_powers : let s := strict (vhart 0xA 4 32 [] [])
    s.cur.vcfg.sew = 32 ∧ s.cur.vcfg.g ≤ 4 ∧ (30 : BitVec 5).toNat + max 1 (s.cur.vcfg.g / 4) ≤ 31 ∧
    Apart (2, 2) [(0, max 1 (2 / 2)), (30, max 1 (2 / 4) + 1)] ∧ VecReady s [] [(2, 2), (0, 1), (30, 1)] := by
  unfold Apart VecReady VecReadyAt Waited; decide +kernel
theorem witness_VectorFloats_convert : let s := strict (vhart 3 4 64 [] [])
    let src := cvtFrom 1
    let dst := cvtTo s.cur.vcfg.sew false
    let n := max 1 (s.cur.vcfg.g * src.width / s.cur.vcfg.sew)
    src ≠ dst ∧ ¬(src.isInt = true ∧ dst.isInt = true) ∧ s.cur.vcfg.sew ≤ 4 * src.width ∧ src.width ≤ 4 * s.cur.vcfg.sew ∧
    s.cur.vcfg.g * src.width ≤ 8 * s.cur.vcfg.sew ∧ Apart (2, s.cur.vcfg.g) [(4, n)] ∧ VecReady s [] [(2, s.cur.vcfg.g), (4, n)] := by
  unfold Apart VecReady VecReadyAt Waited; decide +kernel
/-- The entry as an instruction captures it (R60). -/
def toyEntry : ModEntry := { q := 241, psi := 111, psiinv := 76, ninv := 211, lgn := 3, a := 8 }
theorem witness_ModularArithmetic : let s := strict (toy [] [])
    s.captured = some toyEntry ∧ toyEntry.a ≤ s.cur.vcfg.sew ∧ VecReady s [5] [(2, 1), (4, 1), (6, 1)] ∧ s.cur.vcfg.g = 1 ∧
    (vhart 2 8 32 [] []).captured = none ∧ VecReady (vhart 2 8 32 [] []) [] [] := by
  unfold VecReady VecReadyAt Waited; decide +kernel
theorem witness_ModularArithmetic_mtld : let s := vnear 2 8 [(2, 0x1000000)]
    let els := spadEls 0 64 (List.range 64)
    let u := movingAt ((s.touchAll els).beforeVector true)
    VecReady s [2] [] ∧ Local s els ∧ u.cur.hold = none ∧ u.viqLength < 32 ∧ (s.cur.x 2).toNat % 64 = 0 ∧
    Places s 64 .load (fun i => s.cur.x 2 + BitVec.ofNat 64 (64 * i)) (List.range 64) els ∧
    (∀ i < 64, (ofBytes (u.readAt u.cur.world (spadAt (64 * i)) 64).1) = 0) := by
  unfold VecReady VecReadyAt Waited Local Places movingAt; decide +kernel
theorem witness_ModularTransforms : let s := strict (toy [] [(24, 0x200)])
    let w := s.cur.x 24
    let field (lo n : Nat) : Nat := w.toNat / 2 ^ lo % 2 ^ n
    s.captured = some toyEntry ∧ toyEntry.a ≤ s.cur.vcfg.sew ∧ field 8 5 ≤ toyEntry.lgn ∧ 0 < toyEntry.q ∧ VecReady s [24] [(2, 1), (1, 1)] ∧ Apart (2, s.cur.vcfg.g) [(1, s.cur.vcfg.g)] ∧
    field 13 51 = 0 ∧ field 5 3 = 0 ∧ field 0 5 < field 8 5 ∧ s.cur.vcfg.vl % 2 ^ field 8 5 = 0 := by
  unfold Apart VecReady VecReadyAt Waited; decide +kernel
theorem witness_ModularTransforms_words :
    (let w := (2 ^ 32 * 3 + 15 : Nat); let field (lo n : Nat) : Nat := w / 2 ^ lo % 2 ^ n
     field 37 27 = 0 ∧ 1 ≤ field 32 5 ∧ field 0 32 % 2 = 1 ∧ field 0 32 < 2 * 2 ^ field 32 5 ∧ 8 % 2 ^ field 32 5 = 0) ∧
    (let w := (4096 * 4 + 256 * 4 + 16 : Nat); let field (lo n : Nat) : Nat := w / 2 ^ lo % 2 ^ n
     field 16 48 = 0 ∧ field 6 2 = 0 ∧ 1 ≤ field 12 4 ∧ field 12 4 ≤ field 8 4 ∧ 1 ≤ field 0 6 ∧ field 0 6 * field 8 4 ≤ 64) ∧
    (let w := (4 * 21 + 3 : Nat); let field (lo n : Nat) : Nat := w / 2 ^ lo % 2 ^ n
     field 7 57 = 0 ∧ 1 ≤ field 2 5 ∧ field 2 5 ≤ 21) ∧ (vhart 3 4 64 [] []).cur.vcfg.sew = 64 := by decide +kernel
theorem witness_VectorMemory_load : let s := vnear 2 4 [(2, 0x1000000)]
    let els := spadEls 0 4 (actives s 0)
    VecReadyAt s [2] [(1, s.cur.vcfg.g)] ∧ Apart (1, s.cur.vcfg.g) [] ∧ Local s els ∧ Settled (movingAt ((s.touchAll els).beforeVector true)) ∧
    Places s 4 .load (fun i => s.cur.x 2 + BitVec.ofNat 64 (i * 4)) (actives s 0) els ∧ actives s 0 = [0, 1, 2, 3] := by
  unfold VecReadyAt Waited Local Settled Unsampled Places movingAt Apart; decide +kernel
theorem witness_VectorMemory_stops : let s := vnear 2 4 [(2, 0x100FFF8)]
    let els := spadEls 0xFFF8 4 [0, 1]
    VecReadyAt s [2] [(1, s.cur.vcfg.g)] ∧ Local s els ∧ Settled (movingAt ((s.touchAll els).beforeVector true)) ∧
    FailsAt s 4 .load (fun i => s.cur.x 2 + BitVec.ofNat 64 (i * 4)) (actives s 0) els 2 { code := 5, cause := 8, detail := 0x1010000 } ∧
    FailsAt s 4 .store (fun i => s.cur.x 2 + BitVec.ofNat 64 (i * 4)) (actives s 0) els 2 { code := 5, cause := 8, store := true, detail := 0x1010000 } := by
  unfold VecReadyAt Waited Local Settled Unsampled movingAt FailsAt Places
  refine ⟨by decide +kernel, by decide +kernel, by decide +kernel, ⟨[3], by decide +kernel⟩, ⟨[3], by decide +kernel⟩⟩
theorem witness_VectorMemory_store : let s := vnear 2 4 [(2, 0x2000000)]
    let els := nearEls 0x2000000 4 (actives s 0)
    let s1 := s.touchAll els
    (s1.claimAll 4 none els).2.2 = none ∧ Settled (movingAt ((s1.beforeVector false).claimAll 4 none els).1) ∧
    Places s 4 .store (fun i => s.cur.x 2 + BitVec.ofNat 64 (i * 4)) (actives s 0) els := by
  unfold Settled Unsampled Places movingAt; decide +kernel
theorem witness_VectorMemory_written : let s := withCsr (fun c => { c with vtype := 2, vl := 3 }) (element [(2, 0x2000004)])
    let x (i : Nat) : VElem := { idx := i, va := BitVec.ofNat 64 (0x2000004 + 4 * i),
                                 t := { home := .stack 0, key := 0x2000004 + 4 * i, lworld := 0, enc := 2, nonce := 7, gen := 0 } }
    let s1 := s.touchAll [x 0, x 1, x 2]
    (s1.claimAll 4 none [x 0]).2.1 = [x 0] ∧ (s1.claimAll 4 none [x 0]).2.2 = none ∧
    (match claimTarget (s1.claimAll 4 none [x 0]).1 (x 1).t 4 with | .error i => i == 0 | .ok _ => false) = true ∧
    Places s 4 .store (fun i => s.cur.x 2 + BitVec.ofNat 64 (i * 4)) (actives s 0) [x 0, x 1, x 2] := by
  unfold Places; decide +kernel
theorem witness_VectorMemory_masks : let s := vnear 0 9 [(2, 0x1000000)]
    let els := spadEls 0 1 (maskBytes s)
    maskBytes s = [0, 1] ∧ VecReadyAt s [2] [] ∧ s.cur.vcfg.vstart % 8 = 0 ∧ Local s els ∧ Settled (movingAt ((s.touchAll els).beforeVector true)) ∧
    Places s 1 .load (fun j => s.cur.x 2 + BitVec.ofNat 64 j) (maskBytes s) els ∧
    Places s 1 .store (fun j => s.cur.x 2 + BitVec.ofNat 64 j) (maskBytes s) els ∧ ((s.touchAll els).claimAll 1 none els).2.2 = none ∧
    (withCsr (fun c => { c with vstart := 4 }) s).cur.vcfg.vstart % 8 ≠ 0 := by
  unfold VecReadyAt Waited Local Settled Unsampled Places movingAt; decide +kernel
theorem witness_VectorAtomics : let s := vnear 3 2 [(2, 0x1000000)]
    let els := spadEls 0 0 (actives s 0)
    let v := (s.touchAll els).beforeVector true
    VecReadyAt s [2] [(1, s.cur.vcfg.g), (3, s.cur.vcfg.g)] ∧ s.cur.vcfg.sew = 64 ∧ Apart (1, s.cur.vcfg.g) [(3, s.cur.vcfg.g)] ∧ Local s els ∧
    Places s 8 .atomic (fun i => s.cur.x 2 + BitVec.ofNat 64 (s.vE 3 i)) (actives s 0) els ∧ 
    (match v.amoElems .add 2 (fun i => BitVec.ofNat 64 (s.vE 1 i)) (holderPoison v 1) els with
     | .done s2 _ _ x => decide ((movingAt s2).cur.hold = none ∧ (movingAt s2).viqLength < 32 ∧ ((movingAt s2).worlds[(movingAt s2).cur.world.toNat]).obs.ctl.getLsbD 1 = false) && x.isNone | _ => false) = true ∧
    s.inScope 2 (spadAt 0) = true ∧ s.inScope 0 (spadAt 0) = false ∧ (vhart 2 4 32 [] []).cur.vcfg.sew ≠ 64 := by
  unfold VecReadyAt Waited Local Places movingAt Apart; decide +kernel
theorem witness_VectorAtomics_elements : let s := vnear 3 2 [(2, 0x1000000)]
    let e : VElem := { idx := 0, va := 0x1000000, t := spadAt 0 }
    e.t.isFar = false ∧ s.inScope 0 e.t = false ∧ s.inScope 2 e.t = true ∧ s.answer s.cur s.device (.amo e.t.key e.idx) = none ∧
    (match claimTarget s e.t 8 with | .ok _ => true | .error _ => false) = true ∧
    (match (element []).amoElems .add 5 (fun _ => 1) (fun _ => false) [] with | .done _ r _ x => r.isEmpty && x.isNone | _ => false) = true ∧
    (let t : Target := { home := .stack 0, key := 0x2000008, lworld := 0, enc := 2, nonce := 7, gen := 0 }
     (element []).inScope 5 t = true ∧ (element []).answer (element []).cur (element []).device (.amo t.key 0) = none ∧
     (match claimTarget (element []) t 8 with | .ok _ => false | .error _ => true) = true) := by
  decide +kernel
theorem witness_Tiles : let s := strict (vhart 0 32 8 [] [])
    s.cur.tileOwner = true ∧ TileReady s [] [(1, 1), (2, 1)] 8 3 ∧ s.cur.vcfg.tmode ≤ 2 ∧ s.cur.vcfg.vl % 32 = 0 ∧ 0 < s.cur.vcfg.vl ∧
    s.cur.vcfg.vl ≤ s.cur.vcfg.vlmax := by
  unfold TileReady VecReady VecReadyAt Waited; decide +kernel
theorem witness_Tiles_split : let s := vhart (0x01200000 + 0x3000 + 3) 32 64 [] []
    s.cur.vcfg.tmode = 9 ∧ TileReady s [] [(1, 1), (2, 1)] 64 2 ∧ s.cur.vcfg.slices = 3 := by
  unfold TileReady VecReady VecReadyAt Waited; decide +kernel
theorem witness_Tiles_powers : let s := vhart (0x01000000 + 1) 32 16 [] []
    s.cur.vcfg.tmode = 8 ∧ TileReady s [] [(1, 1), (30, 1)] 16 1 ∧ (30 : BitVec 5).toNat + max 1 (s.cur.vcfg.g / 2) ≤ 31 := by
  unfold TileReady VecReady VecReadyAt Waited; decide +kernel
theorem witness_Tiles_rows : let s := vhart 2 32 32 [] [(5, 63), (6, 64)]
    TileReady s [5] [(3, 1)] 32 0 ∧ (s.cur.x 5).toNat < 64 ∧ 64 ≤ (s.cur.x 6).toNat := by
  unfold TileReady VecReady VecReadyAt Waited; decide +kernel
theorem witness_Tiles_refused : ((vhart 0 32 8 [] []).modCur fun h => { h with lane0 := 4 }).cur.tileOwner = false ∧
    (vhart 0 31 8 [] []).cur.vcfg.vl % 32 ≠ 0 := by decide +kernel
theorem witness_Tiles_memory : let s := vnear 2 32 [(2, 0x1000000), (4, 128)]
    let els := spadEls 0 4 (List.range 1024)
    TileReady s [2, 4] [] 32 0 ∧ Local s els ∧ CellPlaces s .load 2 4 els ∧ CellPlaces s .store 2 4 els := by
  unfold TileReady VecReady VecReadyAt Waited Local CellPlaces; decide +kernel
theorem witness_Tiles_fails : let s := vnear 2 32 [(2, 0x100FFFC), (4, 128)]
    TileReady s [2, 4] [] 32 0 ∧ (s.cur.x 2).toNat % 4 = 0 ∧ (s.cur.x 4).toNat % 4 = 0 ∧
    translate s s.cur s.cur.level (s.cellAddr 2 4 0) 4 .load false = .ok (spadAt 0xFFFC) ∧
    translate s s.cur s.cur.level (s.cellAddr 2 4 1) 4 .load false = .error { code := 5, cause := 8, detail := 0x1010000 } ∧
    ((vnear 2 32 [(2, 0x1000002)]).cur.x 2).toNat % 4 ≠ 0 := by
  unfold TileReady VecReady VecReadyAt Waited; decide +kernel
/-- A cuff of the receive end of sleeve 0 of this device (R148). -/
def cuffIn : Word := 0x8000000000
def endIn (items : List SleeveItem) : SleeveEnd :=
  { sl := { home := 0, index := 0 }, recv := true, gen := 0, owner := (hart []).cur.identity, next := 0, taken := 0, loc := 0, buffer := items,
    peerClosed := none, orphan := false }
def item0 : SleeveItem := { sl := { home := 0, index := 0 }, seq := 0, value := 77, poison := false, cuff := none }
def sleeved (items : List SleeveItem) (xs : List (BitVec 5 × Word)) : State :=
  { hart xs with sleeves := { dir := [], ends := [endIn items], forwards := [] } }

theorem witness_EngineCommands : let s := strict (vhart 2 4 32 [] [(4, 0x1000000), (6, 0x1000010)])
    Waited s [4, 6] ∧ s.cur.csr.vtype.getLsbD 31 = false ∧ Clear s .copy ∧ Room s .copy ∧ (s.drainAll false).cur.hold = none ∧
    (s.cur.x 4).toNat % 4 = 0 ∧ (s.cur.x 6).toNat % 4 = 0 := by
  unfold Waited Clear Room; decide +kernel
theorem witness_EngineCommands_full : (let s := hart [(4, 0x1000002)]
      let u := { s with ops := ((flying (.copied [] none) s).ops.flatMap fun o => List.replicate 16 o) }
      ¬Room u .copy ∧ (s.cur.x 4).toNat % 4 ≠ 0) ∧
    (let s := (hart []).modCur fun h => { h with faults := [{ chan := .copy, lvl := .user, hook := 1, trap := { code := 11 } }] }
     s.cur.faults.find? (fun f => f.chan == .copy) = some { chan := .copy, lvl := .user, hook := 1, trap := { code := 11 } }) := by
  unfold Room; decide +kernel
theorem witness_EngineCommands_copyn : let s := hart [(4, 0x100F40)]
    Clear s .copy ∧ InSlice s (s.cur.x 4) 192 ∧ (s.cur.x 4).toNat % 64 = 0 ∧
    (match parseCopyn ((s.drainAll false).tcmBytes (s.cur.x 4) 192) with | .error _ => true | .ok _ => false) = true := by
  unfold Clear InSlice; decide +kernel
theorem witness_EngineCommands_bar :
    (let s := strict (hart [(4, 0x10000)]); let w := s.cur.x 4
     Waited s [4] ∧ Clear s .bar ∧ w.toNat < 2 ^ 41 ∧ w.toNat / 2 ^ 16 % 2 ^ 16 ≠ 0 ∧ w.toNat / 2 ^ 32 % 512 = 0 ∧ Room s .bar ∧ SysClear s 5 ∧
     s.members.contains 0 = true) ∧
    (let s := hart [(4, 0x200010000)]; s.members.contains ((s.cur.x 4).toNat / 2 ^ 32 % 512) = false) := by
  unfold Waited Clear Room SysClear; decide +kernel
theorem witness_EngineCommands_copyn_runs :
    (match parseCopyn (toBytes 8 0x1000000 ++ toBytes 8 0x1000100 ++ toBytes 8 0x19 ++ toBytes 8 2 ++ toBytes 8 8 ++ toBytes 8 16 ++ List.replicate 144 0) with
      | .ok (.copyn 0x1000000 0x1000100 8 [(2, 8, 16)] false) => true | _ => false) = true ∧
    (toBytes 8 0x1000000 ++ toBytes 8 0x1000100 ++ toBytes 8 0x19 ++ toBytes 8 2 ++ toBytes 8 8 ++ toBytes 8 16 ++ List.replicate 144 0).length = 192 := by
  decide +kernel
theorem witness_CopyElements : let s := near []
    translate s s.cur .user 0x1000000 4 .load true = .ok (spadAt 0) ∧ translate s s.cur .user 0x1000010 4 .store true = .ok (spadAt 16) ∧
    (spadAt 0).isFar = false ∧ (spadAt 16).isFar = false ∧
    (match claimTarget s (spadAt 16) 4 with | .ok _ => true | .error _ => false) = true ∧
    (∀ e ∈ ({} : CopyRun).prior, e.1 < (spadAt 0).key ∨ (spadAt 0).key + 4 ≤ e.1) := by decide +kernel
/-- A copy command as the head of the hart's channel. -/
def copying (c : CopyCmd) (r : CopyRun) (s : State) : State × Op :=
  (flying (.copy c r) s, { id := 9, core := 0, ctx := 0, seq := 1, lvl := .user, hook := 2, kind := .copy c r, acq := false, va := 0x1000008, pc := 0, ret := 0 })
theorem witness_CopyEnds : let c : CopyCmd := .copy 2 4 0x1000000 0x1000010
    let p := copying c {} (near [])
    let s := p.1
    let o := p.2
    s.opById o.id = some o ∧ s.isHead o = true ∧ s.itsTurn .copy o = true ∧ s.copyFaults o = false ∧
    (match (s.served .copy o).runCopy o c {} with
      | (u, r, .moved) => r.waits.isEmpty && c.result.isNone && (u.hartAt o.core o.ctx).isSome | _ => false) = true := by
  decide +kernel
theorem witness_CopyEnds_turn : let c : CopyCmd := .copy 2 4 0x1000000 0x1000010
    let p := copying c {} (near [])
    let o := p.2
    let s := ({ p.1 with ops := p.1.ops ++ [{ o with id := 10, ctx := 1 }] }).served .copy o
    s.opById o.id = some o ∧ s.isHead o = true ∧ s.itsTurn .copy o = false ∧
    (let q := copying c { started := true } (near []); q.1.isHead q.2 = true ∧ ({ started := true } : CopyRun).started = true) := by
  decide +kernel
theorem witness_CopyEnds_waits : let c : CopyCmd := .copy 2 4 0x2000000 0x1000010
    let p := copying c {} (far [])
    p.1.isHead p.2 = true ∧ p.1.copyFaults p.2 = false ∧
    (match (p.1.served .copy p.2).runCopy p.2 c {} with | (_, r, .waits) => r != ({} : CopyRun) | _ => false) = true := by decide +kernel
theorem witness_CopyEnds_acks :
    let c : CopyCmd := .copyn 0x1000000 0x1000100 8 [(1, 8, 16)] true
    let s := (near []).modCur fun h => { h with cpFifo := List.replicate 32 (0, false) }
    let p := copying c {} s
    p.1.copyFaults p.2 = false ∧
    (match (p.1.served .copy p.2).runCopy p.2 c {} with
      | (u, r, .moved) => r.waits.isEmpty && c.result.isSome && (match u.hartAt 0 0 with | some h => 32 ≤ h.cpFifo.length | none => false) | _ => false) = true ∧
    (let q := copying c {} (near [])
     (match (q.1.served .copy q.2).runCopy q.2 c {} with
      | (u, r, .moved) => r.waits.isEmpty && c.result.isSome && (match u.hartAt 0 0 with | some h => decide (h.cpFifo.length < 32) | none => false) | _ => false) = true) := by
  decide +kernel
theorem witness_CopyEnds_copied : let s := flying (.copied [] (some 5)) (near [])
    ∃ o ∈ s.ops, s.opById o.id = some o ∧ s.isHead o = true ∧ o.kind = .copied [] (some 5) ∧ s.hartAt o.core o.ctx = some s.cur ∧
      s.cur.cpFifo.length < 32 := by decide +kernel
theorem witness_CopyEnds_fault : let c : CopyCmd := .copy 2 4 0x100FFFC 0x1000010
    let p := copying c {} (near [])
    p.1.opById 9 = some p.2 ∧ p.1.isHead p.2 = true ∧ p.1.itsTurn .copy p.2 = true ∧ p.1.copyFaults p.2 = true ∧
    (match (p.1.served .copy p.2).runCopy p.2 c {} with | (u, _, .fault k _) => k == 1 && (u.hartAt 0 0).isSome | _ => false) = true := by
  decide +kernel
theorem witness_ResultsAndBarriers :
    (let s := hart []; Clear s .tailor ∧ s.cur.rpFifo = [] ∧ ((s.chanOps s.cur.core s.cur.ctx .tailor).any fun o => o.kind.pushes) = false) ∧
    (let s := (hart []).modCur fun h => { h with cpFifo := [(5, false)] }; Clear s .copy ∧ s.cur.cpFifo = (5, false) :: []) ∧
    (let s := flying (.copied [] (some 5)) (hart []); s.cur.cpFifo = [] ∧ ((s.chanOps s.cur.core s.cur.ctx .copy).any fun o => o.kind.pushes) = true) ∧
    (let e : Episode := { sc := 1, unit := 0, id := 7, n := 3, arrivals := [(0, 4)] }
     let s := { hart [] with episodes := [e] }
     s.episodes.find? (fun e => e.sc == 1 && e.unit == 0 && e.id == 7) = some e ∧ e.arrivals.length + 1 < e.n ∧
     s.episodes.find? (fun e => e.sc == 1 && e.unit == 0 && e.id == 8) = none ∧ 2 ≤ ({ e with n := 2 } : Episode).arrivals.length + 1 ∧
     64 ≤ (List.replicate 64 { e with sc := 5, id := 9 }).length ∧ s.episodes.length < 64) := by
  unfold Clear; decide +kernel
theorem witness_Sleeves :
    (let s := strict (hart [(4, 0), (5, cuffIn), (6, 0x100000000), (7, 0x200000000)])
     Room s .sleeve ∧ Waited s [4, 5] ∧ (s.cur.x 4).getLsbD 32 = false ∧ (s.cur.x 4).extractLsb' 33 6 = s.cur.world ∧ (s.cur.x 4).getLsbD 39 = false ∧
     (s.cur.x 5).extractLsb' 33 6 = s.cur.world ∧ (s.cur.x 5).getLsbD 39 = true ∧ (s.cur.x 6).getLsbD 32 = true ∧ (s.cur.x 7).extractLsb' 33 6 ≠ s.cur.world) ∧
    (let s := hart []; s.validEnd s.cur cuffIn = none) ∧
    (let s := sleeved [item0] []
     s.validEnd s.cur cuffIn = some (endIn [item0]) ∧ (endIn [item0]).buffer.find? (fun i => i.seq == (endIn [item0]).next) = some item0 ∧
     s.sleeveOps s.cur.core s.cur.ctx = [] ∧ (s.receive s.cur cuffIn).isSome = true) ∧
    (let s := sleeved [] []; s.validEnd s.cur cuffIn = some (endIn []) ∧ (s.receive s.cur cuffIn).isNone = true) := by
  unfold Room Waited; decide +kernel
theorem witness_Sleeves_ends : let s := flying (.sleeve (.close cuffIn) { lvl := .user, r := 0, live := false }) (sleeved [] [])
    (∃ o ∈ s.ops, s.opById o.id = some o ∧ s.isHead o = true ∧ s.hartAt o.core o.ctx = some s.cur) ∧ s.sleeveStatus s.cur (.close cuffIn) = some 0 ∧
    s.sleeveStatus s.cur (.send cuffIn 5 false (some 3) true) = some 0 ∧ s.sleeveStatus s.cur (.opened { lvl := .user, r := 0, live := false }) = some 0 ∧
    (s.openSleeve s.cur).isSome = true ∧ (s.sleeveStatus s.cur (.poll cuffIn)).isSome = true := by decide +kernel
/-- The context's profile table: TOY8 in entry 0, A64K with two limbs in entry 1. -/
def ptab0 : Vector Profile 16 := (Vector.replicate 16 { base := 0, q := [] } |>.setIfInBounds 0 { base := 1, q := [241] }).setIfInBounds 1
  { base := 3, q := [0xFFFFFFFF00000001, 0xFFFFFFFF00000001] }
/-- A descriptor with its data in the stacks: profile, kind, limbs, capacity in units of 64 bytes. -/
def descAt (base : Word) (prof kind limbs cap : Nat) : Desc := mkDesc base 0 40 0 limbs prof kind false (BitVec.ofNat 26 cap)
/-- A key register: base, kind, profiles, digits. -/
def keyAt (base : Word) (kind sprof dprof beta ell : Nat) : Desc :=
  base ++ 1#64 ++ BitVec.ofNat 4 kind ++ 0#2 ++ BitVec.ofNat 4 sprof ++ BitVec.ofNat 4 dprof ++ BitVec.ofNat 6 beta ++ BitVec.ofNat 4 ell ++ (if kind = 3 then 5#32 else 0#32) ++ 0#72
/-- A hart with ciphertexts of each kind: c1 and c2 of kind 1, c4 of kind 2, c5 and c6 of kind 3, c7 of kind 4, c8 with two limbs; keys of each
kind; a bound table in tb1; c3 has room. -/
def cthart (xs : List (BitVec 5 × Word)) : State :=
  (near xs).modCur fun h => { h with ct := { h.ct with
    ptab := ptab0
    c := [(1, descAt 0x2000000 0 1 1 1), (2, descAt 0x2000040 0 1 1 1), (3, descAt 0x2000080 0 1 1 64), (4, descAt 0x2002000 0 2 1 2),
          (5, descAt 0x2002100 0 3 1 2), (6, descAt 0x2002200 0 3 1 2), (7, descAt 0x2002300 0 4 1 2), (8, descAt 0x3000000 1 3 2 65536)].foldl
        (fun (v : Vector Desc 32) (e : Nat × Desc) => v.setIfInBounds e.1 e.2) h.ct.c
    k := [(1, keyAt 0x2004000 1 0 0 4 2), (2, keyAt 0x2008000 2 0 0 4 1), (3, keyAt 0x200C000 3 0 0 4 1), (4, keyAt 0x2010000 4 0 0 4 1),
          (5, keyAt 0x2014000 5 0 0 4 1)].foldl (fun (v : Vector Desc 8) (e : Nat × Desc) => v.setIfInBounds e.1 e.2) h.ct.k
    tb := h.ct.tb.setIfInBounds 1 (0x2003000#64 ++ 0#4 ++ 0#1 ++ 1#1 ++ 0#186) } }
theorem ok_of {ε α : Type} {x : Except ε α} (h : (match x with | .ok _ => true | .error _ => false) = true) : ∃ v, x = .ok v := by
  cases x <;> simp_all
def regionAt (base len : Nat) : Region := { base, len, pages := [stackAt base] }

theorem witness_CiphertextArithmetic : let s := strict (cthart [])
    CtSource s 1 ∧ dKind (s.cReg 1) ≤ 3 ∧ dKind (s.cReg 2) = dKind (s.cReg 1) ∧ dProf (s.cReg 2) = dProf (s.cReg 1) ∧
    dLimbs (s.cReg 2) = dLimbs (s.cReg 1) ∧ dScale (s.cReg 2) = dScale (s.cReg 1) ∧ CtWaited s [cSrc 1, cSrc 2] ∧ Room s .cipher := by
  unfold CtSource CtWaited Room; decide +kernel
/-- What the addition of c1 and c2 into c3 meets. -/
theorem witness_CiphertextArithmetic_ready : let s := cthart []
    let plan := plainPlan (.word 0 0 [241] 5) [1, 2] 5 1 1 0 0 (addAllow 40 40)
    ∃ v, CtReady s 3 plan [regionAt 0x2000000 40, regionAt 0x2000040 40] (regionAt 0x2000080 40) none none v := by
  obtain ⟨v, hv⟩ : ∃ v, (cthart []).ctClaims (regionAt 0x2000080 40) = .ok v := ok_of (by decide +kernel)
  exact ⟨v, by decide +kernel, rfl, by decide +kernel, by decide +kernel, by decide +kernel, trivial, trivial, by decide +kernel, hv⟩
theorem witness_CiphertextArithmetic_words :
    (let s := strict (cthart [(9, 0x0200000002100005)]); let w := s.cur.x 9
     CtSource s 5 ∧ dKind (s.cReg 5) = 3 ∧ w.getLsbD 55 = false ∧ -128 ≤ dScale (s.cReg 5) + (w.extractLsb' 56 8).toInt ∧
     dScale (s.cReg 5) + (w.extractLsb' 56 8).toInt ≤ 127 ∧ CtWaited s [cSrc 5] ∧ Waited s [9]) ∧
    (let s := cthart [(9, 1)]; CtSource s 8 ∧ (s.prof (dProf (s.cReg 8))).lwe = false ∧ dKind (s.cReg 8) = 3 ∧ 1 ≤ (s.cur.x 9).toNat ∧
     (s.cur.x 9).toNat < dLimbs (s.cReg 8) ∧
     -128 ≤ dScale (s.cReg 8) - (((((s.prof 1).widths.take 2).drop 1).foldl (· + ·) 0 : Nat) : Int)) ∧
    (let s := cthart [(9, 7)]; dLimbs (s.cReg 5) = 1 ∧ (s.cur.x 9).toNat < (s.prof (dProf (s.cReg 5))).big) := by
  unfold CtSource CtWaited Waited; decide +kernel
theorem witness_CiphertextKeys : let s := strict (cthart [])
    (CtSource s 5 ∧ dKind (s.cReg 5) = 3 ∧ kSprof (s.kReg 3) = dProf (s.cReg 5) ∧ (s.prof 0).lwe = true ∧ kKind (s.kReg 3) = 3 ∧ kKind (s.kReg 5) = 5 ∧
     CtWaited s [cSrc 5, kSrc 3]) ∧
    (CtSource s 4 ∧ dKind (s.cReg 4) = 2 ∧ kKind (s.kReg 2) = 2 ∧ kSprof (s.kReg 2) = dProf (s.cReg 4) ∧ dLimbs (s.cReg 4) = 1 ∧
     kKind (s.kReg 4) = 4 ∧ kSprof (s.kReg 4) = 0 ∧ 2 ^ clog2 1 ≤ (s.prof 0).big) ∧
    (CtSource s 1 ∧ dKind (s.cReg 1) = 1 ∧ tbBound (s.tbReg 1) = true ∧ tbProf (s.tbReg 1) = 0 ∧ (s.prof 0).aInMin ≤ dAllow (s.cReg 1)) ∧
    (CtSource s 7 ∧ dKind (s.cReg 7) = 4 ∧ kKind (s.kReg 1) = 1 ∧ kSprof (s.kReg 1) = 0 ∧ s.cur.csr.brstep.toNat < (s.prof 0).dim ∧
     (withCsr (fun c => { c with brstep := 4 }) s).cur.csr.brstep.toNat = (s.prof 0).dim) := by
  unfold CtSource CtWaited; decide +kernel
/-- What a rotation of c5 into c3 under k3 meets. -/
theorem witness_CiphertextKeys_ready : let s := cthart []
    let k := s.kReg 3
    let plan := { plainPlan (.kswRlwe [241] 8 4 1 1 (kGamma k) false) [5] 16 3 1 0 0 (addAllow 40 32) with key := some (kBase k, 128), pois := kPois k }
    ∃ v, CtReady s 3 plan [regionAt 0x2002100 128] (regionAt 0x2000080 128) none (some (regionAt 0x200C000 128)) v := by
  obtain ⟨v, hv⟩ : ∃ v, (cthart []).ctClaims (regionAt 0x2000080 128) = .ok v := ok_of (by decide +kernel)
  refine ⟨v, by decide +kernel, rfl, by decide +kernel, by decide +kernel, by decide +kernel, trivial, ?_, by decide +kernel, hv⟩
  show (cthart []).ctRegion (kBase ((cthart []).kReg 3)) 128 .load = .ok (regionAt 0x200C000 128)
  decide +kernel
theorem witness_Refresh :
    let s := strict (cthart [])
    let u := { s with worlds := (s.worlds.setIfInBounds 0 { s.worlds.getD 0 .reset with spres := 1#64 <<< 29 }) }
    let g : Batch := { key := s.cur.world ++ s.kReg 1, prof := 0, ops := [4], closed := false }
    let v := { u with batchers := [{ clus := 0, executing := none, gathering := some g }] }
    (CtSource u 1 ∧ CtWaited u [cSrc 1, kSrc 1, tbSrc 1] ∧ (u.prof 0).lwe = true ∧ dKind (u.cReg 1) = 1 ∧ dLimbs (u.cReg 1) = 1 ∧ tbBound (u.tbReg 1) = true ∧
     tbProf (u.tbReg 1) = 0 ∧ kKind (u.kReg 1) = 1 ∧ kSprof (u.kReg 1) = 0 ∧ 8 * (u.prof 0).words 2 1 ≤ 64 * dCap (u.cReg 3) ∧
     u.batchCap ((u.prof 0).words 4 1) ≠ 0 ∧ u.canJoin (u.cur.world ++ u.kReg 1) 0 (u.batchCap ((u.prof 0).words 4 1)) = true) ∧
    (v.batcher 0).gathering = some g ∧ v.canJoin (u.cur.world ++ u.kReg 1) 0 2 = true ∧ tbBound (s.tbReg 2) = false ∧
    (40 : Int) < (((withCsr (fun c => { c with ctfloor := 41 }) s).cur.csr.ctfloor.toNat % 2 ^ 16 : Nat) : Int) := by
  unfold CtSource CtWaited; decide +kernel
theorem witness_CiphertextRegisters :
    (let s := strict (cthart [(9, 0x100FE0), (10, 0x2000000), (11, 0x2000000)])
     let u := { s with mem := s.mem.writeClean (2 ^ 48 + 0xFE0) (toBytes 32 (descAt 0x2000000 0 1 1 1).toNat) }
     Waited u [9] ∧ InSlice u (u.cur.x 9) 32 ∧ (u.cur.x 9).toNat % 32 = 0 ∧
     descOk u.cur.ct.ptab (BitVec.ofNat 256 (ofBytes ((u.drainFor (2 ^ 48 + 0xFE0) 32).tcmBytes (u.cur.x 9) 32))) = true ∧ CtWaited u [cSrc 1]) ∧
    tableOk ptab0 (0x2003000#64 ++ 0#4 ++ 0#1 ++ 1#1 ++ 0#186) = true ∧ keyOk ptab0 (keyAt 0x2004000 1 0 0 4 2) = true ∧ descOk ptab0 1 = false ∧
    dKind ((cthart []).cReg 1) ≠ 0 ∧ dKind ((cthart []).cReg 0) = 0 ∧
    tableOk ptab0 1 = false ∧ keyOk ptab0 (1#256 <<< 124) = false ∧ (0x100FE8 : Word).toNat % 32 ≠ 0 ∧ descOk ptab0 (descAt 0x2000000 0 1 1 1) = true ∧
    1 ≤ (0x4000000005 : Word).toNat / 2 ^ 32 ∧ (0x4000000005 : Word).toNat / 2 ^ 32 ≤ 64 ∧ 64 < (0x4100000005 : Word).toNat / 2 ^ 32 := by
  unfold Waited CtWaited InSlice; decide +kernel
/-- The addition of c1 and c2 into c3 in its channel. -/
def adding : CtWork :=
  { op := .word 0 0 [241] 5, src := [(regionAt 0x2000000 40, true), (regionAt 0x2000040 40, true)], dst := regionAt 0x2000080 40, cd := 3,
    desc := descAt 0x2000080 0 1 1 64, after := [], feeds := [], key := none, table := none, poison := false }
theorem witness_CiphertextEnds :
    let w := adding
    let s := flying (.ct w) (cthart [])
    let g : Batch := { key := 0, prof := 0, ops := [9], closed := true }
    (∃ o ∈ s.ops, o.kind = .ct w ∧ s.opById o.id = some o ∧ s.isHead o = true ∧ s.hartAt o.core o.ctx = some s.cur ∧
      (∀ i ∈ w.after, ∀ q ∈ s.ops, q.id ≠ i) ∧
      (let v : State := { s with ops := { o with id := 10 } :: s.ops }; v.opById o.id = some o ∧ v.isHead o = false)) ∧
    (∃ o ∈ s.ops, (({ s with batchers := [{ clus := 0, executing := some g, gathering := none }] } : State).batcher 0).executing = some g ∧ g.ops = [o.id]) ∧
    (({ s with batchers := [{ clus := 0, executing := none, gathering := some g }] } : State).batcher 0).gathering = some g ∧ 4 < 5 * [241].length := by
  decide +kernel
theorem witness_CiphertextEnds_overlap : let w := adding
    (∀ r ∈ w.operands, r.2 = false ∨ r.1.meets w.dst = false ∨ (r.1.base = w.dst.base ∧ r.1.len = w.dst.len)) ∧
    (let x := { w with src := [(regionAt 0x2000060 40, true), (regionAt 0x2000080 40, true)] }
     x.operands.length = 2 ∧ (∃ r ∈ x.operands, r.2 = true ∧ r.1.meets x.dst = true ∧ r.1.base ≠ x.dst.base) ∧
     ∃ r ∈ x.operands, r.1.base = x.dst.base ∧ r.1.len = x.dst.len) := by decide +kernel
theorem witness_VectorAndCacheEnds :
    (let s := flying (.vector 0 none [] [] [] none [] []) (hart []); ∃ o ∈ s.ops, s.opById o.id = some o ∧ s.hartAt o.core o.ctx = some s.cur ∧ s.viqHead o = true) ∧
    (let s := flying (.icinv 0x100000 64 2) (hart []); ∃ o ∈ s.ops, s.opById o.id = some o ∧ o.kind = .icinv 0x100000 64 2 ∧ s.hartAt o.core o.ctx = some s.cur) ∧
    (let s := hart []
     let e : Icinv := { world := s.cur.world, sc := 2, core := 0, ctx := 0, base := 0x100000, len := 64, stamp := 5 }
     let t : Target := { home := .tcm, key := 2 ^ 48, lworld := 0, enc := 0, nonce := 0, gen := 0 }
     let v := { s with mem := { s.mem with icinvs := [e], olds := [{ key := t.key, word := 7, stamp := 6, world := 0 }, { key := t.key, word := 8, stamp := 4, world := 0 }, { key := t.key, word := 9, stamp := 6, world := 1 }] } }
     e ∈ v.mem.icinvs ∧ e.world = v.cur.world ∧ scopeInstance e.sc v.device v.cur.core e.ctx = scopeInstance e.sc v.device e.core e.ctx ∧
     (∃ j, j < 4 ∧ ((wordOf v.cur.pc).toNat + j + 2 ^ 55 - e.base % 2 ^ 55) % 2 ^ 55 < e.len) ∧ v.oldWords t = [(7 : Half)]) := by
  decide +kernel
/-- The descriptor of an empty dispatch of records of 8 bytes with its member map at the scratchpad's start. -/
def emptyDispatch : BitVec 1024 := 0x1000000#1024 <<< 64 ||| 8#1024 <<< 224 ||| 1#1024 <<< 240
def tailor (xs : List (BitVec 5 × Word)) : State :=
  let s := near xs
  { s with mem := (s.mem.writeClean (2 ^ 48 + 64) (toBytes 128 emptyDispatch.toNat)).writeClean (spadKey 0 0) [1] }
theorem witness_TailoringCommands : let s := strict (tailor [(4, 0x100040)])
    let u := s.drainAll true
    let desc := packDesc (u.tcmBytes (s.cur.x 4) 128)
    Waited s [4] ∧ Clear s .tailor ∧ InSlice s (s.cur.x 4) 128 ∧ (s.cur.x 4).toNat % 64 = 0 ∧ desc = emptyDispatch ∧
    u.spanNeeds u.cur u.cur s.cur.level [((tdMmap desc).toNat, 64)] = [] ∧ u.asking u.cur = false ∧
    (match u.virtRead u.cur u.cur (fun v n => translate u u.cur s.cur.level v n .load true) 64 (tdMmap desc) 64 with
      | .ok mb => BitVec.ofNat 512 (ofBytes (mb.map (·.1))) == 1 | .error _ => false) = true ∧
    s.tailorCheck true emptyDispatch 1 = 0 ∧ s.tailorCheck false emptyDispatch 1 ≠ 0 ∧ SysClear s 5 ∧ Room s .tailor ∧
    (u.dropAsks u.cur).groupBusy 0 = false ∧ goes (.rpdisp 4 1) s (fun t => t.cur.hold == none) = true := by
  unfold Waited Clear InSlice SysClear Room; decide +kernel
/-- A dispatch whose member map lies on another device, and one whose member map lies nowhere. -/
theorem witness_TailoringCommands_map :
    (let s := far []; s.spanNeeds s.cur s.cur s.cur.level [(0x2000000, 64)] ≠ []) ∧
    (let s := near []
     (match s.virtRead s.cur s.cur (fun v n => translate s s.cur s.cur.level v n .load true) 64 0x1010000 64 with
      | .error _ => true | .ok _ => false) = true) ∧ 2 ^ 16 ≤ ((hart [(4, 0x10000)]).cur.x 4).toNat := by
  decide +kernel
def group0 : Group :=
  { gid := 7, epoch := 2, mmap := 1, core := 0, ctx := 0, op := some 9, desc := emptyDispatch, inputs := [], ready := [], records := [], phase := 3, out := [],
    due := [], landed := 0, returned := [], status := 2, posted := false }
/-- The head command of the hart's tailoring channel, and its group at this device. -/
def tailoring (ws : Option (List (Nat × Nat))) (g : Group) (s : State) : State := { flying (.tailor true 7 2 ws) s with groups := [g] }
theorem witness_TailoringEnds :
    (∀ ws, ws = none ∨ ws = some [] →
      let s := tailoring ws group0 (hart [])
      s.liveGroup 7 = some group0 ∧ group0.op = some 9 ∧
      (∃ o ∈ s.ops, s.opById 9 = some o ∧ s.isHead o = true ∧ o.kind = .tailor true 7 2 ws ∧ o.id = 9) ∧
      s.groups.find? (fun x => x.gid == 7 && x.epoch == 2 && x.op == some 9) = some group0 ∧ s.groupOf 7 2 1 = some group0 ∧
      s.hartAt 0 0 = some s.cur ∧ group0.phase = 3 ∧ s.cur.rpFifo.length ≤ 27 ∧ ¬(group0.status = 0 ∨ group0.status = 4) ∧
      s.groupBusy 7 = true) ∧
    (let g := { group0 with phase := 2, status := 0, inputs := [(0, { disp := true, policy := 0, rlen := 8, caps := [], spill := [], recs := [], bad := false })] }
     let s := tailoring none g (hart [])
     (∃ i ∈ g.inputs, i.1 = s.device) ∧ (s.groupOvf s.cur .user g).2 = []) ∧
    (let g := { group0 with phase := 0, status := 0 }
     let s := { hart [] with groups := [g] }
     s.groups.find? (fun g => g.gid == 7 && g.phase == 0 && !(membersOf g.mmap).all fun v => g.inputs.any fun i => i.1 == v) = some g) ∧
    1 ∈ (far []).members ∧ 1 ≠ (far []).device ∧ (hart [(4, 0xFFFF)]).cur.x 4 = 0xFFFF ∧
    (∃ o ∈ (flying (.rpstat 7 { lvl := .user, r := 3, live := true }) (hart [])).ops, o.kind = .rpstat 7 { lvl := .user, r := 3, live := true }) := by
  refine ⟨?_, by decide +kernel, by decide +kernel, by decide +kernel, by decide +kernel, by decide +kernel, by decide +kernel⟩
  rintro ws (rfl | rfl) <;> decide +kernel
/-- A group whose returned records' list lies on another device. -/
theorem witness_TailoringEnds_list :
    let g := { group0 with status := 4, returned := [3], desc := emptyDispatch ||| 0x2000000#1024 <<< 448 }
    let s := tailoring none g (far [])
    ovfPieces g.desc g.returned.length ≠ [] ∧ (s.groupOvf s.cur .user g).2 ≠ [] := by decide +kernel
/-- A domain of two devices whose session is in force. -/
def pair : State := { State.reset with members := [0, 1] }.modPeer 1 fun p => { p with keyed := true }
def withPeer (f : Peer → Peer) (s : State) : State := s.modPeer 1 f
def withWorld (w : Nat) (f : World → World) (s : State) : State :=
  { s with worlds := (s.worlds.setIfInBounds w (f (s.worlds.getD w .reset))) }
def withPlane (i : Nat) (f : Plane → Plane) (s : State) : State := s.modPlane i f
def withBounce (f : Bounce → Bounce) (s : State) : State := { s with bounce := (s.bounce.setIfInBounds 2 (f (s.bounceCh 2))) }
def tag0 : FarTag := { world := 0, lworld := 0, enc := 0 }
/-- A granule of world 0 in line mode. -/
def lined (s : State) : State := { s with mem := { s.mem with granules := [(0x400, 0x100)] } }
def keyless (s : State) : State := withWorld 0 (fun x => { x with keys := { line := false, mac := false, elem := false, ctx := false } }) s

theorem witness_ReceiptsAndPower :
    (let s := withWorld 63 (fun x => { x with receipt := { x.receipt with req := true } }) State.reset
     63 < 64 ∧ (s.worlds.getD 63 .reset).receipt.req = true) ∧
    (let s := withWorld 1 (fun x => { x with receipt := { x.receipt with due := 1, seq := 256 } }) State.reset
     0 < (s.worlds.getD 1 .reset).receipt.due) ∧ [1, 2, 3, 4, 5, 6, 7, 8].length = 8 ∧ 7 < 8 := by
  decide +kernel
theorem witness_HostRegisters :
    (let v : Word := 0x0001000004000000; let base := (v.extractLsb' 16 31).toNat * 65536
     let s := { State.reset with mem := { State.reset.mem with granules := [(0x400, 0x1400), (0x401, 0x1400)] } }
     v.getLsbD 63 = false ∧ ∀ i, i < (v.extractLsb' 47 16).toNat → isLocalRam (base + 65536 * i) = true ∧
       (gOwner (s.mem.granule (base + 65536 * i))).toNat = 5 ∧ gMode (s.mem.granule (base + 65536 * i)) = 0) ∧
    (let s := withWorld 5 (fun x => { x with attr := 31 }) State.reset; (s.worlds.getD 5 .reset).dbg = true) ∧
    (let v : Word := 0x8001000004000000; v.getLsbD 63 = true ∧ (State.reset.worlds.getD 5 .reset).dbg = false) ∧ (504 : Nat) % 8 = 0 ∧ 504 < 512 ∧ 255 < 256 := by
  decide +kernel
theorem witness_HostRequests :
    (let s := withWorld 5 (fun x => { x with tdi := .run }) State.reset
     let q : HostReq := { write := true, size := 8, off := 0x150008, data := 1, tbit := true, tdi := 5 }
     q.tbit = true ∧ q.tdi = 5 ∧ (s.worlds.getD 5 .reset).tdi = .run ∧ regPage q.off = some (.world 5) ∧ q.off % 8 = 0 ∧ q.size = 8) ∧
    regPage 0x1010000 = some (.queue 1) ∧ regPage 0x20F0000 = some (.bounce 15) ∧ regPage 0x800000 = none ∧ regPage 0xFFFF = some .device ∧
    (State.reset.worlds.getD 5 .reset).tdi ≠ .run ∧ State.reset.board.bootst ≠ 1 ∧
    ({ State.reset with board := { State.reset.board with bootst := 1 } } : State).board.bootst = 1 := by decide +kernel
/-- A channel from the host with a key, and one to the host, with their staging rings in the stacks or nowhere. -/
def inward (stg : Word) : State := withBounce (fun b => { b with st := 1, key := some 7, hc := 1, stg }) State.reset
def outward (stg : Word) : State := withBounce (fun b => { b with st := 1, key := some 7, cfg := 1, stg }) State.reset
theorem witness_BounceChannels :
    (let b := (inward 0x4000000).bounceCh 2
     b.st = 1 ∧ b.key = some 7 ∧ b.dc.toNat < b.hc.toNat ∧ bcToHost b.cfg = false ∧ (inward 0x4000000).staged b 1 = true ∧
     (inward 0x7FFFFFFF0000).staged ((inward 0x7FFFFFFF0000).bounceCh 2) 1 = false) ∧
    (let s := outward 0x4000000
     let b := s.bounceCh 2
     b.st = 1 ∧ b.key = some 7 ∧ bcToHost b.cfg = true ∧ 224 + 32 ≤ 256 * 2 ^ (b.cfg.extractLsb' 8 4).toNat ∧
     b.dc.toNat < b.hc.toNat + 2 ^ (b.cfg.extractLsb' 12 4).toNat ∧ s.staged b 224 = true ∧ s.mem.anyPoison 0x4000000 224 = false ∧
     (outward 0x7FFFFFFF0000).staged ((outward 0x7FFFFFFF0000).bounceCh 2) 224 = false) ∧
    (State.reset.bounceCh 2).st = 0 ∧ ((withBounce (fun b => { b with st := 2 }) State.reset).bounceCh 2).st = 2 ∧
    ((withBounce (fun b => { b with st := 3 }) State.reset).bounceCh 2).st = 3 ∧ (State.reset.worlds.getD 0 .reset).quarantined = false ∧
    ¬(isLocalRam 0x400000000000 = true) ∧ isLocalRam 0x4000000 = true ∧
    ofBytes ((List.replicate 256 (1 : Byte)).take 8) ≠ 0 ∧ (List.replicate 256 (1 : Byte)).length = 256 * 2 ^ ((0 : Word).extractLsb' 8 4).toNat := by
  decide +kernel
/-- The slot of one byte 5 with a tag. -/
def slotOf5 (tag : List Byte) : List Byte := toBytes 8 0 ++ toBytes 8 1 ++ 5 :: List.replicate 223 0 ++ tag
theorem slotOf5_parts (tag : List Byte) : (slotOf5 tag).take 16 = toBytes 8 0 ++ toBytes 8 1 ∧ ((slotOf5 tag).drop 16).take 1 = [5] ∧
    (slotOf5 tag).drop (256 - 16) = tag ∧ (slotOf5 tag).length = 240 + tag.length ∧ ofBytes ((slotOf5 tag).take 8) = 0 ∧
    ofBytes (((slotOf5 tag).drop 8).take 8) = 1 := by
  refine ⟨rfl, rfl, rfl, ?_, rfl, ?_⟩
  · exact List.length_append
  · show ofBytes (toBytes 8 1) = 1
    decide
/-- Under every key some slot has its tag in place. -/
theorem witness_BounceChannels_slot (key : Nat) (iv : BitVec 96) :
    ∃ bytes : List Byte, bytes.length = 256 ∧ ofBytes (bytes.take 8) = 0 ∧ ofBytes ((bytes.drop 8).take 8) = 1 ∧
      bytes.drop (256 - 16) = gcmTag (keyOctets key) iv (bytes.take 16) ((bytes.drop 16).take 1) := by
  have l := Laws.gcmTag_length (keyOctets key) iv (toBytes 8 0 ++ toBytes 8 1) [5] (Laws.keyOctets_length key)
  refine ⟨slotOf5 (gcmTag (keyOctets key) iv (toBytes 8 0 ++ toBytes 8 1) [5]), ?_⟩
  have p := slotOf5_parts (gcmTag (keyOctets key) iv (toBytes 8 0 ++ toBytes 8 1) [5])
  refine ⟨?_, p.2.2.2.2.1, p.2.2.2.2.2, ?_⟩
  · rw [p.2.2.2.1, l]
  · rw [p.1, p.2.1, p.2.2.1]
theorem witness_AlarmsAndErrors :
    (State.reset.thatum.alpol.extractLsb' (2 * 0) 2).toNat ≤ 1 ∧ (State.reset.thatum.alpol.extractLsb' (2 * 2) 2).toNat = 2 ∧
    (State.reset.thatum.alpol.extractLsb' (2 * 6) 2).toNat = 3 ∧ (hart []).ownerOf (8 * 0x800000) = some 0 ∧
    (hart []).hartNo 0 = some (hart []).cur ∧ (hart []).cur.active = true ∧ ((hart []).cur.poisonReg 0 31).isSome = true ∧
    ((hart []).cur.poisonReg 5 0x000).isSome = true ∧ ((hart []).cur.poisonReg 5 0x3A0).isNone = true ∧ ((hart []).poisonShared 0 0x3A0).isSome = true ∧
    (let s := lined State.reset; isDram (64 * 0x100000) = true ∧ gMode (s.mem.granule (64 * 0x100000)) = 1) := by decide +kernel
theorem witness_ResetAndChannels :
    (let s := { State.reset with board := { State.reset.board with bootst := 0 }, thatum := { State.reset.thatum with booting := [{ code := [1], version := 0, sig := [] }] } }
     s.board.bootst = 0 ∧ s.thatum.booting ≠ []) ∧
    ({ State.reset with board := { State.reset.board with bootst := 2 } } : State).board.bootst = 2 ∧
    ({ State.reset with board := { State.reset.board with bootst := 3 } } : State).board.bootst = 3 ∧ 127 < 128 ∧
    (let s := { State.reset with hdm := State.reset.hdm.setIfInBounds 1 (some (0x4000000, 0x10000, 0)) }
     s.hdm[(1 : Fin 8)] = some (0x4000000, 0x10000, 0) ∧ 0x4000000 ≤ 0x400FFC0 ∧ 0x400FFC0 < 0x4000000 + 0x10000 ∧ s.hdm[(0 : Fin 8)] = none ∧ 0x400FFC0 % 64 = 0 ∧
     isDram 0x400FFC0 = true ∧ gOwner (s.mem.granule 0x400FFC0) = 0 ∧ s.board.bootst ≠ 1 ∧ (s.worlds.getD 0 .reset).reads (gMode (s.mem.granule 0x400FFC0)) = true ∧
     (List.replicate 64 (0 : Byte)).length = 64 ∧
     (let v := keyless (lined s); (v.worlds.getD 0 .reset).reads (gMode (v.mem.granule 0x400FFC0)) = false)) := by decide +kernel
theorem witness_LinkWords :
    syndrome 0 = [0, 0, 0, 0] ∧ (List.replicate 8 (0 : BitVec 72)).length = 8 ∧ (List.replicate 60 (0 : Byte)).length = 60 ∧ 511 < 512 ∧ 3 < 4 ∧
    (∀ k, k < 32 → checkColumns.getD k [] ≠ [3, 3, 3, 1]) ∧ scaled 1 (checkColumns.getD 7 []) = checkColumns.getD 7 [] := by decide +kernel
theorem witness_Packets :
    (pair.plane 0).up = true ∧ (pair.plane 0).quiesced = false ∧ (pair.plane 0).erased = none ∧ 1 ∈ pair.members ∧ 1 ≠ pair.device ∧ syndrome 0 = [0, 0, 0, 0] ∧
    (pair.peer 1).broken.contains 0 = false ∧ ((withPeer (fun p => { p with broken := [0] }) pair).peer 1).broken.contains 0 = true ∧
    flitBytes (List.replicate 8 0) = none ∧ (flitWords (List.replicate 60 0)).length = 8 ∧
    (flitWords (List.replicate 60 0)).all (fun w => syndrome w == [0, 0, 0, 0]) = true ∧ flitBytes (flitWords (List.replicate 60 0)) = some (List.replicate 60 0) ∧
    (pair.peer 1).keyed = true ∧ (pair.peer 1).tagFails < 16 ∧ ((withPeer (fun p => { p with keyed := false }) pair).peer 1).keyed = false ∧
    (pair.peer 1).skip = false ∧ (pair.peer 1).waiting = [] ∧ (pair.peer 1).next = 0 := by
  decide +kernel
/-- A packet with an empty body whose tag verifies, whatever its head says. -/
theorem witness_Packets_opened (key : Nat) (iv : BitVec 96) (aad : List Byte) (h : aad.length = 16) :
    ∃ b, openPacket key iv (aad ++ gcmTag (keyOctets key) iv aad []) = some b := by
  have l := Laws.gcmTag_length (keyOctets key) iv aad [] (Laws.keyOctets_length key)
  have n : (aad ++ gcmTag (keyOctets key) iv aad []).length = 32 := by simp [h, l]
  refine ⟨gcmCrypt (keyOctets key) iv [], ?_⟩
  unfold openPacket
  rw [show List.range 60 = 0 :: (List.range 59).map (· + 1) from rfl, List.findSome?_cons]
  simp [h, l, openText]
theorem witness_Packets_timers : let s := withPeer (fun p => { p with unsent := 15, waiting := [(3, [])], unacked := [(0, .ack 0)] }) pair
    16 ≤ (s.peer 1).unsent + 1 ∧ (s.peer 1).keyed = true ∧ s.planeFor 1 = some 0 ∧ (s.peer 1).waiting ≠ [] ∧ (∀ w ∈ (s.peer 1).waiting, w.1 ≠ (s.peer 1).next) ∧
    (s.peer 1).next = 0 ∧ (s.peer 1).unacked = (0, .ack 0) :: [] := by
  decide +kernel
/-- The window's ends: 255 and 256 ahead of the seq that is next, and one behind. -/
theorem witness_Packets_window : (5 + 255 + 2 ^ 32 - 5) % 2 ^ 32 = 255 ∧ 256 ≤ (5 + 256 + 2 ^ 32 - 5) % 2 ^ 32 ∧ (5 + 256 + 2 ^ 32 - 5) % 2 ^ 32 < 2 ^ 31 ∧
    2 ^ 31 ≤ (4 + 2 ^ 32 - 5) % 2 ^ 32 := by norm_num
/-- A source that has set context 0 to writes of 16 bytes. -/
def streamed : State := withPeer (fun p => { p with waiting := [(0, [])], streams := [{ ctx := 0, tag := tag0, len := 16, addr := 0x4000000, stamp := 0 }] }) pair
/-- A write of two bytes at 0 of this device: as a full header with its payload, or as a tag of context 0 with 16 bytes. -/
def twoBytes : List Byte := toBytes 16 (2 * 2 ^ 107) ++ [7, 9]
theorem witness_Packets_message : ∃ u m t, streamed.decodeBody 1 0 twoBytes = .msg u m ∧ (u.passNext 1).handOn 1 m = some t ∧ (t.peer 1).waiting = [] := by
  unfold State.decodeBody
  cases Config.isCompressed twoBytes
  · exact ⟨_, _, _, rfl, rfl, rfl⟩
  · exact ⟨_, _, _, rfl, rfl, rfl⟩
/-- The same with bits of the full header's res field and of a compressed tag's set. -/
theorem witness_Packets_discarded : ∃ w, streamed.decodeBody 1 0 (toBytes 16 (2 ^ 55 + 1 + 2 * 2 ^ 107) ++ [7, 9]) = .discard w := by
  unfold State.decodeBody
  cases Config.isCompressed (toBytes 16 (2 ^ 55 + 1 + 2 * 2 ^ 107) ++ [7, 9])
  · exact ⟨_, rfl⟩
  · exact ⟨_, rfl⟩
/-- Which bodies are compressed is a free predicate (R141); each of those names a context that a source without one does not hold. -/
theorem witness_Packets_context (body : List Byte) (h : Config.isCompressed body = true) : pair.decodeBody 1 0 body = .noContext := by
  unfold State.decodeBody
  rw [if_pos h]
  rfl
theorem witness_Acknowledgements :
    (pair.peer 1).ctr + 1 < 2 ^ 48 ∧ 2 ^ 48 ≤ ((withPeer (fun p => { p with ctr := 2 ^ 48 - 1 }) pair).peer 1).ctr + 1 ∧
    (let s := withPlane 0 (fun p => { p with up := false }) pair; s.planeFor 1 = some 1 ∧ (s.plane 0).up = false) ∧
    (let s := withPlane 0 (fun p => { p with quiesced := true }) (withPlane 1 (fun p => { p with quiesced := true }) pair); s.planeFor 1 = none) := by
  decide +kernel
theorem witness_FarRequestsAtHome :
    1 ∈ pair.members ∧ 1 ≠ pair.device ∧ (pair.peer 1).keyed = true ∧ pair.board.bootst ≠ 1 ∧ (pair.peer 1).ack = none ∧
    (let u := pair.passNext 1
     u.homeCheck tag0 0x4000000 = 0 ∧ (u.homeTarget tag0 0x4000000).erased u 0 = false ∧ u.homeCheck { tag0 with enc := 1 } 0x4000000 = 4 ∧
     u.homeCheck tag0 0x400000000000 = 3 ∧ u.mem.anyPoison 0x4000000 8 = false ∧
     u.rekeyBlocks 1 (.amo { rid := 0, tag := tag0, addr := 0x4000000, op := .add, arg := 1, cmp := 0 }) = false ∧
     u.rekeyBlocks 1 (.clm { rid := 1, tag := tag0, group := 2, units := [(0x4000000, true), (0x4000004, true)] }) = false ∧
     u.rekeyBlocks 1 (.rd { rid := 1, tag := tag0, addr := 0x4000000, len := 8 }) = false ∧
     u.rekeyBlocks 1 (.wr { seq := 0, tag := tag0, addr := 0x4000000, data := [1] }) = false ∧ (0 : Nat) = (pair.peer 1).next ∧
     0 ≤ ((0 : BitVec 16) - (u.peer 1).base).toInt ∧ (∀ e ∈ (u.peer 1).cache, e.1 ≠ 0) ∧ (u.peer 1).cache.length < 64) ∧
    (let l : List (BitVec 16 × AmoResult) := (List.range 64).map fun i => (BitVec.ofNat 16 (i + 7), .unknown)
     64 ≤ l.length ∧ (∀ e ∈ l, ((3 : BitVec 16) - e.1).toInt < 0) ∧ ∃ e ∈ l, 0 < ((9 : BitVec 16) - e.1).toInt) := by decide +kernel
theorem witness_FarRequestsAtHome_keyless : let s := keyless (lined pair)
    let u := s.passNext 1
    let t : FarTag := { tag0 with enc := 1 }
    (s.peer 1).keyed = true ∧ u.homeCheck t 0x4000000 = 0 ∧ (u.homeTarget t 0x4000000).erased u 0 = true := by decide +kernel
theorem witness_FarRequestsAtHome_cached :
    (let u := (withPeer (fun p => { p with cache := [(3, .unknown)], base := 3 }) { pair with mem := pair.mem.writePoison 0x4000000 8 }).passNext 1
     u.mem.anyPoison 0x4000000 8 = true ∧ ((2 : BitVec 16) - (u.peer 1).base).toInt < 0 ∧ 0 ≤ ((3 : BitVec 16) - (u.peer 1).base).toInt ∧
     (u.peer 1).cache.find? (fun e => e.1 == 3) = some (3, .unknown)) := by decide +kernel
/-- An element region of world 0 in granule 0x400, its first word written. -/
def regioned : State :=
  withWorld 0 (fun x => { x with regions := [{ valid := true, base := 0x400, size := 1, nonce := 7, gen := 1 }] })
    { pair with mem := { pair.mem with granules := [(0x400, 0x200)], written := [0x1000000] } }
theorem witness_FarRequestsAtHome_units : let u := regioned.passNext 1
    let t : FarTag := { tag0 with enc := 2 }
    (regioned.peer 1).keyed = true ∧ u.homeCheck t 0x4000000 = 0 ∧ u.mem.unitWritten 0x4000000 = true ∧ u.mem.unitWritten 0x4000008 = false ∧
    (u.homeTarget t 0x4000000).erased u 0 = false ∧ u.mem.anyPoison 0x4000000 8 = false ∧ (regionOf u 0 0x4000000).isSome = true := by decide +kernel
theorem witness_MessagesHandedOn :
    1 ∈ pair.members ∧ 1 ≠ pair.device ∧ (pair.peer 1).keyed = true ∧
    (let s := { pair with sleeves := { dir := [], ends := [endIn []], forwards := [] } }; (s.passNext 1).endOf { home := 0, index := 0 } true = some (endIn [])) ∧
    (let f : Forward := { sl := { home := 0, index := 0 }, gen := 0, base := 0, items := [], sent := [], dest := some 1, upto := none }
     let s := { pair with sleeves := { dir := [], ends := [], forwards := [f] } }
     let u := s.passNext 1
     u.endOf f.sl true = none ∧ u.sleeves.forwards = [f] ∧ f.dest = some 1 ∧ f.items = [] ∧ f.upto = none ∧
     u.sleeves.forwards = [] ++ f :: [] ∧ (∀ n, ({ f with upto := some 4 } : Forward).upto = some n → 3 < n) ∧ pair.sleeves.forwards = []) ∧
    (let s := { pair with groups := [group0] }; (s.passNext 1).groupOf 7 2 1 = some group0 ∧ group0.phase = 3 ∧ (pair.passNext 1).groupOf 7 2 1 = none) ∧
    ((pair.passNext 1).barArrive 5 0 7 2 0 (1, 4)).isSome = true := by decide +kernel
theorem witness_MessagesHandedOn_refused : let s := flying (.farStore [(1, 0)] 0x1000008) (far [])
    let u := s.passNext 1
    (s.peer 1).keyed = true ∧ ∃ o ∈ u.ops, u.ops = [o] ∧ o.kind = .farStore [(1, 0)] 0x1000008 ∧ (∀ w ∈ [((1 : Nat), (0 : Nat))], w.1 = 1 ∧ (0 + 2 ^ 32 - w.2) % 2 ^ 32 < 1) ∧
      u.hartAt o.core o.ctx = some u.cur := by decide +kernel
theorem witness_Sessions :
    (let r : FarReq := { id := 3, core := 0, ctx := 0, dev := 1, rid := 1, ask := .amo 0x2000008 0, msg := .ack 0, answer := none }
     let s := { far [] with farReqs := [r] }
     s.farReqs.find? (fun r => r.id == 3 && r.isAmo && r.answer.isNone) = some r ∧ s.farReqs.find? (fun r => r.id == 3 && r.answer.isNone) = some r ∧
     r.core ≠ 768 ∧ s.hartAt r.core (r.ctx % 8) = some s.cur) ∧
    (let q : AmoReq := { rid := 1, tag := tag0, addr := 0x2000008, op := .add, arg := 1, cmp := 0 }
     let r : FarReq := { id := 3, core := 768, ctx := 0, dev := 1, rid := 1, ask := .amo 0x2000008 0, msg := .amo q, answer := none }
     let s := { far [] with farReqs := [r] }
     s.farReqs.find? (fun r => r.id == 3 && r.answer.isNone) = some r ∧ r.core = 768 ∧ s.hartAt 768 (r.ctx % 8) = none ∧ r.msg = .amo q ∧ q.tag.world < 64) ∧
    (let s := flying (.farStore [(1, 0)] 0x1000008) (far [])
     (∀ x ∈ s.farReqs, ¬(x.id = 9 ∧ x.answer = none)) ∧ (∃ o ∈ s.ops, s.ops = [o] ∧ o.id = 9 ∧ o.kind = .farStore [(1, 0)] 0x1000008 ∧ s.hartAt o.core o.ctx = some s.cur)) ∧
    (let s := withPeer (fun p => { p with moving := [(5, 0x2000000, true)] }) (far [])
     s.farReqs = [] ∧ s.ops = [] ∧ ∃ p ∈ s.fabric.peers, ∃ m ∈ p.moving, m.1 = 5) ∧
    1 ∈ (far []).members ∧ 1 ≠ (far []).device ∧ ((far []).peer 1).keyed = true ∧ (∀ e ∈ ((far []).peer 1).cache, 0 < ((0 : BitVec 16) - e.1).toInt) ∧
    ([1] : List Byte) ∉ (far []).accepted ∧ ([1] : List Byte) ∈ ({ far [] with accepted := [[1]] } : State).accepted ∧
    ((far []).peer 1).writes.length + (far []).farReqs.length + ((far []).peer 1).unacked.length < 2 ^ 32 := by decide +kernel
/-- A queued packet of class 0 to device 1, and the request of its first flit. -/
def queued0 : Packet := { dst := 1, plane := 0, began := none, session := 0, ctr := 0, seq := 6, full := true, msg := .ack 6 }
theorem witness_Planes :
    (let x := pair.plane 0; x.up = true ∧ x.quiesced = false ∧ x.erasing = [] ∧ x.frame < 5 ∧ 0 ≤ x.frame ∧ x.erased = none) ∧
    (let s := withPlane 0 (fun p => { p with erased := some 4 }) (withPeer (fun p => { p with unacked := [(6, .ack 6)], via := [(6, 0)] }) pair)
     (s.plane 0).erased = some 4 ∧ 4 ≠ 5 ∧ (s.plane 0).erasing = [] ∧ (s.plane 1).up = true ∧ (s.plane 1).quiesced = false ∧
     (6, Msg.ack 6) ∈ (s.peer 1).unacked ∧ (6, 0) ∈ (s.peer 1).via ∧ (s.peer 1).keyed = true) ∧
    (let r : PortReq := { inp := 3, dest := destValue 1 1, last := true }; r.inp < 512 ∧ r.inp ≠ pair.device ∧ evenOnes r.dest = true) ∧
    (let s := { pair with fabric := { pair.fabric with outbox := [queued0] } }
     let r : PortReq := { inp := 0, dest := destValue 1 0, last := false }
     r.inp = s.device ∧ evenOnes r.dest = true ∧ s.fabric.outbox = [] ++ queued0 :: [] ∧ queued0.msg.cls = portCls r ∧ queued0.dst = portOut r ∧ (s.plane 0).grants = []) ∧
    (let s := withPlane 0 (fun p => { p with frame := 1 }) pair; (s.plane 0).frame ≠ 0 ∧ (s.plane 0).parity = false ∧ (List.replicate 36 (5 : BitVec 32)).length = 36) ∧
    (let s := withPlane 0 (fun p => { p with quiesced := true, agreed := some 2 }) { pair with fabric := { pair.fabric with sent := [{ queued0 with began := some 3 }] } }
     (s.plane 0).quiesced = true ∧ (s.plane 0).agreed = some 2 ∧ (s.peer 1).keyed = true ∧ 2 < 3) ∧
    (let a : PortReq := { inp := 3, dest := destValue 0 1, last := true }
     let b : PortReq := { a with inp := 7 }
     rrInput [a, b] (some 3) = some b ∧ rrInput [a] (some 5) = some a ∧
     portCls { a with dest := destValue 0 3 } = 3 ∧ portCls { a with dest := destValue 0 2 } = 2 ∧ portCls { a with dest := destValue 0 0 } = 0 ∧
     (let x := { pair.plane 0 with grants := [(0, 3, 1)] }
      x.grants.find? (fun g => g.1 == 0) = some (0, 3, 1) ∧ (x.passes [a, b] 0).1 = some a)) := by decide +kernel

/-! An image that `ctxrst` accepts, in memory at 0x2000000. -/

/-- The supervisor hart that saves and restores, its context held, x2 at the image. -/
def saver : State := (near [(2, 0x2000000)]).modCur fun h =>
  { h with level := .supervisor, sup := h.user, lane0 := 4, csr := { h.csr with held := true } }
def saverLay : ImgLay := imgLay 4 false 0 0
theorem saver_len : saverLay.len = 49168 := by decide
/-- The header of an image with counter 5, and a body of zeros but for the window size 1 (R209). -/
def imageHead : List Byte := ctxHeader saver saver.cur false false 5 saverLay
def zeroBut (n m : Nat) : List Byte := List.replicate n 0 ++ 1 :: List.replicate m 0
def imageBody : List Byte := zeroBut 0x2B4 48203
noncomputable def imageBytes : List Byte := imageHead ++ sealText saver.cur.identity.keyName (imgIv 5) imageHead imageBody
/-- The cells of a byte string from a key upward. -/
def cellsOf : Nat → List Byte → List Host.Cell
  | _, [] => []
  | k, b :: r => if b = 0 then cellsOf (k + 1) r else (k, b) :: cellsOf (k + 1) r
theorem read_low (l : List Byte) (k a : Nat) (h : a < k) : cellRead (cellsOf k l) a = 0 := by
  induction l generalizing k with
  | nil => rfl
  | cons b r ih =>
    unfold cellsOf
    split
    · exact ih (k + 1) (by omega)
    · unfold cellRead
      rw [if_neg (by omega), if_pos h]
      rfl
theorem read_cells (l : List Byte) (k i : Nat) : cellRead (cellsOf k l) (k + i) = l.getD i 0 := by
  induction l generalizing k i with
  | nil => rfl
  | cons b r ih =>
    unfold cellsOf
    cases i with
    | zero =>
      split
      · rename_i hb
        rw [read_low _ _ _ (by omega), hb]
        rfl
      · simp [cellRead]
    | succ i =>
      have e : k + (i + 1) = k + 1 + i := by omega
      split
      · rw [e, ih]
        rfl
      · unfold cellRead
        rw [if_neg (by omega), if_neg (by omega), e, ih]
        rfl
/-- The saver with the image in memory; the cell at 0x100 stands below it. -/
noncomputable def restorer : State :=
  { saver with mem := { saver.mem with bytes := (0, 0x3F) :: (0x100, 1) :: cellsOf 0x2000000 imageBytes } }

theorem readBytes_range (m : Memory) (a n : Nat) : m.readBytes a n = (List.range n).map fun i => m.read (a + i) := by
  induction n generalizing a with
  | zero => rfl
  | succ n ih =>
    rw [Memory.readBytes, ih, List.range_succ_eq_map, List.map_cons, List.map_map]
    congr 1
    apply List.map_congr_left
    intro i _
    show m.read (a + 1 + i) = m.read (a + (i + 1))
    congr 1
    omega
theorem restorer_read (i : Nat) : restorer.mem.read (0x2000000 + i) = imageBytes.getD i 0 := by
  show cellRead ((0, 0x3F) :: (0x100, 1) :: cellsOf 0x2000000 imageBytes) (0x2000000 + i) = _
  rw [cellRead, if_neg (by omega), if_neg (by omega), cellRead, if_neg (by omega), if_neg (by omega), read_cells]
theorem zeroBut_length (n m : Nat) : (zeroBut n m).length = n + 1 + m := by
  simp only [zeroBut, List.length_append, List.length_replicate, List.length_cons]
  omega
theorem zeroBut_get (n m i : Nat) : (zeroBut n m).getD i 0 = if i = n then 1 else 0 := by
  unfold zeroBut
  induction n generalizing i with
  | zero =>
    cases i with
    | zero => rfl
    | succ i => simp [List.getD_eq_getElem?_getD, List.getElem?_replicate]; split <;> rfl
  | succ n ih =>
    cases i with
    | zero => rfl
    | succ i => simpa [List.replicate_succ] using ih i
theorem head_length : imageHead.length = 256 := by decide +kernel
theorem body_length : imageBody.length = 48896 := zeroBut_length ..
theorem image_length : imageBytes.length = 49168 := by
  unfold imageBytes
  obtain ⟨e, -⟩ := Laws.open_seal saver.cur.identity.keyName (imgIv 5) imageHead imageBody
  rw [e, List.length_append, List.length_append, head_length, Laws.gcmCrypt_length _ _ _ (Laws.keyOctets_length _), body_length,
    Laws.gcmTag_length _ _ _ _ (Laws.keyOctets_length _)]
theorem restorer_poison : restorer.mem.poison = [] := by decide +kernel
theorem restorer_reads : (restorer.worlds[restorer.cur.world.toNat]).reads 0 = true := by decide +kernel
/-- A read of the pieces of a span in the stacks, in order. -/
theorem ctxRead_stack (ps : List (Nat × Nat)) :
    restorer.ctxRead ps (ps.map fun p => stackAt p.1) = .ok ((ps.flatMap fun p => (List.range p.2).map (p.1 + ·)).map restorer.mem.read) := by
  induction ps with
  | nil => rfl
  | cons p r ih =>
    have e : (restorer.readAt restorer.cur.world (stackAt p.1) p.2).1 = restorer.mem.readBytes p.1 p.2 := by
      have h1 : (stackAt p.1).home ≠ .regs := by simp [stackAt]
      have h2 : (stackAt p.1).erased restorer restorer.cur.world = false := by
        show (!(restorer.worlds[restorer.cur.world.toNat]).reads 0) = false
        rw [restorer_reads]
        rfl
      have h3 : restorer.mem.anyPoison p.1 p.2 = false := by simp [Memory.anyPoison, Memory.poisoned, restorer_poison]
      have h4 : restorer.mem.anyPoison (stackAt p.1).key p.2 = false := h3
      unfold State.readAt readTarget
      rw [if_neg h1, h2, h4]
      rfl
    simp only [State.ctxRead, List.map_cons, ih]
    have f : (stackAt p.1).isFar = false := rfl
    rw [f, e, readBytes_range]
    simp only [Bool.false_eq_true, ↓reduceIte, List.flatMap_cons, List.map_append, List.map_map]
    rfl
/-- Whole blocks and a rest follow one another. -/
theorem pieces_span (b k r : Nat) :
    (((List.range k).map fun i => (b + 256 * i, 256)) ++ [(b + 256 * k, r)]).flatMap (fun (p : Nat × Nat) => (List.range p.2).map (p.1 + ·)) =
      (List.range (256 * k + r)).map (b + ·) := by
  have h : ((List.range k).map fun i => (b + 256 * i, 256)).flatMap (fun (p : Nat × Nat) => (List.range p.2).map (p.1 + ·)) = (List.range (256 * k)).map (b + ·) := by
    induction k with
    | zero => rfl
    | succ k ih =>
      rw [List.range_succ, List.map_append, List.flatMap_append, ih, Nat.mul_succ, List.range_add]
      simp [List.map_map, Function.comp_def, Nat.add_assoc]
  rw [List.flatMap_append, h, List.range_add]
  simp [List.map_map, Function.comp_def, Nat.add_assoc]
theorem ctxRead_span (ps : List (Nat × Nat)) (n : Nat)
    (h : (ps.flatMap fun p => (List.range p.2).map (p.1 + ·)) = (List.range n).map (0x2000000 + ·)) (hn : n ≤ 49168) :
    restorer.ctxRead ps (ps.map fun p => stackAt p.1) = .ok (imageBytes.take n) := by
  rw [ctxRead_stack, h, List.map_map]
  congr 1
  have hl := image_length
  apply List.ext_getElem
  · rw [List.length_map, List.length_range, List.length_take]
    omega
  · intro i h1 h2
    rw [List.getElem_map, List.getElem_range, List.getElem_take]
    show restorer.mem.read (0x2000000 + i) = _
    rw [restorer_read]
    rw [List.length_take] at h2
    exact List.getD_eq_getElem _ _ (by omega)

theorem imgN_zero (img : Array Byte) (off n : Nat) (h : ∀ i, i < n → img.getD (off + i) 0 = 0) : imgN img off n = 0 := by
  unfold imgN
  have : ((List.range n).map fun i => img.getD (off + i) 0) = List.replicate n 0 := by
    rw [List.eq_replicate_iff]
    refine ⟨by simp, fun b hb => ?_⟩
    obtain ⟨i, hi, rfl⟩ := List.mem_map.1 hb
    exact h i (List.mem_range.1 hi)
  rw [this]
  clear this h
  induction n with
  | zero => rfl
  | succ n ih => rw [List.replicate_succ, ofBytes, ih]; rfl
theorem imgZero_of (img : Array Byte) (off n : Nat) (h : ∀ i, i < n → img.getD (off + i) 0 = 0) : imgZero img off n = true := by
  unfold imgZero
  rw [List.all_eq_true]
  intro i hi
  rw [h i (List.mem_range.1 hi)]
  rfl
/-- The plain image past its header: zeros but for one byte. -/
theorem image_byte (i : Nat) (h : 256 ≤ i) (h' : i ≠ 0x3B4) : (imageHead ++ imageBody).toArray.getD i 0 = 0 := by
  have e : (imageHead ++ imageBody).toArray.getD i 0 = (imageHead ++ imageBody).getD i 0 := by
    rw [List.getD_eq_getElem?_getD, Array.getD_eq_getD_getElem?, List.getElem?_toArray]
  rw [e, List.getD_append_right _ _ _ _ (by rw [head_length]; exact h), head_length, imageBody, zeroBut_get, if_neg (by omega)]
theorem image_contents : contentsBad (imageHead ++ imageBody).toArray 4 = false := by
  generalize hi : (imageHead ++ imageBody).toArray = img
  have z : ∀ i, 256 ≤ i → i ≠ 0x3B4 → img.getD i 0 = 0 := fun i a b => by rw [← hi]; exact image_byte i a b
  have n0 (off n : Nat) (a : 256 ≤ off) (b : off + n ≤ 0x3B4 ∨ 0x3B4 < off) : imgN img off n = 0 :=
    imgN_zero _ _ _ fun i h => z _ (by omega) (by omega)
  have z0 (off n : Nat) (a : 256 ≤ off) (b : off + n ≤ 0x3B4 ∨ 0x3B4 < off) : imgZero img off n = true :=
    imgZero_of _ _ _ fun i h => z _ (by omega) (by omega)
  have w : imgN img 0x3B0 8 = 2 ^ 32 := by
    have b4 : img.getD 0x3B4 0 = 1 := by
      rw [← hi, Array.getD_eq_getD_getElem?, List.getElem?_toArray, ← List.getD_eq_getElem?_getD,
        List.getD_append_right _ _ _ _ (by rw [head_length]; decide), head_length, imageBody, zeroBut_get, if_pos rfl]
    unfold imgN
    simp only [List.range, List.range.loop, List.map_cons, List.map_nil, Nat.reduceAdd, b4, z 0x3B0 (by omega) (by omega),
      z 0x3B1 (by omega) (by omega), z 0x3B2 (by omega) (by omega), z 0x3B3 (by omega) (by omega), z 0x3B5 (by omega) (by omega),
      z 0x3B6 (by omega) (by omega), z 0x3B7 (by omega) (by omega)]
    decide
  have k : nestKeeps img 6 0 false none = true := by
    have e (i : Nat) (h : i < 6) : imgEntry img i = none := by
      unfold imgEntry
      rw [n0 _ _ (by omega) (by omega)]
      rfl
    have y (i : Nat) (h : i < 6) : imgZero img (0x320 + 24 * i) 24 = true := z0 _ _ (by omega) (by omega)
    simp [nestKeeps, e 0, e 1, e 2, e 3, e 4, e 5, y 0, y 1, y 2, y 3, y 4, y 5]
  have m : ((imgMtab img).any fun e => e.getLsbD 511 && !modEntryOk e) = false := by
    have : imgMtab img = List.replicate 64 0 := by
      rw [List.eq_replicate_iff]
      refine ⟨by simp [imgMtab], fun b hb => ?_⟩
      obtain ⟨i, -, rfl⟩ := List.mem_map.1 hb
      rw [n0 _ _ (by omega) (by omega)]
      rfl
    rw [this]
    decide +kernel
  unfold contentsBad
  simp only [w, k, m, n0 0x270 16 (by omega) (by omega), n0 0x208 8 (by omega) (by omega), z0 0x100 8 (by omega) (by omega),
    z0 0x31C 4 (by omega) (by omega), z0 0x3B8 72 (by omega) (by omega), z0 0xA00 1536 (by omega) (by omega), z0 0x2000 (256 * 4) (by omega) (by omega)]
  decide

/-- R210: the four phases of a restore pass, the tag and the contents among them. -/
theorem witness_ContextImages_restore :
    let s := restorer
    let u := { s with cur := s.cur.landHooks }
    let ps := blockPieces 0x2000000 256
    let qs := blockPieces 0x2000000 49168
    let raw := imageBytes
    let cipher := (raw.take (49168 - 16)).drop 256
    (s.cur.level = .supervisor ∧ s.cur.strap.pl = .user ∧ s.cur.csr.held = true ∧ Waited s [2] ∧ (s.cur.x 2).extractLsb' 2 4 = 0 ∧
      (s.cur.x 2 &&& ~~~63#64).toNat = 0x2000000 ∧ s.opsOf s.cur = [] ∧ s.asking s.cur = false) ∧
    u.ctxTargets .load ps = .ok (ps.map fun p => stackAt p.1) ∧ u.ctxRead ps (ps.map fun p => stackAt p.1) = .ok imageHead ∧
    (headerLay imageHead.toArray).len = 49168 ∧ u.headerReason imageHead.toArray = 0 ∧
    u.ctxTargets .load qs = .ok (qs.map fun p => stackAt p.1) ∧ u.ctxRead qs (qs.map fun p => stackAt p.1) = .ok raw ∧
    raw.drop (49168 - 16) = gcmTag (keyOctets s.cur.identity.keyName) (imgIv (imgN imageHead.toArray 24 8)) imageHead cipher ∧
    contentsBad (imageHead ++ gcmCrypt (keyOctets s.cur.identity.keyName) (imgIv (imgN imageHead.toArray 24 8)) cipher).toArray s.cur.lanes = false := by
  intro s u ps qs raw cipher
  have hu : u = restorer := by
    show ({ restorer with cur := saver.cur.landHooks } : State) = restorer
    have : saver.cur.landHooks = saver.cur := by decide +kernel
    rw [this]
    rfl
  have hn : imgN imageHead.toArray 24 8 = 5 := by decide +kernel
  have hid : s.cur.identity = saver.cur.identity := rfl
  obtain ⟨e, -⟩ := Laws.open_seal saver.cur.identity.keyName (imgIv 5) imageHead imageBody
  have hraw : raw = imageHead ++ (gcmCrypt (keyOctets saver.cur.identity.keyName) (imgIv 5) imageBody ++
      gcmTag (keyOctets saver.cur.identity.keyName) (imgIv 5) imageHead (gcmCrypt (keyOctets saver.cur.identity.keyName) (imgIv 5) imageBody)) := by
    show imageBytes = _
    unfold imageBytes
    rw [e]
  have lc : (gcmCrypt (keyOctets saver.cur.identity.keyName) (imgIv 5) imageBody).length = 48896 := by
    rw [Laws.gcmCrypt_length _ _ _ (Laws.keyOctets_length _), body_length]
  have lhc : (imageHead ++ gcmCrypt (keyOctets saver.cur.identity.keyName) (imgIv 5) imageBody).length = 49168 - 16 := by
    rw [List.length_append, head_length, lc]
  have hcipher : cipher = gcmCrypt (keyOctets saver.cur.identity.keyName) (imgIv 5) imageBody := by
    show (raw.take (49168 - 16)).drop 256 = _
    rw [hraw, ← List.append_assoc, List.take_left' lhc]
    exact List.drop_left' head_length
  refine ⟨by unfold Waited; exact ⟨by decide +kernel, by decide +kernel, by decide +kernel, by decide +kernel, by decide +kernel, by decide +kernel, by decide +kernel, by decide +kernel⟩,
    ?_, ?_, by decide +kernel, ?_, ?_, ?_, ?_, ?_⟩
  · rw [hu]; decide +kernel
  · rw [hu, ctxRead_span ps 256 (by decide +kernel) (by omega)]
    show Except.ok (raw.take 256) = _
    rw [hraw, List.take_left' head_length]
  · rw [hu]; decide +kernel
  · rw [hu]; decide +kernel
  · rw [hu, ctxRead_span qs 49168 (by
      rw [show qs = ((List.range 192).map fun i => (0x2000000 + 256 * i, 256)) ++ [(0x2000000 + 256 * 192, 16)] by decide +kernel]
      exact pieces_span 0x2000000 192 16) (by omega)]
    show Except.ok (imageBytes.take 49168) = _
    rw [List.take_of_length_le (Nat.le_of_eq image_length)]
  · rw [hid, hn, hcipher, hraw, ← List.append_assoc]
    exact List.drop_left' lhc
  · rw [hid, hn, hcipher, Laws.gcmCrypt_twice _ _ _ (Laws.keyOctets_length _)]
    exact image_contents
/-- R206, R210: a save whose pieces can all be stored to, in a world whose contexts are not protected. -/
theorem witness_ContextImages_save : let u := { saver with cur := saver.cur.landHooks }
    saver.drained saver.cur = true ∧ (saver.worlds[saver.cur.world.toNat]).prot = false ∧
    imgLay saver.cur.lanes saver.cur.tileOwner 0 0 = saverLay ∧
    (match u.ctxTargets .store (blockPieces 0x2000000 49168) with | .ok _ => true | .error _ => false) = true := by
  refine ⟨by decide +kernel, by decide +kernel, rfl, by decide +kernel⟩

/-! States and operands for the clauses that stand beside the first ones of their statements. -/

theorem witness_IntegerForms_illegal : (0x180000C0 : Half).extractLsb' 26 6 = 0x06 ∧ (0x180000C0 : Half).extractLsb' 6 2 = 3 ∧
    (0x18000100 : Half).extractLsb' 26 6 = 0x06 ∧ (0x18000100 : Half).extractLsb' 8 8 ≠ 0 := by decide
theorem witness_CompactForms_illegal : (0x7C00 : BitVec 15).extractLsb' 10 5 = 31 ∧ (0x0001 : BitVec 15).extractLsb' 10 5 = 0 ∧
    (0x0001 : BitVec 15).extractLsb' 0 10 ≠ 0 := by decide
theorem witness_ScalarFloats_compact : let s := strict (hart [(1, 5)]); Waited s [4, s.cur.bank.ldest, 5] ∧ s.cur.rmCode < 5 := by
  unfold Waited; decide +kernel
/-- The far table's leaf in element mode. -/
def farElement (l : List (BitVec 5 × Word)) : State := { far l with mem := (far l).mem.writeClean 0 [0x3F, 0x80, 0, 0, 0, 0, 0xC0, 0] }
def farUnit (k : Nat) : Target := { home := .far 1, key := k, lworld := 0, enc := 2, nonce := 0, gen := 0 }
/-- A far hart with the answer to its claim of the two units at 0x2000008. -/
def claimed (u : UnitResult) (s : State) : State :=
  { s with farReqs := [{ id := 3, core := 0, ctx := 0, dev := 1, rid := 1, ask := .claim [(0x2000008, true), (0x200000C, true)], msg := .ack 0,
                         answer := some (.claims [(u, 7, 0), (u, 7, 0)]) }] }
theorem witness_Stores_far :
    (let s := far [(2, 0x2000008)]
     Waited s [2, 3] ∧ (s.cur.x 2).toNat % 8 = 0 ∧ translate s s.cur s.cur.level (s.cur.x 2) 8 .store true = .ok (farAt 0x2000008) ∧
     (farAt 0x2000008).isFar = true ∧ (s.farNeed s.cur (farAt 0x2000008) 8 false true).isNone = true ∧ s.asking s.cur = false ∧
     (match s.farClaims s.cur (farAt 0x2000008) 8 true .store 0x2000008 with | .ok _ => true | .error _ => false) = true ∧ s.cur.px 3 = false ∧
     (s.modCur fun h => { h with user := h.user.writeX 3 0 true }).cur.px 3 = true) ∧
    (let s := farElement [(2, 0x2000008)]
     translate s s.cur s.cur.level (s.cur.x 2) 8 .store true = .ok (farUnit 0x2000008) ∧ (s.farNeed s.cur (farUnit 0x2000008) 8 false true).isSome = true) ∧
    (let s := claimed .set (farElement [(2, 0x2000008)])
     (s.farNeed s.cur (farUnit 0x2000008) 8 false true).isNone = true ∧ s.asking s.cur = false ∧
     (match s.farClaims s.cur (farUnit 0x2000008) 8 true .store 0x2000008 with | .ok _ => false | .error _ => true) = true) ∧
    (let s := claimed .claimed (farElement [(2, 0x2000008)])
     (match s.farClaims s.cur (farUnit 0x2000008) 8 true .store 0x2000008 with | .ok _ => true | .error _ => false) = true) := by
  unfold Waited; decide +kernel
theorem witness_Atomics_far :
    (let s := far [(2, 0x2000008)]
     let u := (s.drainAll true).touch s.cur.world 0x2000008
     Waited s [2, 1, 3] ∧ (s.cur.x 2).toNat % 8 = 0 ∧ translate s s.cur s.cur.level (s.cur.x 2) 8 .atomic true = .ok (farAt 0x2000008) ∧
     (farAt 0x2000008).isFar = true ∧ SysClear s 5 ∧ u.answer s.cur (farAt 0x2000008).dev (.amo 0x2000008 0) = none) ∧
    (let asked (a : Option FarAnswer) : State := { far [(2, 0x2000008)] with
       farReqs := [{ id := 3, core := 0, ctx := 0, dev := 1, rid := 1, ask := .amo 0x2000008 0, msg := .ack 0, answer := a }] }
     (asked none).answer (asked none).cur 1 (.amo 0x2000008 0) = some none ∧
     (asked (some (.old 5))).answer (asked none).cur 1 (.amo 0x2000008 0) = some (some (.old 5)) ∧
     (asked (some (.fail 12 0x05))).answer (asked none).cur 1 (.amo 0x2000008 0) = some (some (.fail 12 0x05))) := by
  unfold Waited SysClear; decide +kernel
theorem witness_HooksAndDelay_landed :
    let s := (hart [(2, 1)]).modCur fun h => { h with pend := [{ seq := 1, land := 0, dest := .none, lvl := .user, hook := 3, done := true }] }
    Waited s [2] ∧ (s.cur.pend.filter fun p => p.done && p.land ≤ s.cur.slots && p.lvl == s.cur.level && p.hook == 3).length = 1 := by
  unfold Waited; decide +kernel
theorem witness_TrapReturn_resend :
    let s := atLevel .supervisor (hart [])
    let o : Op := { id := 4, core := 0, ctx := 0, seq := 1, lvl := .user, hook := 2, kind := .sleeve (.send 1 2 false none false) { lvl := .user, r := 0, live := false },
                    acq := false, va := 0, pc := 0, ret := 0 }
    let u := { s with sleeves := { s.sleeves with resend := [(s.cur.identity, o)] } }
    u.cur.level ≠ .user ∧ (u.sleeves.resend.filter fun e => e.1 == u.cur.identity && e.2.lvl == u.cur.strap.pl).length = 1 := by decide +kernel
theorem witness_CsrAccess_homes :
    (let s := atLevel .machine (hart []); Waited s [3] ∧ csrReach s.cur.level 0x381 = true ∧ csrReach s.cur.level 0x180 = true ∧ s.cur.level = .machine ∧ s.cur.level ≠ .user) ∧
    (let s := hart []; csrReach s.cur.level 0x005 = true ∧ csrReach s.cur.level 0x025 = true ∧ csrReach s.cur.level 0x181 = false) := by
  unfold Waited; decide +kernel
/-- A far hart at supervisor level. -/
def farTable : State := atLevel .supervisor (far [])
theorem witness_CsrEffects_far :
    ((0x2000001 : Word).extractLsb' 0 12).toNat ≤ 1024 ∧ farTable.spanNeeds farTable.cur farTable.cur .supervisor [(0x2000000, 8)] ≠ [] ∧
    (near []).spanNeeds (near []).cur (near []).cur .user [(0x2000000, 8)] = [] ∧ (near []).asking (near []).cur = false ∧
    farTable.regionsBusy 0 = false ∧ farTable.spanNeeds farTable.cur farTable.cur .supervisor [(0x2000000, 32)] ≠ [] := by decide +kernel
/-- One value of spres for each check of R22. -/
theorem witness_CsrEffects_spres :
    (hart []).spresCheck 0 (1#64 <<< 38 ||| 256#64 <<< 46 ||| 511#64 <<< 55) = 1 ∧ (hart []).spresCheck 0 (4#64 <<< 46 ||| 3#64 <<< 55) = 2 ∧
    ({ hart [] with sched := { (hart []).sched with allocs := [{ queue := 0, num := 0, world := 0, clus := 0, off := 0x30000, size := 1024 }] } } : State).spresCheck 0
      (4#64 <<< 46 ||| 4#64 <<< 55) = 3 ∧
    (flying .tailorBusy (hart [])).spresCheck 0 (4#64 <<< 46 ||| 4#64 <<< 55) = 4 ∧ (hart []).spresCheck 0 (4#64 <<< 46 ||| 4#64 <<< 55) = 0 := by decide +kernel
/-- One packet for each check of R104. -/
theorem witness_HostLaunches_checks : let s := withQueue (bound 1) State.reset
    s.packetCheck (packet ||| 1#512 <<< 223) none = 1 ∧ s.packetCheck (packet ||| 2#512 <<< 248) none = 2 ∧ s.packetCheck packet (some 1) = 2 ∧
    s.packetCheck (packet ^^^ 1#512 <<< 208) none = 3 ∧ s.packetCheck (packet ||| 1#512 <<< 224) none = 4 ∧ s.packetCheck (packet ||| 2) none = 5 ∧
    s.packetCheck (packet ||| 8#512 <<< 128) none = 6 ∧ s.packetCheck (packet ||| 1#512 <<< 319) none = 7 ∧ s.packetCheck packet none = 0 := by decide +kernel
/-- One header for each reason of R210. -/
def headerWith (l : List (Nat × Byte)) : List Byte := l.foldl (fun h e => h.set e.1 e.2) (ctxHeader saver saver.cur false false 5 saverLay)
theorem witness_ContextImages_reasons :
    let p := withWorld 0 (fun w => { w with attr := 8 }) saver
    let saved (live : Bool) (c : Nat) : State := { p with thatum := { p.thatum with saves := [{ owner := p.cur.identity, c, live }] } }
    saver.headerReason (headerWith [(22, 1)]).toArray = 1 ∧ saver.headerReason (headerWith [(18, 9)]).toArray = 2 ∧
    (saver.modCur fun h => { h with lanes := 8 }).headerReason (headerWith []).toArray = 3 ∧ (saver.modCur fun h => { h with lane0 := 0 }).headerReason (headerWith []).toArray = 4 ∧
    p.headerReason (headerWith [(19, 1)]).toArray = 5 ∧ (saved true 6).headerReason (headerWith [(19, 1)]).toArray = 6 ∧
    (saved false 5).headerReason (headerWith [(19, 1)]).toArray = 7 ∧ (saved true 5).headerReason (headerWith [(19, 1)]).toArray = 0 := by decide +kernel
theorem witness_Dispatching_reclaim : onDispatcher 0 (spread.set 0 { core := 0, ctx := 1, lane0 := 28, tcm := 4096, spad := 0 }) = true ∧
    yielding.refusedHead 0 = none ∧ (yielding.chooseHead 0).isNone = true ∧
    (yielding.reclaim 0 (spread.set 0 { core := 0, ctx := 1, lane0 := 28, tcm := 4096, spad := 0 })).isSome = true := by decide +kernel
/-- One value of vtype for each cause of R275. -/
theorem witness_VectorSettings_causes : vtypeCause (1#64 <<< 27) = 1 ∧ vtypeCause 4 = 2 ∧ vtypeCause (6#64 <<< 9) = 3 ∧ vtypeCause (1#64 <<< 12) = 4 ∧
    vtypeCause (10#64 <<< 21) = 5 ∧ vtypeCause (9#64 <<< 21 ||| 7#64 <<< 12 ||| 5#64 <<< 9 ||| 3) = 0 := by decide
theorem witness_VectorSettings_former : let s := (vhart 0 4 4 [] []).modCur fun h => { h with lane0 := 4, former := some (0, 8) }
    s.cur.claimed = 0 ∧ s.cur.former = some (0, 8) ∧ PanelFree s (0, 8) := by
  refine ⟨by decide +kernel, by decide +kernel, fun l _ _ => ⟨fun h m c x => ?_, fun x m => ?_⟩⟩
  · have e : ((vhart 0 4 4 [] []).modCur fun h => { h with lane0 := 4, former := some (0, 8) }).activeHarts =
        [((vhart 0 4 4 [] []).modCur fun h => { h with lane0 := 4, former := some (0, 8) }).cur] := by decide +kernel
    rw [e, List.mem_singleton] at m
    exact absurd (by rw [m]) x
  · have e : ((vhart 0 4 4 [] []).modCur fun h => { h with lane0 := 4, former := some (0, 8) }).sched.heldFor = [] := by decide +kernel
    rw [e] at m
    exact absurd m List.not_mem_nil
theorem witness_VectorFloats_rounding :
    fmtH ∈ formats ∧ (fmtH.read 0x7E00).isNan = true ∧ (fmtH.read 0x3C00).isNan = false ∧ (Fp.inf false).mul (.fin false 0 0) = none ∧
    (Fp.inf false).mul (.fin true 1 0) = some (.inf true) ∧ (Fp.fin false 3 1).mul (.fin true 5 2) = some (.fin true 15 3) ∧ (Fp.fin false 0 1).mul (.fin true 5 2) = some (.fin true 0 3) ∧
    fmtH.add .rne false (.inf false) (.inf true) = (fmtH.nan, fNV) ∧ fmtH.add .rdn false (.fin false 1 0) (.fin true 1 0) = (fmtH.signBit true, 0) ∧
    fmtH.add .rne false (.fin false 1 0) (.fin true 1 0) = (0, 0) ∧ fmtH.add .rne false (.fin false 1 0) (.fin false 1 0) = (0x4000, 0) ∧
    fmtH.round .rtz false false 3 20 = (0x7BFF, fOF ||| fNX) ∧ (fmtH.round .rne true false 1 (-20)).2 = fUF ||| fNX := by decide +kernel
theorem witness_Tiles_misaligned : let s := strict (vhart 0 32 8 [] [(4, 0x1000000), (6, 2)])
    VecReady s [4, 6] [] ∧ Unsampled s ∧ (s.cur.x 4).toNat % 4 = 0 ∧ (s.cur.x 6).toNat % 4 ≠ 0 := by
  unfold VecReady VecReadyAt Waited Unsampled; decide +kernel
theorem witness_Tiles_cut : 2 ^ 53 - 1 < 2 ^ 53 ∧ sliced 3 (.fin true (2 ^ 53 - 1) 0) = .fin true ((2 ^ 53 - 1) / 2 ^ 29 * 2 ^ 29) 0 := by decide
/-- A copy of an element-mode word to the scratchpad. -/
theorem witness_CopyElements_cipher : let s := element []
    let t : Target := { home := .stack 0, key := 0x2000008, lworld := 0, enc := 2, nonce := 7, gen := 0 }
    translate s s.cur .user 0x2000008 4 .load true = .ok t ∧ t.enc = 2 ∧ (spadAt 16).home = .spad ∧ t.erased s 0 = false ∧ s.mem.anyPoison t.key 4 = false := by
  decide +kernel
theorem witness_ResultsAndBarriers_coming : let s := flying .tailorBusy (hart [])
    (s.chanOps s.cur.core s.cur.ctx .tailor).any (fun o => match o.kind with | .tailor .. | .tailorBusy => true | _ => false) = true ∧
    s.cur.rpFifo = [] ∧ Clear s .tailor := by unfold Clear; decide +kernel
/-- An arrival that nothing holds up, and one behind another of its channel. -/
theorem witness_ResultsAndBarriers_taken :
    let m : BarMsg := .arrive 0 7 2 4 3
    let s := withPeer (fun p => { p with bars := [m] }) pair
    (s.peer 1).bars.takeWhile (· != m) = [] ∧ (s.barArrive 5 s.device 7 2 0 (1, 4)).isSome = true ∧ (s.barTake 1 m).isSome = true ∧
    (((withPeer (fun p => { p with bars := [.arrive 0 8 2 5 3, m] }) pair).peer 1).bars.takeWhile (· != m)).any (fun x => match x with | .arrive _ _ _ _ g => g == 3 | _ => false) = true ∧
    (s.fabric.peers.findSome? fun p => p.bars.findSome? fun m => s.barTake p.dev m).isSome = true ∧
    (pair.fabric.peers.findSome? fun p => p.bars.findSome? fun m => pair.barTake p.dev m).isNone = true := by decide +kernel
/-- The send end of sleeve 0 and the cuff of a sleeve 1 end that the hart owns too. -/
def sendEnd (k : Nat) (peer : Option Nat) : SleeveEnd := { endIn [] with sl := { home := 0, index := k }, recv := false, peerClosed := peer }
def twoEnds (peer : Option Nat) (taken next : Nat) (x : SleeveCmd) : State :=
  { flying (.sleeve x { lvl := .user, r := 0, live := false }) (hart []) with
    sleeves := { dir := [{ index := 0, world := 0, used := true, sendGen := 0, recvGen := 0, sendDev := 0, recvDev := 0, taken := 0, waiting := [], sendClosed := none, recvClosed := false, sendLost := false, recvLost := false }]
                 ends := [{ sendEnd 0 peer with taken, next }, { endIn [] with sl := { home := 0, index := 1 } }], forwards := [] } }
theorem witness_Sleeves_status :
    (let s := twoEnds none 0 0 (.send 0 5 false none false)
     s.validEnd s.cur 0 = some (sendEnd 0 none) ∧ s.validEnd s.cur 1 = none ∧ s.hartAt 0 0 = some s.cur ∧ ((s.sleeveOps 0 0).head?.map (·.kind)) =
       some (.sleeve (.send 0 5 false none false) { lvl := .user, r := 0, live := false }) ∧ ¬(64 + (sendEnd 0 none).taken ≤ (sendEnd 0 none).next) ∧
     (s.openSleeve s.cur).isSome = true ∧ (∃ e ∈ s.sleeves.dir, e.used = true ∧ e.index = 0)) ∧
    (let s := twoEnds (some 3) 0 0 (.pass 0 0x18000000000 none false)
     s.validEnd s.cur 0 = some (sendEnd 0 (some 3)) ∧ s.validEnd s.cur 0x18000000000 = some { endIn [] with sl := { home := 0, index := 1 } } ∧
     (sendEnd 0 (some 3)).peerClosed ≠ none) ∧
    (let s := twoEnds none 0 64 (.send 0 5 false none false)
     s.validEnd s.cur 0 = some { sendEnd 0 none with next := 64 } ∧ 64 + 0 ≤ 64) ∧
    (let e : SleeveEnd := endIn [item0]; e.ready 2 = 1 ∧ (1 < 2)) := by decide +kernel
/-- One descriptor for each check of R338. -/
theorem witness_Tailoring_checks : let s := tailor []
    s.tailorCheck true (emptyDispatch ||| 1#1024 <<< 16) 1 = 1 ∧ s.tailorCheck false emptyDispatch 1 = 2 ∧ s.tailorCheck true (emptyDispatch ^^^ 8#1024 <<< 224) 1 = 3 ∧
    s.tailorCheck true emptyDispatch 2 = 4 ∧ s.tailorCheck true emptyDispatch 3 = 4 ∧ s.tailorCheck false (8#1024 <<< 224) 1 = 5 ∧
    s.tailorCheck true (emptyDispatch ||| 1#1024 <<< 552) 1 = 6 ∧ s.tailorCheck true emptyDispatch 1 = 0 := by decide +kernel
/-- Moduli, degrees and keys for the words that ciphertext operations write. -/
theorem witness_CiphertextKeys_data :
    (∀ q ∈ [17, 97], 0 < q) ∧ (4 : Nat) = 2 ^ Nat.log2 4 ∧ 3 % 2 = 1 ∧ [17, 97].Pairwise Nat.Coprime ∧ (∀ q ∈ [17, 97], 1 < q) ∧ 1 ≤ [17, 97].length ∧
    2 * 3 * (4 + 1) ≤ (List.replicate 30 7).length ∧ 2 * 3 * (if true then 4 else 2 * 4) ≤ (List.replicate 24 7).length ∧ 2 * 3 * (if false then 4 else 2 * 4) ≤ (List.replicate 48 7).length ∧
    (expandRow 9 5 0 17 0).length = 0 ∧ 8 ≤ 2 * 4 ∧ (List.replicate 10 3).length = 2 * 4 + 2 ∧
    [1, 2].getD 0 0 % [17, 97].getD 0 1 = 1 % 17 ∧
    (∃ z, z < [17, 97].foldl (· * ·) 1 ∧ ∀ j < [17, 97].length, z % [17, 97].getD j 1 = (List.replicate 16 5).getD (2 * 4 * j + 3) 0 % [17, 97].getD j 1) := by
  refine ⟨by decide, by decide +kernel, by decide, by decide +kernel, by decide, by decide, by decide, by decide, by decide, by simp [expandRow, expandFrom], by decide, by decide,
    by decide, 5, by decide, by decide +kernel⟩
theorem witness_HostRegisters_offsets :
    State.reset.board.bootst ≠ 1 ∧ ({ State.reset with board := { State.reset.board with bootst := 1 } } : State).board.bootst = 1 ∧ 1 ≤ 63 ∧ 63 < 64 ∧ 255 < 256 ∧
    (0x30 : Nat) % 8 = 0 ∧ regPage 0x10FFFF = none ∧ regPage 0x110000 = some (.world 1) ∧ regPage 0x4FFFF8 = some (.world 63) ∧ regPage 0x500000 = none ∧
    regPage 0x1000000 = some (.queue 0) ∧ regPage 0x1FFFFF8 = some (.queue 255) ∧ regPage 0x2FFFFF8 = some (.bounce 255) ∧ regPage 0x3000000 = none := by decide +kernel
theorem witness_AlarmsAndErrors_files :
    (let e : LoopEntry := { count := 1, stop := 0x100010, start := 0x100004, fixed := false, lvl := 0 }
     let s := (hart []).modCur fun h => { h with sup := { h.sup with nest := [e] } }
     0 < (s.cur.bankOf .supervisor).nest.length ∧ (s.cur.poisonReg 18 0).isSome = true) ∧
    (State.reset.poisonShared 0 0x118).isSome = true ∧ ((hart []).cur.poisonReg 5 0x026).isSome = true ∧ regPage 0x1008 = some .device ∧ 0x1008 % 8 = 0 := by decide +kernel
theorem witness_FarRequestsAtHome_acks :
    let a : WackMsg := { seq := 8, count := 1 }
    let s := withPeer (fun p => { p with ack := some { seq := 7, count := 1 } }) pair
    (s.peer 1).ack = some { seq := 7, count := 1 } ∧ (7 + 1) % 2 ^ 32 = a.seq ∧ a.refused = 0 ∧ a.world = 0 ∧ (8 + 1) % 2 ^ 32 ≠ a.seq ∧ (pair.peer 1).ack = none := by
  decide +kernel
theorem witness_MessagesHandedOn_cuffs :
    pair.board.bootst ≠ 1 ∧ (pair.peer 1).ack = none ∧ (pair.peer 0).lost = false ∧
    (let s := { pair with groups := [{ group0 with op := none }] }; (s.passNext 1).groupOf 7 2 1 = some { group0 with op := none }) := by decide +kernel
theorem witness_Sessions_packets :
    let s := { withPeer (fun p => { p with writes := [(6, .wr { seq := 6, tag := tag0, addr := 0x4000000, data := [1] })] }) pair with
               accepted := [[1]], fabric := { (withPeer (fun p => { p with writes := [(6, .wr { seq := 6, tag := tag0, addr := 0x4000000, data := [1] })] }) pair).fabric with
                 outbox := [queued0], sent := [{ queued0 with began := some 3 }] } }
    1 ∈ s.members ∧ 1 ≠ s.device ∧ (∀ e ∈ (s.peer 1).cache, 0 < ((0 : BitVec 16) - e.1).toInt) ∧ ([1] : List Byte) ∈ s.accepted ∧ (s.peer 1).writes.length < 2 ^ 32 := by
  decide +kernel
/-- An image without loops has a nest that keeps R257. -/
theorem witness_ContextImages_nest : ImageNest #[] :=
  ⟨0, by omega, fun i j _ _ _ => by simp, fun i h => absurd h (by omega)⟩

end Sys2Proof.Tests
end

section
/-! Compact instructions (R234 to R238): the halves of a pair word, the values their operations give, and the expansion of each. -/
namespace Sys2Proof.Proofs
open Sys2Proof.Machine Sys2Proof.Claims Sys2Proof.Laws Sys2Proof.Laws.Fields

/-! An instruction that one of the shared result operations gives its meaning completes as that operation says. -/

theorem completes_of_alu {i : Instr} {s : State} {srcs : List (BitVec 5)} {d : BitVec 5} {v : Word}
    (he : exec i s = s.alu srcs d v) (hw : Waited s srcs) : Completes i s (AluDone s d v (srcs.any s.cur.px)) := by
  unfold Completes
  rw [he]
  exact alu_done d v hw

theorem completes_of_aluLate {i : Instr} {s : State} {lat : Nat} {srcs : List (BitVec 5)} {d : BitVec 5} {v : Word} {f : BitVec 5}
    (he : exec i s = s.aluLate lat srcs d v f) (hw : Waited s srcs) :
    Completes i s (LateDone s lat d v (srcs.any s.cur.px) f) := by
  unfold Completes
  rw [he]
  exact aluLate_done lat d v f hw

theorem any_px_one (h : Hart) (a : BitVec 5) : [a].any h.px = h.px a := by simp
theorem any_px_two (h : Hart) (a b : BitVec 5) : [a, b].any h.px = (h.px a || h.px b) := by simp

/-- A retirement changes no register, hook, ldest or operation: a no-operation is quiet and goes on in sequence. -/
theorem retire_quiet (s : State) : Quiet s s.retire ∧ Sequel s s.retire := by
  obtain ⟨frame, rest, banks, ⟨hx, hpx, hh, hph⟩, ldest, seq, pend, slots, ret⟩ := tail_view s 0
  rw [show s.setLdest 0 = s from if_pos rfl] at *
  have ops : s.retire.ops = s.ops := rfl
  exact ⟨⟨scalarFrame_of (by rw [ops]; exact frame) rest slots ret, banks, xKept_of hx hpx, ⟨hh, hph⟩, ldest, pend, ops⟩, seq⟩

/-! The model's operators in the words of the statements. -/

/-- The shift amount is the register modulo 64 (R244). -/
theorem shiftBy_eq_mod (v : Word) : shiftBy v = v.toNat % 64 := by
  unfold shiftBy
  rw [BitVec.extractLsb'_toNat, Nat.shiftRight_zero]

theorem ite_slt {α : Type} (x y : Word) (t e : α) : (if x.slt y then t else e) = if x.toInt < y.toInt then t else e :=
  if_congr BitVec.slt_iff_toInt_lt rfl rfl
theorem ite_ult {α : Type} (x y : Word) (t e : α) : (if x.ult y then t else e) = if x.toNat < y.toNat then t else e :=
  if_congr BitVec.ult_iff_toNat_lt rfl rfl
theorem ofBoolW_slt (x y : Word) : ofBoolW (x.slt y) = if x.toInt < y.toInt then 1 else 0 := ite_slt x y 1 0
theorem ofBoolW_ult (x y : Word) : ofBoolW (x.ult y) = if x.toNat < y.toNat then 1 else 0 := ite_ult x y 1 0

/-- A product is the product of the values, modulo 2^64 (R41). -/
theorem mul_eq_ofNat (x y : Word) : x * y = BitVec.ofNat 64 (x.toNat * y.toNat) := by
  rw [BitVec.ofNat_mul, BitVec.ofNat_toNat, BitVec.ofNat_toNat, BitVec.setWidth_eq, BitVec.setWidth_eq]

/-- A compact immediate is the immediate of its expansion (R221, R237). -/
theorem imm16s_signExtend (b : BitVec 5) : imm16s (b.signExtend 16) = simm5 b := by
  apply BitVec.eq_of_toInt_eq
  unfold imm16s simm5
  rw [BitVec.toInt_signExtend_of_le (by decide), BitVec.toInt_signExtend_of_le (by decide), BitVec.toInt_signExtend_of_le (by decide)]

/-- The address of a compact access is that of its expansion: the offset b·size is not negative (R222, R237). -/
theorem addrM_setWidth (h : Hart) (a b : BitVec 5) (n : Nat) : h.addrM a (b.setWidth 9) n = h.x a + BitVec.ofNat 64 (n * b.toNat) := by
  have hb : (b.setWidth 9).msb = false := by
    rw [BitVec.msb_setWidth]
    simp
  unfold Hart.addrM
  rw [BitVec.signExtend_eq_setWidth_of_msb_false hb, Nat.mul_comm, BitVec.ofNat_mul, BitVec.ofNat_toNat]
  rfl

/-! Each compact operation by its table (R237). -/

/-- The register operations of latency 1: each gives its table's value of X[L] and X[b]. -/
theorem exec_compactTable : ∀ e ∈ compactTable, ∀ (a b : BitVec 5) (s : State),
    exec (e.1 a b) s = s.alu [s.cur.bank.ldest, b] a (e.2 (s.cur.x s.cur.bank.ldest) (s.cur.x b)) := by
  simp only [compactTable, List.forall_mem_cons]
  refine ⟨?add, ?sub, ?and, ?or, ?xor, ?shl, ?shr, ?sra, ?slt, ?sltu, ?min, ?max, ?minu, ?maxu, List.forall_mem_nil _⟩ <;>
    intro a b s
  case add | sub | and | or | xor => rfl
  case shl | shr | sra => rw [← shiftBy_eq_mod]; rfl
  case slt => rw [← ofBoolW_slt]; rfl
  case sltu => rw [← ofBoolW_ult]; rfl
  case min | max => rw [← ite_slt]; rfl
  case minu | maxu => rw [← ite_ult]; rfl

/-- The immediate operations: each gives its table's value of X[L] and the immediate. -/
theorem exec_compactImmTable : ∀ e ∈ compactImmTable, ∀ (a b : BitVec 5) (s : State),
    exec (e.1 a b) s = s.alu [s.cur.bank.ldest] a (e.2 (s.cur.x s.cur.bank.ldest) b) := by
  simp only [compactImmTable, List.forall_mem_cons]
  refine ⟨?addi, ?andi, ?shli, ?shri, ?srai, ?slti, List.forall_mem_nil _⟩ <;> intro a b s
  case addi | andi | shli | shri | srai => rfl
  case slti => rw [← ofBoolW_slt]; rfl

/-- The products, of latency 3 and without flags. -/
theorem exec_compactMulTable : ∀ e ∈ compactMulTable, ∀ (a b : BitVec 5) (s : State),
    exec (e.1 a b) s = s.aluLate 3 [s.cur.bank.ldest, b] a (e.2 (s.cur.x s.cur.bank.ldest) (s.cur.x b)) 0 := by
  simp only [compactMulTable, List.forall_mem_cons]
  refine ⟨?mul, ?mulhu, List.forall_mem_nil _⟩ <;> intro a b s
  case mul => rw [← mul_eq_ofNat]; rfl
  case mulhu => rfl

/-! The expansions whose operands the compact form writes in another way (R237): immediates, shift amounts and offsets. -/

section
variable (a b : BitVec 5) (s : State)

theorem exec_cAddi : exec (.cAddi a b) s = exec (.addi a s.cur.bank.ldest (b.signExtend 16)) s :=
  congrArg (fun i => s.alu [s.imp] a (s.xL + i)) (imm16s_signExtend b).symm
theorem exec_cAndi : exec (.cAndi a b) s = exec (.andi a s.cur.bank.ldest (b.signExtend 16)) s :=
  congrArg (fun i => s.alu [s.imp] a (s.xL &&& i)) (imm16s_signExtend b).symm
theorem exec_cSlti : exec (.cSlti a b) s = exec (.slti a s.cur.bank.ldest (b.signExtend 16)) s :=
  congrArg (fun i => s.alu [s.imp] a (ofBoolW (s.xL.slt i))) (imm16s_signExtend b).symm

/-- A compact shift amount is that of its expansion. -/
theorem toNat_shift_amount : b.toNat = (b.setWidth 6).toNat := (BitVec.toNat_setWidth_of_le (by decide)).symm

theorem exec_cShli : exec (.cShli a b) s = exec (.shli a s.cur.bank.ldest (b.setWidth 6)) s :=
  congrArg (fun n => s.alu [s.imp] a (s.xL <<< n)) (toNat_shift_amount b)
theorem exec_cShri : exec (.cShri a b) s = exec (.shri a s.cur.bank.ldest (b.setWidth 6)) s :=
  congrArg (fun n => s.alu [s.imp] a (s.xL >>> n)) (toNat_shift_amount b)
theorem exec_cSrai : exec (.cSrai a b) s = exec (.srai a s.cur.bank.ldest (b.setWidth 6)) s :=
  congrArg (fun n => s.alu [s.imp] a (s.xL.sshiftRight n)) (toNat_shift_amount b)

theorem exec_cLdD : exec (.cLdD a b) s = exec (.ldD a s.cur.bank.ldest 0 (b.setWidth 9)) s :=
  congrArg (fun va => s.loadX a s.imp va 8 true 0) (addrM_setWidth s.cur s.imp b 8).symm
theorem exec_cLdW : exec (.cLdW a b) s = exec (.ldW a s.cur.bank.ldest 0 (b.setWidth 9)) s :=
  congrArg (fun va => s.loadX a s.imp va 4 true 0) (addrM_setWidth s.cur s.imp b 4).symm
theorem exec_cStD : exec (.cStD a b) s = exec (.stD a s.cur.bank.ldest 0 (b.setWidth 9)) s :=
  congrArg (fun va => s.storeX a s.imp va 8 0) (addrM_setWidth s.cur s.imp b 8).symm
theorem exec_cStW : exec (.cStW a b) s = exec (.stW a s.cur.bank.ldest 0 (b.setWidth 9)) s :=
  congrArg (fun va => s.storeX a s.imp va 4 0) (addrM_setWidth s.cur s.imp b 4).symm

end

/-! The halves of a pair word (R215, R238), and the halves that hold no instruction (R237, R239). -/

theorem isPair_pairWord (h g : BitVec 15) : isPair (pairWord h g) = true := by
  unfold isPair pairWord
  rw [high _ _ _ _ (by omega), high _ _ _ _ (by omega)]
  rfl
theorem pairWord_first (h g : BitVec 15) : (pairWord h g).extractLsb' 15 15 = h := by
  unfold pairWord
  rw [high _ _ _ _ (by omega), low _ _ _ _ (by omega), full]
theorem pairWord_second (h g : BitVec 15) : (pairWord h g).extractLsb' 0 15 = g := by
  unfold pairWord
  rw [low _ _ _ _ (by omega), full]

theorem decode_pairWord_first (h g : BitVec 15) : decode (pairWord h g) false = checked (decodeCompact h) := by
  unfold decode
  rw [if_pos (isPair_pairWord h g), if_neg Bool.false_ne_true, pairWord_first]
theorem decode_pairWord_second (g h : BitVec 15) : decode (pairWord g h) true = checked (decodeCompact h) := by
  unfold decode
  rw [if_pos (isPair_pairWord g h), if_pos rfl, pairWord_second]

/-- Op 31 names no operation. -/
theorem decodeCompact_op31 {h : BitVec 15} (hop : h.extractLsb' 10 5 = 31) : decodeCompact h = .error .function := by
  unfold decodeCompact
  rw [hop]
  rfl
theorem decodeCompact_op0 {h : BitVec 15} (hop : h.extractLsb' 10 5 = 0) :
    decodeCompact h = .ok (.cNop (h.extractLsb' 5 5) (h.extractLsb' 0 5)) := by
  unfold decodeCompact
  rw [hop]
  rfl

/-- The fields a and b of a half are its low ten bits (R234). -/
theorem compact_fields_append (h : BitVec 15) : h.extractLsb' 5 5 ++ h.extractLsb' 0 5 = h.extractLsb' 0 10 :=
  BitVec.extractLsb'_append_extractLsb'_eq_extractLsb' rfl

theorem checked_formError {i : Instr} {e : FormError} (h : i.formError = some e) : checked (.ok i) = .error (.form e) := by
  simp only [checked, h]

/-- A no-operation passes the range checks only with both fields 0. -/
theorem formError_cNop {a b : BitVec 5} (hab : a ++ b ≠ 0#10) : Instr.formError (.cNop a b) = some .nop := by
  have hne : ¬(a == 0 && b == 0) = true := by
    intro h
    obtain ⟨ha, hb⟩ := Bool.and_eq_true_iff.mp h
    exact hab (by rw [eq_of_beq ha, eq_of_beq hb]; rfl)
  exact if_neg hne

theorem checked_decodeCompact_error {h : BitVec 15}
    (hh : h.extractLsb' 10 5 = 31 ∨ (h.extractLsb' 10 5 = 0 ∧ h.extractLsb' 0 10 ≠ 0)) :
    ∃ e, checked (decodeCompact h) = .error e := by
  obtain hop | ⟨hop, hfields⟩ := hh
  · exact ⟨_, by rw [decodeCompact_op31 hop]; rfl⟩
  · rw [decodeCompact_op0 hop]
    exact ⟨_, checked_formError (formError_cNop (by rw [compact_fields_append]; exact hfields))⟩

/-- Settles O10: each compact operation runs the shared operation of its expansion on X[L], and the halves of R237 that are no
instruction fail in the decoder or in the check of a no-operation's fields. -/
theorem compactForms : Obligations.CompactForms := by
  unfold Obligations.CompactForms
  refine ⟨⟨?regs, ?imms, ?products, ?nop⟩, ?illegal, ?expansion⟩
  case regs =>
    intro e he a b s hw
    rw [← any_px_two]
    exact completes_of_alu (exec_compactTable e he a b s) hw
  case imms =>
    intro e he a b s hw
    rw [← any_px_one]
    exact completes_of_alu (exec_compactImmTable e he a b s) hw
  case products =>
    intro e he a b s hw
    rw [← any_px_two]
    exact completes_of_aluLate (exec_compactMulTable e he a b s) hw
  case nop => exact fun a b s => ⟨s.retire, rfl, retire_quiet s⟩
  case illegal =>
    intro h g hh
    rw [decode_pairWord_first, decode_pairWord_second]
    exact ⟨checked_decodeCompact_error hh, checked_decodeCompact_error hh⟩
  case expansion =>
    intro a b s
    exact ⟨rfl, rfl, rfl, rfl, rfl, rfl, rfl, rfl, rfl, rfl, rfl, rfl, rfl, rfl, rfl, rfl,
      exec_cAddi a b s, exec_cAndi a b s, exec_cSlti a b s, exec_cShli a b s, exec_cShri a b s, exec_cSrai a b s,
      exec_cLdD a b s, exec_cLdW a b s, exec_cStD a b s, exec_cStW a b s, rfl, rfl, rfl, rfl⟩

end Sys2Proof.Proofs
end

section
/-! Register and immediate forms of latency 1 (R221, R244, R246): bit counts, the byte swap, and the words of major 0x06 that are no instruction. -/
namespace Sys2Proof.Proofs
open Sys2Proof.Machine Sys2Proof.Claims Sys2Proof.Laws

/-! The model's counts go from bit to bit; the statement's are lengths and counts over the list of bit numbers (R244). -/

theorem leadingZeros_eq_length_takeWhile (n v : Nat) :
    leadingZeros n v = ((List.range n).takeWhile fun i => !v.testBit (n - 1 - i)).length := by
  induction n with
  | zero => rfl
  | succ n ih =>
    have below : (fun i => !v.testBit (n + 1 - 1 - i)) ∘ Nat.succ = fun i => !v.testBit (n - 1 - i) := by
      funext i
      simp only [Function.comp_apply, Nat.succ_eq_add_one]
      congr 2
      omega
    rw [leadingZeros, List.range_succ_eq_map, List.takeWhile_cons, List.takeWhile_map, below, ih]
    cases h : v.testBit n <;> simp [h, Nat.add_comm]

theorem trailingZeros_eq_length_takeWhile (n i v : Nat) :
    trailingZeros n i v = ((List.range' i n).takeWhile fun j => !v.testBit j).length := by
  induction n generalizing i with
  | zero => rfl
  | succ n ih =>
    rw [trailingZeros, List.range'_succ, List.takeWhile_cons, ih]
    cases h : v.testBit i <;> simp [Nat.add_comm]

theorem popCount_eq_countP (n v : Nat) : popCount n v = (List.range n).countP v.testBit := by
  induction n with
  | zero => rfl
  | succ n ih => rw [popCount, List.range_succ, List.countP_append, List.countP_singleton, ih, Nat.add_comm]

/-! The byte swap (R4, R244). -/

/-- A byte below a value is its least significant one. -/
theorem toNat_append_byte {n : Nat} (x : BitVec n) (b : Byte) : (x ++ b).toNat = b.toNat + 256 * x.toNat := by
  rw [BitVec.toNat_append, ← Nat.shiftLeft_add_eq_or_of_lt b.isLt, Nat.shiftLeft_eq]
  omega

/-- Byte i of a word is a digit of its value in base 256. -/
theorem ofNat_byte_eq_extractLsb' (v : Word) (i : Nat) : BitVec.ofNat 8 (v.toNat / 256 ^ i) = v.extractLsb' (8 * i) 8 := by
  apply BitVec.eq_of_toNat_eq
  rw [BitVec.toNat_ofNat, BitVec.extractLsb'_toNat, Nat.shiftRight_eq_div_pow, Nat.pow_mul]

theorem toBytes_eq_map (n v : Nat) : toBytes n v = (List.range n).map fun i => BitVec.ofNat 8 (v / 256 ^ i) := by
  induction n generalizing v with
  | zero => rfl
  | succ n ih =>
    rw [toBytes, ih, List.range_succ_eq_map, List.map_cons, List.map_map, Nat.pow_zero, Nat.div_one]
    refine congrArg _ (List.map_congr_left fun i _ => ?_)
    rw [Function.comp_apply, Nat.div_div_eq_div_mul, ← Nat.pow_succ']

theorem toBytes_word (v : Word) : toBytes 8 v.toNat = (List.range 8).map fun i => v.extractLsb' (8 * i) 8 := by
  rw [toBytes_eq_map]
  exact List.map_congr_left fun i _ => ofNat_byte_eq_extractLsb' v i

theorem byteSwap_eq_append (v : Word) :
    byteSwap v = v.extractLsb' 0 8 ++ v.extractLsb' 8 8 ++ v.extractLsb' 16 8 ++ v.extractLsb' 24 8 ++
      v.extractLsb' 32 8 ++ v.extractLsb' 40 8 ++ v.extractLsb' 48 8 ++ v.extractLsb' 56 8 := by
  have value : ofBytes (toBytes 8 v.toNat).reverse =
      (v.extractLsb' 0 8 ++ v.extractLsb' 8 8 ++ v.extractLsb' 16 8 ++ v.extractLsb' 24 8 ++
        v.extractLsb' 32 8 ++ v.extractLsb' 40 8 ++ v.extractLsb' 48 8 ++ v.extractLsb' 56 8).toNat := by
    rw [toBytes_word]
    simp only [toNat_append_byte]
    rfl
  unfold byteSwap
  rw [value]
  exact (BitVec.ofNat_toNat 64 _).trans (BitVec.setWidth_eq _)

/-! Each operation by its table (R244, R246). -/

/-- The register operations of latency 1: each gives its table's value of X[a] and X[b]. -/
theorem exec_intTable : ∀ e ∈ intTable, ∀ (d a b : BitVec 5) (s : State),
    exec (e.1 d a b) s = s.alu [a, b] d (e.2 (s.cur.x a) (s.cur.x b)) := by
  simp only [intTable, List.forall_mem_cons]
  refine ⟨?add, ?sub, ?and, ?or, ?xor, ?shl, ?shr, ?sra, ?slt, ?sltu, ?min, ?max, ?minu, ?maxu, List.forall_mem_nil _⟩ <;>
    intro d a b s
  case add | sub | and | or | xor => rfl
  case shl | shr | sra => rw [← shiftBy_eq_mod]; rfl
  case slt => rw [← ofBoolW_slt]; rfl
  case sltu => rw [← ofBoolW_ult]; rfl
  case min | max => rw [← ite_slt]; rfl
  case minu | maxu => rw [← ite_ult]; rfl

/-- The operations with one register source: each gives its table's value of X[a]. -/
theorem exec_bitTable : ∀ e ∈ bitTable, ∀ (d a : BitVec 5) (s : State),
    exec (e.1 d a) s = s.alu [a] d (e.2 (s.cur.x a)) := by
  simp only [bitTable, List.forall_mem_cons]
  refine ⟨?clz, ?ctz, ?popc, ?bswap, List.forall_mem_nil _⟩ <;> intro d a s
  case clz => exact congrArg (fun n => s.alu [a] d (BitVec.ofNat 64 n)) (leadingZeros_eq_length_takeWhile 64 _)
  case ctz =>
    rw [List.range_eq_range']
    exact congrArg (fun n => s.alu [a] d (BitVec.ofNat 64 n)) (trailingZeros_eq_length_takeWhile 64 0 _)
  case popc => exact congrArg (fun n => s.alu [a] d (BitVec.ofNat 64 n)) (popCount_eq_countP 64 _)
  case bswap => exact congrArg (s.alu [a] d) (byteSwap_eq_append _)

/-- The operations with a 16-bit immediate: each gives its table's value of X[a] and the immediate. -/
theorem exec_immTable : ∀ e ∈ immTable, ∀ (d a : BitVec 5) (i : BitVec 16) (s : State),
    exec (e.1 d a i) s = s.alu [a] d (e.2 (s.cur.x a) i) := by
  simp only [immTable, List.forall_mem_cons]
  refine ⟨?addi, ?andi, ?ori, ?xori, ?slti, ?sltiu, List.forall_mem_nil _⟩ <;> intro d a i s
  case addi | andi | ori | xori => rfl
  case slti => rw [← ofBoolW_slt]; rfl
  case sltiu => rw [← ofBoolW_ult]; rfl

/-- The shifts by an amount of the word: each gives its table's value of X[a] and the amount. -/
theorem exec_shiftTable : ∀ e ∈ shiftTable, ∀ (d a : BitVec 5) (n : BitVec 6) (s : State),
    exec (e.1 d a n) s = s.alu [a] d (e.2 (s.cur.x a) n.toNat) := by
  simp only [shiftTable, List.forall_mem_cons]
  exact ⟨fun _ _ _ _ => rfl, fun _ _ _ _ => rfl, fun _ _ _ _ => rfl, List.forall_mem_nil _⟩

theorem completes_of_alu_one {i : Instr} {s : State} {a d : BitVec 5} {v : Word} (he : exec i s = s.alu [a] d v)
    (hw : Waited s [a]) : Completes i s (AluDone s d v (s.cur.px a)) := by
  rw [← any_px_one]
  exact completes_of_alu he hw
theorem completes_of_alu_two {i : Instr} {s : State} {a b d : BitVec 5} {v : Word} (he : exec i s = s.alu [a, b] d v)
    (hw : Waited s [a, b]) : Completes i s (AluDone s d v (s.cur.px a || s.cur.px b)) := by
  rw [← any_px_two]
  exact completes_of_alu he hw

/-- STRICT has nothing to check where an instruction reads no register (R119). -/
theorem waited_nil (s : State) : Waited s [] := fun _ => List.forall_mem_nil _

/-! The words of major 0x06 that hold no instruction (R239, R246). -/

/-- The major of a word that is not a pair word decides its meaning (R214). -/
theorem decode_of_major {w : Half} {k : BitVec 6} (hk : w.extractLsb' 26 6 = k) (hp : k.extractLsb' 4 2 ≠ 3#2) :
    decode w false = checked (decodeMajor w) := by
  have alone : ¬isPair w = true := by
    unfold isPair
    rw [major_top, hk]
    exact fun h => hp (eq_of_beq h)
  unfold decode
  rw [if_neg alone, if_neg Bool.false_ne_true]

theorem zero_of_ne {n : Nat} {x : BitVec n} (h : x ≠ 0) (r : Decoded) : zero x r = .error .unused := if_neg h

theorem decodeMajor06_kind3 {w : Half} (hk : w.extractLsb' 6 2 = 3) : decodeMajor06 w = .error .function := by
  unfold decodeMajor06
  rw [hk]
  rfl

/-- With a bit set in [15:8], each kind of shift meets its unused field, and kind 0b11 no function. -/
theorem decodeMajor06_res {w : Half} (hr : w.extractLsb' 8 8 ≠ 0) : ∃ e, decodeMajor06 w = .error e := by
  unfold decodeMajor06
  split
  case h_1 | h_2 | h_3 => exact ⟨_, zero_of_ne hr _⟩
  case h_4 => exact ⟨_, rfl⟩

theorem decode_major06_error {w : Half} (hm : w.extractLsb' 26 6 = 0x06)
    (hw : w.extractLsb' 6 2 = 3 ∨ w.extractLsb' 8 8 ≠ 0) : ∃ e, decode w false = .error e := by
  obtain ⟨e, he⟩ : ∃ e, decodeMajor06 w = .error e := hw.elim (fun hk => ⟨_, decodeMajor06_kind3 hk⟩) decodeMajor06_res
  exact ⟨e, by rw [decode_of_major hm (by decide), major_06 w hm, he]; rfl⟩

/-- Settles O8: each form runs the shared operation of a latency-1 result on its table's value, and the words of major 0x06 that
R246 refuses fail in the decoder. -/
theorem integerForms : Obligations.IntegerForms := by
  unfold Obligations.IntegerForms
  refine ⟨?regs, ?bits, ?illegal, ?imms, ?shifts, ?upper⟩
  case regs => exact fun e he d a b s hw => completes_of_alu_two (exec_intTable e he d a b s) hw
  case bits => exact fun e he d a s hw => completes_of_alu_one (exec_bitTable e he d a s) hw
  case illegal => exact fun w hm hw => decode_major06_error hm hw
  case imms => exact fun e he d a i s hw => completes_of_alu_one (exec_immTable e he d a i s) hw
  case shifts => exact fun e he d a n s hw => completes_of_alu_one (exec_shiftTable e he d a n s) hw
  case upper => exact fun d i s => ⟨completes_of_alu rfl (waited_nil s), completes_of_alu rfl (waited_nil s)⟩

end Sys2Proof.Proofs
end
